-- ==== Sys2Proof/Word.lean ====
section
/-! DEFINITION. The word types of the KV9 and their plainest arithmetic (R3, R76). -/

namespace Sys2Proof

/-- A 64-bit register or instruction word. -/
abbrev Word := BitVec 64
/-- One byte. -/
abbrev Byte := BitVec 8
/-- A 256-B row, vector register or queue entry: byte b is bits [8b + 7 : 8b] (R4, R114). -/
abbrev Row := BitVec 2048
/-- An accumulator: 256 lanes of 32 bits (R115). -/
abbrev Acc := BitVec 8192
/-- A lane mask (R116). -/
abbrev Mask := BitVec 256
/-- A 6-bit layout code (R47). -/
abbrev Layout := BitVec 6
/-- A context number: VF in [9:4], address-space number in [3:0]. -/
abbrev Ctx := BitVec 10

/-- The sequencers of a core (R14): CTL 0, LD 1, EX 2, ST 3. -/
inductive Seq where
  | ctl | ld | ex | st
  deriving DecidableEq, Repr

/-- The number of a sequencer (R14). -/
def Seq.num : Seq → Fin 4
  | .ctl => 0
  | .ld => 1
  | .ex => 2
  | .st => 3

/-- The sequencer with a number. -/
def Seq.ofNum (n : Fin 4) : Seq :=
  match n with
  | 0 => .ctl
  | 1 => .ld
  | 2 => .ex
  | 3 => .st

/-- All four sequencers, in ascending number. -/
def Seq.all : List Seq := [.ctl, .ld, .ex, .st]

/-- The package-wide number of a core: clusterid × 128 + coreid (R14). -/
abbrev CoreId := Fin 2048
/-- The number of a cluster in the package. -/
abbrev ClusterId := Fin 16

end Sys2Proof
end

