-- ==== Sys2Proof/Syntax.lean ====
section
/-! DEFINITION. The syntax of the KV9's steps: one constructor of `Instr` per row of spec/opcode_table.json. The
instruction rows carry the fields of their words (R58-R64), the event rows carry what the event is about. -/

namespace Sys2Proof

/-- Conditions of BC and CMP (R60), AL apart. -/
inductive Cond where
  | eq | ne | lt | ge | ltn | gen
  deriving DecidableEq, Repr

/-- A scalar source: kinds 01, 10 and 11 of R65. -/
inductive SSrc where
  | s (n : Fin 32)
  | c (n : Fin 256)
  | lit (x : BitVec 8)
  deriving DecidableEq, Repr

/-- A source of an EX instruction on lanes (R65, R66); `q n` is q0-q7. -/
inductive VSrc where
  | v (n : Fin 64)
  | a (n : Fin 64)
  | q (n : Fin 8)
  | sc (x : SSrc)
  deriving DecidableEq, Repr

/-- A kind-00 destination of an EX instruction on lanes; `q n` is q(8 + n). -/
inductive VDst where
  | v (n : Fin 64)
  | a (n : Fin 64)
  | q (n : Fin 4)
  deriving DecidableEq, Repr

/-- A destination of VRED and VMAXI: lanes, or a scalar register (R138, R139). -/
inductive RDst where
  | lanes (d : VDst)
  | s (n : Fin 32)
  deriving DecidableEq, Repr

/-- Types of the scalar integer instructions (R98). -/
inductive STy where
  | i64 | n64 | i32 | n32
  deriving DecidableEq, Repr

/-- The eleven lane types (R114). -/
inductive LTy where
  | i8 | n8 | i16 | n16 | i32 | n32 | e4m3 | e5m2 | fp16 | bf16 | fp32
  deriving DecidableEq, Repr

/-- Element types of VPACK and VUNPK (R136). -/
inductive ElTy where
  | e2m1 | e4m3 | e5m2 | i4
  deriving DecidableEq, Repr

/-- Block layouts of VBSC (R135). -/
inductive ScLay where
  | kf4 | mxfp4 | mxfp8e4 | mxfp8e5
  deriving DecidableEq, Repr

/-- Access granules (R61). -/
inductive Gran where
  | sec | line | row
  deriving DecidableEq, Repr

/-- Path hints (R61). -/
inductive Hint where
  | none | na | lu
  deriving DecidableEq, Repr

/-- Memory scopes (R62). -/
inductive Scope where
  | core | clu | die | pkg | fab | sys
  deriving DecidableEq, Repr

/-- Memory orders (R62). -/
inductive Order where
  | rlx | acq | rel | ar
  deriving DecidableEq, Repr

/-- Access paths (R22, R62). -/
inductive Path where
  | core | tensor | gather | coll | code | host
  deriving DecidableEq, Repr

/-- Scalar operation of one source. -/
structure S1 where
  ty  : STy
  dst : Fin 32
  a   : SSrc
  deriving DecidableEq, Repr

/-- Scalar operation of two sources. -/
structure S2 where
  ty  : STy
  dst : Fin 32
  a   : SSrc
  b   : SSrc
  deriving DecidableEq, Repr

/-- SEL: three sources. -/
structure S3 where
  ty  : STy
  dst : Fin 32
  a   : SSrc
  b   : SSrc
  c   : SSrc
  deriving DecidableEq, Repr

/-- BC: always, or a condition on two sources (R101). -/
inductive BCond where
  | al
  | cmp (c : Cond) (a b : SSrc)
  deriving DecidableEq, Repr

/-- Lane operation of one source: destination, type, mask register, mz. -/
structure V1 where
  dst  : VDst
  ty   : LTy
  mask : Fin 8
  mz   : Bool
  a    : VSrc
  deriving DecidableEq, Repr

/-- Lane operation of two sources. -/
structure V2 where
  dst  : VDst
  ty   : LTy
  mask : Fin 8
  mz   : Bool
  a    : VSrc
  b    : VSrc
  deriving DecidableEq, Repr

/-- Lane operation of three sources. -/
structure V3 where
  dst  : VDst
  ty   : LTy
  mask : Fin 8
  mz   : Bool
  a    : VSrc
  b    : VSrc
  c    : VSrc
  deriving DecidableEq, Repr

/-- VCMP: destination mask, type, governing mask, mz, sources (R127). -/
structure VCmp where
  kd   : Fin 8
  ty   : LTy
  mask : Fin 8
  mz   : Bool
  x    : VSrc
  y    : VSrc
  deriving DecidableEq, Repr

/-- The two forms of VBCAST (R129): lane j of a source, or base + l × step. -/
inductive BcastForm where
  | lane (a : VSrc) (j : BitVec 8)
  | index (base : SSrc) (step : BitVec 8)
  deriving DecidableEq, Repr

/-- VRED and VMAXI: destination, type, mask, mz, source, seg (R138). -/
structure VRed where
  dst  : RDst
  ty   : LTy
  mask : Fin 8
  mz   : Bool
  a    : VSrc
  seg  : BitVec 8
  deriving DecidableEq, Repr

/-- VPACK and VUNPK (R136, R137): `blk` is the literal 24 or 32, 0 for I4; `scale` is the second source, absent for I4. -/
structure VPk where
  el    : ElTy
  ty    : LTy
  mask  : Fin 8
  dst   : VDst
  a     : VSrc
  scale : Option VSrc
  blk   : BitVec 8
  deriving DecidableEq, Repr

/-- One written term slot (R64, R250). A `tscl` fills two slots. `src` is the 7-bit index: v0-v63, then a0-a63. -/
inductive Slot where
  | nop
  | tmac (d : Fin 64) (src : Fin 128) (w : BitVec 8)
  | tadd (d : Fin 64) (src : Fin 128)
  | tpair (d : Fin 64) (src src2 : Fin 128)
  | tset (d : Fin 64) (src : Fin 128)
  | tscl (f : Fin 64) (p : Fin 64) (scale : BitVec 16)
  | tclr (d : Fin 64)
  deriving DecidableEq, Repr

/-- The M-format fields of an access that names a queue and a shape (R61). -/
structure MOp where
  q    : Fin 16
  base : Fin 32
  sh   : Fin 16
  gran : Gran
  hint : Hint
  off  : BitVec 32
  deriving DecidableEq, Repr

/-- An M-format scratchpad access: queue, base, offset (R169, R170). -/
structure PadOp where
  q    : Fin 16
  base : Fin 32
  off  : BitVec 32
  deriving DecidableEq, Repr

/-- The source of SHLD (R155). -/
inductive ShldSrc where
  | mem (base : Fin 32) (off : BitVec 32)
  | queue (q : Fin 16)
  deriving DecidableEq, Repr

/-- Modes of DRAIN (R339). -/
inductive DrainMode where
  | full | any | attempt
  deriving DecidableEq, Repr

/-- The fields of a C-format command (R62), yp apart. -/
structure CCmd where
  tsm   : Bool
  sa    : Fin 32
  sb    : Fin 32
  sc    : Fin 32
  sh    : Fin 16
  hitch : Fin 32
  nb    : Fin 32
  tag   : BitVec 5
  scope : Scope
  order : Order
  imm   : BitVec 10
  deriving DecidableEq, Repr

/-- The special registers (R91 and the chapters that define 0x100-0x1FF). -/
inductive Spr where
  | pc | seqid | coreid | clusterid | dieid | vfid | ctxid | gtb | phase
  | cause | epc | tval | status
  | lc (n : Fin 4) | lbeg (n : Fin 4) | lend (n : Fin 4) | lstk
  | splret | tsa | dpc | dres | ycnt | gvs | cflt
  | tvec | tstat | sscr
  | qst (n : Fin 16)
  | tlbinv | l2flo | l2fhi | l2fcmd | frel
  | lkl (n : Fin 16) | lkres
  | efva | efdone | efpc | efctl
  | afc (n : Fin 16) | pwmode
  | relpol | rlcnt | rlsel | rld (n : Fin 4) | errinj | errinja
  deriving DecidableEq, Repr

/-- The trap causes and violation kinds (R351, R360). -/
inductive Cause where
  | illegalInstruction | misalignedBundle | wrongSequencer | illegalFunction | operandKindUnavailable
  | reservedOperand | misalignedTarget | loopDepth | loopCounterBusy | yieldAssertion | yieldBoundExceeded
  | notInTrap | softwareTrap | systemCall
  | addressOutOfRange | pageFault | accessDenied | stashNotAllowed | conversionUnavailable | layoutMismatch
  | badPageEntry | reservedLayout | frameOutOfRange | outsideStash | stashFull | stashWindowOverlap | stashRowBusy
  | rowNotClaimed | formatOverflow | formatOrder | badBlockHeader
  | queueDirection | tokenOverflow | tokenUnderflow | branchQueueOverflow | phaseMismatch | gangNotFixed
  | hitchBusy | hitchUnderflow | replyTagMismatch | deferralOverflow
  | engineOperand | misalignedAtomic | atomicScopeIllegal | collectiveChecksum | collectiveTimeout
  | tensorFormat | tensorNestFault | ringNotConfigured | ringOverlap | tensorFault | cutPending | noCutToFollow
  | severitySV1 | severitySV2 | severitySV3 | checkerMismatch | injectedError
  | codePageFault | notCode
  | badGweideRegion | gweideOperand | kv7FormUnavailable
  | recordNotReady | fabricUnreachable | fabricRefused
  deriving DecidableEq, Repr

/-- The kinds of protection violation (R360). -/
inductive VKind where
  | privilegedRegister | supervisorPage | foreignPage | codeWrite | foreignRow | foreignHitch
  | privilegedInstruction | doubleTrap | hostAccess
  deriving DecidableEq, Repr

/-- The BAR registers whose write has no behaviour of its own (R400, R404, R405, R416). -/
inductive HostReg where
  | sqsize (vf : Fin 64) (q : Fin 4)
  | lgrp (vf : Fin 64)
  | evq (vf : Fin 64)
  | rrec (vf : Fin 64)
  | vfrst (vf : Fin 64)
  | ctxtab | psave | vlbase
  | mpd (n : Fin 16)
  | hdmlay
  | exp (n : Fin 64) (hi : Bool)
  | rt (n : Fin 1024)
  | gtbctl | pwcap | fwaddr | attaddr
  deriving DecidableEq, Repr

/-- A request that reaches this package over Hawser (R408, R192): from a node, with the layout code of its translation
(and context, for the owner tag it leaves), a read, a write of one sector, an atomic element,
or a chunk of a COLL: its data rows and its trailer, each with its place, the first or the second time that it is sent (R325-R327). -/
inductive RemoteOp where
  | read
  | write (data : BitVec 256)
  | atomic (op : BitVec 5) (w64 sgn : Bool) (a b : Word)
  | chunk (int again : Bool) (rows : List (BitVec 47 × BitVec 2048))
  deriving DecidableEq, Repr

/-- A remote request: node, physical address, layout code, context of the requester, operation. -/
structure RemoteReq where
  node : BitVec 10
  pa   : BitVec 47
  code : Layout
  ctx  : Ctx
  noncoherent : Bool
  op   : RemoteOp
  deriving DecidableEq, Repr

/-- The steps of the machine: one constructor per row of spec/opcode_table.json, in the table's order. -/
inductive Instr where
  -- scalar (R99, R100)
  | add (o : S2) | sub (o : S2) | mul (o : S2) | mulh (o : S2)
  | and (o : S2) | or (o : S2) | xor (o : S2) | shl (o : S2) | shr (o : S2) | sra (o : S2)
  | min (o : S2) | max (o : S2) | sel (o : S3) | cmp (o : S2) (c : Cond) | popc (o : S1) | clz (o : S1)
  | li (dst : Fin 32) (imm : BitVec 32) | lih (dst : Fin 32) (imm : BitVec 32)
  -- control (R101-R113)
  | bc (c : BCond) (disp : BitVec 32)
  | bq (t : Bool) (disp : BitVec 32)
  | call (link : Fin 32) (disp : BitVec 32)
  | jr (link : Fin 32) (base : SSrc) (off : BitVec 32)
  | ret (base : SSrc)
  | loop (n : Fin 4) (src : SSrc) (endOff : BitVec 32)
  | loopi (n : Fin 4) (count endOff : BitVec 16)
  | lexit (src : SSrc)
  | nop
  | toks (tk : Fin 16) (n : BitVec 6) | tokw (tk : Fin 16) (n : BitVec 6)
  | tokt (dst : Fin 32) (tk : Fin 16) (n : BitVec 6)
  | bqp (src : SSrc) (bq : Fin 4)
  | cbw (c : Fin 256) (src : SSrc)
  | mfsr (dst : Fin 32) (r : Spr) | mtsr (src : SSrc) (r : Spr)
  -- access, LD (R171, R268, R278, R339)
  | ldr (o : MOp) | ldl (o : MOp) | lds (o : MOp) | spr (o : PadOp)
  | ldt (delta : Fin 16) (base : Fin 32) (sh : Fin 16) (hint : Hint) (off : BitVec 32)
  | pref (base : Fin 32) (sh : Fin 16) (gran : Gran) (hint : Hint) (off : BitVec 32)
  | trd (q : Fin 16) (tile : Fin 4) (base : Fin 32) (r : BitVec 5) (rel : Bool)
  | drain (dst : Fin 32) (mode : DrainMode) (off : BitVec 32)
  -- cutter (R290-R299)
  | tcut (hold : Bool) (b : Fin 8) (base : Fin 32) (sh : Fin 16) (off : BitVec 32)
  | tfol (b : Fin 8) (base : Fin 32) (sh : Fin 16) (ring : Fin 8) (off : BitVec 32)
  | bget (dst : Fin 32) (b : Fin 8) | bset (b : Fin 8) (src : Fin 32)
  -- access, ST (R172)
  | str (o : MOp) | stl (o : MOp) | spw (o : PadOp) | snd (o : PadOp) | strm (o : MOp)
  -- shapes and windows (R155, R156, R164, R166)
  | shld (sh : Fin 16) (src : ShldSrc)
  | shset (sh : Fin 16) (k : Fin 8) (base : Fin 32) (off : BitVec 32)
  | shget (dst : Fin 32) (sh : Fin 16) (k : Fin 8)
  | smap (w : Fin 16) (base : Fin 32) (lsz : BitVec 5) (row : BitVec 11) (count : BitVec 16)
  | sunmap (w : Fin 16)
  -- vector integer (R123, R124)
  | vadd (sat : Bool) (o : V2) | vsub (sat : Bool) (o : V2) | vmul (sat : Bool) (o : V2)
  | vmulh (o : V2) | vmin (o : V2) | vmax (o : V2) | vabs (sat : Bool) (o : V1) | vneg (sat : Bool) (o : V1)
  | vand (o : V2) | vor (o : V2) | vxor (o : V2) | vnot (o : V1)
  | vshl (o : V2) | vshlSat (o : V2) | vshr (o : V2) | vsra (o : V2) | vpopc (o : V1)
  -- vector float (R125, R126)
  | vfadd (sat rz : Bool) (o : V2) | vfsub (sat rz : Bool) (o : V2) | vfmul (sat rz : Bool) (o : V2)
  | vfmin (o : V2) | vfmax (o : V2) | vfabs (o : V1) | vfneg (o : V1)
  | vfma (sat rz : Bool) (o : V3) | vfms (sat rz : Bool) (o : V3) | vfnma (sat rz : Bool) (o : V3)
  -- compares and masks (R127, R128)
  | vcmpEq (o : VCmp) | vcmpNe (o : VCmp) | vcmpLt (o : VCmp) | vcmpLe (o : VCmp) | vcmpGt (o : VCmp)
  | vcmpGe (o : VCmp) | vcmpUn (o : VCmp)
  | kand (d a b : Fin 8) | kor (d a b : Fin 8) | kxor (d a b : Fin 8) | knot (d a : Fin 8) | kmov (d a : Fin 8)
  | kpopc (dst : Fin 32) (a : Fin 8)
  -- moves, selects, permutes (R129-R131)
  | vsel (o : V2) (k : Fin 8)
  | vbcast (dst : VDst) (ty : LTy) (mask : Fin 8) (mz : Bool) (f : BcastForm)
  | vperm (o : V2)
  | vrot (o : V1) (n : SSrc)
  | vrmg (dst : VDst) (mask : Fin 8) (mz : Bool) (a b : VSrc) (n : SSrc)
  | vmov (o : V1)
  -- conversions and blocks (R132-R137)
  | vcvt (sat rz : Bool) (sty : LTy) (o : V1) (part : BitVec 8)
  | vpack (o : VPk) | vunpk (o : VPk)
  | vbsc (lay : ScLay) (ty : LTy) (mask : Fin 8) (dst : VDst) (a : VSrc)
  -- reductions (R138, R139)
  | vredAdd (o : VRed) | vredMin (o : VRed) | vredMax (o : VRed) | vredAnd (o : VRed) | vredOr (o : VRed)
  | vredXor (o : VRed) | vredFadd (o : VRed) | vredFmin (o : VRed) | vredFmax (o : VRed) | vmaxi (o : VRed)
  -- transcendentals, classification (R140-R142)
  | vexp2 (o : V1) | vlog2 (o : V1) | vrcp (o : V1) | vrsq (o : V1)
  | vcls (o : V1)
  | vbq (ty : LTy) (mask : Fin 8) (a : VSrc) (bq : Fin 4) (all : Bool)
  | defer (mask : Fin 8) (stage : Fin 32) (t a g : Fin 64)
  -- accumulator forms (R143-R145), SPLC, TB
  | amov (o : V1) (part : BitVec 8)
  | aclr (mask : Fin 8) (d : Fin 64)
  | acvt (dst : VDst) (ty : LTy) (mask : Fin 8) (mz : Bool) (a : Fin 64) (ctl : BitVec 8)
  | splc
  | tb (tsm : Bool) (slots : List Slot)
  -- engine commands (R267-R282, R309-R325, R229, R340)
  | rcfg (c : CCmd) | tcfg (c : CCmd) | tgo (c : CCmd) | twait (c : CCmd) | tstat (c : CCmd) | tdisc (c : CCmd)
  | gather (c : CCmd) | scatter (c : CCmd) | pool (c : CCmd) | copy (c : CCmd) | fill (c : CCmd)
  | aowAddi32 (c : CCmd) | aowAddi64 (c : CCmd) | aowAddf32 (c : CCmd) | aowMax (c : CCmd) | aowMin (c : CCmd)
  | aowAnd (c : CCmd) | aowOr (c : CCmd) | aowXor (c : CCmd) | aowSwap (c : CCmd) | cas (c : CCmd)
  | selk (c : CCmd) | nbt (c : CCmd) | coll (c : CCmd)
  | cgen (c : CCmd) | clock (c : CCmd) | cunlk (c : CCmd) | cpref (c : CCmd) | cswap (c : CCmd)
  | dflush (c : CCmd) | lenq (c : CCmd) | stgq (c : CCmd)
  -- phases, hitches, replies (R203-R211)
  | pend | sync (lvl : Fin 8) | xfence (src dst : Path) (scope : Scope)
  | hinit (h : Fin 32) (n : BitVec 16) | harv (h : Fin 32) (n : BitVec 16) | hwait (dst h : Fin 32) (poll : Bool)
  | rpop (dst : Fin 32) (tag : BitVec 5) (any : Bool) | rtry (dst : Fin 32) (tag : BitVec 5) (any : Bool)
  -- system (R353, R384)
  | trap (n : BitVec 16) | sys (n : BitVec 16) | eret | yield | halt
  | gvi (len : BitVec 16)
  -- events of one sequencer or core
  | gviRegionRun (core : CoreId)
  | decodeTrap (cause : Cause) (word : Word)
  | engineFaultDelivery
  | yieldBoundExceeded
  | severityTrap
  | diversion (core : CoreId)
  | prqPreempt (core : CoreId) (ctx : Ctx)
  | prqRestore (core : CoreId) (ctx : Ctx)
  | contextSwitch (core : CoreId)
  | contextRestore (core : CoreId)
  | preemptLate (core : CoreId)
  | vdecRetry (index : Byte) | vdecSkip (index : Byte) | vdecTerminate (index : Byte)
  | vfReset (vf : Fin 64)
  | phaseEnd (core : CoreId)
  | publicationComplete (core : CoreId)
  | gangBarrierRelease (core : CoreId)
  | loadDataArrival (core : CoreId)
  | storePerformed (core : CoreId)
  | exPushPerformed (core : CoreId)
  | pageWalk (cluster : ClusterId)
  | tlbinvPage (value : Word) | tlbinvContext (value : Word) | tlbinvAll (value : Word)
  | l2Clean | l2CleanInvalidate
  | frameRelease (value : Word)
  | l2SliceService (slice : Fin 128)
  | l2MissFill (slice : Fin 128)
  | l2Scrub (la : Nat)
  | hbmScrub (sector : Nat)
  | scrubPeriodReset
  | errorInject (value : Word)
  | efctlResume | efctlDropHead | efctlDropAll
  | checkerRollback (core : CoreId)
  | tensorReplay (core : CoreId)
  | tensorKstep (core : CoreId)
  | kstepLand (core : CoreId)
  | nestComplete (core : CoreId)
  | engineCommandStart (core : CoreId)
  | engineCommandComplete (core : CoreId)
  | atomicApply (core : CoreId)
  | collChunkArrival (core : CoreId)
  | collTimeout (core : CoreId)
  | hawserRemoteRequest (r : RemoteReq)
  | hawserFlitRetry (port : Fin 36)
  | hawserPortDown (port : Fin 36)
  | fabricUnreachable (core : CoreId)
  | memportTimeout (core : CoreId)
  | gtbTimeMessage (master : Word)
  | gtbLost
  | schedInterval (cluster : ClusterId)
  | launchStart (cluster : ClusterId)
  | strandStart (core : CoreId)
  | launchDoorbell (vf : Fin 64) (value : Word)
  | recordReread (vf : Fin 64) (q : Fin 4)
  | sqbaseWrite (vf : Fin 64) (q : Fin 4) (value : Word)
  | hostRegisterWrite (r : HostReg) (value : Word)
  | hdmRead (pa : BitVec 47) (len : Nat)
  | hdmWrite (pa : BitVec 47) (bytes : List Byte)
  | vfApertureRead (vf : Fin 64) (off : BitVec 36) (len : Nat)
  | vfApertureWrite (vf : Fin 64) (off : BitVec 36) (bytes : List Byte)
  | codeLineFill (core : CoreId) (seq : Seq)
  | powerCheck (watts : BitVec 16)
  | thermalHot (celsius : Byte) | thermalCool (celsius : Byte) | thermalShutdown (celsius : Byte)
  | packageReset | firstDieBringup | remainingDiesBringup | fullServiceEntry
  | attestationReport
  | firmwareActivate (value : Word)
  | codeCommandExecute (core : CoreId)
  | tensorCommandExecute (core : CoreId)
  | stageCommandExecute (core : CoreId)
  | hawserPortUp (port : Fin 36)
  | preemptCancel (core : CoreId)
  deriving DecidableEq, Repr

/-- A fetched instruction: its yield-point bit and the instruction (bit 57 of a word, R58-R63). -/
structure Fetched where
  yp    : Bool
  instr : Instr
  deriving DecidableEq, Repr

end Sys2Proof
end

