-- ==== Sys2Proof/WellFormed.lean ====
section
/-! DEFINITION. Which instructions obey the field rules of the manual (checks 6 and 7 of R69): `Instr.fieldsOk` holds what
a reserved-operand check refuses, `Instr.queuesOk` what a queue-direction check refuses. -/

namespace Sys2Proof

/-- Lane width in bits (R114). -/
def LTy.width : LTy → Nat
  | .i8 | .n8 | .e4m3 | .e5m2 => 8
  | .i16 | .n16 | .fp16 | .bf16 => 16
  | .i32 | .n32 | .fp32 => 32

/-- log2 of the lane count N of a 256-B register (R114). -/
def LTy.log2N (t : LTy) : Nat :=
  match t.width with
  | 8 => 8
  | 16 => 7
  | _ => 6

/-- Lane count N of a 256-B register (R114). -/
def LTy.lanes (t : LTy) : Nat := 2 ^ t.log2N

/-- An integer lane type. -/
def LTy.isInt : LTy → Bool
  | .i8 | .n8 | .i16 | .n16 | .i32 | .n32 => true
  | _ => false

/-- A signed integer lane type. -/
def LTy.isSigned : LTy → Bool
  | .i8 | .i16 | .i32 => true
  | _ => false

/-- The types of float arithmetic: FP16, BF16, FP32 (R125). -/
def LTy.isArith : LTy → Bool
  | .fp16 | .bf16 | .fp32 => true
  | _ => false

/-- What a kind-00 field names, for the wide-form rule of R115: an accumulator, another register or queue, or nothing. -/
inductive Kind00 where
  | acc | other | none
  deriving DecidableEq, Repr

/-- The kind-00 class of a source. -/
def VSrc.k00 : VSrc → Kind00
  | .a _ => .acc
  | .v _ | .q _ => .other
  | .sc _ => .none

/-- The kind-00 class of a destination. -/
def VDst.k00 : VDst → Kind00
  | .a _ => .acc
  | _ => .other

/-- Some kind-00 field names an accumulator: the wide form (R115). -/
def wideOf (ks : List Kind00) : Bool := ks.any (· == .acc)

/-- R115: accumulators only or none, and a wide form has a 32-bit type. -/
def wideOk (ty : LTy) (ks : List Kind00) : Bool :=
  !wideOf ks || (ks.all (· != .other) && ty.width == 32)

/-- No field names an accumulator (R115, R130). -/
def noAcc (ks : List Kind00) : Bool := !wideOf ks

def V1.wide (o : V1) : Bool := wideOf [o.dst.k00, o.a.k00]
def V2.wide (o : V2) : Bool := wideOf [o.dst.k00, o.a.k00, o.b.k00]
def V3.wide (o : V3) : Bool := wideOf [o.dst.k00, o.a.k00, o.b.k00, o.c.k00]
def VCmp.wide (o : VCmp) : Bool := wideOf [o.x.k00, o.y.k00]
def V1.wideOk (o : V1) : Bool := Sys2Proof.wideOk o.ty [o.dst.k00, o.a.k00]
def V2.wideOk (o : V2) : Bool := Sys2Proof.wideOk o.ty [o.dst.k00, o.a.k00, o.b.k00]
def V3.wideOk (o : V3) : Bool := Sys2Proof.wideOk o.ty [o.dst.k00, o.a.k00, o.b.k00, o.c.k00]
def VCmp.wideOk (o : VCmp) : Bool := Sys2Proof.wideOk o.ty [o.x.k00, o.y.k00]

/-- The kind-00 classes of a reduction's fields. -/
def VRed.k00s (o : VRed) : List Kind00 :=
  match o.dst with
  | .lanes d => [d.k00, o.a.k00]
  | .s _ => [o.a.k00]

def VRed.wide (o : VRed) : Bool := wideOf o.k00s

/-- log2 of the lane count a reduction works on: 8 in the wide form (R115). -/
def VRed.log2N (o : VRed) : Nat := if o.wide then 8 else o.ty.log2N

/-- R138: the segment fits, and a scalar destination needs the whole register and mz = 0. -/
def VRed.ok (o : VRed) : Bool :=
  wideOk o.ty o.k00s && decide (o.seg.toNat ≤ o.log2N) &&
    match o.dst with
    | .lanes _ => true
    | .s _ => decide (o.seg.toNat = o.log2N) && !o.mz

/-- Number of parts of VCVT (R132). -/
def cvtParts (src dst : LTy) : Nat :=
  if src.width < dst.width then dst.width / src.width
  else if dst.width < src.width then src.width / dst.width
  else 1

/-- R136, R137: element type, lane type, block literal and scale agree. -/
def VPk.ok (o : VPk) : Bool :=
  noAcc [o.dst.k00, o.a.k00] &&
    match o.el with
    | .i4 => o.ty == .i8 && o.scale == none && o.blk == 0
    | .e2m1 => o.ty.isArith && (o.blk == 24 || o.blk == 32) && scaleOk o.scale
    | .e4m3 | .e5m2 => o.ty.isArith && o.blk == 32 && scaleOk o.scale
where
  scaleOk : Option VSrc → Bool
    | some x => x.k00 == .other
    | none => false

/-- Slots a written term slot fills (R64). -/
def Slot.size : Slot → Nat
  | .tscl _ _ _ => 2
  | _ => 1

/-- A bundle fills exactly five slots (R63). -/
def slotsOk (ss : List Slot) : Bool := (ss.map Slot.size).sum == 5

/-- The register and modifier fields of a command that its description leaves unused are zero (R68). -/
def CCmd.zero (c : CCmd) (sb sc sh hitch nb tag scope : Bool) : Bool :=
  (!sb || c.sb == 0) && (!sc || c.sc == 0) && (!sh || c.sh == 0) && (!hitch || c.hitch == 0) &&
    (!nb || c.nb == 0) && (!tag || c.tag == 0) && (!scope || c.scope == .core)

/-- A command of the tensor, code or stage queue: scope and order are zero (R229, R279, R340). -/
def CCmd.plain (c : CCmd) (sa sb sc sh hitch nb tag : Bool) : Bool :=
  (!sa || c.sa == 0) && c.zero sb sc sh hitch nb tag true && c.order == .rlx

/-- R315: W64, SGN and RET only where they are legal. A nonzero sh beside s0 for sc is taken as it stands, and ignored: R315's table has
sh zero or a list's shape, and R62's worked AOW has sh 2 with sc s0 (DEDUCED from R62, log 87). -/
def aowOk (c : CCmd) (w64Legal sgnLegal : Bool) : Bool :=
  (c.imm &&& 0x1FC#10) == 0 && (w64Legal || !c.imm.getLsbD 0) && (sgnLegal || !c.imm.getLsbD 1) &&
    (!c.imm.getLsbD 9 || c.sc == 0)

/-- LD pushes q0-q7 and q12-q13 (R157). -/
def ldPushes (q : Fin 16) : Bool := decide (q.val < 8) || q == 12 || q == 13
/-- ST pops q8-q13 (R157). -/
def stPops (q : Fin 16) : Bool := decide (8 ≤ q.val) && decide (q.val < 14)

/-- The field rules of each instruction (check 6 of R69). Events carry no word. -/
def Instr.fieldsOk : Instr → Bool
  | .jr _ b _ | .ret b => match b with
    | .lit _ => false
    | _ => true
  | .loop _ _ e => decide (2 ≤ e.toNat)
  | .loopi _ _ e => decide (2 ≤ e.toNat)
  | .toks _ n | .tokw _ n | .tokt _ _ n => n != 0
  | .ldr o | .lds o | .str o | .strm o => o.gran == .row
  | .ldl o | .stl o => o.gran != .row
  | .smap _ _ lsz _ count => decide (lsz.toNat ≤ 27) && decide (1 ≤ count.toNat) && decide (count.toNat ≤ 2048)
  | .vadd _ o | .vsub _ o | .vmul _ o | .vmulh o | .vmin o | .vmax o => o.ty.isInt && o.wideOk
  | .vabs _ o | .vneg _ o => o.ty.isInt && o.wideOk
  | .vand o | .vor o | .vxor o => o.wideOk
  | .vnot o => o.wideOk
  | .vshl o | .vshlSat o | .vshr o | .vsra o => o.ty.isInt && o.wideOk
  | .vpopc o => o.ty.isInt && o.wideOk
  | .vfadd _ _ o | .vfsub _ _ o | .vfmul _ _ o | .vfmin o | .vfmax o => o.ty.isArith && o.wideOk
  | .vfabs o | .vfneg o => o.ty.isArith && o.wideOk
  | .vfma _ _ o | .vfms _ _ o | .vfnma _ _ o => o.ty.isArith && o.wideOk
  | .vcmpEq o | .vcmpNe o | .vcmpLt o | .vcmpLe o | .vcmpGt o | .vcmpGe o => o.kd != 0 && o.wideOk
  | .vcmpUn o => o.kd != 0 && !o.ty.isInt && o.wideOk
  | .kand d _ _ | .kor d _ _ | .kxor d _ _ | .knot d _ | .kmov d _ => d != 0
  | .vsel o _ => o.wideOk
  | .vbcast d ty _ _ f => match f with
    | .lane a j => a.k00 != .none && wideOk ty [d.k00, a.k00] &&
        decide (j.toNat < (if wideOf [d.k00, a.k00] then 256 else ty.lanes))
    | .index _ _ => ty.isInt && wideOk ty [d.k00]
  | .vperm o => noAcc [o.dst.k00, o.a.k00, o.b.k00] && o.a.k00 != .none
  | .vrot o _ => noAcc [o.dst.k00, o.a.k00] && o.a.k00 != .none
  | .vrmg d _ _ a b _ => noAcc [d.k00, a.k00, b.k00]
  | .vmov o => o.wideOk
  | .vcvt _ _ sty o p => noAcc [o.dst.k00, o.a.k00] && decide (p.toNat < cvtParts sty o.ty)
  | .vpack o | .vunpk o => o.ok
  | .vbsc _ ty _ d a => ty.isArith && noAcc [d.k00, a.k00]
  | .vredAdd o | .vredMin o | .vredMax o | .vredAnd o | .vredOr o | .vredXor o => o.ty.isInt && o.ok
  | .vredFadd o | .vredFmin o | .vredFmax o => o.ty.isArith && o.ok
  | .vmaxi o => (o.ty.width != 8) && o.ok
  | .vexp2 o | .vlog2 o | .vrcp o | .vrsq o => o.ty.isArith && o.wideOk
  | .vcls o => o.wideOk
  | .vbq ty _ a _ _ => wideOk ty [a.k00]
  | .defer _ _ _ a _ => a.val % 2 == 0
  | .amov o p => o.ty.width == 32 && (match o.dst, o.a with
      | .v _, .a _ | .q _, .a _ => decide (p.toNat < 4)
      | .a _, .v _ | .a _, .q _ => decide (p.toNat < 4)
      | .a _, .a _ => p == 0
      | _, _ => false)
  | .acvt d ty _ _ _ ctl => d.k00 != .acc && ty.width != 32 && decide (ctl.toNat < 32) &&
      decide ((ctl.toNat % 4) < (if ty.width = 16 then 2 else 1))
  | .tb _ ss => slotsOk ss
  | .rcfg c => c.plain false true true true true true true && decide (c.imm.toNat < 8)
  | .tcfg c => c.plain false true true true true true true && decide (c.imm.toNat < 6)
  | .tgo c => c.plain true true true true false false true && decide (c.imm.toNat < 256) &&
      c.imm.extractLsb' 0 3 != c.imm.extractLsb' 3 3
  | .twait c => c.plain true true true true true true true && c.imm == 0
  | .tstat c => c.plain true true true true true true false && c.imm == 0
  | .tdisc c => c.plain false true true true true true true && decide (c.imm.toNat < 128) &&
      !(c.imm.getLsbD 5 && c.imm.getLsbD 6)
  | .gather c => c.order == .rlx && decide (c.imm.toNat < 2) && (!c.imm.getLsbD 0 || c.sc == 0)
  | .scatter c | .pool c => c.order == .rlx && c.imm == 0
  | .copy c => c.order == .rlx && c.sh == 0 && decide (c.imm.toNat < 8) && !(c.imm.getLsbD 2 && c.imm.getLsbD 1)
  | .fill c => c.order == .rlx && c.sh == 0 && (c.imm &&& 0x3FD#10) == 0
  | .aowAddi32 c | .aowAddi64 c | .aowAddf32 c => aowOk c false false
  | .aowMax c | .aowMin c => aowOk c true true
  | .aowAnd c | .aowOr c | .aowXor c | .aowSwap c => aowOk c true false
  | .cas c => c.sh == 0 && decide (c.imm.toNat < 2)
  | .selk c => c.order == .rlx && c.sh == 0 && decide (c.imm.toNat < 256)
  | .nbt c => c.order == .rlx && c.sa == 0 && c.sb == 0 && c.sc == 0 && c.sh == 0 && c.nb != 0 &&
      decide (c.imm.toNat < 2)
  | .coll c => c.order == .rlx && decide (c.imm.toNat < 8)
  | .cgen c => c.plain false false true true false false false && c.imm != 0
  | .clock c => c.plain false false true true false false false && c.imm == 0
  | .cunlk c => c.plain false true true true false false false && decide (c.imm.toNat < 2)
  | .cpref c => c.plain false false true true false false false && decide (c.imm.toNat < 2)
  | .cswap c => c.plain false false false true false false false && decide (c.imm.toNat < 16)
  | .dflush c => c.plain true true true true false false false && decide (c.imm.toNat < 16)
  | .lenq c => c.plain false true true true false false false && decide (c.imm.toNat < 32)
  | .stgq c => c.plain true true true true false false false && decide (c.imm.toNat < 16)
  | .xfence a b _ => a != b
  | .hinit _ n => n != 0
  | .harv _ n => n != 0
  | _ => true

/-- Queues named in their direction (check 7 of R69; R66, R155, R157, R278). The EX operand types name legal queues only. -/
def Instr.queuesOk : Instr → Bool
  | .ldr o | .ldl o | .lds o => ldPushes o.q
  | .spr o => ldPushes o.q
  | .trd q _ _ _ _ => ldPushes q
  | .str o | .stl o | .strm o => stPops o.q
  | .spw o => decide (8 ≤ o.q.val)
  | .snd o => stPops o.q
  | .shld _ (.queue q) => q == 14 || q == 15
  | _ => true

/-- A well-formed instruction: every field rule and queue direction holds. -/
def Instr.wf (i : Instr) : Bool := i.fieldsOk && i.queuesOk

/-- A well-formed fetched instruction: YIELD and GVI carry yp (R353, R384). -/
def Fetched.wf (f : Fetched) : Bool :=
  f.instr.wf && (match f.instr with
    | .yield | .gvi _ => f.yp
    | _ => true)

end Sys2Proof
end

