-- ==== Sys2Proof/Machine/Numbers.lean ====
section
/-! DEFINITION. The number formats of the KV9 and their integer arithmetic: the fields of lanes (R114), wrap and saturation
(R29, R76), and the shapes of the float formats (R30). -/

namespace Sys2Proof.Machine

/-! ## Lanes and integers -/

/-- Field l of width w of a number. -/
def laneOf (x w l : Nat) : Nat := (x >>> (w * l)) % 2 ^ w

/-- The number whose n fields of width w are f 0, ..., f (n - 1). -/
def pack (w : Nat) (f : Nat → Nat) : Nat → Nat
  | 0 => 0
  | n + 1 => pack w f n + (f n % 2 ^ w) * 2 ^ (w * n)

/-- Two's-complement value of a w-bit code. -/
def sval (w x : Nat) : Int := if 2 * x < 2 ^ w then (x : Int) else (x : Int) - (2 : Int) ^ w

/-- Wrap(r, w) of R76 as a w-bit code. -/
def wrap (w : Nat) (r : Int) : Nat := (r % (2 : Int) ^ w).toNat

/-- Sat(r, t) as a w-bit code (R29). -/
def satCode (w : Nat) (signed : Bool) (r : Int) : Nat :=
  let lo : Int := if signed then -((2 : Int) ^ (w - 1)) else 0
  let hi : Int := if signed then (2 : Int) ^ (w - 1) - 1 else (2 : Int) ^ w - 1
  wrap w (if r < lo then lo else if hi < r then hi else r)

/-- The value of an integer lane code. -/
def ival (w : Nat) (signed : Bool) (x : Nat) : Int := if signed then sval w x else (x : Int)

/-- Number of ones among the low w bits. -/
def popCount (x : Nat) : Nat → Nat
  | 0 => 0
  | w + 1 => popCount x w + (x >>> w) % 2

/-- Number of leading zeros among the low w bits. -/
def leadZeros (x : Nat) : Nat → Nat
  | 0 => 0
  | w + 1 => if (x >>> w) % 2 = 1 then 0 else 1 + leadZeros x w

/-! ## Float formats (R30) -/

/-- The float formats. -/
inductive Flt where
  | e2m1 | e4m3 | e5m2 | fp16 | bf16 | fp32
  deriving DecidableEq, Repr

/-- Significand bits stored. -/
def Flt.mbits : Flt → Nat
  | .e2m1 => 1
  | .e4m3 => 3
  | .e5m2 => 2
  | .fp16 => 10
  | .bf16 => 7
  | .fp32 => 23

/-- Exponent bits. -/
def Flt.ebits : Flt → Nat
  | .e2m1 => 2
  | .e4m3 => 4
  | .e5m2 => 5
  | .fp16 => 5
  | .bf16 => 8
  | .fp32 => 8

/-- Exponent bias. -/
def Flt.bias : Flt → Nat
  | .e2m1 => 1
  | .e4m3 => 7
  | .e5m2 => 15
  | .fp16 => 15
  | .bf16 => 127
  | .fp32 => 127

/-- Width in bits. -/
def Flt.width (t : Flt) : Nat := 1 + t.ebits + t.mbits

/-- Code of the largest finite magnitude. -/
def Flt.maxFin : Flt → Nat
  | .e2m1 => 7
  | .e4m3 => 0x7E
  | .e5m2 => 0x7B
  | .fp16 => 0x7BFF
  | .bf16 => 0x7F7F
  | .fp32 => 0x7F7FFFFF

/-- Code of +infinity where the format has one. -/
def Flt.infCode : Flt → Option Nat
  | .e2m1 | .e4m3 => none
  | .e5m2 => some 0x7C
  | .fp16 => some 0x7C00
  | .bf16 => some 0x7F80
  | .fp32 => some 0x7F800000

/-- The float format of a lane type. -/
def ltyFlt : LTy → Option Flt
  | .e4m3 => some .e4m3
  | .e5m2 => some .e5m2
  | .fp16 => some .fp16
  | .bf16 => some .bf16
  | .fp32 => some .fp32
  | _ => none

end Sys2Proof.Machine
end

