-- ==== Sys2Proof/Machine/Flags.lean ====
section
/-! DEFINITION. What stands in place of status flags. The KV9 has none (R39): every arithmetic event is recorded in the
value it affects, as a NaN payload (R40, R41) or by the substitution of R38. -/

namespace Sys2Proof.Machine

/-! ## NaN payloads (R40, R41) -/

/-- Event classes (R40). -/
inductive EvClass where
  | plain | invalid | overflow | poisoned | discarded | masked | unknown
  deriving DecidableEq, Repr

def EvClass.code : EvClass → Nat
  | .plain => 0
  | .invalid => 1
  | .overflow => 2
  | .poisoned => 3
  | .discarded => 4
  | .masked => 5
  | .unknown => 15

/-- Source units (R40). -/
inductive SrcUnit where
  | software | exVector | exTerm | tensor | ldDecode | stEncode | gather | coll | memory
  deriving DecidableEq, Repr

def SrcUnit.code : SrcUnit → Nat
  | .software => 0
  | .exVector => 1
  | .exTerm => 2
  | .tensor => 3
  | .ldDecode => 4
  | .stEncode => 5
  | .gather => 6
  | .coll => 7
  | .memory => 8

/-- An FP32 NaN from its fields (R40). -/
def nanBits (sign : Bool) (cls src detail : Nat) : BitVec 32 :=
  BitVec.ofNat 32 ((if sign then 0x80000000 else 0) + 0x7FC00000 + (cls % 16) * 2 ^ 18 + (src % 256) * 2 ^ 10 + detail % 1024)

/-- The NaN of an event. -/
def evNan (sign : Bool) (cls : EvClass) (u : SrcUnit) (detail : Nat) : BitVec 32 := nanBits sign cls.code u.code detail

def nanSign (x : BitVec 32) : Bool := x.getLsbD 31
def nanClass (x : BitVec 32) : Nat := (x.extractLsb' 18 4).toNat
def nanSource (x : BitVec 32) : Nat := (x.extractLsb' 10 8).toNat

/-- Narrowing of a NaN (R41); E4M3 and E2M1 turn an overflow-saturated NaN into the largest finite with its sign; a
plain E2M1 NaN has no code and its block carries it (R41). -/
def narrowNan (t : Flt) (x : BitVec 32) : Nat :=
  let sg := if nanSign x then 2 ^ (t.width - 1) else 0
  match t with
  | .fp32 => x.toNat ||| 0x00400000
  | .fp16 => sg + 0x7E00 + nanClass x * 32 + nanSource x % 32
  | .bf16 => sg + 0x7FC0 + nanClass x * 4 + nanSource x % 4
  | .e5m2 => sg + 0x7E + (if nanClass x = 0 then 0 else 1)
  | .e4m3 => sg + (if nanClass x = 2 then 0x7E else 0x7F)
  | .e2m1 => sg + (if nanClass x = 2 then 7 else 0)

/-- What an overflow gives (R38). -/
def overflowCode (t : Flt) (sat sign : Bool) (u : SrcUnit) : Nat :=
  let sg := if sign then 2 ^ (t.width - 1) else 0
  if sat || t == .e4m3 || t == .e2m1 then sg + t.maxFin
  else narrowNan t (evNan sign .overflow u 0)

end Sys2Proof.Machine
end

