-- ==== Sys2Proof/Machine/Arith.lean ====
section
/-! DEFINITION. Float arithmetic: exact values, rounding (R37, R38), NaN precedence (R42), conversions to integers (R29)
and block scales (R36). -/

namespace Sys2Proof.Machine

/-! ## Values -/

/-- A float value: a NaN as its FP32 widening, an infinity, or sign, magnitude and power of two. -/
inductive FV where
  | nan (x : BitVec 32)
  | inf (sign : Bool)
  | fin (sign : Bool) (mag : Nat) (e : Int)
  deriving DecidableEq, Repr

/-- The value of a code (R30-R32), NaNs widened and made quiet (R31, R41). -/
def decodeF (t : Flt) (code : Nat) : FV :=
  let s := decide (code / 2 ^ (t.width - 1) % 2 = 1)
  let e := code / 2 ^ t.mbits % 2 ^ t.ebits
  let m := code % 2 ^ t.mbits
  let top := 2 ^ t.ebits - 1
  let num : FV :=
    if e = 0 then .fin s m (1 - (t.bias : Int) - t.mbits)
    else .fin s (2 ^ t.mbits + m) ((e : Int) - t.bias - t.mbits)
  match t with
  | .e2m1 => num
  | .e4m3 => if e = top && m = 7 then .nan (nanBits s 0 0 0) else num
  | .e5m2 =>
    if e = top then (if m = 0 then .inf s else .nan (nanBits s (if m % 2 = 1 then 15 else 0) 0 0)) else num
  | .fp16 =>
    if e = top then (if m = 0 then .inf s else .nan (nanBits s (m / 32 % 16) (m % 32) 0)) else num
  | .bf16 =>
    if e = top then (if m = 0 then .inf s else .nan (nanBits s (m / 4 % 16) (m % 4) 0)) else num
  | .fp32 =>
    if e = top then (if m = 0 then .inf s else .nan (BitVec.ofNat 32 code ||| 0x00400000#32)) else num

/-- Code of the magnitude mag × 2^e rounded to t (R37), with the exponent unbounded above: a code past maxFin is an
overflow. `rz` rounds toward zero; otherwise to nearest, ties to even. -/
def roundMag (t : Flt) (rz : Bool) (mag : Nat) (e : Int) : Nat :=
  if mag = 0 then 0
  else
    let top : Int := (Nat.log2 mag : Int) + e
    let emin : Int := 1 - (t.bias : Int)
    let q : Int := (if top < emin then emin else top) - t.mbits
    let sig : Nat :=
      if q ≤ e then mag <<< (e - q).toNat
      else
        let s := (q - e).toNat
        let k := mag >>> s
        let r := mag % 2 ^ s
        let up := !rz && (decide (2 ^ s < 2 * r) || (decide (2 * r = 2 ^ s) && decide (k % 2 = 1)))
        if up then k + 1 else k
    ((q + t.mbits + t.bias).toNat * 2 ^ t.mbits + sig) - 2 ^ t.mbits

/-- The one rounding of a result to t (R37, R38, R41). An infinity in a format without one is its largest finite. -/
def roundF (t : Flt) (rz sat : Bool) (u : SrcUnit) (x : FV) : Nat :=
  match x with
  | .nan b => narrowNan t b
  | .inf s => (if s then 2 ^ (t.width - 1) else 0) + (t.infCode.getD t.maxFin)
  | .fin s mag e =>
    let c := roundMag t rz mag e
    if t.maxFin < c then overflowCode t sat s u else (if s then 2 ^ (t.width - 1) else 0) + c

/-- A finite value from an exact integer significand; `zneg` is the sign of a zero. -/
def finInt (m : Int) (e : Int) (zneg : Bool) : FV := .fin (if m = 0 then zneg else decide (m < 0)) m.natAbs e

/-- The signed significand of a finite value at exponent e' ≤ e. -/
def sigAt (s : Bool) (mag : Nat) (e e' : Int) : Int :=
  let m : Int := (mag <<< (e - e').toNat : Nat)
  if s then -m else m

/-- Exact sum with IEEE signs of zero; ∞ − ∞ is the invalid event of detail 1 (R38, R40). -/
def addF (u : SrcUnit) (x y : FV) : FV :=
  match x, y with
  | .nan a, _ => .nan a
  | _, .nan b => .nan b
  | .inf a, .inf b => if a = b then .inf a else .nan (evNan false .invalid u 1)
  | .inf a, .fin _ _ _ => .inf a
  | .fin _ _ _, .inf b => .inf b
  | .fin s m e, .fin s' m' e' =>
    let k := if e ≤ e' then e else e'
    finInt (sigAt s m e k + sigAt s' m' e' k) k (s && s')

/-- Negation: the sign bit alone. -/
def negF : FV → FV
  | .nan a => .nan a
  | .inf s => .inf (!s)
  | .fin s m e => .fin (!s) m e

/-- Exact product; 0 × ∞ is the invalid event of detail 2. -/
def mulF (u : SrcUnit) (x y : FV) : FV :=
  match x, y with
  | .nan a, _ => .nan a
  | _, .nan b => .nan b
  | .inf a, .inf b => .inf (a != b)
  | .inf a, .fin s m _ => if m = 0 then .nan (evNan false .invalid u 2) else .inf (a != s)
  | .fin s m _, .inf b => if m = 0 then .nan (evNan false .invalid u 2) else .inf (s != b)
  | .fin s m e, .fin s' m' e' => .fin (s != s') (m * m') (e + e')

/-- The first NaN among the inputs, in source order (R42). -/
def firstNan (xs : List FV) : Option (BitVec 32) :=
  xs.findSome? fun
    | .nan a => some a
    | _ => none

/-- Fused multiply-add: one rounding later; NaN inputs in source order, the product's event before the sum's (R42). -/
def fmaF (u : SrcUnit) (a b c : FV) : FV :=
  match firstNan [a, b, c] with
  | some n => .nan n
  | none => addF u (mulF u a b) c

/-- Three-way comparison of two values that are no NaN; −0 equals +0. -/
def cmpF (x y : FV) : Ordering :=
  match x, y with
  | .nan _, _ => .eq
  | _, .nan _ => .eq
  | .inf a, .inf b => if a = b then .eq else if a then .lt else .gt
  | .inf a, .fin _ _ _ => if a then .lt else .gt
  | .fin _ _ _, .inf b => if b then .gt else .lt
  | .fin s m e, .fin s' m' e' =>
    let k := if e ≤ e' then e else e'
    compare (sigAt s m e k) (sigAt s' m' e' k)

def FV.isNan : FV → Bool
  | .nan _ => true
  | _ => false

/-- The value of an integer. -/
def intF (n : Int) : FV := finInt n 0 false

/-- The value 2^k. -/
def powF (k : Int) : FV := .fin false 1 k

/-- The scale byte of E8M0 (R33); none for 0xFF. -/
def scaleExp (b : Nat) : Option Int := if b = 255 then none else some ((b : Int) - 127)

/-- Integer part of |x| rounded to nearest even or toward zero, with the sign (conversions to integers). -/
def roundInt (rz : Bool) (s : Bool) (mag : Nat) (e : Int) : Int :=
  let n : Nat :=
    if 0 ≤ e then mag <<< e.toNat
    else
      let k := (-e).toNat
      let q := mag >>> k
      let r := mag % 2 ^ k
      if !rz && (decide (2 ^ k < 2 * r) || (decide (2 * r = 2 ^ k) && decide (q % 2 = 1))) then q + 1 else q
  if s then -(n : Int) else (n : Int)

/-- Narrowing a float value to an integer code of width w (R29): NaN gives the most negative code, an
overflow-saturated NaN the limit of its sign. -/
def toIntCode (w : Nat) (signed rz : Bool) (x : FV) : Nat :=
  let lo : Int := if signed then -((2 : Int) ^ (w - 1)) else 0
  let hi : Int := if signed then (2 : Int) ^ (w - 1) - 1 else (2 : Int) ^ w - 1
  match x with
  | .nan b => if nanClass b = 2 then wrap w (if nanSign b then lo else hi) else wrap w lo
  | .inf s => wrap w (if s then lo else hi)
  | .fin s m e => satCode w signed (roundInt rz s m e)

/-- floor(log2 |x|) of a finite nonzero magnitude. -/
def floorLog2 (mag : Nat) (e : Int) : Int := (Nat.log2 mag : Int) + e

/-- Comparison of magnitudes of two finite values. -/
def magLt (m : Nat) (e : Int) (m' : Nat) (e' : Int) : Bool := cmpF (.fin false m e) (.fin false m' e') == .lt

/-- The E8M0 scale byte of a block (R36): `xs` are its present elements' values, emax the element format's. -/
def blockScale (emax : Int) (xs : List FV) : Nat :=
  if xs.any FV.isNan then 255
  else
    let top : Nat × Int := xs.foldl (fun a x => match x with
      | .fin _ m e => if magLt a.1 a.2 m e then (m, e) else a
      | .inf _ => if magLt a.1 a.2 (2 ^ 24 - 1) 104 then (2 ^ 24 - 1, 104) else a
      | .nan _ => a) (0, 0)
    if top.1 = 0 then 0
    else
      let k := floorLog2 top.1 top.2 - emax
      let k := if k < -127 then -127 else if 127 < k then 127 else k
      (k + 127).toNat

/-- x ÷ 2^k. -/
def divPow (x : FV) (k : Int) : FV :=
  match x with
  | .fin s m e => .fin s m (e - k)
  | y => y

end Sys2Proof.Machine
end

