-- ==== Sys2Proof/Decode.lean ====
section
/-! DEFINITION. The decoder and the encoder of the KV9: the six word formats (R58-R64), operand kinds (R65, R66), type
codes (R67), the opcode map (R71, R72) and the decode checks 1 to 7 in the order of R69. `decode` is total: every
word is an instruction or is rejected with the cause R69 names. Check 8 depends on the token queues and stands in the
step. After it, `encode` writes the words of an instruction from the same tables. -/

namespace Sys2Proof

/-! ## Codes of fields -/

/-- Conditions of R60 as codes; AL is code 0. -/
def Cond.code : Cond → Nat
  | .eq => 1
  | .ne => 2
  | .lt => 3
  | .ge => 4
  | .ltn => 5
  | .gen => 6

def Cond.ofCode : Nat → Option Cond
  | 1 => some .eq
  | 2 => some .ne
  | 3 => some .lt
  | 4 => some .ge
  | 5 => some .ltn
  | 6 => some .gen
  | _ => none

/-- Types of scalar instructions (R67, R98). -/
def STy.code : STy → BitVec 4
  | .i64 => 0
  | .n64 => 7
  | .i32 => 5
  | .n32 => 6

def STy.ofCode (c : BitVec 4) : Option STy :=
  match c.toNat with
  | 0 => some .i64
  | 7 => some .n64
  | 5 => some .i32
  | 6 => some .n32
  | _ => none

/-- Lane types (R67, R114). -/
def LTy.code : LTy → BitVec 4
  | .i8 => 1
  | .n8 => 2
  | .i16 => 3
  | .n16 => 4
  | .i32 => 5
  | .n32 => 6
  | .e4m3 => 8
  | .e5m2 => 9
  | .fp16 => 10
  | .bf16 => 11
  | .fp32 => 12

def LTy.ofCode (c : BitVec 4) : Option LTy :=
  match c.toNat with
  | 1 => some .i8
  | 2 => some .n8
  | 3 => some .i16
  | 4 => some .n16
  | 5 => some .i32
  | 6 => some .n32
  | 8 => some .e4m3
  | 9 => some .e5m2
  | 10 => some .fp16
  | 11 => some .bf16
  | 12 => some .fp32
  | _ => none

/-- Element types of VPACK and VUNPK (R67, R136). -/
def ElTy.code : ElTy → BitVec 4
  | .e4m3 => 8
  | .e5m2 => 9
  | .i4 => 13
  | .e2m1 => 14

def ElTy.ofCode (c : BitVec 4) : Option ElTy :=
  match c.toNat with
  | 8 => some .e4m3
  | 9 => some .e5m2
  | 13 => some .i4
  | 14 => some .e2m1
  | _ => none

/-- Block layouts of VBSC (R135). -/
def ScLay.code : ScLay → BitVec 4
  | .kf4 => 0
  | .mxfp4 => 1
  | .mxfp8e4 => 2
  | .mxfp8e5 => 3

def ScLay.ofCode (c : BitVec 4) : Option ScLay :=
  match c.toNat with
  | 0 => some .kf4
  | 1 => some .mxfp4
  | 2 => some .mxfp8e4
  | 3 => some .mxfp8e5
  | _ => none

/-- Granules (R61). -/
def Gran.code : Gran → BitVec 2
  | .sec => 0
  | .line => 1
  | .row => 2

def Gran.ofCode (c : BitVec 2) : Option Gran :=
  match c.toNat with
  | 0 => some .sec
  | 1 => some .line
  | 2 => some .row
  | _ => none

/-- Path hints (R61). -/
def Hint.code : Hint → BitVec 3
  | .none => 0
  | .na => 1
  | .lu => 2

def Hint.ofCode (c : BitVec 3) : Option Hint :=
  match c.toNat with
  | 0 => some .none
  | 1 => some .na
  | 2 => some .lu
  | _ => Option.none

/-- Modes of DRAIN, in the hint field (R339). -/
def DrainMode.code : DrainMode → BitVec 3
  | .full => 0
  | .any => 1
  | .attempt => 2

def DrainMode.ofCode (c : BitVec 3) : Option DrainMode :=
  match c.toNat with
  | 0 => some .full
  | 1 => some .any
  | 2 => some .attempt
  | _ => none

/-- Scopes (R62). -/
def Scope.code : Scope → BitVec 4
  | .core => 0
  | .clu => 1
  | .die => 2
  | .pkg => 3
  | .fab => 4
  | .sys => 5

def Scope.ofCode (c : BitVec 4) : Option Scope :=
  match c.toNat with
  | 0 => some .core
  | 1 => some .clu
  | 2 => some .die
  | 3 => some .pkg
  | 4 => some .fab
  | 5 => some .sys
  | _ => none

/-- Orders (R62). -/
def Order.code : Order → BitVec 2
  | .rlx => 0
  | .acq => 1
  | .rel => 2
  | .ar => 3

def Order.ofCode (c : BitVec 2) : Order :=
  match c.toNat with
  | 0 => .rlx
  | 1 => .acq
  | 2 => .rel
  | _ => .ar

/-- Paths (R62). -/
def Path.num : Path → BitVec 4
  | .core => 0
  | .tensor => 1
  | .gather => 2
  | .coll => 3
  | .code => 4
  | .host => 5

def Path.ofCode (c : BitVec 4) : Option Path :=
  match c.toNat with
  | 0 => some .core
  | 1 => some .tensor
  | 2 => some .gather
  | 3 => some .coll
  | 4 => some .code
  | 5 => some .host
  | _ => none

/-- Number of a special register (R91 and the chapters that define 0x100-0x1FF). -/
def Spr.num : Spr → Nat
  | .pc => 0x000
  | .seqid => 0x001
  | .coreid => 0x002
  | .clusterid => 0x003
  | .dieid => 0x004
  | .vfid => 0x005
  | .ctxid => 0x006
  | .gtb => 0x007
  | .phase => 0x008
  | .cause => 0x010
  | .epc => 0x011
  | .tval => 0x012
  | .status => 0x013
  | .lc n => 0x020 + n.val
  | .lbeg n => 0x024 + n.val
  | .lend n => 0x028 + n.val
  | .lstk => 0x02C
  | .splret => 0x030
  | .tsa => 0x031
  | .dpc => 0x032
  | .dres => 0x033
  | .ycnt => 0x034
  | .gvs => 0x035
  | .cflt => 0x036
  | .tvec => 0x100
  | .tstat => 0x101
  | .sscr => 0x102
  | .qst n => 0x140 + n.val
  | .tlbinv => 0x160
  | .l2flo => 0x161
  | .l2fhi => 0x162
  | .l2fcmd => 0x163
  | .frel => 0x164
  | .lkl n => 0x170 + n.val
  | .lkres => 0x180
  | .efva => 0x190
  | .efdone => 0x191
  | .efpc => 0x192
  | .efctl => 0x193
  | .afc n => 0x1A0 + n.val
  | .pwmode => 0x1B0
  | .relpol => 0x1D0
  | .rlcnt => 0x1D1
  | .rlsel => 0x1D2
  | .rld n => 0x1D3 + n.val
  | .errinj => 0x1D8
  | .errinja => 0x1D9

/-- A number in [base, base + n), as an index. -/
def inRange (n : Nat) (base count : Nat) : Option (Fin count) :=
  if h : base ≤ n ∧ n < base + count then some ⟨n - base, by omega⟩ else none

/-- The special register with a number; none for an unlisted number. -/
def Spr.ofNum (n : Nat) : Option Spr :=
  match n with
  | 0x000 => some .pc
  | 0x001 => some .seqid
  | 0x002 => some .coreid
  | 0x003 => some .clusterid
  | 0x004 => some .dieid
  | 0x005 => some .vfid
  | 0x006 => some .ctxid
  | 0x007 => some .gtb
  | 0x008 => some .phase
  | 0x010 => some .cause
  | 0x011 => some .epc
  | 0x012 => some .tval
  | 0x013 => some .status
  | 0x02C => some .lstk
  | 0x030 => some .splret
  | 0x031 => some .tsa
  | 0x032 => some .dpc
  | 0x033 => some .dres
  | 0x034 => some .ycnt
  | 0x035 => some .gvs
  | 0x036 => some .cflt
  | 0x100 => some .tvec
  | 0x101 => some .tstat
  | 0x102 => some .sscr
  | 0x160 => some .tlbinv
  | 0x161 => some .l2flo
  | 0x162 => some .l2fhi
  | 0x163 => some .l2fcmd
  | 0x164 => some .frel
  | 0x180 => some .lkres
  | 0x190 => some .efva
  | 0x191 => some .efdone
  | 0x192 => some .efpc
  | 0x193 => some .efctl
  | 0x1B0 => some .pwmode
  | 0x1D0 => some .relpol
  | 0x1D1 => some .rlcnt
  | 0x1D2 => some .rlsel
  | 0x1D8 => some .errinj
  | 0x1D9 => some .errinja
  | n =>
    ((inRange n 0x020 4).map Spr.lc) <|> ((inRange n 0x024 4).map Spr.lbeg) <|> ((inRange n 0x028 4).map Spr.lend) <|>
      ((inRange n 0x140 16).map Spr.qst) <|> ((inRange n 0x170 16).map Spr.lkl) <|> ((inRange n 0x1A0 16).map Spr.afc) <|>
      ((inRange n 0x1D3 4).map Spr.rld)

/-- R91: numbers marked EX only or CTL only trap on the other sequencers. -/
def Spr.legalOn (r : Spr) (q : Seq) : Bool :=
  match r with
  | .splret | .tsa | .ycnt => q == .ex
  | .cflt => q == .ctl
  | _ => true

/-- Codes of trap causes and violation kinds (R351, R360). -/
def Cause.code : Cause → BitVec 9
  | .illegalInstruction => 0x000
  | .misalignedBundle => 0x001
  | .wrongSequencer => 0x002
  | .illegalFunction => 0x003
  | .operandKindUnavailable => 0x004
  | .reservedOperand => 0x005
  | .misalignedTarget => 0x006
  | .loopDepth => 0x007
  | .loopCounterBusy => 0x008
  | .yieldAssertion => 0x009
  | .yieldBoundExceeded => 0x00A
  | .notInTrap => 0x00B
  | .softwareTrap => 0x01E
  | .systemCall => 0x01F
  | .addressOutOfRange => 0x040
  | .pageFault => 0x041
  | .accessDenied => 0x042
  | .stashNotAllowed => 0x043
  | .conversionUnavailable => 0x044
  | .layoutMismatch => 0x045
  | .badPageEntry => 0x046
  | .reservedLayout => 0x047
  | .frameOutOfRange => 0x048
  | .outsideStash => 0x049
  | .stashFull => 0x04A
  | .stashWindowOverlap => 0x04B
  | .stashRowBusy => 0x04C
  | .rowNotClaimed => 0x04D
  | .formatOverflow => 0x04E
  | .formatOrder => 0x04F
  | .badBlockHeader => 0x050
  | .queueDirection => 0x080
  | .tokenOverflow => 0x081
  | .tokenUnderflow => 0x082
  | .branchQueueOverflow => 0x083
  | .phaseMismatch => 0x084
  | .gangNotFixed => 0x085
  | .hitchBusy => 0x086
  | .hitchUnderflow => 0x087
  | .replyTagMismatch => 0x088
  | .deferralOverflow => 0x089
  | .engineOperand => 0x0C0
  | .misalignedAtomic => 0x0C1
  | .atomicScopeIllegal => 0x0C2
  | .collectiveChecksum => 0x0C3
  | .collectiveTimeout => 0x0C4
  | .tensorFormat => 0x0C8
  | .tensorNestFault => 0x0C9
  | .ringNotConfigured => 0x0CA
  | .ringOverlap => 0x0CB
  | .tensorFault => 0x0CC
  | .cutPending => 0x0D0
  | .noCutToFollow => 0x0D1
  | .severitySV1 => 0x100
  | .severitySV2 => 0x101
  | .severitySV3 => 0x102
  | .checkerMismatch => 0x103
  | .injectedError => 0x104
  | .codePageFault => 0x140
  | .notCode => 0x141
  | .badGweideRegion => 0x180
  | .gweideOperand => 0x181
  | .kv7FormUnavailable => 0x182
  | .recordNotReady => 0x1C0
  | .fabricUnreachable => 0x1C1
  | .fabricRefused => 0x1C2

/-! ## Fields of a word -/

/-- An operand field: kind and index (R65). -/
structure Fld where
  k : BitVec 2
  i : BitVec 8
  deriving DecidableEq, Repr

/-- An absent operand: kind and index zero (R68). -/
def Fld.isZero (f : Fld) : Bool := f.k == 0 && f.i == 0

/-- A zero field. -/
def Fld.zero : Fld := ⟨0, 0⟩

/-- The O-format fields (R58). -/
structure OFields where
  fn   : BitVec 8
  d    : Fld
  a    : Fld
  b    : Fld
  c    : Fld
  mask : BitVec 3
  mz   : Bool
  ty   : BitVec 4
  deriving DecidableEq, Repr

/-- The I-format fields (R59). -/
structure IFields where
  fn  : BitVec 4
  d   : Fld
  a   : Fld
  imm : BitVec 32
  deriving DecidableEq, Repr

/-- The B-format fields (R60). -/
structure BFields where
  cond : BitVec 5
  a    : Fld
  b    : Fld
  disp : BitVec 32
  deriving DecidableEq, Repr

/-- The M-format fields (R61). -/
structure MFields where
  fn   : BitVec 6
  q    : BitVec 4
  base : BitVec 5
  sh   : BitVec 4
  gran : BitVec 2
  hint : BitVec 3
  off  : BitVec 32
  deriving DecidableEq, Repr

/-- The C-format fields (R62). -/
structure CFields where
  tsm   : Bool
  fn    : BitVec 6
  sa    : BitVec 5
  sb    : BitVec 5
  sc    : BitVec 5
  sh    : BitVec 4
  hitch : BitVec 5
  nb    : BitVec 5
  tag   : BitVec 5
  scope : BitVec 4
  order : BitVec 2
  imm   : BitVec 10
  deriving DecidableEq, Repr

def majorOf (w : Word) : BitVec 6 := w.extractLsb' 58 6
def ypOf (w : Word) : Bool := w.getLsbD 57
def bit56 (w : Word) : Bool := w.getLsbD 56

def oFields (w : Word) : OFields where
  fn := w.extractLsb' 48 8
  d := ⟨w.extractLsb' 46 2, w.extractLsb' 38 8⟩
  a := ⟨w.extractLsb' 36 2, w.extractLsb' 28 8⟩
  b := ⟨w.extractLsb' 26 2, w.extractLsb' 18 8⟩
  c := ⟨w.extractLsb' 16 2, w.extractLsb' 8 8⟩
  mask := w.extractLsb' 5 3
  mz := w.getLsbD 4
  ty := w.extractLsb' 0 4

def iFields (w : Word) : IFields where
  fn := w.extractLsb' 52 4
  d := ⟨w.extractLsb' 50 2, w.extractLsb' 42 8⟩
  a := ⟨w.extractLsb' 40 2, w.extractLsb' 32 8⟩
  imm := w.extractLsb' 0 32

def bFields (w : Word) : BFields where
  cond := w.extractLsb' 52 5
  a := ⟨w.extractLsb' 50 2, w.extractLsb' 42 8⟩
  b := ⟨w.extractLsb' 40 2, w.extractLsb' 32 8⟩
  disp := w.extractLsb' 0 32

def mFields (w : Word) : MFields where
  fn := w.extractLsb' 50 6
  q := w.extractLsb' 46 4
  base := w.extractLsb' 41 5
  sh := w.extractLsb' 37 4
  gran := w.extractLsb' 35 2
  hint := w.extractLsb' 32 3
  off := w.extractLsb' 0 32

def cFields (w : Word) : CFields where
  tsm := w.getLsbD 56
  fn := w.extractLsb' 50 6
  sa := w.extractLsb' 45 5
  sb := w.extractLsb' 40 5
  sc := w.extractLsb' 35 5
  sh := w.extractLsb' 31 4
  hitch := w.extractLsb' 26 5
  nb := w.extractLsb' 21 5
  tag := w.extractLsb' 16 5
  scope := w.extractLsb' 12 4
  order := w.extractLsb' 10 2
  imm := w.extractLsb' 0 10

/-- The words of each format from its fields. -/
def oWord (maj : BitVec 6) (yp : Bool) (o : OFields) : Word :=
  maj ++ BitVec.ofBool yp ++ 0#1 ++ o.fn ++ o.d.k ++ o.d.i ++ o.a.k ++ o.a.i ++ o.b.k ++ o.b.i ++ o.c.k ++ o.c.i ++
    o.mask ++ BitVec.ofBool o.mz ++ o.ty

def iWord (maj : BitVec 6) (yp : Bool) (o : IFields) : Word :=
  maj ++ BitVec.ofBool yp ++ 0#1 ++ o.fn ++ o.d.k ++ o.d.i ++ o.a.k ++ o.a.i ++ o.imm

def bWord (maj : BitVec 6) (yp : Bool) (o : BFields) : Word :=
  maj ++ BitVec.ofBool yp ++ o.cond ++ o.a.k ++ o.a.i ++ o.b.k ++ o.b.i ++ o.disp

def mWord (maj : BitVec 6) (yp : Bool) (o : MFields) : Word :=
  maj ++ BitVec.ofBool yp ++ 0#1 ++ o.fn ++ o.q ++ o.base ++ o.sh ++ o.gran ++ o.hint ++ o.off

def cWord (maj : BitVec 6) (yp : Bool) (o : CFields) : Word :=
  maj ++ BitVec.ofBool yp ++ BitVec.ofBool o.tsm ++ o.fn ++ o.sa ++ o.sb ++ o.sc ++ o.sh ++ o.hitch ++ o.nb ++ o.tag ++
    o.scope ++ o.order ++ o.imm

/-! ## Operand fields -/

/-- A scalar register index (R65). -/
def sIdx (i : BitVec 8) : Option (Fin 32) := inRange i.toNat 0 32

/-- A scalar source: kinds 01, 10 and 11. -/
def Fld.ssrc (f : Fld) : Option SSrc :=
  match f.k.toNat with
  | 1 => (sIdx f.i).map .s
  | 2 => some (.c f.i.toFin)
  | 3 => some (.lit f.i)
  | _ => none

/-- A source of kind 01 or 10 only (JR, RET). -/
def Fld.ssrc12 (f : Fld) : Option SSrc := if f.k == 3 then none else f.ssrc

/-- A scalar destination: kind 01. -/
def Fld.sdst (f : Fld) : Option (Fin 32) := if f.k == 1 then sIdx f.i else none

/-- The queue number of a kind-00 field against its direction counts as queue 0 of the direction while the fields are
read; check 7 refuses it afterwards. -/
def Fld.srcWrong (f : Fld) : Bool := f.k == 0 && decide (136 ≤ f.i.toNat) && decide (f.i.toNat < 144)
def Fld.dstWrong (f : Fld) : Bool :=
  f.k == 0 && ((decide (128 ≤ f.i.toNat) && decide (f.i.toNat < 136)) || (decide (140 ≤ f.i.toNat) && decide (f.i.toNat < 144)))

/-- A source on lanes: every kind (R65, R66). -/
def Fld.vsrc (f : Fld) : Option VSrc :=
  if f.k == 0 then
    ((inRange f.i.toNat 0 64).map VSrc.v) <|> ((inRange f.i.toNat 64 64).map VSrc.a) <|>
      ((inRange f.i.toNat 128 8).map VSrc.q) <|> (if f.srcWrong then some (.q 0) else none)
  else f.ssrc.map .sc

/-- A kind-00 destination on lanes (R65, R66). -/
def Fld.vdst (f : Fld) : Option VDst :=
  if f.k == 0 then
    ((inRange f.i.toNat 0 64).map VDst.v) <|> ((inRange f.i.toNat 64 64).map VDst.a) <|>
      ((inRange f.i.toNat 136 4).map VDst.q) <|> (if f.dstWrong then some (.q 0) else none)
  else none

/-- A destination of VRED and VMAXI: lanes or a scalar register (R138). -/
def Fld.rdst (f : Fld) : Option RDst :=
  if f.k == 1 then (sIdx f.i).map .s else f.vdst.map .lanes

/-- A kind-11 literal (mask operands and small literals, R116). -/
def Fld.lit (f : Fld) : Option (BitVec 8) := if f.k == 3 then some f.i else none

/-- A mask operand: a kind-11 literal 0-7 (R116). -/
def Fld.kmask (f : Fld) : Option (Fin 8) := f.lit.bind fun i => inRange i.toNat 0 8

/-- An accumulator: kind 00, index 64-127. -/
def Fld.accum (f : Fld) : Option (Fin 64) := if f.k == 0 then inRange f.i.toNat 64 64 else none

/-- A field that must be zero. -/
def Fld.zero? (f : Fld) : Option Unit := if f.isZero then some () else none

/-- A condition that must hold, or the field is reserved. -/
def need (b : Bool) : Option Unit := if b then some () else none

def SSrc.fld : SSrc → Fld
  | .s n => ⟨1, BitVec.ofNat 8 n.val⟩
  | .c n => ⟨2, BitVec.ofFin n⟩
  | .lit x => ⟨3, x⟩

def sFld (n : Fin 32) : Fld := ⟨1, BitVec.ofNat 8 n.val⟩

def VSrc.fld : VSrc → Fld
  | .v n => ⟨0, BitVec.ofNat 8 n.val⟩
  | .a n => ⟨0, BitVec.ofNat 8 (64 + n.val)⟩
  | .q n => ⟨0, BitVec.ofNat 8 (128 + n.val)⟩
  | .sc x => x.fld

def VDst.fld : VDst → Fld
  | .v n => ⟨0, BitVec.ofNat 8 n.val⟩
  | .a n => ⟨0, BitVec.ofNat 8 (64 + n.val)⟩
  | .q n => ⟨0, BitVec.ofNat 8 (136 + n.val)⟩

def RDst.fld : RDst → Fld
  | .lanes d => d.fld
  | .s n => sFld n

def litFld (x : BitVec 8) : Fld := ⟨3, x⟩
def kFld (n : Fin 8) : Fld := ⟨3, BitVec.ofNat 8 n.val⟩
def aFld (n : Fin 64) : Fld := ⟨0, BitVec.ofNat 8 (64 + n.val)⟩

/-! ## Term bundles (R63, R64) -/

/-- One 24-bit slot, with the slot after it; answers the written slot and how many slots it fills. -/
def slotOf (x : BitVec 24) (next : Option (BitVec 24)) : Option (Slot × Nat) :=
  let d : Fin 64 := (x.extractLsb' 15 6).toFin
  let src : Fin 128 := (x.extractLsb' 8 7).toFin
  let imm : BitVec 8 := x.extractLsb' 0 8
  match (x.extractLsb' 21 3).toNat with
  | 0 => if x == 0 then some (.nop, 1) else none
  | 1 => some (.tmac d src imm, 1)
  | 2 => if imm == 0 then some (.tadd d src, 1) else none
  | 3 => if imm.getLsbD 0 then none else some (.tpair d src (imm.extractLsb' 1 7).toFin, 1)
  | 4 => if imm == 0 then some (.tset d src, 1) else none
  | 5 =>
    match next with
    | none => none
    | some y =>
      if (y.extractLsb' 21 3).toNat == 7 && y.extractLsb' 8 5 == 0 && y.extractLsb' 0 8 == 0 then
        (inRange src.val 64 64).map fun p => (.tscl d p (y.extractLsb' 13 8 ++ imm), 2)
      else none
  | 6 => if src == 0 && imm == 0 then some (.tclr d, 1) else none
  | _ => none

/-- The written slots of a list of 24-bit slots; a TSCL takes its continuation with it. -/
def slotsOf : List (BitVec 24) → Option (List Slot)
  | [] => some []
  | [x] => (slotOf x none).map fun r => [r.1]
  | x :: y :: t =>
    match slotOf x (some y) with
    | none => none
    | some (s, 1) => (slotsOf (y :: t)).map (s :: ·)
    | some (s, _) => (slotsOf t).map (s :: ·)

/-- The five slots of a bundle. -/
def rawSlots (w0 w1 : Word) : List (BitVec 24) :=
  let b : BitVec 128 := w0 ++ w1
  [b.extractLsb' 96 24, b.extractLsb' 72 24, b.extractLsb' 48 24, b.extractLsb' 24 24, b.extractLsb' 0 24]

/-- One 24-bit slot from its fields. -/
def slotWord (op : BitVec 3) (d : Fin 64) (src : Fin 128) (imm : BitVec 8) : BitVec 24 :=
  op ++ BitVec.ofNat 6 d.val ++ BitVec.ofNat 7 src.val ++ imm

/-- The 24-bit slots of a written slot. -/
def Slot.words : Slot → List (BitVec 24)
  | .nop => [0]
  | .tmac d src w => [slotWord 1 d src w]
  | .tadd d src => [slotWord 2 d src 0]
  | .tpair d src src2 => [slotWord 3 d src (BitVec.ofNat 7 src2.val ++ 0#1)]
  | .tset d src => [slotWord 4 d src 0]
  | .tscl f p sc => [slotWord 5 f ⟨64 + p.val, by omega⟩ (sc.extractLsb' 0 8), 7#3 ++ sc.extractLsb' 8 8 ++ 0#5 ++ 0#8]
  | .tclr d => [slotWord 6 d 0 0]

/-! ## The opcode map (R71, R72) -/

/-- The word formats. -/
inductive Fmt where
  | o | i | b | m | c | t
  deriving DecidableEq, Repr

/-- The format of a major; none where it is unassigned (R72). -/
def majorFmt (m : Nat) : Option Fmt :=
  match m with
  | 0x01 => some .o
  | 0x02 => some .i
  | 0x08 | 0x09 | 0x0A => some .b
  | 0x0B | 0x0C | 0x0D => some .i
  | 0x10 | 0x11 | 0x12 | 0x13 => some .m
  | 0x18 | 0x19 | 0x1A | 0x1B | 0x1C | 0x1D | 0x1E | 0x1F | 0x20 | 0x21 | 0x28 | 0x29 => some .o
  | 0x2C | 0x30 | 0x31 | 0x32 | 0x33 | 0x34 | 0x35 => some .c
  | 0x38 | 0x39 | 0x3A | 0x3C | 0x3D => some .i
  | 0x3E => some .t
  | _ => none

/-- The sequencers on which a major is legal (R71). -/
def majorOn (m : Nat) (q : Seq) : Bool :=
  match m with
  | 0x0D | 0x2C | 0x30 | 0x31 | 0x32 | 0x33 | 0x34 | 0x35 | 0x39 | 0x3A => q == .ctl
  | 0x10 | 0x11 => q == .ld
  | 0x12 => q == .st
  | 0x13 => q == .ld || q == .st
  | 0x18 | 0x19 | 0x1A | 0x1B | 0x1C | 0x1D | 0x1E | 0x1F | 0x20 | 0x21 | 0x28 | 0x29 | 0x3E => q == .ex
  | _ => true

/-- Reduced service (R413): term bundles, SPLC and the Stavask generator are away. -/
def reducedAway (m : Nat) : Bool := m == 0x3E || m == 0x29

/-- Whether the fn of a word is assigned within its major (R71; R413 for CGEN in reduced service). -/
def fnAssigned (m : Nat) (w : Word) (reduced : Bool) : Bool :=
  let o := (oFields w).fn.toNat
  let i := (iFields w).fn.toNat
  let x := (mFields w).fn.toNat
  match m with
  | 0x01 => decide (o ≤ 0x0F)
  | 0x02 => decide (i ≤ 1)
  | 0x08 | 0x09 | 0x0A | 0x3E => true
  | 0x0B => decide (i ≤ 4)
  | 0x0C => decide (i ≤ 4)
  | 0x0D => i == 0
  | 0x10 => decide (x ≤ 7)
  | 0x11 => decide (x ≤ 3)
  | 0x12 => decide (x ≤ 4)
  | 0x13 => decide (x ≤ 4)
  | 0x18 => decide (o ≤ 7) || o == 0x80 || o == 0x81 || o == 0x82 || o == 0x86 || o == 0x87
  | 0x19 => decide (o ≤ 7) || o == 0x84
  | 0x1A => decide (o ≤ 6) || decide (o % 64 ≤ 2)
  | 0x1B => decide (o % 64 ≤ 2)
  | 0x1C => decide (o ≤ 6) || (decide (0x10 ≤ o) && decide (o ≤ 0x15))
  | 0x1D => decide (o ≤ 5)
  | 0x1E => o / 16 % 4 == 0 || decide (o < 64)
  | 0x1F => decide (o ≤ 8) || o == 0x10
  | 0x20 => decide (o ≤ 3)
  | 0x21 => decide (o ≤ 2)
  | 0x28 => decide (o ≤ 2)
  | 0x29 => o == 0
  | 0x2C => decide (x ≤ 5)
  | 0x30 => decide (x ≤ 4)
  | 0x31 => decide (x ≤ 8) || x == 0x10
  | 0x32 => decide (x ≤ 1)
  | 0x33 => x == 0
  | 0x34 => decide (x ≤ 4) && !(reduced && x == 0)
  | 0x35 => decide (x ≤ 2)
  | 0x38 => decide (i ≤ 2)
  | 0x39 => decide (i ≤ 2)
  | 0x3A => decide (i ≤ 1)
  | 0x3C => decide (i ≤ 6)
  | 0x3D => i == 0
  | _ => false

/-- The kinds of the operand fields a word uses, for check 5 of R69 on CTL, LD and ST. -/
def usedKinds (m : Nat) (w : Word) : List (BitVec 2) :=
  let o := oFields w
  let i := iFields w
  let b := bFields w
  match m with
  | 0x01 =>
    if o.fn == 0x0E || o.fn == 0x0F then [o.d.k, o.a.k]
    else if o.fn == 0x0C || o.fn == 0x0D then [o.d.k, o.a.k, o.b.k, o.c.k]
    else [o.d.k, o.a.k, o.b.k]
  | 0x02 => [i.d.k]
  | 0x08 => if b.cond == 0 then [] else [b.a.k, b.b.k]
  | 0x0A => [b.a.k]
  | 0x0B => if i.fn == 0 then [i.d.k, i.a.k] else if i.fn == 3 then [] else [i.a.k]
  | 0x0C => if i.fn == 3 then [i.d.k] else if i.fn == 4 then [i.a.k] else []
  | 0x0D => [i.d.k, i.a.k]
  | 0x39 => if i.fn == 2 then [i.d.k, i.a.k] else [i.a.k]
  | 0x3A => [i.d.k]
  | 0x3C => if i.fn == 5 then [i.d.k] else if i.fn == 6 then [i.a.k] else []
  | _ => []

/-! ## The parts of check 6 -/

/-- No mask and no mz (instructions that work on no lanes, R68). -/
def OFields.noLanes (o : OFields) : Option Unit := need (o.mask == 0 && !o.mz)

def OFields.s1 (o : OFields) : Option S1 := do
  o.noLanes; o.b.zero?; o.c.zero?
  return ⟨← STy.ofCode o.ty, ← o.d.sdst, ← o.a.ssrc⟩

def OFields.s2 (o : OFields) : Option S2 := do
  o.noLanes; o.c.zero?
  return ⟨← STy.ofCode o.ty, ← o.d.sdst, ← o.a.ssrc, ← o.b.ssrc⟩

def OFields.s3 (o : OFields) : Option S3 := do
  o.noLanes
  return ⟨← STy.ofCode o.ty, ← o.d.sdst, ← o.a.ssrc, ← o.b.ssrc, ← o.c.ssrc⟩

def OFields.v1 (o : OFields) : Option V1 := do
  o.b.zero?; o.c.zero?
  return ⟨← o.d.vdst, ← LTy.ofCode o.ty, o.mask.toFin, o.mz, ← o.a.vsrc⟩

def OFields.v2 (o : OFields) : Option V2 := do
  o.c.zero?
  return ⟨← o.d.vdst, ← LTy.ofCode o.ty, o.mask.toFin, o.mz, ← o.a.vsrc, ← o.b.vsrc⟩

def OFields.v3 (o : OFields) : Option V3 := do
  return ⟨← o.d.vdst, ← LTy.ofCode o.ty, o.mask.toFin, o.mz, ← o.a.vsrc, ← o.b.vsrc, ← o.c.vsrc⟩

def OFields.vcmp (o : OFields) : Option VCmp := do
  o.d.zero?
  return ⟨← o.a.kmask, ← LTy.ofCode o.ty, o.mask.toFin, o.mz, ← o.b.vsrc, ← o.c.vsrc⟩

def OFields.vred (o : OFields) : Option VRed := do
  o.c.zero?
  return ⟨← o.d.rdst, ← LTy.ofCode o.ty, o.mask.toFin, o.mz, ← o.a.vsrc, ← o.b.lit⟩

/-- VPACK and VUNPK (R136, R137): the second source and the literal are absent for I4; mz is zero (R134). -/
def OFields.vpk (o : OFields) : Option VPk := do
  need (!o.mz)
  let el ← ElTy.ofCode (o.fn.extractLsb' 0 4)
  let d ← o.d.vdst
  let a ← o.a.vsrc
  let ty ← LTy.ofCode o.ty
  if el = .i4 then
    o.b.zero?; o.c.zero?
    return ⟨el, ty, o.mask.toFin, d, a, none, 0⟩
  else
    return ⟨el, ty, o.mask.toFin, d, a, some (← o.b.vsrc), ← o.c.lit⟩

def parse01 (o : OFields) : Option Instr :=
  match o.fn.toNat with
  | 0x00 => o.s2.map .add
  | 0x01 => o.s2.map .sub
  | 0x02 => o.s2.map .mul
  | 0x03 => o.s2.map .mulh
  | 0x04 => o.s2.map .and
  | 0x05 => o.s2.map .or
  | 0x06 => o.s2.map .xor
  | 0x07 => o.s2.map .shl
  | 0x08 => o.s2.map .shr
  | 0x09 => o.s2.map .sra
  | 0x0A => o.s2.map .min
  | 0x0B => o.s2.map .max
  | 0x0C => o.s3.map .sel
  | 0x0D => do
    let i ← o.c.lit
    let c ← Cond.ofCode i.toNat
    return .cmp (← OFields.s2 { o with c := .zero }) c
  | 0x0E => o.s1.map .popc
  | 0x0F => o.s1.map .clz
  | _ => none

def parse02 (o : IFields) : Option Instr := do
  o.a.zero?
  let d ← o.d.sdst
  match o.fn.toNat with
  | 0 => return .li d o.imm
  | 1 => return .lih d o.imm
  | _ => none

def parse08 (o : BFields) : Option Instr :=
  if o.cond == 0 then do
    o.a.zero?; o.b.zero?
    return .bc .al o.disp
  else do
    return .bc (.cmp (← Cond.ofCode o.cond.toNat) (← o.a.ssrc) (← o.b.ssrc)) o.disp

def parse09 (o : BFields) : Option Instr := do
  o.a.zero?; o.b.zero?
  need (o.cond.extractLsb' 1 4 == 0)
  return .bq (o.cond.getLsbD 0) o.disp

def parse0A (o : BFields) : Option Instr := do
  need (o.cond == 0)
  o.b.zero?
  return .call (← o.a.sdst) o.disp

/-- The loop counter of LOOP and LOOPI: dk zero, dst[7:2] zero (R104). -/
def Fld.loopCtr (f : Fld) : Option (Fin 4) := if f.k == 0 then inRange f.i.toNat 0 4 else none

def parse0B (o : IFields) : Option Instr :=
  match o.fn.toNat with
  | 0 => do return .jr (← o.d.sdst) (← o.a.ssrc12) o.imm
  | 1 => do
    o.d.zero?; need (o.imm == 0)
    return .ret (← o.a.ssrc12)
  | 2 => do return .loop (← o.d.loopCtr) (← o.a.ssrc) o.imm
  | 3 => do
    o.a.zero?
    return .loopi (← o.d.loopCtr) (o.imm.extractLsb' 16 16) (o.imm.extractLsb' 0 16)
  | 4 => do
    o.d.zero?; need (o.imm == 0)
    return .lexit (← o.a.ssrc)
  | _ => none

/-- The queue and amount of a token instruction (R108). -/
def tokImm (imm : BitVec 32) : Option (Fin 16 × BitVec 6) := do
  need (imm.extractLsb' 20 12 == 0 && imm.extractLsb' 6 10 == 0)
  return ((imm.extractLsb' 16 4).toFin, imm.extractLsb' 0 6)

def parse0C (o : IFields) : Option Instr :=
  match o.fn.toNat with
  | 0 => do
    o.d.zero?; o.a.zero?; need (o.imm == 0)
    return .nop
  | 1 => do
    o.d.zero?; o.a.zero?
    let t ← tokImm o.imm
    return .toks t.1 t.2
  | 2 => do
    o.d.zero?; o.a.zero?
    let t ← tokImm o.imm
    return .tokw t.1 t.2
  | 3 => do
    o.a.zero?
    let t ← tokImm o.imm
    return .tokt (← o.d.sdst) t.1 t.2
  | 4 => do
    o.d.zero?; need (o.imm.extractLsb' 2 30 == 0)
    return .bqp (← o.a.ssrc) (o.imm.extractLsb' 0 2).toFin
  | _ => none

def parse0D (o : IFields) : Option Instr := do
  need (o.d.k == 2 && o.imm == 0)
  return .cbw o.d.i.toFin (← o.a.ssrc)

/-- An access that names a queue and a shape (R61). -/
def MFields.mop (o : MFields) : Option MOp := do
  return ⟨o.q.toFin, o.base.toFin, o.sh.toFin, ← Gran.ofCode o.gran, ← Hint.ofCode o.hint, o.off⟩

/-- A scratchpad access: granule ROW, sh and hint zero (R169-R171). -/
def MFields.pad (o : MFields) : Option PadOp := do
  need (o.gran == 2 && o.sh == 0 && o.hint == 0)
  return ⟨o.q.toFin, o.base.toFin, o.off⟩

def parse10 (o : MFields) : Option Instr :=
  match o.fn.toNat with
  | 0 => o.mop.map .ldr
  | 1 => o.mop.map .ldl
  | 2 => o.mop.map .lds
  | 3 => o.pad.map .spr
  | 4 => do
    need (o.gran == 2)
    return .ldt o.q.toFin o.base.toFin o.sh.toFin (← Hint.ofCode o.hint) o.off
  | 5 => do
    need (o.q == 0)
    return .pref o.base.toFin o.sh.toFin (← Gran.ofCode o.gran) (← Hint.ofCode o.hint) o.off
  | 6 => do
    need (o.gran == 2 && o.sh == 0 && o.hint == 0 && o.off.extractLsb' 8 24 == 0)
    return .trd o.q.toFin (o.off.extractLsb' 5 2).toFin o.base.toFin (o.off.extractLsb' 0 5) (o.off.getLsbD 7)
  | 7 => do
    need (o.gran == 2 && o.sh == 0 && o.q == 0)
    return .drain o.base.toFin (← DrainMode.ofCode o.hint) o.off
  | _ => none

def parse11 (o : MFields) : Option Instr :=
  match o.fn.toNat with
  | 0 => do
    need (o.gran == 2 && o.hint == 0)
    return .tcut (o.q.getLsbD 3) (o.q.extractLsb' 0 3).toFin o.base.toFin o.sh.toFin o.off
  | 1 => do
    need (o.gran == 2 && !o.q.getLsbD 3)
    return .tfol (o.q.extractLsb' 0 3).toFin o.base.toFin o.sh.toFin o.hint.toFin o.off
  | 2 => do
    need (!o.q.getLsbD 3 && o.sh == 0 && o.gran == 0 && o.hint == 0 && o.off == 0)
    return .bget o.base.toFin (o.q.extractLsb' 0 3).toFin
  | 3 => do
    need (!o.q.getLsbD 3 && o.sh == 0 && o.gran == 0 && o.hint == 0 && o.off == 0)
    return .bset (o.q.extractLsb' 0 3).toFin o.base.toFin
  | _ => none

def parse12 (o : MFields) : Option Instr :=
  match o.fn.toNat with
  | 0 => o.mop.map .str
  | 1 => o.mop.map .stl
  | 2 => o.pad.map .spw
  | 3 => o.pad.map .snd
  | 4 => o.mop.map .strm
  | _ => none

def parse13 (o : MFields) : Option Instr :=
  match o.fn.toNat with
  | 0 => do
    need (o.gran == 0 && o.hint == 0)
    if o.q == 0 then return .shld o.sh.toFin (.mem o.base.toFin o.off)
    else
      need (o.base == 0 && o.off == 0)
      return .shld o.sh.toFin (.queue o.q.toFin)
  | 1 => do
    need (!o.q.getLsbD 3 && o.gran == 0 && o.hint == 0)
    return .shset o.sh.toFin (o.q.extractLsb' 0 3).toFin o.base.toFin o.off
  | 2 => do
    need (!o.q.getLsbD 3 && o.gran == 0 && o.hint == 0 && o.off == 0)
    return .shget o.base.toFin o.sh.toFin (o.q.extractLsb' 0 3).toFin
  | 3 => do
    need (o.sh == 0 && o.off.extractLsb' 27 5 == 0)
    return .smap o.q.toFin o.base.toFin (o.gran ++ o.hint) (o.off.extractLsb' 16 11) (o.off.extractLsb' 0 16)
  | 4 => do
    need (o.base == 0 && o.sh == 0 && o.gran == 0 && o.hint == 0 && o.off == 0)
    return .sunmap o.q.toFin
  | _ => none

def parse18 (o : OFields) : Option Instr :=
  let sat := o.fn.getLsbD 7
  match (o.fn.extractLsb' 0 7).toNat with
  | 0 => o.v2.map (.vadd sat)
  | 1 => o.v2.map (.vsub sat)
  | 2 => o.v2.map (.vmul sat)
  | 3 => o.v2.map .vmulh
  | 4 => o.v2.map .vmin
  | 5 => o.v2.map .vmax
  | 6 => o.v1.map (.vabs sat)
  | 7 => o.v1.map (.vneg sat)
  | _ => none

def parse19 (o : OFields) : Option Instr :=
  match o.fn.toNat with
  | 0x00 => o.v2.map .vand
  | 0x01 => o.v2.map .vor
  | 0x02 => o.v2.map .vxor
  | 0x03 => o.v1.map .vnot
  | 0x04 => o.v2.map .vshl
  | 0x84 => o.v2.map .vshlSat
  | 0x05 => o.v2.map .vshr
  | 0x06 => o.v2.map .vsra
  | 0x07 => o.v1.map .vpopc
  | _ => none

def parse1A (o : OFields) : Option Instr :=
  let sat := o.fn.getLsbD 7
  let rz := o.fn.getLsbD 6
  match (o.fn.extractLsb' 0 6).toNat with
  | 0 => o.v2.map (.vfadd sat rz)
  | 1 => o.v2.map (.vfsub sat rz)
  | 2 => o.v2.map (.vfmul sat rz)
  | 3 => o.v2.map .vfmin
  | 4 => o.v2.map .vfmax
  | 5 => o.v1.map .vfabs
  | 6 => o.v1.map .vfneg
  | _ => none

def parse1B (o : OFields) : Option Instr :=
  let sat := o.fn.getLsbD 7
  let rz := o.fn.getLsbD 6
  match (o.fn.extractLsb' 0 6).toNat with
  | 0 => o.v3.map (.vfma sat rz)
  | 1 => o.v3.map (.vfms sat rz)
  | 2 => o.v3.map (.vfnma sat rz)
  | _ => none

/-- Mask logic of two sources, and of one (R128). -/
def OFields.k3 (o : OFields) : Option (Fin 8 × Fin 8 × Fin 8) := do
  o.noLanes; o.d.zero?; need (o.ty == 0)
  return (← o.a.kmask, ← o.b.kmask, ← o.c.kmask)

def OFields.k2 (o : OFields) : Option (Fin 8 × Fin 8) := do
  o.noLanes; o.d.zero?; o.c.zero?; need (o.ty == 0)
  return (← o.a.kmask, ← o.b.kmask)

def parse1C (o : OFields) : Option Instr :=
  match o.fn.toNat with
  | 0x00 => o.vcmp.map .vcmpEq
  | 0x01 => o.vcmp.map .vcmpNe
  | 0x02 => o.vcmp.map .vcmpLt
  | 0x03 => o.vcmp.map .vcmpLe
  | 0x04 => o.vcmp.map .vcmpGt
  | 0x05 => o.vcmp.map .vcmpGe
  | 0x06 => o.vcmp.map .vcmpUn
  | 0x10 => o.k3.map fun k => .kand k.1 k.2.1 k.2.2
  | 0x11 => o.k3.map fun k => .kor k.1 k.2.1 k.2.2
  | 0x12 => o.k3.map fun k => .kxor k.1 k.2.1 k.2.2
  | 0x13 => o.k2.map fun k => .knot k.1 k.2
  | 0x14 => o.k2.map fun k => .kmov k.1 k.2
  | 0x15 => do
    o.noLanes; o.b.zero?; o.c.zero?; need (o.ty == 0)
    return .kpopc (← o.d.sdst) (← o.a.kmask)
  | _ => none

def parse1D (o : OFields) : Option Instr :=
  match o.fn.toNat with
  | 0 => do
    let k ← o.c.kmask
    return .vsel (← OFields.v2 { o with c := .zero }) k
  | 1 => do
    let d ← o.d.vdst
    let ty ← LTy.ofCode o.ty
    let j ← o.b.lit
    let form ← o.c.lit
    match form.toNat with
    | 0 => return .vbcast d ty o.mask.toFin o.mz (.lane (← o.a.vsrc) j)
    | 1 => return .vbcast d ty o.mask.toFin o.mz (.index (← o.a.ssrc) j)
    | _ => none
  | 2 => o.v2.map .vperm
  | 3 => do
    let n ← o.b.ssrc
    return .vrot (← OFields.v1 { o with b := .zero }) n
  | 4 => do
    need (o.ty == 2)
    return .vrmg (← o.d.vdst) o.mask.toFin o.mz (← o.a.vsrc) (← o.b.vsrc) (← o.c.ssrc)
  | 5 => o.v1.map .vmov
  | _ => none

def parse1E (o : OFields) : Option Instr :=
  match (o.fn.extractLsb' 4 2).toNat with
  | 0 => do
    let p ← o.b.lit
    return .vcvt (o.fn.getLsbD 7) (o.fn.getLsbD 6) (← LTy.ofCode (o.fn.extractLsb' 0 4)) (← OFields.v1 { o with b := .zero }) p
  | 1 => o.vpk.map .vpack
  | 2 => o.vpk.map .vunpk
  | _ => do
    need (!o.mz)
    o.b.zero?; o.c.zero?
    return .vbsc (← ScLay.ofCode (o.fn.extractLsb' 0 4)) (← LTy.ofCode o.ty) o.mask.toFin (← o.d.vdst) (← o.a.vsrc)

def parse1F (o : OFields) : Option Instr :=
  match o.fn.toNat with
  | 0x00 => o.vred.map .vredAdd
  | 0x01 => o.vred.map .vredMin
  | 0x02 => o.vred.map .vredMax
  | 0x03 => o.vred.map .vredAnd
  | 0x04 => o.vred.map .vredOr
  | 0x05 => o.vred.map .vredXor
  | 0x06 => o.vred.map .vredFadd
  | 0x07 => o.vred.map .vredFmin
  | 0x08 => o.vred.map .vredFmax
  | 0x10 => o.vred.map .vmaxi
  | _ => none

def parse20 (o : OFields) : Option Instr :=
  match o.fn.toNat with
  | 0 => o.v1.map .vexp2
  | 1 => o.v1.map .vlog2
  | 2 => o.v1.map .vrcp
  | 3 => o.v1.map .vrsq
  | _ => none

def parse21 (o : OFields) : Option Instr :=
  match o.fn.toNat with
  | 0 => o.v1.map .vcls
  | 1 => do
    o.d.zero?; need (!o.mz)
    let n ← o.b.lit
    let m ← o.c.lit
    need (decide (m.toNat < 2))
    return .vbq (← LTy.ofCode o.ty) o.mask.toFin (← o.a.vsrc) (← inRange n.toNat 0 4) (m == 1)
  | 2 => do
    need (!o.mz && o.ty == 0)
    return .defer o.mask.toFin (← o.d.sdst) (← o.a.accum) (← o.b.accum) (← o.c.accum)
  | _ => none

def parse28 (o : OFields) : Option Instr :=
  match o.fn.toNat with
  | 0 => do
    let p ← o.b.lit
    return .amov (← OFields.v1 { o with b := .zero }) p
  | 1 => do
    o.a.zero?; o.b.zero?; o.c.zero?; need (!o.mz && o.ty == 0)
    return .aclr o.mask.toFin (← o.d.accum)
  | 2 => do
    o.c.zero?
    return .acvt (← o.d.vdst) (← LTy.ofCode o.ty) o.mask.toFin o.mz (← o.a.accum) (← o.b.lit)
  | _ => none

def parse29 (o : OFields) : Option Instr := do
  o.d.zero?; o.a.zero?; o.b.zero?; o.c.zero?; o.noLanes; need (o.ty == 0)
  return .splc

/-- The common fields of a command; a reserved scope code is refused (R305). -/
def CFields.cmd (o : CFields) : Option CCmd := do
  return ⟨o.tsm, o.sa.toFin, o.sb.toFin, o.sc.toFin, o.sh.toFin, o.hitch.toFin, o.nb.toFin, o.tag, ← Scope.ofCode o.scope,
    Order.ofCode o.order, o.imm⟩

def cmdInstr (m fn : Nat) : Option (CCmd → Instr) :=
  match m, fn with
  | 0x2C, 0 => some .rcfg
  | 0x2C, 1 => some .tcfg
  | 0x2C, 2 => some .tgo
  | 0x2C, 3 => some .twait
  | 0x2C, 4 => some .tstat
  | 0x2C, 5 => some .tdisc
  | 0x30, 0 => some .gather
  | 0x30, 1 => some .scatter
  | 0x30, 2 => some .pool
  | 0x30, 3 => some .copy
  | 0x30, 4 => some .fill
  | 0x31, 0x00 => some .aowAddi32
  | 0x31, 0x01 => some .aowAddi64
  | 0x31, 0x02 => some .aowAddf32
  | 0x31, 0x03 => some .aowMax
  | 0x31, 0x04 => some .aowMin
  | 0x31, 0x05 => some .aowAnd
  | 0x31, 0x06 => some .aowOr
  | 0x31, 0x07 => some .aowXor
  | 0x31, 0x08 => some .aowSwap
  | 0x31, 0x10 => some .cas
  | 0x32, 0 => some .selk
  | 0x32, 1 => some .nbt
  | 0x33, 0 => some .coll
  | 0x34, 0 => some .cgen
  | 0x34, 1 => some .clock
  | 0x34, 2 => some .cunlk
  | 0x34, 3 => some .cpref
  | 0x34, 4 => some .cswap
  | 0x35, 0 => some .dflush
  | 0x35, 1 => some .lenq
  | 0x35, 2 => some .stgq
  | _, _ => none

def parseC (m : Nat) (o : CFields) : Option Instr := do
  let f ← cmdInstr m o.fn.toNat
  return f (← o.cmd)

def parse38 (o : IFields) : Option Instr := do
  o.d.zero?; o.a.zero?
  match o.fn.toNat with
  | 0 =>
    need (o.imm == 0)
    return .pend
  | 1 =>
    need (o.imm.extractLsb' 3 29 == 0)
    return .sync (o.imm.extractLsb' 0 3).toFin
  | 2 =>
    need (o.imm.extractLsb' 12 20 == 0)
    return .xfence (← Path.ofCode (o.imm.extractLsb' 8 4)) (← Path.ofCode (o.imm.extractLsb' 4 4))
      (← Scope.ofCode (o.imm.extractLsb' 0 4))
  | _ => none

def parse39 (o : IFields) : Option Instr := do
  let h ← o.a.sdst
  match o.fn.toNat with
  | 0 =>
    o.d.zero?; need (o.imm.extractLsb' 16 16 == 0)
    return .hinit h (o.imm.extractLsb' 0 16)
  | 1 =>
    o.d.zero?; need (o.imm.extractLsb' 16 16 == 0)
    return .harv h (o.imm.extractLsb' 0 16)
  | 2 =>
    need (o.imm.extractLsb' 1 31 == 0)
    return .hwait (← o.d.sdst) h (o.imm.getLsbD 0)
  | _ => none

def parse3A (o : IFields) : Option Instr := do
  o.a.zero?; need (o.imm.extractLsb' 6 26 == 0)
  let d ← o.d.sdst
  match o.fn.toNat with
  | 0 => return .rpop d (o.imm.extractLsb' 0 5) (o.imm.getLsbD 5)
  | 1 => return .rtry d (o.imm.extractLsb' 0 5) (o.imm.getLsbD 5)
  | _ => none

def parse3C (q : Seq) (o : IFields) : Option Instr :=
  match o.fn.toNat with
  | 0 => do
    o.d.zero?; o.a.zero?; need (o.imm.extractLsb' 16 16 == 0)
    return .trap (o.imm.extractLsb' 0 16)
  | 1 => do
    o.d.zero?; o.a.zero?; need (o.imm.extractLsb' 16 16 == 0)
    return .sys (o.imm.extractLsb' 0 16)
  | 2 => do
    o.d.zero?; o.a.zero?; need (o.imm == 0)
    return .eret
  | 3 => do
    o.d.zero?; o.a.zero?; need (o.imm == 0)
    return .yield
  | 4 => do
    o.d.zero?; o.a.zero?; need (o.imm == 0)
    return .halt
  | 5 => do
    o.a.zero?; need (o.imm.extractLsb' 9 23 == 0)
    let r ← Spr.ofNum (o.imm.extractLsb' 0 9).toNat
    need (r.legalOn q)
    return .mfsr (← o.d.sdst) r
  | 6 => do
    o.d.zero?; need (o.imm.extractLsb' 9 23 == 0)
    let r ← Spr.ofNum (o.imm.extractLsb' 0 9).toNat
    need (r.legalOn q)
    return .mtsr (← o.a.ssrc) r
  | _ => none

/-- The length field of a GVI: 4 to 73 on CTL (R384). -/
def gviLenOk (q : Seq) (n : BitVec 16) : Bool := q != .ctl || (decide (4 ≤ n.toNat) && decide (n.toNat ≤ 73))

def parse3D (q : Seq) (o : IFields) : Option Instr := do
  o.d.zero?; o.a.zero?; need (o.imm.extractLsb' 16 16 == 0); need (gviLenOk q (o.imm.extractLsb' 0 16))
  return .gvi (o.imm.extractLsb' 0 16)

/-- The structural part of check 6: the instruction the fields of a word name, none where a field is reserved. -/
def parse (q : Seq) (m : Nat) (w0 w1 : Word) : Option Instr :=
  match majorFmt m with
  | some .o =>
    if bit56 w0 then none
    else
      let o := oFields w0
      match m with
      | 0x01 => parse01 o
      | 0x18 => parse18 o
      | 0x19 => parse19 o
      | 0x1A => parse1A o
      | 0x1B => parse1B o
      | 0x1C => parse1C o
      | 0x1D => parse1D o
      | 0x1E => parse1E o
      | 0x1F => parse1F o
      | 0x20 => parse20 o
      | 0x21 => parse21 o
      | 0x28 => parse28 o
      | 0x29 => parse29 o
      | _ => none
  | some .i =>
    if bit56 w0 then none
    else
      let o := iFields w0
      match m with
      | 0x02 => parse02 o
      | 0x0B => parse0B o
      | 0x0C => parse0C o
      | 0x0D => parse0D o
      | 0x38 => parse38 o
      | 0x39 => parse39 o
      | 0x3A => parse3A o
      | 0x3C => parse3C q o
      | 0x3D => parse3D q o
      | _ => none
  | some .b =>
    let o := bFields w0
    match m with
    | 0x08 => parse08 o
    | 0x09 => parse09 o
    | 0x0A => parse0A o
    | _ => none
  | some .m =>
    if bit56 w0 then none
    else
      let o := mFields w0
      match m with
      | 0x10 => parse10 o
      | 0x11 => parse11 o
      | 0x12 => parse12 o
      | 0x13 => parse13 o
      | _ => none
  | some .c => parseC m (cFields w0)
  | some .t => (slotsOf (rawSlots w0 w1)).map (.tb (bit56 w0))
  | none => none

/-- Check 7 on the raw kind-00 fields of an EX word (R66). -/
def rawQueuesOk (m : Nat) (w : Word) : Bool :=
  match majorFmt m with
  | some .o =>
    let o := oFields w
    q3 o.d.dstWrong o.a.srcWrong o.b.srcWrong o.c.srcWrong
  | _ => true
where
  q3 (d a b c : Bool) : Bool := !(d || a || b || c)

/-- Check 7 on what the issuing sequencer may do: token queues (R107) and SHLD from a queue (R155). -/
def Instr.queuesOn (i : Instr) (q : Seq) : Bool :=
  match i with
  | .toks t _ => t.val / 4 == q.num.val
  | .tokw t _ | .tokt _ t _ => t.val % 4 == q.num.val
  | .shld _ (.queue _) => q == .ld
  | _ => true

/-- Checks 1 to 7 of R69 on the word at `addr` (with the word after it for a bundle), on a sequencer, in reduced
service or not. -/
def decode (q : Seq) (addr w0 w1 : Word) (reduced : Bool) : Except Cause Fetched :=
  let m := (majorOf w0).toNat
  if majorFmt m == none || (reduced && reducedAway m) then .error .illegalInstruction
  else if m == 0x3E && addr.getLsbD 3 then .error .misalignedBundle
  else if !majorOn m q then .error .wrongSequencer
  else if !fnAssigned m w0 reduced then .error .illegalFunction
  else if q != .ex && (usedKinds m w0).any (· == 0) then .error .operandKindUnavailable
  else
    match parse q m w0 w1 with
    | none => .error .reservedOperand
    | some i =>
      let f : Fetched := ⟨ypOf w0, i⟩
      if !i.fieldsOk || (f.wf != i.wf) then .error .reservedOperand
      else if !i.queuesOk || !rawQueuesOk m w0 || !i.queuesOn q then .error .queueDirection
      else .ok f

/-! ## The encoder -/

def OFields.of (fn : Nat) (d a b c : Fld) (mask : Fin 8) (mz : Bool) (ty : BitVec 4) : OFields :=
  ⟨BitVec.ofNat 8 fn, d, a, b, c, BitVec.ofNat 3 mask.val, mz, ty⟩

def S1.of (fn : Nat) (o : S1) : OFields := .of fn (sFld o.dst) o.a.fld .zero .zero 0 false o.ty.code
def S2.of (fn : Nat) (o : S2) : OFields := .of fn (sFld o.dst) o.a.fld o.b.fld .zero 0 false o.ty.code
def S3.of (fn : Nat) (o : S3) : OFields := .of fn (sFld o.dst) o.a.fld o.b.fld o.c.fld 0 false o.ty.code
def V1.of (fn : Nat) (o : V1) : OFields := .of fn o.dst.fld o.a.fld .zero .zero o.mask o.mz o.ty.code
def V2.of (fn : Nat) (o : V2) : OFields := .of fn o.dst.fld o.a.fld o.b.fld .zero o.mask o.mz o.ty.code
def V3.of (fn : Nat) (o : V3) : OFields := .of fn o.dst.fld o.a.fld o.b.fld o.c.fld o.mask o.mz o.ty.code
def VCmp.of (fn : Nat) (o : VCmp) : OFields := .of fn .zero (kFld o.kd) o.x.fld o.y.fld o.mask o.mz o.ty.code
def VRed.of (fn : Nat) (o : VRed) : OFields := .of fn o.dst.fld o.a.fld (litFld o.seg) .zero o.mask o.mz o.ty.code
def VPk.of (sel : Nat) (o : VPk) : OFields :=
  match o.scale with
  | some s => .of (sel + o.el.code.toNat) o.dst.fld o.a.fld s.fld (litFld o.blk) o.mask false o.ty.code
  | none => .of (sel + o.el.code.toNat) o.dst.fld o.a.fld .zero .zero o.mask false o.ty.code

/-- fn of a lane operation with SAT in bit 7 and RZ in bit 6. -/
def fnSatRz (sat rz : Bool) (fn : Nat) : Nat := (if sat then 128 else 0) + (if rz then 64 else 0) + fn

def IFields.of (fn : Nat) (d a : Fld) (imm : BitVec 32) : IFields := ⟨BitVec.ofNat 4 fn, d, a, imm⟩
def loopFld (n : Fin 4) : Fld := ⟨0, BitVec.ofNat 8 n.val⟩
def tokWord (t : Fin 16) (n : BitVec 6) : BitVec 32 := 0#12 ++ BitVec.ofNat 4 t.val ++ 0#10 ++ n

def MFields.of (fn : Nat) (q : BitVec 4) (base : Fin 32) (sh : Fin 16) (gran : BitVec 2) (hint : BitVec 3) (off : BitVec 32) :
    MFields :=
  ⟨BitVec.ofNat 6 fn, q, BitVec.ofNat 5 base.val, BitVec.ofNat 4 sh.val, gran, hint, off⟩

def MOp.of (fn : Nat) (o : MOp) : MFields := .of fn (BitVec.ofNat 4 o.q.val) o.base o.sh o.gran.code o.hint.code o.off
def PadOp.of (fn : Nat) (o : PadOp) : MFields := .of fn (BitVec.ofNat 4 o.q.val) o.base 0 2 0 o.off

def CCmd.of (fn : Nat) (c : CCmd) : CFields where
  tsm := c.tsm
  fn := BitVec.ofNat 6 fn
  sa := BitVec.ofNat 5 c.sa.val
  sb := BitVec.ofNat 5 c.sb.val
  sc := BitVec.ofNat 5 c.sc.val
  sh := BitVec.ofNat 4 c.sh.val
  hitch := BitVec.ofNat 5 c.hitch.val
  nb := BitVec.ofNat 5 c.nb.val
  tag := c.tag
  scope := c.scope.code
  order := c.order.code
  imm := c.imm

/-- The two words of a bundle. -/
def tbWords (yp tsm : Bool) (ss : List Slot) : Word × Word :=
  match ss.flatMap Slot.words with
  | [x0, x1, x2, x3, x4] =>
    let b : BitVec 128 := 0x3E#6 ++ BitVec.ofBool yp ++ BitVec.ofBool tsm ++ x0 ++ x1 ++ x2 ++ x3 ++ x4
    (b.extractLsb' 64 64, b.extractLsb' 0 64)
  | _ => (0, 0)

/-- The words of an instruction; the second is used by a bundle alone. Events have no word: they answer the all-zero
word, which is no instruction (R72). -/
def encode (f : Fetched) : Word × Word :=
  let y := f.yp
  match f.instr with
  | .add o => (oWord 0x01 y (o.of 0x00), 0)
  | .sub o => (oWord 0x01 y (o.of 0x01), 0)
  | .mul o => (oWord 0x01 y (o.of 0x02), 0)
  | .mulh o => (oWord 0x01 y (o.of 0x03), 0)
  | .and o => (oWord 0x01 y (o.of 0x04), 0)
  | .or o => (oWord 0x01 y (o.of 0x05), 0)
  | .xor o => (oWord 0x01 y (o.of 0x06), 0)
  | .shl o => (oWord 0x01 y (o.of 0x07), 0)
  | .shr o => (oWord 0x01 y (o.of 0x08), 0)
  | .sra o => (oWord 0x01 y (o.of 0x09), 0)
  | .min o => (oWord 0x01 y (o.of 0x0A), 0)
  | .max o => (oWord 0x01 y (o.of 0x0B), 0)
  | .sel o => (oWord 0x01 y (o.of 0x0C), 0)
  | .cmp o c => (oWord 0x01 y { o.of 0x0D with c := litFld (BitVec.ofNat 8 c.code) }, 0)
  | .popc o => (oWord 0x01 y (o.of 0x0E), 0)
  | .clz o => (oWord 0x01 y (o.of 0x0F), 0)
  | .li d imm => (iWord 0x02 y (.of 0 (sFld d) .zero imm), 0)
  | .lih d imm => (iWord 0x02 y (.of 1 (sFld d) .zero imm), 0)
  | .bc .al disp => (bWord 0x08 y ⟨0, .zero, .zero, disp⟩, 0)
  | .bc (.cmp c a b) disp => (bWord 0x08 y ⟨BitVec.ofNat 5 c.code, a.fld, b.fld, disp⟩, 0)
  | .bq t disp => (bWord 0x09 y ⟨0#4 ++ BitVec.ofBool t, .zero, .zero, disp⟩, 0)
  | .call l disp => (bWord 0x0A y ⟨0, sFld l, .zero, disp⟩, 0)
  | .jr l b off => (iWord 0x0B y (.of 0 (sFld l) b.fld off), 0)
  | .ret b => (iWord 0x0B y (.of 1 .zero b.fld 0), 0)
  | .loop n src e => (iWord 0x0B y (.of 2 (loopFld n) src.fld e), 0)
  | .loopi n c e => (iWord 0x0B y (.of 3 (loopFld n) .zero (c ++ e)), 0)
  | .lexit src => (iWord 0x0B y (.of 4 .zero src.fld 0), 0)
  | .nop => (iWord 0x0C y (.of 0 .zero .zero 0), 0)
  | .toks t n => (iWord 0x0C y (.of 1 .zero .zero (tokWord t n)), 0)
  | .tokw t n => (iWord 0x0C y (.of 2 .zero .zero (tokWord t n)), 0)
  | .tokt d t n => (iWord 0x0C y (.of 3 (sFld d) .zero (tokWord t n)), 0)
  | .bqp src n => (iWord 0x0C y (.of 4 .zero src.fld (BitVec.ofNat 32 n.val)), 0)
  | .cbw c src => (iWord 0x0D y (.of 0 ⟨2, BitVec.ofFin c⟩ src.fld 0), 0)
  | .mfsr d r => (iWord 0x3C y (.of 5 (sFld d) .zero (BitVec.ofNat 32 r.num)), 0)
  | .mtsr src r => (iWord 0x3C y (.of 6 .zero src.fld (BitVec.ofNat 32 r.num)), 0)
  | .ldr o => (mWord 0x10 y (o.of 0), 0)
  | .ldl o => (mWord 0x10 y (o.of 1), 0)
  | .lds o => (mWord 0x10 y (o.of 2), 0)
  | .spr o => (mWord 0x10 y (o.of 3), 0)
  | .ldt dl b sh h off => (mWord 0x10 y (.of 4 (BitVec.ofNat 4 dl.val) b sh 2 h.code off), 0)
  | .pref b sh g h off => (mWord 0x10 y (.of 5 0 b sh g.code h.code off), 0)
  | .trd q t b r rel =>
    (mWord 0x10 y (.of 6 (BitVec.ofNat 4 q.val) b 0 2 0 (0#24 ++ BitVec.ofBool rel ++ BitVec.ofNat 2 t.val ++ r)), 0)
  | .drain d m off => (mWord 0x10 y (.of 7 0 d 0 2 m.code off), 0)
  | .tcut hold b base sh off => (mWord 0x11 y (.of 0 (BitVec.ofBool hold ++ BitVec.ofNat 3 b.val) base sh 2 0 off), 0)
  | .tfol b base sh ring off => (mWord 0x11 y (.of 1 (BitVec.ofNat 4 b.val) base sh 2 (BitVec.ofNat 3 ring.val) off), 0)
  | .bget d b => (mWord 0x11 y (.of 2 (BitVec.ofNat 4 b.val) d 0 0 0 0), 0)
  | .bset b src => (mWord 0x11 y (.of 3 (BitVec.ofNat 4 b.val) src 0 0 0 0), 0)
  | .str o => (mWord 0x12 y (o.of 0), 0)
  | .stl o => (mWord 0x12 y (o.of 1), 0)
  | .spw o => (mWord 0x12 y (o.of 2), 0)
  | .snd o => (mWord 0x12 y (o.of 3), 0)
  | .strm o => (mWord 0x12 y (o.of 4), 0)
  | .shld sh (.mem b off) => (mWord 0x13 y (.of 0 0 b sh 0 0 off), 0)
  | .shld sh (.queue q) => (mWord 0x13 y (.of 0 (BitVec.ofNat 4 q.val) 0 sh 0 0 0), 0)
  | .shset sh k b off => (mWord 0x13 y (.of 1 (BitVec.ofNat 4 k.val) b sh 0 0 off), 0)
  | .shget d sh k => (mWord 0x13 y (.of 2 (BitVec.ofNat 4 k.val) d sh 0 0 0), 0)
  | .smap w b lsz row count =>
    (mWord 0x13 y (.of 3 (BitVec.ofNat 4 w.val) b 0 (lsz.extractLsb' 3 2) (lsz.extractLsb' 0 3) (0#5 ++ row ++ count)), 0)
  | .sunmap w => (mWord 0x13 y (.of 4 (BitVec.ofNat 4 w.val) 0 0 0 0 0), 0)
  | .vadd s o => (oWord 0x18 y (o.of (fnSatRz s false 0)), 0)
  | .vsub s o => (oWord 0x18 y (o.of (fnSatRz s false 1)), 0)
  | .vmul s o => (oWord 0x18 y (o.of (fnSatRz s false 2)), 0)
  | .vmulh o => (oWord 0x18 y (o.of 3), 0)
  | .vmin o => (oWord 0x18 y (o.of 4), 0)
  | .vmax o => (oWord 0x18 y (o.of 5), 0)
  | .vabs s o => (oWord 0x18 y (o.of (fnSatRz s false 6)), 0)
  | .vneg s o => (oWord 0x18 y (o.of (fnSatRz s false 7)), 0)
  | .vand o => (oWord 0x19 y (o.of 0x00), 0)
  | .vor o => (oWord 0x19 y (o.of 0x01), 0)
  | .vxor o => (oWord 0x19 y (o.of 0x02), 0)
  | .vnot o => (oWord 0x19 y (o.of 0x03), 0)
  | .vshl o => (oWord 0x19 y (o.of 0x04), 0)
  | .vshlSat o => (oWord 0x19 y (o.of 0x84), 0)
  | .vshr o => (oWord 0x19 y (o.of 0x05), 0)
  | .vsra o => (oWord 0x19 y (o.of 0x06), 0)
  | .vpopc o => (oWord 0x19 y (o.of 0x07), 0)
  | .vfadd s z o => (oWord 0x1A y (o.of (fnSatRz s z 0)), 0)
  | .vfsub s z o => (oWord 0x1A y (o.of (fnSatRz s z 1)), 0)
  | .vfmul s z o => (oWord 0x1A y (o.of (fnSatRz s z 2)), 0)
  | .vfmin o => (oWord 0x1A y (o.of 3), 0)
  | .vfmax o => (oWord 0x1A y (o.of 4), 0)
  | .vfabs o => (oWord 0x1A y (o.of 5), 0)
  | .vfneg o => (oWord 0x1A y (o.of 6), 0)
  | .vfma s z o => (oWord 0x1B y (o.of (fnSatRz s z 0)), 0)
  | .vfms s z o => (oWord 0x1B y (o.of (fnSatRz s z 1)), 0)
  | .vfnma s z o => (oWord 0x1B y (o.of (fnSatRz s z 2)), 0)
  | .vcmpEq o => (oWord 0x1C y (o.of 0x00), 0)
  | .vcmpNe o => (oWord 0x1C y (o.of 0x01), 0)
  | .vcmpLt o => (oWord 0x1C y (o.of 0x02), 0)
  | .vcmpLe o => (oWord 0x1C y (o.of 0x03), 0)
  | .vcmpGt o => (oWord 0x1C y (o.of 0x04), 0)
  | .vcmpGe o => (oWord 0x1C y (o.of 0x05), 0)
  | .vcmpUn o => (oWord 0x1C y (o.of 0x06), 0)
  | .kand d a b => (oWord 0x1C y (.of 0x10 .zero (kFld d) (kFld a) (kFld b) 0 false 0), 0)
  | .kor d a b => (oWord 0x1C y (.of 0x11 .zero (kFld d) (kFld a) (kFld b) 0 false 0), 0)
  | .kxor d a b => (oWord 0x1C y (.of 0x12 .zero (kFld d) (kFld a) (kFld b) 0 false 0), 0)
  | .knot d a => (oWord 0x1C y (.of 0x13 .zero (kFld d) (kFld a) .zero 0 false 0), 0)
  | .kmov d a => (oWord 0x1C y (.of 0x14 .zero (kFld d) (kFld a) .zero 0 false 0), 0)
  | .kpopc d a => (oWord 0x1C y (.of 0x15 (sFld d) (kFld a) .zero .zero 0 false 0), 0)
  | .vsel o k => (oWord 0x1D y { o.of 0 with c := kFld k }, 0)
  | .vbcast d ty m z (.lane a j) => (oWord 0x1D y (.of 1 d.fld a.fld (litFld j) (litFld 0) m z ty.code), 0)
  | .vbcast d ty m z (.index b st) => (oWord 0x1D y (.of 1 d.fld b.fld (litFld st) (litFld 1) m z ty.code), 0)
  | .vperm o => (oWord 0x1D y (o.of 2), 0)
  | .vrot o n => (oWord 0x1D y { o.of 3 with b := n.fld }, 0)
  | .vrmg d m z a b n => (oWord 0x1D y (.of 4 d.fld a.fld b.fld n.fld m z 2), 0)
  | .vmov o => (oWord 0x1D y (o.of 5), 0)
  | .vcvt s z sty o p => (oWord 0x1E y { o.of (fnSatRz s z sty.code.toNat) with b := litFld p }, 0)
  | .vpack o => (oWord 0x1E y (o.of 0x10), 0)
  | .vunpk o => (oWord 0x1E y (o.of 0x20), 0)
  | .vbsc l ty m d a => (oWord 0x1E y (.of (0x30 + l.code.toNat) d.fld a.fld .zero .zero m false ty.code), 0)
  | .vredAdd o => (oWord 0x1F y (o.of 0x00), 0)
  | .vredMin o => (oWord 0x1F y (o.of 0x01), 0)
  | .vredMax o => (oWord 0x1F y (o.of 0x02), 0)
  | .vredAnd o => (oWord 0x1F y (o.of 0x03), 0)
  | .vredOr o => (oWord 0x1F y (o.of 0x04), 0)
  | .vredXor o => (oWord 0x1F y (o.of 0x05), 0)
  | .vredFadd o => (oWord 0x1F y (o.of 0x06), 0)
  | .vredFmin o => (oWord 0x1F y (o.of 0x07), 0)
  | .vredFmax o => (oWord 0x1F y (o.of 0x08), 0)
  | .vmaxi o => (oWord 0x1F y (o.of 0x10), 0)
  | .vexp2 o => (oWord 0x20 y (o.of 0), 0)
  | .vlog2 o => (oWord 0x20 y (o.of 1), 0)
  | .vrcp o => (oWord 0x20 y (o.of 2), 0)
  | .vrsq o => (oWord 0x20 y (o.of 3), 0)
  | .vcls o => (oWord 0x21 y (o.of 0), 0)
  | .vbq ty m a n all =>
    (oWord 0x21 y (.of 1 .zero a.fld (litFld (BitVec.ofNat 8 n.val)) (litFld (if all then 1 else 0)) m false ty.code), 0)
  | .defer m st t a g => (oWord 0x21 y (.of 2 (sFld st) (aFld t) (aFld a) (aFld g) m false 0), 0)
  | .amov o p => (oWord 0x28 y { o.of 0 with b := litFld p }, 0)
  | .aclr m d => (oWord 0x28 y (.of 1 (aFld d) .zero .zero .zero m false 0), 0)
  | .acvt d ty m z a ctl => (oWord 0x28 y (.of 2 d.fld (aFld a) (litFld ctl) .zero m z ty.code), 0)
  | .splc => (oWord 0x29 y (.of 0 .zero .zero .zero .zero 0 false 0), 0)
  | .tb tsm ss => tbWords y tsm ss
  | .rcfg c => (cWord 0x2C y (c.of 0), 0)
  | .tcfg c => (cWord 0x2C y (c.of 1), 0)
  | .tgo c => (cWord 0x2C y (c.of 2), 0)
  | .twait c => (cWord 0x2C y (c.of 3), 0)
  | .tstat c => (cWord 0x2C y (c.of 4), 0)
  | .tdisc c => (cWord 0x2C y (c.of 5), 0)
  | .gather c => (cWord 0x30 y (c.of 0), 0)
  | .scatter c => (cWord 0x30 y (c.of 1), 0)
  | .pool c => (cWord 0x30 y (c.of 2), 0)
  | .copy c => (cWord 0x30 y (c.of 3), 0)
  | .fill c => (cWord 0x30 y (c.of 4), 0)
  | .aowAddi32 c => (cWord 0x31 y (c.of 0x00), 0)
  | .aowAddi64 c => (cWord 0x31 y (c.of 0x01), 0)
  | .aowAddf32 c => (cWord 0x31 y (c.of 0x02), 0)
  | .aowMax c => (cWord 0x31 y (c.of 0x03), 0)
  | .aowMin c => (cWord 0x31 y (c.of 0x04), 0)
  | .aowAnd c => (cWord 0x31 y (c.of 0x05), 0)
  | .aowOr c => (cWord 0x31 y (c.of 0x06), 0)
  | .aowXor c => (cWord 0x31 y (c.of 0x07), 0)
  | .aowSwap c => (cWord 0x31 y (c.of 0x08), 0)
  | .cas c => (cWord 0x31 y (c.of 0x10), 0)
  | .selk c => (cWord 0x32 y (c.of 0), 0)
  | .nbt c => (cWord 0x32 y (c.of 1), 0)
  | .coll c => (cWord 0x33 y (c.of 0), 0)
  | .cgen c => (cWord 0x34 y (c.of 0), 0)
  | .clock c => (cWord 0x34 y (c.of 1), 0)
  | .cunlk c => (cWord 0x34 y (c.of 2), 0)
  | .cpref c => (cWord 0x34 y (c.of 3), 0)
  | .cswap c => (cWord 0x34 y (c.of 4), 0)
  | .dflush c => (cWord 0x35 y (c.of 0), 0)
  | .lenq c => (cWord 0x35 y (c.of 1), 0)
  | .stgq c => (cWord 0x35 y (c.of 2), 0)
  | .pend => (iWord 0x38 y (.of 0 .zero .zero 0), 0)
  | .sync l => (iWord 0x38 y (.of 1 .zero .zero (BitVec.ofNat 32 l.val)), 0)
  | .xfence a b sc => (iWord 0x38 y (.of 2 .zero .zero (0#20 ++ a.num ++ b.num ++ sc.code)), 0)
  | .hinit h n => (iWord 0x39 y (.of 0 .zero (sFld h) (0#16 ++ n)), 0)
  | .harv h n => (iWord 0x39 y (.of 1 .zero (sFld h) (0#16 ++ n)), 0)
  | .hwait d h p => (iWord 0x39 y (.of 2 (sFld d) (sFld h) (0#31 ++ BitVec.ofBool p)), 0)
  | .rpop d tag any => (iWord 0x3A y (.of 0 (sFld d) .zero (0#26 ++ BitVec.ofBool any ++ tag)), 0)
  | .rtry d tag any => (iWord 0x3A y (.of 1 (sFld d) .zero (0#26 ++ BitVec.ofBool any ++ tag)), 0)
  | .trap n => (iWord 0x3C y (.of 0 .zero .zero (0#16 ++ n)), 0)
  | .sys n => (iWord 0x3C y (.of 1 .zero .zero (0#16 ++ n)), 0)
  | .eret => (iWord 0x3C y (.of 2 .zero .zero 0), 0)
  | .yield => (iWord 0x3C y (.of 3 .zero .zero 0), 0)
  | .halt => (iWord 0x3C y (.of 4 .zero .zero 0), 0)
  | .gvi n => (iWord 0x3D y (.of 0 .zero .zero (0#16 ++ n)), 0)
  | _ => (0, 0)

/-- The instructions that are words (majors 0x01-0x3E); the rest are events. -/
def Instr.isWord (i : Instr) : Bool := (encode ⟨false, i⟩).1 != 0

/-- The length of an instruction's words in bytes (R57). -/
def Instr.size (i : Instr) : Word :=
  match i with
  | .tb _ _ => 16
  | _ => 8

/-- The sequencers on which an instruction is legal: the major's (R71), the special register's (R91) and the queue's
(R107, R155). -/
def Instr.legalOn (i : Instr) (q : Seq) : Bool :=
  majorOn (majorOf (encode ⟨false, i⟩).1).toNat q && i.queuesOn q &&
    (match i with
      | .mfsr _ r | .mtsr _ r => r.legalOn q
      | _ => true)

/-- The first sequencer, in ascending number, whose decoder accepts the words at an aligned address. -/
def decodeAny (w0 w1 : Word) : Option (Seq × Fetched) :=
  go w0 w1 Seq.all
where
  go (w0 w1 : Word) : List Seq → Option (Seq × Fetched)
    | [] => none
    | q :: t =>
      match decode q 0 w0 w1 false with
      | .ok f => some (q, f)
      | .error _ => go w0 w1 t

/-- The words of a table row's bits: bit 0 is the least significant bit of the first word. -/
def tableWord0 (w : Nat) : Word := BitVec.ofNat 64 w
def tableWord1 (w : Nat) : Word := BitVec.ofNat 64 (w / 2 ^ 64)

/-- The instruction the decoder reads from a table row's bits, on the first sequencer that accepts it. -/
def decodeTableWord (nbits w : Nat) : Option Instr :=
  let v := w % 2 ^ nbits
  (decodeAny (tableWord0 v) (tableWord1 v)).map fun r => r.2.instr

end Sys2Proof
end

