-- ==== Sys2Proof/Config.lean ====
section
/-! DEFINITION. What the manual leaves open: the free values of the model. Each is an opaque constant, so nothing can be
proved of its value; a statement about one holds whatever it is. The log entry of each is named beside it. -/

namespace Sys2Proof.Config

/-- The n-th value the manual leaves open where no operand decides it: what a read of a unit holding an error pattern
beyond its code delivers (R364). Log 6. -/
opaque freeValue : Nat → BitVec 256

/-- Whether the n-th error pattern beyond the code is detected (R364: "may detect them ... or miss them"). Log 6. -/
opaque freeDetect : Nat → Bool

/-- What another package answers to a request (R408): it serves it; it refuses it under checks 1 or 2; the line there has another
layout; or the data is lost there. -/
inductive FarReply where
  | served | refused | mismatch | lost
  deriving DecidableEq, Repr, Inhabited

/-- The answer to the n-th request that goes out to another package: its tables and its memory are not this machine's. Log 81. -/
opaque farReply : Nat → FarReply

/-- Whether the members of a gang on other packages have arrived when the n-th release asks (R410). Log 81. -/
opaque gangArrived : Nat → Bool

/-- SHA-384 of a byte string (R414, R415): the function is defined outside the manual. Log 7. -/
opaque sha384 : List Byte → BitVec 384

/-- Whether an ECDSA P-384 signature verifies under the fused vendor key (R414): public key digest, message digest,
signature. Log 7. -/
opaque ecdsaVerify : BitVec 384 → BitVec 384 → BitVec 768 → Bool

/-- Whether the firmware image that the package holds at its first bring-up passes R414. Log 7. -/
opaque bootImageOk : Bool

/-- The SHA-384 of the body of that image (R415). Log 7. -/
opaque bootDigest : BitVec 384

/-- The throttle level that Lovage chooses for a cluster in forecast mode, from its afc register and pwnow and nothing else (R418).
Log 86. -/
opaque clusterLevel (afc : BitVec 64) (pwnow : BitVec 16) : Fin 4

/-- The ECDSA P-384 signature made with the device key (R415). Log 7. -/
opaque deviceSign : BitVec 384 → BitVec 768

/-- The device public key, x then y (R415). Log 7. -/
opaque devicePublicKey : BitVec 768

/-- The SHA-384 of the vendor key, fused in the package (R414). Log 7. -/
opaque vendorKeyHash : BitVec 384

/-- Lovage's own code and the fused configuration and stepping, as digests (R415). Log 7. -/
opaque lovageDigest : BitVec 384
opaque configDigest : BitVec 384

/-- Sectors that the coder's form of a code line takes (R220): the coding is the device's own. A value of 4 or more stands for
a line stored raw, another for coded bytes in at most three sectors. Log 9. -/
opaque codedSectors : BitVec 1024 → Nat

/-- The number under which the n-th accepted launch is reported (R340, R402): the manual gives no numbering. Log 20. -/
opaque launchNumber : Nat → BitVec 16

end Sys2Proof.Config
end

