-- ==== Sys2Proof/Machine/State.lean ====
section
/-! DEFINITION. The state of a KV9 package: plain data, everything the manual gives the machine. INVENTORY.md lists each
piece with its rule and its reset value. -/

namespace Sys2Proof.Machine

/-! ## Sequencers (R16, R90, R91) -/

/-- One hardware loop counter with its body (R91, R104). -/
structure LoopCtr where
  lc   : BitVec 32
  lbeg : Word
  lend : Word
  deriving DecidableEq, Repr

/-- What a blocked instruction waits for (R355 names the waits at which a core may divert): entries of the data queues it pops,
its bq, rq, units of a token queue, a hitch of its cluster, entries for a DRAIN, room in a data queue or a bq, a phase end that has
not begun, the gang barrier, the diversion at a yield point, an entry of a slice's request queue (R179), rows of a BMV block on their
way (R162), anything else. -/
inductive Wait where
  | none
  | queueEmpty (qs : List (Fin 16))
  | bqEmpty | rqEmpty
  | tokw (t : Fin 16) (n : BitVec 6)
  | hwait (h : Nat)
  | drain (mode : DrainMode)
  | destFull (q : Fin 16)
  | bqFull (n : Fin 4)
  | phaseEnd
  | barrier
  | held
  | slice (n : Fin 128)
  | fill
  | other
  deriving DecidableEq, Repr

/-- Reasons of a request and of a diversion (R350): move 1, pre-empt 2, release 3, resume 4. -/
inductive Reason where
  | move | preempt | release | resume
  deriving DecidableEq, Repr

/-- A protection violation of a master (R360). `master` is 0 for a sequencer, 1 tensor, 2 gather, 3 code, 4 stage, 5 a
host function. -/
structure Violation where
  kind   : VKind
  master : BitVec 8
  unit   : BitVec 8
  place  : BitVec 16
  ctx    : Ctx
  pc     : Word
  target : Word
  deriving DecidableEq, Repr

/-- A write of the device itself that waits for a die to enter service (R413): the address, n bytes of x, and the VF whose reset it
records. -/
structure Owed where
  pa : Nat
  x  : Nat
  n  : Nat
  vf : Option (Fin 64)
  deriving DecidableEq, Repr

/-- The run state of a sequencer (R354, R356, R360). -/
inductive Run where
  | idle | running | halted | parked
  | frozen (v : Violation)
  deriving DecidableEq, Repr

/-- The phase end a sequencer has reached (R201): its fn and imm32, and the yp bit of its word. -/
structure PhaseCopy where
  fn  : BitVec 4
  imm : BitVec 32
  yp  : Bool
  deriving DecidableEq, Repr

/-- Supervisor registers of a sequencer: the flush range (R195), the selected log entry (R376), the injection (R383). -/
structure SupRegs where
  l2flo   : Word
  l2fhi   : Word
  rlsel   : BitVec 6
  errinj  : Word
  errinja : Word
  deriving DecidableEq, Repr

/-- One sequencer. -/
structure SeqSt where
  regs   : Vector Word 32
  pc     : Word
  loops  : Vector LoopCtr 4
  lstk   : BitVec 12
  cause  : BitVec 9
  epc    : Word
  tval   : Word
  sup    : Bool
  inTrap : Bool
  dpc    : Word
  dres   : BitVec 3
  tvec   : Word
  psup   : Bool
  sscr   : Word
  sr     : SupRegs
  run    : Run
  wait   : Wait
  copy   : Option PhaseCopy
  gvi    : Option (BitVec 16)
  sevTrap : Option (Cause × Word)
  walkFault : Option (Cause × Word)
  ahead  : Option (BitVec 41)
  deriving DecidableEq, Repr

/-! ## Queues (R107, R110, R157, R211) -/

/-- An entry of a data queue: a row with its 8-bit tag (R53, R157), and the slot mark of a KVPG row (R56). -/
structure QEntry where
  tag  : BitVec 8
  data : Row
  mark : BitVec 2
  deriving DecidableEq, Repr

/-- A data queue, head first, with its counters (R157, R175) and the places claimed for entries not yet pushed. -/
structure DQueue where
  entries : List QEntry
  pushed  : BitVec 16
  popped  : BitVec 16
  claimed : Nat
  deriving DecidableEq, Repr

/-- An entry of rq (R211). -/
structure Reply where
  value : Word
  tag   : BitVec 5
  deriving DecidableEq, Repr

/-! ## EX (R95, R117, R119) -/

/-- A result of EX on its way to a register. Lane writes carry a bit mask of what they change; a fold of TSCL carries its scale and
its partial (R252). -/
inductive ExWrite where
  | s (n : Fin 32) (x : Word)
  | v (n : Fin 64) (en data : Row)
  | a (n : Fin 64) (en data : Acc)
  | aAdd (n : Fin 64) (data : Acc)
  | aScale (f p : Fin 64) (scale : BitVec 16) (part : Acc)
  | k (n : Fin 8) (en data : Mask)
  deriving DecidableEq, Repr

/-- A result in flight: the slot it lands in, and what it writes. -/
structure Pending where
  due : Nat
  w   : ExWrite
  deriving DecidableEq, Repr

/-- An entry on its way out of EX (R119). -/
inductive ExOut where
  | data (q : Fin 4) (e : QEntry)
  | bit (bq : Fin 4) (b : Bool)
  deriving DecidableEq, Repr

structure ExPush where
  due : Nat
  out : ExOut
  deriving DecidableEq, Repr

/-- The registers of EX and its results in flight. Before the clk `free` EX does not issue (R121). -/
structure ExSt where
  v      : Vector Row 64
  a      : Vector Acc 64
  k      : Vector Mask 8
  slot   : Nat
  free   : Nat
  pend   : List Pending
  pushes : List ExPush
  ycnt   : Word
  splret : Word
  tsa    : Word
  deriving DecidableEq, Repr

/-! ## Code supply of a core (R223) -/

/-- A line of the code L1: context, VA[47:7], the 128 bytes, whether it is locked, and where it was filled from. -/
structure CodeLine where
  ctx    : Ctx
  line   : BitVec 41
  data   : BitVec 1024
  locked : Bool
  pa     : Nat
  deriving DecidableEq, Repr

/-! ## Memory (R12, R53, R177, R178, R184) -/

/-- The check word of an HBM4E sector (R184), without its check bits, which are always those of what was written: stamp,
map entry, the KVPG slot mark of R56, and the bits an injection has flipped (R383): 0-255 data, 256 + k check bit k. -/
structure SectorWord where
  stamp : Layout
  map   : BitVec 7
  mark  : BitVec 2
  flips : List Nat
  deriving DecidableEq, Repr

/-- An L2 line (R178, R181): line address PA >> 7, way, layout tag, owner tag, the KVPG slot mark of each sector (R56), data, valid
and dirty sectors, flipped bits (288 × sector + position). -/
structure L2Line where
  la    : Nat
  way   : Fin 16
  tag   : Layout
  owner : Ctx
  marks : Vector (BitVec 2) 4
  data  : BitVec 1024
  valid : BitVec 4
  dirty : BitVec 4
  flips : List Nat
  deriving DecidableEq, Repr

/-- A way of a set of a slice (R373). -/
structure WayId where
  slice : Nat
  set   : Nat
  way   : Fin 16
  deriving DecidableEq, Repr

/-- A request to an L2 slice (R179): a load's line with the sectors asked for, or a stash row's dirty sectors of one line
on their way home. `filled` says that the row was filled from memory (R172, R199). -/
inductive SliceOp where
  | read (load : Nat) (hint : Hint)
  | write (row : Fin 2048) (data : BitVec 1024) (filled : Bool)
  deriving DecidableEq, Repr

structure SliceReq where
  core : CoreId
  ctx  : Ctx
  pc   : Word
  va   : Word
  pa   : Nat
  mask : BitVec 4
  code : Layout
  op   : SliceOp
  deriving DecidableEq, Repr

/-- Who asks a slice for an entry, by core: LD or ST, another unit of the core (fetch, the cutter, an LDT, a GVI region), an engine, a
page walker (R179). A walker counts with core 0 of its cluster. -/
inductive AskKind where
  | access | unit | engine | walker
  deriving DecidableEq, Repr

structure Requester where
  core : CoreId
  kind : AskKind
  deriving DecidableEq, Repr

/-- A slice: its request queue, its miss buffer, the place in the rotation of grants after which it goes on, who has been granted an entry
that is not used yet, and who waits for one beside LD and ST, whose waits are their own (R178, R179). -/
structure SliceSt where
  queue : List SliceReq
  miss  : List SliceReq
  last  : Nat
  kept  : List Requester
  waiting : List Requester
  deriving DecidableEq, Repr

/-- An entry of the error log (R376): its four words. -/
abbrev LogEntry := Vector Word 4

/-- A TLB entry (R194): context, VA >> 16 of its page, a 32 MiB page, and the leaf. -/
structure TlbEntry where
  ctx : Ctx
  vpn : Nat
  big : Bool
  pte : Word
  deriving DecidableEq, Repr

/-- A walk in progress (R194): the sequencer that waits, its context, the address, a fetch or an access. -/
structure Walk where
  core  : CoreId
  seq   : Seq
  ctx   : Ctx
  va    : Word
  fetch : Bool
  deriving DecidableEq, Repr

/-! ## The access processor (R151, R164, R165, R173) -/

/-- A scratchpad row (R177): layout tag, KVPG slot mark, bytes, flipped bits. -/
structure PadRow where
  tag   : Layout
  mark  : BitVec 2
  data  : Row
  flips : List Nat
  deriving DecidableEq, Repr

/-- A shape register: fields f0 to f7 (R151). -/
abbrev Shape := Vector Word 8

/-- A stash window (R164). -/
structure Window where
  va    : Word
  lsz   : BitVec 5
  row   : BitVec 11
  count : BitVec 12
  deriving DecidableEq, Repr

/-- The state of a line or row a load waits for: asked for, arrived with the classes found (offset, SV1 or SV2, injected),
or refused for its layout. -/
inductive PartSt where
  | asked
  | got (data : BitVec 1024) (cls : List (Nat × Nat × Bool))
  | refused
  deriving DecidableEq, Repr

/-- What a pool row in use is doing (R165, R166, R172): filled in a window, held after SUNMAP, being written back; taken for an STRM
that has not been performed yet; refused for its layout, which the access that needs it finds (R148 check 7); or waiting for its two
lines, asked for by a sequencer under a number. -/
inductive RowUse where
  | filled | held | writing | taken | refused
  | filling (id : Nat) (seq : Seq) (lo hi : PartSt)
  deriving DecidableEq, Repr

/-- A pool row in use: the row, its window, VA and PA of its 256 B, the page's code, the dirty sectors, whether it was
filled from memory, and whether its page was discarded, so that its write-back is dropped (R149). -/
structure StashRow where
  row    : Fin 2048
  win    : Fin 16
  va     : Word
  pa     : Nat
  code   : Layout
  dirty  : BitVec 8
  filled : Bool
  drop   : Bool
  use    : RowUse
  deriving DecidableEq, Repr

/-- One line of a direct load: its address and what has come of it. -/
structure Part where
  va : Word
  pa : Nat
  mask : BitVec 4
  st : PartSt
  deriving DecidableEq, Repr

/-- Where a load's contents go: a data queue, a shape register (R155, R158), or a sub-tile of a ring slot (R268). -/
inductive LoadDest where
  | queue (q : Fin 16)
  | shape (n : Fin 16)
  | ring (r : Fin 8) (slot sub : Nat)
  deriving DecidableEq, Repr

/-- A row that a sub-tile is read from: its index from ea, VA, PA, sectors, and whether its page is discarded (R268). -/
structure SubRow where
  idx  : Nat
  va   : Word
  pa   : Nat
  mask : BitVec 8
  discarded : Bool
  deriving DecidableEq, Repr

/-- The tenant's delta of an LDT (R269): the first block, rows of a block, row pitch. -/
structure Delta where
  base  : Word
  geom  : Nat
  pitch : Nat
  deriving DecidableEq, Repr

/-- What an LDT loads (R268): the ring's format, the page's layout, the first element of the first line, the row pitch, K and
line counts, rows to read, the delta, the first K position and matrix row, and the mode it issued in. -/
structure SubTile where
  fmt   : Layout
  page  : Layout
  first : Nat
  pitch : Nat
  kv    : Nat
  lv    : Nat
  rows  : List SubRow
  delta : Option Delta
  k0    : Nat
  m0    : Nat
  sup   : Bool
  hint  : Hint
  deriving DecidableEq, Repr

/-- Where a load's contents come from: stash rows (the VA of each), lines asked for directly, a scratchpad row, an entry read
at issue with the tile that goes free when it is delivered (R278), a matrix read for a sub-tile. -/
inductive LoadSrc where
  | stash (rows : List (Word × Nat))
  | lines (ps : List Part)
  | pad (core : CoreId) (row : Fin 2048)
  | entry (e : QEntry) (rel : Option (Fin 4))
  | sub (t : SubTile)
  deriving DecidableEq, Repr

/-- How a step of a stream is decoded or encoded (R151, R152, R153): the shape's code (the page's where none converts),
conversion, first element, elements, extent e0, RZ, SAT, geometry. -/
structure Fmt where
  code  : Layout
  page  : Layout
  conv  : Bool
  first : Nat
  n     : Nat
  e0    : Nat
  rz    : Bool
  sat   : Bool
  geom  : Nat
  deriving DecidableEq, Repr

/-- The shape register whose cursor an access advanced (R153). -/
abbrev Cursor := Option (Fin 16)

/-- A change of a shape register: an access advances its cursor, with the extents of dimensions 0 and 1 that it counts and whether
dimensions 2 and 3 take part (R153, R268); SHSET writes a field, SHLD the whole (R155, R156). -/
inductive ShapeOp where
  | advance (n0 n1 : Nat) (deep : Bool)
  | field (k : Fin 8) (x : Word)
  | whole (x : Shape)
  deriving DecidableEq, Repr

/-- What an instruction of LD or ST has changed outside its sequencer, as it is taken back (R174, R176): a shape register, with its
contents before; an entry popped from q14 or q15; units of a token queue; an outcome popped from a bq. -/
inductive Change where
  | shape (n : Fin 16) (op : ShapeOp) (before : Shape)
  | entry (q : Fin 16) (e : QEntry)
  | tokens (t : Fin 16) (n : BitVec 6)
  | outcome (n : Fin 4) (b : Bool)
  deriving DecidableEq, Repr

/-- A change made while accesses that may yet fault are in flight. Those of its sequencer with a smaller number issued before it; the
number of the access that made it is one of them. -/
structure Undone where
  id   : Nat
  seq  : Seq
  what : Change
  deriving DecidableEq, Repr

/-- A load in flight (R158, R173). `before` is its sequencer before it issued (R174, R176). -/
structure Load where
  id     : Nat
  seq    : Seq
  before : SeqSt
  va     : Word
  pa     : Nat
  gran   : Gran
  fmt    : Fmt
  discard : Bool
  dest   : LoadDest
  src    : LoadSrc
  cursor : Cursor
  deriving DecidableEq, Repr

/-- The pc of a load. -/
def Load.pc (l : Load) : Word := l.before.pc

/-- What a store does when it is performed (R172). -/
inductive StoreOp where
  | stash (whole discard : Bool)
  | pad (row : Fin 2048)
  | send (core : CoreId) (row : Fin 2048)
  deriving DecidableEq, Repr

/-- A store in flight (R158, R173). -/
structure Store where
  id     : Nat
  before : SeqSt
  q      : Fin 16
  va     : Word
  gran   : Gran
  fmt    : Fmt
  rows   : List (Word × Nat)
  op     : StoreOp
  cursor : Cursor
  deriving DecidableEq, Repr

/-- The pc of a store. -/
def Store.pc (x : Store) : Word := x.before.pc

/-- An SND of the superstep, taken by the send path and not yet delivered (R170). -/
structure Send where
  core : CoreId
  row  : Fin 2048
  entry : QEntry
  mark : BitVec 2
  deriving DecidableEq, Repr

/-- A page of the LATT (R221): context, VA >> 16, frame (PA >> 16), and the lines whose stored form is known, with their
count of stored sectors (0 for a blank line); the splice page of the page's entry in the directory, as read then (R259). -/
structure LattPage where
  ctx   : Ctx
  vpn   : Nat
  frame : Nat
  known : List (Nat × Nat)
  splice : Option Word
  deriving DecidableEq, Repr

/-! ## Phases, launches, engines (R201-R211, R302-R304, R330-R343) -/

/-- What a phase end is for (R201-R206). -/
inductive EndKind where
  | pend
  | sync (lvl : Nat)
  | fence (scope : BitVec 4)
  | final
  deriving DecidableEq, Repr

/-- What a strand does to a deferral queue when its phase is published (R337). -/
inductive Fx where
  | defer (stage : Nat) (entries : List (BitVec 128))
  | flush (stage : Nat)
  deriving DecidableEq, Repr

/-- A phase end whose publication is in progress: the pool rows on their way home, and the deferral effects (R202, R337). -/
structure PhaseOut where
  kind : EndKind
  rows : List (Fin 2048)
  fx   : List Fx
  deriving DecidableEq, Repr

/-- A hitch (R209); `owner` is none while unowned. -/
structure Hitch where
  count  : BitVec 16
  owner  : Option Ctx
  broken : Bool
  deriving DecidableEq, Repr

/-- A stage-table entry (R332). -/
structure StageRec where
  pcs   : Vector Word 4
  min   : Nat
  max   : Nat
  depth : Nat
  gvi   : Bool
  deriving DecidableEq, Repr

/-- A stage's deferral queue (R337), and for how many intervals in a row the stage has starved (R343). -/
structure StageQ where
  entries  : List (BitVec 128)
  reserved : Nat
  flushed  : Bool
  starve   : Nat
  deriving DecidableEq, Repr

/-- A launch in a cluster (R330, R334): its launch number, the fields of its record, whether it runs or waits, the group of
its latch (R400), and the core, pc and handle of its LENQ where that names a hitch. -/
structure Launch where
  gid     : Nat
  ctx     : Ctx
  prio    : Nat
  rows    : Nat
  lockq   : Nat
  bound   : Nat
  levels  : List Word
  stages  : List StageRec
  queues  : List StageQ
  running : Bool
  group   : BitVec 36
  hitch   : Option (CoreId × Word × Word)
  deriving DecidableEq, Repr

/-- A committed move of a core: to a stage of a launch; a release drawn for a waiting launch; a release by YIELD (R334, R341,
R354). -/
inductive Commit where
  | move (gid stage : Nat)
  | draw (gid : Nat)
  | yielded
  deriving DecidableEq, Repr

/-- How far a POOL has come (R312): the bag it is at, indices of it summed, whether they all are, and the sums so far. -/
structure PoolAt where
  bag  : Nat
  n    : Nat
  full : Bool
  acc  : List Nat
  deriving DecidableEq, Repr

/-- A command in an engine's queue (R229, R302, R340): the instruction, its pc, context and mode, the values its fields named
at issue, and how far it has come: begun, its effect or arrival made, done elements (R308), its reply, the time its wait began,
whether the checker's copy of it differs, and whether that has been corrupted (R377, R383). `aux` counts the sends of a COLL, and is one more than the ring slot
that a GATHER fills; `lay` is the layout that the row a GATHER fills has taken (R310), `chunk` what a COLL has sent (R327), `pool` how
far a POOL has come. -/
structure EngCmd where
  op     : Instr
  pc     : Word
  ctx    : Ctx
  sup    : Bool
  a      : Word
  b      : Word
  c      : Word
  hitch  : Word
  nb     : Word
  shape  : Shape
  begun  : Bool
  ended  : Bool
  done   : Nat
  aux    : Nat
  reply  : Option Word
  since  : Nat
  bad    : Bool
  inj    : Bool
  lay    : Option Layout
  chunk  : List Row
  pool   : PoolAt
  deriving DecidableEq, Repr

/-- An engine's queue, head first: halted with a cause (R308), frozen (R360), the VA whose access faulted. -/
structure EngQ where
  cmds   : List EngCmd
  halted : Option Cause
  frozen : Option Violation
  fva    : Word
  deriving DecidableEq, Repr

/-! ## The tensor engine (R262-R289, R380-R382) -/

/-- The cut state of a slot (R289). -/
inductive CutSt where
  | none | cutting | held
  deriving DecidableEq, Repr

/-- A slot of a ring (R265, R289): sub-tiles claimed and written, the full flag, K and line counts of each sub-tile, the copy of a
bound register, and the cut state with its register and recorded word. -/
structure Slot where
  claimed : Nat
  fill  : Nat
  full  : Bool
  kv    : Vector Nat 8
  lv    : Vector Nat 8
  copy  : Option (Fin 8 × Word)
  cut   : CutSt
  creg  : Fin 8
  cword : Word
  deriving DecidableEq, Repr

/-- A ring (R265, R267): its word, the head, the fill pointer, one entry a slot, and sub-tiles on their way. The full-slot count
is the number of full slots. -/
structure Ring where
  word  : Word
  head  : Nat
  fillp : Nat
  slots : List Slot
  coming : Nat
  deriving DecidableEq, Repr

/-- An accumulator tile (R277). -/
structure Tile where
  rows : Vector Row 32
  wm   : Nat
  held : Bool
  deriving DecidableEq, Repr

/-- A level of a nest that has been entered: its count, the iterations begun, and the live positions of its last one (R272,
R273). -/
structure Level where
  n    : Nat
  i    : Nat
  last : Nat
  deriving DecidableEq, Repr

/-- Where a nest stands (R272): about to enter a level, at the top of an iteration, past its clear, at a K-step, at the end of an
iteration, done. -/
inductive NestAt where
  | enter | top | body | kstep | tail | done | failed
  deriving DecidableEq, Repr

/-- A running nest (R272): its rings, the levels entered (the innermost first), positions, the current tile, its hitch, the
not-before time, and the clk before which no K-step starts. -/
structure Nest where
  ringA : Fin 8
  ringB : Fin 8
  levels : List Level
  at'   : NestAt
  pA    : Int
  pB    : Int
  cur   : Fin 4
  cmd   : EngCmd
  next  : Nat
  deriving DecidableEq, Repr

/-- One operand of a K-step as it was read: format, asymmetry apart, the sub-tile's bits, role, K and line counts (R264). -/
structure SubData where
  fmt  : Layout
  role : Bool
  bits : Nat
  kv   : Nat
  lv   : Nat
  deriving DecidableEq, Repr

/-- What is on its way to a tile (R276): a K-step's sum, a clear, four rows that become final. -/
inductive FlightOp where
  | add (a b : SubData) (live : Nat)
  | clear
  | final
  deriving DecidableEq, Repr

structure Flight where
  due  : Nat
  tile : Fin 4
  op   : FlightOp
  deriving DecidableEq, Repr

/-- What a tensor replay needs (R279, R380-R382): the commands executed since the last marker, tiles their K-steps touched, slots
retired, head of each ring and the shadow table at the marker, and whether something forbids the replay. -/
structure Replay where
  cmds    : List EngCmd
  touched : BitVec 4
  retired : List (Fin 8 × Nat × Slot)
  heads   : Vector Nat 8
  shadow  : Vector Word 6
  spoiled : Bool
  deriving DecidableEq, Repr

/-- The tensor engine of a core. A halted queue's cause is the fault record (R280). -/
structure Tensor where
  q      : EngQ
  shadow : Vector Word 6
  active : Vector Word 6
  rings  : Vector Ring 8
  tiles  : Vector Tile 4
  nest   : Option Nest
  flight : List Flight
  replay : Replay
  deriving DecidableEq, Repr

/-- A checkpoint of CTL and its checker (R378). -/
structure Checkpoint where
  pc    : Word
  regs  : Vector Word 32
  loops : Vector LoopCtr 4
  lstk  : BitVec 12
  deriving DecidableEq, Repr

/-- An entry of the replay log (R378): a fetched word; a value that CTL took in; an effect it performed; a command it put into a
queue, `again` once a rollback has discarded it (R379); an instruction that system software skipped (R360). `result` is a value
that the instruction under way leaves in a register. -/
inductive Logged where
  | word (w : Word)
  | value (x : Word)
  | effect (x : Word)
  | command (m : EngCmd) (again : Bool)
  | skipped
  | result (d : Fin 32)
  deriving DecidableEq, Repr

/-- The checker of a core (R377-R379, R383). Its own registers are CTL's while the two agree; `copy` holds them once they have come
apart, and `copyPoint` those of the checkpoint. Further: coming commands whose copy is to be corrupted; the checkpoint of CTL and the
replay log since; the entries of it that CTL has still to run again; the constants that the log serves to the instruction under way; what
CTL waited for when a rollback took it back; mismatches since the checkpoint; the clk in which an effect that differs is found, with its
pc. -/
structure Checker where
  coming : Nat
  copy   : Option Checkpoint
  point  : Checkpoint
  copyPoint : Option Checkpoint
  log    : List Logged
  again  : List Logged
  served : List (Fin 256 × Word)
  stood  : Wait
  missed : Nat
  due    : Option (Nat × Word)
  deriving DecidableEq, Repr

/-- A change that CSWAP has queued for a barrier (R246). -/
structure Swap where
  core   : CoreId
  gid    : Nat
  lvl    : Nat
  splice : Bool
  a      : Word
  b      : Word
  version : Word
  cmd    : EngCmd
  deriving DecidableEq, Repr

/-- An entry of the splice directory (R83, R245). -/
structure Splice where
  ctx     : Ctx
  base    : Word
  page    : Word
  version : BitVec 32
  deriving DecidableEq, Repr

/-! ## A core -/

/-- The strand a core runs (R93, R334): its launch and stage; a fixed stage; whether it is a strand of no launch kept here. -/
structure Strand where
  ctx   : Ctx
  bound : Nat
  rows  : Nat
  phase : Word
  gid   : Nat
  stage : Nat
  fixed : Bool
  lockq : Nat
  levels : List Word
  deriving DecidableEq, Repr

/-- The port that has accepted a write, which has yet to be applied: a port of Hawser, or the memory port, which sends it to a target
(R207, R405, R407). -/
inductive Via where
  | hawser (port : Fin 36)
  | target (n : Fin 16)
  deriving DecidableEq, Repr

/-- A sector of a publication that a port has accepted: the core and its pool row, the context, the addresses, contents and code. -/
structure Posted where
  core : CoreId
  row  : Fin 2048
  ctx  : Ctx
  va   : Word
  pa   : Nat
  data : BitVec 256
  code : Layout
  via  : Via
  deriving DecidableEq, Repr

/-- A publication write that another package has refused, with its violation and what ST was at before that froze it (R360, R408). -/
structure HeldPub where
  viol : Violation
  post : Posted
  run  : Run
  deriving DecidableEq, Repr

/-- A strand that a pre-emption took off its core: what the switch path keeps beside the context record. The record has no place for
where a stash row lies in memory, whether its write-back restamps a filled row, the slot marks of queue entries, or the rows that the
region in progress has stored to (DESIGN CHOICE, log 78). -/
structure Away where
  strand : Strand
  fx     : List Fx
  sends  : List Send
  stash  : List StashRow
  marks  : Vector (List (BitVec 2)) 16
  wrote  : List Word
  swaps  : List Swap
  deriving DecidableEq, Repr

structure Core where
  seqs   : Vector SeqSt 4
  consts : Vector Word 256
  queues : Vector DQueue 16
  toks   : Vector (BitVec 6) 16
  bqs    : Vector (List Bool) 4
  rq     : List Reply
  ex     : ExSt
  codeL1 : List CodeLine
  strand : Option Strand
  req    : Option Reason
  engFault : Bool
  divert : Option Reason
  gvs    : Word
  wrote  : List Word
  cflt   : BitVec 10
  shapes : Vector Shape 16
  bounds : Vector Word 8
  pad    : Vector PadRow 2048
  wins   : Vector (Option Window) 16
  stash  : List StashRow
  loads  : List Load
  stores : List Store
  undo   : List Undone
  sends  : List Send
  pubs   : List SliceReq
  heldPubs : List HeldPub
  tlb    : List TlbEntry
  latt   : List LattPage
  ends   : List PhaseOut
  arrived : Option Nat
  synced : Bool
  fx     : List Fx
  commit : Option Commit
  startTo : Option (Nat × Nat)
  away   : List Away
  gath   : EngQ
  code   : EngQ
  stg    : EngQ
  tens   : Tensor
  locks  : Vector Word 16
  lkres  : BitVec 16
  chk    : Checker
  deriving DecidableEq, Repr

/-! ## The package -/

/-- The links that leave the package. -/
inductive Link where
  | hawser | memport
  deriving DecidableEq, Repr

/-- An entry of the drain table (R82): a stub for a range of pcs of one sequencer, in a context. -/
structure DrainEntry where
  ctx  : Ctx
  seq  : Seq
  lo   : Word
  hi   : Word
  stub : Word
  rows : BitVec 16
  save : BitVec 32
  deriving DecidableEq, Repr

/-! ## Errors from outside (R363, R364) -/

/-- A unit with a check of its own beside the sectors of memory and of scratchpad rows (R363), within a core: a word of a register file
(s, c, sh, b, v, a, k); a sector of a queue's entry, named by its place in the order of pops, or that entry's tag; the tag of a
scratchpad row; a sector of a tile; a sector of a code L1 line; a LATT entry; the decoded micro-op of a bundle. The tags of an L2 line
belong to no core. -/
inductive Guarded where
  | s (q : Seq) (n : Fin 32)
  | c (n : Fin 256)
  | sh (n : Fin 16) (f : Fin 8)
  | b (n : Fin 8)
  | v (n : Fin 64) (w : Fin 32)
  | a (n : Fin 64) (w : Fin 128)
  | k (n : Fin 8) (w : Fin 4)
  | entry (q : Fin 16) (place : BitVec 16) (i : Fin 8)
  | entryTag (q : Fin 16) (place : BitVec 16)
  | rowTag (r : Fin 2048)
  | tile (t : Fin 4) (r : Fin 32) (i : Fin 8)
  | code (ctx : Ctx) (line : BitVec 41) (i : Fin 4)
  | latt (ctx : Ctx) (vpn : Nat)
  | op (ctx : Ctx) (pc : Word)
  | lineTag (la : Nat)
  deriving DecidableEq, Repr

/-- A unit that holds flipped bits: positions among its bits, its check bits after them. -/
structure Upset where
  core  : CoreId
  unit  : Guarded
  flips : List Nat
  deriving DecidableEq, Repr

/-- What happens next: a sequencer takes its turn, an event of the opcode table takes place, time passes by so many quanta of
1/189 ns (log 1, log 4). From outside: bits of a unit flip (R364); bits of a sector of HBM4E, of the L2 or of a scratchpad row flip, its array
and address given as errinj and errinja give them (R383); or CTL computes a register of its own wrong (R377). -/
inductive Agendum where
  | run (core : CoreId) (seq : Seq)
  | event (i : Instr)
  | tick (n : Nat)
  | strike (core : CoreId) (unit : Guarded) (flips : List Nat)
  | flip (array : Fin 3) (target : Word) (flips : List Nat)
  | slip (core : CoreId) (n : Fin 32) (x : Word)
  deriving DecidableEq, Repr

/-- A cluster. `clk` counts its arithmetic clock, `frac` the part of a clk gone by; its throttle level is the one in effect, `took` the power
loop's level at its last interval boundary (R418). -/
structure Cluster where
  tlb   : List TlbEntry
  walks : List Walk
  hitches : List (Nat × Hitch)
  launches : List Launch
  clk    : Nat
  frac   : Nat
  nextInt : Nat
  level : Fin 4
  took  : Fin 4
  deriving DecidableEq, Repr

/-- The registers of the PF (R404), this package's node among them, and of Lovage's memory-port part (R405). -/
structure PfRegs where
  nodeid : BitVec 10
  ctxtab : Word
  psave  : Word
  vlbase : Word
  hdmlay : BitVec 7
  gtbctl : BitVec 10
  mpd    : Vector Word 16
  exp    : Vector (Word × Word) 64
  rt     : Vector Word 1024
  deriving DecidableEq, Repr

/-- A submission queue of a VF (R400, R401): base, log2 of its records, head, tail, expected stamp, stalled, re-reads
made of the record at head (none when no stale record is being read again). -/
structure SubQueue where
  base    : Word
  k       : BitVec 4
  head    : BitVec 12
  tail    : BitVec 12
  stamp   : BitVec 32
  stalled : Bool
  rereads : Option Nat
  deriving DecidableEq, Repr

/-- The registers of a VF (R400), the group latched at its last launch write, VF resets counted and the entries of the next
reset record (R328, R403), and whether its host function is frozen (R398). -/
structure VfSt where
  sqs    : Vector SubQueue 4
  lgrp   : BitVec 36
  latched : BitVec 36
  evq    : Word
  evtail : BitVec 32
  rrec   : Word
  resets : BitVec 32
  ents   : List Nat
  frozen : Option Violation
  deriving DecidableEq, Repr

/-- What the home package answers to a request from another package (R408). -/
inductive FarAnswer where
  | none | refused | mismatch | lost | done | badChunk
  | data (x : BitVec 256)
  | old (x : Word)
  deriving DecidableEq, Repr

/-- Hawser (R407, R411): ports up, retries in a row, the time-base state with what gtb lacks to the master's in quanta, the last answer
to a remote request, and the quanta that have passed uncorrected. -/
structure FabSt where
  up     : Vector Bool 36
  retry  : Vector Nat 36
  lost   : Bool
  lastMsg : Nat
  lead   : Int
  answer : FarAnswer
  raw    : Nat
  deriving DecidableEq, Repr

/-- A request of prq (R404): core, context, restore in place of pre-empt, its save frame, when it came (gtb), late. -/
structure PReq where
  core    : CoreId
  ctx     : Ctx
  restore : Bool
  frame   : Nat
  since   : Nat
  late    : Bool
  deriving DecidableEq, Repr

/-- A CONST entry of a strand, found by its context and the entry pc of its CTL (R89; log 15). -/
structure ConstEntry where
  ctx   : Ctx
  entry : Word
  c     : Fin 256
  value : Word
  deriving DecidableEq, Repr

/-- Lovage (R412-R419): the registers of R416, the level it chose, flags, the running and the fused security version, the digest of
the running body where it was staged (none: the image of the first bring-up), an image checked for activation at the next reset,
whether the running image has passed such a check, and whether dies 1-7 are in service. -/
structure MgSt where
  fail   : Bool
  att    : Bool
  level  : Fin 4
  thot   : Bool
  step   : BitVec 16
  pwcap  : BitVec 16
  pwnow  : BitVec 16
  tjmax  : Byte
  fwaddr : Word
  attaddr : Word
  svn    : BitVec 32
  fuse   : BitVec 32
  body   : Option (BitVec 384)
  staged : Option (BitVec 32 × BitVec 384)
  passed : Bool
  dies   : Bool
  deriving DecidableEq, Repr

/-- Reliability state of the package (R372-R376, R383). -/
structure RelSt where
  relpol  : Word
  rlcnt   : Nat
  log     : Vector LogEntry 64
  retired : List Nat
  quar    : List WayId
  corr    : List WayId
  scrubs  : Nat
  deriving DecidableEq, Repr

/-- The machine. `agenda`, `fresh`, `hostOut` are the model's own: what happens next, free values used, the bytes that the last host
read delivered. Of the instruction under way, `curYp` is its yp bit, `curLog` what it adds to CTL's replay log, `curAgain` how many
logged entries it runs again (R378, R379). `errs` lists the units that hold errors, `outside` the sectors of memory,
and of scratchpad rows (true), with flips that no injection has made, `apart` the cores whose checker has come apart from
CTL. -/
structure State where
  cores  : Vector Core 2048
  clusters : Vector Cluster 16
  mem    : List Host.Cell
  marks  : List (Nat × SectorWord)
  l2     : List L2Line
  slices : Vector SliceSt 128
  rel    : RelSt
  pf     : PfRegs
  vfs    : Vector VfSt 64
  fab    : FabSt
  vlhead : Nat
  vpend  : List (Nat × Violation)
  owed   : List Owed
  drains : List DrainEntry
  consts : List ConstEntry
  splices : List Splice
  swaps  : List Swap
  posted : List Posted
  mute   : Option Link
  barred : List (Fin 128)
  hindered : Option (Fin 128)
  errs   : List Upset
  outside : List (Bool × Nat)
  apart  : List CoreId
  prq    : List PReq
  nextGid : Nat
  pwmode : Word
  afc    : Vector Word 16
  mg     : MgSt
  mgst   : Nat
  gtbq   : Nat
  cur    : CoreId × Seq
  curYp  : Bool
  curLog : List Logged
  curAgain : Nat
  agenda : List Agendum
  hostOut : List Byte
  fresh  : Nat
  deriving DecidableEq, Repr

/-! ## Reset -/

def LoopCtr.reset : LoopCtr := ⟨0, 0, 0⟩

def SeqSt.reset : SeqSt where
  regs := .replicate 32 0
  pc := 0
  loops := .replicate 4 .reset
  lstk := 0
  cause := 0
  epc := 0
  tval := 0
  sup := false
  inTrap := false
  dpc := 0
  dres := 0
  tvec := 0
  psup := false
  sscr := 0
  sr := ⟨0, 0, 0, 0, 0⟩
  run := .idle
  wait := .none
  copy := none
  gvi := none
  sevTrap := none
  walkFault := none
  ahead := none

def DQueue.reset : DQueue := ⟨[], 0, 0, 0⟩

def ExSt.reset : ExSt where
  v := .replicate 64 0
  a := .replicate 64 0
  k := .replicate 8 0
  slot := 0
  free := 0
  pend := []
  pushes := []
  ycnt := 0
  splret := 0
  tsa := 0

def EngQ.reset : EngQ := ⟨[], none, none, 0⟩

def Tile.reset : Tile := ⟨.replicate 32 0, 0, false⟩

/-- A ring that has never been configured (R267). -/
def Ring.reset : Ring := ⟨0, 0, 0, [], 0⟩

def Replay.reset : Replay := ⟨[], 0, [], .replicate 8 0, .replicate 6 0, false⟩

def Tensor.reset : Tensor where
  q := .reset
  shadow := .replicate 6 0
  active := .replicate 6 0
  rings := .replicate 8 .reset
  tiles := .replicate 4 .reset
  nest := none
  flight := []
  replay := .reset

/-- An empty window (R378). -/
def Checker.reset : Checker := ⟨0, none, ⟨0, .replicate 32 0, .replicate 4 .reset, 0⟩, none, [], [], [], .none, 0, none⟩

def Core.reset : Core where
  seqs := .replicate 4 .reset
  consts := .replicate 256 0
  queues := .replicate 16 .reset
  toks := .replicate 16 0
  bqs := .replicate 4 []
  rq := []
  ex := .reset
  codeL1 := []
  strand := none
  req := none
  engFault := false
  divert := none
  gvs := 0
  wrote := []
  cflt := 0
  shapes := .replicate 16 (.replicate 8 0)
  bounds := .replicate 8 0
  pad := .replicate 2048 ⟨0, 0, 0, []⟩
  wins := .replicate 16 none
  stash := []
  loads := []
  stores := []
  undo := []
  sends := []
  pubs := []
  heldPubs := []
  tlb := []
  latt := []
  ends := []
  arrived := none
  synced := false
  fx := []
  commit := none
  startTo := none
  away := []
  gath := .reset
  code := .reset
  stg := .reset
  tens := .reset
  locks := .replicate 16 0
  lkres := 0
  chk := .reset

def PfRegs.reset : PfRegs where
  nodeid := 0
  ctxtab := 0
  psave := 0
  vlbase := 0
  hdmlay := 0
  gtbctl := 0
  mpd := .replicate 16 0
  exp := .replicate 64 (0, 0)
  rt := .replicate 1024 0

/-- The expected stamp starts at 1 (R400, R401). -/
def SubQueue.reset : SubQueue := ⟨0, 0, 0, 0, 1, false, none⟩

def VfSt.reset : VfSt where
  sqs := .replicate 4 .reset
  lgrp := 0
  latched := 0
  evq := 0
  evtail := 0
  rrec := 0
  resets := 0
  ents := []
  frozen := none

def FabSt.reset : FabSt := ⟨.replicate 36 true, .replicate 36 0, false, 0, 0, .none, 0⟩

/-- relpol is 0xE0 after reset (R374). -/
def RelSt.reset : RelSt where
  relpol := 0xE0
  rlcnt := 0
  log := .replicate 64 (.replicate 4 0)
  retired := []
  quar := []
  corr := []
  scrubs := 0

/-- The power limit of Lovage is its greatest after reset (log 2). -/
def MgSt.reset : MgSt := ⟨false, false, 0, false, 0, 5600, 0, 0, 0, 0, 0, 0, none, none, false, false⟩

/-- The machine right after reset. -/
def State.reset : State where
  cores := .replicate 2048 .reset
  clusters := .replicate 16 ⟨[], [], [], [], 0, 0, 2100, 0, 0⟩
  mem := []
  marks := []
  l2 := []
  slices := .replicate 128 ⟨[], [], 0, [], []⟩
  rel := .reset
  pf := .reset
  vfs := .replicate 64 .reset
  fab := .reset
  vlhead := 0
  vpend := []
  owed := []
  drains := []
  consts := []
  splices := []
  swaps := []
  posted := []
  mute := none
  barred := []
  hindered := none
  errs := []
  outside := []
  apart := []
  prq := []
  nextGid := 1
  pwmode := 0
  afc := .replicate 16 0
  mg := .reset
  mgst := 0
  gtbq := 0
  cur := (0, .ctl)
  curYp := false
  curLog := []
  curAgain := 0
  agenda := []
  hostOut := []
  fresh := 0

/-! ## Stops -/

/-- Faults of the model: none. Every stop the manual describes is a trap, a violation or a record, and leaves a next
state. -/
inductive Fault where
  deriving DecidableEq, Repr

/-- Refusals of the model. -/
inductive Refusal where
  /-- Raised by `exec` for an instruction that has no meaning yet; safe, since nothing is then proved of it. -/
  | notModelled (mnemonic : String)
  deriving DecidableEq, Repr

end Sys2Proof.Machine
end

