-- ==== Sys2Proof/Machine/Cores.lean ====
section
/-! DEFINITION. Access to cores, to their sequencers, and to clusters. -/

namespace Sys2Proof.Machine

def State.core (s : State) (c : CoreId) : Core := s.cores[c]

def State.onCore (s : State) (c : CoreId) (f : Core → Core) : State :=
  { s with cores := s.cores.set c (f s.cores[c]) }

def Core.seq (k : Core) (q : Seq) : SeqSt := k.seqs[q.num]

def Core.onSeq (k : Core) (q : Seq) (f : SeqSt → SeqSt) : Core :=
  { k with seqs := k.seqs.set q.num (f k.seqs[q.num]) }

/-- The core whose sequencer takes its turn, and the sequencer. -/
def State.here (s : State) : Core := s.core s.cur.1
def State.me (s : State) : SeqSt := s.here.seq s.cur.2

/-- A change of the current core, and of the current sequencer. -/
def State.mod (s : State) (f : Core → Core) : State := s.onCore s.cur.1 f
def State.modMe (s : State) (f : SeqSt → SeqSt) : State := s.mod fun k => k.onSeq s.cur.2 f

/-- The context of a core's strand; 0 where none runs. -/
def Core.ctx (k : Core) : Ctx := (k.strand.map (·.ctx)).getD 0

def clusterOf (c : CoreId) : ClusterId := ⟨c.val / 128, by omega⟩

def State.onCluster (s : State) (u : ClusterId) (f : Cluster → Cluster) : State :=
  { s with clusters := s.clusters.set u (f s.clusters[u]) }

/-! ## The command queues of a core (R302, R360) -/

/-- The queue that a command waits in, by its engine's number among masters (R360); none for what acts at issue. -/
def queueOf (i : Instr) : Option (BitVec 8) :=
  match i with
  | .rcfg _ | .tcfg _ | .tgo _ => some 1
  | .gather _ | .scatter _ | .pool _ | .copy _ | .fill _ | .aowAddi32 _ | .aowAddi64 _ | .aowAddf32 _ | .aowMax _ | .aowMin _
  | .aowAnd _ | .aowOr _ | .aowXor _ | .aowSwap _ | .cas _ | .selk _ | .nbt _ | .coll _ => some 2
  | .cgen _ | .clock _ | .cunlk _ | .cpref _ | .cswap _ => some 3
  | .dflush _ | .lenq _ | .stgq _ => some 4
  | _ => none

/-- The queue of an engine, and a change of it. -/
def Core.engQ (k : Core) (master : BitVec 8) : EngQ :=
  match master.toNat with
  | 1 => k.tens.q
  | 2 => k.gath
  | 3 => k.code
  | 4 => k.stg
  | _ => .reset

def Core.onEngine (k : Core) (master : BitVec 8) (f : EngQ → EngQ) : Core :=
  match master.toNat with
  | 1 => { k with tens := { k.tens with q := f k.tens.q } }
  | 2 => { k with gath := f k.gath }
  | 3 => { k with code := f k.code }
  | 4 => { k with stg := f k.stg }
  | _ => k

end Sys2Proof.Machine
end

