-- ==== Sys2Proof/Machine/Memory.lean ====
section
/-! DEFINITION. Memory as data: sparse lists in one canonical form, bytes and sectors over them, the address map (R12), and
where the L2 places a line (R178). -/

namespace Sys2Proof.Machine

/-! ## Sparse lists: strictly rising keys, no entry equal to what an unlisted key reads as -/

/-- The entry at a key; `d` where none is listed. -/
def cellGet {α : Type} (d : α) : List (Nat × α) → Nat → α
  | [], _ => d
  | (a, b) :: r, x => if a = x then b else cellGet d r x

/-- The list with another entry at a key. -/
def cellPut {α : Type} [DecidableEq α] (d : α) : List (Nat × α) → Nat → α → List (Nat × α)
  | [], x, v => if v = d then [] else [(x, v)]
  | (a, b) :: r, x, v =>
    if a < x then (a, b) :: cellPut d r x v
    else
      let rest := if a = x then r else (a, b) :: r
      if v = d then rest else (x, v) :: rest

/-- The canonical form. -/
abbrev cellsWf {α : Type} [DecidableEq α] (d : α) (m : List (Nat × α)) : Prop :=
  m.Pairwise (fun x y => x.1 < y.1) ∧ ∀ c ∈ m, c.2 ≠ d

/-- Memory is a sparse list of bytes; a byte that nothing has written reads as zero (R184, R412; log 3). -/
abbrev Memory := List Host.Cell

def Memory.get (m : Memory) (a : Nat) : Byte := cellGet 0 m a
def Memory.put (m : Memory) (a : Nat) (b : Byte) : Memory := cellPut 0 m a b
abbrev Memory.wf (m : Memory) : Prop := cellsWf (0 : Byte) m

/-- n bytes from an address, little-endian (R4). -/
def Memory.bytes (m : Memory) (a : Nat) : Nat → Nat
  | 0 => 0
  | n + 1 => (m.get a).toNat + 256 * m.bytes (a + 1) n

/-- n bytes of a number to an address, little-endian. -/
def Memory.putBytes (m : Memory) (a x : Nat) : Nat → Memory
  | 0 => m
  | n + 1 => Memory.putBytes (m.put a (BitVec.ofNat 8 x)) (a + 1) (x / 256) n

/-! ## The address map (R12) -/

/-- Whether a physical address lies in local HBM4E, or in the CXL window. -/
def inHbm (pa : Nat) : Bool := decide (pa < 2 ^ 40)
def inCxl (pa : Nat) : Bool := decide (2 ^ 40 ≤ pa ∧ pa < 0x410000000000)

/-- Where the memory list holds a byte of another package (R192), and a byte of host memory. -/
def farAddr (node pa : Nat) : Nat := 2 ^ 47 * (node + 1) + pa

/-- The same address as a page of the non-coherent class names it: the home of another package refuses every request to it (R193). -/
def barred (pa : Nat) : Nat := 2 ^ 58 + pa
def isBarred (pa : Nat) : Bool := decide (2 ^ 58 ≤ pa)
def hostAddr (a : Nat) : Nat := 2 ^ 64 + a

/-- The die a line is homed on (R12); lines of the CXL window go through die 7 (R188). -/
def dieOf (la : Nat) : Nat := if la < 2 ^ 33 then la / 2 ^ 30 else 7

/-- The ten nibbles of a line address, folded (R178). -/
def foldNibbles (la : Nat) : Nat → Nat
  | 0 => 0
  | n + 1 => (la / 16 ^ n) % 16 ^^^ foldNibbles la n

/-- The slice of a line, numbered over the package: die × 16 + slice (R178). -/
def sliceOf (la : Nat) : Fin 128 := ⟨(dieOf la * 16 + foldNibbles la 10) % 128, Nat.mod_lt _ (by decide)⟩

/-- The set of a line (R178). -/
def setOf (la : Nat) : Nat := (la / 16) % 8192

/-- Where a line lies in the HBM4E of its die: stack, pseudo-channel within the stack, line within the pseudo-channel (R183). -/
structure HbmSlot where
  stack  : Nat
  pseudo : Nat
  line   : Nat
  deriving DecidableEq, Repr

/-- The channel of a line: its address within the die by sevens, and what is left, folded (R183). -/
def channelOf (la : Nat) : Nat :=
  let l := la % 2 ^ 30
  l % 128 ^^^ (l / 2 ^ 7 % 128 ^^^ (l / 2 ^ 14 % 128 ^^^ (l / 2 ^ 21 % 128 ^^^ l / 2 ^ 28)))

/-- The placement of R183: two stacks of a die with 64 pseudo-channels each. -/
def hbmSlot (la : Nat) : HbmSlot := ⟨2 * dieOf la + channelOf la / 64, channelOf la % 64, la % 2 ^ 30 / 128⟩

/-- The line that lies at a place. -/
def HbmSlot.la (h : HbmSlot) : Nat :=
  let up := h.line
  let low := (64 * (h.stack % 2) + h.pseudo) ^^^ (up % 128 ^^^ (up / 2 ^ 7 % 128 ^^^ (up / 2 ^ 14 % 128 ^^^ up / 2 ^ 21)))
  h.stack / 2 * 2 ^ 30 + up * 128 + low

/-! ## Sector words (R184) -/

/-- A sector that nothing has written is blank. -/
def blankWord : SectorWord := ⟨0x3F, 0, 0, []⟩

def lostStamp : Layout := 0x3E

/-- The stamp of a check word as it reads: its bits are positions 282 to 287 of the sector (R184, R383). -/
def SectorWord.seen (w : SectorWord) : Layout :=
  w.flips.foldl (fun x p => if 282 ≤ p then x ^^^ (1 <<< (p - 282)) else x) w.stamp

/-- The map entry as it reads: positions 275 to 281. -/
def SectorWord.seenMap (w : SectorWord) : BitVec 7 :=
  w.flips.foldl (fun x p => if 275 ≤ p ∧ p < 282 then x ^^^ (1 <<< (p - 275)) else x) w.map

def State.word (s : State) (sector : Nat) : SectorWord := cellGet blankWord s.marks sector

def State.setWord (s : State) (sector : Nat) (w : SectorWord) : State :=
  { s with marks := cellPut blankWord s.marks sector w }

/-- The 32 bytes of a sector as they were written. -/
def State.rawSector (s : State) (sector : Nat) : BitVec 256 := BitVec.ofNat 256 (Memory.bytes s.mem (32 * sector) 32)

/-- A sector written whole with fresh check bits. -/
def State.writeSector (s : State) (sector : Nat) (data : BitVec 256) (w : SectorWord) : State :=
  { s with mem := Memory.putBytes s.mem (32 * sector) data.toNat 32, marks := cellPut blankWord s.marks sector w }

/-! ## L2 lines -/

def State.lineAt (s : State) (la : Nat) : Option L2Line := s.l2.find? fun l => l.la == la

/-- The slot mark of a sector of a line (R56). -/
def L2Line.mark (l : L2Line) (i : Nat) : BitVec 2 := l.marks.toList.getD i 0

/-- The line becomes the most recently used; with `lu` the least recently used (R180). -/
def State.touchLine (s : State) (l : L2Line) (lu : Bool) : State :=
  let rest := s.l2.filter fun m => m.la != l.la
  { s with l2 := if lu then rest ++ [l] else l :: rest }

/-- A line changes in place. -/
def State.setLine (s : State) (l : L2Line) : State := { s with l2 := s.l2.map fun m => if m.la == l.la then l else m }

def State.dropLine (s : State) (la : Nat) : State := { s with l2 := s.l2.filter fun m => m.la != la }

/-- Sector i of a line. -/
def lineSector (d : BitVec 1024) (i : Nat) : BitVec 256 := d.extractLsb' (256 * i) 256

def setLineSector (d : BitVec 1024) (i : Nat) (x : BitVec 256) : BitVec 1024 :=
  (d &&& ~~~((BitVec.allOnes 256).setWidth 1024 <<< (256 * i))) ||| (x.setWidth 1024 <<< (256 * i))

/-- The flips of one of several sectors kept together, and the rest (288 positions to a sector, R383). -/
def flipsOf (f : List Nat) (i : Nat) : List Nat := (f.filter fun p => p / 288 == i).map (· % 288)
def setFlips (f : List Nat) (i : Nat) (g : List Nat) : List Nat := (f.filter fun p => p / 288 != i) ++ g.map (288 * i + ·)

/-- The flips of data bits as a mask. -/
def flipMask (f : List Nat) : BitVec 256 := f.foldl (fun m p => if p < 256 then m ^^^ (1#256 <<< p) else m) 0

/-! ## The host's view of device memory (R398): stored bits, and what a dirty line holds -/

/-- The bytes of a sector as the device holds them, blank as zero, without classification. -/
def State.peekSector (s : State) (sector : Nat) : BitVec 256 :=
  let la := sector / 4
  let i := sector % 4
  match s.lineAt la with
  | some l =>
    if l.valid.getLsbD i then lineSector l.data i ^^^ flipMask (flipsOf l.flips i)
    else s.rawSector sector ^^^ flipMask (s.word sector).flips
  | none => if (s.word sector).stamp = 0x3F then 0 else s.rawSector sector ^^^ flipMask (s.word sector).flips

/-- One byte of device memory. -/
def State.peek (s : State) (pa : Nat) : Byte :=
  if inHbm pa then (s.peekSector (pa / 32)).extractLsb' (8 * (pa % 32)) 8 else Memory.get s.mem pa

/-- n bytes of device memory, little-endian. -/
def State.peekBytes (s : State) (pa : Nat) : Nat → Nat
  | 0 => 0
  | n + 1 => (s.peek pa).toNat + 256 * s.peekBytes (pa + 1) n

end Sys2Proof.Machine
end

