-- ==== Sys2Proof/Machine/Tiers.lean ====
section
/-! DEFINITION. Significance tiers (R54-R56), what a check of a protected sector finds (R364, R367), and the codes of
poisoned elements (R369). -/

namespace Sys2Proof.Machine

/-- Element formats as the tiers see them. -/
inductive EFmt where
  | i8 | i4 | i8a | i4a | e4m3 | e5m2 | fp16 | bf16 | fp32 | e2m1
  deriving DecidableEq, Repr

def EFmt.width : EFmt → Nat
  | .i8 | .i8a | .e4m3 | .e5m2 => 8
  | .i4 | .i4a | .e2m1 => 4
  | .fp16 | .bf16 => 16
  | .fp32 => 32

/-- Tiers of R54. -/
inductive Tier where
  | A | B | C
  deriving DecidableEq, Repr

/-- From bit `hi` up an element's bits are tier A, from `lo` up tier B, below tier C (R55). -/
def EFmt.cuts : EFmt → Nat × Nat
  | .i8 | .i8a => (4, 2)
  | .i4 | .i4a => (2, 1)
  | .e4m3 => (3, 2)
  | .e5m2 => (2, 1)
  | .fp16 => (10, 6)
  | .bf16 => (7, 4)
  | .fp32 => (23, 13)
  | .e2m1 => (1, 0)

def EFmt.tier (f : EFmt) (i : Nat) : Tier := if f.cuts.1 ≤ i then .A else if f.cuts.2 ≤ i then .B else .C

/-- Whether tier A of an element is its sign and exponent (R367). -/
def EFmt.isFloat : EFmt → Bool
  | .i8 | .i4 | .i8a | .i4a => false
  | _ => true

/-- The code of a poisoned element (R369); `sv1` for an SV1 under the poison policy. -/
def EFmt.poison (sv1 : Bool) : EFmt → Nat
  | .fp32 => (evNan false .poisoned .memory (if sv1 then 1 else 2)).toNat
  | .fp16 => narrowNan .fp16 (evNan false .poisoned .memory 0)
  | .bf16 => narrowNan .bf16 (evNan false .poisoned .memory 0)
  | .e5m2 => 0x7F
  | .e4m3 => 0x7F
  | .e2m1 => 0x7
  | .i8 => 0x80
  | .i4 => 0x8
  | .i8a | .i4a => 0

/-- What decides the tiers of a sector: layout code, KVPG slot mark, position in its 256-B row, and whether the row is the
header of a KVPG page (R56). -/
structure SecKind where
  code : Layout
  mark : BitVec 2
  pos  : Nat
  hdr  : Bool
  deriving DecidableEq, Repr

/-- The element format of a byte of a sector; none where every bit is tier A (R55, R56). -/
def SecKind.fmt (k : SecKind) (byte : Nat) : Option EFmt :=
  let at' := 32 * k.pos + byte
  match k.code.toNat with
  | 0x01 => some .i8
  | 0x02 => some .i4
  | 0x03 | 0x04 | 0x05 => if at' < 192 then some .i4a else none
  | 0x06 | 0x07 => if at' < 192 then some .i8a else none
  | 0x08 => some .e4m3
  | 0x09 => some .e5m2
  | 0x0A => some .fp16
  | 0x0B => some .bf16
  | 0x0C => some .fp32
  | 0x0D => if at' < 228 then some .e2m1 else none
  | 0x0E => if at' < 240 then some .e2m1 else none
  | 0x0F => if at' < 224 then some .e4m3 else none
  | 0x10 => if at' < 224 then some .e5m2 else none
  | 0x11 => if at' < 72 then none else some .bf16
  | 0x12 => if at' < 72 then none else some .e4m3
  | 0x13 => if at' < 72 then none else some .e5m2
  | 0x1A =>
    if k.hdr then none
    else if k.mark = 0 then some .bf16
    else if k.mark = 1 then some .e4m3
    else none
  | _ => none

def SecKind.tier (k : SecKind) (bit : Nat) : Tier :=
  match k.fmt (bit / 8) with
  | none => .A
  | some f => f.tier (bit % f.width)

/-- Bits of a tier among the first n of a sector. -/
def SecKind.count (k : SecKind) (t : Tier) (n : Nat) : Nat := ((List.range n).filter fun b => k.tier b == t).length

/-- Check bits of the tier-A codeword (R54). -/
def SecKind.codeBits (k : SecKind) : Nat := if k.count .A 256 ≤ 238 then 17 else 19

/-- Tier-B parity groups. -/
def SecKind.groups (k : SecKind) : Nat := (k.count .B 256 + 15) / 16

/-- Where an error position of a sector falls (R363, R383): the tier-A codeword, a tier-B group, tier C, or an unused check
bit. In an HBM4E check word the stamp is information of the codeword, and the map entry of EMBC and code sectors too. -/
inductive Where where
  | code | group (g : Nat) | free | unused
  deriving DecidableEq, Repr

def SecKind.place (k : SecKind) (hbm : Bool) (p : Nat) : Where :=
  if p < 256 then
    match k.tier p with
    | .A => .code
    | .B => .group (k.count .B p / 16)
    | .C => .free
  else
    let c := p - 256
    if c < k.codeBits then .code
    else if c < k.codeBits + k.groups then .group (c - k.codeBits)
    else if hbm && (decide (26 ≤ c) || (decide (19 ≤ c) && (k.code == 0x15 || k.code == 0x16 || k.code == 0x18))) then .code
    else .unused

/-- Whether every tier-A bit of the sector is an element's sign or exponent (R367). -/
def SecKind.allSigns (k : SecKind) : Bool := (List.range 32).all fun b => match k.fmt b with
  | some f => f.isFloat
  | none => false

/-- Severity found by a check (R367). -/
inductive Sev where
  | clean | sv0 | sv1 | sv2 | sv3
  deriving DecidableEq, Repr

/-- The class number of a severity that is delivered. -/
def Sev.num : Sev → Nat
  | .sv1 => 1
  | .sv2 => 2
  | .sv3 => 3
  | _ => 0

/-- What a check finds: the class, the flips that stay, the failing tier-B groups, and whether four or more errors of the
codeword leave the outcome open (R364). -/
structure Finding where
  sev   : Sev
  left  : List Nat
  bad   : List Nat
  wild  : Bool
  deriving DecidableEq, Repr

/-- Groups with an odd number of flips. -/
def badGroups (place : Nat → Where) (groups : Nat) (flips : List Nat) : List Nat :=
  (List.range groups).filter fun g => (flips.filter fun p => place p == .group g).length % 2 == 1

/-- The check of a unit under a tier-A codeword and tier-B parity: where its positions fall, its groups, whether its tier-A bits are
elements' signs and exponents only, what is flipped (R364, R367). -/
def checkBits (place : Nat → Where) (groups : Nat) (signs : Bool) (flips : List Nat) : Finding :=
  if flips.isEmpty then ⟨.clean, [], [], false⟩
  else
    let a := (flips.filter fun p => place p == .code).length
    let used := flips.filter fun p => place p != .unused
    let rest := used.filter fun p => place p != .code
    let bad := badGroups place groups flips
    if 2 < a then ⟨if signs then .sv2 else .sv3, used, bad, decide (3 < a)⟩
    else if bad ≠ [] then ⟨.sv1, rest, bad, false⟩
    else if a = 0 ∧ used.length = flips.length then ⟨.clean, flips, [], false⟩
    else ⟨.sv0, rest, [], false⟩

/-- The check of a sector with flipped bits (R364, R367). -/
def check (k : SecKind) (hbm : Bool) (flips : List Nat) : Finding := checkBits (k.place hbm) k.groups k.allSigns flips

/-! ## Term code in the code L1 (R55) -/

/-- The bit of its bundle that bit p of a sector of code is: a bundle's first word is its upper half (R64). -/
def bundleBit (p : Nat) : Nat := if p % 128 < 64 then p % 128 + 64 else p % 128 - 64

/-- Bits of bundle j of a sector of code, from bit `b` of the bundle up. -/
def bundleBits (data : BitVec 256) (j b n : Nat) : Nat :=
  (data.toNat >>> (128 * j + if b < 64 then b + 64 else b - 64)) % 2 ^ n

/-- The tier of a bit of a sector of code: imm8 [5:0] of a bundle's TMAC and TSCL slots are tier B, all else tier A. -/
def codeTier (data : BitVec 256) (p : Nat) : Tier :=
  let j := p / 128
  let b := bundleBit p
  let op := bundleBits data j (b / 24 * 24 + 21) 3
  if bundleBits data j 122 6 = 0x3E ∧ b < 120 ∧ b % 24 < 6 ∧ (op = 1 ∨ op = 5) then .B else .A

/-- Where a position of a sector of code falls: its tier-A codeword, its tier-B groups, its unused check bits. -/
def codePlace (data : BitVec 256) (p : Nat) : Where :=
  let b : Nat → Nat := fun n => ((List.range n).filter fun p => codeTier data p == .B).length
  let bits := if 256 - b 256 ≤ 238 then 17 else 19
  let groups := (b 256 + 15) / 16
  if p < 256 then (if codeTier data p = .A then .code else .group (b p / 16))
  else if p - 256 < bits then .code
  else if p - 256 < bits + groups then .group (p - 256 - bits)
  else .unused

/-- The check of a sector of a code L1 line; it delivers the bits without those that it corrected. -/
def checkCode (data : BitVec 256) (flips : List Nat) : Finding := checkBits (codePlace data) 16 false flips

/-- The bits of a sector with every element that meets a test replaced by its poison code. -/
def poisonBits (k : SecKind) (sv1 : Bool) (hit : Nat → Bool) (data : BitVec 256) : BitVec 256 :=
  let go : Nat → Nat := fun byte =>
    match k.fmt byte with
    | none => (data.toNat >>> (8 * byte)) % 256
    | some f =>
      let one : Nat → Nat := fun bit =>
        let e := bit / f.width * f.width
        if (List.range f.width).any fun j => hit (e + j) then ((f.poison sv1) >>> (bit % f.width)) % 2
        else (data.toNat >>> bit) % 2
      pack 1 (fun j => one (8 * byte + j)) 8
  BitVec.ofNat 256 (pack 8 go 32)

/-- What a read of the sector delivers (R367, R369): every element as poison at SV2, those of the failing groups at SV1 when
`pois1` asks for it, else the stored bits without the corrected ones. -/
def deliver (k : SecKind) (hbm pois1 : Bool) (f : Finding) (data : BitVec 256) : BitVec 256 :=
  match f.sev with
  | .sv2 => poisonBits k false (fun _ => true) data
  | .sv1 =>
    let seen := data ^^^ flipMask f.left
    if pois1 then
      poisonBits k true (fun b => match k.place hbm b with
        | .group g => f.bad.contains g
        | _ => false) seen
    else seen
  | _ => data ^^^ flipMask f.left

end Sys2Proof.Machine
end

