-- ==== Sys2Proof/Machine/Protect.lean ====
section
/-! DEFINITION. The error log (R376), the examination of a protected sector (R364), the write-back of an L2 line (R180, R370,
R372), and writes through the host's view of device memory (R398). -/

namespace Sys2Proof.Machine

/-! ## Time and the log -/

/-- gtb in nanoseconds: the model counts 1/189 ns (R7; log 4). -/
def State.gtb (s : State) : Word := BitVec.ofNat 64 (s.gtbq / 189)

/-- The clk of a core's cluster, and of the cluster of the core whose sequencer takes its turn. -/
def State.clkOf (s : State) (c : CoreId) : Nat := s.clusters[clusterOf c].clk
def State.clk (s : State) : Nat := s.clkOf s.cur.1

/-- Quanta of a clk at a throttle level (R417). -/
def levelQuanta (l : Fin 4) : Nat :=
  match l with
  | 0 => 180
  | 1 => 200
  | 2 => 225
  | 3 => 360

/-- The registers of the PF answer from state 2 on, those of the VFs and device memory from state 3 on (R412). -/
def State.pfUp (s : State) : Bool := decide (2 ≤ s.mgst)
def State.vfUp (s : State) : Bool := decide (3 ≤ s.mgst)

/-- Reduced service (R413). -/
def State.reduced (s : State) : Bool := s.mgst == 3

/-- A cluster after n quanta; in reduced service a clk lasts as at level 3 (R413). -/
def Cluster.elapse (u : Cluster) (reduced : Bool) (n : Nat) : Cluster :=
  let q := if reduced then 360 else levelQuanta u.level
  { u with clk := u.clk + (u.frac + n) / q, frac := (u.frac + n) % q }

/-- What a span of n quanta takes off the correction that gtb owes: at most 1 ns per µs of the time that passes (R411). -/
def State.slew (s : State) (n : Nat) : Int :=
  let k : Int := ((s.fab.raw + n) / 1000 - s.fab.raw / 1000 : Nat)
  max (-k) (min k s.fab.lead)

/-- Time passes; gtb slews toward its master and never decreases (R411). -/
def State.elapse (s : State) (n : Nat) : State :=
  { s with gtbq := s.gtbq + ((n : Int) + s.slew n).toNat
           fab := { s.fab with lead := s.fab.lead - s.slew n, raw := s.fab.raw + n }
           clusters := s.clusters.map fun (u : Cluster) => u.elapse s.reduced n }

/-- A free value of the model: its number, and the state with the counter advanced (log 6). -/
def State.free (s : State) : Nat × State := (s.fresh, { s with fresh := s.fresh + 1 })

/-- Where an error was found, for the log (R376). -/
structure Place where
  array : Nat
  die   : Nat
  slice : Nat
  way   : Nat
  set   : Nat
  addr  : Nat
  deriving DecidableEq, Repr

/-- The place of a sector in HBM4E, in an L2 line, in a scratchpad row. -/
def hbmPlace (pa : Nat) : Place := ⟨0, dieOf (pa / 128), 0, 0, 0, pa⟩
def l2Place (l : L2Line) (i : Nat) : Place :=
  ⟨1, dieOf l.la, (sliceOf l.la).val % 16, l.way.val, setOf l.la, 128 * l.la + 32 * i⟩
def padPlace (core : CoreId) (row : Nat) : Place :=
  ⟨2, core.val / 256, 0, 0, 0, (core.val / 128) * 2 ^ 26 + (core.val % 128) * 2 ^ 19 + row * 256⟩

/-- The flags of rld0 [20:16]. -/
structure LogFlags where
  dirty : Bool
  retired : Bool
  quar : Bool
  term : Bool
  unknown : Bool
  deriving DecidableEq, Repr

def noFlags : LogFlags := ⟨false, false, false, false, false⟩

def bit (b : Bool) (i : Nat) : Nat := if b then 2 ^ i else 0

/-- An error of a sector, of memory or of a scratchpad row, is an injected one: no flip of it has come from outside (R383; log 36). -/
def State.injected (s : State) (pad : Bool) (addr : Nat) : Bool := !s.outside.contains (pad, addr)

/-- An event enters the log (R376); INJ where errinj has caused it. -/
def State.log (s : State) (cls : Nat) (p : Place) (inj : Bool) (fl : LogFlags) (ctx : Ctx) (pc : Word) : State :=
  let inj := inj && (decide (2 < p.array) || s.injected (p.array == 2) p.addr)
  let cause := if cls = 0 ∨ 4 < cls then 0 else if inj then 0x104 else 0x0FF + cls
  let w0 := cls + p.array * 2 ^ 3 + cause * 2 ^ 6 + bit inj 15 + bit fl.dirty 16 + bit fl.retired 17 + bit fl.quar 18 +
    bit fl.term 19 + bit fl.unknown 20 + p.die * 2 ^ 21 + p.slice * 2 ^ 24 + p.way * 2 ^ 28 + p.set * 2 ^ 32 + ctx.toNat * 2 ^ 45
  let e : LogEntry := #v[BitVec.ofNat 64 w0, BitVec.ofNat 64 p.addr, pc, s.gtb]
  { s with rel := { s.rel with
      rlcnt := s.rel.rlcnt + 1
      log := s.rel.log.set (s.rel.rlcnt % 64) e (Nat.mod_lt _ (by decide)) } }

/-! ## Examination of a sector (R364) -/

/-- A sector examined: what was found and the bits a read delivers. Beyond the code the outcome is open: detected, or missed
with a free value in the sector (R364, log 6). -/
def State.examine (s : State) (k : SecKind) (hbm : Bool) (flips : List Nat) (data : BitVec 256) :
    State × Finding × BitVec 256 :=
  let f := check k hbm flips
  if f.wild then
    let (n, s) := s.free
    if Config.freeDetect n then (s, f, deliver k hbm (s.rel.relpol.getLsbD 0) f data)
    else (s, ⟨.clean, f.left, [], false⟩, Config.freeValue n)
  else (s, f, deliver k hbm (s.rel.relpol.getLsbD 0) f data)

/-- The kind of a sector of local memory under a code. -/
def secKind (code : Layout) (mark : BitVec 2) (sector : Nat) : SecKind :=
  ⟨code, mark, sector % 8, code == 0x1A && (sector / 8) % 256 == 0⟩

/-- The slot mark of a page's rows: the element format that byte 38 of the header names (R56). -/
def State.slotMark (s : State) (code : Layout) (pa : Nat) : BitVec 2 :=
  if code = 0x1A then
    let b := s.peek (pa / 65536 * 65536 + 38)
    if b = 0x0B then 0 else if b = 0x08 then 1 else 2
  else 0

/-! ## Ways and frames (R372, R373) -/

def L2Line.wayId (l : L2Line) : WayId := ⟨(sliceOf l.la).val, setOf l.la, l.way⟩

/-- Whether a way can still be quarantined: at most 64 in a slice and 4 in a set (R373). -/
def State.canQuar (s : State) (w : WayId) : Bool :=
  !s.rel.quar.contains w && decide ((s.rel.quar.filter fun x => x.slice == w.slice).length < 64) &&
    decide ((s.rel.quar.filter fun x => x.slice == w.slice && x.set == w.set).length < 4)

def State.quarantine (s : State) (w : WayId) : State :=
  if s.canQuar w then { s with rel := { s.rel with quar := s.rel.quar ++ [w] } } else s

/-- relpol.CETH. -/
def State.ceth (s : State) : Nat := (s.rel.relpol.extractLsb' 8 8).toNat

/-- The corrected errors on a way have reached CETH, and it can still be quarantined (R373). -/
def State.overCeth (s : State) (w : WayId) : Bool := s.ceth != 0 && decide (s.ceth ≤ s.rel.corr.count w) && s.canQuar w

/-- A corrected error of a sector of a line: it is logged, dirty where the line is, and counts toward CETH. The log says where that calls
for a quarantine, applied or not (R373, R376; DEDUCED, log 89). -/
def State.logCorrected (s : State) (l : L2Line) (i : Nat) (pc : Word) : State :=
  let quar := s.ceth != 0 && decide (s.ceth ≤ s.rel.corr.count l.wayId + 1)
  let s := s.log 0 (l2Place l i) true { noFlags with dirty := l.dirty != 0, quar := quar } 0 pc
  { s with rel := { s.rel with corr := l.wayId :: s.rel.corr } }

/-- The frame joins the retired list when relpol asks for it and there is room (R372). -/
def State.retireFrame (s : State) (pa : Nat) : State :=
  let f := pa / 65536
  if s.rel.relpol.getLsbD 5 && !s.rel.retired.contains f && decide (s.rel.retired.length < 1024) then
    { s with rel := { s.rel with retired := s.rel.retired ++ [f] } }
  else s

/-- The log says that a frame is retired also where the list has no room for it (R372). -/
def State.retires (s : State) : Bool := s.rel.relpol.getLsbD 5

/-! ## What is in service (R412, R413) -/

/-- Die 0 is in service and dies 1 to 7 are not. -/
def State.oneDie (s : State) : Bool := (s.mgst == 2 || s.mgst == 3) && !s.mg.dies

/-- An address homed on a die that is not yet in service. -/
def State.dieOut (s : State) (pa : Nat) : Bool := s.oneDie && decide (pa < 2 ^ 47) && dieOf (pa / 128) != 0

/-- Some line of n bytes is homed on a die that is not yet in service: a request for them waits. -/
def State.spanOut (s : State) (pa n : Nat) : Bool :=
  (List.range (n / 128 + 2)).any fun i => decide (128 * (pa / 128 + i) < pa + n) && s.dieOut (128 * (pa / 128 + i))

/-! ## Write-back (R180, R220, R370, R372) -/

/-- The map entry of sector 0 for a code line's bytes (R220). -/
def codeMap (data : BitVec 1024) : BitVec 7 :=
  let n := Config.codedSectors data
  if n ≤ 3 then 0x20#7 ||| (BitVec.ofNat 7 ((n - 1) % 3) <<< 3) else 0x40#7

/-- The map entry that sector i of a line is stored with: its form for a code line's first, else zero (R184, R220). -/
def L2Line.mapOf (l : L2Line) (i : Nat) : BitVec 7 := if l.tag = 0x18 ∧ i = 0 then codeMap l.data else 0

/-- One dirty sector of a line goes to HBM4E: corrected, which is logged; poisoned as delivered, which is logged once (R370); or,
where it is lost, stamped so. -/
def State.writeBack (s : State) (l : L2Line) (i : Nat) (pc : Word) : State × Bool :=
  let sector := 4 * l.la + i
  let (s, f, d) := s.examine (secKind l.tag (l.mark i) sector) false (flipsOf l.flips i) (lineSector l.data i)
  let w : SectorWord := ⟨l.tag, l.mapOf i, l.mark i, []⟩
  match f.sev with
  | .sv3 => (s.writeSector sector d ⟨lostStamp, 0, 0, []⟩, true)
  | .sv2 | .sv1 => ((s.log 2 (l2Place l i) true { noFlags with dirty := true } 0 pc).writeSector sector d w, false)
  | .sv0 => ((s.logCorrected l i pc).writeSector sector d w, false)
  | .clean => (s.writeSector sector d w, false)

/-- Every dirty sector of a line, in ascending order; those found lost. -/
def State.writeBackAll (s : State) (l : L2Line) (pc : Word) : State × List Nat :=
  (List.range 4).foldl (fun (s, n) i =>
    if l.dirty.getLsbD i then
      let (s, lost) := s.writeBack l i pc
      (s, if lost then n ++ [i] else n)
    else (s, n)) (s, [])

/-- A line leaves the L2 with its dirty sectors written back; its way is quarantined where the errors corrected on it have become
too many (R373). -/
def State.evict (s : State) (l : L2Line) (pc : Word) : State × List Nat :=
  let (s, n) := s.writeBackAll l pc
  let s := s.dropLine l.la
  (if s.overCeth l.wayId then s.quarantine l.wayId else s, n)

/-! ## What a read of a sector of HBM4E finds (R184) -/

/-- A blank sector, one stamped lost, one that is lost by what was found, or one with its stamp sound: what a check found and what is
delivered. -/
inductive Sensed where
  | blank | lost | bad
  | ok (f : Finding) (d : BitVec 256)
  deriving DecidableEq, Repr

/-- A finding that leaves the tier-A codeword uncorrected. -/
def Finding.broken (f : Finding) : Bool := f.sev == .sv3 || f.sev == .sv2

/-- The tier-A codeword of a sector gives its stamp back although that reads as no layout (R364, R383). -/
def SectorWord.mends (w : SectorWord) (sector : Nat) : Bool :=
  w.seen != w.stamp && decide (w.stamp.toNat < 0x1C) && decide (0x1C ≤ w.seen.toNat) &&
    !(check (secKind w.stamp w.mark sector) true w.flips).broken

/-- A sector of HBM4E by the rows of R184, for a request under a code, or a read under whatever it holds. A stamp that reads as no layout
is corrected where its codeword is; else the stamp as it reads decides. One of another layout than the request's is checked under the
stamp that reads: where that codeword cannot be corrected the sector is lost, else what follows is that of the true stamp. -/
def State.sense (s : State) (sector : Nat) (want : Option Layout) : State × Sensed :=
  let w := s.word sector
  let seen := if w.mends sector then w.stamp else w.seen
  if seen = 0x3F then (s, .blank)
  else if seen = lostStamp then (s, .lost)
  else if 0x1C ≤ seen.toNat then (s, .bad)
  else if seen ≠ w.stamp ∧ (check (secKind seen w.mark sector) true w.flips).broken then (s, .bad)
  else if w.stamp = 0x3F then (s.setWord sector blankWord, .blank)
  else if w.stamp = lostStamp then (s, .lost)
  else
    let (s, f, d) := s.examine (secKind w.stamp w.mark sector) true w.flips (s.rawSector sector)
    if f.sev = .sv3 ∨ (f.sev = .sv2 ∧ (seen ≠ w.stamp ∨ want.any (· ≠ w.stamp))) then (s, .bad) else (s, .ok f d)

/-- What a check of a sector of HBM4E leaves behind: a corrected one is written back in place and logged, an SV1 or SV2 is logged
(R364, R367, R370). -/
def State.noteHbm (s : State) (sector : Nat) (f : Finding) (pc : Word) : State :=
  match f.sev with
  | .sv0 => (s.setWord sector { s.word sector with flips := f.left }).log 0 (hbmPlace (32 * sector)) true noFlags 0 pc
  | .sv1 => s.log 1 (hbmPlace (32 * sector)) true noFlags 0 pc
  | .sv2 => s.log 2 (hbmPlace (32 * sector)) true noFlags 0 pc
  | _ => s

/-- A sector of HBM4E lost with nobody to charge: logged with owner unknown, stamped, its frame retired (R370-R372). -/
def State.loseUnowned (s : State) (sector : Nat) (pc : Word) : State :=
  let s := s.log 3 (hbmPlace (32 * sector)) true { noFlags with retired := s.retires, unknown := true } 0 pc
  (s.setWord sector ⟨lostStamp, 0, 0, []⟩).retireFrame (32 * sector)

/-! ## Writes through the host's view (R398) -/

/-- Bytes `lo` to `hi - 1` of a sector from a number whose byte 0 belongs at `lo`. -/
def mergeSector (old : BitVec 256) (lo hi x : Nat) : BitVec 256 :=
  let m : BitVec 256 := BitVec.ofNat 256 ((2 ^ (8 * (hi - lo)) - 1) * 2 ^ (8 * lo))
  (old &&& ~~~m) ||| (BitVec.ofNat 256 (x * 2 ^ (8 * lo)) &&& m)

/-- A sector about to be written in part is read first: an error that is found is acted on as a read does, so that fresh check bits
never cover it up (R364, R370). -/
def State.readForMerge (s : State) (sector : Nat) : State × BitVec 256 :=
  match s.sense sector none with
  | (s, .ok f d) => (s.noteHbm sector f 0, d)
  | (s, .bad) => (s.loseUnowned sector 0, 0)
  | (s, _) => (s, 0)

/-- A write of part of a sector with an optional stamp: a blank, lost or newly stamped sector has zero in the bytes not
covered, and without a stamp a blank or lost sector becomes RAW (R398). -/
def State.hdmSector (s : State) (stamp : Option Layout) (sector lo hi x : Nat) : State :=
  let (s, d) := if lo = 0 ∧ hi = 32 then (s, 0) else s.readForMerge sector
  let w := s.word sector
  let void := w.stamp == 0x3F || w.stamp == lostStamp
  let new := match stamp with
    | some c => c
    | none => if void then 0 else w.stamp
  let fresh := void || new != w.stamp
  let old := if fresh then 0 else d
  let keep := if fresh then 0 else w.map
  s.writeSector sector (mergeSector old lo hi x) ⟨new, keep, s.slotMark new (32 * sector), []⟩

/-- n bytes from an address, sector by sector. A line that the L2 holds goes first, its dirty sectors written back; those found lost
are handed on with their lines. -/
def State.hdmWrite (s : State) (stamp : Option Layout) (pa x n : Nat) (lost : List (L2Line × List Nat)) :
    Nat → State × List (L2Line × List Nat)
  | 0 => (s, lost)
  | fuel + 1 =>
    if n = 0 then (s, lost)
    else if inHbm pa then
      let lo := pa % 32
      let k := min n (32 - lo)
      let (s, lost) := match s.lineAt (pa / 128) with
        | some l =>
          let (s, bad) := s.evict l 0
          (s, if bad.isEmpty then lost else lost ++ [(l, bad)])
        | none => (s, lost)
      (s.hdmSector stamp (pa / 32) lo (lo + k) (x % 2 ^ (8 * k))).hdmWrite stamp (pa + k) (x / 2 ^ (8 * k)) (n - k) lost fuel
    else ({ s with mem := Memory.putBytes s.mem pa x n }, lost)

end Sys2Proof.Machine
end

