-- ==== Sys2Proof/Machine/Terminate.lean ====
section
/-! DEFINITION. Events for a VF's host (R402), what ends with a strand on its core (R336, R361), termination of a context
(R361), VF reset (R362, R403), and the charging of an SV3 (R371, R372). -/

namespace Sys2Proof.Machine

/-! ## Events (R402) -/

/-- The VF a context belongs to. -/
def vfOf (c : Ctx) : Fin 64 := (c.extractLsb' 4 6).toFin

/-- An event record goes into the VF's ring in host memory; a VF that has placed no ring has no event written. -/
def State.postEvent (s : State) (vf : Fin 64) (type code : Nat) (ctx : Ctx) (status : Nat) (detail : Word) : State :=
  let v := s.vfs[vf]
  let n := 2 ^ (v.evq.extractLsb' 0 4).toNat
  let base := (v.evq.extractLsb' 12 52).toNat * 4096
  let at' := hostAddr (base + 16 * (v.evtail.toNat % n))
  let rec' := type + code * 2 ^ 16 + ctx.toNat * 2 ^ 32 + status * 2 ^ 48 + detail.toNat * 2 ^ 64
  if v.evq.extractLsb' 0 4 < 4 then s
  else { s with mem := Memory.putBytes s.mem at' rec' 16, vfs := s.vfs.set vf { v with evtail := v.evtail + 1 } }

/-- An event of type 3: how its detail packs the remote node and VA is open (log 20). -/
def State.postFar (s : State) (ctx : Ctx) : State :=
  let (n, s) := s.free
  s.postEvent (vfOf ctx) 3 0x1C1 ctx 0 ((Config.freeValue n).setWidth 64)

/-- An event that names no cause and no context: its code, context and detail are open (log 20). -/
def State.postBare (s : State) (vf : Fin 64) (type status : Nat) : State :=
  let (n, s) := s.free
  let x := Config.freeValue n
  s.postEvent vf type (x.extractLsb' 64 16).toNat (x.extractLsb' 80 10) status (x.setWidth 64)

/-- The event of a launch that has ended: its code is open (log 20). -/
def State.postEnded (s : State) (ctx : Ctx) (gid : Nat) : State :=
  let (n, s) := s.free
  s.postEvent (vfOf ctx) 1 ((Config.freeValue n).extractLsb' 0 16).toNat ctx 0 ((Config.launchNumber gid).setWidth 64)

/-! ## A core set free -/

/-- A sequencer that runs nothing. -/
def SeqSt.idle (q : SeqSt) : SeqSt :=
  { q with run := .idle, wait := .none, copy := none, gvi := none, sevTrap := none, walkFault := none }

/-- A core loses its strand: it is idle, its queues are empty, its windows and rows are free but for rows whose write-back
is under way (R336, R361). -/
def Core.vacate (k : Core) : Core :=
  { k with
    seqs := k.seqs.map SeqSt.idle
    queues := .replicate 16 .reset
    toks := .replicate 16 0
    bqs := .replicate 4 []
    rq := []
    ex := { k.ex with pend := [], pushes := [] }
    strand := none
    req := none
    divert := none
    engFault := false
    wins := .replicate 16 none
    stash := k.stash.filter fun r => r.use == .writing && !(k.heldPubs.any fun h => h.post.row == r.row)
    heldPubs := []
    loads := []
    stores := []
    undo := []
    sends := []
    arrived := none
    synced := false
    fx := []
    commit := none
    chk := { k.chk with copy := none, copyPoint := none, log := [], again := [], served := [], missed := 0, due := none } }

/-! ## Engine commands that stop (R328) -/

/-- The 16 bytes of a command in progress. -/
def EngCmd.entry (m : EngCmd) (c : CoreId) : Nat :=
  let w := (encode ⟨false, m.op⟩).1
  m.pc.toNat + c.val * 2 ^ 64 + (majorOf w).toNat * 2 ^ 80 + (w.extractLsb' 50 6).toNat * 2 ^ 88 + m.done % 2 ^ 32 * 2 ^ 96

/-- The command of a context in progress in a queue. -/
def EngQ.active (e : EngQ) (ctx : Ctx) : Option EngCmd := e.cmds.find? fun m => m.ctx == ctx && m.begun && !m.ended

/-- A queue without the commands of a context; a head that was halted, or a violation of the context, leaves the queue free. -/
def EngQ.stop (e : EngQ) (ctx : Ctx) : EngQ :=
  let mine := match e.cmds with
    | m :: _ => m.ctx == ctx
    | [] => false
  { e with cmds := e.cmds.filter fun m => m.ctx != ctx, halted := if mine then none else e.halted,
           frozen := e.frozen.filter fun v => v.ctx != ctx }

/-- The engines of a core. -/
def Core.engines (k : Core) : List EngQ := [k.gath, k.code, k.stg, k.tens.q]

/-- The commands of a context in progress on a core, the nest's among them. -/
def Core.active (k : Core) (ctx : Ctx) : List EngCmd :=
  k.engines.filterMap (·.active ctx) ++ ((k.tens.nest.map (·.cmd)).filter fun m => m.ctx == ctx).toList

/-- The tensor engine without a context: its nest stops. -/
def Tensor.stop (t : Tensor) (ctx : Ctx) : Tensor :=
  let t := { t with q := t.q.stop ctx }
  if t.nest.any fun n => n.cmd.ctx == ctx then { t with nest := none, flight := [] } else t

/-- A context's translations and code leave a core (R358 step 4, R361). -/
def Core.forget (k : Core) (ctx : Ctx) : Core :=
  { k with tlb := k.tlb.filter (fun e => e.ctx != ctx), latt := k.latt.filter (fun e => e.ctx != ctx),
           codeL1 := k.codeL1.filter fun l => l.ctx != ctx }

/-- What a core does when a context is terminated: a publication already in progress goes on sector by sector. -/
def Core.terminate (k : Core) (ctx : Ctx) : Core :=
  let k := k.forget ctx
  let k := { k with gath := k.gath.stop ctx, code := k.code.stop ctx, stg := k.stg.stop ctx, tens := k.tens.stop ctx,
                    away := k.away.filter fun a => a.strand.ctx != ctx }
  if k.strand.any fun st => st.ctx == ctx then { k.vacate with ends := [], startTo := none, locks := .replicate 16 0 } else k

/-- The hitches of a context become complete and unowned. -/
def clearHitches (h : List (Nat × Hitch)) (ctx : Ctx) : List (Nat × Hitch) := h.filter fun e => e.2.owner != some ctx

/-- A cluster without a context. -/
def Cluster.terminate (u : Cluster) (ctx : Ctx) : Cluster :=
  { u with tlb := u.tlb.filter (fun e => e.ctx != ctx), walks := u.walks.filter (fun w => w.ctx != ctx),
           hitches := clearHitches u.hitches ctx, launches := u.launches.filter fun l => l.ctx != ctx }

/-- A slice without the reads of a context; the writes of publications in progress go on (R361). -/
def SliceSt.terminate (x : SliceSt) (ctx : Ctx) : SliceSt :=
  let keep : SliceReq → Bool := fun r => r.ctx != ctx || (match r.op with
    | .read _ _ => false
    | .write _ _ _ => true)
  { x with queue := x.queue.filter keep, miss := x.miss.filter keep }

/-- Termination of a context (R361). -/
def State.terminate (s : State) (ctx : Ctx) : State :=
  let ents := (List.finRange 2048).flatMap fun c => ((s.core c).active ctx).map fun m => m.entry c
  let v := s.vfs[vfOf ctx]
  { s with
    cores := s.cores.map fun k => k.terminate ctx
    clusters := s.clusters.map fun u => u.terminate ctx
    swaps := s.swaps.filter fun x => x.cmd.ctx != ctx
    slices := s.slices.map fun x => x.terminate ctx
    vfs := s.vfs.set (vfOf ctx) { v with ents := v.ents ++ ents, frozen := v.frozen.filter fun x => x.ctx != ctx }
    vpend := s.vpend.filter fun p => p.2.ctx != ctx }

/-- The contexts of a VF (R397). -/
def ctxsOf (vf : Fin 64) : List Ctx := (List.range 16).map fun i => BitVec.ofNat 10 (16 * vf.val + i)

/-- VF reset (R362): every context of the VF is terminated as one event, its submission queues are emptied, what waits for a
decision or a core of its contexts is dropped, the reset record is written and event 5 posted (R403). Lines that had to leave the L2
for the record are handed on where a sector of them was lost. A record for a die that is not yet in service waits with its event (R413). -/
def State.resetVf (s : State) (vf : Fin 64) : State × List (L2Line × List Nat) :=
  let s := (ctxsOf vf).foldl State.terminate s
  let v := s.vfs[vf]
  let v := { v with sqs := v.sqs.map fun q => { q with head := 0, tail := 0, stamp := 1, stalled := false, rereads := none },
                    resets := v.resets + 1, ents := [], frozen := none }
  let ents := s.vfs[vf].ents
  let s := { s with vfs := s.vfs.set vf v, vpend := s.vpend.filter (fun p => vfOf p.2.ctx != vf),
                    prq := s.prq.filter fun r => vfOf r.ctx != vf }
  let body := (ents.take 255).zipIdx.foldl (fun x e => x + e.1 * 2 ^ (128 * (e.2 + 1))) 0
  let n := 16 * (min ents.length 255 + 1)
  let x := ents.length % 2 ^ 32 + v.resets.toNat * 2 ^ 32 + body
  if s.spanOut v.rrec.toNat n then ({ s with owed := s.owed ++ [⟨v.rrec.toNat, x, n, some vf⟩] }, [])
  else
    let (s, lost) := s.hdmWrite none v.rrec.toNat x n [] (n / 32 + 2)
    (s.postBare vf 5 0, lost)

/-! ## Charging an SV3 (R371, R372, R374) -/

/-- An SV3 of a line is logged (R372). -/
def State.logLost (s : State) (l : L2Line) (pc : Word) (i : Nat) : State :=
  s.log 3 (l2Place l i) true ⟨true, s.retires, s.rel.relpol.getLsbD 6, true, false⟩ l.owner pc

/-- Steps 3 and 5 of R372 around the action on the owner: the way is quarantined where relpol asks for it, the frame retired. -/
def State.punish (s : State) (l : L2Line) (act : State → Ctx → State) : State :=
  let s := if s.rel.relpol.getLsbD 6 then s.quarantine l.wayId else s
  (act s l.owner).retireFrame (128 * l.la)

/-- The relpol action on the context charged. A VF reset writes its record, and a line lost on the way charges its owner in turn; `n`
bounds the resets. -/
def State.chargeIn : Nat → State → Ctx → State
  | 0, s, ctx => s.terminate ctx
  | n + 1, s, ctx =>
    if s.rel.relpol.extractLsb' 3 2 = 1 then
      let (s, lost) := s.resetVf (vfOf ctx)
      lost.foldl (fun s x => (x.2.foldl (fun s i => s.logLost x.1 0 i) s).punish x.1 (State.chargeIn n)) s
    else s.terminate ctx

def State.charge (s : State) (ctx : Ctx) : State := s.chargeIn 64 ctx

/-- Sectors of a line found lost as it left the L2 (R371, R372). -/
def State.lostOut (s : State) (l : L2Line) (pc : Word) (lost : List Nat) : State :=
  if lost.isEmpty then s else (lost.foldl (fun s i => s.logLost l pc i) s).punish l State.charge

/-- A line leaves the L2, with what follows where sectors of it are lost. -/
def State.flushOut (s : State) (l : L2Line) (pc : Word) : State :=
  let (s, lost) := s.evict l pc
  s.lostOut l pc lost

def State.lostAll (s : State) (lost : List (L2Line × List Nat)) : State := lost.foldl (fun s x => s.lostOut x.1 0 x.2) s

/-- VF_RESET. -/
def State.vfReset (s : State) (vf : Fin 64) : State :=
  let (s, lost) := s.resetVf vf
  s.lostAll lost

/-- The line of an address leaves the L2. -/
def State.flushLine (s : State) (la : Nat) : State :=
  match s.lineAt la with
  | some l => s.flushOut l 0
  | none => s

/-- n bytes from an address through the host's view (R398). -/
def State.hdmPut (s : State) (stamp : Option Layout) (pa x n : Nat) (fuel : Nat) : State :=
  let (s, lost) := s.hdmWrite stamp pa x n [] fuel
  s.lostAll lost

/-- A record of the device itself in device memory: n bytes, little-endian. One for a die that is not yet in service waits for it (R413). -/
def State.putRecord (s : State) (pa x n : Nat) : State :=
  if s.spanOut pa n then { s with owed := s.owed ++ [⟨pa, x, n, none⟩] } else s.hdmPut none pa x n (n / 32 + 2)

/-- The device's own writes that waited for a die are made in order, each with its event. -/
def State.payOwed (s : State) : State :=
  s.owed.foldl (fun s w =>
    let s := s.hdmPut none w.pa w.x w.n (w.n / 32 + 2)
    match w.vf with
    | some vf => s.postBare vf 5 0
    | none => s) { s with owed := [] }

end Sys2Proof.Machine
end

