-- ==== Sys2Proof/Machine/Ops.lean ====
section
/-! DEFINITION. The named operations on the state of a sequencer and its core: register access, issue and landing on EX
(R94-R96), the pc and hardware loops (R104-R106), taking a trap (R348, R352), a violation (R360) and the return from a
trap (R354). -/

namespace Sys2Proof.Machine

/-! ## Scalar registers and operands (R65, R90) -/

/-- s0 reads as zero. -/
def SeqSt.reg (q : SeqSt) (n : Fin 32) : Word := if n = 0 then 0 else q.regs[n]

/-- A write to s0 is discarded. -/
def SeqSt.setReg (q : SeqSt) (n : Fin 32) (x : Word) : SeqSt :=
  if n = 0 then q else { q with regs := q.regs.set n x }

/-- A constant as a sequencer reads it: CTL running its window again takes the value that the log holds (R379). -/
def Core.constant (k : Core) (q : Seq) (n : Fin 256) : Word :=
  if q = .ctl ∧ k.chk.again ≠ [] then (k.chk.served.lookup n).getD k.consts[n] else k.consts[n]

/-- Src(k, i) for kinds 01, 10 and 11 (R76). -/
def Core.src (k : Core) (q : Seq) (x : SSrc) : Word :=
  match x with
  | .s n => (k.seq q).reg n
  | .c n => k.constant q n
  | .lit i => i.signExtend 64

/-- A scalar source of the current sequencer. -/
def State.src (s : State) (x : SSrc) : Word := s.here.src s.cur.2 x

/-- A scalar register of the current sequencer. -/
def State.reg (s : State) (n : Fin 32) : Word := s.me.reg n

/-! ## Landing on EX (R95, R122) -/

/-- Lane-wise sum of two accumulators, modulo 2^32 in each of 256 lanes. -/
def addLanes32 (x y : Nat) : Nat → Nat
  | 0 => 0
  | n + 1 =>
    addLanes32 x y n + (((x >>> (32 * n)) % 2 ^ 32 + (y >>> (32 * n)) % 2 ^ 32) % 2 ^ 32) * 2 ^ (32 * n)

/-- A fold of TSCL in one lane (R252): F + s × P with one rounding; a NaN of F first, then one of s (R42). -/
def foldLane (f scale part : Nat) : Nat :=
  let F := decodeF .fp32 f
  let s := decodeF .fp16 scale
  let x := match firstNan [F, s] with
    | some n => .nan n
    | none => addF .exTerm F (mulF .exTerm s (intF (sval 32 part)))
  roundF .fp32 false false .exTerm x

def foldAcc (f part : Acc) (scale : BitVec 16) : Acc :=
  BitVec.ofNat 8192 (pack 32 (fun l => foldLane (laneOf f.toNat 32 l) scale.toNat (laneOf part.toNat 32 l)) 256)

/-- Bits of `data` where `en` is one, the old bits elsewhere. -/
def mergeBits {n : Nat} (old en data : BitVec n) : BitVec n := (old &&& ~~~en) ||| (data &&& en)

/-- One result reaches its register. -/
def Core.apply (k : Core) (w : ExWrite) : Core :=
  match w with
  | .s n x => k.onSeq .ex fun q => q.setReg n x
  | .v n en d => { k with ex := { k.ex with v := k.ex.v.set n (mergeBits k.ex.v[n] en d) } }
  | .a n en d => { k with ex := { k.ex with a := k.ex.a.set n (mergeBits k.ex.a[n] en d) } }
  | .aAdd n d =>
    { k with ex := { k.ex with a := k.ex.a.set n (BitVec.ofNat 8192 (addLanes32 k.ex.a[n].toNat d.toNat 256)) } }
  | .aScale f p c d => { k with ex := { k.ex with a := (k.ex.a.set f (foldAcc k.ex.a[f] d c)).set p 0 } }
  | .k n en d => if n = 0 then k else { k with ex := { k.ex with k := k.ex.k.set n (mergeBits k.ex.k[n] en d) } }

/-- A result of EX that lands L slots after the current one (R95). -/
def Core.later (k : Core) (lat : Nat) (w : ExWrite) : Core :=
  { k with ex := { k.ex with pend := k.ex.pend ++ [⟨k.ex.slot + lat, w⟩] } }

/-- The results due at a slot land in issue order. -/
def Core.landAt (k : Core) (slot : Nat) : Core :=
  let now := k.ex.pend.filter fun p => p.due == slot
  let k := { k with ex := { k.ex with pend := k.ex.pend.filter fun p => p.due != slot } }
  now.foldl (fun k p => k.apply p.w) k

/-- The next issue slot of EX: the count rises and what is due lands (R95). -/
def Core.nextSlot (k : Core) : Core :=
  let n := k.ex.slot + 1
  Core.landAt { k with ex := { k.ex with slot := n } } n

/-- All results in flight land, slot by slot (R96). -/
def Core.landAll (k : Core) : Nat → Nat → Core
  | _, 0 => k
  | slot, fuel + 1 => (k.landAt slot).landAll (slot + 1) fuel

/-- The highest slot a result is due in, as a distance from the current one. -/
def ExSt.horizon (e : ExSt) : Nat := (e.pend.map fun p => p.due + 1 - e.slot).foldl max 0

def Core.settle (k : Core) : Core := k.landAll k.ex.slot k.ex.horizon

/-- A scalar result of the current sequencer: at once on CTL, LD and ST (R94), after its latency on EX (R95). -/
def State.writeS (s : State) (n : Fin 32) (x : Word) (lat : Nat) : State :=
  s.mod fun k => if s.cur.2 = .ex then k.later lat (.s n x) else k.onSeq s.cur.2 fun q => q.setReg n x

/-! ## Loops (R104-R106) -/

def SeqSt.depth (q : SeqSt) : Nat := (q.lstk.extractLsb' 0 3).toNat

/-- Counter index of loop entry i. -/
def lstkIdx (l : BitVec 12) (i : Nat) : Fin 4 := (l.extractLsb' (4 + 2 * i) 2).toFin

/-- The top entry's counter index. -/
def SeqSt.top (q : SeqSt) : Fin 4 := lstkIdx q.lstk (q.depth - 1)

/-- A new depth: the entries below it stay, and the index fields from it on read zero (DEDUCED, log 13). -/
def SeqSt.setDepth (q : SeqSt) (d : Nat) : SeqSt :=
  { q with lstk := (q.lstk &&& (((1#12 <<< (2 * d)) - 1) <<< 4)) ||| BitVec.ofNat 12 (d % 8) }

/-- Push entry n: its index stands above the entries below it. -/
def SeqSt.pushLoop (q : SeqSt) (n : Fin 4) : SeqSt :=
  let d := q.depth
  let cleared := q.lstk &&& ~~~(3#12 <<< (4 + 2 * d))
  SeqSt.setDepth { q with lstk := cleared ||| (BitVec.ofNat 12 n.val <<< (4 + 2 * d)) } (d + 1)

def SeqSt.popLoop (q : SeqSt) : SeqSt := q.setDepth (q.depth - 1)

def SeqSt.setLc (q : SeqSt) (n : Fin 4) (x : BitVec 32) : SeqSt :=
  { q with loops := q.loops.set n { q.loops[n] with lc := x } }

/-- Bits [2:0] of a pc are zero: what a register or a table gives for one loses them (R57; DEDUCED, log 74). -/
def alignPc (a : Word) : Word := a &&& ~~~7

/-- The end test of R105 at the current pc. -/
def SeqSt.endTest (q : SeqSt) : Nat → SeqSt
  | 0 => q
  | fuel + 1 =>
    if q.depth = 0 then q
    else
      let n := q.top
      let l := q.loops[n]
      if l.lend ≠ q.pc then q
      else if 2 ≤ l.lc.toNat then { q.setLc n (l.lc - 1) with pc := alignPc l.lbeg }
      else (q.setLc n 0).popLoop.endTest fuel

/-- A taken B, BC or BQ leaves the loops whose body does not hold its target (R106). -/
def SeqSt.leaveLoops (q : SeqSt) (target : Word) : Nat → SeqSt
  | 0 => q
  | fuel + 1 =>
    if q.depth = 0 then q
    else
      let l := q.loops[q.top]
      if l.lbeg.toNat ≤ target.toNat ∧ target.toNat < l.lend.toNat then q else q.popLoop.leaveLoops target fuel

/-- pc comes to hold an address: the end test runs (R105). -/
def SeqSt.goto (q : SeqSt) (target : Word) : SeqSt := SeqSt.endTest { q with pc := target } 4

/-- A taken branch (R106). -/
def SeqSt.branch (q : SeqSt) (target : Word) : SeqSt := { q.leaveLoops target 4 with pc := target }

/-! ## Issue -/

/-- The count of EX issue slots since the last yp instruction (R81); it stands still in a handler and during a
diversion (R350). -/
def Core.countSlot (k : Core) (yp : Bool) : Core :=
  if (k.seq .ex).inTrap || k.divert.isSome then k
  else { k with ex := { k.ex with ycnt := if yp then 1 else k.ex.ycnt + 1 } }

/-- What a checkpoint holds of CTL. -/
def Core.ctlRegs (k : Core) : Checkpoint :=
  let q := k.seq .ctl
  ⟨q.pc, q.regs, q.loops, q.lstk⟩

/-- A checkpoint of CTL and its checker: the window starts anew (R378). -/
def Core.checkpoint (k : Core) : Core :=
  { k with chk := { k.chk with point := k.ctlRegs, copyPoint := k.chk.copy, log := [], again := [], missed := 0 } }

/-- relpol.CHK (R374). -/
def State.checking (s : State) : Bool := s.rel.relpol.getLsbD 7

/-- A checkpoint is taken where the checker is enabled (R374, R378). -/
def State.checkpoint (s : State) (c : CoreId) : State := if s.checking then s.onCore c Core.checkpoint else s

/-- What an entry holds once its instruction has issued. -/
def Logged.resolve (k : Core) (e : Logged) : Logged :=
  match e with
  | .result d => .value ((k.seq .ctl).reg d)
  | e => e

/-- CTL's replay log takes the entries of an instruction, or CTL has run entries again (R378, R379). -/
def Core.addLog (k : Core) (es : List Logged) (again : Nat) : Core :=
  { k with chk := { k.chk with log := k.chk.log ++ es.map (·.resolve k), again := k.chk.again.drop again, served := [] } }

/-- An instruction whose entries fill the replay log of 64 is its last: a checkpoint is taken after it (R378; DEDUCED, log 52). -/
def Core.logFull (k : Core) : Core := if k.chk.log.length < 64 then k else k.checkpoint

/-- What the instruction under way adds to the log and to the entries run again; nothing while the checker is off (R374). -/
def State.noteLog (s : State) (k : Core) : Core := if s.checking then k.addLog s.curLog s.curAgain else k

/-- EX issues its next instruction `n` clk after this one at the earliest (R121). -/
def Core.holdEx (k : Core) (clk n : Nat) : Core := { k with ex := { k.ex with free := max k.ex.free (clk + n) } }

/-- The instruction of the current sequencer issues: it waits no more, on EX it takes a slot and its clk, on CTL it is logged. -/
def State.issue (s : State) : State :=
  s.mod fun k =>
    let k := k.onSeq s.cur.2 fun q => { q with wait := .none }
    if s.cur.2 = .ex then ((k.countSlot s.curYp).holdEx s.clk 1).nextSlot
    else if s.cur.2 = .ctl then (s.noteLog k).logFull
    else k

/-- The instruction completes and the pc goes past it. -/
def State.retire (s : State) (size : Word) : State := (s.modMe fun q => q.goto (q.pc + size)).issue

/-- The instruction completes and control goes to a target with the end test (JR, RET, CALL, ERET, SPLC). -/
def State.jump (s : State) (target : Word) : State := (s.modMe fun q => q.goto target).issue

/-- The instruction completes and a taken branch goes to its target. -/
def State.take (s : State) (target : Word) : State := (s.modMe fun q => q.branch target).issue

/-- The instruction blocks: nothing changes but what it waits for. -/
def State.block (s : State) (w : Wait) : State := s.modMe fun q => { q with wait := w }

/-! ## Violations and traps -/

/-- Codes of the violation kinds (R360). -/
def vkindCode : VKind → Nat
  | .privilegedRegister => 0x1E0
  | .supervisorPage => 0x1E1
  | .foreignPage => 0x1E2
  | .codeWrite => 0x1E3
  | .foreignRow => 0x1E4
  | .foreignHitch => 0x1E5
  | .privilegedInstruction => 0x1E6
  | .doubleTrap => 0x1E7
  | .hostAccess => 0x1E8

/-- The 32-B record of a violation (R360). -/
def Violation.record (v : Violation) : Nat :=
  vkindCode v.kind + v.master.toNat * 2 ^ 16 + v.unit.toNat * 2 ^ 24 + v.place.toNat * 2 ^ 32 + v.ctx.toNat * 2 ^ 48 +
    v.pc.toNat * 2 ^ 64 + v.target.toNat * 2 ^ 128

/-- A record enters the violation log, and the violation waits for a decision (R360, R404). -/
def State.record (s : State) (v : Violation) : State :=
  let n := s.vlhead
  State.putRecord { s with vlhead := n + 1, vpend := s.vpend ++ [(n, v)] }
    (s.pf.vlbase.toNat + 32 * (n % 256)) v.record 32

/-- A sequencer violates a protection rule: it is frozen with its state held, and a record is added (R360). -/
def State.violateAt (s : State) (c : CoreId) (q : Seq) (kind : VKind) (pc target : Word) : State :=
  let v : Violation := ⟨kind, 0, BitVec.ofNat 8 q.num.val, BitVec.ofNat 16 c.val, (s.core c).ctx, pc, target⟩
  (s.onCore c fun k => k.onSeq q fun st => { st with run := .frozen v }).record v

def State.violate (s : State) (kind : VKind) (target : Word) : State := s.violateAt s.cur.1 s.cur.2 kind s.me.pc target

/-- Steps 2 to 4 of R348 on a sequencer, with the end test at tvec (R105). -/
def SeqSt.enterTrap (q : SeqSt) (cause : Cause) (epc tval : Word) : SeqSt :=
  SeqSt.goto { q with cause := cause.code, epc := epc, tval := tval, psup := q.sup, sup := true, inTrap := true, wait := .none }
    (alignPc q.tvec)

/-- A sequencer takes a trap (R348), with epc and tval as R352 gives; inside a handler it is the violation
"double trap". -/
def State.trapAt (s : State) (c : CoreId) (q : Seq) (cause : Cause) (epc tval : Word) : State :=
  let st := (s.core c).seq q
  if st.inTrap then s.violateAt c q .doubleTrap st.pc 0
  else
    let s := if q = .ex then s.onCore c Core.settle else s
    let s := s.onCore c fun k => k.onSeq q fun st => st.enterTrap cause epc tval
    if q = .ctl then s.checkpoint c else s

def State.takeTrap (s : State) (cause : Cause) (epc tval : Word) : State := s.trapAt s.cur.1 s.cur.2 cause epc tval

/-- An execution trap: epc is the instruction and tval 0 unless R352 gives another (R352). -/
def State.execTrap (s : State) (cause : Cause) (tval : Word := 0) : State := s.takeTrap cause s.me.pc tval

/-- The return of ERET (R354): pc ← epc, status.SUP ← tstat.PSUP, status.INTRAP ← 0. -/
def SeqSt.leaveTrap (q : SeqSt) : SeqSt := SeqSt.goto { q with sup := q.psup, inTrap := false } (alignPc q.epc)

/-! ## Data queues (R157, R158) -/

/-- Depths in entries (R157). -/
def queueDepth (n : Fin 16) : Nat := if n.val < 12 then 8 else if n.val < 14 then 16 else 4

def DQueue.push (d : DQueue) (e : QEntry) : DQueue := { d with entries := d.entries ++ [e], pushed := d.pushed + 1 }

def DQueue.pop (d : DQueue) : DQueue := { d with entries := d.entries.tail, popped := d.popped + 1 }

/-- Room for one more entry beside those claimed. -/
def Core.room (k : Core) (n : Fin 16) : Bool := decide (k.queues[n].entries.length + k.queues[n].claimed < queueDepth n)

def Core.onQueue (k : Core) (n : Fin 16) (f : DQueue → DQueue) : Core :=
  { k with queues := k.queues.set n (f k.queues[n]) }

/-- Room in a queue is claimed at issue (R119, R158). -/
def Core.claim (k : Core) (n : Fin 16) : Core := k.onQueue n fun d => { d with claimed := d.claimed + 1 }

/-- A claimed entry arrives. -/
def Core.arrive (k : Core) (n : Fin 16) (e : QEntry) : Core :=
  k.onQueue n fun d => { d with claimed := d.claimed - 1 }.push e

/-! ## Accesses in flight, and what their faults take back (R158, R173, R174) -/

/-- Loads that a sequencer has in flight; for ST its stores too. -/
def Core.inFlight (k : Core) (q : Seq) : Nat :=
  (k.loads.filter fun l => l.seq == q).length + (if q = .st then k.stores.length else 0)

/-- An access that issued before a change of its sequencer, or made it, is in flight: a fault of that access takes the change back. -/
def Core.mayUndo (k : Core) (u : Undone) : Bool :=
  (k.loads.any fun l => l.seq == u.seq && decide (l.id < u.id)) || (u.seq == .st && k.stores.any fun x => decide (x.id < u.id))

/-- A change is remembered while it may yet be taken back. -/
def Core.noteChange (k : Core) (u : Undone) : Core := if k.mayUndo u then { k with undo := k.undo ++ [u] } else k

/-- A change that the current sequencer makes now. -/
def State.change (s : State) (x : Change) : Undone := ⟨s.fresh, s.cur.2, x⟩

/-! ## Branch-outcome queues (R110) -/

def bqDepth : Nat := 16

/-- Outcomes popped from a bq that a late fault may put back (R174). -/
def Core.heldOutcomes (k : Core) (n : Fin 4) : Nat :=
  (k.undo.filter fun u => k.mayUndo u && (match u.what with
    | .outcome m _ => m == n
    | _ => false)).length

def Core.bqRoom (k : Core) (n : Fin 4) : Bool :=
  decide (k.bqs[n].length + (k.ex.pushes.filter fun p => match p.out with
    | .bit m _ => m == n
    | .data _ _ => false).length + k.heldOutcomes n < bqDepth)

def Core.pushBq (k : Core) (n : Fin 4) (b : Bool) : Core := { k with bqs := k.bqs.set n (k.bqs[n] ++ [b]) }

/-! ## What is still under way (R109, R158, R201) -/

/-- A sequencer that has halted, or waits at its copy of a phase end. -/
def SeqSt.atEnd (q : SeqSt) : Bool := q.run == .halted || (q.run == .running && q.copy.isSome && q.wait == .phaseEnd)

/-- Every sequencer has arrived: the phase end begins (R201, R202). -/
def Core.allAtEnd (k : Core) : Bool := Seq.all.all fun q => (k.seq q).atEnd

/-- The phase end at whose copy a sequencer stands has begun (R355). -/
def Core.inEnd (k : Core) (q : Seq) : Bool := (k.seq q).copy.isSome && ((k.seq q).wait != .phaseEnd || k.allAtEnd)

/-- Every load, of LD and of ST, has pushed its entry. -/
def Core.loadsDone (k : Core) : Bool := k.loads.isEmpty

/-- Every store of ST has been performed. -/
def Core.storesDone (k : Core) : Bool := k.stores.isEmpty

end Sys2Proof.Machine
end

