-- ==== Sys2Proof/Machine/Operands.lean ====
section
/-! DEFINITION. Operands of the EX instructions that work on lanes: sources of every kind (R65, R66), queue pops and layout
tags (R120), masks (R116, R118), and WriteLanes to a register or a queue (R76, R119, R134). -/

namespace Sys2Proof.Machine

/-- What a meaning answers. -/
abbrev Out := Host.Outcome State Fault Refusal

/-- The tag of a lane type (R120). -/
def ltyTag : LTy → BitVec 8
  | .i8 => 0x01
  | .n8 | .i16 | .n16 => 0x00
  | .e4m3 => 0x08
  | .e5m2 => 0x09
  | .fp16 => 0x0A
  | .bf16 => 0x0B
  | .fp32 => 0x0C
  | .i32 | .n32 => 0x19

/-- The value a source gives at issue: the bits of a register or a popped entry, or a value broadcast to every lane. -/
inductive VVal where
  | bits (x : Nat) (tag : Option (BitVec 8))
  | word (x : Word)
  | lit (i : BitVec 8)
  deriving DecidableEq, Repr

/-- A literal converted to a lane type (R66). -/
def litCode (t : LTy) (i : BitVec 8) : Nat :=
  match ltyFlt t with
  | some f => roundF f false true .exVector (intF i.toInt)
  | none => wrap t.width i.toInt

/-- Lane l of a source viewed as a lane type (R66, R76). -/
def VVal.lane (x : VVal) (t : LTy) (l : Nat) : Nat :=
  match x with
  | .bits b _ => laneOf b t.width l
  | .word w => w.toNat % 2 ^ t.width
  | .lit i => litCode t i

/-- Field l of width w of a source's bits; 0 for a broadcast source. -/
def VVal.raw (x : VVal) (w l : Nat) : Nat :=
  match x with
  | .bits b _ => laneOf b w l
  | .word y => y.toNat % 2 ^ w
  | .lit i => wrap w i.toInt

/-- Reading one source; a queue is popped (R66). None while its queue is empty. -/
def Core.readV (k : Core) (x : VSrc) : Option (VVal × Core) :=
  match x with
  | .v n => some (.bits k.ex.v[n].toNat none, k)
  | .a n => some (.bits k.ex.a[n].toNat none, k)
  | .sc (.lit i) => some (.lit i, k)
  | .sc y => some (.word (k.src .ex y), k)
  | .q n =>
    let m : Fin 16 := ⟨n.val, by omega⟩
    match k.queues[m].entries with
    | [] => none
    | e :: _ => some (.bits e.data.toNat (some e.tag), k.onQueue m DQueue.pop)

/-- Reading the sources in the order s1, s2, s3. -/
def Core.readAll (k : Core) : List VSrc → Option (List VVal × Core)
  | [] => some ([], k)
  | x :: xs =>
    match k.readV x with
    | none => none
    | some (v, k) =>
      match k.readAll xs with
      | none => none
      | some (vs, k) => some (v :: vs, k)

/-- The queues that sources pop. -/
def popsOf (srcs : List VSrc) : List (Fin 16) :=
  srcs.filterMap fun x => match x with
    | .q n => some ⟨n.val, by omega⟩
    | _ => none

/-- A popped entry's tag agrees with the source type, or is RAW; `none` accepts every tag (R120). -/
def tagsOk (t : Option LTy) (vs : List VVal) : Bool :=
  match t with
  | none => true
  | some t => vs.all fun v => match v with
    | .bits _ (some tag) => tag == 0 || tag == ltyTag t
    | _ => true

/-- A mask register; k0 reads as all ones (R116). -/
def Core.mask (k : Core) (n : Fin 8) : Mask := if n = 0 then BitVec.allOnes 256 else k.ex.k[n]

/-- The queue of a destination q8-q11. -/
def dstQueue (n : Fin 4) : Fin 16 := ⟨8 + n.val, by omega⟩

/-- What an instruction writes: n lanes of width w, which of them it changes, with what, and what a queue entry holds
instead (R76, R134), with the entry's tag (R120). -/
structure LaneOut where
  w     : Nat
  n     : Nat
  en    : Nat → Bool
  data  : Nat → Nat
  qdata : Nat → Nat
  tag   : BitVec 8

/-- WriteLanes (R76): an active lane takes its result; an inactive one takes 0 with mz, keeps its value without, and in a
queue entry takes s1's lane. -/
def writeLanes (w n : Nat) (active : Nat → Bool) (mz : Bool) (res s1 : Nat → Nat) (tag : BitVec 8) : LaneOut where
  w := w
  n := n
  en := fun l => active l || mz
  data := fun l => if active l then res l else 0
  qdata := fun l => if active l then res l else if mz then 0 else s1 l
  tag := tag

/-- The lanes an instruction writes, as bits. -/
def LaneOut.enBits (o : LaneOut) : Nat := pack o.w (fun l => if o.en l then 2 ^ o.w - 1 else 0) o.n
def LaneOut.bits (o : LaneOut) : Nat := pack o.w o.data o.n
def LaneOut.entry (o : LaneOut) : QEntry := ⟨o.tag, BitVec.ofNat 2048 (pack o.w o.qdata o.n), 0⟩

/-- An EX write that is performed outside EX, L clk after issue (R119). -/
def Core.pushLater (k : Core) (clk lat : Nat) (o : ExOut) : Core :=
  { k with ex := { k.ex with pushes := k.ex.pushes ++ [⟨clk + lat, o⟩] } }

/-- Lanes go to a register after the latency in slots, or to a queue after it in clk (R95, R119). -/
def Core.writeV (k : Core) (clk : Nat) (d : VDst) (lat : Nat) (o : LaneOut) : Core :=
  match d with
  | .v n => k.later lat (.v n (BitVec.ofNat 2048 o.enBits) (BitVec.ofNat 2048 o.bits))
  | .a n => k.later lat (.a n (BitVec.ofNat 8192 o.enBits) (BitVec.ofNat 8192 o.bits))
  | .q n => (k.claim (dstQueue n)).pushLater clk lat (.data n o.entry)

/-- Whether a destination has room (R66). -/
def Core.dstRoom (k : Core) (d : VDst) : Bool :=
  match d with
  | .q n => k.room (dstQueue n)
  | _ => true

/-- The queue of a destination. -/
def dstQ (d : VDst) : Option (Fin 16) :=
  match d with
  | .q n => some (dstQueue n)
  | _ => none

/-- An EX instruction on lanes: it blocks until every entry it pops is present and its destination has room (R66), traps on
a tag of another layout and pops nothing (R120), and otherwise pops, computes `out` and issues. -/
def vecOp (srcs : List VSrc) (tagTy : Option LTy) (dst : Option (Fin 16)) (out : Core → List VVal → Core) (s : State) : State :=
  match s.here.readAll srcs with
  | none => s.block (.queueEmpty (popsOf srcs))
  | some (vs, k) =>
    match dst.filter fun n => !s.here.room n with
    | some n => s.block (.destFull n)
    | none =>
      if !tagsOk tagTy vs then s.execTrap .layoutMismatch
      else (s.mod fun _ => out k vs).retire 8

/-- Lanes of a view: 256 in the wide form (R115). -/
def viewLanes (wide : Bool) (t : LTy) : Nat := if wide then 256 else t.lanes

/-- Latency: a wide form adds one (R121). -/
def viewLat (wide : Bool) (lat : Nat) : Nat := if wide then lat + 1 else lat

/-- The i-th value read. -/
def nth (vs : List VVal) (i : Nat) : VVal := vs.getD i (.word 0)

/-- A wide form of VRED, VMAXI, VEXP2, VLOG2, VRCP or VRSQ holds EX for 3 further clk (R121). -/
def Core.wideHold (k : Core) (wide : Bool) (clk : Nat) : Core := if wide then k.holdEx clk 4 else k

/-- Lane instruction of one source: `f` gives the result code from the lane's code. `bits` accepts every tag (R120); `slow` is a form
that holds EX when it is wide (R121). -/
def lane1 (o : V1) (lat : Nat) (bits : Bool) (f : Nat → Nat) (s : State) (slow : Bool := false) : State :=
  let t := o.ty
  let m := s.here.mask o.mask
  vecOp [o.a] (if bits then none else some t) (dstQ o.dst) (fun k vs =>
    let a := (nth vs 0).lane t
    (k.wideHold (slow && o.wide) s.clk).writeV s.clk o.dst (viewLat o.wide lat)
      (writeLanes t.width (viewLanes o.wide t) m.getLsbD o.mz (fun l => f (a l)) a (ltyTag t))) s

/-- Lane instruction of two sources. -/
def lane2 (o : V2) (lat : Nat) (bits : Bool) (f : Nat → Nat → Nat) (s : State) : State :=
  let t := o.ty
  let m := s.here.mask o.mask
  vecOp [o.a, o.b] (if bits then none else some t) (dstQ o.dst) (fun k vs =>
    let a := (nth vs 0).lane t
    let b := (nth vs 1).lane t
    k.writeV s.clk o.dst (viewLat o.wide lat)
      (writeLanes t.width (viewLanes o.wide t) m.getLsbD o.mz (fun l => f (a l) (b l)) a (ltyTag t))) s

/-- Lane instruction of three sources. -/
def lane3 (o : V3) (lat : Nat) (f : Nat → Nat → Nat → Nat) (s : State) : State :=
  let t := o.ty
  let m := s.here.mask o.mask
  vecOp [o.a, o.b, o.c] (some t) (dstQ o.dst) (fun k vs =>
    let a := (nth vs 0).lane t
    let b := (nth vs 1).lane t
    let c := (nth vs 2).lane t
    k.writeV s.clk o.dst (viewLat o.wide lat)
      (writeLanes t.width (viewLanes o.wide t) m.getLsbD o.mz (fun l => f (a l) (b l) (c l)) a (ltyTag t))) s

end Sys2Proof.Machine
end

