-- ==== Sys2Proof/Machine/Layouts.lean ====
section
/-! DEFINITION. Page layouts (R47-R50): where an element lies, its decoding on the way in (R159), its encoding on the way out
(R160), BMV blocks (R162, R163), and what a discarded page reads as (R149). -/

namespace Sys2Proof.Machine

/-! ## Queue-side formats (R152) -/

/-- Bits of an element of a queue-side code; 0 where the code is none. -/
def codeWidth (c : Layout) : Nat :=
  match c.toNat with
  | 0x01 | 0x08 | 0x09 => 8
  | 0x0A | 0x0B => 16
  | 0x0C | 0x19 => 32
  | _ => 0

/-- Elements of a step. -/
def stepElems (c : Layout) : Nat := if codeWidth c = 0 then 256 else 2048 / codeWidth c

/-- The float format of a code. -/
def codeFlt (c : Layout) : Option Flt :=
  match c.toNat with
  | 0x08 => some .e4m3
  | 0x09 => some .e5m2
  | 0x0A => some .fp16
  | 0x0B => some .bf16
  | 0x0C => some .fp32
  | _ => none

/-- The element code of a BMV or EMBC page (R47). -/
def valueCode (page : Layout) : Option Layout :=
  match page.toNat with
  | 0x11 => some 0x0B
  | 0x12 => some 0x08
  | 0x13 => some 0x09
  | 0x15 => some 0x0B
  | 0x16 => some 0x08
  | _ => none

def isBmv (page : Layout) : Bool := page == 0x11 || page == 0x12 || page == 0x13

def isFloat16 (c : Layout) : Bool := c == 0x0A || c == 0x0B

/-- Codes a converting load of a page accepts (R159). `hdr` is the format byte of a KVPG page's header, `row0` its header
row. -/
def loadOk (page code : Layout) (hdr : Byte) (row0 : Bool) : Bool :=
  match page.toNat with
  | 0x01 => isFloat16 code || code == 0x0C
  | 0x02 => code == 0x01 || isFloat16 code
  | 0x03 | 0x04 | 0x05 | 0x06 | 0x07 | 0x08 | 0x09 | 0x0D | 0x0E | 0x0F | 0x10 => isFloat16 code || code == 0x0C
  | 0x0A | 0x0B => (isFloat16 code && code != page) || code == 0x0C
  | 0x0C => isFloat16 code
  | 0x11 => code == 0x0B || code == 0x0C || code == 0x0A
  | 0x12 => code == 0x08 || code == 0x0C
  | 0x13 => code == 0x09 || code == 0x0C
  | 0x15 => code == 0x0B
  | 0x16 => code == 0x08
  | 0x1A => !row0 && code.setWidth 8 == hdr && (code == 0x0B || code == 0x08)
  | _ => false

/-- Pairs of a converting store (R160). -/
def storeOk (page code : Layout) : Bool :=
  match page.toNat with
  | 0x01 => code == 0x19
  | 0x08 | 0x09 => isFloat16 code || code == 0x0C
  | 0x0A | 0x0B => (isFloat16 code && code != page) || code == 0x0C
  | 0x11 => code == 0x0B
  | 0x12 => code == 0x08
  | 0x13 => code == 0x09
  | _ => false

/-! ## Positions (R49) -/

/-- Elements of a 256-B unit and bits of an element. -/
def unitOf (page : Layout) (code : Layout) : Nat × Nat :=
  match page.toNat with
  | 0x01 => (256, 8)
  | 0x02 => (512, 4)
  | 0x03 | 0x04 | 0x05 => (384, 4)
  | 0x06 | 0x07 => (192, 8)
  | 0x08 | 0x09 => (256, 8)
  | 0x0A | 0x0B => (128, 16)
  | 0x0C => (64, 32)
  | 0x0D => (456, 4)
  | 0x0E => (480, 4)
  | 0x0F | 0x10 => (224, 8)
  | _ => (2048 / codeWidth code, codeWidth code)

/-- Bytes `lo` to `hi - 1` of a row. -/
def byteMask (lo hi : Nat) : Row := BitVec.ofNat 2048 ((2 ^ (8 * (hi - lo)) - 1) * 2 ^ (8 * lo))

/-- Byte 3 of each of n metadata entries, and the entries after them. -/
def entryMask (n : Nat) : Row :=
  (List.range n).foldl (fun m g => m ||| byteMask (195 + 4 * g) (196 + 4 * g)) (byteMask (192 + 4 * n) 256)

/-- The reserved bytes of a page's 256-B units, which stores write as zero (R49). -/
def reservedMask (page : Layout) : Row :=
  match page.toNat with
  | 0x03 => entryMask 12
  | 0x04 | 0x06 => entryMask 6
  | 0x05 | 0x07 => entryMask 3
  | 0x0D => byteMask 247 256
  | 0x0E => byteMask 255 256
  | 0x0F | 0x10 => byteMask 231 256
  | _ => 0

/-- Bit position of element i from the row origin. -/
def elemPos (page code : Layout) (i : Nat) : Nat :=
  let (n, w) := unitOf page code
  2048 * (i / n) + w * (i % n)

/-- Bit position of the metadata of element i: its block's scale byte, its group's entry. -/
def metaPos (page : Layout) (i : Nat) : Option Nat :=
  match page.toNat with
  | 0x03 => some (2048 * (i / 384) + 8 * (192 + 4 * (i % 384 / 32)))
  | 0x04 => some (2048 * (i / 384) + 8 * (192 + 4 * (i % 384 / 64)))
  | 0x05 => some (2048 * (i / 384) + 8 * (192 + 4 * (i % 384 / 128)))
  | 0x06 => some (2048 * (i / 192) + 8 * (192 + 4 * (i % 192 / 32)))
  | 0x07 => some (2048 * (i / 192) + 8 * (192 + 4 * (i % 192 / 64)))
  | 0x0D => some (2048 * (i / 456) + 8 * (228 + i % 456 / 24))
  | 0x0E => some (2048 * (i / 480) + 8 * (240 + i % 480 / 32))
  | 0x0F | 0x10 => some (2048 * (i / 224) + 8 * (224 + i % 224 / 32))
  | _ => none

/-- Rows, from the row origin, that elements `first` to `first + n - 1` below the extent lie in. -/
def stepRows (page code : Layout) (first n e0 : Nat) : List Nat :=
  let hi := if e0 = 0 then first + n else min (first + n) e0
  if hi ≤ first then []
  else
    let lo := elemPos page code first / 2048
    (List.range (elemPos page code (hi - 1) / 2048 + 1 - lo)).map (lo + ·)

/-- Sectors of a row that present elements or their metadata lie in. -/
def stepSectors (page code : Layout) (first n e0 row : Nat) : BitVec 8 :=
  let hi := if e0 = 0 then first + n else min (first + n) e0
  (List.range (hi - first)).foldl (fun m l =>
    let p := elemPos page code (first + l)
    let m := if p / 2048 = row then m ||| (1 <<< (p % 2048 / 256)) else m
    match metaPos page (first + l) with
    | some q => if q / 2048 = row then m ||| (1 <<< (q % 2048 / 256)) else m
    | none => m) 0

/-! ## Decoding (R26, R27, R33, R34, R159) -/

/-- Field of w bits at a bit position. -/
def fieldAt (x pos w : Nat) : Nat := (x >>> pos) % 2 ^ w

/-- A scale byte times an element; 0xFF makes the element a plain NaN (R33, R40). -/
def scaled (scale : Nat) (x : FV) : FV :=
  match scaleExp scale with
  | none => .nan (nanBits false 0 0 0)
  | some k => mulF .ldDecode (powF k) x

/-- The value of element i of a page, from the bits that start at its row origin. -/
def elemValue (page code : Layout) (x i : Nat) : FV :=
  let p := elemPos page code i
  let m := (metaPos page i).getD 0
  match page.toNat with
  | 0x01 => intF (sval 8 (fieldAt x p 8))
  | 0x02 => intF (sval 4 (fieldAt x p 4))
  | 0x03 | 0x04 | 0x05 =>
    mulF .ldDecode (decodeF .fp16 (fieldAt x m 16)) (intF ((fieldAt x p 4 : Int) - (fieldAt x (m + 16) 4 : Int)))
  | 0x06 | 0x07 =>
    mulF .ldDecode (decodeF .fp16 (fieldAt x m 16)) (intF ((fieldAt x p 8 : Int) - (fieldAt x (m + 16) 8 : Int)))
  | 0x0D | 0x0E => scaled (fieldAt x m 8) (decodeF .e2m1 (fieldAt x p 4))
  | 0x0F => scaled (fieldAt x m 8) (decodeF .e4m3 (fieldAt x p 8))
  | 0x10 => scaled (fieldAt x m 8) (decodeF .e5m2 (fieldAt x p 8))
  | _ =>
    match codeFlt page with
    | some f => decodeF f (fieldAt x p f.width)
    | none => intF 0

/-- A value in a queue-side code. -/
def encodeCode (code : Layout) (rz sat : Bool) (u : SrcUnit) (v : FV) : Nat :=
  match codeFlt code with
  | some f => roundF f rz sat u v
  | none => toIntCode (codeWidth code) true rz v

/-- Whether a page's elements already have the form they are delivered in. -/
def sameForm (page : Layout) : Bool := page == 0x15 || page == 0x16 || page == 0x1A

/-- The entry of a converting load: elements `first` to `first + n - 1`, edges as +0 (R159, R161). -/
def decodeStep (f : Fmt) (x : Nat) : Row :=
  let w := codeWidth f.code
  BitVec.ofNat 2048 (pack w (fun l =>
    let i := f.first + l
    if f.e0 ≠ 0 ∧ f.e0 ≤ i then 0
    else if sameForm f.page then fieldAt x (w * i) w
    else encodeCode f.code f.rz f.sat .ldDecode (elemValue f.page f.code x i)) f.n)

/-! ## Encoding (R160) -/

/-- The value of a lane of an entry. -/
def laneValue (code : Layout) (x : Nat) : FV :=
  match codeFlt code with
  | some f => decodeF f x
  | none => intF (sval (codeWidth code) x)

/-- One element in its page's form. -/
def encodeElem (f : Fmt) (x : Nat) : Nat :=
  match codeFlt f.page with
  | some t => roundF t f.rz f.sat .stEncode (laneValue f.code x)
  | none => satCode 8 true (sval 32 x)

/-- Bits written and their mask, from the row origin, for a converting store: edge elements write nothing (R161). -/
def encodeStep (f : Fmt) (entry : Nat) : Nat × Nat :=
  let w := codeWidth f.code
  (List.range f.n).foldl (fun (acc : Nat × Nat) l =>
    let i := f.first + l
    if f.e0 ≠ 0 ∧ f.e0 ≤ i then acc
    else
      let p := elemPos f.page f.code i
      let v := (unitOf f.page f.code).2
      (acc.1 + encodeElem f (fieldAt entry (w * l) w) * 2 ^ p, acc.2 + (2 ^ v - 1) * 2 ^ p)) (0, 0)

/-! ## BMV blocks (R50, R162, R163) -/

def bmvNnz (x : Nat) : Nat := fieldAt x 0 16
def bmvExtent (x : Nat) : Nat := fieldAt x 16 16
def bmvCap (x : Nat) : Nat := fieldAt x 32 16
def bmvMask (x : Nat) : Nat := fieldAt x 64 512

/-- Bytes of a value. -/
def bmvSize (page : Layout) : Nat := if page = 0x11 then 2 else 1

/-- A bad header: what R163 names, and reserved bytes 6-7 that are not zero (R5, R50). -/
def bmvBad (page : Layout) (x : Nat) : Bool :=
  fieldAt x 48 16 != 0 || decide (bmvExtent x < 1 ∨ 512 < bmvExtent x) || decide (bmvCap x < 1 ∨ 4 < bmvCap x) ||
    decide (bmvNnz x ≠ popCount (bmvMask x) 512) || decide (bmvCap x * 256 < 72 + bmvNnz x * bmvSize page) ||
    decide (bmvMask x >>> bmvExtent x ≠ 0)

/-- The entry of a BMV load (R163). -/
def decodeBmv (f : Fmt) (x : Nat) : Row :=
  let size := bmvSize f.page
  let w := codeWidth f.code
  let src := (valueCode f.page).getD 0
  BitVec.ofNat 2048 (pack w (fun l =>
    let i := f.first + l
    if (f.e0 ≠ 0 ∧ f.e0 ≤ i) ∨ bmvExtent x ≤ i ∨ fieldAt (bmvMask x) i 1 = 0 then 0
    else
      let v := fieldAt x (8 * (72 + popCount (bmvMask x) i * size)) (8 * size)
      if f.code = src then v else encodeCode f.code f.rz f.sat .ldDecode (laneValue src v)) f.n)

/-- What a BMV store does: a trap, or the block's new bits and the mask of the bytes it writes (R162). -/
inductive BmvOut where
  | trap (c : Cause)
  | block (bits mask : Nat)
  deriving DecidableEq, Repr

/-- StoreBMV of R162: `x` is the block as it stands. A header that a step after the first reads with its reserved bytes not zero is bad
(R5, R50; DEDUCED, log 77). -/
def storeBmv (f : Fmt) (entry x : Nat) : BmvOut :=
  let size := bmvSize f.page
  let w := 8 * size
  let j := f.first / f.n
  if f.geom < 1 ∨ 4 < f.geom ∨ f.e0 < 1 ∨ 512 < f.e0 then .trap .reservedOperand
  else if j ≠ 0 ∧ fieldAt x 48 16 ≠ 0 then .trap .badBlockHeader
  else if j ≠ 0 ∧ (bmvCap x ≠ f.geom ∨ bmvExtent x ≠ f.e0 ∨ bmvMask x >>> f.first ≠ 0) then .trap .formatOrder
  else
    let nnz := if j = 0 then 0 else bmvNnz x
    let lanes := (List.range f.n).filter fun l =>
      decide (f.first + l < f.e0) && decide (fieldAt entry (w * l) (w - 1) ≠ 0)
    if f.geom * 256 < 72 + (nnz + lanes.length) * size then .trap .formatOverflow
    else
      let mask0 := if j = 0 then 0 else bmvMask x
      let mask := lanes.foldl (fun m l => m ||| 2 ^ (f.first + l)) mask0
      let vals := lanes.foldl (fun (v : Nat × Nat) l => (v.1 + fieldAt entry (w * l) w * 2 ^ (w * v.2), v.2 + 1)) (0, 0)
      let start := 72 + nnz * size
      let hdr := (nnz + lanes.length) + f.e0 * 2 ^ 16 + f.geom * 2 ^ 32
      let bits := hdr + mask * 2 ^ 64 + fieldAt x 576 (8 * (start - 72)) * 2 ^ 576 + vals.1 * 2 ^ (8 * start)
      let maskBytes := if j = 0 then (2 ^ 512 - 1) * 2 ^ 64
        else lanes.foldl (fun m l => m ||| 0xFF * 2 ^ (8 * (8 + (f.first + l) / 8))) 0
      .block bits ((2 ^ 64 - 1) ||| maskBytes ||| (2 ^ (8 * (f.geom * 256 - start)) - 1) * 2 ^ (8 * start))

/-! ## KVPG headers (R51) -/

/-- A KVPG header that fails R51. -/
def kvBad (x : Nat) : Bool :=
  fieldAt x 255 1 == 1 || decide (255 < fieldAt x 288 16) || (fieldAt x 304 8 != 0x0B && fieldAt x 304 8 != 0x08) || x >>> 312 != 0

def kvLive (x j : Nat) : Bool := fieldAt x j 1 == 1 && decide (j < fieldAt x 288 16)

/-! ## Discarded pages (R47, R149) -/

/-- The NaN of a discarded page in a float format. -/
def discardNan (f : Flt) : Nat := narrowNan f (evNan false .discarded .memory 0)

/-- A row of a discarded page in its stored layout. `slot` is the element format of a KVPG slot, if it is a slot row. -/
def discardRow (page : Layout) (slot : Option Layout) : Row :=
  let fill : Flt → Row := fun f => BitVec.ofNat 2048 (pack f.width (fun _ => discardNan f) (2048 / f.width))
  let ones : Nat → Nat → Row := fun lo hi => BitVec.ofNat 2048 ((2 ^ (8 * (hi - lo)) - 1) * 2 ^ (8 * lo))
  match page.toNat with
  | 0x08 | 0x12 | 0x16 => fill .e4m3
  | 0x09 | 0x13 => fill .e5m2
  | 0x0A => fill .fp16
  | 0x0B | 0x11 | 0x15 => fill .bf16
  | 0x0C => fill .fp32
  | 0x0D => ones 228 247
  | 0x0E => ones 240 255
  | 0x0F | 0x10 => ones 224 231
  | 0x1A => match slot with
    | some c => (match codeFlt c with
      | some f => fill f
      | none => 0)
    | none => 0
  | _ => 0

end Sys2Proof.Machine
end

