-- ==== Sys2Proof/Machine/Uses.lean ====
section
/-! DEFINITION. What an instruction names: the registers and queues that it reads at issue, and the register that it writes whole. The
checks of R364 on register files and queues go by it, and what the checker of CTL is fed (R377). -/

namespace Sys2Proof

/-- Registers of each file, and queues, in the order of an instruction's fields. -/
structure Uses where
  s  : List (Fin 32) := []
  c  : List (Fin 256) := []
  v  : List (Fin 64) := []
  a  : List (Fin 64) := []
  k  : List (Fin 8) := []
  q  : List (Fin 16) := []
  sh : List (Fin 16) := []
  b  : List (Fin 8) := []
  deriving DecidableEq, Repr

/-- Both. -/
def Uses.and (x y : Uses) : Uses :=
  ⟨x.s ++ y.s, x.c ++ y.c, x.v ++ y.v, x.a ++ y.a, x.k ++ y.k, x.q ++ y.q, x.sh ++ y.sh, x.b ++ y.b⟩

def usesS (n : Fin 32) : Uses := { s := [n] }
def usesA (n : Fin 64) : Uses := { a := [n] }
def usesK (n : Fin 8) : Uses := { k := [n] }
def usesQ (n : Fin 16) : Uses := { q := [n] }
def usesSh (n : Fin 16) : Uses := { sh := [n] }

def SSrc.uses (x : SSrc) : Uses :=
  match x with
  | .s n => usesS n
  | .c n => { c := [n] }
  | .lit _ => {}

def VSrc.uses (x : VSrc) : Uses :=
  match x with
  | .v n => { v := [n] }
  | .a n => usesA n
  | .q n => usesQ ⟨n.val, by omega⟩
  | .sc x => x.uses

def S1.uses (o : S1) : Uses := o.a.uses
def S2.uses (o : S2) : Uses := o.a.uses.and o.b.uses
def S3.uses (o : S3) : Uses := (o.a.uses.and o.b.uses).and o.c.uses
def V1.uses (o : V1) : Uses := (usesK o.mask).and o.a.uses
def V2.uses (o : V2) : Uses := ((usesK o.mask).and o.a.uses).and o.b.uses
def V3.uses (o : V3) : Uses := (((usesK o.mask).and o.a.uses).and o.b.uses).and o.c.uses
def VCmp.uses (o : VCmp) : Uses := ((usesK o.mask).and o.x.uses).and o.y.uses
def VRed.uses (o : VRed) : Uses := (usesK o.mask).and o.a.uses
def VPk.uses (o : VPk) : Uses := ((usesK o.mask).and o.a.uses).and ((o.scale.map VSrc.uses).getD {})
def MOp.uses (o : MOp) : Uses := (usesS o.base).and (usesSh o.sh)

/-- The five scalar registers and the shape register of a command (R62). -/
def CCmd.uses (o : CCmd) : Uses := { s := [o.sa, o.sb, o.sc, o.hitch, o.nb], sh := [o.sh] }

/-- A term source: v0-v63, then a0-a63 (R251). -/
def termUses (n : Fin 128) : Uses := if h : n.val < 64 then { v := [⟨n.val, h⟩] } else { a := [⟨n.val - 64, by omega⟩] }

def Slot.uses (x : Slot) : Uses :=
  match x with
  | .nop | .tclr _ => {}
  | .tmac d src _ | .tadd d src => (usesA d).and (termUses src)
  | .tpair _ x y => (termUses x).and (termUses y)
  | .tset _ src => termUses src
  | .tscl f p _ => (usesA f).and (usesA p)

/-- What an instruction reads when it issues, on the sequencer that runs it. -/
def Instr.uses (i : Instr) : Uses :=
  match i with
  | .add o | .sub o | .mul o | .mulh o | .and o | .or o | .xor o | .shl o | .shr o | .sra o | .min o | .max o | .cmp o _ => o.uses
  | .sel o => o.uses
  | .popc o | .clz o => o.uses
  | .lih dst _ => usesS dst
  | .bc c _ => match c with
    | .al => {}
    | .cmp _ x y => x.uses.and y.uses
  | .jr _ base _ | .ret base => base.uses
  | .loop _ src _ | .lexit src | .bqp src _ | .cbw _ src | .mtsr src _ => src.uses
  | .ldr o | .ldl o | .lds o => o.uses
  | .str o | .stl o | .strm o => o.uses.and (usesQ o.q)
  | .spr o | .spw o => usesS o.base
  | .snd o => (usesS o.base).and (usesQ o.q)
  | .ldt delta base sh _ _ => ((usesS base).and (usesSh sh)).and (usesSh delta)
  | .pref base sh _ _ _ | .tcut _ _ base sh _ | .tfol _ base sh _ _ => (usesS base).and (usesSh sh)
  | .trd _ _ base _ _ => usesS base
  | .bget _ b => { b := [b] }
  | .bset _ src => usesS src
  | .shld _ src => match src with
    | .mem base _ => usesS base
    | .queue q => usesQ q
  | .shset _ _ base _ => usesS base
  | .shget _ sh _ => usesSh sh
  | .smap _ base _ _ _ => usesS base
  | .vadd _ o | .vsub _ o | .vmul _ o | .vmulh o | .vmin o | .vmax o | .vand o | .vor o | .vxor o | .vshl o | .vshlSat o
  | .vshr o | .vsra o | .vfadd _ _ o | .vfsub _ _ o | .vfmul _ _ o | .vfmin o | .vfmax o | .vperm o => o.uses
  | .vabs _ o | .vneg _ o | .vnot o | .vpopc o | .vfabs o | .vfneg o | .vmov o | .vcvt _ _ _ o _ | .vexp2 o | .vlog2 o | .vrcp o
  | .vrsq o | .vcls o | .amov o _ => o.uses
  | .vfma _ _ o | .vfms _ _ o | .vfnma _ _ o => o.uses
  | .vcmpEq o | .vcmpNe o | .vcmpLt o | .vcmpLe o | .vcmpGt o | .vcmpGe o | .vcmpUn o => o.uses
  | .kand _ a b | .kor _ a b | .kxor _ a b => (usesK a).and (usesK b)
  | .knot _ a | .kmov _ a | .kpopc _ a => usesK a
  | .vsel o k => o.uses.and (usesK k)
  | .vbcast _ _ mask _ f => (usesK mask).and (match f with
    | .lane a _ => a.uses
    | .index base _ => base.uses)
  | .vrot o n => o.uses.and n.uses
  | .vrmg _ mask _ a b n => (((usesK mask).and a.uses).and b.uses).and n.uses
  | .vpack o | .vunpk o => o.uses
  | .vbsc _ _ mask _ a => (usesK mask).and a.uses
  | .vredAdd o | .vredMin o | .vredMax o | .vredAnd o | .vredOr o | .vredXor o | .vredFadd o | .vredFmin o | .vredFmax o
  | .vmaxi o => o.uses
  | .vbq _ mask a _ _ => (usesK mask).and a.uses
  | .defer mask stage t a g => { s := [stage], a := [t, a, g], k := [mask] }
  | .aclr mask _ => usesK mask
  | .acvt _ _ mask _ a _ => (usesK mask).and (usesA a)
  | .tb _ slots => slots.foldl (fun u x => u.and (Slot.uses x)) {}
  | .rcfg c | .tcfg c | .tgo c | .twait c | .tstat c | .tdisc c | .gather c | .scatter c | .pool c | .copy c | .fill c
  | .aowAddi32 c | .aowAddi64 c | .aowAddf32 c | .aowMax c | .aowMin c | .aowAnd c | .aowOr c | .aowXor c | .aowSwap c
  | .cas c | .selk c | .nbt c | .coll c | .cgen c | .clock c | .cunlk c | .cpref c | .cswap c | .dflush c | .lenq c
  | .stgq c => c.uses
  | .hinit h _ | .harv h _ | .hwait _ h _ => usesS h
  | _ => {}

/-- The scalar register that an instruction writes whole as it issues, EX apart. -/
def Instr.sdst (i : Instr) : Option (Fin 32) :=
  match i with
  | .add o | .sub o | .mul o | .mulh o | .and o | .or o | .xor o | .shl o | .shr o | .sra o | .min o | .max o | .cmp o _ => some o.dst
  | .sel o => some o.dst
  | .popc o | .clz o => some o.dst
  | .li d _ | .lih d _ | .call d _ | .jr d _ _ | .tokt d _ _ | .mfsr d _ | .drain d _ _ | .bget d _ | .shget d _ _ | .hwait d _ _
  | .rpop d _ _ | .rtry d _ _ => some d
  | _ => none

end Sys2Proof
end

