-- ==== Sys2Proof/Machine/Guard.lean ====
section
/-! DEFINITION. Errors in the units that have a check of their own beside the sectors of memory and of scratchpad rows (R363-R365, R367,
R371): register words, queue entries and their tags, tags of rows and of L2 lines, LATT entries and decoded micro-ops. The sectors of
code L1 lines and of tiles are checked where they are read. -/

namespace Sys2Proof.Machine

/-! ## Flips of a unit -/

/-- The flipped bits of a unit. -/
def State.flipsAt (s : State) (c : CoreId) (u : Guarded) : List Nat :=
  ((s.errs.find? fun e => e.core == c && e.unit == u).map (·.flips)).getD []

/-- The flipped bits of a unit set anew; none where it is written or corrected. -/
def State.setErr (s : State) (c : CoreId) (u : Guarded) (flips : List Nat) : State :=
  if s.errs.isEmpty && flips.isEmpty then s
  else
    { s with errs := (s.errs.filter fun e => !(e.core == c && e.unit == u)) ++ if flips.isEmpty then [] else [⟨c, u, flips⟩] }

/-- Positions flipped among those flipped before. -/
def toggle (old new : List Nat) : List Nat :=
  new.foldl (fun f p => if f.contains p then f.filter (· != p) else f ++ [p]) old

/-! ## Contents -/

def rowSector (d : Row) (i : Nat) : BitVec 256 := d.extractLsb' (256 * i) 256
def setRowSector (d : Row) (i : Nat) (x : BitVec 256) : Row :=
  (d &&& ~~~((BitVec.allOnes 256).setWidth 2048 <<< (256 * i))) ||| (x.setWidth 2048 <<< (256 * i))

/-- The entry of a queue at a place in the order of pops. -/
def DQueue.entryAt (d : DQueue) (place : BitVec 16) : Option QEntry := d.entries[(place - d.popped).toNat]?

/-- The same, changed. -/
def DQueue.setEntry (d : DQueue) (place : BitVec 16) (f : QEntry → QEntry) : DQueue :=
  { d with entries := d.entries.modify (place - d.popped).toNat f }

/-- A 64-bit word of a vector or accumulator. -/
def wordIn {n : Nat} (x : BitVec n) (w : Nat) : Nat := (x.toNat >>> (64 * w)) % 2 ^ 64
def setWordIn {n : Nat} (x : BitVec n) (w : Nat) (y : Word) : BitVec n :=
  (x &&& ~~~(BitVec.ofNat n ((2 ^ 64 - 1) * 2 ^ (64 * w)))) ||| BitVec.ofNat n (y.toNat * 2 ^ (64 * w))

/-- What a unit of a core holds; none where there is no such unit now. -/
def Core.content (k : Core) (u : Guarded) : Option Nat :=
  match u with
  | .s q n => some (k.seq q).regs[n].toNat
  | .c n => some k.consts[n].toNat
  | .sh n f => some (k.shapes[n])[f].toNat
  | .b n => some k.bounds[n].toNat
  | .v n w => some (wordIn k.ex.v[n] w)
  | .a n w => some (wordIn k.ex.a[n] w)
  | .k n w => some (wordIn k.ex.k[n] w)
  | .entry q p i => (k.queues[q].entryAt p).map fun e => (rowSector e.data i).toNat
  | .entryTag q p => (k.queues[q].entryAt p).map fun e => e.tag.toNat * 4 + e.mark.toNat
  | .rowTag r => some (k.pad[r].tag.toNat * 4 + k.pad[r].mark.toNat)
  | .tile t r i => some (rowSector k.tens.tiles[t].rows[r] i).toNat
  | .code ctx line i => (k.codeL1.find? fun l => l.ctx == ctx && l.line == line).map fun l => (lineSector l.data i).toNat
  | .latt ctx vpn => (k.latt.find? fun e => e.ctx == ctx && e.vpn == vpn).map (·.frame)
  | .op ctx pc => (k.codeL1.find? fun l => l.ctx == ctx && l.line == pc.extractLsb' 7 41).map fun l => l.data.toNat
  | .lineTag _ => none

/-- What a unit holds, the tags of a line among them. -/
def State.content (s : State) (c : CoreId) (u : Guarded) : Option Nat :=
  match u with
  | .lineTag la => (s.lineAt la).map fun l => l.tag.toNat * 1024 + l.owner.toNat
  | u => (s.core c).content u

/-- Bits of a unit that is there flip from outside (R364). The tags of a line stand under core 0. -/
def State.strike (s : State) (c : CoreId) (u : Guarded) (flips : List Nat) : State :=
  let c := match u with
    | .lineTag _ => 0
    | _ => c
  if (s.content c u).isNone then s else s.setErr c u (toggle (s.flipsAt c u) flips)

/-- A word or a tag of a core takes a value. -/
def Core.setContent (k : Core) (u : Guarded) (x : BitVec 256) : Core :=
  let w : Word := x.setWidth 64
  match u with
  | .s q n => k.onSeq q fun st => st.setReg n w
  | .c n => { k with consts := k.consts.set n w }
  | .sh n f => { k with shapes := k.shapes.set n (k.shapes[n].set f w) }
  | .b n => { k with bounds := k.bounds.set n w }
  | .v n i => { k with ex := { k.ex with v := k.ex.v.set n (setWordIn k.ex.v[n] i w) } }
  | .a n i => { k with ex := { k.ex with a := k.ex.a.set n (setWordIn k.ex.a[n] i w) } }
  | .k n i => { k with ex := { k.ex with k := k.ex.k.set n (setWordIn k.ex.k[n] i w) } }
  | .entryTag q p => k.onQueue q fun d => d.setEntry p fun e => { e with tag := x.setWidth 8, mark := x.extractLsb' 8 2 }
  | .rowTag r => { k with pad := k.pad.set r { k.pad[r] with tag := x.setWidth 6, mark := x.extractLsb' 8 2 } }
  | _ => k

/-! ## SEC-DED words (R364, R367, R371) -/

/-- The array number of a unit in the log (R376). -/
def Guarded.array (u : Guarded) : Nat :=
  match u with
  | .entry _ _ _ | .entryTag _ _ => 3
  | .rowTag _ => 2
  | .tile _ _ _ => 7
  | .code _ _ _ | .latt _ _ | .op _ _ => 5
  | .lineTag _ => 1
  | _ => 4

/-- Where an error of a unit of a core is logged: a row by its address; else the core's own first row, whose place names the core
(R376 gives no address for these arrays: DESIGN CHOICE, log 98). -/
def Guarded.place (u : Guarded) (c : CoreId) : Place :=
  { padPlace c (match u with
    | .rowTag r => r.val
    | _ => 0) with array := u.array }

/-- The context that claims a row of a core (R168). -/
def State.claimant (s : State) (c : CoreId) (r : Nat) : Option Ctx :=
  match (s.core c).strand with
  | some st => if r < st.rows then some st.ctx else none
  | none => none

/-- Whom an error of a unit of a core is charged to (R371). -/
def State.owes (s : State) (c : CoreId) (u : Guarded) : Option Ctx :=
  match u with
  | .rowTag r => s.claimant c r.val
  | _ => (s.core c).strand.map (·.ctx)

/-- A unit of a core is lost: logged, and charged where a strand is there to charge. -/
def State.loseUnit (s : State) (c : CoreId) (u : Guarded) (pc : Word) : State :=
  let who := s.owes c u
  let s := s.log 3 (u.place c) false { noFlags with term := who.isSome, unknown := who.isNone } (who.getD 0) pc
  match who with
  | some x => s.charge x
  | none => s

/-- What the check of a SEC-DED word comes to. -/
inductive WordCheck where
  | clean | fixed | lost
  | wrong (x : BitVec 256)
  deriving DecidableEq, Repr

/-- One flip is corrected, two are detected; of three or more the outcome is open: detected, or missed with a free value in the word
(R364, log 6). -/
def State.examineWord (s : State) (flips : List Nat) : State × WordCheck :=
  match flips with
  | [] => (s, .clean)
  | [_] => (s, .fixed)
  | [_, _] => (s, .lost)
  | _ =>
    let (n, s) := s.free
    (s, if Config.freeDetect n then .lost else .wrong (Config.freeValue n))

/-- The check of a word or tag of a core as it is read; true where it is lost. -/
def State.checkWord (s : State) (c : CoreId) (u : Guarded) (pc : Word) : State × Bool :=
  match s.examineWord (s.flipsAt c u) with
  | (s, .clean) => (s, false)
  | (s, .fixed) => ((s.setErr c u []).log 0 (u.place c) false noFlags 0 pc, false)
  | (s, .wrong x) => ((s.setErr c u []).onCore c fun k => k.setContent u x, false)
  | (s, .lost) => (s.loseUnit c u pc, true)

/-! ## Queue entries (R56, R364, R367) -/

/-- The check of a sector of a queue's entry as it is popped; what it delivers is what the entry then holds. -/
def State.checkEntry (s : State) (c : CoreId) (q : Fin 16) (p : BitVec 16) (i : Fin 8) (pc : Word) : State :=
  let u : Guarded := .entry q p i
  match (s.core c).queues[q].entryAt p with
  | none => s
  | some e =>
    let (s, f, x) := s.examine ⟨e.tag.setWidth 6, e.mark, i.val, false⟩ false (s.flipsAt c u) (rowSector e.data i)
    if f.sev = .sv3 then s.loseUnit c u pc
    else
      let s := if f.sev = .clean then s else s.log f.sev.num (u.place c) false noFlags 0 pc
      (s.setErr c u []).onCore c fun k => k.onQueue q fun d => d.setEntry p fun e => { e with data := setRowSector e.data i x }

/-! ## Parity: LATT entries and micro-ops (R363, R365) -/

/-- A LATT entry as it is read: parity finds an odd number of flips, and the entry goes to be fetched again; an even number leaves a
wrong value in it. -/
def State.checkLatt (s : State) (c : CoreId) (ctx : Ctx) (vpn : Nat) (pc : Word) : State :=
  let u : Guarded := .latt ctx vpn
  let hit : LattPage → Bool := fun e => e.ctx == ctx && e.vpn == vpn
  let fl := s.flipsAt c u
  if fl.isEmpty then s
  else
    let s := s.setErr c u []
    if fl.length % 2 = 1 then
      (s.log 0 (u.place c) false noFlags 0 pc).onCore c fun k => { k with latt := k.latt.filter fun e => !hit e }
    else
      let (n, s) := s.free
      let x := Config.freeValue n
      let wrong : LattPage → LattPage := fun e =>
        { e with frame := (x.extractLsb' 0 31).toNat, splice := if x.getLsbD 31 then some (x.extractLsb' 64 64) else none }
      s.onCore c fun k => { k with latt := k.latt.map fun e => if hit e then wrong e else e }

/-- The decoded micro-op of a bundle as it is run: parity finds an odd number of flips, and its line goes to be fetched again (R228); an
even number leaves other slots in it. -/
def State.checkOp (s : State) (c : CoreId) (ctx : Ctx) (pc : Word) (i : Instr) : State × Option Instr :=
  let u : Guarded := .op ctx pc
  let fl := s.flipsAt c u
  if fl.isEmpty then (s, some i)
  else
    let s := s.setErr c u []
    if fl.length % 2 = 1 then
      ((s.log 0 (u.place c) false noFlags 0 pc).onCore c fun k =>
        { k with codeL1 := k.codeL1.filter fun l => !(l.ctx == ctx && l.line == pc.extractLsb' 7 41) }, none)
    else
      match i with
      | .tb tsm slots =>
        let (n, s) := s.free
        let x := Config.freeValue n
        (s, some (.tb tsm ((slotsOf (rawSlots (x.extractLsb' 0 64) (x.extractLsb' 64 64))).getD slots)))
      | i => (s, some i)

/-! ## The tags of an L2 line (R363, R365, R371, R373) -/

/-- A dirty line whose tags are lost: nobody is charged, and every dirty sector of it is stamped lost (R371). -/
def State.loseTags (s : State) (l : L2Line) (pc : Word) : State :=
  let s := (List.range 4).foldl (fun (s : State) i =>
    if l.dirty.getLsbD i then
      (s.log 3 (l2Place l i) false ⟨true, s.retires, s.rel.relpol.getLsbD 6, false, true⟩ 0 pc).setWord (4 * l.la + i) ⟨lostStamp, 0, 0, []⟩
    else s) s
  let s := s.dropLine l.la
  let s := if s.rel.relpol.getLsbD 6 then s.quarantine l.wayId else s
  s.retireFrame (128 * l.la)

/-- The tags of a line as it is looked up: corrected, which counts toward CETH as any corrected error on the way does; or lost, where a
clean line goes to be filled again. -/
def State.checkTags (s : State) (la : Nat) (pc : Word) : State :=
  let u : Guarded := .lineTag la
  if s.errs.isEmpty then s
  else
    match s.lineAt la with
    | none => s
    | some l =>
      match s.examineWord (s.flipsAt 0 u) with
      | (s, .clean) => s
      | (s, .fixed) =>
        let s := (s.setErr 0 u []).log 0 (l2Place l 0) false { noFlags with dirty := l.dirty != 0 } 0 pc
        let s := { s with rel := { s.rel with corr := l.wayId :: s.rel.corr } }
        if s.overCeth l.wayId then s.flushOut l pc else s
      | (s, .wrong x) => (s.setErr 0 u []).setLine { l with tag := x.setWidth 6, owner := x.extractLsb' 6 10 }
      | (s, .lost) =>
        let s := s.setErr 0 u []
        if l.dirty = 0 then (s.dropLine la).log 0 (l2Place l 0) false noFlags 0 pc else s.loseTags l pc

/-! ## What an instruction reads -/

/-- Whether the current instruction reads a unit: of the register files, and the heads of its queues. -/
def State.readsUnit (s : State) (i : Instr) (u : Guarded) : Bool :=
  let x := i.uses
  match u with
  | .s q n => q == s.cur.2 && x.s.contains n && n != 0
  | .c n => x.c.contains n
  | .sh n _ => x.sh.contains n
  | .b n => x.b.contains n
  | .v n _ => x.v.contains n
  | .a n _ => x.a.contains n
  | .k n _ => x.k.contains n
  | .entry q p _ | .entryTag q p => x.q.contains q && p == s.here.queues[q].popped
  | _ => false

/-- The checks of all that the current instruction reads (R364). -/
def State.checkUses (s : State) (i : Instr) : State :=
  let c := s.cur.1
  let pc := s.me.pc
  (s.errs.filter fun e => e.core == c && s.readsUnit i e.unit).foldl (fun s e =>
    match e.unit with
    | .entry q p n => s.checkEntry c q p n pc
    | u => (s.checkWord c u pc).1) s

/-- The checks of a core's constants and queue entries as they are saved (R358, R364). -/
def State.checkSaved (s : State) (c : CoreId) : State :=
  (s.errs.filter fun e => e.core == c).foldl (fun s e =>
    match e.unit with
    | .entry q p n => s.checkEntry c q p n 0
    | .entryTag _ _ | .c _ => (s.checkWord c e.unit 0).1
    | _ => s) s

/-! ## Units that have been written -/

/-- A result of EX that has landed names the unit. -/
def ExWrite.covers (w : ExWrite) (u : Guarded) : Bool :=
  match w, u with
  | .s n _, .s .ex m => n == m
  | .v n en _, .v m i => n == m && wordIn en i == 2 ^ 64 - 1
  | .a n en _, .a m i => n == m && wordIn en i == 2 ^ 64 - 1
  | .aAdd n _, .a m _ => n == m
  | .aScale f p _ _, .a m _ => f == m || p == m
  | .k n en _, .k m i => n == m && wordIn en i == 2 ^ 64 - 1
  | _, _ => false

/-- A step has written a unit: what it holds has changed, its core has another strand, or a result that names it has landed. -/
def State.wroteUnit (s t : State) (c : CoreId) (u : Guarded) : Bool :=
  t.content c u != s.content c u ||
    ((u.array == 3 || u.array == 4) && (t.core c).strand.map (·.ctx) != (s.core c).strand.map (·.ctx)) ||
    ((s.core c).ex.pend.any fun p => p.w.covers u && !(t.core c).ex.pend.contains p)

/-- After a step, what has been written since holds no errors. -/
def State.keepErrs (s t : State) : State :=
  if t.errs.isEmpty then t
  else { t with errs := t.errs.filter fun e => !(s.errs.contains e && s.wroteUnit t e.core e.unit) }

end Sys2Proof.Machine
end

