-- ==== Sys2Proof/Machine/Home.lean ====
section
/-! DEFINITION. The home of a line: reads and writes at the L2 and HBM4E with their checks (R178-R188, R364-R373), the
expander of EMBC pages (R186, R187), and the CXL window (R188, R405). -/

namespace Sys2Proof.Machine

/-- Who asks: the context of the translation, and the pc of the instruction or command (R371, R376); `far` for a request from
another package, whose context is charged there (R408, R409). -/
structure Asker where
  ctx : Ctx
  pc  : Word
  far : Bool
  deriving DecidableEq, Repr

/-- What was found in a sector that is delivered: its number in the line, SV1 or SV2, and whether it was injected. -/
abbrev Classed := List (Nat × Nat × Bool)

/-- What a sector of HBM4E gives: the bits and flips as they stand, what is delivered, and the class; a refusal for its
stamp; or lost, charged to the asker. -/
inductive SecOut where
  | got (raw : BitVec 256) (flips : List Nat) (data : BitVec 256) (sev : Sev)
  | refused
  | lost
  deriving DecidableEq, Repr

/-- What a line gives; `denied` where another package has refused the request under checks 1 or 2 of R408. -/
inductive LineOut where
  | got (data : BitVec 1024) (cls : Classed)
  | refused
  | lost
  | denied
  deriving DecidableEq, Repr

/-! ## HBM4E (R184, R367, R370) -/

/-- A sector is lost: logged, stamped, its frame retired, and the asker charged (R367, R370, R371). -/
def State.loseSector (s : State) (who : Asker) (sector : Nat) (inj : Bool) : State :=
  let pa := 32 * sector
  let fl : LogFlags := { noFlags with retired := s.retires, term := !who.far, unknown := who.far }
  let s := s.log 3 (hbmPlace pa) inj fl (if who.far then 0 else who.ctx) who.pc
  let s := (s.setWord sector ⟨lostStamp, 0, 0, []⟩).retireFrame pa
  if who.far then s else s.charge who.ctx

/-- Positions of an HBM4E check word that an L2 sector has too: all but the stamp, and but the map entry where there is one (R184). -/
def keptFlips (code : Layout) (flips : List Nat) : List Nat :=
  flips.filter fun p => decide (p < if code = 0x15 ∨ code = 0x16 ∨ code = 0x18 then 275 else 282)

/-- Reading a sector of HBM4E under a code (R184). -/
def State.readHbm (s : State) (who : Asker) (sector : Nat) (code : Layout) : State × SecOut :=
  match s.sense sector (some code) with
  | (s, .blank) => (s, .got 0 [] 0 .clean)
  | (s, .lost) => (s.loseSector who sector false, .lost)
  | (s, .bad) => (s.loseSector who sector true, .lost)
  | (s, .ok f d) =>
    let raw := s.rawSector sector
    let s := s.noteHbm sector f who.pc
    if (s.word sector).stamp ≠ code then (s, .refused) else (s, .got raw (keptFlips code f.left) d f.sev)

/-- An unrequested sector of a fill (R180): valid when blank, or clean or corrected under the request's code; a corrected one is
written back in place (R364). -/
def State.sideSector (s : State) (sector : Nat) (code : Layout) : State × Option (BitVec 256) :=
  let w := s.word sector
  if w.seen = 0x3F then (s, some 0)
  else if w.seen ≠ code ∨ w.stamp ≠ code then (s, none)
  else
    let k := secKind w.stamp w.mark sector
    let f := check k true w.flips
    if f.sev = .clean then (s, some (deliver k true false f (s.rawSector sector)))
    else if f.sev = .sv0 then (s.setWord sector { w with flips := f.left }, some (deliver k true false f (s.rawSector sector)))
    else (s, none)

/-! ## Allocation (R180, R373) -/

/-- The least recently used line of a set. -/
def State.victim (s : State) (la : Nat) : Option L2Line :=
  (s.l2.filter fun l => sliceOf l.la == sliceOf la && setOf l.la == setOf la).getLast?

/-- The lowest way of a line's set that holds nothing and is not quarantined (R180 names the victim among ways in use only: DESIGN
CHOICE, log 8). -/
def State.freeWay (s : State) (la : Nat) : Option (Fin 16) :=
  (List.finRange 16).find? fun w =>
    !(s.l2.any fun l => sliceOf l.la == sliceOf la && setOf l.la == setOf la && l.way == w) &&
      !(s.rel.quar.contains ⟨(sliceOf la).val, setOf la, w⟩)

/-- A line enters the L2 in a free way, its victims written back; `n` bounds the ways that a quarantine can take from it. -/
def State.allocateIn (s : State) (l : L2Line) (lu : Bool) : Nat → State
  | 0 => s
  | n + 1 =>
    match s.freeWay l.la with
    | some w => s.touchLine { l with way := w } lu
    | none =>
      match s.victim l.la with
      | none => s
      | some v => (s.flushOut v 0).allocateIn l lu n

def State.allocate (s : State) (l : L2Line) (lu : Bool) : State := s.allocateIn l lu 17

/-- The sectors of a fill that were not asked for. -/
def State.fillRest (s : State) (la : Nat) (code : Layout) (mask : BitVec 4) (data : BitVec 1024) :
    State × BitVec 1024 × BitVec 4 :=
  (List.range 4).foldl (fun (s, d, v) i =>
    if mask.getLsbD i then (s, d, v ||| (1 <<< i))
    else match s.sideSector (4 * la + i) code with
      | (s, some x) => (s, setLineSector d i x, v ||| (1 <<< i))
      | (s, none) => (s, d, v)) (s, data, 0)

/-- The slot mark that a sector of memory has kept since it was written; that of its page where it is blank (R56). -/
def State.sectorMark (s : State) (code : Layout) (sector : Nat) : BitVec 2 :=
  let w := s.word sector
  if w.stamp = code then w.mark else s.slotMark code (32 * sector)

/-- The slot marks of the sectors of a line as a fill finds them. -/
def State.lineMarks (s : State) (code : Layout) (la : Nat) : Vector (BitVec 2) 4 :=
  Vector.ofFn fun (i : Fin 4) => s.sectorMark code (4 * la + i.val)

/-- Written sectors take the mark of their page as it stands (R56). -/
def putMarks (old : Vector (BitVec 2) 4) (mask : BitVec 4) (m : BitVec 2) : Vector (BitVec 2) 4 :=
  Vector.ofFn fun (i : Fin 4) => if mask.getLsbD i.val then m else old[i]

/-! ## Errors in L2 lines (R365, R371-R373) -/

/-- An SV3 in a dirty line, in the order of R372: logged; the dirty sectors written back, the lost one stamped so; the line removed and
its way quarantined; the owner charged; the frame retired. -/
def State.loseLine (s : State) (l : L2Line) (i : Nat) (pc : Word) : State :=
  let s := s.logLost l pc i
  let (s, lost) := s.evict l pc
  let s := (lost.filter (· != i)).foldl (fun s j => s.logLost l pc j) s
  (s.setWord (4 * l.la + i) ⟨lostStamp, 0, 0, []⟩).punish l State.charge

/-- A corrected error of a sector of a line: corrected in place, logged and counted; at CETH the dirty sectors are written back and the
way is quarantined (R364, R373). -/
def State.correctLine (s : State) (l : L2Line) (i : Nat) (left : List Nat) (pc : Word) : State :=
  let l' := { l with flips := setFlips l.flips i left }
  let s := (s.setLine l').logCorrected l i pc
  if s.overCeth l.wayId then s.flushOut l' pc else s

/-- What a pass over the asked sectors of a held line comes to. -/
inductive Scan where
  | ok (data : BitVec 1024) (cls : Classed)
  | again
  | gone
  | refused
  deriving DecidableEq, Repr

/-- Whether the loss of a dirty line ends its reader too: a request of the context charged is dropped (R372). -/
def State.dropsAsker (s : State) (who : Asker) (l : L2Line) : Bool :=
  !who.far && (who.ctx == l.owner || (s.rel.relpol.extractLsb' 3 2 == 1 && vfOf who.ctx == vfOf l.owner))

/-- The asked sectors of a line in ascending order (R364, R365, R367). An invalid one is read again from HBM4E and classified there
(R180). A detected error in a clean line sends the line away to be filled again; an SV3 in a dirty line is handled under R372; the
line is then asked for again, unless the reader is of the context charged. -/
def State.scanLine (s : State) (who : Asker) (la : Nat) (mask : BitVec 4) :
    List Nat → BitVec 1024 → Classed → State × Scan
  | [], d, cls => (s, .ok d cls)
  | i :: rest, d, cls =>
    if !mask.getLsbD i then s.scanLine who la mask rest d cls
    else
      match s.lineAt la with
      | none => (s, .again)
      | some l =>
        if !l.valid.getLsbD i then
          match s.readHbm who (4 * la + i) l.tag with
          | (s, .refused) => (s, .refused)
          | (s, .lost) => (s, .gone)
          | (s, .got raw flips x sev) =>
            let l := { l with data := setLineSector l.data i raw, flips := setFlips l.flips i flips, valid := l.valid ||| (1 <<< i),
                              marks := putMarks l.marks (1 <<< i) (s.sectorMark l.tag (4 * la + i)) }
            (s.setLine l).scanLine who la mask rest (setLineSector d i x)
              (if sev = .sv1 ∨ sev = .sv2 then cls ++ [(i, sev.num, s.injected false (128 * la + 32 * i))] else cls)
        else
          let (s, f, x) := s.examine (secKind l.tag (l.mark i) (4 * la + i)) false (flipsOf l.flips i) (lineSector l.data i)
          let found := f.sev == .sv1 || f.sev == .sv2 || f.sev == .sv3
          if found && l.dirty == 0 then ((s.dropLine la).log 0 (l2Place l i) true noFlags 0 who.pc, .again)
          else
            match f.sev with
            | .sv3 => (s.loseLine l i who.pc, if s.dropsAsker who l then .gone else .again)
            | .sv1 | .sv2 =>
              let s := s.log f.sev.num (l2Place l i) true { noFlags with dirty := true } 0 who.pc
              s.scanLine who la mask rest (setLineSector d i x) (cls ++ [(i, f.sev.num, s.injected false (128 * la + 32 * i))])
            | .sv0 => (s.correctLine l i f.left who.pc).scanLine who la mask rest (setLineSector d i x) cls
            | .clean => s.scanLine who la mask rest (setLineSector d i x) cls

/-! ## Reads -/

/-- Asked sectors read from HBM4E in ascending order: raw data, flips, delivered data, classes. -/
def State.readHbmSectors (s : State) (who : Asker) (la : Nat) (mask : BitVec 4) (code : Layout) :
    List Nat → BitVec 1024 → List Nat → BitVec 1024 → Classed → State × Option (BitVec 1024 × List Nat × BitVec 1024 × Classed) × Bool
  | [], raw, flips, d, cls => (s, some (raw, flips, d, cls), false)
  | i :: rest, raw, flips, d, cls =>
    if !mask.getLsbD i then s.readHbmSectors who la mask code rest raw flips d cls
    else
      match s.readHbm who (4 * la + i) code with
      | (s, .refused) => (s, none, false)
      | (s, .lost) => (s, none, true)
      | (s, .got r f x sev) =>
        s.readHbmSectors who la mask code rest (setLineSector raw i r) (setFlips flips i f) (setLineSector d i x)
          (if sev = .sv1 ∨ sev = .sv2 then cls ++ [(i, sev.num, s.injected false (128 * la + 32 * i))] else cls)

/-- A read that the L2 does not hold: from HBM4E, allocated unless the NA hint is given (R180). -/
def State.fillLine (s : State) (who : Asker) (la : Nat) (mask : BitVec 4) (code : Layout) (hint : Hint) : State × LineOut :=
  match s.readHbmSectors who la mask code [0, 1, 2, 3] 0 [] 0 [] with
  | (s, none, lost) => (s, if lost then .lost else .refused)
  | (s, some (raw, flips, d, cls), _) =>
    if hint = .na then (s, .got d cls)
    else
      let (s, data, valid) := s.fillRest la code mask raw
      let l : L2Line := ⟨la, 0, code, who.ctx, s.lineMarks code la, data, valid, 0, flips⟩
      (s.allocate l (hint == .lu), .got d cls)

/-- A read at the slice (R179-R181). -/
def State.readL2 (s : State) (who : Asker) (la : Nat) (mask : BitVec 4) (code : Layout) (hint : Hint) :
    Nat → State × LineOut
  | 0 => (s, .lost)
  | fuel + 1 =>
    match s.lineAt la with
    | none => s.fillLine who la mask code hint
    | some l =>
      if l.tag ≠ code then (s, .refused)
      else
        match s.scanLine who la mask [0, 1, 2, 3] 0 [] with
        | (s, .again) => s.readL2 who la mask code hint fuel
        | (s, .gone) => (s, .lost)
        | (s, .refused) => (s, .refused)
        | (s, .ok d cls) =>
          match s.lineAt la with
          | some l => (s.touchLine l (hint == .lu), .got d cls)
          | none => (s, .got d cls)

/-! ## What the device itself reads (R364, R370) -/

/-- A sector of local memory as a read of it delivers it. -/
def State.shownSector (s : State) (sector : Nat) : BitVec 256 :=
  let la := sector / 4
  let i := sector % 4
  let w := s.word sector
  let pois := s.rel.relpol.getLsbD 0
  match (s.lineAt la).filter fun l => l.valid.getLsbD i with
  | some l =>
    let k := secKind l.tag (l.mark i) sector
    deliver k false pois (check k false (flipsOf l.flips i)) (lineSector l.data i)
  | none =>
    if w.stamp = 0x3F then 0
    else
      let k := secKind w.stamp w.mark sector
      deliver k true pois (check k true w.flips) (s.rawSector sector)

/-- One byte of memory as a read delivers it, and n bytes, little-endian. -/
def State.shownByte (s : State) (pa : Nat) : Byte :=
  if inHbm pa then (s.shownSector (pa / 32)).extractLsb' (8 * (pa % 32)) 8 else Memory.get s.mem pa

def State.shownBytes (s : State) (pa : Nat) : Nat → Nat
  | 0 => 0
  | n + 1 => (s.shownByte pa).toNat + 256 * s.shownBytes (pa + 1) n

/-- A sector whose check finds something: it holds flips in the L2 or in HBM4E, or is stamped lost. -/
def State.troubled (s : State) (sector : Nat) : Bool :=
  !(s.flipsAt 0 (.lineTag (sector / 4))).isEmpty ||
  match (s.lineAt (sector / 4)).filter fun l => l.valid.getLsbD (sector % 4) with
  | some l => !(flipsOf l.flips (sector % 4)).isEmpty
  | none => (s.word sector).stamp == lostStamp || !(s.word sector).flips.isEmpty

/-- A sector that the device reads for itself, under whatever code it holds, with the checks of any read: corrected in place, logged, and
where it is lost charged to who asked. True where it is lost. -/
def State.deviceSector (s : State) (who : Asker) (sector : Nat) : State × Bool :=
  let la := sector / 4
  let s := s.checkTags la who.pc
  let i := sector % 4
  let below : State → State × Bool := fun s =>
    match s.sense sector none with
    | (s, .blank) => (s, false)
    | (s, .lost) => (s.loseSector who sector false, true)
    | (s, .bad) => (s.loseSector who sector true, true)
    | (s, .ok f _) => (s.noteHbm sector f who.pc, false)
  if (s.lineAt la).any fun l => l.valid.getLsbD i then
    match s.scanLine who la (1 <<< i) [0, 1, 2, 3] 0 [] with
    | (s, .ok _ _) => (s, false)
    | (s, .gone) => (s, true)
    | (s, .again) | (s, .refused) => below s
  else below s

/-! ## The sector expander (R186, R187) -/

/-- Value bytes, mask bytes of an EMBC code. -/
def embcSizes (code : Layout) : Nat × Nat := if code = 0x15 then (2, 2) else (1, 4)

/-- The slot of an EMBC line: its 128 stored bytes. -/
def State.slotBytes (s : State) (la : Nat) : Nat := Memory.bytes s.mem (128 * la) 128

/-- Bytes a map entry's sector takes, from its mode and mask. -/
def embcLen (code : Layout) (slot : Nat) (map : BitVec 7) : Nat :=
  let (vb, mb) := embcSizes code
  let off := 4 * (map.extractLsb' 0 5).toNat
  match (map.extractLsb' 5 2).toNat with
  | 1 => 32
  | 2 => (mb + vb * popCount ((slot >>> (8 * off)) % 2 ^ (8 * mb)) (8 * mb) + 3) / 4 * 4
  | _ => 0

/-- Whether the four map entries of a line make sense (R186). -/
def embcOk (code : Layout) (slot : Nat) (maps : List (BitVec 7)) : Bool :=
  let rec go : List (BitVec 7) → Nat → Bool
    | [], _ => true
    | m :: rest, used =>
      let mode := (m.extractLsb' 5 2).toNat
      let off := 4 * (m.extractLsb' 0 5).toNat
      if mode = 3 then false
      else if mode = 0 then go rest used
      else decide (used ≤ off) && decide (off + embcLen code slot m ≤ 128) && go rest (off + embcLen code slot m)
  go maps 0

/-- The elements of a masked sector: element i takes the next stored value when its mask bit is set. -/
def unmaskSector (vb : Nat) (mask vals : Nat) : Nat → Nat
  | 0 => 0
  | n + 1 =>
    let rest := unmaskSector vb mask vals n
    if (mask >>> n) % 2 = 1 then rest + ((vals >>> (8 * vb * popCount mask n)) % 2 ^ (8 * vb)) * 2 ^ (8 * vb * n) else rest

/-- One logical sector expanded. -/
def embcExpand (code : Layout) (slot : Nat) (map : BitVec 7) : BitVec 256 :=
  let (vb, mb) := embcSizes code
  let off := 4 * (map.extractLsb' 0 5).toNat
  let x := slot >>> (8 * off)
  match (map.extractLsb' 5 2).toNat with
  | 1 => BitVec.ofNat 256 x
  | 2 => BitVec.ofNat 256 (unmaskSector vb (x % 2 ^ (8 * mb)) (x >>> (8 * mb)) (8 * mb))
  | _ => 0

/-- The physical sectors that hold the bytes of a logical sector. -/
def embcPhysical (code : Layout) (slot : Nat) (map : BitVec 7) : List Nat :=
  let off := 4 * (map.extractLsb' 0 5).toNat
  let n := embcLen code slot map
  if n = 0 then [] else (List.range 4).filter fun i => decide (off < 32 * (i + 1)) && decide (32 * i < off + n)

/-- The codeword of a sector is beyond correction. -/
def State.brokenWord (s : State) (sector : Nat) : Bool :=
  let w := s.word sector
  (check (secKind w.stamp w.mark sector) true w.flips).broken

/-- The map entry and the stamp of a sector's check word as the expander takes them: corrected where the sector's codeword is (R184;
DEDUCED, log 75). -/
def State.mapEntry (s : State) (sector : Nat) : BitVec 7 := if s.brokenWord sector then (s.word sector).seenMap else (s.word sector).map
def State.stampOf (s : State) (sector : Nat) : Layout := if s.brokenWord sector then (s.word sector).seen else (s.word sector).stamp

/-- What the check word of a logical sector's own physical sector says (R184, R187): blank, lost, another code's, or coded. -/
inductive EmbcWord where
  | blank | lost | foreign | coded
  deriving DecidableEq, Repr

def State.embcWord (s : State) (sector : Nat) (code : Layout) : EmbcWord :=
  let x := s.stampOf sector
  if x = 0x3F then .blank
  else if x = lostStamp ∨ 0x1C ≤ x.toNat then .lost
  else if x = code then .coded
  else .foreign

/-- A line whose map makes no sense is lost, all four sectors of it (R186 calls it an error of the line; DESIGN CHOICE, log 75). -/
def State.loseEmbc (s : State) (who : Asker) (la : Nat) : State :=
  let s := [1, 2, 3].foldl (fun (s : State) i => s.setWord (4 * la + i) ⟨lostStamp, 0, 0, []⟩) s
  s.loseSector who (4 * la) false

/-- A read of EMBC sectors: the check words of those asked for, each a part of its sector's codeword, then the physical sectors that hold
their bytes (R184, R187). -/
def State.readEmbc (s : State) (who : Asker) (la : Nat) (mask : BitVec 4) (code : Layout) : State × LineOut :=
  match s.readHbmSectors who la mask code [0, 1, 2, 3] 0 [] 0 [] with
  | (s, none, lost) => (s, if lost then .lost else .refused)
  | (s, some _, _) =>
    let word : Nat → EmbcWord := fun i => s.embcWord (4 * la + i) code
    let asked := (List.range 4).filter fun i => mask.getLsbD i
    let slot := s.slotBytes la
    let map : Nat → BitVec 7 := fun i => if word i = .coded then s.mapEntry (4 * la + i) else 0
    if !embcOk code slot ((List.range 4).map map) then (s.loseEmbc who la, .lost)
    else
      let need := (asked.filter fun i => word i == .coded).flatMap fun i => embcPhysical code slot (map i)
      let pm : BitVec 4 := need.foldl (fun m i => m ||| (1 <<< i)) 0
      match s.readHbmSectors who la pm code [0, 1, 2, 3] 0 [] 0 [] with
      | (s, none, lost) => (s, if lost then .lost else .refused)
      | (s, some _, _) =>
        (s, .got (asked.foldl (fun d i => if word i = .coded then setLineSector d i (embcExpand code slot (map i)) else d) 0) [])

/-- The coding of one logical sector: mode and stored bytes, the fewest, zero before masked before raw (R187). -/
def embcCode (code : Layout) (x : BitVec 256) : Nat × Nat × Nat :=
  let (vb, mb) := embcSizes code
  let n := 8 * mb
  let elem : Nat → Nat := fun i => (x.toNat >>> (8 * vb * i)) % 2 ^ (8 * vb)
  let mask := (List.range n).foldl (fun m i => if elem i = 0 then m else m + 2 ^ i) 0
  let vals := (List.range n).foldl (fun (v : Nat × Nat) i =>
    if elem i = 0 then v else (v.1 + elem i * 2 ^ (8 * vb * v.2), v.2 + 1)) (0, 0)
  let len := (mb + vb * vals.2 + 3) / 4 * 4
  if x = 0 then (0, 0, 0)
  else if len ≤ 32 then (2, len, mask + vals.1 * 2 ^ (8 * mb))
  else (1, 32, x.toNat)

/-- Where the stored bytes of a coded line go: in ascending logical order and without a gap; where a sector that is not written is
lost or another code's, each in the physical sector of its own number, so that such a one stays as it is (R199, R370; DEDUCED, log
75). -/
def embcPlace (lens : List Nat) (apart : Bool) : List Nat :=
  if apart then (List.range 4).map (32 * ·)
  else (List.range 4).map fun i => (lens.take i).sum

/-- The sectors of a line that a write leaves as they are, read so that it can be coded again: an error that is found is acted on as any
read does (R364); one whose bytes are lost is lost. -/
def State.keepEmbc (s : State) (who : Asker) (la : Nat) (mask : BitVec 4) (code : Layout) : State :=
  (List.range 4).foldl (fun s i =>
    if mask.getLsbD i || s.embcWord (4 * la + i) code != .coded then s
    else
      match s.readEmbc who la (1 <<< i) code with
      | (s, .lost) => s.setWord (4 * la + i) ⟨lostStamp, 0, 0, []⟩
      | (s, _) => s) s

/-- A write of EMBC sectors in expanded form: the line is coded again and stored whole (R187); a lost sector, or one of
another code, stays as it is unless it is written (R199, R370). -/
def State.writeEmbc (s : State) (who : Asker) (la : Nat) (mask : BitVec 4) (data : BitVec 1024) (code : Layout) : State :=
  let s := if (List.range 4).all fun i => (s.word (4 * la + i)).flips.isEmpty then s else s.keepEmbc who la mask code
  let slot := s.slotBytes la
  let word : Nat → EmbcWord := fun i => s.embcWord (4 * la + i) code
  let kept : Nat → Bool := fun i => !mask.getLsbD i && (word i == .lost || word i == .foreign)
  let old : Nat → BitVec 256 := fun i =>
    if word i = .coded then embcExpand code slot (s.mapEntry (4 * la + i)) else 0
  let coded := (List.range 4).map fun i => embcCode code (if mask.getLsbD i then lineSector data i else old i)
  let at' := embcPlace (coded.map (·.2.1)) ((List.range 4).any kept)
  let bits := (coded.zip at').foldl (fun x c => x + c.1.2.2 * 2 ^ (8 * c.2)) 0
  (List.range 4).foldl (fun s i =>
    if kept i then s
    else
      let mode := (coded.getD i (0, 0, 0)).1
      s.writeSector (4 * la + i) (BitVec.ofNat 256 (bits >>> (256 * i)))
        ⟨code, BitVec.ofNat 7 (mode * 32 + if mode = 0 then 0 else at'.getD i 0 / 4), 0, []⟩) s

/-! ## Beyond the package (R207, R406, R409) -/

/-- Sectors of a line that cannot be had are each lost to the context that asked, and an event is posted (R406, R409). -/
def State.unreachable (s : State) (who : Asker) (pa : Nat) (mask : BitVec 4) : State :=
  let s := (List.range 4).foldl (fun (s : State) i =>
    if mask.getLsbD i then s.log 3 (hbmPlace (pa / 128 * 128 + 32 * i)) false { noFlags with term := true } who.ctx who.pc else s) s
  (s.postFar who.ctx).charge who.ctx

/-- A sector of memory outside local HBM4E. -/
def State.putOuter (s : State) (pa : Nat) (d : BitVec 256) : State := { s with mem := Memory.putBytes s.mem pa d.toNat 32 }

/-- Sectors of a line outside local HBM4E. -/
def State.putOuters (s : State) (pa : Nat) (mask : BitVec 4) (data : BitVec 1024) : State :=
  (List.range 4).foldl (fun (s : State) i =>
    if mask.getLsbD i then s.putOuter (pa / 128 * 128 + 32 * i) (lineSector data i) else s) s

/-- The sectors of a write, each as a port has accepted it. -/
def postSectors (r : SliceReq) (row : Fin 2048) (data : BitVec 1024) (via : Via) : List Posted :=
  ((List.range 4).filter fun i => r.mask.getLsbD i).map fun i =>
    ⟨r.core, row, r.ctx, r.va + BitVec.ofNat 64 (32 * i), r.pa / 128 * 128 + 32 * i, lineSector data i, r.code, via⟩

/-! ## The CXL window (R188, R405, R406) -/

/-- The target of an address of the window: that of the lowest-numbered valid decoder that covers it. -/
def State.cxlTarget (s : State) (pa : Nat) : Option (Fin 16) :=
  (s.pf.mpd.toList.find? fun d =>
    d.getLsbD 63 && decide ((d.extractLsb' 0 19).toNat * 2 ^ 28 ≤ pa) &&
      decide (pa < ((d.extractLsb' 0 19).toNat + (d.extractLsb' 19 20).toNat) * 2 ^ 28)).map fun d => (d.extractLsb' 39 4).toFin

/-- Whether a valid decoder covers an address. -/
def State.cxlCovered (s : State) (pa : Nat) : Bool := (s.cxlTarget pa).isSome

/-- Writes to a line that a port has accepted reach their place, in order: an access to the line comes after them (R207, R407). -/
def State.drainLine (s : State) (pa : Nat) : State :=
  let mine : Posted → Bool := fun p => p.pa / 128 == pa / 128
  (s.posted.filter mine).foldl (fun (s : State) p => s.putOuter p.pa p.data) { s with posted := s.posted.filter fun p => !mine p }

/-- The memory port accepts the sectors of a publication (R202, R207); an address that no decoder covers takes nothing. -/
def State.acceptCxl (s : State) (r : SliceReq) (row : Fin 2048) (data : BitVec 1024) : State :=
  match s.cxlTarget r.pa with
  | none => s.postFar r.ctx
  | some t => { s with posted := s.posted ++ postSectors r row data (.target t) }

/-- A read of the window, after the writes that the port has accepted. -/
def State.readCxl (s : State) (who : Asker) (pa : Nat) (mask : BitVec 4) : State × LineOut :=
  if !s.cxlCovered pa then (s.unreachable who pa mask, .lost)
  else if s.mute = some .memport then (State.unreachable { s with mute := none } who pa mask, .lost)
  else
    let s := s.drainLine pa
    (s, .got (BitVec.ofNat 1024 (Memory.bytes s.mem (pa / 128 * 128) 128)) [])

/-- A write of the window that is complete at the device when its agent goes on. -/
def State.writeCxl (s : State) (who : Asker) (pa : Nat) (mask : BitVec 4) (data : BitVec 1024) : State :=
  if !s.cxlCovered pa then s.postFar who.ctx
  else if s.mute = some .memport then State.postFar { s with mute := none } who.ctx
  else (s.drainLine pa).putOuters pa mask data

/-! ## The home of a physical address -/

/-- Whether a code is that of a compressed embedding page. -/
def isEmbc (code : Layout) : Bool := code == 0x15 || code == 0x16

/-- A read of sectors of one line at its home: local HBM4E through the L2, EMBC through the expander unless the L2 holds the line
under another code (R181, R199), the CXL window through the memory port. -/
def State.homeRead (s : State) (who : Asker) (pa : Nat) (mask : BitVec 4) (code : Layout) (hint : Hint) : State × LineOut :=
  let la := pa / 128
  let s := s.checkTags la who.pc
  if inHbm pa then
    if isEmbc code then (if (s.lineAt la).isSome then (s, .refused) else s.readEmbc who la mask code)
    else s.readL2 who la mask code hint 8
  else s.readCxl who pa mask

/-- What a write at the home comes to. -/
inductive WriteOut where
  | done | refused | denied
  deriving DecidableEq, Repr

/-- The sectors of a line in memory under another assigned code than a write's. -/
def State.foreignSectors (s : State) (la : Nat) (code : Layout) : BitVec 4 :=
  (List.range 4).foldl (fun m i =>
    let w := s.word (4 * la + i)
    if w.stamp = 0x3F ∨ w.stamp = lostStamp ∨ w.stamp = code then m else m ||| (1 <<< i)) 0

/-- The sectors that a mask names, from a new line over an old one. -/
def mergeLine (old new : BitVec 1024) (mask : BitVec 4) : BitVec 1024 :=
  (List.range 4).foldl (fun d i => if mask.getLsbD i then setLineSector d i (lineSector new i) else d) old

/-- A write of whole sectors at the slice (R180, R181, R185). A line under another code refuses it; `filled` marks the
write-back of a row filled from memory, whose sectors are dropped where the stamp is another code's (R199). -/
def State.writeL2 (s : State) (who : Asker) (la : Nat) (mask : BitVec 4) (data : BitVec 1024) (code : Layout) (hint : Hint)
    (filled : Bool) : State × WriteOut :=
  let sm := s.slotMark code (128 * la)
  match s.lineAt la with
  | some l =>
    let mask := if filled then mask &&& (l.valid ||| ~~~s.foreignSectors la code) else mask
    if l.tag ≠ code ∨ mask = 0 then (s, .refused)
    else
      let flips := l.flips.filter fun p => !mask.getLsbD (p / 288)
      (s.touchLine { l with data := mergeLine l.data data mask, valid := l.valid ||| mask, dirty := l.dirty ||| mask,
                            owner := who.ctx, marks := putMarks l.marks mask sm, flips := flips } (hint == .lu), .done)
  | none =>
    let mask := if filled then mask &&& ~~~s.foreignSectors la code else mask
    if mask = 0 then (s, .refused)
    else if hint = .na then
      ((List.range 4).foldl (fun s i =>
        if mask.getLsbD i then s.writeSector (4 * la + i) (lineSector data i) ⟨code, 0, sm, []⟩ else s) s, .done)
    else
      let (s, d, valid) := s.fillRest la code mask (mergeLine 0 data mask)
      (s.allocate ⟨la, 0, code, who.ctx, putMarks (s.lineMarks code la) mask sm, d, valid, mask, []⟩ (hint == .lu), .done)

/-- A write of whole sectors of one line at its home. -/
def State.homeWrite (s : State) (who : Asker) (pa : Nat) (mask : BitVec 4) (data : BitVec 1024) (code : Layout) (hint : Hint)
    (filled : Bool) : State × WriteOut :=
  let la := pa / 128
  let s := s.checkTags la who.pc
  if inHbm pa then
    if isEmbc code then (if (s.lineAt la).isSome then (s, .refused) else (s.writeEmbc who la mask data code, .done))
    else s.writeL2 who la mask data code hint filled
  else (s.writeCxl who pa mask data, .done)

end Sys2Proof.Machine
end

