-- ==== Sys2Proof/Machine/Slices.lean ====
section
/-! DEFINITION. What a core holds of the memory system: scratchpad rows with their checks (R177, R363, R364), severity traps (R375),
stash rows on their way in and out; and the service of the L2 slices (R178-R180, R213). -/

namespace Sys2Proof.Machine

/-! ## Severity traps (R375) -/

/-- Data delivered to an LD or ST access or a fetch was classed SV1 or SV2: under TRAP1 or TRAP2 its sequencer will trap
before its next instruction. Each entry: address, class, injected. -/
def State.noteSev (s : State) (c : CoreId) (q : Seq) (cls : List (Word × Nat × Bool)) : State :=
  match cls.find? fun e => s.rel.relpol.getLsbD e.2.1 with
  | none => s
  | some (va, n, inj) =>
    let cause : Cause := if inj then .injectedError else if n = 1 then .severitySV1 else .severitySV2
    s.onCore c fun k => k.onSeq q fun st => if st.sevTrap.isSome then st else { st with sevTrap := some (cause, va) }

/-! ## Scratchpad rows -/

/-- Tiers of a sector of a row: by its tag and its place in the row (R56). A KVPG header row held in a stash row keeps its
mark of "all tier A". -/
def PadRow.kind (r : PadRow) (i : Nat) : SecKind := ⟨r.tag, r.mark, i, false⟩

def State.padRow (s : State) (c : CoreId) (r : Fin 2048) : PadRow := (s.core c).pad[r]

def State.setPad (s : State) (c : CoreId) (r : Fin 2048) (p : PadRow) : State :=
  s.onCore c fun k => { k with pad := k.pad.set r p }

/-- What a read of a row gives: its bytes as delivered and the classes found; or nothing, where a sector is lost and the
context that claims the row has been charged (R371). -/
abbrev PadOut := Option (Row × Classed)

/-- What the check of one sector of a row finds: the state after it, and the bits a read delivers with the class; none where it is lost
and charged to the claimant (R364, R367, R371). -/
def State.sensePad (s : State) (c : CoreId) (r : Fin 2048) (i : Nat) (pc : Word) : State × Option (BitVec 256 × Nat) :=
  let p := s.padRow c r
  let fl := flipsOf p.flips i
  if fl.isEmpty then (s, some (rowSector p.data i, 0))
  else
    let place := { padPlace c r.val with addr := (padPlace c r.val).addr + 32 * i }
    let owner := s.claimant c r.val
    let (s, f, x) := s.examine (p.kind i) false fl (rowSector p.data i)
    match f.sev with
    | .sv3 =>
      let s := s.log 3 place true { noFlags with term := owner.isSome, unknown := owner.isNone } (owner.getD 0) pc
      match owner with
      | some x => (s.charge x, none)
      | none => (s, none)
    | .sv1 | .sv2 => (s.log f.sev.num place true noFlags 0 pc, some (x, f.sev.num))
    | .sv0 => ((s.setPad c r { p with flips := setFlips p.flips i f.left }).log 0 place true noFlags 0 pc, some (x, 0))
    | .clean => (s, some (x, 0))

/-- The sectors of a row in ascending order. -/
def State.readPadFrom (s : State) (c : CoreId) (r : Fin 2048) (pc : Word) : List Nat → Row → Classed → State × PadOut
  | [], d, cls => (s, some (d, cls))
  | i :: rest, d, cls =>
    match s.sensePad c r i pc with
    | (s, none) => (s, none)
    | (s, some (x, n)) => s.readPadFrom c r pc rest (setRowSector d i x) (if n = 0 then cls else cls ++ [(i, n, s.injected true ((padPlace c r.val).addr + 32 * i))])

/-- A read of a row (R364, R367). -/
def State.readPad (s : State) (c : CoreId) (r : Fin 2048) (pc : Word) : State × PadOut :=
  match s.checkWord c (.rowTag r) pc with
  | (s, true) => (s, none)
  | (s, false) =>
    if (s.padRow c r).flips.isEmpty then (s, some ((s.padRow c r).data, [])) else s.readPadFrom c r pc (List.range 8) 0 []

/-- A row written whole with its tag and mark. -/
def State.writePad (s : State) (c : CoreId) (r : Fin 2048) (tag : Layout) (mark : BitVec 2) (d : Row) : State :=
  (s.setErr c (.rowTag r) []).setPad c r ⟨tag, mark, d, []⟩

/-- One sector of a row about to be written in part is read first; what an SV1 or SV2 delivers is what is kept of it, and the poison is
ordinary data from then on (R364, R370). False where it is lost. -/
def State.settlePad (s : State) (c : CoreId) (r : Fin 2048) (pc : Word) (i : Nat) : State × Bool :=
  match s.sensePad c r i pc with
  | (s, none) => (s, false)
  | (s, some (x, _)) =>
    let p := s.padRow c r
    (s.setPad c r { p with data := setRowSector p.data i x, flips := setFlips p.flips i [] }, true)

/-- Sectors that a byte mask touches. -/
def maskSectors (mask : Row) : BitVec 8 :=
  (List.range 8).foldl (fun m i => if rowSector mask i = 0 then m else m ||| (1 <<< i)) 0

/-- Some bytes of a row written: the sectors they lie in take fresh check bits, those written in part after a read of what they hold
(R364). A sector found lost on the way takes nothing. -/
def State.mergePad (s : State) (c : CoreId) (r : Fin 2048) (data mask : Row) (pc : Word) : State :=
  let (s, m) := (List.range 8).foldl (fun (s, m) i =>
    let part := rowSector mask i
    if part = 0 ∨ part = BitVec.allOnes 256 ∨ (flipsOf (s.padRow c r).flips i).isEmpty then (s, m)
    else
      match s.settlePad c r pc i with
      | (s, true) => (s, m)
      | (s, false) => (s, setRowSector m i 0)) (s, mask)
  let p := s.padRow c r
  let sec := maskSectors m
  s.setPad c r { p with data := (p.data &&& ~~~m) ||| (data &&& m), flips := p.flips.filter fun f => !sec.getLsbD (f / 288) }

/-! ## Stash rows on their way (R165, R166) -/

/-- A window covers an address. -/
def Window.size (w : Window) : Nat := 256 * 2 ^ w.lsz.toNat

def Window.holds (w : Window) (va : Word) : Bool :=
  decide (w.va.toNat ≤ va.toNat) && decide (va.toNat < w.va.toNat + w.size)

/-- The window an address lies in. -/
def Core.windowOf (k : Core) (va : Word) : Option (Fin 16 × Window) :=
  (List.finRange 16).findSome? fun n => match k.wins[n] with
    | some w => if w.holds va then some (n, w) else none
    | none => none

/-- The code that data of a page carries where it is held: that of the elements for an EMBC page, which is expanded (R53, R187). -/
def heldCode (page : Layout) : Layout := if page = 0x15 then 0x0B else if page = 0x16 then 0x08 else page

/-- An access in flight needs a row of memory: it names it, or it is a load of the BMV block that holds it (R163). -/
def Core.needs (k : Core) (va : Word) : Bool :=
  (k.loads.any fun l => (match l.src with
      | .stash rows => rows.any fun y => y.1 == va
      | _ => false) ||
    (l.fmt.conv && isBmv l.fmt.page && decide ((va - (l.va &&& ~~~0xFF#64)).toNat < 1024))) ||
    k.stores.any fun x => x.rows.any fun y => y.1 == va

/-- Rows refused for their layout that no access in flight needs any more are free again. -/
def Core.dropRefused (k : Core) : Core := { k with stash := k.stash.filter fun r => r.use != .refused || k.needs r.va }

/-- Whether a row whose fill has been refused is kept for the access that finds it: one in flight, a BMV store of ST that waits for its
rows before it issues (R162), a strip (R391). -/
def Core.keepsRefused (k : Core) (q : Seq) (va : Word) : Bool :=
  k.needs va || (q == .st && (k.seq .st).wait == .fill) || (k.seq q).gvi.isSome

/-- The slot mark of a row as memory keeps it: that of its first sector in the L2, or in HBM4E (R56). -/
def State.homeMark (s : State) (code : Layout) (pa : Nat) : BitVec 2 :=
  if code ≠ 0x1A then 0
  else if (pa / 256) % 256 = 0 then 2
  else
    match s.lineAt (pa / 128) with
    | some x => x.mark (pa / 32 % 4)
    | none => s.sectorMark code (pa / 32)

/-- The slot mark a row of a page is held with; the header row of a KVPG page is all tier A (R56). -/
def State.rowMark (s : State) (code : Layout) (pa : Nat) : BitVec 2 :=
  if code = 0x1A ∧ (pa / 256) % 256 = 0 then 2 else s.slotMark code pa

/-- A pool row has its contents: it is filled in its window, or held where SUNMAP has removed that. -/
def Core.ready (k : Core) (row : Fin 2048) : Core :=
  { k with stash := k.stash.map fun x =>
      if x.row == row && x.use != .writing then { x with use := if (k.windowOf x.va).isSome then .filled else .held } else x }

/-- Both lines of a row have come: it is filled with them; where one was refused for its layout, the accesses that wait for it find that
(R148 check 7), and a row that none waits for is free again. -/
def State.settleFill (s : State) (c : CoreId) (r : StashRow) : State :=
  match r.use with
  | .filling _ q (.got d0 k0) (.got d1 k1) =>
    let d : Row := d0.setWidth 2048 ||| (d1.setWidth 2048 <<< 1024)
    let s := (s.writePad c r.row (heldCode r.code) (s.homeMark r.code r.pa) d).onCore c (·.ready r.row)
    s.noteSev c q ((k0.map fun x => (r.va + BitVec.ofNat 64 (32 * x.1), x.2)) ++
      k1.map fun x => (r.va + BitVec.ofNat 64 (128 + 32 * x.1), x.2))
  | .filling _ _ .asked _ | .filling _ _ _ .asked => s
  | .filling _ q _ _ => s.onCore c fun k =>
    let keep := k.keepsRefused q r.va
    { k with stash := if keep then k.stash.map fun x => if x.row == r.row then { x with use := .refused } else x
             else k.stash.filter fun x => x.row != r.row }
  | _ => s

/-- A line arrives for a stash row that waits for it. -/
def StashRow.take (r : StashRow) (id : Nat) (upper : Bool) (st : PartSt) : StashRow :=
  match r.use with
  | .filling n q lo hi =>
    if n = id then { r with use := if upper then .filling n q lo st else .filling n q st hi } else r
  | _ => r

/-- A line arrives for a load, or for a stash row. -/
def State.deliverPart (s : State) (r : SliceReq) (id : Nat) (st : PartSt) : State :=
  let s := s.onCore r.core fun k => { k with
    loads := k.loads.map fun l =>
      if l.id == id then
        match l.src with
        | .lines ps => { l with src := .lines (ps.map fun p => if p.pa == r.pa && p.st == .asked then { p with st := st } else p) }
        | _ => l
      else l
    stash := k.stash.map fun x => x.take id (r.pa / 128 % 2 == 1) st }
  match (s.core r.core).stash.find? fun x => match x.use with
    | .filling n _ _ _ => n == id
    | _ => false with
  | some x => s.settleFill r.core x
  | none => s

/-- A write of a core's pool row that no home here has applied and no port accepted. -/
def State.rowQueued (s : State) (c : CoreId) (row : Fin 2048) : Bool :=
  let hit : SliceReq → Bool := fun r => r.core == c && (match r.op with
    | .write n _ _ => n == row
    | .read _ _ => false)
  (s.core c).pubs.any hit || s.slices.any fun x => x.queue.any hit || x.miss.any hit

/-- A write of the row that a port of Hawser has accepted and the remote home not applied, or that it has refused and no decision has yet
come for (R202, R207, R360). -/
def State.rowPosted (s : State) (c : CoreId) (row : Fin 2048) : Bool :=
  (s.posted.any fun p => p.core == c && p.row == row && decide (2 ^ 47 ≤ p.pa)) ||
    (s.core c).heldPubs.any fun h => h.post.row == row

/-- A pool row whose last write-back has been applied is free (R165). -/
def State.freeRow (s : State) (c : CoreId) (row : Fin 2048) : State :=
  if s.rowQueued c row || s.rowPosted c row then s
  else s.onCore c fun k => { k with stash := k.stash.filter fun x => !(x.row == row && x.use == .writing) }

/-! ## Service (R178-R180, R213) -/

def State.onSlice (s : State) (n : Fin 128) (f : SliceSt → SliceSt) : State := { s with slices := s.slices.set n (f s.slices[n]) }

/-- A request is carried out. -/
def State.serve (s : State) (r : SliceReq) : State :=
  let who : Asker := ⟨r.ctx, r.pc, false⟩
  match r.op with
  | .read id hint =>
    match s.homeRead who r.pa r.mask r.code hint with
    | (s, .got d cls) => s.deliverPart r id (.got d cls)
    | (s, .refused) => s.deliverPart r id .refused
    | (s, .lost) | (s, .denied) => s
  | .write row data filled =>
    (if inHbm r.pa then (s.homeWrite who r.pa r.mask data r.code .none filled).1 else s.acceptCxl r row data).freeRow r.core row

/-- Whether the slice answers at once: the line is held, or the request passes the L2 by (R187, R188), and no earlier request for it is
still in the miss buffer, which it may not overtake (R213). -/
def State.hitsL2 (s : State) (n : Fin 128) (r : SliceReq) : Bool :=
  ((s.lineAt (r.pa / 128)).isSome || isEmbc r.code || !inHbm r.pa) &&
    !(s.slices[n].miss.any fun x => x.pa / 128 == r.pa / 128)

/-- A core's LD or ST waits for an entry of a slice. -/
def Core.waitsSlice (k : Core) (n : Fin 128) : Bool := (k.seq .ld).wait == .slice n || (k.seq .st).wait == .slice n

/-- Whether a requester that waits for a slice has still something to ask. -/
def State.stillAsks (s : State) (r : Requester) : Bool :=
  match r.kind with
  | .access | .unit => (s.core r.core).strand.isSome
  | .engine => (s.core r.core).engines.any fun e => !e.cmds.isEmpty
  | .walker => !s.clusters[clusterOf r.core].walks.isEmpty

/-- A requester waits for an entry of a slice: LD or ST in place, another by its place in the slice's list. -/
def State.waitsAt (s : State) (n : Fin 128) (r : Requester) : Bool :=
  (r.kind == .access && (s.core r.core).waitsSlice n) || (s.slices[n].waiting.contains r && s.stillAsks r)

/-- Requesters that keep an entry of a slice for an access that still waits. -/
def State.keptAt (s : State) (n : Fin 128) : List Requester := s.slices[n].kept.filter fun r => s.waitsAt n r

/-- Entries of a slice's queue in use or kept for others than a requester (R179). -/
def State.heldEntries (s : State) (n : Fin 128) (r : Requester) : Nat :=
  s.slices[n].queue.length + ((s.keptAt n).filter (· != r)).length

/-- Whether a core has a publication write that waits for a slice. -/
def Core.pubFor (k : Core) (n : Fin 128) : Option SliceReq := k.pubs.find? fun r => decide (r.pa < 2 ^ 47) && sliceOf (r.pa / 128) == n

/-- A requester's place in the rotation: ascending core number, a core before its engines, those before its walkers (R179; DEDUCED, log
76). -/
def Requester.place (r : Requester) : Nat :=
  4 * r.core.val + (match r.kind with
    | .access => 0
    | .unit => 1
    | .engine => 2
    | .walker => 3)

/-- The next requester, in rotation after the one last granted, with a publication write or an access that waits for this slice
(R179). -/
def State.nextGrant (s : State) (n : Fin 128) : Option Requester :=
  let want : Requester → Bool := fun r =>
    (r.kind == .access && ((s.core r.core).pubFor n).isSome) || (s.waitsAt n r && !s.slices[n].kept.contains r)
  let find : (Requester → Bool) → Option Requester := fun f =>
    (List.finRange 2048).findSome? fun c => ([.access, .unit, .engine, .walker].map (Requester.mk c)).find? f
  (find fun r => decide (s.slices[n].last < r.place) && want r) <|> find want

/-- A freed entry is granted: to an access that waits, which uses it when its turn comes, or else to a publication write. -/
def State.grant (s : State) (n : Fin 128) : State :=
  if 16 ≤ s.slices[n].queue.length + (s.keptAt n).length then s
  else
    match s.nextGrant n with
    | none => s
    | some r =>
      if s.waitsAt n r && !s.slices[n].kept.contains r then
        s.onSlice n fun x => { x with kept := x.kept ++ [r], last := r.place }
      else
        match (s.core r.core).pubFor n with
        | none => s
        | some w => (s.onCore r.core fun k => { k with pubs := k.pubs.erase w }).onSlice n fun x => { x with queue := x.queue ++ [w], last := r.place }

/-- The service of R178 and R179: the slice serves its oldest request; a miss moves to the miss buffer of 32, and while that is full
no request is served. -/
def State.sliceService (s : State) (n : Fin 128) : State :=
  match s.slices[n].queue with
  | [] => s.grant n
  | r :: rest =>
    if 32 ≤ s.slices[n].miss.length then s
    else
      let t := s.onSlice n fun x => { x with queue := rest }
      if s.hitsL2 n r then (t.serve r).grant n
      else (t.onSlice n fun x => { x with miss := x.miss ++ [r] }).grant n

/-- The fill of R180: the oldest miss is filled from HBM4E and answered. -/
def State.missFill (s : State) (n : Fin 128) : State :=
  match s.slices[n].miss with
  | [] => s
  | r :: rest => (s.onSlice n fun x => { x with miss := rest }).serve r

/-- What has reached a slice is served, oldest first. -/
def State.settleSlice (s : State) (n : Fin 128) : Nat → State
  | 0 => s
  | k + 1 =>
    match s.slices[n].miss, s.slices[n].queue with
    | r :: rest, _ => ((s.onSlice n fun x => { x with miss := rest }).serve r).settleSlice n k
    | [], r :: rest => ((s.onSlice n fun x => { x with queue := rest }).serve r).settleSlice n k
    | [], [] => s

/-- The turn of a request that the model makes in one step with its instruction or event (engines, walkers, fetch, the cutter, LDT, the
host): it stands behind all that its slice already has, which is served first (R179, R213; DEDUCED, log 76). Where the slice has no entry
for whoever makes the step, that is found here. -/
def State.homeTurn (s : State) (pa : Nat) : State :=
  let n := sliceOf (pa / 128)
  let s := if s.barred.contains n then { s with hindered := s.hindered.or (some n) } else s
  s.settleSlice n (s.slices[n].queue.length + s.slices[n].miss.length)

/-- Slices without an entry for a requester; for one of no place in the rotation where none is named. -/
def State.fullFor (s : State) (r : Option Requester) : List (Fin 128) :=
  (List.finRange 128).filter fun n => decide (16 ≤ (match r with
    | some r => s.heldEntries n r
    | none => s.slices[n].queue.length + (s.keptAt n).length))

/-- A requester with an entry granted and not used, at any slice. -/
def State.grantedTo (s : State) (r : Option Requester) : Bool := s.slices.any fun x => x.kept.any fun y => some y == r

/-- A step of a requester: it is made where every slice that it asks has an entry for it; else nothing happens, and it waits in the
rotation of the first that has none (R179). -/
def State.asRequester (s : State) (r : Option Requester) (act : State → State) : State :=
  let full := s.fullFor r
  if full.isEmpty && !s.grantedTo r then act s
  else
    let t := act { s with barred := full }
    match t.hindered, r with
    | some n, some r => s.onSlice n fun x => if x.waiting.contains r then x else { x with waiting := x.waiting ++ [r] }
    | some _, none => s
    | none, _ =>
      let rest : List Requester → List Requester := fun l => l.filter fun y => some y != r
      { t with barred := [], slices := t.slices.map fun (x : SliceSt) => { x with kept := rest x.kept, waiting := rest x.waiting } }

def unitOfCore (c : CoreId) : Option Requester := some ⟨c, .unit⟩
def engineOf (c : CoreId) : Option Requester := some ⟨c, .engine⟩
def walkerOf (u : ClusterId) : Option Requester := some ⟨⟨128 * u.val, by omega⟩, .walker⟩

/-! ## Reads of the device itself -/

/-- The lines of n bytes are each taken in turn at their slice. -/
def State.spanTurn (s : State) (pa n : Nat) : State :=
  (List.range (n / 128 + 2)).foldl (fun s i =>
    let a := 128 * (pa / 128 + i)
    if a < pa + n ∧ inHbm a then s.homeTurn a else s) s

/-- The sectors of n bytes of local memory. -/
def spanSectors (pa n : Nat) : List Nat :=
  ((List.range (n / 32 + 2)).map fun i => pa / 32 + i).filter fun j => decide (32 * j < pa + n) && inHbm (32 * j)

/-- The device reads n bytes for itself, a table, a record or an image: each sector is checked as in any read (R364, R367, R370). True
where one of them is lost, which is charged to who asked (R371). -/
def State.checkSpan (s : State) (who : Asker) (pa n : Nat) : State × Bool :=
  let s := s.spanTurn pa n
  ((spanSectors pa n).filter s.troubled).foldl (fun (s, lost) j =>
    let (s, x) := s.deviceSector who j
    (s, lost || x)) (s, false)

end Sys2Proof.Machine
end

