-- ==== Sys2Proof/Machine/Fabric.lean ====
section
/-! DEFINITION. Accesses that may leave the package: the ports of Hawser and the routes (R407), reads and writes of memory wherever it
lies (R192, R408, R409), and the writes of publications that a port has accepted (R202, R207, R215). -/

namespace Sys2Proof.Machine

/-! ## Ports and routes (R407) -/

/-- The live ports of the route to a node, in ascending order. -/
def State.livePorts (s : State) (node : Nat) : List (Fin 36) :=
  let mask := s.pf.rt.toList.getD node 0
  (List.finRange 36).filter fun p => mask.getLsbD p.val && s.fab.up[p]

/-- The node of an address on another package, and its line address there (R178). -/
def farNode (pa : Nat) : Nat := pa % 2 ^ 58 / 2 ^ 47 - 1
def farLine (pa : Nat) : Nat := pa % 2 ^ 47 / 128

/-- The port that a request goes out by: of m live ports of the route the (LA mod m)-th. -/
def State.portFor (s : State) (pa : Nat) : Option (Fin 36) :=
  let ps := s.livePorts (farNode pa)
  ps[farLine pa % ps.length]?

/-- The link that an access to an address goes out by. -/
def linkOf (pa : Nat) : Option Link := if 2 ^ 47 ≤ pa then some .hawser else if inHbm pa then none else some .memport

/-- Whether the access in progress is one that has no answer (R406, R409). -/
def State.silent (s : State) (pa : Nat) : Bool := s.mute.isSome && s.mute == linkOf pa

/-- Whether the home of an address can be reached (R406, R409). -/
def State.homeUp (s : State) (pa : Nat) : Bool :=
  if pa < 2 ^ 47 then inHbm pa || s.cxlCovered pa else (s.portFor pa).isSome

/-! ## Requests to another package (R408, R409) -/

/-- An event that another package has refused a request (R402, R408): how its detail packs the remote node and VA is open (log 20). -/
def State.postRefused (s : State) (ctx : Ctx) : State :=
  let (n, s) := s.free
  s.postEvent (vfOf ctx) 4 0x1C2 ctx 0 ((Config.freeValue n).setWidth 64)

/-- Sectors that their remote home has lost are charged to the context that asked (R371). -/
def State.lostFar (s : State) (who : Asker) (pa : Nat) (mask : BitVec 4) : State :=
  let s := (List.range 4).foldl (fun (s : State) i =>
    if mask.getLsbD i then s.log 3 (hbmPlace (pa / 128 * 128 + 32 * i)) false { noFlags with term := true } who.ctx who.pc else s) s
  s.charge who.ctx

/-- What another package answers to a request that its port has taken: one for a non-coherent page is refused (R193, R408 check 2); the
rest is open (log 81). -/
def State.farAnswer (s : State) (pa : Nat) : State × Config.FarReply :=
  if isBarred pa then (s, .refused)
  else
    let (n, s) := s.free
    (s, Config.farReply n)

/-- A read of sectors of a line on another package (R408). -/
def State.farRead (s : State) (who : Asker) (pa : Nat) (mask : BitVec 4) : State × LineOut :=
  if (s.portFor pa).isNone then (s.unreachable who pa mask, .lost)
  else if s.silent pa then (State.unreachable { s with mute := none } who pa mask, .lost)
  else
    let (s, a) := (s.drainLine pa).farAnswer pa
    match a with
    | .served => (s, .got (mergeLine 0 (BitVec.ofNat 1024 (Memory.bytes s.mem (pa / 128 * 128) 128)) mask) [])
    | .refused => (s.postRefused who.ctx, .denied)
    | .mismatch => (s, .refused)
    | .lost => (s.lostFar who pa mask, .lost)

/-- A write of sectors of a line on another package; one that cannot be had there is dropped (R409). -/
def State.farWrite (s : State) (who : Asker) (pa : Nat) (mask : BitVec 4) (data : BitVec 1024) : State × WriteOut :=
  if (s.portFor pa).isNone then (s.postFar who.ctx, .done)
  else if s.silent pa then (State.postFar { s with mute := none } who.ctx, .done)
  else
    let (s, a) := (s.drainLine pa).farAnswer pa
    match a with
    | .served | .lost => (s.putOuters pa mask data, .done)
    | .refused => (s.postRefused who.ctx, .denied)
    | .mismatch => (s, .refused)

/-- A read of sectors of a line wherever it lies: here, or on another package. -/
def State.memRead (s : State) (who : Asker) (pa : Nat) (mask : BitVec 4) (code : Layout) (hint : Hint) : State × LineOut :=
  if pa < 2 ^ 47 then (s.homeTurn pa).homeRead who pa mask code hint else s.farRead who pa mask

/-- A write of sectors of a line wherever it lies. -/
def State.memWrite (s : State) (who : Asker) (pa : Nat) (mask : BitVec 4) (data : BitVec 1024) (code : Layout) (hint : Hint)
    (filled : Bool) : State × WriteOut :=
  if pa < 2 ^ 47 then (s.homeTurn pa).homeWrite who pa mask data code hint filled else s.farWrite who pa mask data

/-! ## Publications that leave the package (R202, R207, R215) -/

/-- A port of Hawser accepts the sectors of a publication write; where none is live they are dropped, with an event (R409). -/
def State.acceptFar (s : State) (c : CoreId) (r : SliceReq) : State :=
  let s := s.onCore c fun k => { k with pubs := k.pubs.erase r }
  match r.op, s.portFor r.pa with
  | .write row data _, some p => { s with posted := s.posted ++ postSectors r row data (.hawser p) }
  | .write row _ _, none => (s.postFar r.ctx).freeRow c row
  | .read _ _, _ => s

/-- ST stands frozen while a publication write of its core waits for a decision, with what it was at before kept beside it. -/
def Core.freezePub (k : Core) : Core :=
  match (k.seq .st).run, k.heldPubs with
  | .frozen _, _ | _, [] => k
  | run, h :: rest => { k.onSeq .st (fun q => { q with run := .frozen h.viol }) with heldPubs := { h with run := run } :: rest }

/-- A publication write that the remote home has refused: a violation of the storing sequencer where the core still runs the context. The
write is held for the decision (R408, R360). -/
def State.refusedPub (s : State) (p : Posted) : State :=
  let s := s.postRefused p.ctx
  if (s.core p.core).strand.any fun st => st.ctx == p.ctx then
    let v : Violation := ⟨.foreignPage, 0, 3, BitVec.ofNat 16 p.core.val, p.ctx, ((s.core p.core).seq .st).pc, p.va⟩
    (s.onCore p.core fun k => Core.freezePub { k with heldPubs := k.heldPubs ++ [⟨v, p, (k.seq .st).run⟩] }).record v
  else s

/-- A held write goes out again by the port that is now its own (R360, R407). -/
def State.postAgain (s : State) (p : Posted) : State :=
  match s.portFor p.pa with
  | some q => { s with posted := s.posted ++ [{ p with via := .hawser q }] }
  | none => (s.postFar p.ctx).freeRow p.core p.row

/-- The decision on a refused publication write: RETRY sends it again, SKIP drops it; ST goes on from where it was. -/
def State.decidePub (s : State) (h : HeldPub) (skip : Bool) : State :=
  let c := h.post.core
  let s := s.onCore c fun k =>
    let k := { k with heldPubs := k.heldPubs.erase h }
    if (k.seq .st).run = .frozen h.viol then (k.onSeq .st fun q => { q with run := h.run }).freezePub else k
  if skip then s.freeRow c h.post.row else s.postAgain h.post

/-- A sector that a port has accepted reaches its place: at the pooled-memory device, or at the remote home, which answers as it does
(R408; log 81). -/
def State.applyPosted (s : State) (p : Posted) : State :=
  let s : State := { s with posted := s.posted.erase p }
  match p.via with
  | .target _ => s.putOuter p.pa p.data
  | .hawser _ =>
    let (s, a) := s.farAnswer p.pa
    let s := match a with
      | .served | .lost => s.putOuter p.pa p.data
      | .refused => s.refusedPub p
      | .mismatch => s
    s.freeRow p.core p.row

/-- The next of a core's publications that leaves the package comes one sector further: accepted by a port of Hawser, or applied
(R215). What other cores' writes of that sector the port has accepted before reaches its place first (R213, R407). R207 promises no order
of forwarding for different addresses: a core's accepted sectors go out first in, first out, those of several cores in the order of the
events (DESIGN CHOICE, log 90). -/
def State.postNext (s : State) (c : CoreId) : State :=
  match (s.core c).pubs.find? fun r => decide (2 ^ 47 ≤ r.pa) with
  | some r => s.acceptFar c r
  | none =>
    match s.posted.find? fun p => p.core == c with
    | some p => s.applyPosted ((s.posted.find? fun x => x.pa == p.pa).getD p)
    | none => s

/-- A sector that a port has accepted and that never arrives is dropped, with an event (R406, R409). -/
def State.dropPosted (s : State) (p : Posted) : State :=
  (State.postFar { s with posted := s.posted.erase p } p.ctx).freeRow p.core p.row

/-- Requests that a port held when it went down go out again in order by the port that is now theirs; where none is live they are
dropped, with an event (R407, R409). -/
def State.resend (s : State) (port : Fin 36) : State :=
  let held : Posted → Bool := fun p => p.via == Via.hawser port
  let again : Posted → Posted := fun p =>
    match held p, s.portFor p.pa with
    | true, some q => { p with via := .hawser q }
    | _, _ => p
  let s : State := { s with posted := s.posted.map again }
  (s.posted.filter held).foldl State.dropPosted s

end Sys2Proof.Machine
end

