-- ==== Sys2Proof/Machine/Translate.lean ====
section
/-! DEFINITION. Page tables and translation: the context table (R399), the fields of an entry (R190, R192), the walk and its
checks (R189, R191), the TLBs (R194), and the checks of an access against its entry (R148). -/

namespace Sys2Proof.Machine

/-! ## The context table (R399) -/

/-- The 64 B of a context's entry. -/
def State.ctxPlace (s : State) (ctx : Ctx) : Nat := s.pf.ctxtab.toNat + 64 * ctx.toNat
def State.ctxEntry (s : State) (ctx : Ctx) : Nat := s.shownBytes (s.ctxPlace ctx) 64

/-- The read of a context's entry for that context: true where it is lost, which is charged to the context (R371). -/
def State.checkCtx (s : State) (ctx : Ctx) (pc : Word) : State × Bool := s.checkSpan ⟨ctx, pc, false⟩ (s.ctxPlace ctx) 64

def ctxRoot (e : Nat) : Nat := e % 2 ^ 64
def ctxTvec (e : Nat) : Word := BitVec.ofNat 64 (e / 2 ^ 64)
def ctxSscr (e : Nat) : Word := BitVec.ofNat 64 (e / 2 ^ 128)

/-- The entry is valid and its reserved bits are zero. -/
def ctxValid (e : Nat) : Bool := decide (e / 2 ^ 192 = 1)

/-! ## Entries (R190) -/

def pteValid (p : Word) : Bool := p.getLsbD 63
def pteCoh (p : Word) : BitVec 2 := p.extractLsb' 61 2
def pteCode (p : Word) : Layout := p.extractLsb' 55 6
def pteDiscard (p : Word) : BitVec 2 := p.extractLsb' 53 2
def pteOwner (p : Word) : BitVec 6 := p.extractLsb' 47 6
def pteFrame (p : Word) : BitVec 31 := p.extractLsb' 16 31
def pteFabric (p : Word) : Bool := p.getLsbD 14
def pteCompressed (p : Word) : Bool := p.getLsbD 13
def pteStash (p : Word) : Bool := p.getLsbD 12
def pteSuper (p : Word) : Bool := p.getLsbD 11
def pteIsCode (p : Word) : Bool := p.getLsbD 10
def pteWrite (p : Word) : Bool := p.getLsbD 9
def pteRead (p : Word) : Bool := p.getLsbD 8

/-- A table pointer: read, write and code flags zero (R189). -/
def ptePointer (p : Word) : Bool := !pteRead p && !pteWrite p && !pteIsCode p

/-- Reserved layout codes (R47). -/
def reservedCode (c : Layout) : Bool := decide (0x1C ≤ c.toNat)

/-- Layouts whose pages are stored compressed. -/
def needsCompressed (c : Layout) : Bool := c == 0x15 || c == 0x16 || c == 0x18

/-- The frame's physical address in local memory. -/
def pteBase (p : Word) : Nat := (pteFrame p).toNat * 65536

/-- Node and physical address there of a fabric frame (R192). -/
def pteNode (p : Word) : Nat := (p.extractLsb' 37 10).toNat
def pteFarBase (p : Word) : Nat := (p.extractLsb' 5 3).toNat * 2 ^ 37 + (p.extractLsb' 16 21).toNat * 65536

/-- The check of an entry that a walk meets at a level, in the order of R191. -/
def pteFault (p : Word) (level : Nat) : Option Cause :=
  let ptr := ptePointer p
  let leaf := !ptr
  if !pteValid p || pteDiscard p = 2 then some .pageFault
  else if p.getLsbD 15 || pteCoh p = 3 || pteDiscard p = 3 ||
      (level == 1 && leaf) || (level == 3 && ptr) ||
      (ptr && (p &&& 0x7FFF80000000FFFF#64) != 0) ||
      (leaf && !pteFabric p && p.extractLsb' 0 8 != 0) || (leaf && pteFabric p && p.extractLsb' 0 5 != 0) ||
      (leaf && (needsCompressed (pteCode p) != pteCompressed p)) then some .badPageEntry
  else if reservedCode (pteCode p) then some .reservedLayout
  else if (leaf && level == 2 && p.extractLsb' 16 9 != 0) ||
      (!(leaf && pteFabric p) && decide (0x410000000000 ≤ pteBase p)) then some .frameOutOfRange
  else if leaf && !pteFabric p && inCxl (pteBase p) && pteCoh p != 2 then some .badPageEntry
  else none

/-! ## The walk (R189, R191) -/

/-- What a walk ends with: a leaf, a fault, the end of the context that asked (an SV3 of a table sector), or that it waits for a die to
enter service (R413). -/
inductive WalkOut where
  | leaf (pte : Word) (big : Bool)
  | fault (c : Cause)
  | lost
  | wait
  deriving DecidableEq, Repr

/-- A table entry read as RAW (R191). -/
def State.readEntry (s : State) (who : Asker) (pa : Nat) : State × LineOut × Word :=
  match (s.homeTurn pa).homeRead who pa (1 <<< (pa / 32 % 4)) 0 .none with
  | (s, .got d c) => (s, .got d c, d.extractLsb' (8 * (pa % 128)) 64)
  | (s, o) => (s, o, 0)

/-- Bits of a virtual address that index a level. -/
def vaIndex (va : Word) (level : Nat) : Nat :=
  if level = 1 then (va.extractLsb' 38 10).toNat else if level = 2 then (va.extractLsb' 25 13).toNat
  else (va.extractLsb' 16 9).toNat

/-- The walk from a table at a level; `n` counts the levels left. -/
def State.walkFrom (s : State) (who : Asker) (va : Word) (table level : Nat) : Nat → State × WalkOut
  | 0 => (s, .fault .badPageEntry)
  | n + 1 =>
    if s.dieOut table then (s, .wait) else
    match s.readEntry who (table + 8 * vaIndex va level) with
    | (s, .refused, _) => (s, .fault .layoutMismatch)
    | (s, .lost, _) | (s, .denied, _) => (s, .lost)
    | (s, .got _ _, p) =>
      match pteFault p level with
      | some c => (s, .fault c)
      | none => if ptePointer p then s.walkFrom who va (pteBase p) (level + 1) n else (s, .leaf p (level == 2))

/-- The walk of a context's table; a context without a valid entry has no page. -/
def State.walk (s : State) (who : Asker) (va : Word) : State × WalkOut :=
  if s.spanOut (s.ctxPlace who.ctx) 64 then (s, .wait)
  else
    match s.checkCtx who.ctx who.pc with
    | (s, true) => (s, .lost)
    | (s, false) =>
      let e := s.ctxEntry who.ctx
      if !ctxValid e then (s, .fault .pageFault) else s.walkFrom who va (ctxRoot e) 1 3

/-! ## TLBs (R194) -/

def TlbEntry.hits (e : TlbEntry) (ctx : Ctx) (va : Word) : Bool :=
  e.ctx == ctx && (if e.big then (va.extractLsb' 25 23).toNat == e.vpn / 512 else (va.extractLsb' 16 32).toNat == e.vpn)

/-- An entry enters a TLB in front, the last ones beyond its size leaving (log 8). -/
def tlbPut (t : List TlbEntry) (e : TlbEntry) (size : Nat) : List TlbEntry :=
  (e :: t.filter fun x => !(x.ctx == e.ctx && x.vpn == e.vpn && x.big == e.big)).take size

def mkTlb (ctx : Ctx) (va : Word) (pte : Word) (big : Bool) : TlbEntry := ⟨ctx, (va.extractLsb' 16 32).toNat, big, pte⟩

/-- The cluster TLB's answer. -/
def State.clusterTlb (s : State) (u : ClusterId) (ctx : Ctx) (va : Word) : Option TlbEntry :=
  s.clusters[u].tlb.find? fun e => e.hits ctx va

/-- Whether a walk asks for the same page as another: a join (R194). -/
def Walk.joins (w v : Walk) (big : Bool) : Bool :=
  w.ctx == v.ctx && (if big then w.va.extractLsb' 25 39 == v.va.extractLsb' 25 39 else w.va.extractLsb' 16 48 == v.va.extractLsb' 16 48)

/-- The walks of a cluster, each page once: the first eight are with the walkers, the others wait for one to free (R194). -/
def walkPages (ws : List Walk) : List Walk :=
  ws.foldl (fun acc w => if acc.any fun v => v.joins w false then acc else acc ++ [w]) []

/-- A walk ends, and with it those that have joined it: its page enters the cluster TLB, or the sequencers that wait find the
fault. -/
def State.endWalk (s : State) (u : ClusterId) (w : Walk) : State × WalkOut :=
  match s.walk ⟨w.ctx, ((s.core w.core).seq w.seq).pc, false⟩ w.va with
  | (s, .leaf p big) =>
    (s.onCluster u fun k => { k with
      tlb := tlbPut k.tlb (mkTlb w.ctx w.va p big) 16384
      walks := k.walks.filter fun v => !w.joins v big }, .leaf p big)
  | (s, .fault cause) =>
    let mine := s.clusters[u].walks.filter fun v => w.joins v false
    let s := mine.foldl (fun s v => s.onCore v.core fun k => k.onSeq v.seq fun st => { st with walkFault := some (cause, v.va) }) s
    (s.onCluster u fun k => { k with walks := k.walks.filter fun v => !w.joins v false }, .fault cause)
  | (s, .wait) => (s, .wait)
  | (s, .lost) => (s.onCluster u fun k => { k with walks := k.walks.filter fun v => !w.joins v false }, .lost)

/-- The oldest walk of a cluster ends. -/
def State.walkOne (s : State) (u : ClusterId) : State :=
  match s.clusters[u].walks with
  | [] => s
  | w :: _ => (s.endWalk u w).1

/-- Where eight walks are in progress one of them ends first (R194). -/
def State.walkerFree (s : State) (u : ClusterId) : State :=
  if (walkPages s.clusters[u].walks).length < 8 then s else s.walkOne u

/-- Translation for an agent whose walk the model makes in one step: engines, fetch, the cutter, the host port (R307, R398). It joins a
walk in progress for its page, and else waits for a walker (R194). -/
def State.translateNow (s : State) (u : ClusterId) (who : Asker) (va : Word) : State × WalkOut :=
  match s.clusterTlb u who.ctx va with
  | some e => (s, .leaf e.pte e.big)
  | none =>
    match s.clusters[u].walks.find? fun w => w.ctx == who.ctx && w.va.extractLsb' 16 48 == va.extractLsb' 16 48 with
    | some w => s.endWalk u w
    | none =>
      match (s.walkerFree u).walk who va with
      | (s, .leaf p big) => (s.onCluster u fun k => { k with tlb := tlbPut k.tlb (mkTlb who.ctx va p big) 16384 }, .leaf p big)
      | r => r

/-- What a sequencer's translation comes to: a leaf; a fault found by its walk; or it waits. -/
inductive TrOut where
  | leaf (pte : Word) (big : Bool)
  | fault (c : Cause)
  | wait
  deriving DecidableEq, Repr

/-- Translation of the current sequencer's address at issue (R147): the core TLB, the cluster TLB, the result of its walk,
or a walk asked for. -/
def State.translate (s : State) (va : Word) : State × TrOut :=
  let c := s.cur.1
  let q := s.cur.2
  let ctx := s.here.ctx
  let u := clusterOf c
  match s.here.tlb.find? fun e => e.hits ctx va with
  | some e => (s.mod fun k => { k with tlb := tlbPut k.tlb e 256 }, .leaf e.pte e.big)
  | none =>
    match s.clusterTlb u ctx va with
    | some e => (s.mod fun k => { k with tlb := tlbPut k.tlb { e with vpn := (va.extractLsb' 16 32).toNat } 256 }, .leaf e.pte e.big)
    | none =>
      match s.me.walkFault.filter fun f => f.2.extractLsb' 16 48 == va.extractLsb' 16 48 with
      | some (cause, _) => (s.modMe fun st => { st with walkFault := none }, .fault cause)
      | none =>
        if s.clusters[u].walks.any fun w => w.core == c && w.seq == q then (s, .wait)
        else (s.onCluster u fun k => { k with walks := k.walks ++ [⟨c, q, ctx, va, false⟩] }, .wait)

/-- The address in the memory list of a virtual address under a leaf. -/
def leafPa (pte : Word) (big : Bool) (va : Word) : Nat :=
  let off := if big then (va.extractLsb' 0 25).toNat else (va.extractLsb' 0 16).toNat
  let far := farAddr (pteNode pte) (pteFarBase pte + off)
  if pteFabric pte then (if pteCoh pte = 0 then barred far else far) else pteBase pte + off

/-! ## Checks 2 to 5 (R148) -/

/-- What an access is checked to do. -/
structure Need where
  read  : Bool
  write : Bool
  fill  : Bool
  deriving DecidableEq, Repr

inductive CheckOut where
  | ok
  | fault (c : Cause)
  | violation (k : VKind)
  deriving DecidableEq, Repr

def accessCheck (pte : Word) (vf : Fin 64) (sup : Bool) (n : Need) : CheckOut :=
  if pteSuper pte && !sup then .violation .supervisorPage
  else if (pteOwner pte).toFin ≠ vf then .violation .foreignPage
  else if (n.read && !pteRead pte) || (n.write && !pteWrite pte) then .fault .accessDenied
  else if n.write && pteIsCode pte then .violation .codeWrite
  else if n.fill && !pteStash pte then .fault .stashNotAllowed
  else .ok

end Sys2Proof.Machine
end

