-- ==== Sys2Proof/Machine/Stash.lean ====
section
/-! DEFINITION. Scratchpad rows with their checks (R177, R363), severity traps (R375), scratchpad addresses and claims (R168),
and the stash: windows, first touch, stores into rows (R164-R167). -/

namespace Sys2Proof.Machine

/-! ## Scratchpad addresses (R168) -/

/-- What stops an instruction before it has an effect. -/
inductive Stop where
  | wait (w : Wait)
  | trap (c : Cause) (tval : Word)
  | violation (k : VKind) (target : Word)
  | gone
  deriving DecidableEq, Repr

/-- The instruction stops: it waits, traps, freezes its sequencer, or its context has just been terminated. -/
def State.stop (s : State) : Stop → State
  | .wait w => s.block w
  | .trap c tval => s.execTrap c tval
  | .violation k target => s.violate k target
  | .gone => s

/-- The core of a cluster with a number. -/
def coreIn (u : ClusterId) (n : BitVec 7) : CoreId := ⟨u.val * 128 + n.toNat, by omega⟩

/-- The row an SPR, SPW or SND names, with its claim checked (R168, R169). `own` asks for the issuing core. -/
def State.padTarget (s : State) (addr : Word) (own : Bool) : Except Stop (CoreId × Fin 2048) :=
  if addr.extractLsb' 26 38 ≠ 0 then .error (.trap .addressOutOfRange addr)
  else
    let c := coreIn (clusterOf s.cur.1) (addr.extractLsb' 19 7)
    let r : Fin 2048 := (addr.extractLsb' 8 11).toFin
    if own && c != s.cur.1 then .error (.trap .rowNotClaimed addr)
    else
      match s.claimant c r.val with
      | none => .error (.trap .rowNotClaimed addr)
      | some x => if x = s.here.ctx then .ok (c, r) else .error (.violation .foreignRow addr)

/-- A row of a mapped window's pool, or one still in use (R166, R167). -/
def Core.rowBusy (k : Core) (r : Nat) : Bool :=
  (k.stash.any fun x => x.row.val == r) ||
    (k.wins.any fun w => match w with
      | some w => decide (w.row.toNat ≤ r) && decide (r < w.row.toNat + w.count.toNat)
      | none => false)

/-! ## Windows and pool rows (R164, R165) -/

/-- The row origin of an address. -/
def rowOf (va : Word) : Word := va &&& ~~~0xFF#64

/-- The pool row that a row of memory has in this phase. -/
def Core.rowAt (k : Core) (va : Word) : Option StashRow := k.stash.find? fun r => r.va == rowOf va && r.use != .writing

/-- The pool row has its contents: filled in a window, or held after SUNMAP, so that accesses that issued before that still find it
(R166). -/
def StashRow.ready (r : StashRow) : Bool := r.use == .filled || r.use == .held

/-- The pool row that holds a row of memory in this phase. -/
def Core.stashAt (k : Core) (va : Word) : Option StashRow := (k.rowAt va).filter StashRow.ready

/-- A stash row of an access under way: its fill has not come, or the STRM that took it has not been performed. -/
def StashRow.pending (r : StashRow) : Bool :=
  match r.use with
  | .filling _ _ _ _ | .taken => true
  | .filled | .held | .writing | .refused => false

/-- A row of memory whose pool row has still to come. -/
def Core.comingAt (k : Core) (va : Word) : Bool := (k.rowAt va).any StashRow.pending

/-- The row's fill has been refused for its layout. -/
def Core.refusedAt (k : Core) (va : Word) : Bool := (k.rowAt va).any fun r => r.use == .refused

/-- A touch of the row is a first touch, which fills it from memory: a window covers it, and it has no pool row, or one whose fill was
refused to an access that is over. -/
def Core.fillsAt (k : Core) (va : Word) : Bool :=
  (k.windowOf va).isSome && (k.rowAt va).all fun r => r.use == .refused && !k.needs r.va

/-- A write of the strand's own publications to one of the row's lines has not been applied yet (R203). -/
def State.ownWrites (s : State) (c : CoreId) (pa : Nat) : Bool :=
  let hit : SliceReq → Bool := fun r => r.core == c && r.pa / 256 == pa / 256 && (match r.op with
    | .write _ _ _ => true
    | .read _ _ => false)
  (s.core c).pubs.any hit || (s.slices.any fun x => x.queue.any hit || x.miss.any hit)

/-! ## Requests to slices (R179) -/

/-- Requests to slices, in order. -/
def State.askSlices (s : State) (rs : List SliceReq) : State :=
  rs.foldl (fun s r =>
    s.onSlice (sliceOf (r.pa / 128)) fun x => { x with queue := x.queue ++ [r], kept := x.kept.erase ⟨r.core, .access⟩ }) s

/-- A slice without an entry for each of the requests that a core would make of it. -/
def State.fullSlice (s : State) (c : CoreId) (rs : List SliceReq) : Option (Fin 128) :=
  (rs.map fun r => sliceOf (r.pa / 128)).find? fun n =>
    decide (16 < s.heldEntries n ⟨c, .access⟩ + (rs.filter fun x => sliceOf (x.pa / 128) == n).length)

/-! ## First touch (R165, R166) -/

/-- A row of memory that an access needs: its VA, where it lies, its page's code, whether the page is discarded. -/
structure Touch where
  va   : Word
  pa   : Nat
  code : Layout
  discarded : Bool
  deriving DecidableEq, Repr

/-- The two lines of a row read at home; none in the row where one is refused. -/
def State.readRow (s : State) (who : Asker) (pa : Nat) (code : Layout) (hint : Hint) : State × LineOut × Row × List (Nat × Nat × Bool) :=
  match s.memRead who pa 15 code hint with
  | (s, .got d0 c0) =>
    match s.memRead who (pa + 128) 15 code hint with
    | (s, .got d1 c1) =>
      (s, .got 0 [], d0.setWidth 2048 ||| (d1.setWidth 2048 <<< 1024),
        c0.map (fun x => (32 * x.1, x.2)) ++ c1.map (fun x => (128 + 32 * x.1, x.2)))
    | (s, o) => (s, o, 0, [])
  | (s, o) => (s, o, 0, [])

/-- The slot format of a KVPG page, for a slot row. -/
def State.slotFormat (s : State) (code : Layout) (pa : Nat) : Option Layout :=
  if code = 0x1A ∧ (pa / 256) % 256 ≠ 0 then some (match s.slotMark code pa with
    | 0 => 0x0B
    | 1 => 0x08
    | _ => 0) else none

/-- A strand of the context ran on the core and runs no more: an SV3 found on the way has ended it (R371, R372). -/
def State.endedBy (s t : State) (c : CoreId) (ctx : Ctx) : Bool :=
  ((s.core c).strand.any fun st => st.ctx == ctx) && !((t.core c).strand.any fun st => st.ctx == ctx)

/-- What a first touch comes to. A fill refused for its layout leaves the row unfilled; the access finds that when the data
arrives (R148 check 7). -/
inductive TouchOut where
  | ok
  | stop (x : Stop)
  deriving DecidableEq, Repr

/-- A first touch that finds no free pool row: it waits while a row of the pool is written back, and else traps (R165). -/
def Core.noRow (k : Core) (w : Window) (va : Word) : Stop :=
  let writing := k.stash.any fun x => decide (w.row.toNat ≤ x.row.val) &&
    decide (x.row.val < w.row.toNat + w.count.toNat) && x.use == .writing
  if writing then .wait .other else .trap .stashFull va

/-- The two requests of a fill. -/
def fillReqs (c : CoreId) (ctx : Ctx) (pc : Word) (t : Touch) (id : Nat) (hint : Hint) : List SliceReq :=
  let pa := t.pa / 256 * 256
  [⟨c, ctx, pc, rowOf t.va, pa, 15, t.code, .read id hint⟩, ⟨c, ctx, pc, rowOf t.va + 128, pa + 128, 15, t.code, .read id hint⟩]

/-- A pool row begins to fill: at once with what a discarded page reads as (R149), through the slices from memory of this package, at
once from another package. -/
def State.beginFill (s : State) (c : CoreId) (q : Seq) (pc : Word) (t : Touch) (row : Fin 2048) (hint : Hint) : State × TouchOut :=
  let ctx := (s.core c).ctx
  let put : State → BitVec 2 → Row → State := fun s m d => (s.writePad c row (heldCode t.code) m d).onCore c fun k => k.ready row
  let drop : Core → Core := fun k => { k with stash := k.stash.filter fun x => x.row != row || x.use == .writing }
  if t.discarded then (put s (s.rowMark t.code t.pa) (discardRow t.code (s.slotFormat t.code t.pa)), .ok)
  else if t.pa < 2 ^ 47 then
    let (id, s) := s.free
    let s := s.onCore c fun k => { k with stash := k.stash.map fun x =>
      if x.row == row && x.use != .writing then { x with use := .filling id q .asked .asked, filled := true } else x }
    (s.askSlices (fillReqs c ctx pc t id hint), .ok)
  else
    match s.readRow ⟨ctx, pc, false⟩ (t.pa / 256 * 256) t.code hint with
    | (s, .lost, _, _) => (s, .stop .gone)
    | (s, .denied, _, _) => (s.onCore c drop, .stop (.violation .foreignPage t.va))
    | (s, .refused, _, _) =>
      (s.onCore c fun k => { k with stash := k.stash.map fun x =>
        if x.row == row && x.use != .writing then { x with use := .refused } else x }, .ok)
    | (s, .got _ _, d, cls) => ((put s (s.homeMark t.code t.pa) d).noteSev c q (cls.map fun x => (rowOf t.va + BitVec.ofNat 64 x.1, x.2)), .ok)

/-- One row touched by a sequencer of a core. `fill` is false for STRM, which takes a pool row and writes it whole when it is performed
(R172). A row refused to an access that is over fills anew; no touch fills a row that an STRM has taken. -/
def State.touch (s : State) (c : CoreId) (q : Seq) (pc : Word) (t : Touch) (fill : Bool) (hint : Hint) : State × TouchOut :=
  let k := s.core c
  let va := rowOf t.va
  match k.windowOf va with
  | none => (s, .stop (.trap .outsideStash t.va))
  | some (n, w) =>
    match k.rowAt va with
    | some r =>
      let s := s.onCore c fun k => { k with stash := k.stash.map fun x =>
        if x.row == r.row then { x with win := n, use := if x.use = .held then .filled else x.use } else x }
      if r.use ≠ .refused ∨ k.needs va then (s, .ok)
      else if fill then s.beginFill c q pc t r.row hint
      else (s.onCore c fun k => { k with stash := k.stash.map fun x => if x.row == r.row then { x with use := .taken } else x }, .ok)
    | none =>
      if s.ownWrites c t.pa then (s, .stop (.wait .other))
      else
        match (List.range w.count.toNat).find? fun i => !(k.stash.any fun x => x.row.val == w.row.toNat + i) with
        | none => (s, .stop (k.noRow w va))
        | some i =>
          let row : Fin 2048 := ⟨(w.row.toNat + i) % 2048, Nat.mod_lt _ (by decide)⟩
          let use : StashRow := ⟨row, n, va, t.pa / 256 * 256, t.code, 0, false, t.discarded, .taken⟩
          let s := s.onCore c fun k => { k with stash := k.stash ++ [use] }
          if fill then s.beginFill c q pc t row hint else (s, .ok)

/-- Rows touched in order, up to the first that stops. -/
def State.touchEach (s : State) (c : CoreId) (q : Seq) (pc : Word) (fill : Bool) (hint : Hint) : List Touch → State × TouchOut
  | [] => (s, .ok)
  | t :: ts =>
    match s.touch c q pc t fill hint with
    | (s, .ok) => s.touchEach c q pc fill hint ts
    | r => r

/-- Where touching rows in order would stop, found before any is touched; `taken` are the pool rows that earlier ones want
(R165). -/
def State.foresee (s : State) (c : CoreId) : List Touch → List Nat → Option Stop
  | [], _ => none
  | t :: rest, taken =>
    let k := s.core c
    match k.windowOf (rowOf t.va) with
    | none => some (.trap .outsideStash t.va)
    | some (_, w) =>
      if (k.rowAt t.va).isSome then s.foresee c rest taken
      else if s.ownWrites c t.pa then some (.wait .other)
      else
        match (List.range w.count.toNat).find? fun i =>
            !(k.stash.any fun x => x.row.val == w.row.toNat + i) && !taken.contains (w.row.toNat + i) with
        | none => some (k.noRow w (rowOf t.va))
        | some i => s.foresee c rest (taken ++ [w.row.toNat + i])

/-- The requests of the fills that touching rows starts. -/
def State.touchReqs (s : State) (c : CoreId) (pc : Word) (fill : Bool) (ts : List Touch) : List SliceReq :=
  (ts.filter fun t => fill && (s.core c).fillsAt t.va && !t.discarded && decide (t.pa < 2 ^ 47)).flatMap fun t =>
    fillReqs c (s.core c).ctx pc t 0 .none

/-- The rows of an access touched at issue, all of them or none (R165, R174); a slice without an entry for a fill holds it back
(R179). -/
def State.touchAll (s : State) (c : CoreId) (q : Seq) (pc : Word) (fill : Bool) (hint : Hint) (ts : List Touch) :
    State × TouchOut :=
  match s.foresee c ts [] with
  | some x => (s, .stop x)
  | none =>
    match s.fullSlice c (s.touchReqs c pc fill ts) with
    | some n => (s, .stop (.wait (.slice n)))
    | none => s.touchEach c q pc fill hint ts

/-- A store into a filled row: its bytes change and its sectors become dirty (R165); a row of a discarded page takes nothing
(R149). -/
def State.storeRow (s : State) (c : CoreId) (va : Word) (data mask : Row) (pc : Word) : State :=
  match (s.core c).stashAt va with
  | none => s
  | some r =>
    if r.drop then s
    else
      let sec := maskSectors mask
      (s.mergePad c r.row data mask pc).onCore c fun k =>
        { k with stash := k.stash.map fun x => if x.row == r.row then { x with dirty := x.dirty ||| sec } else x }

/-- An STRM into the row it has taken, or one whose fill was refused: its bytes, its page's code, every sector dirty (R172); a row of a discarded page takes nothing
(R149). -/
def State.storeWhole (s : State) (c : CoreId) (r : StashRow) (d : Row) : State :=
  let s := if r.drop then s else s.writePad c r.row (heldCode r.code) (s.rowMark r.code r.pa) d
  s.onCore c fun k =>
    Core.ready { k with stash := k.stash.map fun x => if x.row == r.row then { x with dirty := if r.drop then 0 else 0xFF, filled := false } else x } r.row

end Sys2Proof.Machine
end

