-- ==== Sys2Proof/Machine/Access.lean ====
section
/-! DEFINITION. The access instructions of LD and ST: majors 0x10, 0x12 and 0x13 but for LDT, TRD and DRAIN (R146-R176). -/

namespace Sys2Proof.Machine

/-! ## Shape registers (R151, R153) -/

def Shape.code (x : Shape) : Layout := x[4].extractLsb' 0 6
def Shape.geom (x : Shape) : Nat := (x[4].extractLsb' 8 8).toNat
def Shape.stream (x : Shape) : Bool := x[4].getLsbD 16
def Shape.sat (x : Shape) : Bool := x[4].getLsbD 17
def Shape.rz (x : Shape) : Bool := x[4].getLsbD 18
def Shape.ring (x : Shape) : Byte := x[4].extractLsb' 32 8
/-- Extent and stride of a dimension, and its place in the cursor. -/
def Shape.e (x : Shape) (d : Nat) : Nat := (x[1].extractLsb' (16 * d) 16).toNat
def Shape.d (x : Shape) (k : Nat) : Word := ((if k < 2 then x[2] else x[3]).extractLsb' (32 * (k % 2)) 32).signExtend 64
def Shape.i (x : Shape) (d : Nat) : Nat := (x[7].extractLsb' (16 * d) 16).toNat

/-- Reserved bits of a shape register are set (R151). -/
def Shape.resBits (x : Shape) : Bool := x[4].extractLsb' 40 24 != 0 || x[4].extractLsb' 19 13 != 0 || x[4].extractLsb' 6 2 != 0

/-- Reserved bits, or a reserved code (R151, R48). -/
def Shape.bad (x : Shape) : Bool := x.resBits || reservedCode x.code

/-- Advance(S) of R153: the cursor after the access, each dimension compared with its extent whether or not it has moved. -/
def Shape.nextAccess (x : Shape) (n0 : Nat) : Word :=
  let step : Nat → Nat → Nat × Nat := fun i e => if i % 65536 = e then (0, 1) else (i % 65536, 0)
  let (i0, c) := step (x.i 0 + 1) n0
  let (i1, c) := step (x.i 1 + c) (x.e 1)
  let (i2, c) := step (x.i 2 + c) (x.e 2)
  let (i3, _) := step (x.i 3 + c) (x.e 3)
  BitVec.ofNat 64 (i0 + i1 * 2 ^ 16 + i2 * 2 ^ 32 + i3 * 2 ^ 48)

/-- The cursor after an LDT: i1 wraps at its own extent, and i2 and i3 take no part (R268). -/
def Shape.nextSub (x : Shape) (n0 n1 : Nat) : Word :=
  let (i0, i1) := (x.i 0 + 1, x.i 1)
  let (i0, i1) := if i0 % 65536 = n0 then (0, i1 + 1) else (i0 % 65536, i1)
  let i1 := if i1 % 65536 = n1 then 0 else i1 % 65536
  (x[7] &&& ~~~0xFFFFFFFF#64) ||| BitVec.ofNat 64 (i0 + i1 * 2 ^ 16)

/-- A shape register after a change of it. -/
def ShapeOp.run (o : ShapeOp) (x : Shape) : Shape :=
  match o with
  | .advance n0 n1 deep => x.set 7 (if deep then x.nextAccess n0 else x.nextSub n0 n1)
  | .field k y => x.set k y
  | .whole y => y

/-- The extent of dimension 0 as Advance(S) counts it: steps where the access converts, one where it has no extent (R153). -/
def Fmt.n0 (f : Fmt) : Nat := if !f.conv then f.e0 else if f.e0 = 0 then 1 else (f.e0 + f.n - 1) / f.n

def Core.shape (k : Core) (n : Fin 16) : Shape := k.shapes[n]
def Core.setShape (k : Core) (n : Fin 16) (x : Shape) : Core := { k with shapes := k.shapes.set n x }

/-- A shape register changes under a number of a sequencer. The change is remembered while it, or one remembered before it, may yet be
taken back (R153, R174). -/
def Core.shapeOp (k : Core) (id : Nat) (q : Seq) (n : Fin 16) (o : ShapeOp) : Core :=
  let u : Undone := ⟨id, q, .shape n o (k.shape n)⟩
  let old := k.undo.dropWhile fun v => !k.mayUndo v
  { k.setShape n (o.run (k.shape n)) with undo := if old.isEmpty && !k.mayUndo u then [] else old ++ [u] }

/-! ## A checked access (R146-R153) -/

/-- A checked access: effective address, its place and entry, how it is decoded, and the rows it needs. -/
structure AccessPlan where
  ea   : Word
  pa   : Nat
  pte  : Word
  fmt  : Fmt
  rows : List Touch
  deriving DecidableEq, Repr

/-- An address translated, with its range checked (R146, R147). -/
def State.resolve (s : State) (va : Word) : State × Except Stop (Word × Nat) :=
  if va.extractLsb' 48 16 ≠ 0 then (s, .error (.trap .addressOutOfRange va))
  else
    match s.translate va with
    | (s, .leaf p big) => if s.dieOut (leafPa p big va) then (s, .error (.wait .other)) else (s, .ok (p, leafPa p big va))
    | (s, .fault c) => (s, .error (.trap c va))
    | (s, .wait) => (s, .error (.wait .other))

/-- Checks 2 to 5 of R148 for the current sequencer. -/
def State.permit (s : State) (pte : Word) (va : Word) (n : Need) : Option Stop :=
  match accessCheck pte (vfOf s.here.ctx) s.me.sup n with
  | .ok => none
  | .fault c => some (.trap c va)
  | .violation k => some (.violation k va)

/-- What kind of access is made. -/
inductive Kind where
  | ldr | ldl | lds | pref | str | stl | strm
  deriving DecidableEq, Repr

def Kind.store : Kind → Bool
  | .str | .stl | .strm => true
  | _ => false

/-- Whether it goes through the stash where a window covers it (R167). -/
def Kind.stash (k : Kind) : Bool :=
  match k with
  | .ldr | .str | .stl | .strm | .pref => true
  | .ldl | .lds => false

/-- Further rows of an access, translated and checked like the first. -/
def State.resolveRows (s : State) (need : Bool → Need) (stash : Bool) (code : Layout) :
    List Word → List Touch → State × Except Stop (List Touch)
  | [], acc => (s, .ok acc)
  | va :: rest, acc =>
    match s.resolve va with
    | (s, .error e) => (s, .error e)
    | (s, .ok (p, pa)) =>
      match s.permit p va (need (stash && s.here.fillsAt va)) with
      | some e => (s, .error e)
      | none => s.resolveRows need stash code rest (acc ++ [⟨va, pa, code, pteDiscard p == 1⟩])

/-- Check 6 of R148 for rows of a KVPG page that an access converts: slot rows only, in the format that the header of each row's own page
names (R159). -/
def State.kvRowsOk (s : State) (code : Layout) (ts : List Touch) : Option Word :=
  (ts.find? fun t => !loadOk 0x1A code (s.peek (t.pa / 65536 * 65536 + 38)) ((t.pa / 256) % 256 == 0)).map (·.va)

/-- The rows of a step, from its row origin: of a BMV block all that a store may write, the first for a load (R162, R163). -/
def planRows (kind : Kind) (f : Fmt) (geom : Nat) (ea : Word) : List Word :=
  let origin := rowOf ea
  if !f.conv then [origin]
  else if isBmv f.page then
    (if kind.store then (List.range geom).map fun k => origin + BitVec.ofNat 64 (256 * k) else [origin])
  else (stepRows f.page f.code f.first f.n f.e0).map fun k => origin + BitVec.ofNat 64 (256 * k)

/-- The access of an M-format word: its address under R153 and the checks of R148 that are made at issue, before R167's that a window
covers it. A geometry in a shape of an access that is no BMV store is ignored (R151 names no trap for it; DESIGN CHOICE, log 77). `gw` is the element
width of a cracked access, which converts whatever its page's layout, with one row a step where that is the identity (R389). -/
def State.plan (s : State) (kind : Kind) (base : Fin 32) (sh : Fin 16) (gran : Gran) (off : BitVec 32) (gw : Nat := 0) :
    State × Except Stop AccessPlan :=
  let S := s.here.shape sh
  let bad : Except Stop AccessPlan := .error (.trap .reservedOperand 0)
  if S.bad then (s, bad)
  else if S.stream && (S.e 1 == 0 || S.e 2 == 0 || S.e 3 == 0) then (s, bad)
  else
    let ea0 := S[0] + s.reg base + off.signExtend 64
    let ea1 := if S.stream then
        ea0 + BitVec.ofNat 64 (S.i 1) * S.d 1 + BitVec.ofNat 64 (S.i 2) * S.d 2 + BitVec.ofNat 64 (S.i 3) * S.d 3
      else ea0
    let step := if S.stream then BitVec.ofNat 64 (S.i 0) * (if gw = 0 then S.d 0 else 256) else 0
    match s.resolve (if S.code = 0 then ea1 + step else ea1) with
    | (s, .error e) => (s, .error e)
    | (s, .ok (p, _)) =>
      let page := pteCode p
      let emb := isEmbc page
      let code := if S.code = 0 then (if emb then (valueCode page).getD 0 else page) else S.code
      let named := S.code != 0 && S.code != page
      let conv := named || (emb && !kind.store)
      let ea := if conv then ea1 else ea1 + step
      match s.resolve ea with
      | (s, .error e) => (s, .error e)
      | (s, .ok (p, pa)) =>
        if S.stream && !conv && S.e 0 == 0 then (s, bad)
        else if conv && (gran != .row || kind == .ldl) && (named || kind != .pref) then (s, bad)
        else if kind.store && conv && isBmv page && (S.geom == 0 || decide (4 < S.geom)) then
          (s, .error (.trap .reservedOperand (rowOf ea)))
        else
          let n := if gw = 0 then stepElems code else 2048 / gw
          let first := if conv && S.stream then S.i 0 * n else 0
          let e0 := S.e 0
          let f : Fmt := ⟨code, page, conv, first, n, e0, S.rz, S.sat, S.geom⟩
          let need : Bool → Need := fun fill =>
            ⟨!kind.store || (fill && kind != .strm), kind.store, fill && kind != .strm⟩
          let rows := planRows kind f S.geom ea
          match s.permit p ea (need (kind.stash && rows.contains (rowOf ea) && s.here.fillsAt ea)) with
          | some e => (s, .error e)
          | none =>
            let ok :=
              if kind.store then
                (if conv then kind != .strm && storeOk page code else !isBmv page && !emb && page != 0x18)
              else if conv then page == 0x1A || loadOk page code 0 false
              else page != 0x18
            if !ok then (s, .error (.trap .conversionUnavailable ea))
            else
              match s.resolveRows need kind.stash page rows [] with
              | (s, .error e) => (s, .error e)
              | (s, .ok ts) =>
                match if !kind.store && conv && page == 0x1A then s.kvRowsOk code ts else none with
                | some _ => (s, .error (.trap .conversionUnavailable ea))
                | none => (s, .ok ⟨ea, pa, p, f, ts⟩)

/-! ## Bookkeeping of accesses in flight (R158, R173) -/

/-- Room for one more: 64 for LD, 16 for ST (R173). -/
def Core.accessRoom (k : Core) (q : Seq) : Bool := decide (k.inFlight q < (if q = .st then 16 else 64))

/-- A load of this sequencer that will write a shape register is in flight (R155). -/
def Core.shapePending (k : Core) (q : Seq) (n : Fin 16) : Bool :=
  k.loads.any fun l => l.seq == q && l.dest == .shape n

/-- A load or store of this sequencer in flight has advanced the cursor of a shape register (R154). -/
def Core.shapeUsed (k : Core) (q : Seq) (n : Fin 16) : Bool :=
  (k.loads.any fun l => l.seq == q && l.cursor == some n) || (q == .st && k.stores.any fun x => x.cursor == some n)

/-- Entries of a queue that no store in flight will pop. -/
def Core.entryFor (k : Core) (q : Fin 16) : Option QEntry :=
  (k.queues[q].entries.drop (k.stores.filter fun x => x.q == q).length).head?

/-- The current sequencer changes a shape register; an access that has just taken its number is one of those before it. -/
def State.shapeOp (s : State) (n : Fin 16) (o : ShapeOp) : State := s.mod fun k => k.shapeOp s.fresh s.cur.2 n o

/-- The cursor advances when a STREAM shape is named (R153). -/
def State.advance (s : State) (sh : Fin 16) (f : Fmt) : State :=
  if (s.here.shape sh).stream then s.shapeOp sh (.advance f.n0 0 true) else s

/-- The shape register whose cursor an access advances. -/
def State.cursorOf (s : State) (sh : Fin 16) : Cursor := if (s.here.shape sh).stream then some sh else none

/-- A load joins those in flight, with room claimed in its queue. -/
def State.addLoad (s : State) (l : Load) : State :=
  s.mod fun k =>
    let k := { k with loads := k.loads ++ [l] }
    match l.dest with
    | .queue q => k.claim q
    | .shape _ | .ring _ _ _ => k

def State.addStore (s : State) (x : Store) : State := s.mod fun k => { k with stores := k.stores ++ [x] }

/-- The lines of a direct load. -/
def partsOf (a : AccessPlan) (kind : Kind) (gran : Gran) : List Part :=
  if kind = .ldl then
    let m : BitVec 4 := if gran = .sec then 1 <<< ((a.ea.extractLsb' 5 2).toNat) else 15
    [⟨a.ea &&& ~~~0x7F#64, a.pa / 128 * 128, m, .asked⟩]
  else
    a.rows.flatMap fun t =>
      let row := (t.va - rowOf a.ea).toNat / 256
      let sec : BitVec 8 := if a.fmt.conv && !isBmv a.fmt.page then
          stepSectors a.fmt.page a.fmt.code a.fmt.first a.fmt.n a.fmt.e0 row else 0xFF
      let pa := t.pa / 256 * 256
      [⟨t.va, pa, sec.extractLsb' 0 4, .asked⟩, ⟨t.va + 128, pa + 128, sec.extractLsb' 4 4, .asked⟩].filter fun p => p.mask != 0

/-- Requests for the parts that lie in this package. -/
def partReqs (s : State) (id : Nat) (code : Layout) (hint : Hint) (ps : List Part) : List SliceReq :=
  (ps.filter fun p => decide (p.pa < 2 ^ 47)).map fun p =>
    ⟨s.cur.1, s.here.ctx, s.me.pc, p.va, p.pa, p.mask, code, .read id hint⟩

/-! ## Loads (R158, R171) -/

/-- The record of a load of the current sequencer. -/
def mkLoad (s : State) (id : Nat) (a : AccessPlan) (gran : Gran) (dest : LoadDest) (src : LoadSrc) (cur : Cursor) : Load :=
  ⟨id, s.cur.2, s.me, a.ea, a.pa, gran, a.fmt, pteDiscard a.pte == 1, dest, src, cur⟩

/-- The first touches of an access; one that has no element still lies outside the stash where no window covers it (R167). -/
def State.touchPlan (s : State) (fill : Bool) (hint : Hint) (a : AccessPlan) : State × TouchOut :=
  if a.rows.isEmpty && (s.here.windowOf a.ea).isNone then (s, .stop (.trap .outsideStash a.ea))
  else s.touchAll s.cur.1 s.cur.2 s.me.pc fill hint a.rows

/-- A load of LD (R158): it waits for room in its queue, is checked, touches its stash rows or asks the slices, and joins the
loads in flight. -/
def load (kind : Kind) (o : MOp) (s : State) : State :=
  if !s.here.room o.q then s.block (.destFull o.q)
  else if s.here.shapePending s.cur.2 o.sh || !s.here.accessRoom s.cur.2 then s.block .other
  else
    match s.plan kind o.base o.sh o.gran o.off with
    | (s, .error e) => s.stop e
    | (s, .ok a) =>
      let (id, s) := s.free
      let cur := s.cursorOf o.sh
      if kind = .ldr then
        match s.touchPlan true o.hint a with
        | (s, .stop e) => s.stop e
        | (s, .ok) =>
          let l := mkLoad s id a o.gran (.queue o.q) (.stash (a.rows.map fun t => (t.va, t.pa))) cur
          ((s.addLoad l).advance o.sh a.fmt).retire 8
      else
        let ps := if pteDiscard a.pte = 1 then [] else partsOf a kind o.gran
        let rs := partReqs s id a.fmt.page o.hint ps
        match s.fullSlice s.cur.1 rs with
        | some n => s.block (.slice n)
        | none =>
          let l := mkLoad s id a o.gran (.queue o.q) (.lines ps) cur
          (((s.addLoad l).askSlices rs).advance o.sh a.fmt).retire 8

def execLdr (o : MOp) (s : State) : Out := .next (load .ldr o s)
def execLdl (o : MOp) (s : State) : Out := .next (load .ldl o s)
def execLds (o : MOp) (s : State) : Out := .next (load .lds o s)

/-- The lines that a PREF outside every window fetches. -/
def prefLines (a : AccessPlan) (gran : Gran) : List Part :=
  if gran = .row then a.rows.flatMap fun t =>
    [⟨t.va, t.pa / 256 * 256, 0, .asked⟩, ⟨t.va + 128, t.pa / 256 * 256 + 128, 0, .asked⟩]
  else [⟨a.ea &&& ~~~0x7F#64, a.pa / 128 * 128, 0, .asked⟩]

/-- PREF (R167, R171): a first touch inside a window, else a request to the L2 that asks for no sector; whatever would
fault or violate is dropped, and leaves the cursor as it is (R153, R171; DEDUCED, log 35). -/
def execPref (base : Fin 32) (sh : Fin 16) (gran : Gran) (hint : Hint) (off : BitVec 32) (s : State) : Out :=
  if s.here.shapePending s.cur.2 sh then .next (s.block .other)
  else
    match s.plan .pref base sh gran off with
    | (s, .error (.wait w)) => .next (s.block w)
    | (s, .error _) => .next (s.retire 8)
    | (s, .ok a) =>
      if (s.here.windowOf a.ea).isSome then
        match s.touchAll s.cur.1 s.cur.2 s.me.pc true hint a.rows with
        | (s, .stop (.wait w)) => .next (s.block w)
        | (s, .stop .gone) => .next s
        | (s, .stop _) => .next (s.retire 8)
        | (s, .ok) => .next ((s.advance sh a.fmt).retire 8)
      else
        let (id, s) := s.free
        let ps := if isEmbc a.fmt.page || pteDiscard a.pte == 1 then [] else (prefLines a gran).filter fun p => inHbm p.pa
        let rs := partReqs s id a.fmt.page hint ps
        match s.fullSlice s.cur.1 rs with
        | some n => .next (s.block (.slice n))
        | none => .next (((s.askSlices rs).advance sh a.fmt).retire 8)

/-- A load of a scratchpad row (SPR, and SPW's read-back form). -/
def loadPad (q : Fin 16) (addr : Word) (own : Bool) (s : State) : State :=
  if !s.here.room q then s.block (.destFull q)
  else if !s.here.accessRoom s.cur.2 then s.block .other
  else
    match s.padTarget addr own with
    | .error e => s.stop e
    | .ok (c, r) =>
      if (s.core c).rowBusy r.val then s.execTrap .stashRowBusy addr
      else
        let (id, s) := s.free
        let l : Load := ⟨id, s.cur.2, s.me, addr, 0, .row, ⟨0, 0, false, 0, 0, 0, false, false, 0⟩, false, .queue q, .pad c r, none⟩
        (s.addLoad l).retire 8

def execSpr (o : PadOp) (s : State) : Out := .next (loadPad o.q (s.reg o.base + o.off.signExtend 64) false s)

/-! ## Stores (R158, R172) -/

/-- tval of a fault of an access: its address, and the row origin for what R162 and R163 find in a BMV block (R174). -/
def faultVa (f : Fmt) (c : Cause) (ea : Word) : Word := if f.conv && isBmv f.page && c != .layoutMismatch then rowOf ea else ea

/-- A stop at the first touches of a store, with that tval (R162, R174). -/
def faultStop (f : Fmt) (ea : Word) : Stop → Stop
  | .trap .stashFull va => .trap .stashFull (if f.conv && isBmv f.page then rowOf ea else va)
  | x => x

/-- The record of a store of ST. -/
def mkStore (s : State) (id : Nat) (q : Fin 16) (va : Word) (gran : Gran) (f : Fmt) (rows : List (Word × Nat)) (op : StoreOp)
    (cur : Cursor) : Store :=
  ⟨id, s.me, q, va, gran, f, rows, op, cur⟩

/-- The bits of the rows of a block as the stash holds them, and whether each row's tag is its page's. -/
def State.blockBits (s : State) (c : CoreId) (code : Layout) (rows : List (Word × Nat)) : Option Nat :=
  rows.zipIdx.foldl (fun acc (r, i) =>
    match acc, (s.core c).stashAt r.1 with
    | some x, some h => if (s.padRow c h.row).tag = heldCode code then some (x + (s.padRow c h.row).data.toNat * 2 ^ (2048 * i)) else none
    | _, _ => none) (some 0)

/-- A store through the stash: it waits for its entry, is checked against it (R160), touches its rows, and joins the stores
in flight. A BMV store is checked whole at issue, with every earlier store performed and its rows at hand (R162). A store to a
discarded page touches its rows and is dropped (R149). -/
def store (kind : Kind) (o : MOp) (s : State) : State :=
  if s.here.shapePending s.cur.2 o.sh || !s.here.accessRoom s.cur.2 then s.block .other
  else
    match s.here.entryFor o.q with
    | none => s.block (.queueEmpty [o.q])
    | some e =>
      match s.plan kind o.base o.sh o.gran o.off with
      | (s, .error x) => s.stop x
      | (s, .ok a) =>
        let bmv := a.fmt.conv && isBmv a.fmt.page
        let rows := a.rows.map fun t => (t.va, t.pa)
        if e.tag ≠ 0 ∧ e.tag ≠ a.fmt.code.setWidth 8 then s.execTrap .layoutMismatch a.ea
        else if bmv && !s.here.stores.isEmpty then s.block .other
        else if bmv && a.rows.any fun t => s.here.refusedAt t.va then (s.mod Core.dropRefused).execTrap .layoutMismatch a.ea
        else
          match s.touchPlan (kind != .strm) o.hint a with
          | (s, .stop x) => s.stop (faultStop a.fmt a.ea x)
          | (s, .ok) =>
            let (id, s) := s.free
            let drop := pteDiscard a.pte == 1
            let done : State :=
              ((s.addStore (mkStore s id o.q a.ea o.gran a.fmt rows (.stash (kind == .strm) drop) (s.cursorOf o.sh))).advance
                o.sh a.fmt).retire 8
            if bmv && !drop then
              if a.rows.any fun t => s.here.comingAt t.va then s.block .fill else
              match s.blockBits s.cur.1 a.fmt.page rows with
              | none => s.execTrap .layoutMismatch a.ea
              | some x =>
                match storeBmv a.fmt e.data.toNat x with
                | .trap c => s.execTrap c (faultVa a.fmt c a.ea)
                | .block _ _ => done
            else done

def execStr (o : MOp) (s : State) : Out := .next (store .str o s)
def execStl (o : MOp) (s : State) : Out := .next (store .stl o s)
def execStrm (o : MOp) (s : State) : Out := .next (store .strm o s)

/-- A store to a scratchpad row, or a send (R169, R170). -/
def storePad (q : Fin 16) (addr : Word) (send : Bool) (s : State) : State :=
  if !s.here.accessRoom s.cur.2 then s.block .other
  else
    match s.here.entryFor q with
    | none => s.block (.queueEmpty [q])
    | some _ =>
      match s.padTarget addr (!send) with
      | .error e => s.stop e
      | .ok (c, r) =>
        if !send && (s.core c).rowBusy r.val then s.execTrap .stashRowBusy addr
        else
          let (id, s) := s.free
          let op : StoreOp := if send then .send c r else .pad r
          (s.addStore (mkStore s id q addr .row ⟨0, 0, false, 0, 0, 0, false, false, 0⟩ [] op none)).retire 8

/-- SPW (R169); with q14 or q15 it reads a row back. -/
def execSpw (o : PadOp) (s : State) : Out :=
  let addr := s.reg o.base + o.off.signExtend 64
  .next (if 14 ≤ o.q.val then loadPad o.q addr true s else storePad o.q addr false s)

def execSnd (o : PadOp) (s : State) : Out := .next (storePad o.q (s.reg o.base + o.off.signExtend 64) true s)

/-! ## Shape registers and windows (R155, R156, R164, R166) -/

/-- The shape register in the first 64 bytes of an entry. -/
def shapeOf (x : Nat) : Shape := Vector.ofFn fun (k : Fin 8) => BitVec.ofNat 64 (x >>> (64 * k.val))

/-- SHLD (R155): from memory, through the stash inside a window and from the L2 outside; or from q14 or q15 on LD. -/
def execShld (sh : Fin 16) (src : ShldSrc) (s : State) : Out :=
  if s.here.shapePending s.cur.2 sh || s.here.shapeUsed s.cur.2 sh then .next (s.block .other)
  else
    match src with
    | .queue q =>
      match s.here.queues[q].entries with
      | [] => .next (s.block (.queueEmpty [q]))
      | e :: _ =>
        let u := s.change (.entry q e)
        .next (((s.mod fun k => (k.onQueue q DQueue.pop).noteChange u).shapeOp sh (.whole (shapeOf e.data.toNat))).retire 8)
    | .mem base off =>
      let ea := s.reg base + off.signExtend 64
      if !s.here.accessRoom s.cur.2 then .next (s.block .other)
      else
        match s.resolve ea with
        | (s, .error e) => .next (s.stop e)
        | (s, .ok (p, pa)) =>
          let win := (s.here.windowOf ea).isSome
          match s.permit p ea ⟨true, false, s.here.fillsAt ea⟩ with
          | some e => .next (s.stop e)
          | none =>
            let page := pteCode p
            let f : Fmt := ⟨page, page, false, 0, 0, 0, false, false, 0⟩
            let a : AccessPlan := ⟨ea, pa, p, f, [⟨rowOf ea, pa / 256 * 256, page, pteDiscard p == 1⟩]⟩
            let (id, s) := s.free
            if win then
              match s.touchAll s.cur.1 s.cur.2 s.me.pc true .none a.rows with
              | (s, .stop e) => .next (s.stop e)
              | (s, .ok) =>
                .next ((s.addLoad (mkLoad s id a .row (.shape sh) (.stash [(rowOf ea, pa / 256 * 256)]) none)).retire 8)
            else
              let m : BitVec 4 := if ea.getLsbD 6 then 0xC else 0x3
              let ps : List Part := if pteDiscard p = 1 then [] else [⟨ea &&& ~~~0x7F#64, pa / 128 * 128, m, .asked⟩]
              let rs := partReqs s id page .none ps
              match s.fullSlice s.cur.1 rs with
              | some n => .next (s.block (.slice n))
              | none => .next (((s.addLoad (mkLoad s id a .row (.shape sh) (.lines ps) none)).askSlices rs).retire 8)

/-- SHSET (R156): checks nothing. -/
def execShset (sh : Fin 16) (k : Fin 8) (base : Fin 32) (off : BitVec 32) (s : State) : Out :=
  if s.here.shapePending s.cur.2 sh || s.here.shapeUsed s.cur.2 sh then .next (s.block .other)
  else
    let x := s.reg base + off.signExtend 64
    .next ((s.shapeOp sh (.field k x)).retire 8)

/-- SHGET (R156). -/
def execShget (dst : Fin 32) (sh : Fin 16) (k : Fin 8) (s : State) : Out :=
  if s.here.shapePending s.cur.2 sh then .next (s.block .other)
  else .next ((s.writeS dst (s.here.shape sh)[k] 1).retire 8)

/-- Whether two ranges meet. -/
def meets (a n b m : Nat) : Bool := decide (a < b + m) && decide (b < a + n)

/-- SMAP (R164), its conditions in the table's order; what its sequencer has in flight, which may yet fault, comes first (R174; DESIGN
CHOICE, log 10). -/
def execSmap (w : Fin 16) (base : Fin 32) (lsz : BitVec 5) (row : BitVec 11) (count : BitVec 16) (s : State) : Out :=
  let va := s.reg base
  let n := count.toNat
  let r := row.toNat
  if va.extractLsb' 0 8 ≠ 0 ∨ 27 < lsz.toNat ∨ n = 0 ∨ 2048 < n then
    .next (s.execTrap .reservedOperand)
  else if s.here.inFlight s.cur.2 ≠ 0 then .next (s.block .other)
  else
    let new : Window := ⟨va, lsz, row, count.setWidth 12⟩
    let clash := (s.here.wins[w]).isSome ||
      (s.here.wins.any fun x => match x with
        | some x => meets x.va.toNat x.size va.toNat new.size || meets x.row.toNat x.count.toNat r n
        | none => false) ||
      (s.here.stash.any fun x => decide (r ≤ x.row.val) && decide (x.row.val < r + n))
    if clash then .next (s.execTrap .stashWindowOverlap)
    else if (match s.here.strand with
        | some st => decide (st.rows < r + n)
        | none => true) then .next (s.execTrap .rowNotClaimed)
    else .next ((s.mod fun k => { k with wins := k.wins.set w (some new) }).retire 8)

/-- SUNMAP (R166): filled rows stay held to the phase end; a row on its way becomes held when it comes. What its sequencer has in flight
comes first, as at SMAP. -/
def execSunmap (w : Fin 16) (s : State) : Out :=
  if s.here.inFlight s.cur.2 ≠ 0 then .next (s.block .other)
  else if (s.here.wins[w]).isNone then .next (s.retire 8)
  else
    .next ((s.mod fun k => Core.dropRefused { k with
      wins := k.wins.set w none
      stash := k.stash.map fun r => if r.win == w && r.use == .filled then { r with use := .held } else r }).retire 8)

end Sys2Proof.Machine
end

