-- ==== Sys2Proof/Machine/Reach.lean ====
section
/-! DEFINITION. Accesses that translate at once and read or write the L2 directly: those of the tile cutter (R284), of an LDT's
delta (R269), and of the engines (R307). -/

namespace Sys2Proof.Machine

/-! ## Translation with checks 1 to 4 of R148 -/

/-- An address translated for a core by its cluster, with its range and its entry checked. -/
def State.reachVa (s : State) (c : CoreId) (who : Asker) (sup : Bool) (need : Need) (va : Word) :
    State × Except Stop (Word × Nat) :=
  if va.extractLsb' 48 16 ≠ 0 then (s, .error (.trap .addressOutOfRange va))
  else
    match s.translateNow (clusterOf c) who va with
    | (s, .lost) => (s, .error .gone)
    | (s, .wait) => (s, .error (.wait .other))
    | (s, .fault x) => (s, .error (.trap x va))
    | (s, .leaf p big) =>
      match accessCheck p (vfOf who.ctx) sup need with
      | .ok => if s.dieOut (leafPa p big va) then (s, .error (.wait .other)) else (s, .ok (p, leafPa p big va))
      | .fault x => (s, .error (.trap x va))
      | .violation k => (s, .error (.violation k va))

/-! ## Reads -/

/-- Sectors of a line that n bytes from an offset touch. -/
def touchedMask (off n : Nat) : BitVec 4 :=
  (List.range 4).foldl (fun m i => if off < 32 * (i + 1) ∧ 32 * i < off + n then m ||| (1 <<< i) else m) 0

/-- What a read gives: the entry, the physical address, the bytes as a number, and the classes found. -/
structure Got where
  pte : Word
  pa  : Nat
  x   : Nat
  cls : List (Word × Nat × Bool)
  deriving DecidableEq, Repr

def Got.page (g : Got) : Layout := pteCode g.pte

/-- Bytes of lines from an address on; `va` names the same bytes. -/
def State.readLines (s : State) (who : Asker) (va : Word) (code : Layout) (hint : Hint) :
    Nat → Nat → Nat → State × Except Stop (Nat × List (Word × Nat × Bool))
  | _, _, 0 => (s, .ok (0, []))
  | pa, n, fuel + 1 =>
    if n = 0 then (s, .ok (0, []))
    else
      let off := pa % 128
      let k := min n (128 - off)
      match s.memRead who pa (touchedMask off k) code hint with
      | (s, .refused) => (s, .error (.trap .layoutMismatch va))
      | (s, .lost) => (s, .error .gone)
      | (s, .denied) => (s, .error (.violation .foreignPage va))
      | (s, .got d cls) =>
        let x := (d.toNat >>> (8 * off)) % 2 ^ (8 * k)
        let base := va - BitVec.ofNat 64 off
        let here := cls.map fun e => (base + BitVec.ofNat 64 (32 * e.1), e.2)
        match s.readLines who (va + BitVec.ofNat 64 k) code hint (pa + k) (n - k) fuel with
        | (s, .error e) => (s, .error e)
        | (s, .ok (y, more)) => (s, .ok (x + y * 2 ^ (8 * k), here ++ more))

/-- n bytes at an address, all in one 256-B row; a discarded page gives what R47 says. -/
def State.readAt (s : State) (c : CoreId) (who : Asker) (sup : Bool) (va : Word) (n : Nat) (hint : Hint := .none) :
    State × Except Stop Got :=
  match s.reachVa c who sup ⟨true, false, false⟩ va with
  | (s, .error e) => (s, .error e)
  | (s, .ok (p, pa)) =>
    let page := pteCode p
    if pteDiscard p = 1 then
      (s, .ok ⟨p, pa, ((discardRow page (s.slotFormat page pa)).toNat >>> (8 * (pa % 256))) % 2 ^ (8 * n), []⟩)
    else
      match s.readLines who va page hint pa n 3 with
      | (s, .error e) => (s, .error e)
      | (t, .ok (x, cls)) => (t, if s.endedBy t c who.ctx then .error .gone else .ok ⟨p, pa, x, cls⟩)

/-! ## BMV blocks (R163) -/

/-- A BMV block: the layout of its page, whether that is discarded, its rows as they stand. -/
structure Block where
  page : Layout
  discarded : Bool
  bits : Nat
  cls  : List (Word × Nat × Bool)
  deriving DecidableEq, Repr

/-- Rows of a block after the first. -/
def State.readBlockRows (s : State) (c : CoreId) (who : Asker) (sup : Bool) (va : Word) :
    Nat → Nat → State × Except Stop (Nat × List (Word × Nat × Bool))
  | _, 0 => (s, .ok (0, []))
  | k, n + 1 =>
    match s.readAt c who sup (va + BitVec.ofNat 64 (256 * k)) 256 with
    | (s, .error e) => (s, .error e)
    | (s, .ok g) =>
      match s.readBlockRows c who sup va (k + 1) n with
      | (s, .error e) => (s, .error e)
      | (s, .ok (y, more)) => (s, .ok (g.x * 2 ^ (2048 * k) + y, g.cls ++ more))

/-- A block read whole, its header checked; `other` is the cause where the page holds no blocks. -/
def State.readBlock (s : State) (c : CoreId) (who : Asker) (sup : Bool) (va : Word) (other : Cause) : State × Except Stop Block :=
  match s.readAt c who sup va 256 with
  | (s, .error e) => (s, .error e)
  | (s, .ok g) =>
    if !isBmv g.page then (s, .error (.trap other va))
    else if pteDiscard g.pte = 1 then (s, .ok ⟨g.page, true, 0, []⟩)
    else if bmvBad g.page g.x then (s, .error (.trap .badBlockHeader va))
    else
      match s.readBlockRows c who sup va 1 (bmvCap g.x - 1) with
      | (s, .error e) => (s, .error e)
      | (s, .ok (y, more)) => (s, .ok ⟨g.page, false, g.x + y, g.cls ++ more⟩)

/-- The code of element i of a block; none where its bit is clear or lies beyond the extent. -/
def Block.elem (b : Block) (i : Nat) : Option Nat :=
  let size := bmvSize b.page
  if bmvExtent b.bits ≤ i ∨ fieldAt (bmvMask b.bits) i 1 = 0 then none
  else some (fieldAt b.bits (8 * (72 + popCount (bmvMask b.bits) i * size)) (8 * size))

/-- Its value; an element of a discarded block is the NaN of R47. -/
def Block.value (b : Block) (i : Nat) : FV :=
  let code := (valueCode b.page).getD 0
  if b.discarded then
    match codeFlt code with
    | some f => decodeF f (discardNan f)
    | none => intF 0
  else
    match b.elem i with
    | some x => laneValue code x
    | none => .fin false 0 0

end Sys2Proof.Machine
end

