-- ==== Sys2Proof/Machine/Rings.lean ====
section
/-! DEFINITION. Rings of the tensor engine: the ring word (R267), formats and sub-tiles (R262, R264), slots with their claims
and fills (R265), and what a replay remembers of them (R382). -/

namespace Sys2Proof.Machine

/-! ## Formats (R262, R264) -/

/-- Kind of a format (R262): float or integer. -/
inductive FmtKind where
  | flt | int
  deriving DecidableEq, Repr

/-- A format of R262: its kind, bits of an element, bytes of a descriptor, element float format, zero points. -/
structure TFmt where
  kind : FmtKind
  w    : Nat
  ds   : Nat
  flt  : Option Flt
  asym : Bool
  deriving DecidableEq, Repr

/-- The formats a ring may hold. -/
def tfmt (c : Layout) : Option TFmt :=
  match c.toNat with
  | 0x0D | 0x0E => some ⟨.flt, 4, 1, some .e2m1, false⟩
  | 0x08 => some ⟨.flt, 8, 0, some .e4m3, false⟩
  | 0x09 => some ⟨.flt, 8, 0, some .e5m2, false⟩
  | 0x0F => some ⟨.flt, 8, 1, some .e4m3, false⟩
  | 0x10 => some ⟨.flt, 8, 1, some .e5m2, false⟩
  | 0x0A => some ⟨.flt, 16, 0, some .fp16, false⟩
  | 0x0B => some ⟨.flt, 16, 0, some .bf16, false⟩
  | 0x02 => some ⟨.int, 4, 0, none, false⟩
  | 0x03 | 0x04 | 0x05 => some ⟨.int, 4, 4, none, true⟩
  | 0x01 => some ⟨.int, 8, 0, none, false⟩
  | 0x06 | 0x07 => some ⟨.int, 8, 4, none, true⟩
  | _ => none

/-- Lines of a role: 32 for A, 64 for B. -/
def roleLines (role : Bool) : Nat := if role then 64 else 32

/-- Rows of the element area of a sub-tile. -/
def TFmt.elemRows (f : TFmt) (role : Bool) : Nat := (roleLines role * 3 * f.w + 255) / 256

/-- Rows of a sub-tile: the element area, then the descriptors. -/
def TFmt.subRows (f : TFmt) (role : Bool) : Nat := f.elemRows role + (roleLines role * 3 * f.ds + 255) / 256

/-- Bit position of element k of a line, and of descriptor g of a line, within a sub-tile. -/
def TFmt.elemBit (f : TFmt) (line k : Nat) : Nat := (24 * line + k) * f.w
def TFmt.descBit (f : TFmt) (role : Bool) (line g : Nat) : Nat := 2048 * f.elemRows role + 8 * ((3 * line + g) * f.ds)

/-! ## The ring word (R267) -/

def Ring.fmt (r : Ring) : Layout := r.word.extractLsb' 31 6
def Ring.ix (r : Ring) : Bool := r.word.getLsbD 30
def Ring.role (r : Ring) : Bool := r.word.getLsbD 29
def Ring.ks (r : Ring) : Nat := (r.word.extractLsb' 25 4).toNat
def Ring.srows (r : Ring) : Nat := (r.word.extractLsb' 18 7).toNat
def Ring.count (r : Ring) : Nat := (r.word.extractLsb' 11 7).toNat
def Ring.base (r : Ring) : Nat := (r.word.extractLsb' 0 11).toNat

/-- The ring's format as R262 describes it. -/
def Ring.tf (r : Ring) : TFmt := (tfmt r.fmt).getD ⟨.flt, 16, 0, none, false⟩

def Ring.lines (r : Ring) : Nat := roleLines r.role
def Ring.subRows (r : Ring) : Nat := r.tf.subRows r.role

/-- First row of a slot, of a sub-tile of it, and its index row (R265). -/
def Ring.slotRow (r : Ring) (slot : Nat) : Nat := r.base + slot * r.srows
def Ring.subRow (r : Ring) (slot sub : Nat) : Nat := r.slotRow slot + sub * r.subRows
def Ring.indexRow (r : Ring) (slot : Nat) : Nat := r.slotRow slot + r.ks * r.subRows

/-- Full slots. -/
def Ring.fullCount (r : Ring) : Nat := (r.slots.filter fun x => x.full).length

/-! ## Slots (R265, R289) -/

def Slot.empty : Slot := ⟨0, 0, false, .replicate 8 0, .replicate 8 0, none, .none, 0, 0⟩

/-- A ring with a word and all its slots empty. -/
def Ring.make (w : Word) : Ring := { Ring.reset with word := w, slots := .replicate (Ring.count { Ring.reset with word := w }) .empty }

def Ring.slot (r : Ring) (n : Nat) : Slot := r.slots.getD n .empty
def Ring.onSlot (r : Ring) (n : Nat) (f : Slot → Slot) : Ring := { r with slots := r.slots.modify n f }

/-- The slot after one. -/
def Ring.after (r : Ring) (n : Nat) : Nat := (n + 1) % r.count

/-- A sub-tile of the slot at the fill pointer can be claimed. -/
def Ring.room (r : Ring) : Bool := r.count != 0 && !(r.slot r.fillp).full && decide ((r.slot r.fillp).claimed < r.ks)

/-- The slot at the fill pointer is empty. -/
def Ring.roomWhole (r : Ring) : Bool := r.room && (r.slot r.fillp).claimed == 0

/-- The next sub-tile is claimed: its slot and number, with the ring. -/
def Ring.claimSub (r : Ring) : Nat × Nat × Ring :=
  let n := r.fillp
  let sub := (r.slot n).claimed
  let r' := r.onSlot n fun x => { x with claimed := x.claimed + 1 }
  (n, sub, { r' with coming := r.coming + 1, fillp := if sub + 1 = r.ks then r.after n else n })

/-- The claim of one sub-tile is undone. The fill pointer goes back to its slot, also where another filler has claimed a later one (DESIGN
CHOICE, log 93). -/
def Ring.unclaimSub (r : Ring) (n : Nat) : Ring :=
  { r.onSlot n (fun x => { x with claimed := x.claimed - 1 }) with coming := r.coming - 1, fillp := n }

/-- A whole slot is claimed. -/
def Ring.claimSlot (r : Ring) : Nat × Ring :=
  let n := r.fillp
  (n, { r.onSlot n (fun x => { x with claimed := r.ks }) with fillp := r.after n })

/-- A slot whose filling stops returns to empty, its claim undone. -/
def Ring.dropSlot (r : Ring) (n : Nat) : Ring := { r.onSlot n (fun _ => .empty) with fillp := n }

/-- A sub-tile has been written: its counts; the slot is full with its last one. -/
def Ring.filled (r : Ring) (n sub kv lv : Nat) : Ring :=
  { r.onSlot n (fun x =>
      { x with fill := x.fill + 1, full := decide (r.ks ≤ x.fill + 1),
               kv := if h : sub < 8 then x.kv.set sub kv else x.kv, lv := if h : sub < 8 then x.lv.set sub lv else x.lv }) with
    coming := r.coming - 1 }

/-- The head slot is popped and becomes empty (R265, R272). -/
def Ring.pop (r : Ring) : Ring := { r.onSlot r.head (fun _ => .empty) with head := r.after r.head }

/-! ## The rings of a core -/

def Core.ring (k : Core) (n : Fin 8) : Ring := k.tens.rings[n]

def Core.onTensor (k : Core) (f : Tensor → Tensor) : Core := { k with tens := f k.tens }

def Core.setRing (k : Core) (n : Fin 8) (r : Ring) : Core := k.onTensor fun t => { t with rings := t.rings.set n r }

def State.onTensor (s : State) (c : CoreId) (f : Tensor → Tensor) : State := s.onCore c fun k => k.onTensor f

/-- A slot is claimed: a replay may no longer count on what it held, where the window retired it (R382). -/
def Tensor.noteClaim (t : Tensor) (r : Fin 8) (slot : Nat) : Tensor :=
  if t.replay.retired.any fun x => x.1 == r && x.2.1 == slot then { t with replay := { t.replay with spoiled := true } } else t

def Core.noteClaim (k : Core) (r : Fin 8) (slot : Nat) : Core := k.onTensor fun t => t.noteClaim r slot

/-- A tile changes (R277). -/
def Tensor.onTile (t : Tensor) (n : Fin 4) (f : Tile → Tile) : Tensor := { t with tiles := t.tiles.set n (f t.tiles[n]) }

/-- Release: the watermark returns to 0 and the tile is no longer held (R277). Rows that had yet to become final when the tile goes free
early do not any more (DESIGN CHOICE, log 91). -/
def Tensor.release (t : Tensor) (n : Fin 4) : Tensor :=
  { t.onTile n (fun x => { x with wm := 0, held := false }) with
    flight := t.flight.filter fun f => !(f.tile == n && f.op == .final) }

/-- The tile that a TRD names with REL goes free as its entry is pushed, and a replay that would need it is spoiled (R278, R380). -/
def State.releaseTile (s : State) (c : CoreId) (rel : Option (Fin 4)) : State :=
  match rel with
  | none => s
  | some n => s.onTensor c fun t =>
    { t.release n with replay := { t.replay with spoiled := t.replay.spoiled || t.replay.touched.getLsbD n.val } }

/-! ## Configuration (R267) -/

/-- Whether two ranges of rows meet. -/
def rowsMeet (a n b m : Nat) : Bool := decide (a < b + m) && decide (b < a + n)

/-- What is wrong with a ring word for a ring of a core whose strand claims `claim` rows. -/
def ringFault (rings : Vector Ring 8) (n : Fin 8) (w : Word) (claim : Nat) : Option Cause :=
  let r : Ring := { Ring.reset with word := w }
  let badFmt := match tfmt r.fmt with
    | none => true
    | some f => decide (r.srows < r.ks * f.subRows r.role + bif r.ix then 1 else 0)
  if w.extractLsb' 37 27 != 0 || r.ks == 0 || decide (8 < r.ks) || r.srows == 0 || r.count == 0 || badFmt then some .reservedOperand
  else if 2048 < r.base + r.count * r.srows ∨ claim < r.base + r.count * r.srows then some .rowNotClaimed
  else if (List.finRange 8).any fun m => m != n && rings[m].count != 0 &&
      rowsMeet rings[m].base (rings[m].count * rings[m].srows) r.base (r.count * r.srows) then some .ringOverlap
  else none

end Sys2Proof.Machine
end

