-- ==== Sys2Proof/Machine/RingLoad.lean ====
section
/-! DEFINITION. LDT (R268-R270): the checks at issue, and the sub-tile that its data comes to. -/

namespace Sys2Proof.Machine

/-! ## Issue (R268, R270) -/

/-- What a row pitch must be a multiple of: the group or block size, 2 for INT4. -/
def pitchUnit (page : Layout) : Nat :=
  match page.toNat with
  | 0x0D => 24
  | 0x0E | 0x0F | 0x10 => 32
  | 0x03 | 0x06 => 32
  | 0x04 | 0x07 => 64
  | 0x05 => 128
  | 0x02 => 2
  | _ => 1

/-- Matrix rows and K elements of the shape. -/
def Shape.cursorAt (x : Shape) : Nat × Nat := if x.stream then (x.i 0, x.i 1) else (0, 0)

/-- The advance of an LDT: n0 = ceil(e0 ÷ 24), i1 wraps at ceil(e1 ÷ L) (R268). -/
def Shape.subAdvance (x : Shape) (lines : Nat) : ShapeOp :=
  .advance ((x.e 0 + 23) / 24) ((x.e 1 + lines - 1) / lines) false

/-- The rows of memory that hold a sub-tile's elements and their metadata, with the sectors of each: index from ea. -/
def subRows (page : Layout) (first pitch kv lv : Nat) : List (Nat × BitVec 8) :=
  (List.range lv).foldl (fun acc j =>
    let f := first + j * pitch
    (stepRows page page f kv 0).foldl (fun acc r =>
      let m := stepSectors page page f kv 0 r
      if acc.any fun x => x.1 == r then acc.map fun x => if x.1 == r then (r, x.2 ||| m) else x else acc ++ [(r, m)]) acc) []

/-- The rows translated and checked, in order; a page of another layout is refused (R269). -/
def State.resolveSub (s : State) (ea : Word) (page : Layout) :
    List (Nat × BitVec 8) → List SubRow → State × Except Stop (List SubRow)
  | [], acc => (s, .ok acc)
  | (r, m) :: rest, acc =>
    let va := ea + BitVec.ofNat 64 (256 * r)
    match s.resolve va with
    | (s, .error e) => (s, .error e)
    | (s, .ok (p, pa)) =>
      match s.permit p va ⟨true, false, false⟩ with
      | some e => (s, .error e)
      | none =>
        if pteCode p ≠ page then (s, .error (.trap .layoutMismatch va))
        else s.resolveSub ea page rest (acc ++ [⟨r, va, pa / 256 * 256, m, pteDiscard p == 1⟩])

/-- The shape checks of R270 that need no page. -/
def ldtBad (S D : Shape) (lines : Nat) : Bool :=
  let (i0, i1) := S.cursorAt
  S.bad || D.bad || decide (8 ≤ S.ring.toNat) || S.e 0 == 0 || S.e 1 == 0 || decide ((S.d 1).toInt < (S.e 0 : Int)) ||
    decide ((S.e 0 + 23) / 24 ≤ i0) || decide ((S.e 1 + lines - 1) / lines ≤ i1) ||
    (D[0] != 0 && (D.geom == 0 || decide (4 < D.geom)))

/-- Formats a delta can be added in, and pages it can be added to (R269). -/
def deltaOk (page fmt : Layout) : Bool := (fmt == 0x0B || fmt == 0x0A || fmt == 0x08) && (tfmt page).isSome

/-- LDT: it waits for a slot of its ring, is checked, claims a sub-tile and joins the loads in flight. -/
def execLdt (delta : Fin 16) (base : Fin 32) (sh : Fin 16) (hint : Hint) (off : BitVec 32) (s : State) : Out :=
  if s.here.shapePending s.cur.2 sh || s.here.shapePending s.cur.2 delta || !s.here.accessRoom s.cur.2 then .next (s.block .other)
  else
    let S := s.here.shape sh
    let D := s.here.shape delta
    let n : Fin 8 := (S.ring.extractLsb' 0 3).toFin
    let r := s.here.ring n
    if ldtBad S D r.lines then .next (s.execTrap .reservedOperand)
    else if r.count = 0 then .next (s.execTrap .ringNotConfigured)
    else
      let ea := (S[0] + s.reg base + off.signExtend 64) &&& ~~~0xFF#64
      match s.resolve ea with
      | (s, .error e) => .next (s.stop e)
      | (s, .ok (p, _)) =>
        let page := pteCode p
        match s.permit p ea ⟨true, false, false⟩ with
        | some e => .next (s.stop e)
        | none =>
          if S.code ≠ 0 ∧ S.code ≠ page then .next (s.execTrap .layoutMismatch ea)
          else if (S.d 1).toNat % pitchUnit page ≠ 0 then .next (s.execTrap .reservedOperand)
          else if D[0] = 0 ∧ page ≠ r.fmt then .next (s.execTrap .layoutMismatch ea)
          else if D[0] ≠ 0 ∧ !deltaOk page r.fmt then .next (s.execTrap .conversionUnavailable ea)
          else if !r.room then .next (s.block .other)
          else
            let (i0, i1) := S.cursorAt
            let pitch := (S.d 1).toNat
            let kv := min 24 (S.e 0 - 24 * i0)
            let lv := min r.lines (S.e 1 - i1 * r.lines)
            let first := i1 * r.lines * pitch + 24 * i0
            match s.resolveSub ea page (subRows page first pitch kv lv) [] with
            | (s, .error e) => .next (s.stop e)
            | (s, .ok rows) =>
              let (id, s) := s.free
              let (slot, sub, r') := r.claimSub
              let t : SubTile := ⟨r.fmt, page, first, pitch, kv, lv, rows,
                if D[0] = 0 then none else some ⟨D[0], D.geom, (D.d 1).toNat⟩, 24 * i0, i1 * r.lines, s.me.sup, hint⟩
              let a : AccessPlan := ⟨ea, 0, p, ⟨page, page, false, 0, 0, 0, false, false, 0⟩, []⟩
              let l := mkLoad s id a .row (.ring n slot sub) (.sub t) (s.cursorOf sh)
              let s := s.mod fun k => (k.setRing n r').noteClaim n slot
              let s := s.addLoad l
              .next ((if S.stream then s.shapeOp sh (S.subAdvance r.lines) else s).retire 8)

/-! ## The data (R264, R269) -/

/-- What the data of an LDT comes to: the sub-tile's bits and which of them are written. -/
inductive SubOut where
  | tile (bits mask : Nat) (cls : List (Word × Nat × Bool))
  | stop (x : Stop)
  deriving DecidableEq, Repr

/-- The rows of a sub-tile read: index from ea, and contents. -/
def State.readSubRows (s : State) (who : Asker) (t : SubTile) :
    List SubRow → State × Except Stop (List (Nat × Nat) × List (Word × Nat × Bool))
  | [] => (s, .ok ([], []))
  | r :: rest =>
    let (s, here) : State × Except Stop (Nat × List (Word × Nat × Bool)) :=
      if r.discarded then (s, .ok ((discardRow t.page none).toNat, []))
      else
        [0, 1].foldl (fun (acc : State × Except Stop (Nat × List (Word × Nat × Bool))) i =>
          match acc with
          | (s, .error e) => (s, .error e)
          | (s, .ok (x, cls)) =>
            let m : BitVec 4 := r.mask.extractLsb' (4 * i) 4
            let va := r.va + BitVec.ofNat 64 (128 * i)
            if m = 0 then (s, .ok (x, cls))
            else
              match s.memRead who (r.pa + 128 * i) m t.page t.hint with
              | (s, .refused) => (s, .error (.trap .layoutMismatch r.va))
              | (s, .lost) => (s, .error .gone)
              | (s, .denied) => (s, .error (.violation .foreignPage r.va))
              | (s, .got d k) =>
                (s, .ok (x + d.toNat * 2 ^ (1024 * i), cls ++ k.map fun e => (va + BitVec.ofNat 64 (32 * e.1), e.2))))
          (s, .ok (0, []))
    match here with
    | .error e => (s, .error e)
    | .ok (x, cls) =>
      match s.readSubRows who t rest with
      | (s, .error e) => (s, .error e)
      | (s, .ok (xs, more)) => (s, .ok ((r.idx, x) :: xs, cls ++ more))

/-- A field of the matrix's bits. -/
def rowsField (rows : List (Nat × Nat)) (pos w : Nat) : Nat :=
  fieldAt ((rows.find? fun r => r.1 == pos / 2048).map (·.2) |>.getD 0) (pos % 2048) w

/-- Element i of the page as a value, its scale applied exactly. -/
def rowsValue (page : Layout) (rows : List (Nat × Nat)) (i : Nat) : FV :=
  let p := elemPos page page i / 2048
  let x := (rows.find? fun r => r.1 == p).map (·.2) |>.getD 0
  elemValue page page x (i % (unitOf page page).1)

/-- The blocks of a delta that a sub-tile needs, in order. -/
def SubTile.blocks (t : SubTile) (d : Delta) : List Nat :=
  ((List.range t.lv).flatMap fun j =>
    [((t.m0 + j) * d.pitch + t.k0) / 512, ((t.m0 + j) * d.pitch + t.k0 + t.kv - 1) / 512]).eraseDups

/-- Those blocks read, at f0 as it is, aligned to a row or not (DESIGN CHOICE, log 93). -/
def State.readBlocks (s : State) (c : CoreId) (who : Asker) (sup : Bool) (d : Delta) :
    List Nat → State × Except Stop (List (Nat × Block))
  | [] => (s, .ok [])
  | b :: rest =>
    match s.readBlock c who sup (d.base + BitVec.ofNat 64 (b * d.geom * 256)) .conversionUnavailable with
    | (s, .error e) => (s, .error e)
    | (s, .ok x) =>
      match s.readBlocks c who sup d rest with
      | (s, .error e) => (s, .error e)
      | (s, .ok xs) => (s, .ok ((b, x) :: xs))

/-- A delta element; +0 where its block has none. -/
def deltaValue (blocks : List (Nat × Block)) (i : Nat) : FV :=
  match blocks.find? fun b => b.1 == i / 512 with
  | some (_, b) => b.value (i % 512)
  | none => .fin false 0 0

/-- The code of one element of the sub-tile. -/
def SubTile.code (t : SubTile) (f : TFmt) (rows : List (Nat × Nat)) (blocks : List (Nat × Block)) (j q : Nat) : Nat :=
  let i := t.first + j * t.pitch + q
  match t.delta, f.flt with
  | some d, some g => roundF g false false .ldDecode (addF .ldDecode (rowsValue t.page rows i)
      (deltaValue blocks ((t.m0 + j) * d.pitch + t.k0 + q)))
  | _, _ => rowsField rows (elemPos t.page t.page i) f.w

/-- A descriptor of a line's granule: its block's or group's scale and zero point. -/
def SubTile.desc (t : SubTile) (f : TFmt) (rows : List (Nat × Nat)) (j g : Nat) : Nat :=
  match metaPos t.page (t.first + j * t.pitch + 8 * g) with
  | some p => rowsField rows p (if f.ds = 4 then 24 else 8)
  | none => 0

/-- The sub-tile in the form of R264: its bits, and which are written. -/
def SubTile.pack (t : SubTile) (role : Bool) (rows : List (Nat × Nat)) (blocks : List (Nat × Block)) : Nat × Nat :=
  let f := (tfmt t.fmt).getD ⟨.flt, 16, 0, none, false⟩
  (List.range t.lv).foldl (fun (acc : Nat × Nat) j =>
    let acc := (List.range t.kv).foldl (fun (acc : Nat × Nat) q =>
      (acc.1 + t.code f rows blocks j q * 2 ^ f.elemBit j q, acc.2 + (2 ^ f.w - 1) * 2 ^ f.elemBit j q)) acc
    if f.ds = 0 then acc
    else (List.range ((t.kv + 7) / 8)).foldl (fun (acc : Nat × Nat) g =>
      (acc.1 + t.desc f rows j g * 2 ^ f.descBit role j g, acc.2 + (2 ^ (8 * f.ds) - 1) * 2 ^ f.descBit role j g)) acc) (0, 0)

/-- The data of an LDT read and packed. -/
def State.gatherSub (s : State) (c : CoreId) (l : Load) (t : SubTile) (role : Bool) : State × SubOut :=
  let who : Asker := ⟨(s.core c).ctx, l.pc, false⟩
  match s.readSubRows who t t.rows with
  | (s, .error e) => (s, .stop e)
  | (s, .ok (rows, cls)) =>
    match t.delta with
    | none =>
      let (b, m) := t.pack role rows []
      (s, .tile b m cls)
    | some d =>
      match s.readBlocks c who t.sup d (t.blocks d) with
      | (s, .error e) => (s, .stop e)
      | (s, .ok blocks) =>
        let (b, m) := t.pack role rows blocks
        (s, .tile b m (cls ++ blocks.flatMap fun x => x.2.cls))

/-! ## Into the ring (R265) -/

/-- Bits of a run of rows of the own scratchpad change and take a tag. -/
def State.mergeRows (s : State) (c : CoreId) (row : Nat) (bits mask : Nat) (tag : Layout) (pc : Word) : Nat → State
  | 0 => s
  | n + 1 =>
    let r : Fin 2048 := ⟨row % 2048, Nat.mod_lt _ (by decide)⟩
    let m : Row := BitVec.ofNat 2048 mask
    let s := if m = 0 then s else
      let s := s.mergePad c r (BitVec.ofNat 2048 bits) m pc
      s.setPad c r { s.padRow c r with tag := tag, mark := 0 }
    s.mergeRows c (row + 1) (bits >>> 2048) (mask >>> 2048) tag pc n

/-- A sub-tile enters its slot. -/
def State.fillSub (s : State) (c : CoreId) (n : Fin 8) (slot sub : Nat) (bits mask kv lv : Nat) (pc : Word) : State :=
  let r := (s.core c).ring n
  let s := s.mergeRows c (r.subRow slot sub) bits mask r.fmt pc r.subRows
  s.onCore c fun k => k.setRing n (r.filled slot sub kv lv)

end Sys2Proof.Machine
end

