-- ==== Sys2Proof/Machine/Arrive.lean ====
section
/-! DEFINITION. What the memory system does on its own: the arrival of loads (R158, R163, R174), the performing of stores (R158,
R160), the service of slices and walkers (R178-R180, R194), and scrubbing (R366). -/

namespace Sys2Proof.Machine

/-- Addresses of lines, with their sectors, that a load in flight still waits for. -/
def Load.waiting (l : Load) : List (Nat × BitVec 4) :=
  match l.src with
  | .lines ps => (ps.filter fun p => p.st == .asked).map fun p => (p.pa, p.mask)
  | .sub t => t.rows.flatMap fun r => [(r.pa, r.mask.extractLsb' 0 4), (r.pa + 128, r.mask.extractLsb' 4 4)].filter fun x => x.2 != 0
  | _ => []

/-- Addresses of lines that a stash row's fill still waits for. -/
def StashRow.waiting (r : StashRow) : List (Nat × BitVec 4) :=
  match r.use with
  | .filling _ _ lo hi => (if lo = .asked then [(r.pa, 15)] else []) ++ if hi = .asked then [(r.pa + 128, 15)] else []
  | _ => []

/-- Nothing is under way between the pool and memory. -/
def Core.rowsDone (k : Core) : Bool := k.stash.all fun r => !r.pending

/-! ## Late faults (R174, R176) -/

/-- A change taken back (R174, R176). -/
def Core.takeBackChange (k : Core) (u : Undone) : Core :=
  match u.what with
  | .shape n _ x => k.setShape n x
  | .entry q e => k.onQueue q fun d => { d with entries := e :: d.entries, popped := d.popped - 1 }
  | .tokens t n => { k with toks := k.toks.set t (k.toks[t] + n) }
  | .outcome n b => { k with bqs := k.bqs.set n (b :: k.bqs[n]) }

/-- A change that stays although one before it was taken back: a shape register changes again, from what it then holds. -/
def Core.makeAgain (k : Core) (u : Undone) : Core :=
  match u.what with
  | .shape n o _ => { k.setShape n (o.run (k.shape n)) with undo := k.undo ++ [{ u with what := .shape n o (k.shape n) }] }
  | _ => { k with undo := k.undo ++ [u] }

/-- The changes that a sequencer has made from an access of that number on are taken back, the latest first; those of others to the
same shape registers, made after them, stay (R153, R174, R176). -/
def Core.undoFrom (k : Core) (q : Seq) (id : Nat) : Core :=
  let gone : Undone → Bool := fun u => u.seq == q && decide (id < u.id)
  let isShape : Undone → Bool := fun u => match u.what with
    | .shape _ _ _ => true
    | _ => false
  let first := k.undo.takeWhile fun u => !gone u
  let rest := k.undo.dropWhile fun u => !gone u
  let k := (rest.filter fun u => gone u || isShape u).reverse.foldl Core.takeBackChange k
  (rest.filter fun u => !gone u).foldl Core.makeAgain { k with undo := first }

/-- A load is cancelled: room claimed is given back. -/
def Core.cancelLoad (k : Core) (l : Load) : Core :=
  match l.dest with
  | .queue q => k.onQueue q fun d => { d with claimed := d.claimed - 1 }
  | .shape _ => k
  | .ring n slot _ => k.setRing n ((k.ring n).unclaimSub slot)

/-- A pool row that an STRM took and that no store in flight will write any more is free again (R174). -/
def Core.dropTaken (k : Core) : Core :=
  { k with stash := k.stash.filter fun r => r.use != .taken || k.stores.any fun x => x.rows.any fun y => y.1 == r.va }

/-- Every access of a sequencer from a number on is cancelled, the latest first, with what the sequencer has done since. -/
def Core.cancelFrom (k : Core) (q : Seq) (id : Nat) : Core :=
  let mineL : Load → Bool := fun l => l.seq == q && decide (id ≤ l.id)
  let mineS : Store → Bool := fun x => q == .st && decide (id ≤ x.id)
  let k := ((k.loads.filter mineL).reverse.foldl Core.cancelLoad k).undoFrom q id
  Core.dropRefused (Core.dropTaken
    { k with loads := k.loads.filter fun l => !mineL l, stores := k.stores.filter fun x => !mineS x })

/-- A sequencer goes back to an instruction: its registers, loops and status are what they were before it issued (R176). -/
def SeqSt.backTo (q b : SeqSt) : SeqSt :=
  { q with regs := b.regs, pc := b.pc, loops := b.loops, lstk := b.lstk, sup := b.sup, inTrap := b.inTrap, psup := b.psup,
           cause := b.cause, epc := b.epc, tval := b.tval, tvec := b.tvec, sscr := b.sscr, copy := none, gvi := none, wait := .none }

/-- An access found at fault after issue traps its sequencer as it stood before that; later accesses are cancelled, and what the
sequencer has done since is taken back (R174, R176; DEDUCED, log 10). -/
def State.lateFault (s : State) (c : CoreId) (q : Seq) (id : Nat) (b : SeqSt) (cause : Cause) (tval : Word) : State :=
  (s.onCore c fun k => (k.cancelFrom q id).onSeq q (·.backTo b)).trapAt c q cause b.pc tval

/-! ## Loads arrive (R158) -/

/-- What a load's data comes to. -/
inductive Gather where
  | data (x : Nat) (cls : List (Word × Nat × Bool))
  | fault (c : Cause)
  | violation (k : VKind) (va : Word)
  | pending
  | gone
  deriving DecidableEq, Repr

/-- Offset of an address from a row origin, in bits. -/
def bitsFrom (origin va : Word) : Nat := 8 * (va - origin).toNat

/-- Bytes of a row that a granule covers (R150). -/
def granMask (gran : Gran) (va : Word) : Row :=
  match gran with
  | .row => BitVec.allOnes 2048
  | .line => (BitVec.allOnes 1024).setWidth 2048 <<< (8 * (va &&& 0x80#64).toNat)
  | .sec => (BitVec.allOnes 256).setWidth 2048 <<< (8 * (va &&& 0xE0#64).toNat)

/-- The sectors of a line that were asked for; the others are zero. -/
def askedSectors (d : BitVec 1024) (mask : BitVec 4) : BitVec 1024 := mergeLine 0 d mask

/-- Further rows of a load, each translated and checked like the first one (R147, R148, R163); one on a page of another layout is found
at its data (check 7). -/
def State.resolveMore (s : State) (c : CoreId) (l : Load) : List Word → List Touch → State × Except Stop (List Touch)
  | [], acc => (s, .ok acc)
  | va :: rest, acc =>
    let stash := match l.src with
      | .stash _ => true
      | _ => false
    let k := s.core c
    match s.reachVa c ⟨k.ctx, l.pc, false⟩ l.before.sup ⟨true, false, stash && k.fillsAt va⟩ va with
    | (s, .error e) => (s, .error e)
    | (s, .ok (p, pa)) => s.resolveMore c l rest (acc ++ [⟨va, pa, pteCode p, pteDiscard p == 1⟩])

/-- What a stop of an access under way comes to. -/
def Stop.gather (e : Stop) : Gather :=
  match e with
  | .wait _ => .pending
  | .trap x _ => .fault x
  | .violation k va => .violation k va
  | .gone => .gone

/-- Rows touched for a load under way; a page of another layout than the load's is a fault (R148 check 7). -/
def State.touchMore (s : State) (c : CoreId) (l : Load) (ts : List Touch) : State × Gather :=
  if ts.any fun t => t.code != l.fmt.page then (s, .fault .layoutMismatch)
  else
    match s.touchEach c l.seq l.pc true .none ts with
    | (s, .stop e) => (s, e.gather)
    | (s, .ok) => (s, .pending)

/-- A row that has no pool row any more, since the STRM that took it has been cancelled, is touched anew. -/
def State.touchAgain (s : State) (c : CoreId) (l : Load) (va : Word) : State × Gather :=
  match s.resolveMore c l [va] [] with
  | (s, .error e) => (s, e.gather)
  | (s, .ok ts) => s.touchMore c l ts

/-- Stash rows of a load: each must be filled under its page's code (R148 check 7). -/
def State.gatherRows (s : State) (c : CoreId) (l : Load) (base : Word) :
    List (Word × Nat) → Nat → List (Word × Nat × Bool) → State × Gather
  | [], x, cls => (s, .data x cls)
  | (va, _) :: rest, x, cls =>
    match (s.core c).stashAt va with
    | none =>
      if (s.core c).comingAt va then (s, .pending)
      else if (s.core c).refusedAt va then (s, .fault .layoutMismatch)
      else s.touchAgain c l va
    | some r =>
      if (s.padRow c r.row).tag ≠ heldCode l.fmt.page then (s, .fault .layoutMismatch)
      else
        match s.readPad c r.row l.pc with
        | (s, none) => (s, .gone)
        | (s, some (d, k)) =>
          s.gatherRows c l base rest (x + d.toNat * 2 ^ bitsFrom base va)
            (cls ++ k.map fun e => (va + BitVec.ofNat 64 (32 * e.1), e.2))

/-- Lines of a direct load; those on another package are fetched now. -/
def State.gatherParts (s : State) (l : Load) (ctx : Ctx) (base : Word) :
    List Part → Nat → List (Word × Nat × Bool) → State × Gather
  | [], x, cls => (s, .data x cls)
  | p :: rest, x, cls =>
    let put : BitVec 1024 → Nat := fun d => x + (askedSectors d p.mask).toNat * 2 ^ bitsFrom base p.va
    let note : Classed → List (Word × Nat × Bool) := fun k => cls ++ k.map fun e => (p.va + BitVec.ofNat 64 (32 * e.1), e.2)
    match p.st with
    | .refused => (s, .fault .layoutMismatch)
    | .got d k => s.gatherParts l ctx base rest (put d) (note k)
    | .asked =>
      if p.pa < 2 ^ 47 then (s, .pending)
      else
        match s.memRead ⟨ctx, l.pc, false⟩ p.pa p.mask l.fmt.page .na with
        | (s, .got d k) => s.gatherParts l ctx base rest (put d) (note k)
        | (s, .refused) => (s, .fault .layoutMismatch)
        | (s, .lost) => (s, .gone)
        | (s, .denied) => (s, .violation .foreignPage p.va)

/-- Lines read in order, each where it lies. -/
def State.fetchParts (s : State) (who : Asker) (code : Layout) : List Part → List Part → State × Except Stop (List Part)
  | [], acc => (s, .ok acc)
  | p :: ps, acc =>
    match s.memRead who p.pa p.mask code .none with
    | (s, .got d cls) => s.fetchParts who code ps (acc ++ [{ p with st := .got d cls }])
    | (s, .refused) => s.fetchParts who code ps (acc ++ [{ p with st := .refused }])
    | (s, .lost) => (s, .error .gone)
    | (s, .denied) => (s, .error (.violation .foreignPage p.va))

/-- Rows of a BMV block after the first, for a load that read the first: touched in the stash, unless the fill of one has been refused
already, or read at the L2 (R163). -/
def State.moreRows (s : State) (c : CoreId) (l : Load) (origin : Word) (ts : List Touch) : State × Gather :=
  let vas := ts.map fun t => (t.va, t.pa)
  match l.src with
  | .stash _ =>
    if ts.any fun t => (s.core c).refusedAt t.va then (s, .fault .layoutMismatch)
    else
      match s.touchMore c l ts with
      | (s, .pending) => s.gatherRows c l origin vas 0 []
      | r => r
  | _ =>
    if ts.any fun t => t.code != l.fmt.page then (s, .fault .layoutMismatch) else
    let ps : List Part := vas.flatMap fun r =>
      let pa := r.2 / 256 * 256
      [⟨r.1, pa, 15, .asked⟩, ⟨r.1 + 128, pa + 128, 15, .asked⟩]
    match s.fetchParts ⟨(s.core c).ctx, l.pc, false⟩ l.fmt.page ps [] with
    | (s, .error (.violation k va)) => (s, .violation k va)
    | (s, .error _) => (s, .gone)
    | (s, .ok ps) => s.gatherParts l (s.core c).ctx origin ps 0 []

/-- The rows a step's elements lie in count from this one; the step as seen from it. -/
def Fmt.rebase (f : Fmt) : Nat × Fmt :=
  let (n, _) := unitOf f.page f.code
  let b := f.first / n
  (b, { f with first := f.first - b * n, e0 := if f.e0 = 0 then 0 else f.e0 - b * n })

/-- The entry a load pushes: contents and tag. -/
def entryOf (l : Load) (x : Nat) : QEntry :=
  let f := l.fmt
  if !f.conv then ⟨f.code.setWidth 8, BitVec.ofNat 2048 x, 0⟩
  else ⟨f.code.setWidth 8, if f.e0 ≠ 0 ∧ f.e0 ≤ f.first then 0 else decodeStep f.rebase.2 x, 0⟩

/-- The slot mark of the row that a load delivers as it stands (R56): that of its stash row, or of the sector at its address. -/
def State.loadMark (s : State) (c : CoreId) (l : Load) : BitVec 2 :=
  if l.fmt.conv || l.fmt.page != 0x1A then 0
  else
    match l.src with
    | .stash _ => (((s.core c).stashAt l.va).map fun r => (s.padRow c r.row).mark).getD 0
    | _ => s.homeMark l.fmt.page l.pa

/-- The load has its data: it leaves the loads in flight, its entry is pushed or its shape register written, and what was
classed is noted (R155, R158, R375). -/
def State.deliverLoad (s : State) (c : CoreId) (l : Load) (e : QEntry) (cls : List (Word × Nat × Bool)) : State :=
  let s := s.onCore c fun k =>
    let k := { k with loads := k.loads.filter fun x => x.id != l.id }
    match l.dest with
    | .queue q => k.arrive q e
    | .shape n => k.shapeOp (l.id + 1) l.seq n (.whole (shapeOf (e.data.toNat >>> (8 * ((l.va.extractLsb' 6 2).toNat * 64)))))
    | .ring _ _ _ => k
  s.noteSev c l.seq cls

/-- What a load of a discarded page finds: its granule of each row it may need, whatever a pool row filled before holds (R149, R150,
R198). -/
def State.discardBits (s : State) (l : Load) : Nat :=
  let d := discardRow l.fmt.page (s.slotFormat l.fmt.page l.pa) &&& granMask l.gran l.va
  (List.range 3).foldl (fun x i => x + d.toNat * 2 ^ (2048 * i)) 0

/-- The data of a load as its source gives it. -/
def State.gather (s : State) (c : CoreId) (l : Load) : State × Gather :=
  let origin := rowOf l.va
  let base := if l.fmt.conv && !isBmv l.fmt.page then origin + BitVec.ofNat 64 (256 * l.fmt.rebase.1) else origin
  match l.src with
  | .pad c' r =>
    match s.readPad c' r l.pc with
    | (s, none) => (s, .gone)
    | (s, some (d, k)) => (s, .data d.toNat (k.map fun e => (l.va + BitVec.ofNat 64 (32 * e.1), e.2)))
  | .stash rows =>
    if l.discard then (s, .data (s.discardBits l) [])
    else s.gatherRows c l base rows 0 []
  | .entry _ _ | .sub _ => (s, .data 0 [])
  | .lines ps =>
    if l.discard then (s, .data (s.discardBits l) []) else s.gatherParts l (s.core c).ctx base ps 0 []

/-- The entry of a BMV load with its first row at hand (R163); a discarded block has no header and delivers its elements as
discarded (R149). -/
def State.bmvEntry (s : State) (c : CoreId) (l : Load) (x : Nat) (cls : List (Word × Nat × Bool)) :
    State × Except Stop (QEntry × List (Word × Nat × Bool)) :=
  let origin := rowOf l.va
  if l.discard then
    let f : Fmt := { l.fmt with page := (valueCode l.fmt.page).getD 0 }
    let e : Row := BitVec.ofNat 2048 (pack (codeWidth f.code) (fun (i : Nat) =>
      if f.e0 ≠ 0 ∧ f.e0 ≤ f.first + i then 0
      else encodeCode f.code f.rz f.sat .ldDecode (elemValue f.page f.code x (i % 64))) f.n)
    (s, .ok (⟨f.code.setWidth 8, e, 0⟩, cls))
  else if bmvBad l.fmt.page x then (s, .error (.trap .badBlockHeader origin))
  else
    match s.resolveMore c l ((List.range (bmvCap x - 1)).map fun k => origin + BitVec.ofNat 64 (256 * (k + 1))) [] with
    | (s, .error e) => (s, .error e)
    | (s, .ok ts) =>
      match s.moreRows c l origin ts with
      | (s, .pending) => (s, .error (.wait .other))
      | (s, .gone) => (s, .error .gone)
      | (s, .violation k va) => (s, .error (.violation k va))
      | (s, .fault cause) => (s, .error (.trap cause (faultVa l.fmt cause l.va)))
      | (s, .data y k) => (s, .ok (⟨l.fmt.code.setWidth 8, decodeBmv l.fmt (x + y), 0⟩, cls ++ k))

/-- An access found at a violation after issue freezes its sequencer as it stood, and those after it are cancelled (R148, R174). -/
def State.lateViolation (s : State) (c : CoreId) (l : Load) (k : VKind) (va : Word) : State :=
  (s.onCore c fun k => (k.cancelFrom l.seq l.id).onSeq l.seq (·.backTo l.before)).violateAt c l.seq k l.pc va

def State.finishBmv (s : State) (c : CoreId) (l : Load) (x : Nat) (cls : List (Word × Nat × Bool)) : State :=
  match s.bmvEntry c l x cls with
  | (s, .ok (e, k)) => s.deliverLoad c l e k
  | (s, .error (.trap cause va)) => s.lateFault c l.seq l.id l.before cause va
  | (s, .error (.violation k va)) => s.lateViolation c l k va
  | (s, .error _) => s

/-- A sub-tile has its data: it enters its slot, and a fault is that of an access found at fault late (R268, R270). -/
def State.subArrives (s : State) (c : CoreId) (l : Load) (t : SubTile) : State :=
  match l.dest with
  | .ring n slot sub =>
    match s.gatherSub c l t ((s.core c).ring n).role with
    | (s, .stop (.trap cause va)) => s.lateFault c l.seq l.id l.before cause va
    | (s, .stop (.violation k va)) => s.lateViolation c l k va
    | (s, .stop _) => s
    | (s, .tile bits mask cls) =>
      (s.fillSub c n slot sub bits mask t.kv t.lv l.pc).deliverLoad c l ⟨0, 0, 0⟩ cls
  | _ => s

/-- LOAD_DATA_ARRIVAL (R158): the oldest load of a core whose data is there is checked and pushed. -/
def State.loadArrives (s : State) (c : CoreId) : State :=
  match (s.core c).loads with
  | [] => s
  | l :: _ =>
    match s.gather c l with
    | (s, .pending) => s
    | (s, .gone) => s
    | (s, .violation k va) => s.lateViolation c l k va
    | (s, .fault cause) => s.lateFault c l.seq l.id l.before cause l.va
    | (s, .data x cls) =>
      match l.src with
      | .entry e rel => (s.deliverLoad c l e []).releaseTile c rel
      | .sub t => s.subArrives c l t
      | .pad c' r =>
        let p := s.padRow c' r
        s.deliverLoad c l ⟨p.tag.setWidth 8, BitVec.ofNat 2048 x, p.mark⟩ cls
      | _ =>
        if l.fmt.conv && isBmv l.fmt.page then s.finishBmv c l x cls
        else s.deliverLoad c l { entryOf l x with mark := s.loadMark c l } cls

def execLoadDataArrival (c : CoreId) (s : State) : Out := .next (s.asRequester (unitOfCore c) (·.loadArrives c))

/-! ## Stores are performed (R158, R160, R172) -/

/-- The store leaves those in flight and its entry the queue. -/
def State.finishStore (s : State) (c : CoreId) (x : Store) : State :=
  s.onCore c fun k => { k.onQueue x.q DQueue.pop with stores := k.stores.filter fun y => y.id != x.id }

/-- The rows of a store take their part of what it writes: `bits` and `mask` count from `base`. -/
def State.storeRows (s : State) (c : CoreId) (base : Word) (bits mask : Nat) (pc : Word) : List (Word × Nat) → State
  | [] => s
  | (va, _) :: rest =>
    let p := bitsFrom base va
    (s.storeRow c va (BitVec.ofNat 2048 (bits >>> p)) (BitVec.ofNat 2048 (mask >>> p)) pc).storeRows c base bits mask pc rest

/-- The bits of a store that does not convert: the entry's, with the reserved bytes of the page's units as zero (R49, R160). -/
def plainBits (page : Layout) (d : Row) : Row := d &&& ~~~reservedMask page

/-- A store into pool rows that have their contents. A sector found lost as it is written ends the strand, and the store with it. -/
def State.performRows (s : State) (c : CoreId) (x : Store) (e : QEntry) : State :=
  let f := x.fmt
  let put : Word → Nat → Nat → State := fun base bits mask =>
    let t := s.storeRows c base bits mask x.pc x.rows
    if s.endedBy t c (s.core c).ctx then t else t.finishStore c x
  match s.blockBits c f.page x.rows with
  | none => s.lateFault c .st x.id x.before .layoutMismatch x.va
  | some old =>
    let origin := rowOf x.va
    if !f.conv then
      let m := granMask x.gran x.va
      put origin (plainBits f.page e.data &&& m).toNat m.toNat
    else if isBmv f.page then
      match storeBmv f e.data.toNat old with
      | .trap cause => s.lateFault c .st x.id x.before cause (faultVa f cause x.va)
      | .block bits mask => put origin bits mask
    else
      let (b, g) := f.rebase
      let (bits, mask) := if f.e0 ≠ 0 ∧ f.e0 ≤ f.first then (0, 0) else encodeStep g e.data.toNat
      put (origin + BitVec.ofNat 64 (256 * b)) bits mask

/-- A store through the stash with its entry at the head of its queue: an STRM writes the row it has taken; any other waits while a row
of it is on its way. -/
def State.performStash (s : State) (c : CoreId) (x : Store) (e : QEntry) (whole : Bool) : State :=
  match (s.core c).rowAt x.va with
  | some r =>
    if whole && (r.use == .taken || r.use == .refused) then (s.storeWhole c r (plainBits x.fmt.page e.data)).finishStore c x
    else if x.rows.any fun y => (s.core c).comingAt y.1 then s
    else s.performRows c x e
  | none => if x.rows.any fun y => (s.core c).comingAt y.1 then s else s.performRows c x e

/-- A store to a discarded page is dropped once its rows have come; a row that an STRM took takes nothing (R149). -/
def State.dropStore (s : State) (c : CoreId) (x : Store) : State :=
  if x.rows.any fun y => ((s.core c).rowAt y.1).any fun r => r.pending && r.use != .taken then s
  else (x.rows.foldl (fun s y => match (s.core c).rowAt y.1 with
    | some r => if r.use = .taken then s.storeWhole c r 0 else s
    | none => s) s).finishStore c x

/-- STORE_PERFORMED (R158): the oldest store of a core is performed and pops its entry. -/
def State.performStore (s : State) (c : CoreId) : State :=
  match (s.core c).stores with
  | [] => s
  | x :: _ =>
    match (s.core c).queues[x.q].entries with
    | [] => s
    | e :: _ =>
      match x.op with
      | .pad r =>
        (s.writePad c r (e.tag.setWidth 6) e.mark e.data).finishStore c x
      | .send c' r =>
        (s.onCore c fun k => { k with sends := k.sends ++ [⟨c', r, e, e.mark⟩] }).finishStore c x
      | .stash _ true => s.dropStore c x
      | .stash whole false => s.performStash c x e whole

def execStorePerformed (c : CoreId) (s : State) : Out := .next (s.performStore c)

/-! ## Slices and walkers (R178-R180, R194) -/

def execL2SliceService (n : Fin 128) (s : State) : Out := .next (s.sliceService n)

def execL2MissFill (n : Fin 128) (s : State) : Out := .next (s.missFill n)

def execPageWalk (u : ClusterId) (s : State) : Out := .next (s.asRequester (walkerOf u) (·.walkOne u))

/-! ## Scrubbing (R366, R373) -/

/-- L2_SCRUB: every valid sector of a line is checked with no requester. -/
def State.scrubSector (s : State) (la i : Nat) : State :=
  match s.lineAt la with
  | none => s
  | some l =>
    let fl := flipsOf l.flips i
    if fl.isEmpty || !l.valid.getLsbD i then s
    else
      let (s, f, d) := s.examine (secKind l.tag (l.mark i) (4 * la + i)) false fl (lineSector l.data i)
      let refill : State := ((s.dropLine la).log 0 (l2Place l i) true noFlags 0 0).fillLine ⟨l.owner, 0, false⟩ la 0 l.tag .none |>.1
      match f.sev with
      | .clean => s
      | .sv0 => s.correctLine l i f.left 0
      | .sv3 => if l.dirty = 0 then refill else s.loseLine l i 0
      | _ =>
        if l.dirty = 0 then refill
        else (s.setLine { l with data := setLineSector l.data i d, flips := setFlips l.flips i [] }).log 2 (l2Place l i) true
          { noFlags with dirty := true } 0 0

def execL2Scrub (la : Nat) (s : State) : Out :=
  .next ((List.range 4).foldl (fun s i => s.scrubSector la i) (s.checkTags la 0))

/-- HBM_SCRUB: a sector is checked as a read of it would be; what cannot be corrected is rewritten as delivered, or stamped lost with
owner unknown (R366, R370, R371). A sector that is blank, or stamped lost already, is left as it is. -/
def execHbmScrub (sector : Nat) (s : State) : Out :=
  if (s.word sector).flips.isEmpty then .next s
  else
    match s.sense sector none with
    | (s, .blank) | (s, .lost) => .next s
    | (s, .bad) => .next (s.loseUnowned sector 0)
    | (s, .ok f d) =>
      if f.broken || f.sev == .sv1 then
        .next ((s.writeSector sector d { s.word sector with flips := [] }).log 2 (hbmPlace (32 * sector)) true noFlags 0 0)
      else .next (s.noteHbm sector f 0)

/-- A scrub period is 10 s of time since package reset, in quanta (R373; log 4). -/
def scrubQuanta : Nat := 189 * 10 ^ 10

/-- SCRUB_PERIOD_RESET, once the next period has begun: each way's count of corrected errors returns to zero (R373). -/
def execScrubPeriodReset (s : State) : Out :=
  .next (if s.gtbq < scrubQuanta * (s.rel.scrubs + 1) then s
    else { s with rel := { s.rel with corr := [], scrubs := s.gtbq / scrubQuanta } })

end Sys2Proof.Machine
end

