-- ==== Sys2Proof/Machine/CodeMem.lean ====
section
/-! DEFINITION. Code pages: the stored form of a line (R219, R220), the LATT and the checks of fetch (R221, R222), the code L1
(R223, R241), writes on the CODE path (R227), and the changes a CSWAP makes at its barrier (R245, R246). -/

namespace Sys2Proof.Machine

/-! ## The stored form (R219, R220) -/

/-- Stored sectors of a line, from sector 0's map entry; none where that holds a reserved mode or sector value. -/
def formOf (m : BitVec 7) : Option Nat :=
  let n := (m.extractLsb' 3 2).toNat
  match (m.extractLsb' 5 2).toNat with
  | 0 => if n = 0 then some 0 else none
  | 1 => if n = 3 then none else some (n + 1)
  | 2 => if n = 0 then some 4 else none
  | _ => none

/-- Stored sectors of a line as its home holds it: dirty in the L2, or in HBM4E, 0 where it is blank there. The model keeps the line's
128 bytes themselves in its slot (log 9). -/
def State.codeForm (s : State) (pa : Nat) : Option Nat :=
  match (s.lineAt (pa / 128)).filter fun l => l.dirty.getLsbD 0 with
  | some l => formOf (l.mapOf 0)
  | none => if s.stampOf (pa / 32) = 0x3F then some 0 else formOf (s.mapEntry (pa / 32))

/-! ## The LATT and the checks of fetch (R221, R222) -/

/-- What stops a fetch. -/
inductive FetchStop where
  | trap (c : Cause)
  | violation (k : VKind)
  | gone
  | wait
  deriving DecidableEq, Repr

/-- Checks 1 to 4 of R222 on a leaf. -/
def codeCheck (p : Word) (vf : Fin 64) (sup : Bool) : Option FetchStop :=
  if pteDiscard p = 1 then some (.trap .codePageFault)
  else if pteSuper p && !sup then some (.violation .supervisorPage)
  else if (pteOwner p).toFin ≠ vf then some (.violation .foreignPage)
  else if !pteIsCode p then some (.trap .notCode)
  else if pteCode p ≠ 0x17 then some (.trap .layoutMismatch)
  else none

/-- The frame (PA / 64 KiB) of a code page of a context, with the checks; translated by the cluster. -/
def State.codeFrame (s : State) (u : ClusterId) (who : Asker) (sup : Bool) (va : Word) : State × Except FetchStop Nat :=
  if va.extractLsb' 48 16 ≠ 0 then (s, .error (.trap .codePageFault))
  else
    match s.translateNow u who va with
    | (s, .lost) => (s, .error .gone)
    | (s, .wait) => (s, .error .wait)
    | (s, .fault .pageFault) => (s, .error (.trap .codePageFault))
    | (s, .fault c) => (s, .error (.trap c))
    | (s, .leaf p big) =>
      match codeCheck p (vfOf who.ctx) sup with
      | some x => (s, .error x)
      | none =>
        let pa := leafPa p big (va &&& ~~~0xFFFF#64)
        if s.dieOut pa then (s, .error .wait) else (s, .ok (pa / 65536))

/-- A page enters the LATT of a core in front; the last of 64 leaves. -/
def lattPut (t : List LattPage) (e : LattPage) : List LattPage :=
  (e :: t.filter fun x => !(x.ctx == e.ctx && x.vpn == e.vpn)).take 64

/-- The splice page of a base page in a context, as the directory has it (R245). -/
def State.spliceNow (s : State) (ctx : Ctx) (base : Word) : Option Word :=
  (s.splices.find? fun e => e.ctx == ctx && e.base == base).map (·.page)

/-- The page of a fetch in the LATT, or entered into it with its splice entry (R259). -/
def State.lattPage (s : State) (c : CoreId) (who : Asker) (sup : Bool) (va : Word) : State × Except FetchStop LattPage :=
  let vpn := (va.extractLsb' 16 32).toNat
  let s := s.checkLatt c who.ctx vpn who.pc
  match (s.core c).latt.find? fun e => e.ctx == who.ctx && e.vpn == vpn with
  | some e => (s.onCore c fun k => { k with latt := lattPut k.latt e }, .ok e)
  | none =>
    match s.codeFrame (clusterOf c) who sup va with
    | (s, .error x) => (s, .error x)
    | (s, .ok f) =>
      let e : LattPage := ⟨who.ctx, vpn, f, [], s.spliceNow who.ctx (va &&& ~~~0xFFFF#64)⟩
      (s.onCore c fun k => { k with latt := lattPut k.latt e }, .ok e)

/-- The 128 bytes of a line of a page: the sectors that its state gives are read, all four where it is unknown, and the form is then
recorded (R221). A reserved form is an error of the line that cannot be corrected: its first sector is lost (R220). -/
def State.readCode (s : State) (c : CoreId) (who : Asker) (e : LattPage) (line : Nat) :
    State × Except FetchStop (BitVec 1024) :=
  let pa := e.frame * 65536 + 128 * line
  let note : State → Nat → State := fun s n =>
    s.onCore c fun k => { k with latt := k.latt.map fun x =>
      if x.ctx == e.ctx && x.vpn == e.vpn then { x with known := (line, n) :: x.known.filter fun y => y.1 != line } else x }
  let asked : BitVec 4 := ((e.known.find? fun y => y.1 == line).map fun y => BitVec.ofNat 4 (2 ^ y.2 - 1)).getD 15
  if asked = 0 then (s, .ok 0)
  else
    match s.memRead who pa asked 0x18 .none with
    | (s, .refused) => (s, .error (.trap .layoutMismatch))
    | (s, .lost) => (s, .error .gone)
    | (s, .denied) => (s, .error (.violation .foreignPage))
    | (s, .got d _) =>
      if !inHbm pa then (note s 4, .ok d)
      else
        match s.codeForm pa with
        | none => (s.loseSector who (pa / 32) true, .error .gone)
        | some 0 => (note s 0, .ok 0)
        | some n => (note s n, .ok (mergeLine (BitVec.ofNat 1024 (s.shownBytes pa 128)) d asked))

/-! ## The code L1 (R223, R241) -/

/-- VA[47:7]. -/
def lineOf (va : Word) : BitVec 41 := va.extractLsb' 7 41

def CodeLine.set (l : CodeLine) : BitVec 7 := l.line.extractLsb' 0 7

/-- A line enters the code L1 as the most recently used, in place of the least recently used unlocked way of its set where that holds
eight. -/
def putLine (ls : List CodeLine) (l : CodeLine) : List CodeLine :=
  let ls := ls.filter fun x => !(x.ctx == l.ctx && x.line == l.line)
  let same := ls.filter fun x => x.set == l.set
  let ls :=
    if same.length < 8 then ls
    else
      match (same.reverse.find? fun x => !x.locked) with
      | some v => ls.filter fun x => !(x.ctx == v.ctx && x.line == v.line)
      | none => ls
  l :: ls

/-- A line filled into the code L1 of a core, unlocked. -/
def State.fillCode (s : State) (c : CoreId) (who : Asker) (sup : Bool) (va : Word) : State × Except FetchStop Unit :=
  match s.lattPage c who sup va with
  | (s, .error x) => (s, .error x)
  | (s, .ok e) =>
    let line := (va.extractLsb' 7 9).toNat
    match s.readCode c who e line with
    | (s, .error x) => (s, .error x)
    | (s, .ok d) =>
      (s.onCore c fun k => { k with codeL1 := putLine k.codeL1 ⟨who.ctx, lineOf va, d, false, e.frame * 65536 + 128 * line⟩ },
        .ok ())

/-- The lines of a physical line leave every LATT line state and code L1; a locked line takes the new contents (R227). -/
def State.codeWritten (s : State) (pa : Nat) (data : BitVec 1024) : State :=
  { s with cores := s.cores.map fun (k : Core) =>
      if k.codeL1.isEmpty && k.latt.isEmpty then k
      else
        { k with
          latt := k.latt.map fun e =>
            if e.frame == pa / 65536 then { e with known := e.known.filter fun y => y.1 != pa % 65536 / 128 } else e
          codeL1 := (k.codeL1.filter fun l => l.locked || l.pa != pa).map fun l => if l.pa == pa then { l with data := data } else l } }

/-- A write of a line on the CODE path (R227): at its home under the code of code pages, as any engine write (R180, R181, R188, R409). -/
def State.writeCode (s : State) (who : Asker) (pa : Nat) (data : BitVec 1024) : State × WriteOut :=
  let kept := s.homeUp pa && !s.silent pa
  match s.memWrite who pa 15 data 0x18 .none false with
  | (s, .done) => (if kept then s.codeWritten pa data else s, .done)
  | r => r

/-! ## Locks (R241, R242) -/

/-- Lines refused by a lock, and whether one was no code page of the context. -/
structure Locked where
  refused : Nat
  notCode : Bool
  deriving DecidableEq, Repr

/-- One line is locked, under the launch's quota and the limit of its set (R241, steps 1 to 4). -/
def State.lockLine (s : State) (c : CoreId) (who : Asker) (sup : Bool) (quota : Nat) (va : Word) (r : Locked) : State × Locked :=
  match s.lattPage c who sup va with
  | (s, .error _) => (s, ⟨r.refused + 1, true⟩)
  | (s, .ok _) =>
    let find : Core → Option CodeLine := fun k => k.codeL1.find? fun l => l.ctx == who.ctx && l.line == lineOf va
    if (find (s.core c)).any (·.locked) then (s, r)
    else
      let (s, ok) := if (find (s.core c)).isSome then (s, true) else
        match s.fillCode c who sup va with
        | (s, .ok _) => (s, true)
        | (s, .error _) => (s, false)
      let k := s.core c
      let held := (k.codeL1.filter fun l => l.ctx == who.ctx && l.locked).length
      let set := (k.codeL1.filter fun l => l.locked && l.set == (lineOf va).extractLsb' 0 7).length
      if !ok || decide (quota ≤ held) || decide (4 ≤ set) then (s, { r with refused := r.refused + 1 })
      else
        (s.onCore c fun k => { k with codeL1 := k.codeL1.map fun l =>
          if l.ctx == who.ctx && l.line == lineOf va then { l with locked := true } else l }, r)

/-- The n lines from the line of an address, in ascending order. -/
def State.lockRange (s : State) (c : CoreId) (who : Asker) (sup : Bool) (quota : Nat) (va : Word) (r : Locked) : Nat → State × Locked
  | 0 => (s, r)
  | n + 1 =>
    let (s, r) := s.lockLine c who sup quota va r
    s.lockRange c who sup quota (va + 128) r n

/-- The fields of an entry of the lock list: valid, first line's VA, lines. -/
def lockValid (x : Word) : Bool := x.getLsbD 63
def lockVa (x : Word) : Word := (x.extractLsb' 7 41).setWidth 64 <<< 7
def lockCount (x : Word) : Nat := (x.extractLsb' 48 10).toNat + 1

/-- The lock list of a core locked again when its context resumes; lkres holds the lines refused (R242). -/
def State.relock (s : State) (c : CoreId) (ctx : Ctx) (quota : Nat) : State :=
  let (s, r) := (s.core c).locks.foldl (fun (s, r) x =>
    if lockValid x then s.lockRange c ⟨ctx, 0, false⟩ false quota (lockVa x) r (lockCount x) else (s, r)) (s, (⟨0, false⟩ : Locked))
  s.onCore c fun k => { k with lkres := BitVec.ofNat 16 r.refused }

/-! ## What a CSWAP changes (R246) -/

/-- Where the leaf of a page stands in the page table of a context, with the leaf; a cause where it has none at level 3. -/
def State.leafAt (s : State) (ctx : Ctx) (va : Word) : Except Cause (Nat × Word) :=
  let e := s.ctxEntry ctx
  let rd : Nat → Word := fun pa => BitVec.ofNat 64 (s.shownBytes pa 8)
  if !ctxValid e || va.extractLsb' 48 16 != 0 then .error .pageFault
  else
    let p1 := rd (ctxRoot e + 8 * vaIndex va 1)
    if !pteValid p1 then .error .pageFault
    else if (pteFault p1 1).isSome || !ptePointer p1 then .error .badPageEntry
    else
      let p2 := rd (pteBase p1 + 8 * vaIndex va 2)
      if !pteValid p2 then .error .pageFault
      else if (pteFault p2 2).isSome || !ptePointer p2 then .error .badPageEntry
      else
        let at3 := pteBase p2 + 8 * vaIndex va 3
        let p3 := rd at3
        if !pteValid p3 || pteDiscard p3 = 2 then .error .pageFault
        else if (pteFault p3 3).isSome then .error .badPageEntry
        else .ok (at3, p3)

/-- Two leaves agree in everything but their frames. -/
def sameButFrame (p q : Word) : Bool := (p ^^^ q) &&& ~~~0x7FFFFFFF0000#64 == 0

/-- The locked lines of a page of a context in any core are read again from its new frame (R246, R364). -/
def State.checkLocked (s : State) (ctx : Ctx) (vpn frame : Nat) : State :=
  let ls := (s.cores.toList.flatMap fun k => k.codeL1.filter fun l => l.locked && l.ctx == ctx && (l.line.extractLsb' 9 32).toNat == vpn)
  ls.foldl (fun s l => (s.checkSpan ⟨ctx, 0, false⟩ (frame * 65536 + 128 * (l.line.extractLsb' 0 9).toNat) 128).1) s

/-- A page of a context leaves every TLB, LATT and code L1; locked lines take the contents of the page's new frame. -/
def State.pageMoved (s : State) (ctx : Ctx) (va : Word) (frame : Nat) : State :=
  let vpn := (va.extractLsb' 16 32).toNat
  let s := s.checkLocked ctx vpn frame
  let drop : List TlbEntry → List TlbEntry := fun t => t.filter fun e => !(e.hits ctx va)
  let s := { s with
    clusters := s.clusters.map fun (u : Cluster) => { u with tlb := drop u.tlb }
    cores := s.cores.map fun (k : Core) =>
      { k with tlb := drop k.tlb, latt := k.latt.filter (fun e => !(e.ctx == ctx && e.vpn == vpn)),
               codeL1 := k.codeL1.filter fun l => l.locked || l.ctx != ctx || (l.line.extractLsb' 9 32).toNat != vpn } }
  let bytes : Nat → BitVec 1024 := fun pa => BitVec.ofNat 1024 (s.shownBytes pa 128)
  { s with cores := s.cores.map fun (k : Core) =>
      { k with codeL1 := k.codeL1.map fun l =>
          if l.ctx == ctx && (l.line.extractLsb' 9 32).toNat == vpn then
            let pa := frame * 65536 + 128 * (l.line.extractLsb' 0 9).toNat
            { l with data := bytes pa, pa := pa }
          else l } }

/-- The tables of two pages are read, for the command at a pc, with the checks of any walk; what stops that of either (R191, R246). -/
def State.walkBoth (s : State) (ctx : Ctx) (pc a b : Word) : State × WalkOut × WalkOut :=
  let (s, x) := s.walk ⟨ctx, pc, false⟩ a
  let (s, y) := s.walk ⟨ctx, pc, false⟩ b
  (s, x, y)

/-- Page mode at the barrier: the frame fields are exchanged. -/
def State.swapPages (s : State) (ctx : Ctx) (pc a b : Word) : State :=
  let (s, _, _) := s.walkBoth ctx pc a b
  match s.leafAt ctx a, s.leafAt ctx b with
  | .ok (pa, p), .ok (pb, q) =>
    let m : Word := 0x7FFFFFFF0000#64
    let p' := (p &&& ~~~m) ||| (q &&& m)
    let q' := (q &&& ~~~m) ||| (p &&& m)
    let s := (s.putRecord pa p'.toNat 8).putRecord pb q'.toNat 8
    (s.pageMoved ctx a (leafPa p' false (a &&& ~~~0xFFFF#64) / 65536)).pageMoved ctx b
      (leafPa q' false (b &&& ~~~0xFFFF#64) / 65536)
  | _, _ => s

/-- Splice mode at the barrier: the entry changes when its version is the expected one; the reply. -/
def State.swapSplice (s : State) (ctx : Ctx) (base page expected : Word) : State × Word :=
  let old := s.splices.find? fun e => e.ctx == ctx && e.base == base
  let ver := (old.map (·.version)).getD 0
  let rest := s.splices.filter fun e => !(e.ctx == ctx && e.base == base)
  let fail : Word := BitVec.allOnes 64
  if ver.setWidth 64 ≠ expected then (s, fail)
  else if page = 0 then ({ s with splices := rest }, (ver + 1).setWidth 64)
  else if old.isNone && decide (16384 ≤ s.splices.length) then (s, fail)
  else ({ s with splices := rest ++ [⟨ctx, base, page, ver + 1⟩] }, (ver + 1).setWidth 64)

end Sys2Proof.Machine
end

