-- ==== Sys2Proof/Machine/Strands.lean ====
section
/-! DEFINITION. Hitches (R209), launches as the cluster schedulers keep them (R330-R337), gangs (R335), what becomes of a strand
at its start (R93, R334, R399) and at its end (R336), and the queue of changes for a barrier (R246). -/

namespace Sys2Proof.Machine

/-! ## Hitches (R209) -/

/-- Complete and unowned. -/
def freeHitch : Hitch := ⟨0, none, false⟩

def State.hitch (s : State) (u : ClusterId) (n : Nat) : Hitch := cellGet freeHitch s.clusters[u].hitches n

def State.setHitch (s : State) (u : ClusterId) (n : Nat) (h : Hitch) : State :=
  s.onCluster u fun k => { k with hitches := cellPut freeHitch k.hitches n h }

/-- An arrival: the count falls by one, or the hitch is broken. -/
def State.arriveHitch (s : State) (u : ClusterId) (n : Nat) : State :=
  let h := s.hitch u n
  s.setHitch u n (if h.count = 0 then { h with broken := true } else { h with count := h.count - 1 })

/-- Whether a context owns the hitch that a handle names, or the handle names none. -/
def State.ownsHitch (s : State) (c : CoreId) (ctx : Ctx) (handle : Word) : Bool :=
  handle == 0 || (s.hitch (clusterOf c) (handle.toNat % 4096)).owner == some ctx

/-- An arrival of a command of an engine on the hitch that its handle names. A hitch that is another's stays as it is: the use is a
violation, and freezes the engine (R210, R360; log 69). -/
def State.arriveAs (s : State) (c : CoreId) (master : BitVec 8) (ctx : Ctx) (pc handle : Word) : State :=
  if handle = 0 then s
  else if s.ownsHitch c ctx handle then s.arriveHitch (clusterOf c) (handle.toNat % 4096)
  else
    let v : Violation := ⟨.foreignHitch, master, 0, BitVec.ofNat 16 c.val, ctx, pc, handle⟩
    (s.onCore c fun k => k.onEngine master fun e => { e with frozen := e.frozen.or (some v) }).record v

/-- The arrival of a LENQ whose launch ends. On a hitch that is another's it is the violation of its stage engine; where the core no longer
runs the context there is none to freeze, and the record alone is made (R210, R360; DESIGN CHOICE, log 69). -/
def State.arriveLaunch (s : State) (c : CoreId) (ctx : Ctx) (pc handle : Word) : State :=
  if s.ownsHitch c ctx handle || ((s.core c).strand.any fun st => st.ctx == ctx) then s.arriveAs c 4 ctx pc handle
  else s.record ⟨.foreignHitch, 4, 0, BitVec.ofNat 16 c.val, ctx, pc, handle⟩

/-- The arrival of a command that completes. -/
def State.arriveCmd (s : State) (c : CoreId) (m : EngCmd) : State := s.arriveAs c ((queueOf m.op).getD 4) m.ctx m.pc m.hitch

/-- An engine that an arrival on another's hitch has frozen: nothing behind it completes (R304). -/
def EngQ.heldUp (e : EngQ) : Bool := e.frozen.any fun v => v.kind == .foreignHitch

/-- A reply is pushed (R211). -/
def Core.reply (k : Core) (tag : BitVec 5) (x : Word) : Core := { k with rq := k.rq ++ [⟨x, tag⟩] }
def Core.rqRoom (k : Core) : Bool := decide (k.rq.length < 32)

/-! ## Launches (R334-R337) -/

/-- The launch of a number in a cluster. -/
def State.launch (s : State) (u : ClusterId) (gid : Nat) : Option Launch :=
  s.clusters[u].launches.find? fun l => l.gid == gid

def State.onLaunch (s : State) (u : ClusterId) (gid : Nat) (f : Launch → Launch) : State :=
  s.onCluster u fun k => { k with launches := k.launches.map fun l => if l.gid == gid then f l else l }

/-- The cores of a cluster, in ascending number. -/
def coresOf (u : ClusterId) : List CoreId := (List.range 128).map fun i => ⟨(u.val * 128 + i) % 2048, Nat.mod_lt _ (by decide)⟩

/-- The cores of a stage that no move has been committed from, in ascending number. -/
def State.stageCores (s : State) (u : ClusterId) (gid stage : Nat) : List CoreId :=
  (coresOf u).filter fun c => (s.core c).commit.isNone &&
    (s.core c).strand.any fun st => st.gid == gid && st.stage == stage

/-- Moves committed to a stage and not yet taken, with the cores about to start there. -/
def State.incoming (s : State) (u : ClusterId) (gid stage : Nat) : Nat :=
  ((coresOf u).filter fun c => (s.core c).commit == some (.move gid stage) || (s.core c).startTo == some (gid, stage)).length

/-- n of a stage (R341): its cores, with the moves committed to it and without those committed from it. -/
def State.stageN (s : State) (u : ClusterId) (gid stage : Nat) : Nat :=
  (s.stageCores u gid stage).length + s.incoming u gid stage

/-- A core that runs nothing and is promised to none. -/
def Core.idle (k : Core) : Bool := k.strand.isNone && k.startTo.isNone

/-- A stage is fixed when min and max agree (R332). -/
def StageRec.fixed (r : StageRec) : Bool := r.min == r.max

def Launch.stage (l : Launch) (n : Nat) : StageRec := l.stages.getD n ⟨.replicate 4 0, 0, 0, 0, false⟩
def Launch.queue (l : Launch) (n : Nat) : StageQ := l.queues.getD n ⟨[], 0, false, 0⟩
def Launch.onQueue (l : Launch) (n : Nat) (f : StageQ → StageQ) : Launch := { l with queues := l.queues.modify n f }

/-- The deferral effects of a phase enter their queues (R337). -/
def Launch.publish (l : Launch) (x : Fx) : Launch :=
  match x with
  | .defer n es => l.onQueue n fun q => { q with entries := q.entries ++ es, reserved := q.reserved - es.length }
  | .flush n => l.onQueue n fun q => { q with flushed := true }

/-- Whether a strand of a launch runs, is about to start, or is away on a pre-emption. -/
def State.launchAlive (s : State) (gid : Nat) : Bool :=
  s.cores.any fun k => (k.strand.any fun st => st.gid == gid) || (k.startTo.any fun x => x.1 == gid) ||
    k.away.any fun a => a.strand.gid == gid

/-- A launch ends when it has no strand and its queues are empty: its memory is freed, its LENQ's hitch receives its arrival,
and its VF an event (R336, R340, R402). -/
def State.endLaunch (s : State) (gid : Nat) : State :=
  let all := s.clusters.toList.flatMap fun u => u.launches.filter fun l => l.gid == gid
  match all with
  | [] => s
  | l :: _ =>
    if s.launchAlive gid || all.any (fun l => !l.running || l.queues.any fun q => !q.entries.isEmpty) then s
    else
      let s := { s with clusters := s.clusters.map fun (u : Cluster) => { u with launches := u.launches.filter fun x => x.gid != gid } }
      let s := match l.hitch with
        | some (c, pc, h) => s.arriveLaunch c l.ctx pc h
        | none => s
      s.postEnded l.ctx gid

/-! ## Levels and gangs (R331, R335) -/

/-- Domain code of a level of a strand's launch; none where the record does not define it. -/
def Strand.domain (st : Strand) (lvl : Nat) : Option Nat := st.levels[lvl]?.map fun w => (w.extractLsb' 0 4).toNat

/-- Cores in the same instance of a domain: core, quad, cluster, die; wider domains hold the whole package. -/
def sameInstance (domain : Nat) (a b : CoreId) : Bool :=
  match domain with
  | 0 | 1 => a == b
  | 2 => a.val / 4 == b.val / 4
  | 3 => a.val / 128 == b.val / 128
  | 4 => a.val / 256 == b.val / 256
  | _ => true

/-- What is wrong with naming a level in SYNC or CSWAP (R204, R246, R335). -/
def Strand.levelTrap (st : Strand) (lvl : Nat) : Option Cause :=
  match st.domain lvl with
  | none | some 0 => some .reservedOperand
  | some d => if 1 < d && !st.fixed then some .gangNotFixed else none

/-- The members of the gang at a level of a launch around a core that still run: strands of fixed stages in the same instance;
at core level the core's own strand. -/
def State.gang (s : State) (c : CoreId) (gid domain : Nat) : List CoreId :=
  if domain ≤ 1 then [c]
  else
    (List.finRange 2048).filter fun x => sameInstance domain c x &&
      (s.core x).strand.any fun st => st.gid == gid && st.fixed

/-- A member away on a pre-emption has not arrived (R205); the gang at core level is one strand (R204). -/
def State.gangAway (s : State) (c : CoreId) (gid domain : Nat) : Bool :=
  decide (2 ≤ domain) && (List.finRange 2048).any fun x => sameInstance domain c x &&
    (s.core x).away.any fun a => a.strand.gid == gid && a.strand.fixed

/-- The instance of a fabric level that a rank lies in (R410). -/
def fabricInstance (count size rank : Nat) : Nat := rank * count / size

/-- Whether a level's gang has members on other packages: other ranks of its instance (R331, R410). -/
def Launch.reachesOut (l : Launch) (lvl : Nat) : Bool :=
  let rank := (l.group.extractLsb' 16 10).toNat
  let size := (l.group.extractLsb' 26 10).toNat + 1
  match l.levels[lvl]? with
  | none => false
  | some w =>
    let inst := fabricInstance (w.extractLsb' 8 20).toNat size
    decide (6 ≤ (w.extractLsb' 0 4).toNat) && (List.range size).any fun r => r != rank && inst r == inst rank

/-! ## What a barrier applies (R170, R246) -/

/-- The sends of some cores are delivered, in ascending core number and issue order (R170). -/
def State.deliverSends (s : State) (cs : List CoreId) : State :=
  cs.foldl (fun s c =>
    let s := (s.core c).sends.foldl (fun s x => s.writePad x.core x.row (x.entry.tag.setWidth 6) x.mark x.entry.data) s
    s.onCore c fun k => { k with sends := [] }) s

/-- A command that its barrier has completed stands at the head of the code queue until rq has taken its reply, which holds those behind
it (R211, R246). -/
def Core.owe (k : Core) (m : EngCmd) (r : Word) : Core :=
  let (done, rest) := k.code.cmds.span fun x => x.ended
  { k with code := { k.code with cmds := done ++ { m with begun := true, ended := true, reply := some r } :: rest } }

/-- LATT entries of a spliced page are rewritten at the barrier that changes its entry in the directory (R259). A core outside the gang may
use either entry: whether the barrier rewrites those is open (log 6). -/
def State.spliceSeen (s : State) (ctx : Ctx) (base : Word) (mine : CoreId → Bool) : State :=
  let (n, s) := s.free
  let now := s.spliceNow ctx base
  { s with cores := s.cores.mapFinIdx fun i (k : Core) h =>
      if mine ⟨i, h⟩ || Config.freeDetect n then
        { k with latt := k.latt.map fun e => if e.ctx == ctx && e.vpn == (base.extractLsb' 16 32).toNat then { e with splice := now } else e }
      else k }

/-- One queued change is applied, for the gang at a domain: its command replies and arrives (R246). -/
def State.applySwap (domain : Nat) (s : State) (x : Swap) : State :=
  if x.splice then
    let gang := s.gang x.core x.gid domain
    let (s, r) := s.swapSplice x.cmd.ctx x.a x.b x.version
    let s := s.spliceSeen x.cmd.ctx x.a gang.contains
    let tag := match x.cmd.op with
      | .cswap o => o.tag
      | _ => 0
    if !((s.core x.core).strand.any fun st => st.gid == x.gid) then s.arriveCmd x.core x.cmd
    else if (s.core x.core).rqRoom && !((s.core x.core).code.cmds.head?.any (·.ended)) then
      (s.onCore x.core fun k => k.reply tag r).arriveCmd x.core x.cmd
    else s.onCore x.core fun k => k.owe x.cmd r
  else (s.swapPages x.cmd.ctx x.cmd.pc x.a x.b).arriveCmd x.core x.cmd

/-- The changes queued for a barrier: by the members of one gang at one level. -/
def Swap.at (x : Swap) (c : CoreId) (gid lvl domain : Nat) : Bool := x.gid == gid && x.lvl == lvl && sameInstance domain c x.core

/-- They apply in ascending core number, in issue order within a core. -/
def State.applySwaps (s : State) (c : CoreId) (gid lvl domain : Nat) : State :=
  let now := s.swaps.filter fun x => x.at c gid lvl domain
  let s := { s with swaps := s.swaps.filter fun x => !x.at c gid lvl domain }
  ((List.finRange 2048).flatMap fun k => now.filter fun x => x.core == k).foldl (State.applySwap domain) s

/-! ## The end of a strand (R336) -/

/-- A strand's final publication is complete: its sends are delivered, barriers that only it held up apply their changes, its
rows and core are released, and the core goes to the stage a move named. -/
def State.endStrand (s : State) (c : CoreId) : State :=
  match (s.core c).strand with
  | none => s
  | some st =>
    let s := s.deliverSends [c]
    let next := match (s.core c).commit with
      | some (.move gid stage) =>
        if (s.launch (clusterOf c) gid).any fun l => l.running then some (gid, stage) else none
      | _ => none
    let s := s.onCore c fun k => { k.vacate with startTo := next }
    let s := (List.range st.levels.length).foldl (fun s lvl =>
      match st.domain lvl with
      | none | some 0 => s
      | some d =>
        if (s.gang c st.gid d).any (fun x => (s.core x).strand.any fun y => y.gid == st.gid) || s.gangAway c st.gid d then s
        else s.applySwaps c st.gid lvl d) s
    s.endLaunch st.gid

/-! ## The start of a strand (R89, R93, R334, R345, R399) -/

/-- A sequencer at the start of a strand. -/
def SeqSt.start (pc tvec sscr : Word) : SeqSt :=
  { SeqSt.reset with pc := alignPc pc, tvec := tvec, sscr := sscr, run := .running }

/-- The constants that the launch path writes. -/
def State.strandConsts (s : State) (ctx : Ctx) (entry : Word) (old : Vector Word 256) : Vector Word 256 :=
  (s.consts.filter fun e => e.ctx == ctx && e.entry == entry).foldl (fun v e => v.set e.c e.value) old

/-- A core with a strand's start values; the constant bank and scratchpad contents stay, engine commands left over go, and the
rings stand unconfigured. -/
def Core.start (k : Core) (st : Strand) (pcs : Vector Word 4) (tvec sscr : Word) (consts : Vector Word 256) : Core :=
  { k.vacate with
    seqs := pcs.map fun pc => SeqSt.start pc tvec sscr
    consts := consts
    ex := { ExSt.reset with slot := k.ex.slot }
    strand := some st
    startTo := none
    gvs := 0
    wrote := []
    cflt := 0
    shapes := .replicate 16 (.replicate 8 0)
    bounds := .replicate 8 0
    gath := .reset
    code := .reset
    stg := .reset
    tens := .reset }

/-- YREQ is set with reason pre-empt where a request waits for the context that the core now runs (R355, R358). -/
def State.raise (s : State) (c : CoreId) : State :=
  s.onCore c fun k =>
    if s.prq.any fun r => r.core == c && !r.restore && k.strand.any fun st => st.ctx == r.ctx then { k with req := some .preempt, commit := none } else k

/-- A core starts a strand of a stage of a launch, but where the read of its context's entry ends the context. -/
def State.startStrand (s : State) (c : CoreId) (l : Launch) (n : Nat) : State :=
  let (s, lost) := s.checkCtx l.ctx 0
  if lost then s else
  let r := l.stage n
  let e := s.ctxEntry l.ctx
  let st : Strand := ⟨l.ctx, l.bound, l.rows, 0, l.gid, n, r.fixed, l.lockq, l.levels⟩
  let k := s.core c
  let s := s.onCore c fun _ => k.start st r.pcs (ctxTvec e) (ctxSscr e) (s.strandConsts l.ctx r.pcs[0] k.consts)
  (s.raise c).checkpoint c

end Sys2Proof.Machine
end

