-- ==== Sys2Proof/Machine/Command.lean ====
section
/-! DEFINITION. How CTL issues a command to an engine's queue (R229, R302, R340, R378): the values its fields name are read at
issue, it waits while the queue is full, and its order of checks. -/

namespace Sys2Proof.Machine

/-- The checker's copy of a command differs where its registers have come apart from CTL's in one that the command names, or in the pc
(R377). -/
def State.commandDiffers (s : State) (o : CCmd) : Bool :=
  match s.here.chk.copy with
  | none => false
  | some p => p.pc != s.me.pc || o.uses.s.any fun n => n != 0 && p.regs[n] != s.me.regs[n]

/-- The command as its queue holds it. -/
def State.mkCmd (s : State) (i : Instr) (o : CCmd) : EngCmd where
  op := i
  pc := s.me.pc
  ctx := s.here.ctx
  sup := s.me.sup
  a := s.reg o.sa
  b := s.reg o.sb
  c := s.reg o.sc
  hitch := s.reg o.hitch
  nb := s.reg o.nb
  shape := s.here.shapes[o.sh]
  begun := false
  ended := false
  done := 0
  aux := 0
  reply := none
  since := s.clk
  bad := decide (0 < s.here.chk.coming) || s.commandDiffers o
  inj := decide (0 < s.here.chk.coming)
  lay := none
  chunk := []
  pool := ⟨0, 0, false, []⟩

/-- The C-format fields of a command; none for what is no command. -/
def cmdOf (i : Instr) : Option CCmd :=
  match i with
  | .rcfg c | .tcfg c | .tgo c | .twait c | .tstat c | .tdisc c | .gather c | .scatter c | .pool c | .copy c | .fill c
  | .aowAddi32 c | .aowAddi64 c | .aowAddf32 c | .aowMax c | .aowMin c | .aowAnd c | .aowOr c | .aowXor c | .aowSwap c
  | .cas c | .selk c | .nbt c | .coll c | .cgen c | .clock c | .cunlk c | .cpref c | .cswap c | .dflush c | .lenq c
  | .stgq c => some c
  | _ => none

/-- A command's fields. -/
def EngCmd.f (m : EngCmd) : CCmd := (cmdOf m.op).getD ⟨false, 0, 0, 0, 0, 0, 0, 0, .core, .rlx, 0⟩

/-- A command leaves CTL: with tsm a checkpoint is taken first. -/
def finishAct (o : CCmd) (s : State) : State := (if o.tsm then s.checkpoint s.cur.1 else s).retire 8

/-- A command issues to a queue of `depth` entries: CTL blocks while it is full; a hitch value beyond 4,095 traps (R209),
and a hitch that is another's is a violation (R210); with
tsm a checkpoint is taken, from which the command itself is logged (R378). -/
def issueCmd (i : Instr) (o : CCmd) (depth : Nat) (get : Core → EngQ) (put : EngQ → Core → Core) (s : State) : State :=
  let e := get s.here
  if depth ≤ e.cmds.length then s.block .other
  else if 4096 ≤ (s.reg o.hitch).toNat then s.execTrap .reservedOperand
  else if !s.ownsHitch s.cur.1 s.here.ctx (s.reg o.hitch) then s.stop (.violation .foreignHitch (s.reg o.hitch))
  else
    let m := s.mkCmd i o
    finishAct o (s.mod fun k =>
      let k := put { e with cmds := e.cmds ++ [m] } k
      { k with chk := { k.chk with coming := k.chk.coming - 1 } })

/-- The head of a queue leaves it. -/
def EngQ.pop (e : EngQ) : EngQ := { e with cmds := e.cmds.tail }

/-- The head of a queue changes. -/
def EngQ.onHead (e : EngQ) (f : EngCmd → EngCmd) : EngQ :=
  { e with cmds := match e.cmds with
    | m :: rest => f m :: rest
    | [] => [] }

/-- The command at which a queue stands: the first that has not ended. -/
def EngQ.cur (e : EngQ) : Option EngCmd := e.cmds.find? fun m => !m.ended

/-- That command changes. -/
def EngQ.onCur (e : EngQ) (f : EngCmd → EngCmd) : EngQ :=
  let (a, b) := e.cmds.span fun m => m.ended
  { e with cmds := a ++ match b with
    | m :: rest => f m :: rest
    | [] => [] }

/-- A command that goes on waits anew: the time that a COLL waits for its data counts from there (R326). -/
def EngCmd.waitsFrom (m : EngCmd) (now : Nat) : EngCmd :=
  match m.op with
  | .coll _ => { m with since := now }
  | _ => m

/-- The checker's copy of a command disagrees, so the command does not issue to its engine (R377). -/
def State.mismatch (s : State) (m : EngCmd) : Bool := m.bad && s.checking

/-- The not-before time of a command has come; s0 and zero name none (R303). -/
def State.timeFor (s : State) (m : EngCmd) : Bool := decide (m.nb.toNat ≤ s.gtb.toNat)

end Sys2Proof.Machine
end

