-- ==== Sys2Proof/Machine/Engine.lean ====
section
/-! DEFINITION. What the commands of the gather engine share (R302-R308): their accesses to memory and to scratchpad rows, lists
and elements, the run of a command element by element, and what a fault or a violation does to the queue. -/

namespace Sys2Proof.Machine

/-! ## The command in its queue (R308) -/

def EngCmd.who (m : EngCmd) : Asker := ⟨m.ctx, m.pc, false⟩

/-- A command as it now stands goes back to its place, where the queue still holds it. -/
def State.putCmd (s : State) (c : CoreId) (m : EngCmd) : State :=
  s.onCore c fun k => { k with gath := k.gath.onCur fun x => if x.pc == m.pc && x.ctx == m.ctx then m else x }

/-- A command stops: it waits; its context is gone; it faults, and the queue halts for CTL to trap; or it violates, and the
engine is frozen. -/
def State.haltCmd (s : State) (c : CoreId) (m : EngCmd) : Stop → State
  | .wait _ => s.putCmd c m
  | .gone => s
  | .trap cause va =>
    (s.putCmd c m).onCore c fun k =>
      { k with engFault := k.engFault || k.strand.any (fun st => st.ctx == m.ctx),
               gath := { k.gath with halted := some cause, fva := va } }
  | .violation kind target =>
    let v : Violation := ⟨kind, 2, 0, BitVec.ofNat 16 c.val, m.ctx, m.pc, target⟩
    ((s.putCmd c m).onCore c fun k => { k with gath := { k.gath with frozen := some v } }).record v

/-- What a run of a command comes to. -/
abbrev Ran := State × EngCmd × Option Stop

/-- A run ends: the command has its effect, or it stops at an element boundary. -/
def State.finishRun (c : CoreId) (r : Ran) : State :=
  match r with
  | (s, m, none) => s.putCmd c { m with ended := true }
  | (s, m, some e) => s.haltCmd c m e

/-- Elements from `done` to n - 1, one by one. -/
def runElems (c : CoreId) (f : State → EngCmd → Ran) (n : Nat) : Nat → State → EngCmd → Ran
  | 0, s, m => (s, m, none)
  | fuel + 1, s, m =>
    if n ≤ m.done then (s, m, none)
    else if !((s.core c).gath.cmds.any fun x => x.ctx == m.ctx) then (s, m, some .gone)
    else
      match f s m with
      | (s, m, some e) => (s, m, some e)
      | (s, m, none) => runElems c f n fuel s { m with done := m.done + 1 }

def runAll (c : CoreId) (f : State → EngCmd → Ran) (n : Nat) (s : State) (m : EngCmd) : Ran := runElems c f n (n - m.done) s m

/-- An operand of a command is out of its limits. -/
def operandStop (va : Word := 0) : Stop := .trap .engineOperand va

/-! ## Memory (R307) -/

def State.engRead (s : State) (c : CoreId) (m : EngCmd) (va : Word) (n : Nat) : State × Except Stop Got :=
  s.readAt c m.who m.sup va n

/-- Whole sectors written from an address on, line by line. -/
def State.writeLines (s : State) (who : Asker) (code : Layout) (va : Word) : Nat → Nat → Nat → Nat → State × Except Stop Unit
  | _, _, _, 0 => (s, .ok ())
  | pa, n, x, fuel + 1 =>
    if n = 0 then (s, .ok ())
    else
      let off := pa % 128
      let k := min n (128 - off)
      match s.memWrite who pa (touchedMask off k) (BitVec.ofNat 1024 ((x % 2 ^ (8 * k)) <<< (8 * off))) code .none false with
      | (s, .refused) => (s, .error (.trap .layoutMismatch va))
      | (s, .denied) => (s, .error (.violation .foreignPage va))
      | (s, .done) => s.writeLines who code (va + BitVec.ofNat 64 k) (pa + k) (n - k) (x >>> (8 * k)) fuel

/-- Whole sectors written under an entry; a discarded page takes nothing (R149). -/
def State.writeUnder (s : State) (m : EngCmd) (p : Word) (pa : Nat) (va : Word) (n x : Nat) : State × Except Stop Unit :=
  if pteDiscard p = 1 then (s, .ok ()) else s.writeLines m.who (pteCode p) va pa n x 3

/-- Entry i of an index list. -/
def State.engIndex (s : State) (c : CoreId) (m : EngCmd) (list : Word) (i : Nat) : State × Except Stop Nat :=
  let va := list + BitVec.ofNat 64 (4 * i)
  if va.extractLsb' 0 2 ≠ 0 then (s, .error (operandStop va))
  else
    match s.engRead c m va 4 with
    | (s, .error e) => (s, .error e)
    | (s, .ok g) => if g.page ≠ 0x1B then (s, .error (.trap .layoutMismatch va)) else (s, .ok g.x)

/-- The entry that engines skip (R52). -/
def noIndex : Nat := 0xFFFFFFFF

/-! ## Tables (R307) -/

/-- A table: its base, the bytes of an element, the stride. -/
structure Table where
  base   : Word
  bytes  : Nat
  stride : Word

/-- The table that a shape describes; none for an element size that is none. -/
def tableOf (x : Shape) : Option Table :=
  if x.e 0 = 1 ∨ x.e 0 = 2 ∨ x.e 0 = 4 ∨ x.e 0 = 8 then some ⟨x[0], 32 * x.e 0, x.d 1⟩ else none

def Table.at (t : Table) (x : Nat) : Word := t.base + BitVec.ofNat 64 x * t.stride

/-- An element off its sector, or across a row. -/
def Table.bad (t : Table) (va : Word) : Bool := va.extractLsb' 0 5 != 0 || decide (256 < va.toNat % 256 + t.bytes)

/-- An element as it was read: its layout, slot mark, bits and address. -/
structure Elem where
  lay  : Layout
  mark : BitVec 2
  x    : Nat
  va   : Word

def State.readElem (s : State) (c : CoreId) (m : EngCmd) (t : Table) (x : Nat) : State × Except Stop Elem :=
  let va := t.at x
  if t.bad va then (s, .error (operandStop va))
  else
    match s.engRead c m va t.bytes with
    | (s, .error e) => (s, .error e)
    | (s, .ok g) => (s, .ok ⟨heldCode g.page, s.rowMark g.page g.pa, g.x, va⟩)

/-! ## Rows (R306) -/

/-- Core and first row of an engine scratchpad address. -/
def engCore (a : Word) : CoreId := ⟨(a.extractLsb' 26 4).toNat * 128 + (a.extractLsb' 19 7).toNat, by omega⟩
def engRow (a : Word) : Nat := (a.extractLsb' 8 11).toNat

/-- The engine scratchpad address of a row. -/
def engAddr (c : CoreId) (r : Nat) : Word := BitVec.ofNat 64 (c.val * 2 ^ 19 + r * 256)

/-- What is wrong with a range of n rows. -/
def rowsStop (a : Word) (n : Nat) : Option Stop :=
  if a.extractLsb' 30 34 ≠ 0 ∨ 2048 < engRow a + n then some (operandStop a) else none

/-- Row i of a range, with its claim checked. -/
def State.engPad (s : State) (m : EngCmd) (a : Word) (i : Nat) : Except Stop (CoreId × Fin 2048) :=
  let c := engCore a
  let r := engRow a + i
  if h : r < 2048 then
    match s.claimant c r with
    | none => .error (.trap .rowNotClaimed (engAddr c r))
    | some x => if x = m.ctx then .ok (c, ⟨r, h⟩) else .error (.violation .foreignRow (engAddr c r))
  else .error (operandStop a)

/-- Bytes of a row written at an offset, with its tag and mark. -/
def State.fillPad (s : State) (pc : Word) (c : CoreId) (r : Fin 2048) (tag : Layout) (mark : BitVec 2) (off n x : Nat) : State :=
  let s := s.mergePad c r (BitVec.ofNat 2048 (x * 2 ^ (8 * off))) (byteMask off (off + n)) pc
  s.setPad c r { s.padRow c r with tag := tag, mark := mark }

/-- A row read for an engine, with its tag; none where a sector of it is lost. -/
def State.engRowAt (s : State) (m : EngCmd) (a : Word) (i : Nat) : State × Except Stop (Layout × BitVec 2 × Row) :=
  match s.engPad m a i with
  | .error e => (s, .error e)
  | .ok (c, r) =>
    let p := s.padRow c r
    match s.readPad c r m.pc with
    | (s, none) => (s, .error .gone)
    | (s, some (d, _)) => (s, .ok (p.tag, p.mark, d))

/-! ## Replies that hold the queue (R211, R304) -/

/-- Whether a command of the gather queue owes a reply. -/
def EngCmd.owes (m : EngCmd) : Bool :=
  match m.op with
  | .cas _ | .selk _ => true
  | .nbt o => o.imm.getLsbD 0
  | .aowAddi32 o | .aowAddi64 o | .aowAddf32 o | .aowMax o | .aowMin o | .aowAnd o | .aowOr o | .aowXor o | .aowSwap o =>
    o.imm.getLsbD 9
  | _ => false

/-- A command at the head has ended and its reply finds rq full: the queue is stopped. -/
def Core.gathHeld (k : Core) : Bool := !k.rqRoom && k.gath.cmds.head?.any fun m => m.ended && m.owes

/-! ## Issue (R302) -/

def gathIssue (i : Instr) (o : CCmd) (s : State) : State := issueCmd i o 32 (·.gath) (fun e k => { k with gath := e }) s

end Sys2Proof.Machine
end

