-- ==== Sys2Proof/Machine/Atomics.lean ====
section
/-! DEFINITION. Atomics (R315-R318): AOW and CAS, and ATOMIC_APPLY, which applies one element at the home of its address. -/

namespace Sys2Proof.Machine

def execAowAddi32 (o : CCmd) (s : State) : Out := .next (gathIssue (.aowAddi32 o) o s)
def execAowAddi64 (o : CCmd) (s : State) : Out := .next (gathIssue (.aowAddi64 o) o s)
def execAowAddf32 (o : CCmd) (s : State) : Out := .next (gathIssue (.aowAddf32 o) o s)
def execAowMax (o : CCmd) (s : State) : Out := .next (gathIssue (.aowMax o) o s)
def execAowMin (o : CCmd) (s : State) : Out := .next (gathIssue (.aowMin o) o s)
def execAowAnd (o : CCmd) (s : State) : Out := .next (gathIssue (.aowAnd o) o s)
def execAowOr (o : CCmd) (s : State) : Out := .next (gathIssue (.aowOr o) o s)
def execAowXor (o : CCmd) (s : State) : Out := .next (gathIssue (.aowXor o) o s)
def execAowSwap (o : CCmd) (s : State) : Out := .next (gathIssue (.aowSwap o) o s)
def execCas (o : CCmd) (s : State) : Out := .next (gathIssue (.cas o) o s)

/-! ## The operation (R316) -/

/-- Operations of an atomic. -/
inductive AOp where
  | addi | addf | max | min | and | or | xor | swap | cas
  deriving DecidableEq, Repr

/-- An atomic: its operation, its width in bits, signed. -/
structure Atom where
  op  : AOp
  w   : Nat
  sgn : Bool
  deriving DecidableEq, Repr

/-- The atomic that a command performs. -/
def atomOf (i : Instr) : Option Atom :=
  let wide : CCmd → Nat := fun o => if o.imm.getLsbD 0 then 64 else 32
  match i with
  | .aowAddi32 _ => some ⟨.addi, 32, false⟩
  | .aowAddi64 _ => some ⟨.addi, 64, false⟩
  | .aowAddf32 _ => some ⟨.addf, 32, false⟩
  | .aowMax o => some ⟨.max, wide o, o.imm.getLsbD 1⟩
  | .aowMin o => some ⟨.min, wide o, o.imm.getLsbD 1⟩
  | .aowAnd o => some ⟨.and, wide o, false⟩
  | .aowOr o => some ⟨.or, wide o, false⟩
  | .aowXor o => some ⟨.xor, wide o, false⟩
  | .aowSwap o => some ⟨.swap, wide o, false⟩
  | .cas o => some ⟨.cas, wide o, false⟩
  | _ => none

/-- The new word from the old one: `b` is the operand or the expected value, `c` the new value of a CAS. -/
def Atom.new (a : Atom) (old b c : Nat) : Nat :=
  let b := b % 2 ^ a.w
  let c := c % 2 ^ a.w
  let le := decide (ival a.w a.sgn old ≤ ival a.w a.sgn b)
  match a.op with
  | .addi => (old + b) % 2 ^ a.w
  | .addf =>
    let x := decodeF .fp32 old
    let y := decodeF .fp32 b
    roundF .fp32 false false .gather (match firstNan [x, y] with
      | some n => .nan n
      | none => addF .gather x y)
  | .max => if le then b else old
  | .min => if le then old else b
  | .and => old &&& b
  | .or => old ||| b
  | .xor => old ^^^ b
  | .swap => b
  | .cas => if old = b then c else old

/-! ## Legal scopes and orders (R317) -/

/-- Rank of a scope, from CORE up. -/
def scopeRank : Scope → Nat
  | .core => 0
  | .clu => 1
  | .die => 2
  | .pkg => 3
  | .fab => 4
  | .sys => 5

def scopeLegal (a : Atom) (p : Word) (pa : Nat) (scope : Scope) (order : Order) : Bool :=
  let coh := pteCoh p
  let f32 := a.op == .addf
  if pteFabric p then coh != 0 && (scope == .fab || (scope == .sys && coh == 2 && !f32))
  else if inCxl pa then scope == .sys && !f32
  else if coh = 0 then order == .rlx && decide (scopeRank scope ≤ 1)
  else if coh = 1 then decide (scopeRank scope ≤ 4)
  else !(scope == .sys && f32)

/-! ## One element at its home -/

/-- The word at an address read and written as one; the old word. `owed` says that it is replied. An element that cannot reach its
home is dropped, and what it should have read is lost (R409). -/
def State.applyAtom (s : State) (who : Asker) (a : Atom) (code : Layout) (pa : Nat) (va b c : Word) (owed : Bool) :
    State × Except Stop Nat :=
  if !s.homeUp pa ∧ !owed then (s.postFar who.ctx, .ok 0)
  else if s.silent pa ∧ !owed then (State.postFar { s with mute := none } who.ctx, .ok 0)
  else
    let off := pa % 128
    let mask := touchedMask off (a.w / 8)
    match s.memRead who pa mask code .none with
    | (s, .refused) => (s, .error (.trap .layoutMismatch va))
    | (s, .lost) => (s, .error .gone)
    | (s, .denied) => (s, .error (.violation .foreignPage va))
    | (s, .got d _) =>
      let old := fieldAt d.toNat (8 * off) a.w
      let new := d.toNat - old * 2 ^ (8 * off) + a.new old b.toNat c.toNat * 2 ^ (8 * off)
      if 2 ^ 47 ≤ pa then (s.putOuters pa mask (BitVec.ofNat 1024 new), .ok old) else
      match s.memWrite who pa mask (BitVec.ofNat 1024 new) code .none false with
      | (s, .refused) => (s, .error (.trap .layoutMismatch va))
      | (s, .denied) => (s, .error (.violation .foreignPage va))
      | (s, .done) => (s, .ok old)

/-- Whether a command owes the old word. -/
def EngCmd.owesOld (m : EngCmd) : Bool :=
  match m.op with
  | .cas _ => true
  | _ => m.f.imm.getLsbD 9

/-- The element at an address, with the checks of R316 and R317. -/
def State.atomAt (s : State) (c : CoreId) (m : EngCmd) (a : Atom) (va : Word) : State × Except Stop Nat :=
  if va.toNat % (a.w / 8) ≠ 0 then (s, .error (.trap .misalignedAtomic va))
  else
    match s.reachVa c m.who m.sup ⟨true, true, false⟩ va with
    | (s, .error e) => (s, .error e)
    | (s, .ok (p, pa)) =>
      if pteCode p ≠ 0 ∧ pteCode p ≠ 0x19 then (s, .error (.trap .layoutMismatch va))
      else if !scopeLegal a p pa m.f.scope m.f.order then (s, .error (.trap .atomicScopeIllegal va))
      else if pteDiscard p = 1 then (s, .ok 0)
      else s.applyAtom m.who a (pteCode p) pa va m.b m.c m.owesOld

/-- Whether an AOW goes through a list (R318). -/
def EngCmd.listed (m : EngCmd) : Bool :=
  match m.op with
  | .cas _ => false
  | _ => m.f.sc != 0

/-- Elements of an atomic command. -/
def EngCmd.count (m : EngCmd) : Nat := if m.listed then m.shape.e 0 else 1

/-- The address of element `done`; none where its entry is skipped. -/
def State.atomVa (s : State) (c : CoreId) (m : EngCmd) : State × Except Stop (Option Word) :=
  if !m.listed then (s, .ok (some m.a))
  else
    match s.engIndex c m m.c m.done with
    | (s, .error e) => (s, .error e)
    | (s, .ok x) => (s, .ok (if x = noIndex then none else some (m.a + BitVec.ofNat 64 x * m.shape.d 1)))

/-- Element `done` of an atomic. -/
def atomElem (c : CoreId) (a : Atom) (s : State) (m : EngCmd) : Ran :=
  match s.atomVa c m with
  | (s, .error e) => (s, m, some e)
  | (s, .ok none) => (s, m, none)
  | (s, .ok (some va)) =>
    match s.atomAt c m a va with
    | (s, .error e) => (s, m, some e)
    | (s, .ok old) => (s, if m.owesOld then { m with reply := some (BitVec.ofNat 64 old) } else m, none)

/-- ATOMIC_APPLY: the atomic in progress applies its next element, and has its effect with the last. -/
def State.atomicApply (s : State) (c : CoreId) : State :=
  let e := (s.core c).gath
  match e.halted, e.frozen, e.cur with
  | none, none, some m =>
    match atomOf m.op with
    | none => s
    | some a =>
      if !m.begun || (s.core c).gathHeld then s
      else if m.count ≤ m.done then s.putCmd c { m with ended := true }
      else
        match atomElem c a s m with
        | (s, m, some x) => s.haltCmd c m x
        | (s, m, none) => s.putCmd c { m with done := m.done + 1, ended := decide (m.count ≤ m.done + 1) }
  | _, _, _ => s

def execAtomicApply (c : CoreId) (s : State) : Out := .next (s.asRequester (engineOf c) (·.atomicApply c))

end Sys2Proof.Machine
end

