-- ==== Sys2Proof/Machine/Fetch.lean ====
section
/-! DEFINITION. Fetch (R57, R223), the drain table (R82), the token queues and the yield bound as they bear on the next instruction
(R69, R81), and which events take place on their own. -/

namespace Sys2Proof.Machine

/-! ## Fetch (R57, R223) -/

/-- The line of a context that holds an address. -/
def Core.codeLine (k : Core) (ctx : Ctx) (addr : Word) : Option CodeLine :=
  k.codeL1.find? fun l => l.ctx == ctx && l.line == addr.extractLsb' 7 41

/-- The 64-bit word at an address within a line, little-endian (R4). -/
def lineWord (data : BitVec 1024) (addr : Word) : Word := data.extractLsb' (64 * (addr.extractLsb' 3 4).toNat) 64

/-- The word at an address and the word after it in its line: a bundle never leaves its line (R57). -/
def Core.fetch (k : Core) (ctx : Ctx) (addr : Word) : Option (Word × Word) :=
  (k.codeLine ctx addr).map fun l => (lineWord l.data addr, lineWord l.data (addr + 8))

/-- The sector of a code L1 line that a fetch reads: corrected in place; or found past correction, for which the line goes to be fetched
again (R364, R365). -/
def State.checkLine (s : State) (c : CoreId) (ctx : Ctx) (addr : Word) : State :=
  let i : Fin 4 := (addr.extractLsb' 5 2).toFin
  let u : Guarded := .code ctx (addr.extractLsb' 7 41) i
  let fl := s.flipsAt c u
  if fl.isEmpty then s
  else
    match (s.core c).codeLine ctx addr with
    | none => s
    | some l =>
      let data := lineSector l.data i
      let f := checkCode data fl
      let (n, s) := if f.wild then s.free else (0, s)
      let s := s.setErr c u []
      let put : BitVec 256 → State → State := fun x s => s.onCore c fun k =>
        { k with codeL1 := k.codeL1.map fun y => if y == l then { y with data := setLineSector l.data i x } else y }
      if f.wild && !Config.freeDetect n then put (Config.freeValue n) s
      else if f.sev = .clean then put (data ^^^ flipMask f.left) s
      else if f.sev = .sv0 then (put (data ^^^ flipMask f.left) s).log 0 (u.place c) false noFlags 0 addr
      else (s.log 0 (u.place c) false noFlags 0 addr).onCore c fun k => { k with codeL1 := k.codeL1.filter (· != l) }

/-- A hit in the code L1: the line becomes the most recently used of its set (R223). -/
def Core.touchCode (k : Core) (ctx : Ctx) (addr : Word) : Core :=
  match k.codeLine ctx addr with
  | some l => { k with codeL1 := l :: k.codeL1.erase l }
  | none => k

/-- A displacement in 8-byte words. -/
def dispBytes (d : BitVec 32) : Word := d.signExtend 64 <<< 3

/-! ## Yield points (R69, R81, R82) -/

/-- The drain entry that covers a pc of a sequencer in a context (R82). -/
def State.drainAt (s : State) (ctx : Ctx) (q : Seq) (pc : Word) : Option DrainEntry :=
  s.drains.find? fun d => d.ctx == ctx && d.seq == q && decide (d.lo.toNat ≤ pc.toNat) && decide (pc.toNat < d.hi.toNat)

/-- A token queue that a sequencer consumes is not empty (R69 check 8, R107). -/
def Core.tokensLeft (k : Core) (q : Seq) : Bool :=
  (List.finRange 16).any fun t => t.val % 4 == q.num.val && k.toks[t] != 0

/-- The count that the next issue of EX would produce passes the yield bound (R81). -/
def Core.overBound (k : Core) (q : Seq) (yp : Bool) : Bool :=
  q == .ex && !yp && !(k.seq .ex).inTrap && k.divert.isNone &&
    (match k.strand with
      | some st => decide (st.bound < k.ex.ycnt.toNat + 1)
      | none => false)

/-! ## Events on their own -/

/-- Events that take place on their own, apart from a sequencer's turn; what an MTSR does takes place in its turn. -/
def onItsOwn (i : Instr) : Bool :=
  match i with
  | .decodeTrap _ _ | .engineFaultDelivery | .yieldBoundExceeded | .severityTrap | .diversion _ | .codeLineFill _ _
  | .tlbinvPage _ | .tlbinvContext _ | .tlbinvAll _ | .l2Clean | .l2CleanInvalidate | .frameRelease _ | .errorInject _
  | .efctlResume | .efctlDropHead | .efctlDropAll => false
  | _ => !i.isWord

end Sys2Proof.Machine
end

