-- ==== Sys2Proof/Machine/Checker.lean ====
section
/-! DEFINITION. The checker of CTL (R377-R379, R383): what the replay log takes, the rollback of a window, CTL running it again, and the
checker's own registers. The checker is fed what CTL takes in and computes as CTL does, so that the two hold the same registers until
an error in CTL's (R363), or in what CTL computes, takes them apart. -/

namespace Sys2Proof.Machine

/-! ## The replay log (R377, R378) -/

/-- What an instruction of CTL logs beside its word: the value it takes in, or the effect or command it performs. The loop
registers are part of the checkpoint, so a write of one is none of these. -/
def State.logged (s : State) (i : Instr) : Option Logged :=
  match i with
  | .tokt d _ _ | .mfsr d _ | .hwait d _ _ | .rpop d _ _ | .rtry d _ _ => some (.result d)
  | .bq _ _ => some (.value (if s.here.bqs[s.cur.2.num].headD false then 1 else 0))
  | .toks _ n | .tokw _ n => some (.effect (n.setWidth 64))
  | .cbw _ x | .bqp x _ => some (.effect (s.src x))
  | .mtsr x r => match r with
    | .lc _ | .lbeg _ | .lend _ | .lstk => none
    | _ => some (.effect (s.src x))
  | .hinit h _ | .harv h _ => some (.effect (s.reg h))
  | .pend | .sync _ | .xfence _ _ _ | .gvi _ | .yield | .halt | .twait _ | .tstat _ | .tdisc _ => some (.effect 0)
  | _ => match queueOf i, cmdOf i with
    | some _, some o => some (.command { s.mkCmd i o with bad := false, inj := false } false)
    | _, _ => none

/-- The constants that an instruction of CTL takes in, in the order of its fields. -/
def constantsOf (i : Instr) : List (Fin 256) := i.uses.c

/-- The entries of an instruction about to run on CTL: its word, the constants it takes in, and what else `logged` names. -/
def State.logOf (s : State) (w : Word) (i : Instr) : List Logged :=
  .word w :: ((constantsOf i).map fun n => .value (s.here.constant .ctl n)) ++ (s.logged i).toList

/-! ## Rollback (R379) -/

/-- Where a mismatch is logged. -/
def checkerPlace (c : CoreId) : Place := ⟨6, c.val / 256, 0, 0, 0, c.val⟩

/-- A mismatch that cannot be rolled back is SV3, charged to the running context; `inj` says that an injection has made it. -/
def State.lostWindow (s : State) (c : CoreId) (inj : Bool) (pc : Word) : State :=
  let ctx := (s.core c).ctx
  (s.log 3 { checkerPlace c with addr := 0 } inj { noFlags with term := true } ctx pc).charge ctx

/-- Whether an entry is a command of a queue that has been performed. -/
def Logged.isCmd (master : BitVec 8) (e : Logged) : Bool :=
  match e with
  | .command m again => !again && queueOf m.op == some master
  | _ => false

/-- Of the entries, the latest first, the first `n` commands of a queue are discarded. -/
def discard (master : BitVec 8) : List Logged → Nat → List Logged
  | [], _ => []
  | e :: rest, n =>
    if n ≠ 0 && e.isCmd master then
      (match e with
        | .command m _ => .command m true
        | e => e) :: discard master rest (n - 1)
    else e :: discard master rest n

/-- The queue whose head the checker refuses. -/
def Core.refusedBy (k : Core) : Option (BitVec 8) :=
  [1, 2, 3, 4].find? fun q => (k.engQ q).cur.any fun m => m.bad && !m.begun

/-- A queue without the mismatching command and every command behind it that the window holds; the corrupt copies among them but the
first are still to come (R383). What an earlier window held stays, with a fresh copy of the head (DESIGN CHOICE, log 52). -/
def Core.takeBack (k : Core) (q : BitVec 8) : Core :=
  let e := k.engQ q
  let (done, rest) := e.cmds.span fun m => m.ended
  let n := min rest.length (k.chk.log.countP (·.isCmd q))
  let stay := rest.take (rest.length - n)
  let gone := rest.drop (rest.length - n)
  let stay := match stay with
    | m :: ms => { m with bad := false, inj := false } :: ms
    | [] => []
  let back := (if n = rest.length then gone.drop 1 else gone).countP (·.inj)
  let k := k.onEngine q fun e => { e with cmds := done ++ stay }
  { k with chk := { k.chk with coming := k.chk.coming + back, log := (discard q k.chk.log.reverse n).reverse, missed := k.chk.missed + 1 } }

/-- CTL with the registers of a checkpoint. -/
def SeqSt.atPoint (q : SeqSt) (p : Checkpoint) : SeqSt := { q with pc := p.pc, regs := p.regs, loops := p.loops, lstk := p.lstk }

/-- CTL and the checker go back to their checkpoint and have the log to run again. -/
def Core.rewind (k : Core) : Core :=
  if k.chk.log.isEmpty then k
  else
    let p := k.chk.point
    let w := if k.chk.again.isEmpty then (k.seq .ctl).wait else k.chk.stood
    let k := k.onSeq .ctl fun st => { st.atPoint p with run := .running, wait := .none }
    { k with chk := { k.chk with copy := k.chk.copyPoint, again := k.chk.log, stood := w } }

/-- CTL can go back: it is not frozen, nor has its strand gone. -/
def SeqSt.rewinds (q : SeqSt) : Bool :=
  match q.run with
  | .running | .halted | .parked => true
  | .idle | .frozen _ => false

/-- CHECKER_ROLLBACK: an effect that has left CTL and differs is SV3 in the clk in which it is compared; the first mismatch of a command
in a window rolls the window back, a second one is SV3. -/
def State.rollback (s : State) (c : CoreId) : State :=
  let k := s.core c
  if !s.checking || !(k.seq .ctl).rewinds then s
  else if k.chk.due.any fun d => decide (d.1 ≤ s.clkOf c) then
    (s.onCore c fun k => { k with chk := { k.chk with due := none } }).lostWindow c false ((k.chk.due.map (·.2)).getD 0)
  else
    match k.refusedBy with
    | none => s
    | some q =>
      let pc := ((k.engQ q).cur.map (·.pc)).getD 0
      let inj := (k.engQ q).cur.any (·.inj)
      if k.chk.missed = 0 then (s.log 4 (checkerPlace c) inj noFlags 0 pc).onCore c fun k => (k.takeBack q).rewind
      else s.lostWindow c inj pc

def execCheckerRollback (c : CoreId) (s : State) : Out := .next (s.rollback c)

/-! ## CTL runs its window again (R379) -/

/-- CTL of the current core has run `n` entries again. -/
def State.ranAgain (s : State) (n : Nat) : State := s.mod fun k => { k with chk := { k.chk with again := k.chk.again.drop n } }

/-- An instruction whose effect stands is passed over: the pc goes past it. HALT halts or parks again; a phase end or a region that
is still under way is where CTL stands. -/
def State.stepPast (s : State) (i : Instr) : State :=
  let n := 2 + (constantsOf i).length
  let past : Word → State := fun x => (s.modMe fun q => q.goto (q.pc + x)).ranAgain n
  let under := (s.me.copy.isSome || s.me.gvi.isSome) && s.here.chk.again.length == n
  if under then (s.modMe fun q => { q with wait := s.here.chk.stood }).ranAgain n
  else
    match i with
    | .halt => (s.modMe fun q => { q.setDepth 0 with run := if s.here.divert == some .preempt then .parked else .halted }).ranAgain n
    | .gvi n => past (8 + 8 * n.setWidth 64)
    | _ => past 8

/-- A discarded command goes into its queue anew with the values the log holds, so that its copy is compared again. -/
def State.putAgain (s : State) (q : BitVec 8) (m : EngCmd) : State :=
  let differs := (cmdOf m.op).any s.commandDiffers
  let s := s.mod fun k =>
    let inj := decide (0 < k.chk.coming)
    let k := k.onEngine q fun e => { e with cmds := e.cmds ++ [{ m with bad := inj || differs, inj := inj }] }
    { k with chk := { k.chk with coming := k.chk.coming - 1 } }
  (s.modMe fun q => q.goto (q.pc + 8)).ranAgain 2

/-- A command as CTL computes it again is the logged one; its shape register was a value taken in. -/
def EngCmd.same (m n : EngCmd) : Bool :=
  m.op == n.op && m.pc == n.pc && m.a == n.a && m.b == n.b && m.c == n.c && m.hitch == n.hitch && m.nb == n.nb

/-- The constants that the log serves to an instruction; none where its entries are not that many values. -/
def servedBy (i : Instr) (log : List Logged) : Option (List (Fin 256 × Word)) :=
  let want := constantsOf i
  let got := (log.take want.length).filterMap fun e => match e with
    | .value x => some x
    | _ => none
  if got.length = want.length then some (want.zip got) else none

/-- The next instruction of the window: its word and the values it takes in come from the log, an effect or command equal to its
entry is suppressed, and an entry that differs is SV3. What works on CTL's registers alone runs as ever, with the constants that the log
serves. -/
def State.rerun (s : State) : State × Option Instr :=
  let differs : State × Option Instr := (s.lostWindow s.cur.1 false s.me.pc, none)
  match s.here.chk.again with
  | .word w :: rest =>
    match decode .ctl s.me.pc w 0 s.reduced with
    | .error _ => differs
    | .ok f =>
      match rest, servedBy f.instr rest with
      | .skipped :: _, _ => ((s.modMe fun q => q.goto (q.pc + 8)).ranAgain 2, none)
      | _, none => differs
      | _, some cs =>
        let s := s.mod fun k => { k with chk := { k.chk with served := cs } }
        let n := 1 + cs.length
        match s.logged f.instr, rest.drop cs.length with
        | none, _ => ({ s with curYp := f.yp, curLog := [], curAgain := n }, some f.instr)
        | some (.result d), .value x :: _ => ((s.modMe fun q => (q.setReg d x).goto (q.pc + 8)).ranAgain (n + 1), none)
        | some (.value _), .value x :: _ =>
          match f.instr with
          | .bq t disp =>
            ((s.modMe fun q => if (x == 1) == t then q.branch (q.pc + (disp.signExtend 64 <<< 3)) else q.goto (q.pc + 8)).ranAgain (n + 1), none)
          | _ => differs
        | some (.effect x), .effect y :: _ => if x = y then (s.stepPast f.instr, none) else differs
        | some (.command m _), .command m' again :: _ =>
          if !m.same m' then differs
          else
            match again, queueOf f.instr with
            | true, some q => (s.putAgain q m', none)
            | _, _ => (s.stepPast f.instr, none)
        | _, _ => differs
  | _ => differs

/-! ## The checker's own registers (R377) -/

/-- CTL of the current core with the checker's registers in place of its own. -/
def State.asChecker (s : State) (p : Checkpoint) : State := s.mod fun k => k.onSeq .ctl fun q => q.atPoint p

/-- An effect of the current instruction, as the checker computes it, is not CTL's (R377). Commands are compared at the head of their
queue. -/
def State.effectDiffers (s : State) (i : Instr) : Bool :=
  match s.here.chk.copy with
  | none => false
  | some p =>
    match s.logged i, (s.asChecker p).logged i with
    | some (.effect x), some (.effect y) => x != y
    | _, _ => false

/-- CTL computes a register of its own wrong; the checker does not (R377). -/
def State.slip (s : State) (c : CoreId) (n : Fin 32) (x : Word) : State :=
  State.onCore { s with apart := c :: s.apart } c fun k =>
    let p := k.chk.copy.getD k.ctlRegs
    let k := k.onSeq .ctl fun q => q.setReg n x
    { k with chk := { k.chk with copy := some p } }

/-- What the checker holds after a step in which it was fed all that CTL took in: the registers that CTL wrote change alike. -/
def Checkpoint.follow (p old new : Checkpoint) : Checkpoint where
  pc := if new.pc = old.pc then p.pc else new.pc
  regs := Vector.ofFn fun i => if new.regs[i] = old.regs[i] then p.regs[i] else new.regs[i]
  loops := Vector.ofFn fun i => if new.loops[i] = old.loops[i] then p.loops[i] else new.loops[i]
  lstk := if new.lstk = old.lstk then p.lstk else new.lstk

/-- A register word whose error goes unseen takes CTL apart from the checker (R364). -/
def State.fallApart (s old : State) (c : CoreId) : State :=
  let p := (old.core c).ctlRegs
  if (s.core c).ctlRegs = p ∨ (s.core c).chk.copy.isSome then s
  else State.onCore { s with apart := c :: s.apart } c fun k => { k with chk := { k.chk with copy := some p } }

/-- The checker after an instruction of CTL on core `c`, from the state before it and after it: it has run the instruction on its own
registers, which `own` gives, and an effect that differs is found 4 clk later. Once the two hold the same again they go on as one. -/
def State.checkerStep (s t : State) (c : CoreId) (i : Option Instr) (own : Option State) : State :=
  match (s.core c).chk.copy, (t.core c).chk.copy with
  | some p, some _ =>
    let old := (s.core c).ctlRegs
    let new := (t.core c).ctlRegs
    let differs := i.any fun i => s.effectDiffers i
    let q := if new = old then p
      else match own with
        | some u => (u.core c).ctlRegs
        | none => p.follow old new
    t.onCore c fun k => { k with chk := { k.chk with
      copy := if q = new then none else some q
      due := if differs && new != old then k.chk.due.or (some (t.clkOf c + 4, s.me.pc)) else k.chk.due } }
  | _, _ => t

end Sys2Proof.Machine
end

