-- ==== Sys2Proof/Machine/Collective.lean ====
section
/-! DEFINITION. Collective steps (R325-R327): COLL, the arrival of its chunk, and the end of its patience. -/

namespace Sys2Proof.Machine

def execColl (o : CCmd) (s : State) : Out := .next (gathIssue (.coll o) o s)

/-! ## Fields (R325, R326) -/

/-- Steps of a collective. -/
inductive CollOp where
  | send | addSend | add | take
  deriving DecidableEq, Repr

def collOp (o : CCmd) : CollOp :=
  match (o.imm.extractLsb' 0 2).toNat with
  | 0 => .send
  | 1 => .addSend
  | 2 => .add
  | _ => .take

def CollOp.sends : CollOp → Bool
  | .send | .addSend => true
  | _ => false

/-- Whether a step reads I, and L as data. -/
def CollOp.readsI : CollOp → Bool
  | .send => false
  | _ => true
def CollOp.readsL : CollOp → Bool
  | .take => false
  | _ => true

def collInt (o : CCmd) : Bool := o.imm.getLsbD 2

/-- Rows of a chunk. -/
def EngCmd.rows (m : EngCmd) : Nat := m.shape.e 0

/-- What is wrong with the operands of a COLL. -/
def EngCmd.collBad (m : EngCmd) (o : CCmd) : Bool :=
  let p := collOp o
  m.rows == 0 || decide (4096 < m.rows) || (!p.sends && o.sb != 0) || (!p.readsI && o.sc != 0) ||
    decide (m.a.toNat % 256 ≠ 0) || (p.sends && decide (m.b.toNat % 256 ≠ 0)) || (p.readsI && decide (m.c.toNat % 256 ≠ 0))

/-- Fields of a trailer row. -/
structure Trailer where
  c : Nat
  a : Nat
  m : Nat
  st : Nat

def trailerOf (x : Nat) : Trailer := ⟨fieldAt x 0 32, fieldAt x 32 32, fieldAt x 64 32, fieldAt x 96 8⟩

def Trailer.row (t : Trailer) : Row := BitVec.ofNat 2048 (t.c + t.a * 2 ^ 32 + t.m % 2 ^ 32 * 2 ^ 64 + t.st * 2 ^ 96)

/-! ## Sums -/

/-- A lane of L plus a lane of I, L first (R42). -/
def collLane (int : Bool) (x y : Nat) : Nat :=
  if int then (x + y) % 2 ^ 32
  else
    let a := decodeF .fp32 x
    let b := decodeF .fp32 y
    roundF .fp32 false false .coll (match firstNan [a, b] with
      | some n => .nan n
      | none => addF .coll a b)

def collAdd (int : Bool) (l i : Row) : Row :=
  BitVec.ofNat 2048 (pack 32 (fun k => collLane int (laneOf l.toNat 32 k) (laneOf i.toNat 32 k)) 64)

/-- The lanes of some rows in order. -/
def lanesOf (rows : List Row) : List Nat := rows.flatMap fun r => (List.range 64).map fun k => laneOf r.toNat 32 k

def absF : FV → FV
  | .nan n => .nan n
  | .inf _ => .inf false
  | .fin _ m e => .fin false m e

/-- The exact sum of values: the first NaN among them (R42); a sum of negative zeros alone is one (R31). -/
def sumF (xs : List FV) : FV :=
  match firstNan xs, xs with
  | some n, _ => .nan n
  | none, [] => .fin false 0 0
  | none, x :: xs => xs.foldl (addF .coll) x

/-- A sum formed exactly and rounded once. -/
def collSum (int abs : Bool) (xs : List Nat) : Nat :=
  if int then (if abs then 0 else xs.foldl (fun a x => (a + x) % 2 ^ 32) 0)
  else
    let v := xs.map (decodeF .fp32)
    roundF .fp32 false false .coll (sumF (if abs then v.map absF else v))

/-- The trailer of a chunk sent: the sums of L, added to those that came with I. -/
def trailerFor (int : Bool) (l : List Row) (i : Option Trailer) : Trailer :=
  let xs := lanesOf l
  let c := collSum int false xs
  let a := collSum int true xs
  match i with
  | none => ⟨c, a, 1, 1⟩
  | some t => ⟨collLane int t.c c, if int then 0 else collLane int t.a a, t.m + 1, 1⟩

/-- The check at the receiving port (R326). -/
def collGood (int : Bool) (rows : List Row) (t : Trailer) : Bool :=
  let xs := lanesOf rows
  if int then collSum true false xs == t.c
  else
    let v := xs.map (decodeF .fp32)
    let c := decodeF .fp32 t.c
    if (c :: v).any fun x => match x with
      | .fin _ _ _ => false
      | _ => true then true
    else
      match addF .coll c (negF (sumF v)), decodeF .fp32 t.a with
      | .fin _ m e, .fin _ m' e' => cmpF (.fin false m e) (.fin false ((t.m + 2) * m') (e' - 23)) != .gt
      | _, .inf _ => true
      | _, _ => false

/-! ## Buffers -/

/-- n rows of a buffer from row i on. -/
def State.collRead (s : State) (c : CoreId) (m : EngCmd) (a : Word) (i : Nat) : Nat → State × Except Stop (List Row)
  | 0 => (s, .ok [])
  | n + 1 =>
    match s.engRead c m (a + BitVec.ofNat 64 (256 * i)) 256 with
    | (s, .error e) => (s, .error e)
    | (s, .ok g) =>
      match s.collRead c m a (i + 1) n with
      | (s, .error e) => (s, .error e)
      | (s, .ok rs) => (s, .ok (BitVec.ofNat 2048 g.x :: rs))

/-- Rows, or their first n bytes, written to a buffer. -/
def State.collWrite (s : State) (c : CoreId) (m : EngCmd) (a : Word) (i n : Nat) (r : Row) : State × Except Stop Unit :=
  let va := a + BitVec.ofNat 64 (256 * i)
  match s.reachVa c m.who m.sup ⟨false, true, false⟩ va with
  | (s, .error e) => (s, .error e)
  | (s, .ok (p, pa)) => s.writeUnder m p pa va n (r.toNat % 2 ^ (8 * n))

def State.collWriteAll (s : State) (c : CoreId) (m : EngCmd) (a : Word) (i : Nat) : List Row → State × Except Stop Unit
  | [] => (s, .ok ())
  | r :: rs =>
    match s.collWrite c m a i 256 r with
    | (s, .error e) => (s, .error e)
    | (s, .ok _) => s.collWriteAll c m a (i + 1) rs

/-- The trailer of I; a step waits for its state, and fails on a failed one. -/
def State.collTrailer (s : State) (c : CoreId) (m : EngCmd) : State × Except Stop Trailer :=
  match s.engRead c m (m.c + BitVec.ofNat 64 (256 * m.rows)) 256 with
  | (s, .error e) => (s, .error e)
  | (s, .ok g) =>
    let t := trailerOf g.x
    if t.st = 0 then (s, .error (.wait .other))
    else if t.st = 2 then (s, .error (.trap .collectiveChecksum (m.c + BitVec.ofNat 64 (256 * m.rows))))
    else (s, .ok t)

/-- I has been read: its state becomes empty. -/
def State.collTaken (s : State) (c : CoreId) (m : EngCmd) (t : Trailer) : State × Except Stop Unit :=
  s.collWrite c m m.c m.rows 32 { t with st := 0 }.row

/-! ## The run -/

/-- Row `done` of an ADD or TAKE. -/
def collElem (c : CoreId) (o : CCmd) (s : State) (m : EngCmd) : Ran :=
  match s.collRead c m m.c m.done 1 with
  | (s, .error e) => (s, m, some e)
  | (s, .ok i) =>
    let old : State × Except Stop (List Row) := if (collOp o).readsL then s.collRead c m m.a m.done 1 else (s, .ok [0])
    match old with
    | (s, .error e) => (s, m, some e)
    | (s, .ok l) =>
      let r := if (collOp o).readsL then collAdd (collInt o) (l.headD 0) (i.headD 0) else i.headD 0
      match s.collWrite c m m.a m.done 256 r with
      | (s, .error e) => (s, m, some e)
      | (s, .ok _) => (s, m, none)

/-- The chunk of a SEND or ADDSEND is formed; it is then on its way. -/
def State.collForm (s : State) (c : CoreId) (m : EngCmd) (o : CCmd) (i : Option Trailer) : Ran :=
  match s.collRead c m m.a 0 m.rows with
  | (s, .error e) => (s, m, some e)
  | (s, .ok l) =>
    match i with
    | none => (s, { m with chunk := l ++ [(trailerFor (collInt o) l none).row] }, some (.wait .other))
    | some t =>
      match s.collRead c m m.c 0 m.rows with
      | (s, .error e) => (s, m, some e)
      | (s, .ok x) =>
        match s.collTaken c m t with
        | (s, .error e) => (s, m, some e)
        | (s, .ok _) =>
          let rows := (l.zip x).map fun y => collAdd (collInt o) y.1 y.2
          (s, { m with chunk := rows ++ [(trailerFor (collInt o) l (some t)).row] }, some (.wait .other))

/-- COLL as far as it comes: a chunk that has been formed waits for its arrival. -/
def State.runColl (s : State) (c : CoreId) (m : EngCmd) (o : CCmd) : Ran :=
  if m.collBad o then (s, m, some operandStop)
  else if !m.chunk.isEmpty then (s, m, some (.wait .other))
  else if !(collOp o).readsI then s.collForm c m o none
  else
    match s.collTrailer c m with
    | (s, .error e) => (s, m, some e)
    | (s, .ok t) =>
      if (collOp o).sends then s.collForm c m o (some t)
      else
        match runAll c (collElem c o) m.rows s m with
        | (s, m, some e) => (s, m, some e)
        | (s, m, none) =>
          match s.collTaken c m t with
          | (s, .error e) => (s, m, some e)
          | (s, .ok _) => (s, m, none)

/-! ## COLL_CHUNK_ARRIVAL (R326, R327) -/

/-- The receiving port writes the rows and checks them. A good chunk takes its trailer and the COLL has its effect; a bad one is
sent again once, then its trailer says so and the COLL faults. -/
def State.chunkArrival (s : State) (c : CoreId) : State :=
  let e := (s.core c).gath
  match e.halted, e.frozen, e.cur with
  | none, none, some m =>
    match m.op, m.chunk.getLast? with
    | .coll o, some last =>
      let rows := m.chunk.dropLast
      match s.collWriteAll c m m.b 0 rows with
      | (s, .error x) => s.haltCmd c m x
      | (s, .ok _) =>
        let good := collGood (collInt o) rows (trailerOf last.toNat)
        if !good ∧ m.aux = 0 then s.putCmd c { m with aux := 1 }
        else
          let t := trailerOf last.toNat
          match s.collWrite c m m.b rows.length 256 (if good then last else { t with st := 2 }.row) with
          | (s, .error x) => s.haltCmd c m x
          | (s, .ok _) =>
            if good then s.putCmd c { m with ended := true, done := m.rows }
            else s.haltCmd c { m with aux := 0 } (.trap .collectiveChecksum m.b)
    | _, _ => s
  | _, _, _ => s

def execCollChunkArrival (c : CoreId) (s : State) : Out := .next (s.asRequester (engineOf c) (·.chunkArrival c))

/-- COLL_TIMEOUT: a step that has waited longer than 1 ms for I, whose state is 0 still. -/
def State.collTimeout (s : State) (c : CoreId) : State :=
  let e := (s.core c).gath
  let now := s.gtbq / 189
  match e.halted, e.frozen, e.cur with
  | none, none, some m =>
    match m.op with
    | .coll o =>
      if m.begun && (collOp o).readsI && m.chunk.isEmpty && decide (m.since + 1000000 < now) then
        match s.engRead c m (m.c + BitVec.ofNat 64 (256 * m.rows)) 256 with
        | (t, .ok g) => if (trailerOf g.x).st = 0 then t.haltCmd c { m with since := now } (.trap .collectiveTimeout m.c) else s
        | (_, .error _) => s
      else s
    | _ => s
  | _, _, _ => s

def execCollTimeout (c : CoreId) (s : State) : Out := .next (s.asRequester (engineOf c) (·.collTimeout c))

end Sys2Proof.Machine
end

