-- ==== Sys2Proof/Machine/Gather.lean ====
section
/-! DEFINITION. Gathers, scatters, pools, copies and fills (R309-R314), SELK and NBT (R323, R324). -/

namespace Sys2Proof.Machine

def execGather (o : CCmd) (s : State) : Out := .next (gathIssue (.gather o) o s)
def execScatter (o : CCmd) (s : State) : Out := .next (gathIssue (.scatter o) o s)
def execPool (o : CCmd) (s : State) : Out := .next (gathIssue (.pool o) o s)
def execCopy (o : CCmd) (s : State) : Out := .next (gathIssue (.copy o) o s)
def execFill (o : CCmd) (s : State) : Out := .next (gathIssue (.fill o) o s)
def execSelk (o : CCmd) (s : State) : Out := .next (gathIssue (.selk o) o s)
def execNbt (o : CCmd) (s : State) : Out := .next (gathIssue (.nbt o) o s)

/-! ## GATHER (R310) -/

/-- Where place i of a GATHER lies: core, row, offset, and the command as it stands once it has claimed a slot. -/
structure Place' where
  core : CoreId
  row  : Fin 2048
  off  : Nat

/-- The ring of a GATHER with RING set. -/
def EngCmd.ringNo (m : EngCmd) : Fin 8 := (m.shape.ring.extractLsb' 0 3).toFin

/-- The place of an element in a ring: a slot is claimed with its first row, and waited for. -/
def State.ringPlace (s : State) (c : CoreId) (m : EngCmd) (row off : Nat) : State × EngCmd × Except Stop Place' :=
  let n := m.ringNo
  let r := (s.core c).ring n
  let row0 : Nat → Fin 2048 := fun slot => ⟨(r.slotRow slot + row % r.srows) % 2048, Nat.mod_lt _ (by decide)⟩
  if m.aux ≠ 0 then (s, m, .ok ⟨c, row0 (m.aux - 1), off⟩)
  else if !r.roomWhole then (s, m, .error (.wait .other))
  else
    let (slot, r') := r.claimSlot
    (s.onCore c fun k => (k.setRing n r').noteClaim n slot, { m with aux := slot + 1 }, .ok ⟨c, row0 slot, off⟩)

def State.gatherPlace (s : State) (c : CoreId) (m : EngCmd) (o : CCmd) (e : Nat) : State × EngCmd × Except Stop Place' :=
  let row := m.done * e / 256
  let off := m.done * e % 256
  let m := if off = 0 then { m with lay := none } else m
  if o.imm.getLsbD 0 then s.ringPlace c m row off
  else
    match s.engPad m m.c row with
    | .error x => (s, m, .error x)
    | .ok (k, r) => (s, m, .ok ⟨k, r, off⟩)

/-- A slot whose last row is written is full, with every count at its limit. -/
def Ring.fullSlot (r : Ring) (n : Nat) : Ring :=
  r.onSlot n fun x => { x with fill := r.ks, full := true,
                               kv := Vector.ofFn fun i => if i.val < r.ks then 24 else 0,
                               lv := Vector.ofFn fun i => if i.val < r.ks then r.lines else 0 }

/-- After an element: the slot it completes is full; the last row of the last element is zeroed to its end. -/
def State.gatherAfter (s : State) (c : CoreId) (m : EngCmd) (o : CCmd) (e : Nat) (p : Place') : State × EngCmd :=
  let n := m.b.toNat
  if o.imm.getLsbD 0 then
    let r := (s.core c).ring m.ringNo
    if (m.done + 1) * e % (256 * r.srows) = 0 then
      (s.onCore c fun k => k.setRing m.ringNo (r.fullSlot (m.aux - 1)), { m with aux := 0 })
    else (s, m)
  else if m.done + 1 = n then
    let t := s.padRow p.core p.row
    (s.fillPad m.pc p.core p.row t.tag t.mark (p.off + e) (256 - (p.off + e)) 0, m)
  else (s, m)

/-- Whether an element's layout agrees with its row, or with its ring. -/
def State.gatherStop (s : State) (c : CoreId) (m : EngCmd) (o : CCmd) (x : Elem) : Option Stop :=
  if o.imm.getLsbD 0 then (if ((s.core c).ring m.ringNo).fmt = x.lay then none else some (operandStop x.va))
  else
    match m.lay with
    | some l => if l = x.lay then none else some (.trap .layoutMismatch x.va)
    | none => none

def gatherElem (c : CoreId) (o : CCmd) (t : Table) (s : State) (m : EngCmd) : Ran :=
  match s.engIndex c m m.a m.done with
  | (s, .error e) => (s, m, some e)
  | (s, .ok x) =>
    match s.gatherPlace c m o t.bytes with
    | (s, m, .error e) => (s, m, some e)
    | (s, m, .ok p) =>
      if x = noIndex then
        let old := s.padRow p.core p.row
        let s := if p.off = 0 then s.fillPad m.pc p.core p.row 0 0 p.off t.bytes 0
          else s.fillPad m.pc p.core p.row old.tag old.mark p.off t.bytes 0
        let (s, m) := s.gatherAfter c m o t.bytes p
        (s, m, none)
      else
        match s.readElem c m t x with
        | (s, .error e) => (s, m, some e)
        | (s, .ok x) =>
          match s.gatherStop c m o x with
          | some e => (s, m, some e)
          | none =>
            let s := s.fillPad m.pc p.core p.row x.lay x.mark p.off t.bytes x.x
            let (s, m) := s.gatherAfter c { m with lay := some x.lay } o t.bytes p
            (s, m, none)

/-- GATHER: its operands are checked before it writes. -/
def State.runGather (s : State) (c : CoreId) (m : EngCmd) (o : CCmd) : Ran :=
  let n := m.b.toNat
  match tableOf m.shape with
  | none => (s, m, some operandStop)
  | some t =>
    if n = 0 ∨ 65535 < n then (s, m, some operandStop)
    else if o.imm.getLsbD 0 then
      let r := (s.core c).ring m.ringNo
      if 8 ≤ m.shape.ring.toNat ∨ r.count = 0 ∨ n * m.shape.e 0 % (8 * r.srows) ≠ 0 then (s, m, some operandStop)
      else runAll c (gatherElem c o t) n s m
    else
      match rowsStop m.c ((n * t.bytes + 255) / 256) with
      | some e => (s, m, some e)
      | none => runAll c (gatherElem c o t) n s m

/-! ## SCATTER (R311) -/

/-- Whether an element's row may go to a page. -/
def scatterOk (tag page : Layout) : Bool := if isEmbc page then tag == heldCode page else tag == page || tag == 0

def scatterElem (c : CoreId) (t : Table) (s : State) (m : EngCmd) : Ran :=
  match s.engIndex c m m.a m.done with
  | (s, .error e) => (s, m, some e)
  | (s, .ok x) =>
    if x = noIndex then (s, m, none)
    else
      let va := t.at x
      if t.bad va then (s, m, some (operandStop va))
      else
        match s.engRowAt m m.c (m.done * t.bytes / 256) with
        | (s, .error e) => (s, m, some e)
        | (s, .ok (tag, _, d)) =>
          match s.reachVa c m.who m.sup ⟨false, true, false⟩ va with
          | (s, .error e) => (s, m, some e)
          | (s, .ok (p, pa)) =>
            if !scatterOk tag (pteCode p) then (s, m, some (.trap .layoutMismatch va))
            else
              match s.writeUnder m p pa va t.bytes ((d.toNat >>> (8 * (m.done * t.bytes % 256))) % 2 ^ (8 * t.bytes)) with
              | (s, .error e) => (s, m, some e)
              | (s, .ok _) => (s, m, none)

def State.runScatter (s : State) (c : CoreId) (m : EngCmd) : Ran :=
  let n := m.b.toNat
  match tableOf m.shape with
  | none => (s, m, some operandStop)
  | some t =>
    if n = 0 ∨ 65535 < n then (s, m, some operandStop)
    else
      match rowsStop m.c ((n * t.bytes + 255) / 256) with
      | some e => (s, m, some e)
      | none => runAll c (scatterElem c t) n s m

/-! ## POOL (R312) -/

/-- Bits and value of a lane of a source layout. -/
def poolSource (lay : Layout) : Option (Nat × (Nat → FV)) :=
  if lay = 0x01 then some (8, fun x => intF (sval 8 x))
  else
    match codeFlt lay with
    | some f => some (f.width, decodeF f)
    | none => none

/-- The output format of a code. -/
def poolOut (code : Layout) : Option Flt :=
  match code.toNat with
  | 0x00 | 0x0C => some .fp32
  | 0x0B => some .bf16
  | 0x0A => some .fp16
  | _ => none

def fltCode : Flt → Layout
  | .fp32 => 0x0C
  | .bf16 => 0x0B
  | .fp16 => 0x0A
  | .e5m2 => 0x09
  | .e4m3 => 0x08
  | .e2m1 => 0x0D

/-- RoundNE(acc + w * x, FP32), acc first for NaNs (R42). -/
def poolStep (acc : Nat) (w x : FV) : Nat :=
  let a := decodeF .fp32 acc
  roundF .fp32 false false .gather (match firstNan [a, w, x] with
    | some n => .nan n
    | none => addF .gather (mulF .gather w x) a)

/-- What a POOL works with: table, source layout and lanes, output, weights. -/
structure PoolOp where
  t   : Table
  lay : Layout
  w   : Nat
  val : Nat → FV
  out : Flt
  v   : Nat
  nr  : Nat

/-- List position i summed into the accumulators. -/
def State.poolIndex (s : State) (c : CoreId) (m : EngCmd) (p : PoolOp) (i : Nat) (acc : List Nat) : State × Except Stop (List Nat) :=
    match s.engIndex c m m.a i with
    | (s, .error e) => (s, .error e)
    | (s, .ok x) =>
      if x = noIndex then (s, .ok acc)
      else
        let wt : State × Except Stop FV :=
          if m.shape[5] = 0 then (s, .ok (powF 0))
          else
            let va := m.shape[5] + BitVec.ofNat 64 (4 * i)
            if va.extractLsb' 0 2 ≠ 0 then (s, .error (operandStop va))
            else
              match s.engRead c m va 4 with
              | (s, .error e) => (s, .error e)
              | (s, .ok g) => if g.page ≠ 0x0C then (s, .error (.trap .layoutMismatch va)) else (s, .ok (decodeF .fp32 g.x))
        match wt with
        | (s, .error e) => (s, .error e)
        | (s, .ok w) =>
          match s.readElem c m p.t x with
          | (s, .error e) => (s, .error e)
          | (s, .ok y) =>
            if y.lay ≠ p.lay then (s, .error (.trap .layoutMismatch y.va))
            else (s, .ok (acc.zipIdx.map fun a => poolStep a.1 w (p.val (fieldAt y.x (p.w * a.2) p.w))))

/-- The accumulators of the bag at hand, +0 at its start. -/
def PoolAt.sums (a : PoolAt) (v : Nat) : List Nat := if a.acc.isEmpty then List.replicate v 0 else a.acc

/-- The list positions of the bag at hand from `lo` up to `hi`, an index being an element: each summed counts as done (R308). -/
def poolBag (c : CoreId) (p : PoolOp) (lo hi : Nat) : Nat → State → EngCmd → Ran
  | 0, s, m => (s, m, none)
  | fuel + 1, s, m =>
    if hi ≤ lo + m.pool.n then (s, { m with pool := { m.pool with full := true, acc := m.pool.sums p.v } }, none)
    else
      match s.poolIndex c m p (lo + m.pool.n) (m.pool.sums p.v) with
      | (s, .error e) => (s, m, some e)
      | (s, .ok acc) =>
        poolBag c p lo hi fuel s { m with done := m.done + 1, pool := { m.pool with n := m.pool.n + 1, acc := acc } }

/-- The rows of the bag at hand written. -/
def State.poolRows (s : State) (m : EngCmd) (p : PoolOp) (x : Nat) : Nat → Nat → State × Except Stop Unit
  | _, 0 => (s, .ok ())
  | j, n + 1 =>
    match s.engPad m m.c (p.nr * m.pool.bag + j) with
    | .error e => (s, .error e)
    | .ok (c, r) => (s.writePad c r (fltCode p.out) 0 (BitVec.ofNat 2048 (x >>> (2048 * j)))).poolRows m p x (j + 1) n

/-- The sums of a bag in the output format. -/
def poolBits (p : PoolOp) (acc : List Nat) : Nat :=
  acc.zipIdx.foldl (fun x a => x + roundF p.out false false .gather (decodeF .fp32 a.1) * 2 ^ (p.out.width * a.2)) 0

/-- The bag at hand: its indices summed, then its rows written. -/
def poolElem (c : CoreId) (p : PoolOp) (s : State) (m : EngCmd) : Ran :=
  let off := m.shape[3]
  match s.engIndex c m off m.pool.bag with
  | (s, .error e) => (s, m, some e)
  | (s, .ok lo) =>
    match s.engIndex c m off (m.pool.bag + 1) with
    | (s, .error e) => (s, m, some e)
    | (s, .ok hi) =>
      if hi < lo then (s, m, some (operandStop (off + BitVec.ofNat 64 (4 * (m.pool.bag + 1)))))
      else
        let summed : Ran := if m.pool.full then (s, m, none) else poolBag c p lo hi (hi - lo + 1) s m
        match summed with
        | (s, m, some e) => (s, m, some e)
        | (s, m, none) =>
          match s.poolRows m p (poolBits p m.pool.acc) 0 p.nr with
          | (s, .error e) => (s, m, some e)
          | (s, .ok _) => (s, { m with pool := ⟨m.pool.bag + 1, 0, false, []⟩ }, none)

/-- The bags up to n, in order. -/
def poolBags (c : CoreId) (p : PoolOp) (n : Nat) : Nat → State → EngCmd → Ran
  | 0, s, m => (s, m, none)
  | fuel + 1, s, m =>
    if n ≤ m.pool.bag then (s, m, none)
    else if !((s.core c).gath.cmds.any fun x => x.ctx == m.ctx) then (s, m, some .gone)
    else
      match poolElem c p s m with
      | (s, m, some e) => (s, m, some e)
      | (s, m, none) => poolBags c p n fuel s m

/-- POOL: the source layout is that of the table's first page (log 18), which every bag reads. -/
def State.runPool (s : State) (c : CoreId) (m : EngCmd) : Ran :=
  let n := m.b.toNat
  match tableOf m.shape with
  | none => (s, m, some operandStop)
  | some t =>
    if n = 0 ∨ 4096 < n then (s, m, some operandStop)
    else if n ≤ m.pool.bag then (s, m, none)
    else
      match poolOut m.shape.code with
      | none => (s, m, some (.trap .reservedOperand 0))
      | some out =>
        match s.reachVa c m.who m.sup ⟨true, false, false⟩ t.base with
        | (s, .error e) => (s, m, some e)
        | (s, .ok (pte, _)) =>
          let lay := heldCode (pteCode pte)
          match poolSource lay with
          | none => (s, m, some (.trap .conversionUnavailable t.base))
          | some (w, val) =>
            let v := 8 * t.bytes / w
            let nr := (v * out.width / 8 + 255) / 256
            match rowsStop m.c (nr * n) with
            | some e => (s, m, some e)
            | none => poolBags c ⟨t, lay, w, val, out, v, nr⟩ n (n - m.pool.bag) s m

/-! ## COPY, FILL (R313, R314) -/

/-- What a sector of a COPY's source gives: its layout before any expansion, slot mark, bits. -/
structure CopySec where
  lay  : Layout
  mark : BitVec 2
  x    : Nat

/-- A sector of memory; those of a code page refuse every request but a fetch (R219). -/
def State.copyMem (s : State) (c : CoreId) (m : EngCmd) (va : Word) : State × Except Stop CopySec :=
  match s.reachVa c m.who m.sup ⟨true, false, false⟩ va with
  | (s, .error e) => (s, .error e)
  | (s, .ok (p, pa)) =>
    let page := pteCode p
    match s.engRead c m va 32 with
    | (s, .error e) => (s, .error e)
    | (s, .ok g) => (s, .ok ⟨page, s.rowMark page pa, g.x⟩)

/-- Sector i of the source. -/
def State.copySource (s : State) (c : CoreId) (m : EngCmd) (rows : Bool) (i : Nat) : State × Except Stop CopySec :=
  if rows then
    match s.engRowAt m m.a (i / 8) with
    | (s, .error e) => (s, .error e)
    | (s, .ok (tag, mark, d)) => (s, .ok ⟨tag, mark, (rowSector d (i % 8)).toNat⟩)
  else s.copyMem c m (m.a + BitVec.ofNat 64 (32 * i))

/-- Whether a layout may go to a page without CODE. -/
def copyPair (src dst : Layout) : Bool :=
  if src = 0 then dst != 0x17 && dst != 0x18
  else src == dst || dst == 0 || (isEmbc src && dst == heldCode src) || (isEmbc dst && src == heldCode dst)

/-- A sector of a range in rows takes its place with its row's tag. -/
def State.putSector (s : State) (m : EngCmd) (a : Word) (i : Nat) (lay : Layout) (mark : BitVec 2) (x : Nat) : Ran :=
  let m := if i % 8 = 0 then { m with lay := none } else m
  match s.engPad m a (i / 8) with
  | .error e => (s, m, some e)
  | .ok (c, r) =>
    if m.lay.any fun l => l != lay then (s, m, some (.trap .layoutMismatch (engAddr c r)))
    else (s.fillPad m.pc c r lay mark (32 * (i % 8)) 32 x, { m with lay := some lay }, none)

/-- Sector `done` of a COPY on the GATHER path. -/
def copyElem (c : CoreId) (o : CCmd) (s : State) (m : EngCmd) : Ran :=
  let i := m.done
  match s.copySource c m (o.imm.getLsbD 0) i with
  | (s, .error e) => (s, m, some e)
  | (s, .ok x) =>
    if o.imm.getLsbD 1 then s.putSector m m.b i (heldCode x.lay) x.mark x.x
    else
      let va := m.b + BitVec.ofNat 64 (32 * i)
      match s.reachVa c m.who m.sup ⟨false, true, false⟩ va with
      | (s, .error e) => (s, m, some e)
      | (s, .ok (p, pa)) =>
        if !copyPair x.lay (pteCode p) then (s, m, some (.trap .layoutMismatch va))
        else
          match s.writeUnder m p pa va 32 x.x with
          | (s, .error e) => (s, m, some e)
          | (s, .ok _) => (s, m, none)

/-- What stops a fetch, as a command's stop. -/
def FetchStop.stop (va : Word) : FetchStop → Stop
  | .trap c => .trap c va
  | .violation k => .violation k va
  | .gone => .gone
  | .wait => .wait .other

/-- n sectors of a code line's source from sector i on. -/
def State.codeSource (s : State) (c : CoreId) (m : EngCmd) (rows : Bool) (i : Nat) : Nat → State × Except Stop Nat
  | 0 => (s, .ok 0)
  | n + 1 =>
    match s.copySource c m rows i with
    | (s, .error e) => (s, .error e)
    | (s, .ok x) =>
      if x.lay ≠ 0 ∧ x.lay ≠ 0x17 then (s, .error (.trap .layoutMismatch (m.a + BitVec.ofNat 64 (32 * i))))
      else
        match s.codeSource c m rows (i + 1) n with
        | (s, .error e) => (s, .error e)
        | (s, .ok y) => (s, .ok (x.x + y * 2 ^ 256))

/-- A line of a COPY on the CODE path, written with its first sector (R227). -/
def codeElem (c : CoreId) (o : CCmd) (s : State) (m : EngCmd) : Ran :=
  let i := m.done
  if i % 4 ≠ 0 then (s, m, none)
  else
    let va := m.b + BitVec.ofNat 64 (32 * i)
    match s.codeFrame (clusterOf c) m.who m.sup va with
    | (s, .error e) => (s, m, some (e.stop va))
    | (s, .ok f) =>
      match s.codeSource c m (o.imm.getLsbD 0) i 4 with
      | (s, .error e) => (s, m, some e)
      | (s, .ok x) =>
        match s.writeCode m.who (f * 65536 + (va.extractLsb' 0 16).toNat) (BitVec.ofNat 1024 x) with
        | (s, .done) => (s, m, none)
        | (s, .refused) => (s, m, some (.trap .layoutMismatch va))
        | (s, .denied) => (s, m, some (.violation .foreignPage va))

/-- What is wrong with an end of a COPY or FILL: a range of rows, or of sectors. -/
def endStop (a : Word) (len : Nat) (rows : Bool) (unit : Nat) : Option Stop :=
  if rows then (if len % 256 ≠ 0 then some operandStop else rowsStop a (len / 256))
  else if a.toNat % unit ≠ 0 ∨ len % unit ≠ 0 then some (operandStop a)
  else none

def State.runCopy (s : State) (c : CoreId) (m : EngCmd) (o : CCmd) : Ran :=
  let len := m.c.toNat
  let code := o.imm.getLsbD 2
  if len < 32 ∨ 2 ^ 32 < len then (s, m, some operandStop)
  else
    match endStop m.a len (o.imm.getLsbD 0) 32 with
    | some e => (s, m, some e)
    | none =>
      match endStop m.b len (o.imm.getLsbD 1) (if code then 128 else 32) with
      | some e => (s, m, some e)
      | none => runAll c (if code then codeElem c o else copyElem c o) (len / 32) s m

/-- Sector `done` of a FILL. -/
def fillElem (c : CoreId) (o : CCmd) (s : State) (m : EngCmd) : Ran :=
  let x := m.a.toNat * (1 + 2 ^ 64 + 2 ^ 128 + 2 ^ 192)
  if o.imm.getLsbD 1 then s.putSector m m.b m.done 0 0 x
  else
    let va := m.b + BitVec.ofNat 64 (32 * m.done)
    match s.reachVa c m.who m.sup ⟨false, true, false⟩ va with
    | (s, .error e) => (s, m, some e)
    | (s, .ok (p, pa)) =>
      match s.writeUnder m p pa va 32 x with
      | (s, .error e) => (s, m, some e)
      | (s, .ok _) => (s, m, none)

def State.runFill (s : State) (c : CoreId) (m : EngCmd) (o : CCmd) : Ran :=
  let len := m.c.toNat
  if len < 32 ∨ 2 ^ 32 < len then (s, m, some operandStop)
  else
    match endStop m.b len (o.imm.getLsbD 1) 32 with
    | some e => (s, m, some e)
    | none => runAll c (fillElem c o) (len / 32) s m

/-! ## SELK (R51, R323) -/

/-- The order of counters: by value, -0 as +0, a NaN above all. -/
def counterLe (a b : Nat) : Bool :=
  let x := decodeF .fp32 a
  let y := decodeF .fp32 b
  match x.isNan, y.isNan with
  | true, true => true
  | true, false => false
  | false, true => true
  | false, false => cmpF x y != .gt

/-- A counter and its slot in their place; a tie goes behind the slots already there, which are lower. -/
def putCounter (e : Nat × Nat) : List (Nat × Nat) → List (Nat × Nat)
  | [] => [e]
  | f :: rest => if counterLe f.1 e.1 then f :: putCounter e rest else e :: f :: rest

/-- Counters of slots read in ascending order. -/
def State.readCounters (s : State) (c : CoreId) (m : EngCmd) : List Nat → State × Except Stop (List (Nat × Nat))
  | [] => (s, .ok [])
  | j :: rest =>
    let va := m.a + BitVec.ofNat 64 (4 * j)
    match s.engRead c m va 4 with
    | (s, .error e) => (s, .error e)
    | (s, .ok g) =>
      if g.page ≠ 0x19 then (s, .error (.trap .layoutMismatch va))
      else
        match s.readCounters c m rest with
        | (s, .error e) => (s, .error e)
        | (s, .ok l) => (s, .ok ((g.x, j) :: l))

/-- The slots to evict: the lowest counters first. -/
def selkPick (counters : List (Nat × Nat)) (n : Nat) : List Nat :=
  ((counters.foldl (fun l e => putCounter e l) []).take n).map (·.2)

def State.runSelk (s : State) (c : CoreId) (m : EngCmd) (o : CCmd) : Ran :=
  let page := rowOf m.b
  let prot := (o.imm.extractLsb' 0 8).toNat
  if 1 ≤ m.done then (s, m, none)
  else if 255 < m.c.toNat ∨ m.a.extractLsb' 0 2 ≠ 0 then (s, m, some operandStop)
  else
    match s.engRead c m page 256 with
    | (s, .error e) => (s, m, some e)
    | (s, .ok g) =>
      if g.page ≠ 0x1A then (s, m, some (.trap .layoutMismatch page))
      else if kvBad g.x then (s, m, some (.trap .badBlockHeader page))
      else
        let used := fieldAt g.x 288 16
        let live := (List.range 255).filter fun j => kvLive g.x j
        match s.readCounters c m (live.filter fun j => decide (j < used - prot)) with
        | (s, .error e) => (s, m, some e)
        | (s, .ok cand) =>
          let gone := selkPick cand (live.length - m.c.toNat)
          let bits := gone.foldl (fun x j => x - 2 ^ j) (g.x % 2 ^ 256)
          let m := { m with reply := some (BitVec.ofNat 64 (gone.length + (live.length - gone.length) * 2 ^ 8)) }
          if gone.isEmpty then (s, m, none)
          else
            match s.reachVa c m.who m.sup ⟨false, true, false⟩ page with
            | (s, .error e) => (s, m, some e)
            | (s, .ok (p, pa)) =>
              match s.writeUnder m p pa page 32 bits with
              | (s, .error e) => (s, m, some e)
              | (s, .ok _) => (s, { m with done := 1 }, none)

/-! ## NBT (R324) -/

/-- NBT replies the gtb of the clk in which it completes. -/
def State.runNbt (s : State) (m : EngCmd) (o : CCmd) : Ran :=
  (s, if o.imm.getLsbD 0 then { m with reply := some s.gtb } else m, none)

end Sys2Proof.Machine
end

