-- ==== Sys2Proof/Machine/Engines.lean ====
section
/-! DEFINITION. The gather engine's queue at work (R303, R304): a command starts, a command completes; what the supervisor does to
a halted queue (R308). -/

namespace Sys2Proof.Machine

/-! ## ENGINE_COMMAND_START (R303) -/

/-- A command runs as far as it comes. An atomic applies its elements one at a time, at ATOMIC_APPLY. -/
def State.runCommand (s : State) (c : CoreId) (m : EngCmd) : State :=
  match m.op with
  | .gather o => State.finishRun c (s.runGather c m o)
  | .scatter _ => State.finishRun c (s.runScatter c m)
  | .pool _ => State.finishRun c (s.runPool c m)
  | .copy o => State.finishRun c (s.runCopy c m o)
  | .fill o => State.finishRun c (s.runFill c m o)
  | .selk o => State.finishRun c (s.runSelk c m o)
  | .nbt o => State.finishRun c (s.runNbt m o)
  | .coll o => State.finishRun c (s.runColl c m o)
  | _ => if m.listed && m.count == 0 then s.haltCmd c m operandStop else s.putCmd c m

/-- ENGINE_COMMAND_START: the first command that has not ended starts, or goes on where it waited or was resumed. A command held by
its time holds those behind it, as a reply does that finds rq full, and one that the checker refuses does not issue. -/
def State.engineStart (s : State) (c : CoreId) : State :=
  let e := (s.core c).gath
  match e.halted, e.frozen, e.cur with
  | none, none, some m =>
    if (s.core c).gathHeld then s
    else if m.begun then s.runCommand c m
    else if !s.timeFor m || s.mismatch m then s
    else s.runCommand c { m with begun := true, since := s.gtbq / 189 }
  | _, _, _ => s

def execEngineCommandStart (c : CoreId) (s : State) : Out := .next (s.asRequester (engineOf c) (·.engineStart c))

/-! ## ENGINE_COMMAND_COMPLETE (R304) -/

/-- The reply that a command owes is pushed: where its one element was skipped over (R360), its value is open (log 6). -/
def State.payReply (s : State) (c : CoreId) (m : EngCmd) : State :=
  if !m.owes then s
  else
    match m.reply with
    | some x => s.onCore c fun k => k.reply m.f.tag x
    | none =>
      let (n, s) := s.free
      s.onCore c fun k => k.reply m.f.tag ((Config.freeValue n).setWidth 64)

/-- A COPY on the CODE path that completes: CSWAPs issued after it wait for one less (R246). -/
def Core.copyDone (k : Core) (m : EngCmd) : Core :=
  match m.op with
  | .copy o =>
    if o.imm.getLsbD 2 then
      { k with code := { k.code with cmds := k.code.cmds.map fun x => match x.op with
        | .cswap _ => { x with aux := x.aux - 1 }
        | _ => x } }
    else k
  | _ => k

/-- The head of the gather queue completes: its reply is pushed once rq has room, and it arrives on its hitch. -/
def State.engineComplete (s : State) (c : CoreId) : State :=
  match (s.core c).gath.cmds with
  | [] => s
  | m :: _ =>
    if !m.ended || (s.core c).gath.heldUp || (m.owes && !(s.core c).rqRoom) then s
    else
      let s := s.onCore c fun k => { k.copyDone m with gath := k.gath.pop }
      (s.payReply c m).arriveCmd c m

def execEngineCommandComplete (c : CoreId) (s : State) : Out := .next (s.engineComplete c)

/-! ## The halted queue (R308) -/

/-- Commands at the head that have ended complete, as far as rq has room. -/
def State.completeAll (s : State) (c : CoreId) : Nat → State
  | 0 => s
  | n + 1 => (s.engineComplete c).completeAll c n

/-- A dropped command: it owes all ones; a slot that a GATHER partly filled returns to empty. -/
def EngCmd.drop (m : EngCmd) : EngCmd := { m with ended := true, aux := 0, reply := some (BitVec.allOnes 64) }

def Core.dropSlots (k : Core) (m : EngCmd) : Core :=
  match m.op with
  | .gather _ => if m.aux = 0 then k else k.setRing m.ringNo ((k.ring m.ringNo).dropSlot (m.aux - 1))
  | _ => k

/-- The queue is halted no more. -/
def Core.efResume (k : Core) : Core := { k with gath := { k.gath with halted := none } }

/-- efctl 01: the head goes on from efdone. -/
def State.efGoOn (s : State) (c : CoreId) : State :=
  s.onCore c fun k => { k with gath := { k.gath with halted := none }.onCur fun m => m.waitsFrom s.gtb.toNat }

/-- efctl 10: the head is dropped. -/
def State.efDropHead (s : State) (c : CoreId) : State :=
  match (s.core c).gath.cur with
  | none => s.onCore c Core.efResume
  | some m =>
    let s := s.onCore c fun k =>
      let k := (k.dropSlots m).efResume
      { k with gath := k.gath.onCur EngCmd.drop }
    s.completeAll c 32

/-- efctl 11: every queued command is dropped. -/
def State.efDropAll (s : State) (c : CoreId) : State :=
  let s := s.onCore c fun k =>
    let k := (k.gath.cmds.foldl Core.dropSlots k).efResume
    { k with gath := { k.gath with cmds := k.gath.cmds.map fun m => if m.ended then m else m.drop } }
  s.completeAll c 32

end Sys2Proof.Machine
end

