-- ==== Sys2Proof/Machine/Stavask.lean ====
section
/-! DEFINITION. The Stavask algorithm (R231-R239): the generation block, the weights of a row band, the steps omit, factor, share and
emit on each slab, and the packing of what is emitted into code pages. -/

namespace Sys2Proof.Machine

/-! ## The generation block (R231) -/

structure GenBlock where
  wva    : Word
  layout : Layout
  link   : Nat
  m      : Nat
  k      : Nat
  band   : Nat
  sva    : Word

/-- Group size of an asymmetric layout. -/
def groupOf (c : Layout) : Option Nat :=
  match c.toNat with
  | 0x03 | 0x06 => some 32
  | 0x04 | 0x07 => some 64
  | 0x05 => some 128
  | _ => none

/-- The block of 64 bytes; none for a bad one. -/
def genBlock (x : Nat) (dest : Word) : Option GenBlock :=
  let b : GenBlock := ⟨BitVec.ofNat 64 x, BitVec.ofNat 6 (x >>> 64), fieldAt x 72 8, fieldAt x 80 16, fieldAt x 96 16,
    fieldAt x 112 16, BitVec.ofNat 64 (x >>> 128)⟩
  let lay := fieldAt x 64 8
  if lay < 1 ∨ 7 < lay ∨ 31 < b.link ∨ b.m = 0 ∨ b.k = 0 ∨ b.m ≤ 32 * b.band ∨ ((groupOf b.layout).isSome ∧ b.sva ≠ 0) ∨
    x >>> 192 ≠ 0 ∨ dest.extractLsb' 0 16 ≠ 0 then none
  else some b

/-- Rows of the band. -/
def GenBlock.rows (b : GenBlock) : Nat := min 32 (b.m - 32 * b.band)

/-- Groups of a row (R28). -/
def GenBlock.groups (b : GenBlock) (g : Nat) : Nat := (b.k + g - 1) / g

/-- Position among its page's elements of column k of row r of the band: rows of an asymmetric layout begin with a new group. -/
def GenBlock.index (b : GenBlock) (r k : Nat) : Nat :=
  match groupOf b.layout with
  | some g => (32 * b.band + r) * b.groups g * g + k
  | none => (32 * b.band + r) * b.k + k

/-- First byte of the weight tensor that the band needs, and the byte after the last. -/
def GenBlock.span (b : GenBlock) : Nat × Nat :=
  let lo := b.index 0 0
  let hi := b.index (b.rows - 1) (b.k - 1)
  match groupOf b.layout with
  | some _ => (elemPos b.layout 0 lo / 2048 * 256, (elemPos b.layout 0 hi / 2048 + 1) * 256)
  | none =>
    let w := (unitOf b.layout 0).2
    (lo * w / 8, (hi * w + w + 7) / 8)

/-- The weights of a band: its bytes from `lo` on, and the row scales of a symmetric layout. -/
structure GenData where
  b   : GenBlock
  lo  : Nat
  x   : Nat
  sc  : Nat

/-- w of R232 at a row and column. -/
def GenData.weight (d : GenData) (r k : Nat) : Int :=
  let lay := d.b.layout
  let i := d.b.index r k
  let w := (unitOf lay 0).2
  let q := fieldAt d.x (elemPos lay 0 i - 8 * d.lo) w
  match groupOf lay with
  | some _ => (q : Int) - (fieldAt d.x ((metaPos lay i).getD 0 + 16 - 8 * d.lo) w : Int)
  | none => sval w q

/-- The FP16 scale of a row in the slab that begins at a column. -/
def GenData.scale (d : GenData) (r k : Nat) : Nat :=
  match groupOf d.b.layout with
  | some _ => fieldAt d.x ((metaPos d.b.layout (d.b.index r k)).getD 0 - 8 * d.lo) 16
  | none => fieldAt d.sc (16 * r) 16

/-! ## One slab (R233-R236) -/

/-- What is emitted: a native word, or a term slot. -/
inductive GenItem where
  | word (w : Word)
  | term (t : Sys2Proof.Slot)
  deriving DecidableEq, Repr

/-- A row of a slab: its remaining terms by ascending column, and the temporaries it takes. -/
structure SlabRow where
  terms : List (Nat × Int)
  temps : List Nat

/-- A pair of terms: columns and weights. -/
structure TermPair where
  c1 : Nat
  w1 : Int
  c2 : Nat
  w2 : Int
  deriving DecidableEq, Repr

/-- The order in which ties between pairs break: c1, c2, w1, w2. -/
def TermPair.lt (p q : TermPair) : Bool :=
  decide (p.c1 < q.c1) || (p.c1 == q.c1 && (decide (p.c2 < q.c2) || (p.c2 == q.c2 &&
    (decide (p.w1 < q.w1) || (p.w1 == q.w1 && decide (p.w2 < q.w2))))))

/-- The pairs of a row. -/
def pairsOf : List (Nat × Int) → List TermPair
  | [] => []
  | (c, w) :: rest => rest.map (fun t => ⟨c, w, t.1, t.2⟩) ++ pairsOf rest

/-- The greatest count among runs of equal pairs in a sorted list, the first of equals. -/
def bestRun : List TermPair → Option (TermPair × Nat) → Option (TermPair × Nat) → Option (TermPair × Nat)
  | [], cur, best =>
    match cur, best with
    | some c, some b => if b.2 < c.2 then some c else some b
    | some c, none => some c
    | none, b => b
  | p :: rest, cur, best =>
    match cur with
    | none => bestRun rest (some (p, 1)) best
    | some (q, n) =>
      if q = p then bestRun rest (some (q, n + 1)) best
      else bestRun rest (some (p, 1)) (match best with
        | some b => if b.2 < n then some (q, n) else some b
        | none => some (q, n))

/-- The pair of greatest count in a slab. -/
def bestPair (rows : List SlabRow) : Option (TermPair × Nat) :=
  bestRun ((rows.flatMap fun r => pairsOf r.terms).mergeSort fun p q => !q.lt p) none none

/-- A row gives up both terms of a pair for a temporary. -/
def SlabRow.take (r : SlabRow) (p : TermPair) (t : Nat) : SlabRow :=
  if r.terms.contains (p.c1, p.w1) && r.terms.contains (p.c2, p.w2) then
    ⟨r.terms.filter fun x => x != (p.c1, p.w1) && x != (p.c2, p.w2), r.temps ++ [t]⟩
  else r

/-- Step 2: at most n temporaries, from a63 down. -/
def factor : Nat → Nat → List SlabRow → List (Nat × TermPair) × List SlabRow
  | 0, _, rows => ([], rows)
  | n + 1, t, rows =>
    match bestPair rows with
    | none => ([], rows)
    | some (p, k) =>
      if k < 2 then ([], rows)
      else
        let (ts, rows) := factor n (t - 1) (rows.map fun r => r.take p t)
        ((t, p) :: ts, rows)

def accReg (n : Nat) : Fin 64 := ⟨n % 64, Nat.mod_lt _ (by decide)⟩
/-- The term index of a vector register, and of an accumulator. -/
def srcV (n : Nat) : Fin 128 := ⟨n % 64, by omega⟩
def srcA (n : Nat) : Fin 128 := ⟨64 + n % 64, by omega⟩

/-- TMACs of a weight: outside -128 ... 127 it is taken in greedy parts. -/
def tmacs (d : Nat) (src : Fin 128) : Nat → Int → List GenItem
  | 0, _ => []
  | n + 1, w =>
    let one : Int → GenItem := fun x => .term (.tmac (accReg d) src (BitVec.ofInt 8 x))
    if 127 < w then one 127 :: tmacs d src n (w - 127)
    else if w < -128 then one (-128) :: tmacs d src n (w + 128)
    else [one w]

/-- A weight's TMACs: no weight takes more than three parts. -/
def tmac (d : Nat) (src : Fin 128) (w : Int) : List GenItem := tmacs d src 4 w

/-- The weights of a row's terms, each once, ascending. -/
def classesOf (terms : List (Nat × Int)) : List Int := ((terms.map (·.2)).eraseDups).mergeSort (· ≤ ·)

/-- Step 3 and its emission on partial P: the classes of a row, with the rotation of class temporaries. -/
def shareRow (p : Nat) (terms : List (Nat × Int)) : List Int → Nat → List GenItem × Nat
  | [], rot => ([], rot)
  | w :: rest, rot =>
    let cols := (terms.filter fun t => t.2 == w).map (·.1)
    let (here, rot) : List GenItem × Nat := match cols with
      | [] => ([], rot)
      | [c] => (tmac p (srcV c) w, rot)
      | c1 :: c2 :: more =>
        let t := 40 + rot % 8
        (.term (.tpair (accReg t) (srcV c1) (srcV c2)) :: more.map (fun c => .term (.tadd (accReg t) (srcV c))) ++
          tmac p (srcA t) w, rot + 1)
    let (then', rot) := shareRow p terms rest rot
    (here ++ then', rot)

/-- Step 4 for the rows from r on. -/
def emitRows (scale : Nat → Nat) : Nat → List SlabRow → Nat → List GenItem × Nat
  | _, [], rot => ([], rot)
  | r, x :: rest, rot =>
    let p := 32 + r % 8
    let (here, rot) : List GenItem × Nat :=
      if x.terms.isEmpty && x.temps.isEmpty then ([], rot)
      else
        let (cs, rot) := shareRow p x.terms (classesOf x.terms) rot
        (cs ++ x.temps.map (fun t => .term (.tadd (accReg p) (srcA t))) ++
          [.term (.tscl (accReg r) (accReg p) (BitVec.ofNat 16 (scale r)))], rot)
    let (more, rot) := emitRows scale (r + 1) rest rot
    (here ++ more, rot)

/-- The instructions of a slab: columns `lo` to `hi - 1` of the tile that begins at column `base`. -/
def slabItems (d : GenData) (base lo hi rot : Nat) : List GenItem × Nat :=
  let row : Nat → SlabRow := fun r =>
    ⟨(List.range (hi - lo)).filterMap fun i =>
      let w := d.weight r (base + lo + i)
      if w = 0 then none else some (lo + i, w), []⟩
  let (ts, rows) := factor 16 63 ((List.range d.b.rows).map row)
  let temps := ts.flatMap fun t =>
    GenItem.term (.tclr (accReg t.1)) :: (tmac t.1 (srcV t.2.c1) t.2.w1 ++ tmac t.1 (srcV t.2.c2) t.2.w2)
  let (main, rot) := emitRows (fun r => d.scale r (base + lo)) 0 rows rot
  (temps ++ main, rot)

/-! ## Tiles (R232) -/

/-- VMOV.I8 vj, q(j mod 8). -/
def tileMove (j : Nat) : GenItem :=
  .word (encode ⟨false, .vmov ⟨.v ⟨j % 64, Nat.mod_lt _ (by decide)⟩, .i8, 0, false, .q ⟨j % 8, Nat.mod_lt _ (by decide)⟩⟩⟩).1

/-- What a tile emits, cut after each slab. -/
def tileChunks (d : GenData) (t rot : Nat) : List (List GenItem) × Nat :=
  let n := min 64 (d.b.k - 64 * t)
  let moves := (List.range n).map tileMove
  let (first, rot) := slabItems d (64 * t) 0 (if groupOf d.b.layout = some 32 then min 32 n else n) rot
  if groupOf d.b.layout = some 32 ∧ 32 < n then
    let (second, rot) := slabItems d (64 * t) 32 n rot
    ([moves ++ first, second], rot)
  else ([moves ++ first], rot)

/-- All tiles from the t-th on. -/
def allChunks (d : GenData) : Nat → Nat → Nat → List (List GenItem)
  | 0, _, _ => []
  | n + 1, t, rot =>
    let (here, rot) := tileChunks d t rot
    here ++ allChunks d n (t + 1) rot

def chunksOf (d : GenData) : List (List GenItem) := allChunks d ((d.b.k + 63) / 64) 0 0

/-! ## Packing and pages (R237, R238) -/

/-- What has been packed: pages complete, and the words of the page at hand, last first; issue slots, bundles; the open bundle with
its slot number; the issue slot in which each accumulator was last written. -/
structure Packer where
  budget : Nat
  pages : List (List Word)
  words : List Word
  slots : Nat
  bundles : Nat
  opened : Option (List Sys2Proof.Slot)
  last : List (Fin 64 × Nat)

def Packer.new (budget : Nat) : Packer := ⟨budget, [], [], 0, 0, none, []⟩

def nopWord : Word := (encode ⟨false, .nop⟩).1
def splcWord : Word := (encode ⟨false, .splc⟩).1

/-- Position in the page, in words: the open bundle's two count. -/
def Packer.pos (p : Packer) : Nat := p.words.length + (if p.opened.isSome then 2 else 0)

def Packer.put (p : Packer) (w : Word) : Packer := { p with words := w :: p.words, slots := p.slots + 1 }

/-- The open bundle is closed, NOP slots filling it; the first of a page carries YP and TSM. -/
def Packer.close (p : Packer) : Packer :=
  match p.opened with
  | none => p
  | some ss =>
    let head := p.words.isEmpty
    let n := (ss.flatMap Sys2Proof.Slot.words).length
    let (w0, w1) := tbWords head head (ss ++ List.replicate (5 - n) .nop)
    { p with words := w1 :: w0 :: p.words, opened := none }

/-- The slot number of the open bundle. -/
def Packer.here (p : Packer) : Nat := p.slots - 1

def Packer.opens (p : Packer) : Packer := { p with opened := some [], slots := p.slots + 1, bundles := p.bundles + 1 }

/-- Words that fill a page up to 0xFFEF, then NOP and SPLC, and a new page; none where the budget is spent. -/
def Packer.turn (p : Packer) : Option Packer :=
  let fill := 0x1FFE - p.words.length
  let p := { p with words := splcWord :: nopWord :: (List.replicate fill nopWord ++ p.words), slots := p.slots + fill + 2 }
  if p.budget ≤ p.pages.length + 1 then none else some { p with pages := p.pages ++ [p.words.reverse], words := [] }

/-- Room for n words. -/
def Packer.room (p : Packer) (n : Nat) : Option Packer := if p.words.length + n ≤ 0x1FFE then some p else p.turn

/-- A bundle is open: aligned, on a page with room for it. Where it would start at an odd word, a native NOP goes before it and counts as an
issue slot (R57 asks for the alignment only; DESIGN CHOICE, log 95). -/
def Packer.ensure (p : Packer) : Option Packer :=
  if p.opened.isSome then some p
  else
    let p := if p.words.length % 2 = 1 then p.put nopWord else p
    (p.room 2).map Packer.opens

/-- A native word. -/
def Packer.native (p : Packer) (w : Word) : Option Packer :=
  (p.close.room 1).map fun p => (if p.words.isEmpty then p.opens.close else p).put w

/-- The accumulator that a slot reads through its from field, and those it writes. -/
def slotReads : Sys2Proof.Slot → Option (Fin 64)
  | .tmac _ src _ | .tadd _ src | .tset _ src | .tpair _ src _ =>
    if h : 64 ≤ src.val then some ⟨src.val - 64, by omega⟩ else none
  | .tscl _ p _ => some p
  | .nop | .tclr _ => none

def slotWrites : Sys2Proof.Slot → List (Fin 64)
  | .tmac d _ _ | .tadd d _ | .tset d _ | .tpair d _ _ | .tclr d => [d]
  | .tscl f p _ => [f, p]
  | .nop => []

/-- NOP bundles until the distance to an issue slot is 3. -/
def Packer.wait (p : Packer) (w : Nat) : Nat → Option Packer
  | 0 => some p
  | n + 1 =>
    match p.ensure with
    | none => none
    | some p => if p.here < w + 3 then p.close.wait w n else some p

/-- A term slot takes its place. -/
def Packer.term (p : Packer) (t : Sys2Proof.Slot) : Option Packer :=
  let w := match slotReads t with
    | some a => (p.last.find? fun e => e.1 == a).map (·.2)
    | none => none
  let near := match w with
    | some w => decide (p.here < w + 3)
    | none => false
  let used : Packer → Nat := fun p => match p.opened with
    | some ss => (ss.flatMap Sys2Proof.Slot.words).length
    | none => 0
  let p := if p.opened.isSome && (near || decide (5 < used p + t.words.length)) then p.close else p
  match p.wait (w.getD 0) (if w.isSome then 4 else 0) with
  | none => none
  | some p =>
    match p.ensure with
    | none => none
    | some p =>
      let ss := p.opened.getD []
      let p := { p with opened := some (ss ++ [t]),
                        last := (slotWrites t).map (fun a => (a, p.here)) ++ p.last.filter fun e => !(slotWrites t).contains e.1 }
      some (if 5 ≤ used p then p.close else p)

def Packer.item (p : Packer) : GenItem → Option Packer
  | .word w => p.native w
  | .term t => p.term t

def Packer.items (p : Packer) : List GenItem → Option Packer
  | [] => some p
  | i :: rest =>
    match p.item i with
    | none => none
    | some p => p.items rest

/-- The end of a band: SPLC, and RET where link names a register. -/
def Packer.finish (p : Packer) (link : Nat) : Packer :=
  let p := p.close
  let p := if p.words.isEmpty then p.opens.close else p
  let p := (if p.words.length % 2 = 1 then p.put nopWord else p).put splcWord
  let p := if link = 0 then p else p.put (encode ⟨false, .ret (.s ⟨link % 32, Nat.mod_lt _ (by decide)⟩)⟩).1
  { p with pages := p.pages ++ [p.words.reverse], words := [] }

/-- The chunks that fit the budget, and whether all did. -/
def Packer.chunks (p : Packer) : List (List GenItem) → Packer × Bool
  | [] => (p, true)
  | c :: rest =>
    match p.items c with
    | none => (p, false)
    | some q => q.chunks rest

/-- What CGEN generates: its pages, the bundles emitted, and status 0 or 1. -/
structure Generated where
  pages : List (List Word)
  bundles : Nat
  status : Nat

def generate (d : GenData) (budget : Nat) : Generated :=
  let (p, all) := (Packer.new budget).chunks (chunksOf d)
  let p := p.finish d.b.link
  ⟨p.pages, p.bundles, if all then 0 else 1⟩

/-- Line i of a page's words; zero beyond them. -/
def pageLine (ws : List Word) (i : Nat) : BitVec 1024 :=
  BitVec.ofNat 1024 ((List.range 16).foldl (fun x j => x + (ws.getD (16 * i + j) 0).toNat * 2 ^ (64 * j)) 0)

end Sys2Proof.Machine
end

