-- ==== Sys2Proof/Machine/CodeCmds.lean ====
section
/-! DEFINITION. The code command queue (R229): CGEN, CLOCK, CUNLK, CPREF, CSWAP (R230, R241-R246), and the fill of a code line that a
fetch misses (R222-R225). -/

namespace Sys2Proof.Machine

def codeIssue (i : Instr) (o : CCmd) (s : State) : State := issueCmd i o 8 (·.code) (fun e k => { k with code := e }) s

def execCgen (o : CCmd) (s : State) : Out := .next (codeIssue (.cgen o) o s)
def execClock (o : CCmd) (s : State) : Out := .next (codeIssue (.clock o) o s)
def execCunlk (o : CCmd) (s : State) : Out := .next (codeIssue (.cunlk o) o s)
def execCpref (o : CCmd) (s : State) : Out := .next (codeIssue (.cpref o) o s)

/-- Mode and SYNC level of a CSWAP. -/
def swapSplices (o : CCmd) : Bool := o.imm.getLsbD 0
def swapLevel (o : CCmd) : Nat := (o.imm.extractLsb' 1 3).toNat

/-- COPYs on the CODE path that wait in a core's gather queue. -/
def Core.codeCopies (k : Core) : Nat := (k.gath.cmds.filter fun m => match m.op with
  | .copy o => o.imm.getLsbD 2
  | _ => false).length

/-- CSWAP: its level is checked at issue (R246); `aux` counts the COPYs that it waits for. -/
def execCswap (o : CCmd) (s : State) : Out :=
  match s.here.strand with
  | none => .next (s.execTrap .reservedOperand)
  | some st =>
    match st.levelTrap (swapLevel o) with
    | some c => .next (s.execTrap c)
    | none =>
      let n := s.here.codeCopies
      let had := s.here.code.cmds.length
      let s := codeIssue (.cswap o) o s
      .next (s.mod fun k => { k with code := { k.code with
        cmds := k.code.cmds.zipIdx.map fun x => if x.2 < had then x.1 else { x.1 with aux := n } } })

/-! ## CGEN (R230) -/

/-- n bytes read across rows. -/
def State.readSpan (s : State) (c : CoreId) (who : Asker) (sup : Bool) (va : Word) : Nat → Nat → State × Except Stop Nat
  | _, 0 => (s, .ok 0)
  | n, fuel + 1 =>
    if n = 0 then (s, .ok 0)
    else
      let k := min n (256 - va.toNat % 256)
      match s.readAt c who sup va k with
      | (s, .error e) => (s, .error e)
      | (s, .ok g) =>
        match s.readSpan c who sup (va + BitVec.ofNat 64 k) (n - k) fuel with
        | (s, .error e) => (s, .error e)
        | (s, .ok y) => (s, .ok (g.x + y * 2 ^ (8 * k)))

def State.readAll (s : State) (c : CoreId) (m : EngCmd) (va : Word) (n : Nat) : State × Except Stop Nat :=
  s.readSpan c m.who m.sup va n (n / 256 + 2)

/-- Lines from the i-th on of a code page that CGEN writes, up to one that is refused. -/
def State.writePage (s : State) (c : CoreId) (m : EngCmd) (va : Word) (ws : List Word) : Nat → Nat → State × Except FetchStop Unit
  | _, 0 => (s, .ok ())
  | i, n + 1 =>
    match s.codeFrame (clusterOf c) m.who m.sup va with
    | (s, .error e) => (s, .error e)
    | (s, .ok f) =>
      match s.writeCode m.who (f * 65536 + 128 * i) (pageLine ws i) with
      | (s, .done) => s.writePage c m va ws (i + 1) n
      | (s, .refused) => (s, .error (.trap .layoutMismatch))
      | (s, .denied) => (s, .error (.violation .foreignPage))

/-- Pages written in order: how many, and whether all were. -/
def State.writePages (s : State) (c : CoreId) (m : EngCmd) : Word → List (List Word) → Nat → State × Nat × Bool
  | _, [], n => (s, n, true)
  | va, ws :: rest, n =>
    match s.writePage c m va ws 0 512 with
    | (s, .error _) => (s, n, false)
    | (s, .ok _) => s.writePages c m (va + 0x10000) rest (n + 1)

/-- The reply of CGEN. -/
def genReply (pages bundles status : Nat) : Word := BitVec.ofNat 64 (pages + bundles % 2 ^ 16 * 2 ^ 10 + status * 2 ^ 60)

/-- CGEN runs whole; its reply. Its sources, block, weights and scales, are all read before a page is written, so that status 2 always comes
with no page and no bundle; R230 and R240 leave open how reads and writes interleave (DESIGN CHOICE, log 95). -/
def State.runCgen (s : State) (c : CoreId) (m : EngCmd) (o : CCmd) : State × Word :=
  match s.readAll c m m.a 64 with
  | (s, .error _) => (s, genReply 0 0 2)
  | (s, .ok x) =>
    match genBlock x m.b with
    | none => (s, genReply 0 0 3)
    | some b =>
      let (lo, hi) := b.span
      match s.readAll c m (b.wva + BitVec.ofNat 64 lo) (hi - lo) with
      | (s, .error _) => (s, genReply 0 0 2)
      | (s, .ok w) =>
        let scales : State × Except Stop Nat :=
          if (groupOf b.layout).isSome then (s, .ok 0)
          else s.readAll c m (b.sva + BitVec.ofNat 64 (64 * b.band)) (2 * b.rows)
        match scales with
        | (s, .error _) => (s, genReply 0 0 2)
        | (s, .ok sc) =>
          let g := generate ⟨b, lo, w, sc⟩ o.imm.toNat
          let (s, n, all) := s.writePages c m m.b g.pages 0
          (s, genReply n g.bundles (if all then g.status else 4))

/-! ## Locks (R241-R244) -/

/-- The quota of the launch whose strand a core runs. -/
def Core.quota (k : Core) : Nat := (k.strand.map (·.lockq)).getD 0

/-- The reply of a CLOCK whose count is out of its limits: it reports a failure, but R241 says not how; any bits of its three fields
but none at all (R229, R241; log 84). -/
def State.badClock (s : State) : State × Word :=
  let (n, s) := s.free
  let x : Word := ((Config.freeValue n).setWidth 18).setWidth 64
  (s, if x = 0 then 1 else x)

/-- CLOCK: its reply. Where the count is out of its limits nothing is listed or locked. -/
def State.runClock (s : State) (c : CoreId) (m : EngCmd) : State × Word :=
  let n := m.b.toNat
  if n = 0 ∨ 1024 < n then s.badClock
  else
    match (List.finRange 16).find? fun i => !lockValid (s.core c).locks[i] with
    | none => (s, BitVec.ofNat 64 (n + 2 ^ 16))
    | some i =>
      let first := m.a &&& ~~~0x7F#64
      let e : Word := BitVec.ofNat 64 (2 ^ 63 + (n - 1) * 2 ^ 48) ||| (lineOf first).setWidth 64 <<< 7
      let s := s.onCore c fun k => { k with locks := k.locks.set i e }
      let (s, r) := s.lockRange c m.who m.sup (s.core c).quota first ⟨0, false⟩ n
      (s, BitVec.ofNat 64 (r.refused + bit r.notCode 17))

/-- Whether an entry of the lock list covers a line. -/
def lockCovers (x : Word) (line : BitVec 41) : Bool :=
  lockValid x && decide ((lineOf (lockVa x)).toNat ≤ line.toNat) && decide (line.toNat < (lineOf (lockVa x)).toNat + lockCount x)

/-- Lines of a context that entries taken from the list covered are unlocked, but for those that another covers. -/
def Core.unlockRest (k : Core) (ctx : Ctx) (gone : List Word) : Core :=
  { k with codeL1 := k.codeL1.map fun l =>
      if l.ctx == ctx && l.locked && gone.any (fun x => lockCovers x l.line) && !(k.locks.any fun x => lockCovers x l.line) then
        { l with locked := false } else l }

/-- CUNLK; a cause where its operand breaks its limits. -/
def State.runCunlk (s : State) (c : CoreId) (m : EngCmd) (o : CCmd) : State × Option Cause :=
  if o.imm.getLsbD 0 then
    if m.a ≠ 0 then (s, some .reservedOperand)
    else (s.onCore c fun k => Core.unlockRest { k with locks := .replicate 16 0 } m.ctx k.locks.toList, none)
  else
    match (List.finRange 16).find? fun i => lockValid (s.core c).locks[i] && lineOf (lockVa (s.core c).locks[i]) == lineOf m.a with
    | none => (s, none)
    | some i => (s.onCore c fun k => Core.unlockRest { k with locks := k.locks.set i 0 } m.ctx [k.locks[i]], none)

/-- n lines of CPREF. -/
def State.prefetch (s : State) (c : CoreId) (m : EngCmd) (l2 : Bool) (va : Word) : Nat → State
  | 0 => s
  | n + 1 =>
    let s :=
      if l2 then
        match s.lattPage c m.who m.sup va with
        | (s, .error _) => s
        | (s, .ok e) => (s.readCode c m.who e (va.extractLsb' 7 9).toNat).1
      else if ((s.core c).codeLine m.ctx va).isSome then s
      else (s.fillCode c m.who m.sup va).1
    s.prefetch c m l2 (va + 128) n

/-- CPREF; a cause where its count is out of its limits. -/
def State.runCpref (s : State) (c : CoreId) (m : EngCmd) (o : CCmd) : State × Option Cause :=
  let n := m.b.toNat
  if n = 0 ∨ 4096 < n then (s, some .reservedOperand)
  else (s.prefetch c m (o.imm.getLsbD 0) (m.a &&& ~~~0x7F#64) n, none)

/-! ## CSWAP (R246) -/

/-- What a CSWAP that runs comes to: queued for its barrier, failed, or gone with its context. -/
inductive SwapOut where
  | queued
  | gone
  | failed (reply : Option Word) (cause : Option Cause)

def State.runCswap (s : State) (c : CoreId) (m : EngCmd) (o : CCmd) : State × SwapOut :=
  let odd := (m.a ||| m.b).extractLsb' 0 16 ≠ 0
  let queue : State → State := fun s =>
    match (s.core c).strand with
    | some st => { s with swaps := s.swaps ++ [⟨c, st.gid, swapLevel o, swapSplices o, m.a, m.b, m.c, m⟩] }
    | none => s
  if swapSplices o then
    if odd then (s, .failed (some (BitVec.allOnes 64)) none) else (queue s, .queued)
  else
    let (s, x, y) := s.walkBoth m.ctx m.pc m.a m.b
    if x = .lost ∨ y = .lost then (s, .gone)
    else if x = .fault .layoutMismatch ∨ y = .fault .layoutMismatch then (s, .failed none (some .layoutMismatch))
    else
    match s.leafAt m.ctx m.a, s.leafAt m.ctx m.b with
    | .error .pageFault, _ => (s, .failed none (some .pageFault))
    | _, .error .pageFault => (s, .failed none (some .pageFault))
    | .ok (_, p), .ok (_, q) =>
      if odd || !sameButFrame p q then (s, .failed none (some .badPageEntry)) else (queue s, .queued)
    | _, _ => (s, .failed none (some .badPageEntry))

/-- A page of a command's lines waits for a die (R413). -/
def State.linesWait (s : State) (c : CoreId) (m : EngCmd) : Bool :=
  (List.range ((m.a.toNat % 65536 / 128 + m.b.toNat - 1) / 512 + 1)).any fun i =>
    match (s.lattPage c m.who m.sup (m.a + BitVec.ofNat 64 (0x10000 * i))).2 with
    | .error .wait => true
    | _ => false

/-- A command whose tables or pages lie on a die that is not yet in service waits with its requests (R413): CLOCK and CPREF by the pages
of their lines, CSWAP by the tables of its two. -/
def State.codeWaits (s : State) (c : CoreId) (m : EngCmd) : Bool :=
  let n := m.b.toNat
  let tabled : Word → Bool := fun va =>
    match (s.walk m.who va).2 with
    | .wait => true
    | _ => false
  match m.op with
  | .clock _ => decide (1 ≤ n) && decide (n ≤ 1024) && ((s.core c).locks.any fun x => !lockValid x) && s.linesWait c m
  | .cpref _ => decide (1 ≤ n) && decide (n ≤ 4096) && s.linesWait c m
  | .cswap o => !swapSplices o && (tabled m.a || tabled m.b)
  | _ => false

/-! ## CODE_COMMAND_EXECUTE -/

/-- Whether a command of the code queue replies when it completes there. -/
def EngCmd.codeOwes (m : EngCmd) : Bool :=
  match m.op with
  | .cgen _ | .clock _ => true
  | .cswap o => swapSplices o
  | _ => false

/-- A command as it now stands goes back to its place in the code queue, where that still holds it. -/
def State.putCode' (s : State) (c : CoreId) (m : EngCmd) : State :=
  s.onCore c fun k => { k with code := k.code.onHead fun x => if x.pc == m.pc && x.ctx == m.ctx then m else x }

/-- The head leaves the code queue, and the next arrives at the engine (R230). -/
def State.popCode (s : State) (c : CoreId) : State :=
  s.onCore c fun k => { k with code := k.code.pop.onHead fun m => { m with since := s.clkOf c } }

/-- Whether the head of a core's code queue is a CGEN that Stavask may serve. -/
def State.genWaits (s : State) (c : CoreId) (m : EngCmd) : Bool :=
  !m.ended && (s.core c).code.frozen.isNone && !s.mismatch m && s.timeFor m && (match m.op with
    | .cgen _ => true
    | _ => false)

/-- The Stavask of a cluster serves CGENs in the order in which they arrived, in ascending core number where in one clk (R230). -/
def State.stavaskTurn (s : State) (c : CoreId) (m : EngCmd) : Bool :=
  (coresOf (clusterOf c)).all fun d =>
    match (s.core d).code.cmds with
    | [] => true
    | x :: _ => !s.genWaits d x || decide (m.since < x.since) || (m.since == x.since && decide (c.val ≤ d.val))

/-- The head has had its effect: it leaves once its reply is pushed, and arrives on its hitch. -/
def State.codeFinish (s : State) (c : CoreId) : State :=
  match (s.core c).code.cmds with
  | [] => s
  | m :: _ =>
    if !m.ended || (s.core c).code.heldUp || (m.codeOwes && !(s.core c).rqRoom) then s
    else
      let s := s.popCode c
      let s := if !m.codeOwes then s else
        match m.reply with
        | some x => s.onCore c fun k => k.reply m.f.tag x
        | none =>
          let (n, s) := s.free
          s.onCore c fun k => k.reply m.f.tag ((Config.freeValue n).setWidth 64)
      s.arriveCmd c m

/-- A fault of a command without a reply is recorded in cflt. -/
def State.noteCflt (s : State) (c : CoreId) (x : Option Cause) : State :=
  match x with
  | none => s
  | some cause => s.onCore c fun k => { k with cflt := cause.code.setWidth 10 ||| 0x200 }

/-- The head of the code queue runs; it completes at once but for a CSWAP that its barrier applies. -/
def State.codeExecute (s : State) (c : CoreId) : State :=
  match (s.core c).code.cmds with
  | [] => s
  | m :: _ =>
    if m.ended then s.codeFinish c
    else if s.mismatch m || !s.timeFor m || (s.core c).code.frozen.isSome || s.codeWaits c m then s
    else
      let done : State → Option Word → State := fun s r => (s.putCode' c { m with begun := true, ended := true, reply := r }).codeFinish c
      match m.op with
      | .cgen o =>
        if !s.stavaskTurn c m then s
        else
          let (s, r) := s.runCgen c m o
          done s (some r)
      | .clock _ =>
        let (s, r) := s.runClock c m
        done s (some r)
      | .cunlk o =>
        let (s, x) := s.runCunlk c m o
        done (s.noteCflt c x) none
      | .cpref o =>
        let (s, x) := s.runCpref c m o
        done (s.noteCflt c x) none
      | .cswap o =>
        if m.aux ≠ 0 ∨ (s.core c).strand.isNone then s
        else
          match s.runCswap c m o with
          | (s, .queued) => s.popCode c
          | (s, .gone) => s
          | (s, .failed r x) => done (s.noteCflt c x) r
      | _ => s

def execCodeCommandExecute (c : CoreId) (s : State) : Out := .next (s.asRequester (engineOf c) (·.codeExecute c))

/-! ## CODE_LINE_FILL (R222, R225, R226) -/

/-- A line that prefetch asks for: one already held stays as it is, and what would fault or violate is dropped (R222, R226). -/
def State.prefetchLine (s : State) (c : CoreId) (q : Seq) (va : Word) : State :=
  let k := s.core c
  let st := k.seq q
  if (k.codeLine k.ctx va).isSome then s else (s.fillCode c ⟨k.ctx, st.pc, false⟩ st.sup va).1

/-- The targets of the B, BC and CALL that a sequencer decodes in a line, word by word; a term bundle takes two. -/
def lineTargets (q : Seq) (reduced : Bool) (data : BitVec 1024) (base : Word) : Nat → Nat → List Word
  | _, 0 => []
  | i, n + 1 =>
    let pc := base + BitVec.ofNat 64 (8 * i)
    let w := lineWord data pc
    let more := lineTargets q reduced data base (if majorOf w = 0x3E then i + 2 else i + 1) n
    if 16 ≤ i then []
    else
      match decode q pc w (lineWord data (pc + 8)) reduced with
      | .ok ⟨_, .bc _ d⟩ | .ok ⟨_, .call _ d⟩ => (pc + dispBytes d) :: more
      | _ => more

/-- The sequential prefetch of a sequencer whose fetch comes to a line it holds: the 8 lines ahead, and the targets of the branches in
it (R226). -/
def State.prefetchFrom (s : State) (c : CoreId) (q : Seq) : State :=
  let k := s.core c
  let pc := (k.seq q).pc
  let base := pc &&& ~~~0x7F#64
  let targets := match k.codeLine k.ctx pc with
    | some l => lineTargets q s.reduced l.data base 0 16
    | none => []
  let ahead := (List.range 8).map fun i => base + BitVec.ofNat 64 (128 * (i + 1))
  let s := (ahead ++ targets).foldl (fun s va => s.prefetchLine c q va) s
  s.onCore c fun k => k.onSeq q fun st => { st with ahead := some (lineOf pc) }

/-- A line that a sequencer's fetch misses is filled, where a check that fails traps or freezes that sequencer; from a line it holds the
prefetch goes on. -/
def State.lineFill (s : State) (c : CoreId) (q : Seq) : State :=
  let k := s.core c
  let st := k.seq q
  if st.run ≠ .running then s
  else if (k.codeLine k.ctx st.pc).isSome then s.prefetchFrom c q
  else
    match s.fillCode c ⟨k.ctx, st.pc, false⟩ st.sup st.pc with
    | (s, .ok _) => s
    | (s, .error (.trap x)) => s.trapAt c q x st.pc st.pc
    | (s, .error (.violation x)) => s.violateAt c q x st.pc st.pc
    | (s, .error .gone) | (s, .error .wait) => s

def execCodeLineFill (c : CoreId) (q : Seq) (s : State) : Out := .next (s.asRequester (unitOfCore c) (·.lineFill c q))

end Sys2Proof.Machine
end

