-- ==== Sys2Proof/Machine/Scalar.lean ====
section
/-! DEFINITION. The scalar integer instructions of majors 0x01 and 0x02 (R98-R100), legal on every sequencer. -/

namespace Sys2Proof.Machine

/-- Width of a scalar type (R98). -/
def styWidth : STy → Nat
  | .i64 | .n64 => 64
  | .i32 | .n32 => 32

/-- Signedness of a scalar type (R98). -/
def stySigned : STy → Bool
  | .i64 | .i32 => true
  | .n64 | .n32 => false

/-- The 64-bit register value of an exact result: wrapped to w, then extended by the type (R99). -/
def styResult (t : STy) (r : Int) : Word :=
  let x := wrap (styWidth t) r
  if stySigned t then BitVec.ofInt 64 (sval (styWidth t) x) else BitVec.ofNat 64 x

/-- The low w bits of a source. -/
def styBits (t : STy) (x : Word) : Nat := x.toNat % 2 ^ styWidth t

/-- The value of w bits under the type. -/
def styVal (t : STy) (x : Nat) : Int := ival (styWidth t) (stySigned t) x

/-- The conditions of R60 on w-bit values. -/
def condHolds (c : Cond) (w a b : Nat) : Bool :=
  match c with
  | .eq => a == b
  | .ne => a != b
  | .lt => decide (sval w a < sval w b)
  | .ge => decide (sval w b ≤ sval w a)
  | .ltn => decide (a < b)
  | .gen => decide (b ≤ a)

/-- A scalar instruction of two sources: `r` gives the exact result from the type and the w-bit sources (R99). -/
def scalar2 (o : S2) (lat : Nat) (r : STy → Nat → Nat → Int) (s : State) : State :=
  (s.writeS o.dst (styResult o.ty (r o.ty (styBits o.ty (s.src o.a)) (styBits o.ty (s.src o.b)))) lat).retire 8

/-- A scalar instruction of one source. -/
def scalar1 (o : S1) (r : STy → Nat → Int) (s : State) : State :=
  (s.writeS o.dst (styResult o.ty (r o.ty (styBits o.ty (s.src o.a)))) 1).retire 8

/-- The shift amount: b modulo w (R99). -/
def shiftAmount (t : STy) (b : Nat) : Nat := b % styWidth t

def execAdd (o : S2) (s : State) : Out := .next (scalar2 o 1 (fun _ a b => (a : Int) + b) s)
def execSub (o : S2) (s : State) : Out := .next (scalar2 o 1 (fun _ a b => (a : Int) - b) s)
def execMul (o : S2) (s : State) : Out := .next (scalar2 o 3 (fun _ a b => (a : Int) * b) s)
def execMulh (o : S2) (s : State) : Out :=
  .next (scalar2 o 3 (fun t a b => (styVal t a * styVal t b) / (2 : Int) ^ styWidth t) s)
def execAnd (o : S2) (s : State) : Out := .next (scalar2 o 1 (fun _ a b => ((a &&& b : Nat) : Int)) s)
def execOr (o : S2) (s : State) : Out := .next (scalar2 o 1 (fun _ a b => ((a ||| b : Nat) : Int)) s)
def execXor (o : S2) (s : State) : Out := .next (scalar2 o 1 (fun _ a b => ((a ^^^ b : Nat) : Int)) s)
def execShl (o : S2) (s : State) : Out := .next (scalar2 o 1 (fun t a b => (a : Int) * (2 : Int) ^ shiftAmount t b) s)
def execShr (o : S2) (s : State) : Out := .next (scalar2 o 1 (fun t a b => ((a >>> shiftAmount t b : Nat) : Int)) s)
def execSra (o : S2) (s : State) : Out :=
  .next (scalar2 o 1 (fun t a b => sval (styWidth t) a / (2 : Int) ^ shiftAmount t b) s)
def execMin (o : S2) (s : State) : Out := .next (scalar2 o 1 (fun t a b => min (styVal t a) (styVal t b)) s)
def execMax (o : S2) (s : State) : Out := .next (scalar2 o 1 (fun t a b => max (styVal t a) (styVal t b)) s)

/-- SEL: b when a is not zero, else c (R99). -/
def execSel (o : S3) (s : State) : Out :=
  let a := styBits o.ty (s.src o.a)
  let r := if a ≠ 0 then styBits o.ty (s.src o.b) else styBits o.ty (s.src o.c)
  .next ((s.writeS o.dst (styResult o.ty (r : Int)) 1).retire 8)

/-- CMP: 1 when the condition holds on the w-bit values; the condition fixes the signedness (R99). -/
def execCmp (o : S2) (c : Cond) (s : State) : Out :=
  .next (scalar2 o 1 (fun t a b => if condHolds c (styWidth t) a b then 1 else 0) s)

def execPopc (o : S1) (s : State) : Out := .next (scalar1 o (fun t a => (popCount a (styWidth t) : Int)) s)
def execClz (o : S1) (s : State) : Out := .next (scalar1 o (fun t a => (leadZeros a (styWidth t) : Int)) s)

/-- LI: s[dst] ← SignExt(imm32, 32) (R100). -/
def execLi (d : Fin 32) (imm : BitVec 32) (s : State) : Out := .next ((s.writeS d (imm.signExtend 64) 1).retire 8)

/-- LIH: bits [63:32] of s[dst] ← imm32; the low half stays (R100). -/
def execLih (d : Fin 32) (imm : BitVec 32) (s : State) : Out :=
  .next ((s.writeS d (imm ++ (s.reg d).extractLsb' 0 32) 1).retire 8)

end Sys2Proof.Machine
end

