-- ==== Sys2Proof/Machine/Control.lean ====
section
/-! DEFINITION. Transfers of control, hardware loops, token queues, branch-outcome queues and the constant bank:
majors 0x08-0x0D (R101-R111, R113). -/

namespace Sys2Proof.Machine

/-- An unsigned word offset. -/
def offWords (d : BitVec 32) : Word := d.setWidth 64 <<< 3

/-- BC (R101): the condition of R60 on the full 64-bit values. -/
def execBc (c : BCond) (disp : BitVec 32) (s : State) : Out :=
  let target := s.me.pc + dispBytes disp
  match c with
  | .al => .next (s.take target)
  | .cmp c a b => if condHolds c 64 (s.src a).toNat (s.src b).toNat then .next (s.take target) else .next (s.retire 8)

/-- BQ (R110): pops bq(seqid) and branches when the bit equals the condition. -/
def execBq (t : Bool) (disp : BitVec 32) (s : State) : Out :=
  let n := s.cur.2.num
  match s.here.bqs[n] with
  | [] => .next (s.block .bqEmpty)
  | b :: rest =>
    let target := s.me.pc + dispBytes disp
    let u := s.change (.outcome n b)
    let s := s.mod fun k => Core.noteChange { k with bqs := k.bqs.set n rest } u
    .next (if b = t then s.take target else s.retire 8)

/-- CALL (R102): s[L] ← pc + 8; branch without leaving a loop (R106). -/
def execCall (link : Fin 32) (disp : BitVec 32) (s : State) : Out :=
  .next ((s.writeS link (s.me.pc + 8) 1).jump (s.me.pc + dispBytes disp))

/-- JR (R103): a target with bits [2:0] not zero traps and nothing is written. -/
def execJr (link : Fin 32) (base : SSrc) (off : BitVec 32) (s : State) : Out :=
  let target := s.src base + off.signExtend 64
  if target.extractLsb' 0 3 ≠ 0 then .next (s.execTrap .misalignedTarget)
  else .next ((s.writeS link (s.me.pc + 8) 1).jump target)

/-- RET (R103). -/
def execRet (base : SSrc) (s : State) : Out :=
  let target := s.src base
  if target.extractLsb' 0 3 ≠ 0 then .next (s.execTrap .misalignedTarget) else .next (s.jump target)

/-- Whether counter n is the index of an entry on the loop stack. -/
def loopBusy (q : SeqSt) (n : Fin 4) : Bool := (List.range q.depth).any fun i => lstkIdx q.lstk i == n

/-- LOOP and LOOPI (R104): a count of 0 skips the body. -/
def enterLoop (n : Fin 4) (count : BitVec 32) (stop : Word) (s : State) : State :=
  if s.me.depth = 4 then s.execTrap .loopDepth
  else if loopBusy s.me n then s.execTrap .loopCounterBusy
  else if count = 0 then (s.modMe fun q => q.setLc n 0).jump stop
  else
    (s.modMe fun q => SeqSt.pushLoop { q with loops := q.loops.set n ⟨count, q.pc + 8, stop⟩ } n).retire 8

def execLoop (n : Fin 4) (src : SSrc) (endOff : BitVec 32) (s : State) : Out :=
  .next (enterLoop n ((s.src src).extractLsb' 0 32) (s.me.pc + offWords endOff) s)

def execLoopi (n : Fin 4) (count endOff : BitVec 16) (s : State) : Out :=
  .next (enterLoop n (count.setWidth 32) (s.me.pc + offWords (endOff.setWidth 32)) s)

/-- LEXIT (R106): leaves the top loop when its source is not zero. -/
def execLexit (src : SSrc) (s : State) : Out :=
  if s.me.depth = 0 then .next (s.execTrap .loopDepth)
  else if s.src src = 0 then .next (s.retire 8)
  else
    let n := s.me.top
    let target := s.me.loops[n].lend
    .next ((s.modMe fun q => (q.setLc n 0).popLoop).jump (alignPc target))

/-- NOP (R113). -/
def execNop (s : State) : Out := .next (s.retire 8)

/-! ## Token queues (R107-R109) -/

/-- Producer and consumer are one sequencer: tk0, tk5, tk10, tk15 (R107). -/
def selfCounter (t : Fin 16) : Bool := t.val / 4 == t.val % 4

/-- A TOKS on EX, LD or ST waits until what its sequencer issued before is performed (R109). -/
def Core.performed (k : Core) (q : Seq) : Bool :=
  match q with
  | .ctl => true
  | .ld => k.inFlight .ld == 0
  | .ex => k.ex.pushes.isEmpty
  | .st => k.storesDone && k.loads.all fun l => l.seq != .st

def Core.setTok (k : Core) (t : Fin 16) (n : BitVec 6) : Core := { k with toks := k.toks.set t n }

/-- Units taken from a token queue that a late fault may put back (R174). -/
def Core.heldTokens (k : Core) (t : Fin 16) : Nat :=
  (k.undo.map fun u => match u.what with
    | .tokens m n => if m = t ∧ k.mayUndo u then n.toNat else 0
    | _ => 0).sum

/-- The current sequencer takes units from a token queue. -/
def State.takeTokens (s : State) (t : Fin 16) (n : BitVec 6) : State :=
  let u := s.change (.tokens t n)
  s.mod fun k => (k.setTok t (k.toks[t] - n)).noteChange u

/-- TOKS (R108, R109). -/
def execToks (t : Fin 16) (n : BitVec 6) (s : State) : Out :=
  let count := s.here.toks[t].toNat
  if 63 < count + n.toNat then
    if selfCounter t then .next (s.execTrap .tokenOverflow) else .next (s.block .other)
  else if !s.here.performed s.cur.2 || decide (63 < count + n.toNat + s.here.heldTokens t) then .next (s.block .other)
  else .next ((s.mod fun k => k.setTok t (k.toks[t] + n)).retire 8)

/-- TOKW (R108). -/
def execTokw (t : Fin 16) (n : BitVec 6) (s : State) : Out :=
  if s.here.toks[t].toNat < n.toNat then
    if selfCounter t then .next (s.execTrap .tokenUnderflow) else .next (s.block (.tokw t n))
  else .next ((s.takeTokens t n).retire 8)

/-- TOKT (R108): never blocks. -/
def execTokt (d : Fin 32) (t : Fin 16) (n : BitVec 6) (s : State) : Out :=
  if n.toNat ≤ s.here.toks[t].toNat then
    .next (((s.takeTokens t n).writeS d 1 1).retire 8)
  else .next ((s.writeS d 0 1).retire 8)

/-! ## Branch-outcome queues and the constant bank -/

/-- BQP (R110): pushes 1 when the source is not zero; LD and ST wait for what they have in flight, which may yet fault (R174; DESIGN
CHOICE, log 10). -/
def execBqp (src : SSrc) (n : Fin 4) (s : State) : Out :=
  if s.here.inFlight s.cur.2 ≠ 0 then .next (s.block .other)
  else if !s.here.bqRoom n then
    if n = s.cur.2.num then .next (s.execTrap .branchQueueOverflow) else .next (s.block (.bqFull n))
  else
    let b := decide (s.src src ≠ 0)
    .next ((s.mod fun k => k.pushBq n b).retire 8)

/-- CBW (R70, R111): all 64 bits of one constant at once. -/
def execCbw (c : Fin 256) (src : SSrc) (s : State) : Out :=
  let x := s.src src
  .next ((s.mod fun k => { k with consts := k.consts.set c x }).retire 8)

end Sys2Proof.Machine
end

