-- ==== Sys2Proof/Machine/Tensor.lean ====
section
/-! DEFINITION. The tensor engine (R262-R283): its command queue, the loop nest, the arithmetic of a K-step, the landing of its sums, and
the tensor status. -/

namespace Sys2Proof.Machine

/-! ## Level words (R271) -/

def lvOn (w : Word) : Bool := w.getLsbD 42
def lvOpB (w : Word) : Bool := w.getLsbD 43
def lvRetB (w : Word) : Bool := w.getLsbD 41
def lvRetA (w : Word) : Bool := w.getLsbD 40
def lvEmit (w : Word) : Bool := w.getLsbD 39
def lvClr (w : Word) : Bool := w.getLsbD 38
def lvAdvC (w : Word) : Nat := (w.extractLsb' 36 2).toNat
def lvAdvB (w : Word) : Int := (w.extractLsb' 28 8).toInt
def lvAdvA (w : Word) : Int := (w.extractLsb' 20 8).toInt
def lvSrc (w : Word) : Nat := (w.extractLsb' 16 4).toNat
def lvCount (w : Word) : Nat := (w.extractLsb' 0 16).toNat

/-- A level word that TCFG refuses. -/
def lvBad (w : Word) : Bool :=
  w.extractLsb' 44 20 != 0 || (lvSrc w != 0 && decide (lvSrc w < 8)) || (lvSrc w != 0 && lvCount w != 0) ||
    (!lvOn w && w.extractLsb' 0 42 != 0)

/-! ## Bound words (R286) -/

def bwEmpty (w : Word) : Bool := w.getLsbD 60
def bwNnz (w : Word) : Nat := (w.extractLsb' 48 12).toNat
def bwHi (w : Word) : Nat := (w.extractLsb' 24 24).toNat
def bwLo (w : Word) : Nat := (w.extractLsb' 0 24).toNat

/-! ## Arrivals and faults (R280) -/

/-- The hitch of a TGO receives its arrival, once. -/
def State.arriveOnce (s : State) (c : CoreId) (m : EngCmd) : State := if m.ended then s else s.arriveCmd c m

/-- Every TGO of the window executed so far has arrived. -/
def Tensor.allArrived (t : Tensor) : Tensor :=
  { t with replay := { t.replay with cmds := t.replay.cmds.map fun m => { m with ended := true } } }

/-- The nest faults: it stops, the queue halts as it stands, the cause is recorded and the hitch receives its arrival. Sums of its K-steps
still in flight become final at their time, and the cause recorded is the last that came, also over that of a command that has halted the
queue before (R280 says neither; DESIGN CHOICE, log 92). -/
def State.nestFault (s : State) (c : CoreId) (n : Nest) (cause : Cause) : State :=
  (s.onTensor c fun t => { t.allArrived with nest := none, q := { t.q with halted := some cause } }).arriveOnce c n.cmd

/-- The command at the head faults: it stays there and the queue halts; a TGO still arrives. -/
def State.headFault (s : State) (c : CoreId) (m : EngCmd) (cause : Cause) : State :=
  (s.onTensor c fun t => { t with q := { (t.q.onHead fun x => { x with ended := true }) with halted := some cause } }).arriveOnce c m

/-! ## Slots as a nest sees them (R272) -/

/-- Slot(ring, p): a fault, none while it is not full, or its number and the sub-tile. -/
def Ring.find (r : Ring) (p : Int) : Except Cause (Option (Nat × Nat)) :=
  if p < 0 ∨ r.count ≤ p.toNat / r.ks then .error .tensorNestFault
  else
    let n := (r.head + p.toNat / r.ks) % r.count
    .ok (if (r.slot n).full then some (n, p.toNat % r.ks) else none)

/-- Retire(ring, p) for p ≥ 0: slots popped, with what they held. -/
def Tensor.retire (t : Tensor) (n : Fin 8) : Nat → Tensor
  | 0 => t
  | k + 1 =>
    let r := t.rings[n]
    Tensor.retire { t with rings := t.rings.set n r.pop,
                           replay := { t.replay with retired := t.replay.retired ++ [(n, r.head, r.slot r.head)] } } n k

/-! ## Tiles (R276, R277) -/

/-- A sum on its way to a tile. -/
def Flight.adds (f : Flight) (n : Fin 4) : Bool :=
  f.tile == n && (match f.op with
    | .add _ _ _ => true
    | _ => false)

/-- When the last K-step issued on a tile lands; none while none is in flight. -/
def Tensor.lastLand (t : Tensor) (n : Fin 4) : Option Nat := ((t.flight.filter fun f => f.adds n).getLast?).map (·.due)

/-- A clear takes effect after every K-step issued before it on the tile has landed. -/
def Tensor.clear (t : Tensor) (n : Fin 4) : Tensor :=
  match t.lastLand n with
  | none => t.onTile n fun x => { x with rows := .replicate 32 0 }
  | some d => { t with flight := t.flight ++ [⟨d, n, .clear⟩] }

/-- Emit: the tile is held, and its rows become final four at a time. -/
def Tensor.emit (t : Tensor) (clk : Nat) (n : Fin 4) : Tensor :=
  let base := max clk ((t.lastLand n).getD 0)
  { t.onTile n (fun x => { x with held := true }) with
    flight := t.flight ++ (List.range 8).map fun i => ⟨base + i, n, .final⟩ }

/-- A tile set to +0 and released, with nothing on its way to it. -/
def Tensor.discard (t : Tensor) (n : Fin 4) : Tensor :=
  { t.onTile n (fun _ => Tile.reset) with flight := t.flight.filter fun f => f.tile != n }

/-! ## The nest, one point at a time (R272, R273) -/

/-- What the nest comes to at a point: it goes on, waits (with the stall code of R281), faults, stands at a K-step, or is done. -/
inductive Adv where
  | go (t : Tensor) (n : Nest)
  | wait (stall : Nat)
  | fault (c : Cause)
  | kstep
  | done

/-- The level that the innermost entry of a nest is for, and its word. -/
def Nest.level (n : Nest) : Nat := 6 - n.levels.length
def Tensor.word (t : Tensor) (l : Nat) : Word := t.active.toList.getD l 0

/-- Count(L): the count of a level and the live positions of its last iteration, or a wait or fault for its slot. -/
def Tensor.countOf (t : Tensor) (bounds : Vector Word 8) (n : Nest) (w : Word) : Except Adv (Nat × Nat) :=
  if !lvOn w then .ok (1, 24)
  else if lvSrc w = 0 then .ok (lvCount w, 24)
  else
    let r := t.rings[if lvOpB w then n.ringB else n.ringA]
    let b : Fin 8 := (w.extractLsb' 16 3).toFin
    match r.find (if lvOpB w then n.pB else n.pA) with
    | .error c => .error (.fault c)
    | .ok none => .error (.wait (if lvOpB w then 2 else 1))
    | .ok (some (slot, _)) =>
      let word := match (r.slot slot).copy with
        | some (m, x) => if m = b then x else bounds[b]
        | none => bounds[b]
      if bwEmpty word then .ok (0, 24)
      else
        let k := (bwNnz word + 23) / 24
        .ok (k, bwNnz word - 24 * (k - 1))

/-- Retire(ring, p) where a level word asks for it, and the position then; none where p is negative. -/
def Tensor.retireTo (t : Tensor) (on : Bool) (r : Fin 8) (p : Int) : Option (Tensor × Int) :=
  if !on then some (t, p)
  else if p < 0 then none
  else some (t.retire r ((p.toNat + t.rings[r].ks - 1) / t.rings[r].ks), 0)

/-- The end of an iteration: emit, advances, retirements, in this order; a retirement that faults leaves what came before it. -/
def Tensor.endIter (t : Tensor) (clk : Nat) (n : Nest) (w : Word) : Adv :=
  let next : Nest := { n with at' := .top, levels := n.levels.modify 0 fun x => { x with i := x.i + 1 } }
  if !lvOn w then .go t next
  else
    let t := if lvEmit w then t.emit clk n.cur else t
    let next := { next with pA := n.pA + lvAdvA w, pB := n.pB + lvAdvB w,
                            cur := ⟨(n.cur.val + lvAdvC w) % 4, Nat.mod_lt _ (by decide)⟩ }
    match t.retireTo (lvRetA w) n.ringA next.pA with
    | none => .go t { next with at' := .failed }
    | some (t, pA) =>
      match t.retireTo (lvRetB w) n.ringB next.pB with
      | none => .go t { next with at' := .failed, pA := pA }
      | some (t, pB) => .go t { next with pA := pA, pB := pB }

/-- One point of the nest. -/
def Tensor.point (t : Tensor) (bounds : Vector Word 8) (clk : Nat) (n : Nest) : Adv :=
  match n.at' with
  | .enter =>
    match t.countOf bounds n (t.word (n.level - 1)) with
    | .error a => a
    | .ok (k, last) => .go t { n with at' := .top, levels := ⟨k, 0, last⟩ :: n.levels }
  | .top =>
    match n.levels with
    | [] => .done
    | l :: rest =>
      let w := t.word n.level
      if l.n ≤ l.i then .go t { n with levels := rest, at' := if rest.isEmpty then .done else .tail }
      else if lvOn w && lvClr w then
        if t.tiles[n.cur].held then .wait 3 else .go (t.clear n.cur) { n with at' := .body }
      else .go t { n with at' := .body }
  | .body => .go t { n with at' := if n.level = 0 then .kstep else .enter }
  | .kstep => .kstep
  | .tail => t.endIter clk n (t.word n.level)
  | .done => .done
  | .failed => .fault .tensorNestFault

/-- The nest goes on to its next K-step, to a wait, a fault or its end. -/
def Tensor.advance (bounds : Vector Word 8) (clk : Nat) : Nat → Tensor → Nest → Tensor × Nest × Adv
  | 0, t, n => (t, n, .wait 0)
  | fuel + 1, t, n =>
    match t.point bounds clk n with
    | .go t n => Tensor.advance bounds clk fuel t n
    | a => (t, n, a)

/-- What a nest at a K-step waits for: a held tile, a slot of A, a slot of B. -/
def Tensor.ready (t : Tensor) (n : Nest) : Except Adv ((Nat × Nat) × (Nat × Nat)) :=
  if t.tiles[n.cur].held then .error (.wait 3)
  else
    match t.rings[n.ringA].find n.pA with
    | .error c => .error (.fault c)
    | .ok none => .error (.wait 1)
    | .ok (some a) =>
      match t.rings[n.ringB].find n.pB with
      | .error c => .error (.fault c)
      | .ok none => .error (.wait 2)
      | .ok (some b) => .ok (a, b)

/-- Points of a nest that one event passes at most. -/
def nestFuel : Nat := 4096

/-! ## The arithmetic of a K-step (R274, R275) -/

/-- An element of an operand as a value, its E8M0 scale or zero point applied. -/
def SubData.value (d : SubData) (f : TFmt) (line k : Nat) : FV :=
  let code := fieldAt d.bits (f.elemBit line k) f.w
  let p := f.descBit d.role line (k / 8)
  match f.flt with
  | some t => if f.ds = 1 then scaled (fieldAt d.bits p 8) (decodeF t code) else decodeF t code
  | none => if f.asym then intF ((code : Int) - (fieldAt d.bits (p + 16) f.w : Int)) else intF (sval f.w code)

/-- The FP16 scale of a granule of an asymmetric operand. -/
def SubData.scale (d : SubData) (f : TFmt) (line g : Nat) : FV := decodeF .fp16 (fieldAt d.bits (f.descBit d.role line g) 16)

/-- Exact sum of products in order. -/
def dotF (acc : Option FV) (xs : List (FV × FV)) : Option FV :=
  xs.foldl (fun acc x =>
    let p := mulF .tensor x.1 x.2
    match acc with
    | none => some p
    | some a => some (addF .tensor a p)) acc

/-- S of R274 for formats whose scales belong to their elements: a NaN among the inputs comes first, in K order, A before B. -/
def sumPlain (as bs : List FV) : Option FV :=
  match firstNan ((as.zip bs).flatMap fun x => [x.1, x.2]) with
  | some n => if as.isEmpty then none else some (.nan n)
  | none => dotF none (as.zip bs)

/-- A zero with its sign. -/
def FV.isNegZero (x : FV) : Bool :=
  match x with
  | .fin s 0 _ => s
  | _ => false

/-- An exact sum of zero is -0 only where every product is -0 (R274). A product of integers takes its sign as one of floats does, so that 0
times a negative code counts as -0 (DESIGN CHOICE, log 94). -/
def zeroSign (products : List FV) (x : FV) : FV :=
  match x with
  | .fin _ 0 e => .fin (products.all FV.isNegZero) 0 e
  | x => x

/-- S of R275: the granules' sums, each taken with the asymmetric operand's scale. -/
def sumScaled (scales : List FV) (as bs : List FV) : Option FV :=
  let n := (min as.length bs.length + 7) / 8
  let terms := (List.range n).filterMap fun g =>
    (dotF none (((as.drop (8 * g)).take 8).zip ((bs.drop (8 * g)).take 8))).map fun x => (scales.getD g (powF 0), x)
  match firstNan (terms.map (·.1)) with
  | some x => some (.nan x)
  | none => (dotF none terms).map <|
      zeroSign ((as.zip bs).zipIdx.map fun x => mulF .tensor (scales.getD (x.2 / 8) (powF 0)) (mulF .tensor x.1.1 x.1.2))

/-- A row of a tile after a K-step: lanes of live B lines take C + S, rounded once. -/
def kstepRow (old : Row) (sums : List (Option FV)) : Row :=
  BitVec.ofNat 2048 (pack 32 (fun n =>
    let c := laneOf old.toNat 32 n
    match sums.getD n none with
    | none => c
    | some x => roundF .fp32 false false .tensor (addF .tensor (decodeF .fp32 c) x)) 64)

/-- The tile after a K-step lands: `live` K positions take part. -/
def kstepTile (a b : SubData) (live : Nat) (t : Vector Row 32) : Vector Row 32 :=
  let none' : TFmt := ⟨.flt, 16, 0, none, false⟩
  let fa := (tfmt a.fmt).getD none'
  let fb := (tfmt b.fmt).getD none'
  let line : SubData → TFmt → Nat → List FV := fun d f m => (List.range live).map fun k => d.value f m k
  let scales : SubData → TFmt → Nat → List FV := fun d f m => (List.range 3).map fun g => d.scale f m g
  let bLines := (List.range b.lv).map fun n => (line b fb n, if fb.asym then scales b fb n else [])
  t.mapIdx fun m old =>
    if a.lv ≤ m then old
    else
      let as := line a fa m
      let sa := if fa.asym then scales a fa m else []
      kstepRow old (bLines.map fun x =>
        if fa.asym then sumScaled sa as x.1 else if fb.asym then sumScaled x.2 as x.1 else sumPlain as x.1)

/-! ## TENSOR_KSTEP (R263, R266, R274) -/

/-- Rows of a sub-tile that hold a live position, from its first row: of `kv` elements in each of `lv` lines, and of the descriptors of
their granules. -/
def liveRows (f : TFmt) (role : Bool) (kv lv : Nat) : List Nat :=
  let meets : Nat → Nat → Nat → Bool := fun i lo hi => decide (lo < hi) && decide (lo < 2048 * (i + 1)) && decide (2048 * i < hi)
  (List.range (f.subRows role)).filter fun i => (List.range lv).any fun m =>
    meets i (f.elemBit m 0) (f.elemBit m kv) || meets i (f.descBit role m 0) (f.descBit role m ((kv + 7) / 8))

/-- Rows of a core's scratchpad read for a K-step, as one number; none where one is lost. -/
def State.readRows (s : State) (c : CoreId) (pc : Word) (first : Nat) : List Nat → State × Option Nat
  | [] => (s, some 0)
  | i :: rest =>
    match s.readPad c ⟨(first + i) % 2048, Nat.mod_lt _ (by decide)⟩ pc with
    | (s, none) => (s, none)
    | (s, some (d, _)) =>
      match s.readRows c pc first rest with
      | (s, none) => (s, none)
      | (s, some x) => (s, some (d.toNat * 2 ^ (2048 * i) + x))

/-- d and b of R263. -/
def kstepClk (wa wb : Nat) (rows : List Nat) : Nat :=
  let d := if max wa wb = 4 then 1 else if max wa wb = 8 then 2 else 4
  let b := ((List.range 8).map fun i => (rows.filter fun r => r % 8 == i).length).foldl max 0
  max d b

/-- One K-step is issued: its rows are read, and its sum is on its way. -/
def State.issueKstep (s : State) (c : CoreId) (n : Nest) (ia ib : Nat × Nat) : State :=
  let ra := (s.core c).ring n.ringA
  let rb := (s.core c).ring n.ringB
  let lvl := n.levels.headD ⟨1, 0, 24⟩
  let cap := if lvl.i + 1 = lvl.n then lvl.last else 24
  let side : Ring → Nat × Nat → List Nat × Nat × Nat := fun r i =>
    let x := r.slot i.1
    let kv := min (x.kv.toList.getD i.2 0) cap
    let lv := x.lv.toList.getD i.2 0
    (liveRows r.tf r.role kv lv, kv, lv)
  let (la, kva, lva) := side ra ia
  let (lb, kvb, lvb) := side rb ib
  match s.readRows c n.cmd.pc (ra.subRow ia.1 ia.2) la with
  | (s, none) => s
  | (s, some xa) =>
    match s.readRows c n.cmd.pc (rb.subRow ib.1 ib.2) lb with
    | (s, none) => s
    | (s, some xb) =>
      let f : Flight := ⟨s.clkOf c + 12, n.cur, .add ⟨ra.fmt, ra.role, xa, kva, lva⟩ ⟨rb.fmt, rb.role, xb, kvb, lvb⟩ (min kva kvb)⟩
      let rows := la.map (ra.subRow ia.1 ia.2 + ·) ++ lb.map (rb.subRow ib.1 ib.2 + ·)
      s.onTensor c fun t =>
        { t with flight := t.flight ++ [f],
                 nest := some { n with at' := .tail, next := s.clkOf c + kstepClk ra.tf.w rb.tf.w rows },
                 replay := { t.replay with touched := t.replay.touched ||| (1 <<< n.cur.val) } }

/-- The boundary registers as the engine reads them (R364). -/
def State.checkBounds (s : State) (c : CoreId) (pc : Word) : State :=
  (s.errs.filter fun e => e.core == c && (match e.unit with
    | .b _ => true
    | _ => false)).foldl (fun s e => (s.checkWord c e.unit pc).1) s

/-- The nest goes on from where it stands. -/
def State.runNest (s : State) (c : CoreId) (n : Nest) : State × Adv × Nest :=
  let s := s.checkBounds c n.cmd.pc
  let (t, n, a) := Tensor.advance (s.core c).bounds (s.clkOf c) nestFuel (s.core c).tens n
  (s.onTensor c fun _ => { t with nest := some n }, a, n)

/-- TENSOR_KSTEP: once its time has come, the engine issues its next K-step, or finds a wait or a fault before it. -/
def State.kstep (s : State) (c : CoreId) : State :=
  match (s.core c).tens.nest with
  | none => s
  | some n =>
    if s.clkOf c < n.next ∨ !s.timeFor n.cmd then s
    else
      match s.runNest c n with
      | (s, .fault cause, n) => s.nestFault c n cause
      | (s, .kstep, n) =>
        match (s.core c).tens.ready n with
        | .error (.fault cause) => s.nestFault c n cause
        | .error _ => s
        | .ok (ia, ib) => s.issueKstep c n ia ib
      | (s, _, _) => s

def execTensorKstep (c : CoreId) (s : State) : Out := .next (s.kstep c)

/-! ## Replay (R380-R382) -/

/-- The window cannot be replayed. -/
def Replay.barred (r : Replay) : Bool :=
  r.spoiled || (match r.cmds with
    | m :: _ => !m.f.tsm
    | [] => true) || r.cmds.any fun m => match m.op with
    | .rcfg _ => true
    | _ => false

/-- The engine set back to the marker: the nest stops, touched tiles are cleared, the rings and the shadow table stand as they
did, and the window waits to be executed again. -/
def Tensor.rewind (t : Tensor) : Tensor :=
  let r := t.replay
  let t := (List.finRange 4).foldl (fun (t : Tensor) n => if r.touched.getLsbD n.val then t.discard n else t) t
  let rings := r.retired.foldl (fun (v : Vector Ring 8) x => v.set x.1 (v[x.1].onSlot x.2.1 fun _ => x.2.2)) t.rings
  { t with
    nest := none
    flight := []
    shadow := r.shadow
    rings := Vector.ofFn fun i => { rings[i] with head := r.heads[i] }
    q := { t.q with cmds := r.cmds ++ t.q.cmds, halted := none }
    replay := Replay.reset }

/-- Where a tensor error is logged. -/
def tensorPlace (c : CoreId) : Place := ⟨7, c.val / 256, 0, 0, 0, c.val⟩

/-- TENSOR_REPLAY: an error in the engine's own work sends it back to the marker; where the window cannot be replayed the error is
SV3, charged to the running context, and the status records it. -/
def State.tensorReplay (s : State) (c : CoreId) : State :=
  let k := s.core c
  match k.strand with
  | none => s
  | some st =>
    let pc := match k.tens.nest with
      | some n => n.cmd.pc
      | none => 0
    if k.tens.replay.barred then
      let s := s.log 3 { tensorPlace c with addr := 0 } false { noFlags with term := true } st.ctx pc
      (s.onTensor c fun t => { t with nest := none, flight := [], q := { t.q with halted := some .severitySV3 } }).charge st.ctx
    else (s.log 5 (tensorPlace c) false noFlags 0 pc).onTensor c Tensor.rewind

/-- The sectors of rows of a tile as they are read (R364): corrected; or past correction, for which the engine replays (R380). True where
it does. -/
def State.checkTile (s : State) (c : CoreId) (t : Fin 4) (rows : List Nat) (pc : Word) : State × Bool :=
  let hit : Upset → Bool := fun e => e.core == c && (match e.unit with
    | .tile n r _ => n == t && rows.contains r.val
    | _ => false)
  let (s, bad) := (s.errs.filter hit).foldl (fun (s, bad) e =>
    match e.unit with
    | .tile n r i =>
      let (s, f, x) := s.examine ⟨0x0C, 0, i.val, false⟩ false e.flips (rowSector ((s.core c).tens.tiles[n].rows[r]) i)
      let s := s.setErr c e.unit []
      if f.sev = .clean ∨ f.sev = .sv0 then
        let s := if f.sev = .sv0 then s.log 0 (e.unit.place c) false noFlags 0 pc else s
        (s.onTensor c fun k => k.onTile n fun y => { y with rows := y.rows.set r (setRowSector y.rows[r] i x) }, bad)
      else (s, true)
    | _ => (s, bad)) (s, false)
  (if bad then s.tensorReplay c else s, bad)

/-! ## KSTEP_LAND, NEST_COMPLETE (R276) -/

/-- What is due lands: a sum enters its tile, a clear applies, four rows become final. -/
def Tensor.land (t : Tensor) (f : Flight) : Tensor :=
  let t := { t with flight := t.flight.erase f }
  match f.op with
  | .add a b live => t.onTile f.tile fun x => { x with rows := kstepTile a b live x.rows }
  | .clear => t.onTile f.tile fun x => { x with rows := .replicate 32 0 }
  | .final => t.onTile f.tile fun x => { x with wm := min 32 (x.wm + 4) }

/-- KSTEP_LAND: the first in flight whose time has come, the earliest due first. -/
def State.kstepLand (s : State) (c : CoreId) : State :=
  let fl := (s.core c).tens.flight
  match fl.find? fun f => fl.all fun g => decide (f.due ≤ g.due) with
  | none => s
  | some f =>
    if s.clkOf c < f.due then s
    else
      match f.op with
      | .add _ _ _ =>
        match s.checkTile c f.tile (List.range 32) 0 with
        | (s, true) => s
        | (s, false) => s.onTensor c fun t => t.land f
      | _ => s.onTensor c fun t => t.land f

def execKstepLand (c : CoreId) (s : State) : Out := .next (s.kstepLand c)

/-- NEST_COMPLETE: when the nest has run to its end and nothing is in flight, its hitch receives its arrival. -/
def State.nestComplete (s : State) (c : CoreId) : State :=
  match (s.core c).tens.nest with
  | none => s
  | some n =>
    if s.clkOf c < n.next ∨ !s.timeFor n.cmd then s
    else
      match s.runNest c n with
      | (s, .fault cause, n) => s.nestFault c n cause
      | (s, .done, n) =>
        if (s.core c).tens.flight.isEmpty then (s.onTensor c fun t => { t.allArrived with nest := none }).arriveOnce c n.cmd else s
      | (s, _, _) => s

def execNestComplete (c : CoreId) (s : State) : Out := .next (s.nestComplete c)

/-! ## The command queue (R267, R279) -/

def tensIssue (i : Instr) (o : CCmd) (s : State) : State :=
  issueCmd i o 8 (·.tens.q) (fun e k => k.onTensor fun t => { t with q := e }) s

def execRcfg (o : CCmd) (s : State) : Out := .next (tensIssue (.rcfg o) o s)
def execTcfg (o : CCmd) (s : State) : Out := .next (tensIssue (.tcfg o) o s)
def execTgo (o : CCmd) (s : State) : Out := .next (tensIssue (.tgo o) o s)

/-- A command has executed: it leaves the queue and joins the replay's window, which a tsm command begins anew. -/
def Tensor.executed (t : Tensor) (m : EngCmd) : Tensor :=
  let t := { t with q := t.q.pop }
  if m.f.tsm then { t with replay := ⟨[m], 0, [], t.rings.map (·.head), t.shadow, false⟩ }
  else
    let cs := t.replay.cmds ++ [m]
    { t with replay := { t.replay with cmds := cs.drop (cs.length - 64) } }

/-- What is wrong with the rings of a TGO (R262, R279); reduced service takes BF16 nests alone (R413). -/
def tgoFault (reduced : Bool) (a b : Ring) : Option Cause :=
  if a.count = 0 ∨ b.count = 0 then some .ringNotConfigured
  else if reduced && (a.fmt != 0x0B || b.fmt != 0x0B) then some .tensorFormat
  else if a.role || !b.role || a.tf.kind != b.tf.kind || (a.tf.asym && b.tf.asym) then some .tensorFormat
  else none

/-- Ring fields of a command. -/
def ringA (o : CCmd) : Fin 8 := (o.imm.extractLsb' 0 3).toFin
def ringB (o : CCmd) : Fin 8 := (o.imm.extractLsb' 3 3).toFin

/-- Whether a running nest names a ring. -/
def Tensor.names (t : Tensor) (r : Fin 8) : Bool := t.nest.any fun n => n.ringA == r || n.ringB == r

/-- The rows that a core's strand claims. -/
def Core.claimed (k : Core) : Nat := (k.strand.map (·.rows)).getD 0

/-- A GATHER that has claimed a slot of a ring and not filled it (R310). -/
def EngCmd.fills (m : EngCmd) (ring : Fin 8) : Bool :=
  match m.op with
  | .gather _ => m.aux != 0 && m.shape.ring == ring.val
  | _ => false

/-- TENSOR_COMMAND_EXECUTE: the head of the queue executes once its waits are over. -/
def State.tensorExecute (s : State) (c : CoreId) : State :=
  let k := s.core c
  let t := k.tens
  match t.q.halted, t.q.cmds with
  | none, m :: _ =>
    if s.mismatch m || t.q.frozen.isSome then s
    else match m.op with
    | .tcfg o =>
      if lvBad m.a then s.headFault c m .reservedOperand
      else s.onTensor c fun t => Tensor.executed
        { t with shadow := if h : o.imm.toNat < 6 then t.shadow.set o.imm.toNat m.a else t.shadow } m
    | .rcfg o =>
      let n := ringA o
      if t.names n || t.rings[n].coming != 0 || k.gath.cmds.any (fun g => g.fills n) then s
      else
        match ringFault t.rings n m.a k.claimed with
        | some cause => s.headFault c m cause
        | none => s.onTensor c fun t => Tensor.executed { t with rings := t.rings.set n (Ring.make m.a) } m
    | .tgo o =>
      if t.nest.isSome then s
      else
        match tgoFault s.reduced t.rings[ringA o] t.rings[ringB o] with
        | some cause => s.headFault c m cause
        | none =>
          let n : Nest := ⟨ringA o, ringB o, [], .enter, 0, 0, (o.imm.extractLsb' 6 2).toFin, m, s.clkOf c + 2⟩
          s.onTensor c fun t => Tensor.executed { t with active := t.shadow, nest := some n } m
    | _ => s
  | _, _ => s

def execTensorCommandExecute (c : CoreId) (s : State) : Out := .next (s.tensorExecute c)

/-- TWAIT (R279, R280). -/
def execTwait (o : CCmd) (s : State) : Out :=
  let t := s.here.tens
  match t.q.halted with
  | some cause => .next (s.execTrap .tensorFault (cause.code.setWidth 64))
  | none => if t.q.cmds.isEmpty && t.nest.isNone then .next (finishAct o s) else .next (s.block .other)

/-! ## TSTAT (R281) -/

/-- The stall code. -/
def Tensor.stall (t : Tensor) (bounds : Vector Word 8) (clk : Nat) : Nat :=
  if t.q.halted.isSome then 4
  else
    match t.nest with
    | none => 0
    | some n =>
      match Tensor.advance bounds clk nestFuel t n with
      | (_, _, .wait x) => x
      | (t, n, .kstep) => (match t.ready n with
        | .error (.wait x) => x
        | _ => 0)
      | _ => 0

/-- The status word. -/
def Tensor.status (t : Tensor) (bounds : Vector Word 8) (clk : Nat) : Word :=
  let cause := match t.q.halted with
    | some c => c.code.toNat
    | none => 0
  let wms := (List.finRange 4).foldl (fun x i => x + t.tiles[i].wm * 2 ^ (12 + 6 * i.val)) 0
  let held := (List.finRange 4).foldl (fun x i => x + bit t.tiles[i].held (8 + i.val)) 0
  BitVec.ofNat 64 (cause * 2 ^ 55 + bit t.q.halted.isSome 54 + wms + held + t.stall bounds clk * 2 ^ 5 + bit t.nest.isSome 4 +
    t.q.cmds.length % 16)

/-- TSTAT: blocks while rq is full. -/
def execTstat (o : CCmd) (s : State) : Out :=
  if !s.here.rqRoom then .next (s.block .other)
  else .next (finishAct o (s.mod fun k => k.reply o.tag (k.tens.status k.bounds s.clk)))

end Sys2Proof.Machine
end

