-- ==== Sys2Proof/Machine/Cutter.lean ====
section
/-! DEFINITION. The tile cutter (R284-R301): operands and their live maps, TCUT with its resumption, TFOL, BGET and BSET. -/

namespace Sys2Proof.Machine

/-! ## Operands (R284, R285, R287) -/

/-- An operand of a cut: map address, row base, row pitch, window of coordinates, lines, and the ring that receives it. -/
structure CutOp where
  map   : Word
  rows  : Word
  pitch : Word
  lo    : Nat
  hi    : Nat
  first : Nat
  lv    : Nat
  fmt   : Layout
  w     : Nat
  ring  : Fin 8

/-- Formats of a ring that the cutter fills. -/
def cutFmt (c : Layout) : Bool := c == 0x08 || c == 0x09 || c == 0x01 || c == 0x0A || c == 0x0B

/-- The operand that a shape and base describe, with the checks of R285 and R287. -/
def State.cutOp (s : State) (base : Fin 32) (sh : Fin 16) (off : BitVec 32) : Except Cause CutOp :=
  let S := s.here.shape sh
  let n : Fin 8 := (S.ring.extractLsb' 0 3).toFin
  let r := s.here.ring n
  let lo := (S[5].extractLsb' 0 24).toNat
  let hi := (S[5].extractLsb' 24 24).toNat
  let first := (S[6].extractLsb' 0 24).toNat
  let lines := (S[6].extractLsb' 24 24).toNat
  let lv := min r.lines (lines - first)
  if S.bad || S[5].extractLsb' 48 16 != 0 || S[6].extractLsb' 48 16 != 0 || decide (8 ≤ S.ring.toNat) then .error .reservedOperand
  else if hi < lo ∨ lines ≤ first then .error .reservedOperand
  else if r.count = 0 then .error .ringNotConfigured
  else if !r.ix || decide (r.ks < 2) || decide (6 < r.ks) then .error .reservedOperand
  else if !cutFmt r.fmt then .error .tensorFormat
  else if 2048 < (first + lv) * r.tf.w ∨ (S.code ≠ 0 ∧ S.code ≠ r.fmt) then .error .reservedOperand
  else .ok ⟨S[0] + s.reg base + off.signExtend 64, S[3], S.d 1, lo, hi, first, lv, r.fmt, r.tf.w, n⟩

/-! ## Live maps (R284, R51, R52, R163) -/

/-- What has been read of a map: its kind; the page or block at hand with its header row; the capacity of block 0; the next entry of
a run list, where the last run ended, the run at hand, and whether the list has ended. -/
structure LiveMap where
  kind : Option Layout
  unit : Option Nat
  hdr  : Nat
  cap  : Option Nat
  next : Nat
  run  : Nat × Nat
  stop : Bool

def LiveMap.new : LiveMap := ⟨none, none, 0, none, 0, (0, 0), false⟩

/-- Who reads for the cutter: LD of a core. -/
structure Cutting where
  core : CoreId
  who  : Asker
  sup  : Bool

/-- A read of the cutter; what it classes is noted for LD (R375). -/
def State.cutRead (s : State) (u : Cutting) (va : Word) (n : Nat) : State × Except Stop Got :=
  match s.readAt u.core u.who u.sup va n with
  | (s, .error e) => (s, .error e)
  | (s, .ok g) => (s.noteSev u.core .ld g.cls, .ok g)

def rowAddr (va : Word) : Word := va &&& ~~~0xFF#64

/-- The first byte of page p of a KVPG operand: its header is row 0 of the 64 KiB page there (R51). -/
def CutOp.pageVa (o : CutOp) (p : Nat) : Word := (o.map + BitVec.ofNat 64 p * o.pitch) &&& ~~~0xFFFF#64

/-- The header of page p at hand. -/
def State.kvHeader (s : State) (u : Cutting) (o : CutOp) (m : LiveMap) (p : Nat) : State × Except Stop LiveMap :=
  if m.unit = some p then (s, .ok m)
  else
    let va := o.pageVa p
    match s.cutRead u va 256 with
    | (s, .error e) => (s, .error e)
    | (s, .ok g) =>
      if g.page ≠ 0x1A then (s, .error (.trap .layoutMismatch va))
      else if kvBad g.x then (s, .error (.trap .badBlockHeader va))
      else (s, .ok { m with unit := some p, hdr := g.x })

/-- The header and bitmask of a BMV block of the map; its packed values are not read (R50, R284). -/
def State.mapBlock (s : State) (u : Cutting) (va : Word) : State × Except Stop Nat :=
  match s.cutRead u va 72 with
  | (s, .error e) => (s, .error e)
  | (s, .ok g) =>
    if !isBmv g.page then (s, .error (.trap .layoutMismatch va))
    else if bmvBad g.page g.x then (s, .error (.trap .badBlockHeader va))
    else (s, .ok g.x)

def State.bmvHeader (s : State) (u : Cutting) (o : CutOp) (m : LiveMap) (b : Nat) : State × Except Stop LiveMap :=
  if m.unit = some b then (s, .ok m)
  else
    let base := rowAddr o.map
    let cap : State × Except Stop Nat := match m.cap with
      | some c => (s, .ok c)
      | none => match s.mapBlock u base with
        | (s, .error e) => (s, .error e)
        | (s, .ok x) => (s, .ok (bmvCap x))
    match cap with
    | (s, .error e) => (s, .error e)
    | (s, .ok c) =>
      match s.mapBlock u (base + BitVec.ofNat 64 (b * 256 * c)) with
      | (s, .error e) => (s, .error e)
      | (s, .ok x) => (s, .ok { m with unit := some b, hdr := x, cap := some c })

/-- Runs read until one ends beyond a coordinate, or the list ends (R52). The entries are read at the byte address as given, also where that
is not 8-aligned; one across the end of a page by the translation of its first byte (DESIGN CHOICE, log 43). -/
def State.runsTo (s : State) (u : Cutting) (o : CutOp) (k : Nat) : Nat → LiveMap → State × Except Stop LiveMap
  | 0, m => (s, .ok m)
  | fuel + 1, m =>
    if m.stop || decide (k < m.run.2) then (s, .ok m)
    else
      let va := o.map + BitVec.ofNat 64 (8 * m.next)
      match s.cutRead u va 8 with
      | (s, .error e) => (s, .error e)
      | (s, .ok g) =>
        let first := fieldAt g.x 0 32
        let len := fieldAt g.x 32 16
        if g.page ≠ 0x14 then (s, .error (.trap .layoutMismatch va))
        else if g.x >>> 48 ≠ 0 then (s, .error (.trap .badBlockHeader va))
        else if len = 0 then (s, .ok { m with stop := true })
        else if first < m.run.2 then (s, .error (.trap .badBlockHeader va))
        else s.runsTo u o k fuel { m with next := m.next + 1, run := (first, first + len) }

/-- The layout of the page at the map address decides the operand's kind. -/
def State.cutKind (s : State) (u : Cutting) (o : CutOp) (m : LiveMap) : State × Except Stop (Layout × LiveMap) :=
  match m.kind with
  | some c => (s, .ok (c, m))
  | none =>
    match s.reachVa u.core u.who u.sup ⟨true, false, false⟩ o.map with
    | (s, .error e) => (s, .error e)
    | (s, .ok (p, _)) => (s, .ok (pteCode p, { m with kind := some (pteCode p) }))

/-- Live(k). -/
def State.cutLive (s : State) (u : Cutting) (o : CutOp) (m : LiveMap) (k : Nat) : State × Except Stop (Bool × LiveMap) :=
  match s.cutKind u o m with
  | (s, .error e) => (s, .error e)
  | (s, .ok (kind, m)) =>
    if kind = 0x1A then
      match s.kvHeader u o m (k / 255) with
      | (s, .error e) => (s, .error e)
      | (s, .ok m) => (s, .ok (kvLive m.hdr (k % 255), m))
    else if kind = 0x14 then
      match s.runsTo u o k (2 ^ 24) m with
      | (s, .error e) => (s, .error e)
      | (s, .ok m) => (s, .ok (!m.stop && decide (m.run.1 ≤ k) && decide (k < m.run.2), m))
    else if isBmv kind then
      match s.bmvHeader u o m (k / 512) with
      | (s, .error e) => (s, .error e)
      | (s, .ok m) => (s, .ok (decide (k % 512 < bmvExtent m.hdr) && fieldAt (bmvMask m.hdr) (k % 512) 1 == 1, m))
    else (s, .ok (true, m))

/-- The elements of the operand's lines in the row of a coordinate, as one number; its map has just been read. The 256-B row in which they
lie is read whole (R284; DEDUCED, log 43). -/
def State.cutRow (s : State) (u : Cutting) (o : CutOp) (m : LiveMap) (k : Nat) : State × Except Stop Nat :=
  let kind := m.kind.getD 0
  let kv := kind == 0x1A
  let va := if kv then o.pageVa (k / 255) + BitVec.ofNat 64 (256 * (k % 255 + 1))
    else (if kind = 0x14 ∨ isBmv kind then o.rows else o.map) + BitVec.ofNat 64 k * o.pitch
  let start := o.first * o.w / 8
  if 2048 < 8 * (va.toNat % 256) + (o.first + o.lv) * o.w then (s, .error (.trap .reservedOperand va))
  else
    match s.cutRead u (rowAddr va) 256 with
    | (s, .error e) => (s, .error e)
    | (s, .ok g) =>
      if (if kv then fieldAt m.hdr 304 8 ≠ o.fmt.toNat else g.page ≠ o.fmt) then (s, .error (.trap .layoutMismatch va))
      else (s, .ok (fieldAt g.x (8 * (va.toNat % 256 + start)) (o.lv * o.w)))

/-! ## Cut slots (R287, R288) -/

/-- A bound word (R286). -/
def boundWord (lo hi n flags : Nat) : Word :=
  BitVec.ofNat 64 (lo % 2 ^ 24 + hi % 2 ^ 24 * 2 ^ 24 + n % 2 ^ 12 * 2 ^ 48 + flags * 2 ^ 60)

def flagLast : Nat := 2
def flagEmpty : Nat := 1

/-- Columns of a sub-tile from a position on: the bits and which are written. -/
def columnBits (w lv first : Nat) (cols : List Nat) : Nat × Nat :=
  cols.zipIdx.foldl (fun (acc : Nat × Nat) c =>
    (List.range lv).foldl (fun (acc : Nat × Nat) j =>
      let p := (24 * j + first + c.2) * w
      (acc.1 + fieldAt c.1 (w * j) w * 2 ^ p, acc.2 + (2 ^ w - 1) * 2 ^ p)) acc) (0, 0)

/-- Columns go to a sub-tile of a slot, from a position on. -/
def State.putColumns (s : State) (c : CoreId) (pc : Word) (r : Ring) (slot sub lv first : Nat) (cols : List Nat) : State :=
  let (b, m) := columnBits r.tf.w lv first cols
  s.mergeRows c (r.subRow slot sub) b m r.fmt pc r.subRows

/-- One entry of the index row of a slot (R288, R291). -/
def State.putEntry (s : State) (c : CoreId) (pc : Word) (r : Ring) (slot n x : Nat) : State :=
  s.mergeRows c (r.indexRow slot) (x % 65536 * 2 ^ (128 + 16 * n)) (65535 * 2 ^ (128 + 16 * n)) 0 pc 1

/-- The index row of a slot with its header (R288), tagged RAW. -/
def State.putIndex (s : State) (c : CoreId) (r : Ring) (slot lo : Nat) (reg : Fin 8) (coords : List Nat) : State :=
  let x := lo % 2 ^ 32 + coords.length * 2 ^ 32 + reg.val * 2 ^ 48 +
    coords.zipIdx.foldl (fun x k => x + (k.1 - lo) % 65536 * 2 ^ (128 + 16 * k.2)) 0
  s.writePad c ⟨r.indexRow slot % 2048, Nat.mod_lt _ (by decide)⟩ 0 0 (BitVec.ofNat 2048 x)

/-- An index row as it stands; none where it is lost. -/
def State.indexBits (s : State) (u : Cutting) (r : Ring) (slot : Nat) : State × Option Nat :=
  match s.readPad u.core ⟨r.indexRow slot % 2048, Nat.mod_lt _ (by decide)⟩ u.who.pc with
  | (s, none) => (s, none)
  | (s, some (d, _)) => (s, some d.toNat)

/-- The first n coordinates of an index row. -/
def entriesOf (x lo n : Nat) : List Nat := (List.range (min 120 n)).map fun i => lo + fieldAt x (128 + 16 * i) 16

/-- lo and the coordinates of an index row by its header; none where the row is lost. -/
def State.getIndex (s : State) (u : Cutting) (r : Ring) (slot : Nat) : State × Option (Nat × List Nat) :=
  match s.indexBits u r slot with
  | (s, none) => (s, none)
  | (s, some x) => (s, some (fieldAt x 0 32, entriesOf x (fieldAt x 0 32) (fieldAt x 32 16)))

/-- A slot with n coordinates: K and line counts, the copy of its bound word. -/
def Slot.cutDone (x : Slot) (ks n lv : Nat) (reg : Fin 8) (b : Word) : Slot :=
  { x with fill := ks, claimed := ks, copy := some (reg, b)
           kv := Vector.ofFn fun (i : Fin 8) => if i.val < ks then min 24 (n - 24 * i.val) else 0
           lv := Vector.ofFn fun (i : Fin 8) => if i.val < ks then lv else 0 }

def State.onRing (s : State) (c : CoreId) (n : Fin 8) (f : Ring → Ring) : State := s.onCore c fun k => k.setRing n (f (k.ring n))
def State.setBound (s : State) (c : CoreId) (n : Fin 8) (w : Word) : State :=
  s.onCore c fun k => { k with bounds := k.bounds.set n w }

/-! ## TCUT (R290-R292) -/

/-- How far a cut has come: next coordinate, lo, coordinates taken. -/
structure CutAt where
  k    : Nat
  lo   : Option Nat
  taken : List Nat

/-- The loop of R291: each live row is written with its index entry, and a completed group is recorded. -/
def State.cutLoop (s : State) (u : Cutting) (o : CutOp) (r : Ring) (slot : Nat) (reg : Fin 8) :
    Nat → LiveMap → CutAt → State × Except Stop CutAt
  | 0, _, a => (s, .ok a)
  | fuel + 1, m, a =>
    let n := a.taken.length
    if 24 * (r.ks - 1) ≤ n ∨ o.hi ≤ a.k ∨ (a.lo.any fun lo => decide (lo + 65536 ≤ a.k)) then (s, .ok a)
    else
      match s.cutLive u o m a.k with
      | (s, .error e) => (s, .error e)
      | (s, .ok (false, m)) => s.cutLoop u o r slot reg fuel m { a with k := a.k + 1 }
      | (s, .ok (true, m)) =>
        match s.cutRow u o m a.k with
        | (s, .error e) => (s, .error e)
        | (s, .ok x) =>
          let lo := a.lo.getD a.k
          let a' : CutAt := ⟨a.k + 1, some lo, a.taken ++ [a.k]⟩
          let s := (s.putColumns u.core u.who.pc r slot (n / 24) o.lv (n % 24) [x]).putEntry u.core u.who.pc r slot n (a.k - lo)
          if (n + 1) % 24 = 0 then
            let w := boundWord lo (a.k + 1) (n + 1) 0
            let s := (s.setBound u.core reg w).onRing u.core o.ring fun r => r.onSlot slot fun x => { x with cword := w }
            s.cutLoop u o r slot reg fuel m a'
          else s.cutLoop u o r slot reg fuel m a'

/-- The slots of a ring in a cut state. -/
def Ring.inCut (r : Ring) (c : CutSt) : List Nat := (List.range r.count).filter fun i => (r.slot i).cut == c

/-- The end of a cut. -/
def State.cutEnd (s : State) (u : Cutting) (o : CutOp) (r : Ring) (slot : Nat) (reg : Fin 8) (hold : Bool) (a : CutAt) : State :=
  let n := a.taken.length
  let lo := a.lo.getD o.hi
  let w := if n = 0 then boundWord o.hi o.hi 0 (flagEmpty + flagLast) else boundWord lo a.k n (if a.k = o.hi then flagLast else 0)
  let s := s.putIndex u.core r slot lo reg a.taken
  (s.setBound u.core reg w).onRing u.core o.ring fun r => r.onSlot slot fun x =>
    { x.cutDone r.ks n o.lv reg w with creg := reg, cut := if hold then .held else .none, full := !hold }

/-- A claimed slot is marked as being cut for a register. -/
def State.cutStart (s : State) (u : Cutting) (o : CutOp) (slot : Nat) (reg : Fin 8) (k : Nat) : State :=
  let w := boundWord k k 0 0
  (s.setBound u.core reg w).onRing u.core o.ring fun r =>
    r.onSlot slot fun x => { x with cut := .cutting, creg := reg, cword := w }

/-- The cut of R291 from a slot that is claimed or found. -/
def State.cutRun (s : State) (u : Cutting) (o : CutOp) (slot : Nat) (reg : Fin 8) (hold : Bool) (a : CutAt) : State :=
  let r := (s.core u.core).ring o.ring
  match s.cutLoop u o r slot reg (o.hi - a.k) .new a with
  | (s, .error e) => s.stop e
  | (s, .ok a) => (s.cutEnd u o r slot reg hold a).retire 8

/-- LD of the current core, for the cutter. -/
def State.cutting (s : State) : Cutting := ⟨s.cur.1, ⟨s.here.ctx, s.me.pc, false⟩, s.me.sup⟩

/-- TCUT; LD's loads in flight, which may yet fault, come first (R174; DESIGN CHOICE, log 10). -/
def State.tcut (s : State) (hold : Bool) (b : Fin 8) (base : Fin 32) (sh : Fin 16) (off : BitVec 32) : State :=
  if s.here.inFlight s.cur.2 ≠ 0 then s.block .other
  else
    match s.cutOp base sh off with
    | .error c => s.execTrap c
    | .ok o =>
      let u := s.cutting
      let r := s.here.ring o.ring
      let w := s.here.bounds[b]
      if o.map.extractLsb' 48 16 ≠ 0 then s.stop (.trap .addressOutOfRange o.map)
      else if hold && !(r.inCut .held).isEmpty then s.execTrap .cutPending
      else
        match (r.inCut .cutting).find? fun i => (r.slot i).creg == b && (r.slot i).cword == w with
        | some slot =>
          let n := bwNnz w
          if n = 0 then s.cutRun u o slot b hold ⟨bwHi w, none, []⟩
          else
            match s.indexBits u r slot with
            | (s, none) => s
            | (s, some x) => s.cutRun u o slot b hold ⟨bwHi w, some (bwLo w), entriesOf x (bwLo w) n⟩
        | none =>
          let r := (r.inCut .cutting).foldl Ring.dropSlot r
          let s := s.mod fun k => k.setRing o.ring r
          if !r.roomWhole then s.block .other
          else
            let (slot, r) := r.claimSlot
            let s := s.mod fun k => (k.setRing o.ring r).noteClaim o.ring slot
            let k := max (bwHi w) o.lo
            (s.cutStart u o slot b k).cutRun u o slot b hold ⟨k, none, []⟩

def execTcut (hold : Bool) (b : Fin 8) (base : Fin 32) (sh : Fin 16) (off : BitVec 32) (s : State) : Out :=
  .next (s.asRequester (unitOfCore s.cur.1) (·.tcut hold b base sh off))

/-! ## TFOL (R293-R295) -/

/-- Members of a list that an operand has live in its window. -/
def State.follow (s : State) (u : Cutting) (o : CutOp) : LiveMap → List Nat → State × Except Stop (List Nat)
  | _, [] => (s, .ok [])
  | m, c :: rest =>
    if c < o.lo ∨ o.hi ≤ c then s.follow u o m rest
    else
      match s.cutLive u o m c with
      | (s, .error e) => (s, .error e)
      | (s, .ok (live, m)) =>
        match s.follow u o m rest with
        | (s, .error e) => (s, .error e)
        | (s, .ok cs) => (s, .ok (if live then c :: cs else cs))

/-- The partner's rows at the kept coordinates. -/
def State.followRows (s : State) (u : Cutting) (o : CutOp) : LiveMap → List Nat → State × Except Stop (List Nat)
  | _, [] => (s, .ok [])
  | m, c :: rest =>
    match s.cutLive u o m c with
    | (s, .error e) => (s, .error e)
    | (s, .ok (_, m)) =>
      match s.cutRow u o m c with
      | (s, .error e) => (s, .error e)
      | (s, .ok x) =>
        match s.followRows u o m rest with
        | (s, .error e) => (s, .error e)
        | (s, .ok xs) => (s, .ok (x :: xs))

/-- Columns written 24 to a sub-tile. -/
def State.putAll (s : State) (c : CoreId) (pc : Word) (r : Ring) (slot lv : Nat) (cols : List Nat) : State :=
  (List.range (r.ks - 1)).foldl (fun s i => s.putColumns c pc r slot i lv 0 ((cols.drop (24 * i)).take 24)) s

/-- Column n of a slot from the bits of its sub-tiles. -/
def columnOf (w lv : Nat) (subs : List Nat) (n : Nat) : Nat :=
  pack w (fun j => fieldAt (subs.getD (n / 24) 0) ((24 * j + n % 24) * w) w) lv

/-- The sub-tiles of a slot read. -/
def State.readSubs (s : State) (u : Cutting) (r : Ring) (slot : Nat) : List Nat → State × Option (List Nat)
  | [] => (s, some [])
  | i :: rest =>
    match s.readRows u.core u.who.pc (r.subRow slot i) (List.range r.subRows) with
    | (s, none) => (s, none)
    | (s, some x) =>
      match s.readSubs u r slot rest with
      | (s, none) => (s, none)
      | (s, some xs) => (s, some (x :: xs))

/-- What TFOL makes of a bound word: kept coordinates, hi, flags. -/
def followWord (w : Word) (list kept : List Nat) (budget : Nat) : List Nat × Nat × Nat :=
  let f := w.toNat >>> 60
  let f := if kept.length < list.length then f ||| 8 else f
  let (kept, hi, f) := if budget < kept.length then (kept.take budget, kept.getD budget 0, (f ||| 4) &&& 13) else (kept, bwHi w, f)
  (kept, hi, if kept.isEmpty then f ||| 1 else f)

/-- The lead slot trimmed to the kept coordinates. -/
def State.trim (s : State) (u : Cutting) (r : Ring) (slot : Nat) (list kept : List Nat) (lo : Nat) (reg : Fin 8) : State × Bool :=
  if kept = list then (s, true)
  else
    match s.readSubs u r slot (List.range (r.ks - 1)) with
    | (s, none) => (s, false)
    | (s, some subs) =>
      let lv := (r.slot slot).lv[0]
      let cols := (list.zipIdx.filter fun c => kept.contains c.1).map fun c => columnOf r.tf.w lv subs c.2
      ((s.putAll u.core u.who.pc r slot lv cols).putIndex u.core r slot lo reg kept, true)

/-- TFOL with its lead slot found and its partner slot claimed. -/
def State.followRun (s : State) (u : Cutting) (o : CutOp) (lead : Fin 8) (ds slot : Nat) (reg : Fin 8) (undo : Ring) : State :=
  let d := (s.core u.core).ring lead
  let r := (s.core u.core).ring o.ring
  let w := (s.core u.core).bounds[reg]
  let back : State → State := fun s => s.onRing u.core o.ring fun _ => undo
  match s.getIndex u d ds with
  | (s, none) => s
  | (s, some (lo, list)) =>
    match s.follow u o .new list with
    | (s, .error e) => (back s).stop e
    | (s, .ok live) =>
      let (kept, hi, f) := followWord w list live (24 * (r.ks - 1))
      match s.followRows u o .new kept with
      | (s, .error e) => (back s).stop e
      | (s, .ok cols) =>
        match s.trim u d ds list kept lo reg with
        | (s, false) => s
        | (s, true) =>
          let s := (s.putAll u.core u.who.pc r slot o.lv cols).putIndex u.core r slot lo reg kept
          let w' := boundWord (bwLo w) hi kept.length f
          let s := s.setBound u.core reg w'
          let s := s.onRing u.core o.ring fun r => r.onSlot slot fun x =>
            { x.cutDone r.ks kept.length o.lv reg w' with full := true }
          let s := s.onRing u.core lead fun r => r.onSlot ds fun x =>
            { x.cutDone r.ks kept.length x.lv[0] reg w' with full := true, cut := .none }
          s.retire 8

/-- TFOL; LD's loads in flight come first, as at TCUT. -/
def State.tfol (s : State) (b : Fin 8) (base : Fin 32) (sh : Fin 16) (ring : Fin 8) (off : BitVec 32) : State :=
  if s.here.inFlight s.cur.2 ≠ 0 then s.block .other
  else
    match s.cutOp base sh off with
    | .error c => s.execTrap c
    | .ok o =>
      let d := s.here.ring ring
      let r := s.here.ring o.ring
      if o.map.extractLsb' 48 16 ≠ 0 then s.stop (.trap .addressOutOfRange o.map)
      else if ring = o.ring ∨ d.role = r.role then s.execTrap .reservedOperand
      else
        match (d.inCut .held).find? fun i => (d.slot i).creg == b with
        | none => s.execTrap .noCutToFollow
        | some ds =>
          if !r.roomWhole then s.block .other
          else
            let (slot, r') := r.claimSlot
            (s.mod fun k => (k.setRing o.ring r').noteClaim o.ring slot).followRun s.cutting o ring ds slot b r

def execTfol (b : Fin 8) (base : Fin 32) (sh : Fin 16) (ring : Fin 8) (off : BitVec 32) (s : State) : Out :=
  .next (s.asRequester (unitOfCore s.cur.1) (·.tfol b base sh ring off))

/-! ## BGET, BSET (R299) -/

def execBget (dst : Fin 32) (b : Fin 8) (s : State) : Out := .next ((s.writeS dst s.here.bounds[b] 1).retire 8)

/-- BSET; what its sequencer has in flight, which may yet fault, comes first (R174; DESIGN CHOICE, log 10). -/
def execBset (b : Fin 8) (src : Fin 32) (s : State) : Out :=
  if s.here.inFlight s.cur.2 ≠ 0 then .next (s.block .other)
  else .next ((s.setBound s.cur.1 b (s.reg src)).retire 8)

end Sys2Proof.Machine
end

