-- ==== Sys2Proof/Machine/Stages.lean ====
section
/-! DEFINITION. Stages: DEFER and DRAIN (R338, R339), the stage command queue (R340), and the checks and the acceptance of a launch
record (R330-R333). -/

namespace Sys2Proof.Machine

/-! ## The launch of a strand -/

/-- The launch whose strand a core runs, as its cluster keeps it. -/
def State.launchAt (s : State) (c : CoreId) : Option Launch :=
  match (s.core c).strand with
  | some st => s.launch (clusterOf c) st.gid
  | none => none

/-- Stages of the launch whose strand a core runs. -/
def State.stageCount (s : State) (c : CoreId) : Nat := ((s.launchAt c).map fun l => l.stages.length).getD 0

/-- A stage's record and queue there. -/
def State.stageRec (s : State) (c : CoreId) (n : Nat) : Option (StageRec × StageQ) := (s.launchAt c).map fun l => (l.stage n, l.queue n)

/-- A stage's queue there changes. -/
def State.onStage (s : State) (c : CoreId) (n : Nat) (f : StageQ → StageQ) : State :=
  match (s.core c).strand with
  | some st => s.onLaunch (clusterOf c) st.gid fun l => l.onQueue n f
  | none => s

/-! ## DEFER (R338) -/

/-- Entries that the strand has reserved in a stage in its current phase. -/
def Core.ownReserved (k : Core) (n : Nat) : Nat :=
  k.fx.foldl (fun x e => match e with
    | .defer m es => if m = n then x + es.length else x
    | .flush _ => x) 0

/-- The entries of the active lanes: token id, address, gate. -/
def Core.deferEntries (k : Core) (m : Mask) (t a g : Fin 64) : List (BitVec 128) :=
  (List.range 256).filterMap fun l =>
    let x : Fin 64 → BitVec 32 := fun n => k.ex.a[n].extractLsb' (32 * l) 32
    if m.getLsbD l then some (x g ++ x (a + 1) ++ x a ++ x t) else none

def execDefer (mask : Fin 8) (stage : Fin 32) (t a g : Fin 64) (s : State) : Out :=
  let c := s.cur.1
  let n := (s.reg stage).toNat
  if s.stageCount c ≤ n then .next (s.execTrap .reservedOperand)
  else
    let es := s.here.deferEntries (s.here.mask mask) t a g
    if es.isEmpty then .next (s.retire 8)
    else
      match s.stageRec c n with
      | none => .next (s.execTrap .reservedOperand)
      | some (r, q) =>
        if r.depth < es.length + s.here.ownReserved n then .next (s.execTrap .deferralOverflow)
        else if r.depth < q.entries.length + q.reserved + es.length then .next (s.block .other)
        else
          let s := s.onStage c n fun q => { q with reserved := q.reserved + es.length }
          .next ((s.mod fun k => { k with fx := k.fx ++ [.defer n es] }).retire 8)

/-! ## DRAIN (R339) -/

/-- What is wrong with the 16 rows of a DRAIN. -/
def State.drainStop (s : State) (off : BitVec 32) : Option Cause :=
  let r := (off.extractLsb' 8 11).toNat
  if off.extractLsb' 26 6 ≠ 0 then some .addressOutOfRange
  else if !(List.range 16).all fun i => decide (r + i < 2048) && s.claimant s.cur.1 (r + i) == some s.here.ctx then some .rowNotClaimed
  else if (List.range 16).any fun i => s.here.rowBusy (r + i) then some .stashRowBusy
  else none

/-- The 16 rows as one number: token ids, addresses, gates of 256 lanes. -/
def drainRows (es : List (BitVec 128)) : Nat :=
  let e : Nat → BitVec 128 := fun i => es.getD i 0xFFFFFFFF
  pack 32 (fun i => (e i).toNat) 256 + pack 64 (fun i => (e i).toNat / 2 ^ 32) 256 * 2 ^ 8192 +
    pack 32 (fun i => (e i).toNat / 2 ^ 96) 256 * 2 ^ 24576

/-- The tag of row i of the 16. -/
def drainTag (i : Nat) : Layout := if i < 4 then 0x19 else if i < 12 then 0 else 0x0C

def State.drainInto (s : State) (c : CoreId) (row : Nat) (x : Nat) : State :=
  (List.range 16).foldl (fun s i =>
    s.writePad c ⟨(row + i) % 2048, Nat.mod_lt _ (by decide)⟩ (drainTag i) 0 (BitVec.ofNat 2048 (x >>> (2048 * i)))) s

/-- Whether a DRAIN waits for entries. -/
def drainWaits (m : DrainMode) (depth o : Nat) (flushed : Bool) : Bool :=
  match m with
  | .full => !flushed && decide (o < min 256 depth)
  | .any => !flushed && o == 0
  | .attempt => false

/-- DRAIN; LD's loads in flight, which may yet fault, come first (R174; DESIGN CHOICE, log 10). -/
def execDrain (dst : Fin 32) (mode : DrainMode) (off : BitVec 32) (s : State) : Out :=
  let c := s.cur.1
  match s.drainStop off with
  | some e => .next (s.execTrap e (off.setWidth 64))
  | none =>
    let st := (s.here.strand.map (·.stage)).getD 0
    let (r, q) := (s.stageRec c st).getD (⟨.replicate 4 0, 0, 0, 0, false⟩, ⟨[], 0, false, 0⟩)
    if drainWaits mode r.depth q.entries.length q.flushed then .next (s.block (.drain mode))
    else if s.here.inFlight s.cur.2 ≠ 0 then .next (s.block .other)
    else
      let n := min 256 q.entries.length
      let last := q.flushed && decide (q.entries.length ≤ 256)
      let s := s.onStage c st fun q => { q with entries := q.entries.drop 256, flushed := q.flushed && !last }
      let s := s.drainInto c (off.extractLsb' 8 11).toNat (drainRows (q.entries.take 256))
      .next ((s.writeS dst (BitVec.ofNat 64 (n + bit last 16)) 1).retire 8)

/-! ## Issue to the stage command queue (R340) -/

def stageIssue (i : Instr) (o : CCmd) (s : State) : State := issueCmd i o 8 (·.stg) (fun e k => { k with stg := e }) s

def stageNo (o : CCmd) : Nat := (o.imm.extractLsb' 0 4).toNat

def execDflush (o : CCmd) (s : State) : Out :=
  if s.stageCount s.cur.1 ≤ stageNo o then .next (s.execTrap .reservedOperand) else .next (stageIssue (.dflush o) o s)

def execStgq (o : CCmd) (s : State) : Out :=
  if s.stageCount s.cur.1 ≤ stageNo o then .next (s.execTrap .reservedOperand) else .next (stageIssue (.stgq o) o s)

def execLenq (o : CCmd) (s : State) : Out := .next (stageIssue (.lenq o) o s)

/-! ## A launch record and its stage table (R330-R333) -/

/-- n bytes at a byte offset. -/
def byteField (x off n : Nat) : Nat := (x >>> (8 * off)) % 2 ^ (8 * n)

/-- The level words in use. -/
def recLevels (x : Nat) : List Word := (List.range (byteField x 7 1)).map fun i => BitVec.ofNat 64 (byteField x (32 + 8 * i) 8)

def levelDomain (w : Word) : Nat := (w.extractLsb' 0 4).toNat
def levelCount (w : Word) : Nat := (w.extractLsb' 8 20).toNat
def levelScope (w : Word) : Nat := (w.extractLsb' 4 4).toNat

/-- Check 1: format, version, reserved fields and ranges. -/
def recFieldsOk (x : Nat) : Bool :=
  byteField x 0 2 == 9 && byteField x 2 2 == 1 && decide (byteField x 4 2 < 1024) && decide (byteField x 6 1 < 8) &&
    decide (1 ≤ byteField x 7 1) && decide (byteField x 7 1 ≤ 8) && byteField x 8 8 % 64 == 0 && decide (1 ≤ byteField x 16 2) &&
    decide (byteField x 16 2 ≤ 16) && decide (byteField x 18 2 ≤ 2048) && decide (byteField x 20 2 ≤ 512) && byteField x 22 2 == 0 &&
    decide (1 ≤ byteField x 24 4) && decide (byteField x 24 4 ≤ 65536) && byteField x 28 4 == 0 && byteField x 96 156 == 0 &&
    byteField x (32 + 8 * byteField x 7 1) (8 * (8 - byteField x 7 1)) == 0

/-- What check 1 finds in a level word in use: its reserved bits and codes (R331). -/
def levelFieldsOk (w : Word) : Bool := w.extractLsb' 28 36 == 0 && decide (levelDomain w ≤ 7) && decide (levelScope w ≤ 5)

/-- Count limit and narrowest scope of a domain (R331). -/
def domainLimit (d : Nat) : Nat := [256, 128, 32, 16, 8, 1, 1024, 1].getD d 0
def domainScope (d : Nat) : Nat := [0, 0, 1, 1, 2, 3, 4, 4].getD d 6

def levelOk (w : Word) : Bool :=
  decide (1 ≤ levelCount w) && decide (levelCount w ≤ domainLimit (levelDomain w)) && decide (domainScope (levelDomain w) ≤ levelScope w)

/-- Levels above a first are wider and no more numerous. -/
def levelsNest : List Word → Bool
  | a :: b :: rest => decide (levelDomain a < levelDomain b) && decide (levelCount b ≤ levelCount a) && levelsNest (b :: rest)
  | _ => true

/-- Clusters that a launch occupies, and its quads in each cluster where it has a level of quads. -/
def clusterCount (ls : List Word) : Nat := ((ls.find? fun w => levelDomain w == 3).map levelCount).getD 1
def quadLevel (ls : List Word) : Option Nat := (ls.find? fun w => levelDomain w == 2).map levelCount

/-- Check 2: the levels obey R331. -/
def recLevelsOk (ls : List Word) : Bool :=
  ls.all levelOk && levelsNest ls && ((ls.all fun w => levelDomain w ≤ 3) || ls.any fun w => levelDomain w == 3)

/-- A stage-table entry (R332); a GVI stage starts its four sequencers at one pc. -/
def stageOf (x : Nat) : StageRec :=
  let gvi := byteField x 40 1 % 2 == 1
  let pc : Nat → Word := fun i => BitVec.ofNat 64 (byteField x (8 * i) 8)
  ⟨if gvi then .replicate 4 (pc 0) else #v[pc 0, pc 1, pc 2, pc 3], byteField x 32 2, byteField x 34 2, byteField x 36 4, gvi⟩

def stageOk (x : Nat) : Bool :=
  let min' := byteField x 32 2
  let max' := byteField x 34 2
  let depth := byteField x 36 4
  decide (min' ≤ 128) && decide (min' ≤ max') && decide (1 ≤ max') && decide (max' ≤ 128) && decide (1 ≤ depth) &&
    decide (depth ≤ 262144) && decide (byteField x 40 1 < 2) && byteField x 41 23 == 0 &&
    (byteField x 40 1 == 0 || byteField x 8 24 == 0)

def depthSum (rs : List StageRec) : Nat := (rs.map (·.depth)).sum

/-- Check 3. -/
def stagesOk (xs : List Nat) : Bool :=
  xs.all stageOk && decide ((xs.map fun x => byteField x 32 2).sum ≤ 128) && decide (depthSum (xs.map stageOf) ≤ 262144)

/-- Check 4: the fixed stages divide evenly among the quads of one cluster, with at most 4 cores in each. -/
def sharesOk (ls : List Word) (rs : List StageRec) : Bool :=
  let fixed := rs.filter StageRec.fixed
  match quadLevel ls with
  | none => true
  | some n =>
    let c := n / clusterCount ls
    n ≤ 1 || fixed.isEmpty ||
      (n % clusterCount ls == 0 && (fixed.all fun r => r.max % c == 0) && decide ((fixed.map fun r => r.max / c).sum ≤ 4))

/-- Depths of the queues that the launches of a cluster hold. -/
def State.depthUsed (s : State) (u : ClusterId) : Nat := (s.clusters[u].launches.map fun l => depthSum l.stages).sum

/-- The clusters that a launch placed from a cluster on occupies (log 19). -/
def spanOf (u : ClusterId) (ls : List Word) : List ClusterId :=
  (List.range (clusterCount ls)).map fun i => ⟨(u.val + i) % 16, Nat.mod_lt _ (by decide)⟩

/-- A refusal: status and failed check (R333). -/
abbrev Refused := Nat × Nat

/-- Checks 1 and 2 of a record, before its stage table is read. -/
def recHead (x : Nat) : Option Refused :=
  if !(recFieldsOk x && (recLevels x).all levelFieldsOk) then some (1, 1) else if !recLevelsOk (recLevels x) then some (1, 2) else none

/-- Checks 3 to 6 of a record with its stage table, for a cluster and a context; `lim` is LENQ's: the highest priority allowed. -/
def State.recRest (s : State) (u : ClusterId) (ctx : Ctx) (lim : Option Nat) (x : Nat) (tab : List Nat) : Option Refused :=
  let ls := recLevels x
  let rs := tab.map stageOf
  let far := (spanOf u ls).any fun v => v.val != 0
  if !stagesOk tab then some (1, 3)
  else if !sharesOk ls rs then some (1, 4)
  else if lim.any fun p => (byteField x 4 2 != 0 && byteField x 4 2 != ctx.toNat) || decide (p < byteField x 6 1) then some (2, 5)
  else if (s.reduced && far) || (spanOf u ls).any fun v => decide (262144 < s.depthUsed v + depthSum rs) then some (3, 6)
  else none

/-- The entry of the context of a record that has passed the other checks (R399); true where it is refused. -/
def State.ctxRefused (s : State) (ctx : Ctx) : State × Bool :=
  let (s, lost) := s.checkCtx ctx 0
  (s, lost || !ctxValid (s.ctxEntry ctx))

/-- A launch enters the lists of its clusters; its number. -/
def State.accept (s : State) (u : ClusterId) (ctx : Ctx) (x : Nat) (tab : List Nat) (group : BitVec 36)
    (hitch : Option (CoreId × Word × Word)) : State × Nat :=
  let rs := tab.map stageOf
  let l : Launch := ⟨s.nextGid, ctx, byteField x 6 1, byteField x 18 2, byteField x 20 2, byteField x 24 4, recLevels x, rs,
    rs.map fun _ => ⟨[], 0, false, 0⟩, false, group, hitch⟩
  let s := (spanOf u l.levels).foldl (fun s v => s.onCluster v fun k => { k with launches := k.launches ++ [l] })
    { s with nextGid := s.nextGid + 1 }
  (s, l.gid)

/-! ## LENQ -/

/-- A reply of LENQ. -/
def lenqReply (number failed status : Nat) : Word := BitVec.ofNat 64 (number % 2 ^ 16 + failed * 2 ^ 16 + status * 2 ^ 60)

/-- The entries of a stage table. -/
def tableEntries (x n : Nat) : List Nat := (List.range n).map fun i => byteField x (64 * i) 64

/-- Priority and group of the launch whose strand a core runs; a strand of no launch has the highest priority. -/
def State.launchPrio (s : State) (c : CoreId) : Nat := ((s.launchAt c).map (·.prio)).getD 7
def State.launchGroup (s : State) (c : CoreId) : BitVec 36 := ((s.launchAt c).map (·.group)).getD 0

/-- What LENQ comes to: its reply, and whether the record is accepted; or it waits for a read (R413), or its context is gone. -/
abbrev LenqOut := State × Option (Word × Bool)

/-- A read of LENQ that gives no bytes: one that waits is no refusal (R340, R413). -/
def lenqStop (s : State) (e : Stop) : LenqOut :=
  match e with
  | .wait _ | .gone => (s, none)
  | .trap _ _ | .violation _ _ => (s, some (lenqReply 0 7 4, false))

/-- LENQ. -/
def State.runLenq (s : State) (c : CoreId) (m : EngCmd) (o : CCmd) : LenqOut :=
  let u : ClusterId := if o.imm.getLsbD 4 then clusterOf c else (o.imm.extractLsb' 0 4).toFin
  match s.readAll c m m.a 256 with
  | (s, .error e) => lenqStop s e
  | (s, .ok x) =>
    match (if m.a.extractLsb' 0 6 ≠ 0 then some (1, 1) else recHead x) with
    | some (st, ck) => (s, some (lenqReply 0 ck st, false))
    | none =>
      let n := byteField x 16 2
      match s.readAll c m (BitVec.ofNat 64 (byteField x 8 8)) (64 * n) with
      | (s, .error e) => lenqStop s e
      | (s, .ok t) =>
        let tab := tableEntries t n
        match s.recRest u m.ctx (some (s.launchPrio c)) x tab with
        | some (st, ck) => (s, some (lenqReply 0 ck st, false))
        | none =>
          match s.ctxRefused m.ctx with
          | (s, true) => (s, some (lenqReply 0 7 4, false))
          | (s, false) =>
          let h := if m.hitch = 0 then none else some (c, m.pc, m.hitch)
          let (s, gid) := s.accept u m.ctx x tab (s.launchGroup c) h
          (s, some (lenqReply (Config.launchNumber gid).toNat 0 0, true))

/-! ## STAGE_COMMAND_EXECUTE (R340) -/

def EngCmd.stageOwes (m : EngCmd) : Bool :=
  match m.op with
  | .dflush _ => false
  | _ => true

/-- The head has had its effect: it leaves once its reply is pushed, and arrives on its hitch, but for an accepted LENQ (`aux`),
whose launch arrives when it ends. -/
def State.stageFinish (s : State) (c : CoreId) : State :=
  match (s.core c).stg.cmds with
  | [] => s
  | m :: _ =>
    if !m.ended || (s.core c).stg.heldUp || (m.stageOwes && !(s.core c).rqRoom) then s
    else
      let s := s.onCore c fun k =>
        let k := { k with stg := k.stg.pop }
        match m.reply with
        | some x => k.reply m.f.tag x
        | none => k
      if m.aux = 0 then s.arriveCmd c m else s

/-- The reply of STGQ. -/
def State.stgqReply (s : State) (c : CoreId) (n : Nat) : Word :=
  match (s.core c).strand, s.stageRec c n with
  | some st, some (_, q) =>
    BitVec.ofNat 64 (q.entries.length % 2 ^ 19 + s.stageN (clusterOf c) st.gid n % 2 ^ 8 * 2 ^ 19 + bit q.flushed 27)
  | _, _ => 0

/-- The command as it stands goes back to the head of its queue, where that still holds it. -/
def State.putStage (s : State) (c : CoreId) (m : EngCmd) : State :=
  s.onCore c fun k => { k with stg := k.stg.onHead fun x => if x.pc == m.pc && x.ctx == m.ctx then m else x }

/-- The head of the stage command queue runs; it completes at once where its reply finds room. A DFLUSH belongs to the phase in which it
runs (R337, R340; DEDUCED, log 85). -/
def State.stageExecute (s : State) (c : CoreId) : State :=
  match (s.core c).stg.cmds with
  | [] => s
  | m :: _ =>
    if m.ended then s.stageFinish c
    else if s.mismatch m || !s.timeFor m || (s.core c).stg.frozen.isSome then s
    else
      let done : State → Option Word → Bool → State := fun s r kept =>
        (s.putStage c { m with begun := true, ended := true, reply := r, aux := bit kept 0 }).stageFinish c
      match m.op with
      | .dflush o => done (s.onCore c fun k => { k with fx := k.fx ++ [.flush (stageNo o)] }) none false
      | .stgq o => done s (some (s.stgqReply c (stageNo o))) false
      | .lenq o =>
        match s.runLenq c m o with
        | (s, some (r, kept)) => done s (some r) kept
        | (s, none) => s
      | _ => s

def execStageCommandExecute (c : CoreId) (s : State) : Out := .next (s.asRequester (engineOf c) (·.stageExecute c))

end Sys2Proof.Machine
end

