-- ==== Sys2Proof/Machine/Sched.lean ====
section
/-! DEFINITION. The cluster scheduler: the start of launches and strands (R334, R342), and the interval with its starvation guard, its
draws and its moves (R341-R344), the forecast (R347) and the throttle (R418). -/

namespace Sys2Proof.Machine

/-! ## The head of the launch list (R334) -/

/-- The first of a list under an order; the earliest where several are. -/
def firstBy {α : Type} (before : α → α → Bool) : List α → Option α
  | [] => none
  | x :: xs =>
    match firstBy before xs with
    | none => some x
    | some y => if before y x then some y else some x

/-- The waiting launch of highest priority, accepted first. -/
def Cluster.head (k : Cluster) : Option Launch :=
  firstBy (fun a b => decide (b.prio < a.prio) || (a.prio == b.prio && decide (a.gid < b.gid))) (k.launches.filter fun l => !l.running)

/-! ## Placement (R334) -/

/-- Stages with their numbers. -/
def Launch.numbered (l : Launch) : List (StageRec × Nat) := l.stages.zipIdx

/-- Initial cores of a stage: max(min, 1) of stage 0, min of another. -/
def initialCores (r : StageRec) (n : Nat) : Nat := if n = 0 then max r.min 1 else r.min

/-- Cores dealt to stages in order, each the number it wants. -/
def deal : List (Nat × Nat) → List CoreId → List (Nat × CoreId)
  | [], _ => []
  | (n, want) :: rest, cs => (cs.take want).map (fun c => (n, c)) ++ deal rest (cs.drop want)

def wanted (l : List (Nat × Nat)) : Nat := (l.map (·.2)).sum

/-- The instances of D with the free cores of each, and how many the launch occupies. -/
def Launch.instances (l : Launch) (u : ClusterId) (free : List CoreId) : List (List CoreId) × Nat :=
  match quadLevel l.levels with
  | some n => ((List.range 32).map fun i => free.filter fun c => c.val / 4 == u.val * 32 + i, n / clusterCount l.levels)
  | none => ([free], 1)

/-- The stages' cores among free cores of a cluster, in ascending number; none where the launch finds no place. -/
def Launch.place (l : Launch) (u : ClusterId) (free : List CoreId) : Option (List (Nat × CoreId)) :=
  let fixed := l.numbered.filter fun x => x.1.fixed
  let (insts, n) := l.instances u free
  let share := fixed.map fun x => (x.2, x.1.max / n)
  let chosen := if fixed.isEmpty then [] else (insts.filter fun cs => decide (wanted share ≤ cs.length)).take n
  if !fixed.isEmpty && decide (chosen.length < n) then none
  else
    let first := chosen.flatMap fun cs => deal share cs
    let rest := free.filter fun c => !(first.any fun x => x.2 == c)
    let others := (l.numbered.filter fun x => !x.1.fixed).map fun x => (x.2, initialCores x.1 x.2)
    if rest.length < wanted others then none else some (first ++ deal others rest)

/-- The cores of a cluster that run nothing. -/
def State.idleCores (s : State) (u : ClusterId) : List CoreId := (coresOf u).filter fun c => (s.core c).idle

/-- Least cores of the stages of a launch. -/
def Launch.floor (l : Launch) : Nat := (l.stages.map fun r => max r.min 1).sum

/-- The pipelines that run in a cluster leave room for the least cores of a launch. -/
def Cluster.floorOk (k : Cluster) (l : Launch) : Bool :=
  decide (((k.launches.filter fun x => x.running).map Launch.floor).sum + l.floor ≤ 128)

/-- The placement of a cluster's head, where it can start there. -/
def State.canStart (s : State) (u : ClusterId) (gid : Nat) : Option (List (Nat × CoreId)) :=
  match s.clusters[u].head with
  | some l => if l.gid == gid && s.clusters[u].floorOk l then l.place u (s.idleCores u) else none
  | none => none

/-- The clusters of a launch. -/
def State.clustersOf (s : State) (gid : Nat) : List ClusterId := (List.finRange 16).filter fun u => (s.launch u gid).isSome

/-! ## LAUNCH_START, STRAND_START -/

/-- A launch starts on the cores placed for it. -/
def State.startOn (s : State) (u : ClusterId) (gid : Nat) (on : List (Nat × CoreId)) : State :=
  let s := s.onLaunch u gid fun l => { l with running := true }
  match s.launch u gid with
  | some l => on.foldl (fun s x => s.startStrand x.2 l x.1) s
  | none => s

/-- LAUNCH_START: the head starts, in every cluster of the launch at once, when each can place it (log 19). -/
def State.launchStart (s : State) (u : ClusterId) : State :=
  match s.clusters[u].head with
  | none => s
  | some l =>
    let us := s.clustersOf l.gid
    if s.mgst < 3 || us.any fun v => (s.canStart v l.gid).isNone then s
    else us.foldl (fun s v => s.startOn v l.gid ((s.canStart v l.gid).getD [])) s

def execLaunchStart (u : ClusterId) (s : State) : Out := .next (s.launchStart u)

/-- STRAND_START: a core that a move has freed, or that was idle, starts the receiving stage. -/
def State.strandStart (s : State) (c : CoreId) : State :=
  match (s.core c).startTo with
  | none => s
  | some (gid, n) =>
    match s.launch (clusterOf c) gid with
    | some l => s.startStrand c l n
    | none => s.onCore c fun k => { k with startTo := none }

def execStrandStart (c : CoreId) (s : State) : Out := .next (s.strandStart c)

/-! ## The snapshot of an interval (R341) -/

/-- A stage of a running pipeline: launch, priority, number, record, entries at the start of the interval. -/
structure Seen where
  gid   : Nat
  prio  : Nat
  n     : Nat
  rec'  : StageRec
  o     : Nat
  starve : Nat
  deriving DecidableEq, Repr

/-- The stages of a cluster's running pipelines, by stage number and then by acceptance. -/
def State.snapshot (s : State) (u : ClusterId) : List Seen :=
  let all := (s.clusters[u].launches.filter fun l => l.running).flatMap fun l =>
    l.numbered.map fun x => (⟨l.gid, l.prio, x.2, x.1, (l.queue x.2).entries.length, (l.queue x.2).starve⟩ : Seen)
  (List.range 16).flatMap fun i => all.filter fun x => x.n == i

/-- n of a stage as it now stands. -/
def State.coresOn (s : State) (u : ClusterId) (x : Seen) : Nat := s.stageN u x.gid x.n

/-- P of one stage is less than P of another, by cross multiplication. -/
def State.lessP (s : State) (u : ClusterId) (a b : Seen) : Bool :=
  decide (a.o * max (s.coresOn u b) 1 < b.o * max (s.coresOn u a) 1)

/-- The core that a stage gives: its highest-numbered that no move is committed from; one that YIELD has given back counts to the stage
no more (R341, R354). -/
def State.donorCore (s : State) (u : ClusterId) (x : Seen) : Option CoreId := (s.stageCores u x.gid x.n).getLast?

/-- Stages that can give a core. -/
def State.donors (s : State) (u : ClusterId) (l : List Seen) : List Seen :=
  l.filter fun x => !x.rec'.fixed && decide (x.rec'.min < s.coresOn u x) && (s.donorCore u x).isSome

/-- The donor of least P. -/
def State.leastP (s : State) (u : ClusterId) (l : List Seen) : Option Seen := firstBy (s.lessP u) l

/-- A move, or a release for a waiting launch, is committed; a pre-emption that waits on the core goes first (R355). -/
def State.commitCore (s : State) (c : CoreId) (what : Commit) (why : Reason) : State :=
  s.onCore c fun k => { k with commit := some what, req := if k.req == some .preempt then k.req else some why }

/-- An idle core goes to a stage. -/
def State.sendIdle (s : State) (c : CoreId) (x : Seen) : State := s.onCore c fun k => { k with startTo := some (x.gid, x.n) }

/-- Moves and draws of a cluster that are committed and still wait. -/
def State.waitingMoves (s : State) (u : ClusterId) : Nat :=
  ((coresOf u).filter fun c => match (s.core c).commit with
    | some (.move _ _) | some (.draw _) => true
    | _ => false).length

/-! ## The starvation guard (R343) -/

/-- The stage with most cores above its min in the pipeline of lowest priority that has such a stage. -/
def State.spareStage (s : State) (u : ClusterId) (l : List Seen) : Option Seen :=
  let ds := s.donors u l
  match firstBy (fun a b => decide (a < b)) (ds.map (·.prio)) with
  | none => none
  | some p =>
    firstBy (fun a b => decide (s.coresOn u b - b.rec'.min < s.coresOn u a - a.rec'.min)) (ds.filter fun x => x.prio == p)

def State.setStarve (s : State) (u : ClusterId) (x : Seen) (n : Nat) : State :=
  s.onLaunch u x.gid fun l => l.onQueue x.n fun q => { q with starve := n }

/-- The count of starving intervals goes on. -/
def State.countStarve (s : State) (u : ClusterId) (x : Seen) : State :=
  s.setStarve u x (if 0 < x.o && s.coresOn u x == 0 then x.starve + 1 else 0)

/-- A starving stage receives a core; the budget left. -/
def State.guardStage (s : State) (u : ClusterId) (all : List Seen) (x : Seen) (budget : Nat) : State × Nat :=
  if budget = 0 || x.rec'.fixed || x.o = 0 || s.coresOn u x ≠ 0 || x.starve < 3 then (s, budget)
  else
    match s.idleCores u with
    | c :: _ => ((s.sendIdle c x).setStarve u x 0, budget - 1)
    | [] =>
      match s.spareStage u all with
      | none => (s, budget)
      | some d =>
        match s.donorCore u d with
        | none => (s, budget)
        | some c => ((s.commitCore c (.move x.gid x.n) .move).setStarve u x 0, budget - 1)

/-! ## Draws for a waiting launch (R334) -/

/-- The cores that count toward the start of a waiting launch: idle, or drawn for it. -/
def State.drawn (s : State) (u : ClusterId) (gid : Nat) : List CoreId :=
  (coresOf u).filter fun c => (s.core c).idle || (s.core c).commit == some (.draw gid)

/-- The head draws while it cannot start and some running pipeline has a lower priority. -/
def State.drawing (s : State) (u : ClusterId) : Option Launch :=
  match s.clusters[u].head with
  | none => none
  | some l =>
    if (s.clustersOf l.gid).any (fun v => (s.canStart v l.gid).isNone) &&
        s.clusters[u].launches.any fun x => x.running && decide (x.prio < l.prio) then some l else none

def State.draw (s : State) (u : ClusterId) (all : List Seen) (l : Launch) : Nat → State × Nat
  | 0 => (s, 0)
  | budget + 1 =>
    if (l.place u (s.drawn u l.gid)).isSome then (s, budget + 1)
    else
      match s.leastP u (s.donors u (all.filter fun x => x.prio < l.prio)) with
      | none => (s, budget + 1)
      | some d =>
        match s.donorCore u d with
        | none => (s, budget + 1)
        | some c => (s.commitCore c (.draw l.gid) .release).draw u all l budget

/-! ## The moves (R341) -/

/-- The receiver: of greatest P, below its max, with entries. -/
def State.receiver (s : State) (u : ClusterId) (all : List Seen) : Option Seen :=
  firstBy (fun a b => s.lessP u b a)
    (all.filter fun x => !x.rec'.fixed && decide (s.coresOn u x < x.rec'.max) && decide (0 < x.o))

/-- P(R) < 2 P(D) + 1. -/
def State.tooClose (s : State) (u : ClusterId) (r d : Seen) : Bool :=
  let nr := max (s.coresOn u r) 1
  let nd := max (s.coresOn u d) 1
  decide (r.o * nd < 2 * d.o * nr + nr * nd)

/-- Moves within the budget; while a launch draws, idle cores stay idle. -/
def State.moves (s : State) (u : ClusterId) (all : List Seen) (drawing : Bool) : Nat → State
  | 0 => s
  | budget + 1 =>
    match s.receiver u all with
    | none => s
    | some r =>
      match (if drawing || r.o < max (s.coresOn u r) 1 then [] else s.idleCores u) with
      | c :: _ => (s.sendIdle c r).moves u all drawing budget
      | [] =>
        match s.leastP u (s.donors u (all.filter fun x => x.prio ≤ r.prio && !(x.gid == r.gid && x.n == r.n))) with
        | none => s
        | some d =>
          if s.tooClose u r d then s
          else
            match s.donorCore u d with
            | none => s
            | some c => (s.commitCore c (.move r.gid r.n) .move).moves u all drawing budget

/-! ## Forecast and throttle (R347, R418) -/

/-- The forecast of a cluster. -/
def State.forecast (s : State) (u : ClusterId) (all : List Seen) : Word :=
  let cores := (all.map fun x => min x.rec'.max (s.coresOn u x + (x.o + 255) / 256)).sum
  let waiting := (all.map (·.o)).sum
  BitVec.ofNat 64 (min 128 cores + min waiting (2 ^ 24 - 1) * 2 ^ 8)

/-- Core 0 of a cluster. -/
def firstCore (u : ClusterId) : CoreId := ⟨128 * u.val, by omega⟩

/-- Some gang instance has cores in both clusters: one of a launch that runs in both, at a level of the die or wider. -/
def State.gangJoins (s : State) (u v : ClusterId) : Bool :=
  u == v || s.clusters[u].launches.any fun l => l.running && l.stages.any StageRec.fixed && (s.launch v l.gid).isSome &&
    l.levels.any fun w => decide (4 ≤ levelDomain w) && sameInstance (levelDomain w) (firstCore u) (firstCore v)

/-- Clusters that change their level with a cluster: in gang mode those that gang instances join to it, by way of others too. -/
def State.levelGroup (s : State) (u : ClusterId) : List ClusterId :=
  if s.pwmode.getLsbD 0 then
    (List.range 16).foldl (fun us _ => (List.finRange 16).filter fun v => us.any fun x => s.gangJoins x v) [u]
  else [u]

/-- The level chosen for a cluster, which a thermal hold keeps at 3 (R418, R419). A change of the power loop's level since its last boundary
takes effect, and in gang mode the loop's level holds; else, in forecast mode, Lovage chooses (DEDUCED, log 86). -/
def State.chosen (s : State) (u : ClusterId) : Fin 4 :=
  if s.mg.thot then 3
  else if s.pwmode.getLsbD 0 || s.mg.level != s.clusters[u].took then s.mg.level
  else Config.clusterLevel s.afc[u] s.mg.pwnow

/-- The highest level chosen for the clusters that change together takes effect in all of them. -/
def State.throttle (s : State) (u : ClusterId) : State :=
  let us := s.levelGroup u
  let level := us.foldl (fun x v => max x (s.chosen v)) 0
  us.foldl (fun s v => s.onCluster v fun k => { k with level := level, took := s.mg.level }) s

/-! ## SCHED_INTERVAL -/

/-- An interval of a cluster, once its clk has come. -/
def State.interval (s : State) (u : ClusterId) : State :=
  if s.clusters[u].clk < s.clusters[u].nextInt then s
  else
    let s := s.onCluster u fun k => { k with nextInt := k.nextInt + 2100 }
    let all := s.snapshot u
    let s : State := if s.pwmode.getLsbD 0 then s else { s with afc := s.afc.set u (s.forecast u all) }
    let s := s.throttle u
    let budget := 8 - s.waitingMoves u
    let s := all.foldl (fun s x => s.countStarve u x) s
    let (s, budget) := all.foldl (fun r x => r.1.guardStage u all x r.2) (s, budget)
    match s.drawing u with
    | some l =>
      let (s, budget) := s.draw u all l budget
      s.moves u all true budget
    | none => s.moves u all false budget

def execSchedInterval (u : ClusterId) (s : State) : Out := .next (s.interval u)

end Sys2Proof.Machine
end

