-- ==== Sys2Proof/Machine/Upkeep.lean ====
section
/-! DEFINITION. What system software does to translations, caches and errors: invalidation (R196), flushes (R197), the release of a
frame (R200), the injection of errors (R383); and the pushes of EX that are performed (R119). -/

namespace Sys2Proof.Machine

/-! ## tlbinv (R195, R196) -/

def invKind (v : Word) : Nat := (v.extractLsb' 58 2).toNat

/-- The value has its reserved bits zero and names a kind. -/
def invOk (v : Word) : Bool := v.extractLsb' 0 16 == 0 && v.extractLsb' 60 4 == 0 && invKind v != 3

/-- Whether a translation of a context falls under the value, by kind, context and page. -/
def invHits (v : Word) (ctx : Ctx) (page : Bool) : Bool :=
  match invKind v with
  | 0 => ctx == v.extractLsb' 48 10 && page
  | 1 => ctx == v.extractLsb' 48 10
  | _ => true

/-- An address of the page that the value names. -/
def invVa (v : Word) : Word := v &&& 0xFFFFFFFF0000#64

/-- A page of a walk: the walk's address and the value's agree in VA[47:16]. -/
def samePage (a b : Word) : Bool := a.extractLsb' 16 32 == b.extractLsb' 16 32

/-- Matching entries leave every cluster TLB, core TLB and LATT; a walk in progress is discarded, and its access walks again. -/
def State.tlbinv (s : State) (v : Word) : State :=
  let va := invVa v
  let keep : List TlbEntry → List TlbEntry := fun t => t.filter fun e => !invHits v e.ctx (e.hits e.ctx va)
  { s with
    clusters := s.clusters.map fun (u : Cluster) =>
      { u with tlb := keep u.tlb, walks := u.walks.filter fun w => !invHits v w.ctx (samePage w.va va) }
    cores := s.cores.map fun (k : Core) =>
      let ctx := k.ctx
      { k with
        tlb := keep k.tlb
        latt := k.latt.filter fun e => !invHits v e.ctx (decide (e.vpn = (va.extractLsb' 16 32).toNat))
        seqs := k.seqs.map fun (q : SeqSt) =>
          { q with walkFault := q.walkFault.filter fun f => !invHits v ctx (samePage f.2 va) } } }

/-- An event of one kind. -/
def State.tlbinvKind (s : State) (kind : Nat) (v : Word) : State := if invOk v && invKind v == kind then s.tlbinv v else s

def execTlbinvPage (v : Word) (s : State) : Out := .next (s.tlbinvKind 0 v)
def execTlbinvContext (v : Word) (s : State) : Out := .next (s.tlbinvKind 1 v)
def execTlbinvAll (v : Word) (s : State) : Out := .next (s.tlbinvKind 2 v)

/-! ## l2fcmd (R195, R197) -/

/-- The flush range of the current sequencer. -/
def State.flushRange (s : State) : Nat × Nat := (s.me.sr.l2flo.toNat, s.me.sr.l2fhi.toNat)

/-- The flips of a line once its dirty sectors have been written back: what was corrected is corrected in place too (R364). -/
def L2Line.cleanFlips (l : L2Line) : List Nat :=
  (List.range 4).foldl (fun fl i =>
    let f := check (secKind l.tag (l.mark i) (4 * l.la + i)) false (flipsOf l.flips i)
    if l.dirty.getLsbD i && f.sev == .sv0 then setFlips fl i f.left else fl) l.flips

/-- A line written back and kept clean; where a sector of it is lost, or its way has corrected too many errors, it goes (R372, R373). -/
def State.cleanLine (s : State) (l : L2Line) (pc : Word) : State :=
  let (s, lost) := s.writeBackAll l pc
  if lost.isEmpty && !s.overCeth l.wayId then s.setLine { l with dirty := 0, flips := l.cleanFlips }
  else
    let s := s.dropLine l.la
    (if s.overCeth l.wayId then s.quarantine l.wayId else s).lostOut l pc lost

/-- Every line of the range is cleaned, and removed where asked. -/
def State.flushL2 (s : State) (remove : Bool) : State :=
  let (lo, hi) := s.flushRange
  let pc := s.me.pc
  (s.l2.filter fun l => decide (lo ≤ 128 * l.la) && decide (128 * l.la < hi)).foldl (fun s l =>
    match s.lineAt l.la with
    | some l => if remove then s.flushOut l pc else s.cleanLine l pc
    | none => s) s

/-- The range holds something. -/
def State.flushOk (s : State) : Bool := decide (s.flushRange.1 < s.flushRange.2)

def execL2Clean (s : State) : Out := .next (if s.flushOk then s.flushL2 false else s)
def execL2CleanInvalidate (s : State) : Out := .next (if s.flushOk then s.flushL2 true else s)

/-! ## frel (R195, R200, R372) -/

/-- The value has its reserved bits zero. -/
def relOk (v : Word) : Bool := v.extractLsb' 1 15 == 0 && v.extractLsb' 47 17 == 0

/-- First address of the frame and the first beyond it. -/
def relRange (v : Word) : Nat × Nat :=
  let lo := (v.extractLsb' 16 31).toNat * 65536
  (lo, lo + if v.getLsbD 0 then 2 ^ 25 else 65536)

/-- Whether an address lies in the frame. -/
def relHas (v : Word) (pa : Nat) : Bool := decide ((relRange v).1 ≤ pa) && decide (pa < (relRange v).2)

/-- Whether a leaf's page meets the frame. -/
def relMeets (v : Word) (p : Word) (big : Bool) : Bool :=
  !pteFabric p && decide ((relRange v).1 < pteBase p + if big then 2 ^ 25 else 65536) && decide (pteBase p < (relRange v).2)

/-- Step 1: the translations of the frame leave every TLB, and its pages every LATT. -/
def State.relUnmap (s : State) (v : Word) : State :=
  let keep : List TlbEntry → List TlbEntry := fun t => t.filter fun e => !relMeets v e.pte e.big
  { s with
    clusters := s.clusters.map fun (u : Cluster) => { u with tlb := keep u.tlb }
    cores := s.cores.map fun (k : Core) =>
      { k with tlb := keep k.tlb, latt := k.latt.filter fun e => !relHas v (e.frame * 65536) } }

/-- The stash rows that an access in flight names lie in the frame. -/
def Core.rowsIn (k : Core) (v : Word) (rows : List (Word × Nat)) : Bool :=
  rows.any fun r => k.stash.any fun x => x.va == rowOf r.1 && relHas v x.pa

/-- An access of a core to the frame is in flight. -/
def Core.relBusy (k : Core) (v : Word) : Bool :=
  (k.loads.any fun l => relHas v l.pa || (l.waiting.any fun x => relHas v x.1) || (match l.src with
    | .stash rows => k.rowsIn v rows
    | _ => false)) ||
    (k.stores.any fun x => k.rowsIn v x.rows) || (k.pubs.any fun r => relHas v r.pa) ||
    k.stash.any fun x => relHas v x.pa && x.pending

/-- Step 2 waits while an access to the frame is in flight. -/
def State.relWaits (s : State) (v : Word) : Bool :=
  (s.cores.any fun k => k.relBusy v) || s.slices.any fun x => (x.queue ++ x.miss).any fun r => relHas v r.pa

/-- The stamp of a released sector: blank, or lost where its frame is retired. -/
def State.relMarks (s : State) (v : Word) : List (Nat × SectorWord) :=
  let frames := s.rel.retired.filter fun f => relHas v (f * 65536) && inHbm (f * 65536)
  let rest := s.marks.filter fun e => !relHas v (32 * e.1)
  frames.foldl (fun m f => (List.range 2048).foldl (fun m i => cellPut blankWord m (2048 * f + i) ⟨lostStamp, 0, 0, []⟩) m) rest

/-- Steps 3 to 5: the frame leaves the L2 and every stash, and its sectors of HBM4E become blank. -/
def State.relPurge (s : State) (v : Word) : State :=
  { s with
    l2 := s.l2.filter fun l => !relHas v (128 * l.la)
    cores := s.cores.map fun (k : Core) => { k with stash := k.stash.filter fun r => !relHas v r.pa }
    mem := s.mem.filter fun e => !(relHas v e.1 && inHbm e.1)
    marks := s.relMarks v }

/-- FRAME_RELEASE; it waits at step 2. -/
def State.frameRelease (s : State) (v : Word) : State :=
  let s := s.relUnmap v
  if s.relWaits v then s else s.relPurge v

def execFrameRelease (v : Word) (s : State) : Out := .next (if relOk v then s.frameRelease v else s)

/-! ## errinj (R383) -/

def injArray (v : Word) : Nat := (v.extractLsb' 0 2).toNat
def injCount (v : Word) : Nat := (v.extractLsb' 29 2).toNat

/-- The three position fields. -/
def injFields (v : Word) : List Nat := [(v.extractLsb' 2 9).toNat, (v.extractLsb' 11 9).toNat, (v.extractLsb' 20 9).toNat]

/-- Positions that the count uses. -/
def injUsed (v : Word) : List Nat := if injArray v = 3 then [] else (injFields v).take (injCount v)

/-- The value keeps to its limits. -/
def injValueOk (v : Word) : Bool :=
  v.extractLsb' 31 33 == 0 && injCount v != 0 && ((injFields v).drop (injUsed v).length).all (· == 0) &&
    (injUsed v).all (· ≤ 287) && decide (injUsed v).Nodup

/-- The target keeps to its limits: a sector of HBM4E, a sector's address, a scratchpad row's sector. -/
def injTargetOk (v target : Word) : Bool :=
  match injArray v with
  | 0 => target.extractLsb' 0 5 == 0 && inHbm target.toNat
  | 1 => target.extractLsb' 0 5 == 0 && target.extractLsb' 47 17 == 0
  | 2 => target.extractLsb' 0 5 == 0 && target.extractLsb' 30 34 == 0
  | _ => true

/-- Bits of a sector of HBM4E, of a resident line, of a scratchpad row flip, whatever flips them (R364, R383). Whether the target was not
resident. -/
def State.flipSector (s : State) (array : Nat) (target : Word) (ps : List Nat) : State × Bool :=
  let pa := target.toNat
  match array with
  | 0 =>
    let w := s.word (pa / 32)
    (s.setWord (pa / 32) { w with flips := toggle w.flips ps }, false)
  | 1 =>
    match s.lineAt (pa / 128) with
    | some l =>
      let i := pa / 32 % 4
      if l.valid.getLsbD i then (s.setLine { l with flips := toggle l.flips (ps.map (288 * i + ·)) }, false) else (s, true)
    | none => (s, true)
  | _ =>
    let c := engCore target
    let r : Fin 2048 := (target.extractLsb' 8 11).toFin
    let p := s.padRow c r
    (s.setPad c r { p with flips := toggle p.flips (ps.map (288 * (pa / 32 % 8) + ·)) }, false)

/-- A sector is flipped; or copies of coming commands are to be corrupted. Whether the target was not resident. -/
def State.inject (s : State) (v target : Word) : State × Bool :=
  if injArray v = 3 then (s.mod fun k => { k with chk := { k.chk with coming := injCount v } }, false)
  else s.flipSector (injArray v) target (injUsed v)

/-- An error in a sector that no instruction has made (R364); one beyond the array, or beyond a sector's 288 bits, is none. -/
def State.flipFromOutside (s : State) (array : Fin 3) (target : Word) (ps : List Nat) : State :=
  let place := (array == 2, target.toNat)
  if !injTargetOk (BitVec.ofNat 64 array.val) target then s
  else
    match s.flipSector array.val target (ps.filter (· < 288)) with
    | (s, true) => s
    | (s, false) => { s with outside := if s.outside.contains place then s.outside else s.outside ++ [place] }

/-- A sector with flips from outside holds flips still: in memory or in the L2, or in its row. -/
def State.stillFlipped (s : State) (x : Bool × Nat) : Bool :=
  let (pad, a) := x
  if pad then
    let p := s.padRow (engCore (BitVec.ofNat 64 a)) ((BitVec.ofNat 64 a : Word).extractLsb' 8 11).toFin
    !(flipsOf p.flips (a / 32 % 8)).isEmpty
  else !(s.word (a / 32)).flips.isEmpty || (s.lineAt (a / 128)).any fun l => !(flipsOf l.flips (a / 32 % 4)).isEmpty

/-- ERROR_INJECT: errinj then reads with DONE, and with NR where nothing was resident. -/
def State.errorInject (s : State) (v : Word) : State :=
  let (s, nr) := s.inject v s.me.sr.errinja
  s.modMe fun q => { q with sr := { q.sr with errinj := v ||| 0x8000000000000000 ||| if nr then 0x4000000000000000 else 0 } }

def execErrorInject (v : Word) (s : State) : Out :=
  .next (if injValueOk v && injTargetOk v s.me.sr.errinja then s.errorInject v else s)

/-! ## efctl (R308) -/

def execEfctlResume (s : State) : Out := .next (s.efGoOn s.cur.1)
def execEfctlDropHead (s : State) : Out := .next (s.efDropHead s.cur.1)
def execEfctlDropAll (s : State) : Out := .next (s.efDropAll s.cur.1)

/-! ## EX_PUSH_PERFORMED (R119) -/

/-- The push that is performed next: least due, earliest issued. -/
def ExSt.nextPush (e : ExSt) : Option ExPush := firstBy (fun a b => decide (a.due < b.due)) e.pushes

/-- A push is performed once its clk has come. -/
def State.exPush (s : State) (c : CoreId) : State :=
  match (s.core c).ex.nextPush with
  | none => s
  | some p =>
    if s.clkOf c < p.due then s
    else
      s.onCore c fun k =>
        let k := { k with ex := { k.ex with pushes := k.ex.pushes.erase p } }
        match p.out with
        | .data q e => k.arrive (dstQueue q) e
        | .bit n b => k.pushBq n b

def execExPushPerformed (c : CoreId) (s : State) : Out := .next (s.exPush c)

end Sys2Proof.Machine
end

