-- ==== Sys2Proof/Machine/Special.lean ====
section
/-! DEFINITION. The special registers as MFSR and MTSR reach them (R91, R112, R175, R195, R242, R308, R347, R350, R374, R376, R383). -/

namespace Sys2Proof.Machine

/-! ## Access (R91) -/

/-- A supervisor register. -/
def sprSup (r : Spr) : Bool := decide (0x100 ≤ r.num)

/-- It may be read; four registers are only written. -/
def sprReads (r : Spr) : Bool :=
  match r with
  | .tlbinv | .l2fcmd | .frel | .efctl => false
  | _ => true

/-- It may be written in a mode. -/
def sprWrites (sup : Bool) (r : Spr) : Bool :=
  match r with
  | .lc _ | .lbeg _ | .lend _ | .lstk | .splret | .gvs => true
  | .cause | .epc | .tval | .status | .tsa | .dpc | .dres | .ycnt | .cflt | .tvec | .tstat | .sscr | .tlbinv | .l2flo | .l2fhi | .l2fcmd
  | .frel | .lkl _ | .efctl | .pwmode | .relpol | .rlsel | .errinj | .errinja => sup
  | _ => false

/-! ## Reading -/

def b2w (b : Bool) (i : Nat) : Word := BitVec.ofNat 64 (bit b i)

/-- status (R91). -/
def State.statusWord (s : State) : Word := b2w s.me.sup 0 ||| b2w s.me.inTrap 1 ||| b2w s.here.req.isSome 2

/-- qstN (R175). -/
def DQueue.status (d : DQueue) : Word :=
  BitVec.ofNat 64 (d.popped.toNat + d.pushed.toNat * 2 ^ 16 + ((d.entries.head?.map fun e => e.tag.toNat).getD 0) * 2 ^ 32 +
    d.claimed % 32 * 2 ^ 40)

/-- A register's value; none where the manual gives none, with no head in the gather queue (R308), and for what is only written. -/
def State.readSpr (s : State) (r : Spr) : Option Word :=
  let q := s.me
  let k := s.here
  match r with
  | .pc => some q.pc
  | .seqid => some (BitVec.ofNat 64 s.cur.2.num.val)
  | .coreid => some (BitVec.ofNat 64 (s.cur.1.val % 128))
  | .clusterid => some (BitVec.ofNat 64 (s.cur.1.val / 128))
  | .dieid => some (BitVec.ofNat 64 (s.cur.1.val / 256))
  | .vfid => some (BitVec.ofNat 64 (vfOf k.ctx).val)
  | .ctxid => some (k.ctx.setWidth 64)
  | .gtb => some s.gtb
  | .phase => some ((k.strand.map (·.phase)).getD 0)
  | .cause => some (q.cause.setWidth 64)
  | .epc => some q.epc
  | .tval => some q.tval
  | .status => some s.statusWord
  | .lc n => some (q.loops[n].lc.setWidth 64)
  | .lbeg n => some q.loops[n].lbeg
  | .lend n => some q.loops[n].lend
  | .lstk => some (q.lstk.setWidth 64)
  | .splret => some k.ex.splret
  | .tsa => some k.ex.tsa
  | .dpc => some q.dpc
  | .dres => some (q.dres.setWidth 64)
  | .ycnt => some k.ex.ycnt
  | .gvs => some k.gvs
  | .cflt => some (k.cflt.setWidth 64)
  | .tvec => some q.tvec
  | .tstat => some (b2w q.psup 0)
  | .sscr => some q.sscr
  | .qst n => some k.queues[n].status
  | .l2flo => some q.sr.l2flo
  | .l2fhi => some q.sr.l2fhi
  | .lkl n => some k.locks[n]
  | .lkres => some (k.lkres.setWidth 64)
  | .efva => some k.gath.fva
  | .efdone => k.gath.cur.map fun m => BitVec.ofNat 64 m.done
  | .efpc => k.gath.cur.map (·.pc)
  | .afc n => some s.afc[n]
  | .pwmode => some s.pwmode
  | .relpol => some s.rel.relpol
  | .rlcnt => some (BitVec.ofNat 64 (s.rel.rlcnt % 2 ^ 32))
  | .rlsel => some (q.sr.rlsel.setWidth 64)
  | .rld n => some (s.rel.log[q.sr.rlsel.toFin])[n]
  | .errinj => some q.sr.errinj
  | .errinja => some q.sr.errinja
  | .tlbinv | .l2fcmd | .frel | .efctl => none

/-- The register read: where the manual gives it no value, a free one (log 6). -/
def State.readOpen (s : State) (r : Spr) : Word × State :=
  match s.readSpr r with
  | some x => (x, s)
  | none =>
    let (n, s) := s.free
    ((Config.freeValue n).setWidth 64, s)

/-- The latency of MFSR on EX in slots: 4 for gtb, 2 for every other register (R94). -/
def mfsrLat (r : Spr) : Nat := if r = .gtb then 4 else 2

/-- MFSR (R112). -/
def execMfsr (dst : Fin 32) (r : Spr) (s : State) : Out :=
  if sprSup r && !s.me.sup then .next (s.violate .privilegedRegister (BitVec.ofNat 64 r.num))
  else if !sprReads r then .next (s.execTrap .reservedOperand)
  else
    let (x, s) := s.readOpen r
    .next ((s.writeS dst x (mfsrLat r)).retire 8)

/-! ## Writing (R106, R112) -/

/-- An lstk value: depth at most 4; entries with different counters, whose bodies are aligned and not empty (R106). -/
def SeqSt.lstkOk (q : SeqSt) (x : Word) : Bool :=
  let v : BitVec 12 := x.setWidth 12
  let d := (v.extractLsb' 0 3).toNat
  let ns := (List.range d).map (lstkIdx v)
  x.extractLsb' 12 52 == 0 && !v.getLsbD 3 && decide (d ≤ 4) && decide ns.Nodup && ns.all fun n =>
    decide (q.loops[n].lbeg.toNat < q.loops[n].lend.toNat) && q.loops[n].lbeg.extractLsb' 0 3 == 0 && q.loops[n].lend.extractLsb' 0 3 == 0

/-- The bits that must be zero in a value written to a register. dres takes any three bits, though R350 gives codes 5 to 7 no meaning
(DESIGN CHOICE, log 56). -/
def sprReserved (r : Spr) : Word :=
  match r with
  | .cause => ~~~0x1FF
  | .status | .dres => ~~~7
  | .splret => 6
  | .cflt => ~~~0x3FF
  | .tvec => 7
  | .tstat | .pwmode => ~~~1
  | .l2flo | .l2fhi => 0xFFFF80000000007F
  | .l2fcmd | .efctl => ~~~3
  | .lkl _ => 0x7C0000000000007F
  | .relpol => ~~~0xFFFF
  | .rlsel => ~~~0x3F
  | _ => 0

/-- The cause codes that R351's table lists, in ranges. -/
def causeCodes : List (Nat × Nat) :=
  [(0x000, 0x00B), (0x01E, 0x01F), (0x040, 0x050), (0x080, 0x089), (0x0C0, 0x0C4), (0x0C8, 0x0CC), (0x0D0, 0x0D1), (0x100, 0x104),
    (0x140, 0x141), (0x180, 0x182), (0x1C0, 0x1C2), (0x1E0, 0x1FF)]

/-- A cause code that is not reserved (R5, R351). -/
def causeOk (x : Word) : Bool := causeCodes.any fun (a, b) => decide (a ≤ x.toNat) && decide (x.toNat ≤ b)

/-- A value that a register takes. -/
def State.sprOk (s : State) (r : Spr) (x : Word) : Bool :=
  x &&& sprReserved r == 0 && (match r with
    | .lstk => s.me.lstkOk x
    | .cause => causeOk x
    | .cflt => causeOk (x &&& 0x1FF)
    | .relpol => !x.getLsbD 4
    | .tlbinv => invOk x
    | .l2fcmd => (x == 1 || x == 2) && s.flushOk
    | .frel => relOk x
    | .efctl => x != 0
    | .errinj => injValueOk x && injTargetOk x s.me.sr.errinja
    | _ => true)

/-- The effect of a write, but for the pc. -/
def State.writeSpr (s : State) (r : Spr) (x : Word) : State :=
  let setEx : (ExSt → ExSt) → State := fun f => s.mod fun k => { k with ex := f k.ex }
  match r with
  | .cause => s.modMe fun q => { q with cause := x.setWidth 9 }
  | .epc => s.modMe fun q => { q with epc := x }
  | .tval => s.modMe fun q => { q with tval := x }
  | .status => s.modMe fun q => { q with inTrap := x.getLsbD 1 }
  | .lc n => s.modMe fun q => q.setLc n (x.setWidth 32)
  | .lbeg n => s.modMe fun q => { q with loops := q.loops.set n { q.loops[n] with lbeg := x } }
  | .lend n => s.modMe fun q => { q with loops := q.loops.set n { q.loops[n] with lend := x } }
  | .lstk => s.modMe fun q => { q with lstk := x.setWidth 12 }
  | .splret => setEx fun e => { e with splret := x }
  | .tsa => setEx fun e => { e with tsa := x }
  | .ycnt => setEx fun e => { e with ycnt := x }
  | .dpc => s.modMe fun q => { q with dpc := x }
  | .dres => s.modMe fun q => { q with dres := x.setWidth 3 }
  | .gvs => s.mod fun k => { k with gvs := x }
  | .cflt => s.mod fun k => { k with cflt := x.setWidth 10 }
  | .tvec => s.modMe fun q => { q with tvec := x }
  | .tstat => s.modMe fun q => { q with psup := x.getLsbD 0 }
  | .sscr => s.modMe fun q => { q with sscr := x }
  | .tlbinv => s.tlbinv x
  | .l2flo => s.modMe fun q => { q with sr := { q.sr with l2flo := x } }
  | .l2fhi => s.modMe fun q => { q with sr := { q.sr with l2fhi := x } }
  | .l2fcmd => s.flushL2 (x.getLsbD 1)
  | .frel => s.frameRelease x
  | .lkl n => s.mod fun k => { k with locks := k.locks.set n x }
  | .efctl =>
    if !x.getLsbD 1 then s.efGoOn s.cur.1
    else if x.getLsbD 0 then s.efDropAll s.cur.1 else s.efDropHead s.cur.1
  | .pwmode => { s with pwmode := x }
  | .relpol => { s with rel := { s.rel with relpol := x } }
  | .rlsel => s.modMe fun q => { q with sr := { q.sr with rlsel := x.setWidth 6 } }
  | .errinj => s.errorInject x
  | .errinja => s.modMe fun q => { q with sr := { q.sr with errinja := x } }
  | _ => s

/-- MTSR. A write of frel waits while an access to the frame is in flight (R200). -/
def execMtsr (src : SSrc) (r : Spr) (s : State) : Out :=
  let x := s.src src
  if sprSup r && !s.me.sup then .next (s.violate .privilegedRegister (BitVec.ofNat 64 r.num))
  else if !sprWrites s.me.sup r || !s.sprOk r x then .next (s.execTrap .reservedOperand)
  else if r = .frel && s.relWaits x then .next ((s.relUnmap x).block .other)
  else .next ((s.writeSpr r x).retire 8)

end Sys2Proof.Machine
end

