-- ==== Sys2Proof/Machine/Host.lean ====
section
/-! DEFINITION. The host port (R397-R404): launches that the host submits, the registers of VFs and PF, the PF's HDM range, the VF
apertures. -/

namespace Sys2Proof.Machine

/-! ## Submission queues (R400, R401) -/

def VfSt.onSq (v : VfSt) (q : Fin 4) (f : SubQueue → SubQueue) : VfSt := { v with sqs := v.sqs.set q (f v.sqs[q]) }

def State.onVf (s : State) (vf : Fin 64) (f : VfSt → VfSt) : State := { s with vfs := s.vfs.set vf (f s.vfs[vf]) }

def State.onSq (s : State) (vf : Fin 64) (q : Fin 4) (f : SubQueue → SubQueue) : State := s.onVf vf fun v => v.onSq q f

/-- The stamp after one, which passes over 0. -/
def nextStamp (x : BitVec 32) : BitVec 32 := if x = 0xFFFFFFFF then 1 else x + 1

/-- A record has been taken. -/
def SubQueue.took (q : SubQueue) : SubQueue :=
  { q with head := BitVec.ofNat 12 ((q.head.toNat + 1) % 2 ^ q.k.toNat), stamp := nextStamp q.stamp, rereads := none }

/-- Where the record at the head stands. -/
def SubQueue.place (q : SubQueue) : Nat := (q.base.extractLsb' 12 52).toNat * 4096 + 256 * q.head.toNat

/-- The record at the head, as one read finds it. -/
def State.headRecord (s : State) (q : SubQueue) : Nat :=
  if q.base.getLsbD 0 then Memory.bytes s.mem (hostAddr q.place) 256 else s.shownBytes q.place 256

/-- The read of the record at the head: one in device memory is checked, for no context; true where a sector of it is lost (R370). -/
def State.checkHead (s : State) (q : SubQueue) : State × Bool :=
  if q.base.getLsbD 0 then (s, false) else s.checkSpan ⟨0, 0, true⟩ q.place 256

/-- The record is current. -/
def SubQueue.current (q : SubQueue) (x : Nat) : Bool := byteField x 252 4 == q.stamp.toNat

/-- A launch is refused (R333, R402): what its event names beside status, check and context is open (log 20). -/
def State.refuseLaunch (s : State) (ctx : Ctx) (r : Refused) : State :=
  let (n, s) := s.free
  s.postEvent (vfOf ctx) 0 r.2 ctx r.1 ((Config.freeValue n).setWidth 64)

/-- The context of a record taken from a VF's queue. -/
def recCtx (vf : Fin 64) (x : Nat) : Ctx := BitVec.ofNat 10 (16 * vf.val + byteField x 4 2 % 16)

/-- A record with a fabric level takes the group as latched. -/
def recGroup (x : Nat) (latched : BitVec 36) : BitVec 36 := if (recLevels x).any fun w => 6 ≤ levelDomain w then latched else 0

/-- A taken record is checked, and enters cluster 0 (log 19). None while its stage table, or the entry of its context, lies on a die that is
not yet in service (R413). -/
def State.submit (s : State) (vf : Fin 64) (x : Nat) : Option State :=
  let ctx := recCtx vf x
  match recHead x with
  | some r => some (s.refuseLaunch ctx r)
  | none =>
    let n := byteField x 16 2
    match s.readSpan 0 ⟨ctx, 0, false⟩ false (BitVec.ofNat 64 (byteField x 8 8)) (64 * n) (64 * n / 256 + 2) with
    | (_, .error (.wait _)) => none
    | (s, .error _) => some (s.refuseLaunch ctx (4, 7))
    | (s, .ok t) =>
      let tab := tableEntries t n
      match s.recRest 0 ctx none x tab with
      | some r => some (s.refuseLaunch ctx r)
      | none =>
        match s.ctxRefused ctx with
        | (s, true) => some (s.refuseLaunch ctx (4, 7))
        | (s, false) => some (s.accept 0 ctx x tab (recGroup x s.vfs[vf].latched) none).1

/-- The read of the record at the head waits for a die to enter service. -/
def State.headOut (s : State) (q : SubQueue) : Bool :=
  !q.base.getLsbD 0 && s.spanOut q.place 256

/-- The record at the head will be read again. -/
def State.readAgain (s : State) (vf : Fin 64) (q : Fin 4) : State := s.onSq vf q fun sq => { sq with rereads := some 0 }

/-- Records are taken while the one at the head is current; a stale one, one that is lost (DESIGN CHOICE, log 20), and one that waits for a
die, will be read again. -/
def State.takeRecords (s : State) (vf : Fin 64) (q : Fin 4) : Nat → State
  | 0 => s
  | n + 1 =>
    let sq := s.vfs[vf].sqs[q]
    if sq.head = sq.tail then s.onSq vf q fun sq => { sq with rereads := none }
    else if s.headOut sq then s.readAgain vf q
    else
      let (s, lost) := s.checkHead sq
      let x := s.headRecord sq
      if lost || !sq.current x then s.readAgain vf q
      else
        match (s.onSq vf q SubQueue.took).submit vf x with
        | some t => t.takeRecords vf q n
        | none => s.readAgain vf q

/-- More records than a ring holds. -/
def ringMost : Nat := 4097

/-- The value of launch is in range: its queue and tail. -/
def launchOk (q : SubQueue) (value : Word) : Bool :=
  value.extractLsb' 14 50 == 0 && decide ((value.extractLsb' 2 12).toNat < 2 ^ q.k.toNat)

/-- LAUNCH_DOORBELL: lgrp is latched, the tail set, a stall cleared; a queue whose stale record is being read again goes on so. -/
def State.doorbell (s : State) (vf : Fin 64) (value : Word) : State :=
  let q : Fin 4 := (value.extractLsb' 0 2).toFin
  let sq := s.vfs[vf].sqs[q]
  if !launchOk sq value then s.postBare vf 0 1
  else
    let s := (s.onVf vf fun v => { v with latched := v.lgrp }).onSq vf q fun sq =>
      { sq with tail := value.extractLsb' 2 12, stalled := false }
    if sq.rereads.isSome then s else s.takeRecords vf q ringMost

def execLaunchDoorbell (vf : Fin 64) (value : Word) (s : State) : Out := .next (if s.vfUp then s.doorbell vf value else s)

/-- The eighth re-read is stale too: the queue stalls. What the event names beside its code is open (log 20). -/
def State.stallQueue (s : State) (vf : Fin 64) (q : Fin 4) : State :=
  let (n, s) := (s.onSq vf q fun sq => { sq with stalled := true, rereads := none }).free
  let x := Config.freeValue n
  s.postEvent vf 2 0x1C0 (x.extractLsb' 80 10) 0 (x.setWidth 64)

/-- RECORD_REREAD. -/
def State.reread (s : State) (vf : Fin 64) (q : Fin 4) : State :=
  let sq := s.vfs[vf].sqs[q]
  match sq.rereads with
  | none => s
  | some n =>
    if s.headOut sq then s
    else
    let (s, lost) := s.checkHead sq
    if !lost && sq.current (s.headRecord sq) then s.takeRecords vf q ringMost
    else if 7 ≤ n then s.stallQueue vf q
    else s.onSq vf q fun sq => { sq with rereads := some (n + 1) }

def execRecordReread (vf : Fin 64) (q : Fin 4) (s : State) : Out := .next (if s.vfUp then s.reread vf q else s)

/-! ## Register writes (R400, R404, R416) -/

/-- A write of sqbase resets the queue. -/
def State.writeSqbase (s : State) (vf : Fin 64) (q : Fin 4) (value : Word) : State :=
  if value.extractLsb' 1 11 ≠ 0 then s.postBare vf 0 1
  else s.onSq vf q fun sq => { sq with base := value, head := 0, tail := 0, stamp := 1, stalled := false, rereads := none }

def execSqbaseWrite (vf : Fin 64) (q : Fin 4) (value : Word) (s : State) : Out :=
  .next (if s.vfUp then s.writeSqbase vf q value else s)

/-- A write of a VF register: ignored with an event where the value is out of range (R400). -/
def State.vfWrite (s : State) (vf : Fin 64) (ok : Bool) (f : VfSt → VfSt) : State :=
  if !s.vfUp then s else if ok then s.onVf vf f else s.postBare vf 0 1

/-- A write of a PF register. -/
def State.pfWrite (s : State) (f : State → State) : State := if s.pfUp then f s else s

/-- The power limit that a value sets; the manual does not say what one below 1,000 W sets (R416). -/
def State.setCap (s : State) (x : Nat) : State :=
  if x < 1000 then
    let (n, s) := s.free
    { s with mg := { s.mg with pwcap := (Config.freeValue n).setWidth 16 } }
  else { s with mg := { s.mg with pwcap := BitVec.ofNat 16 (min x 5600) } }

/-- hdmlay with its reserved bits zero; a reserved code under STAMP leaves it. -/
def State.setHdmlay (s : State) (value : Word) : State :=
  if value.getLsbD 6 && reservedCode (value.setWidth 6) then s else { s with pf := { s.pf with hdmlay := value.setWidth 7 } }

/-- A word of an export entry with its reserved bits zero. -/
def State.setExp (s : State) (n : Fin 64) (hi : Bool) (value : Word) : State :=
  let e := s.pf.exp[n]
  let e := if hi then (e.1, value &&& 0x000FFFFFFFFFFFFF#64) else (value &&& 0xC0007FFFFFFF0000#64, e.2)
  { s with pf := { s.pf with exp := s.pf.exp.set n e } }

def State.hostRegister (s : State) (r : HostReg) (value : Word) : State :=
  match r with
  | .sqsize vf q =>
    let k := value.toNat
    s.vfWrite vf (decide (1 ≤ k) && decide (k ≤ 12)) fun v => v.onSq q fun sq => { sq with k := value.setWidth 4 }
  | .lgrp vf => s.vfWrite vf (value.extractLsb' 36 28 == 0) fun v => { v with lgrp := value.setWidth 36 }
  | .evq vf =>
    let k := (value.extractLsb' 0 4).toNat
    s.vfWrite vf (value.extractLsb' 4 8 == 0 && decide (4 ≤ k) && decide (k ≤ 12)) fun v => { v with evq := value }
  | .vfrst vf => if s.vfUp && value == 1 then s.vfReset vf else s.vfWrite vf false id
  | .rrec vf => s.vfWrite vf (value.extractLsb' 0 12 == 0 && inHbm value.toNat) fun v => { v with rrec := value }
  | .ctxtab => s.pfWrite fun s => { s with pf := { s.pf with ctxtab := value &&& 0xFFFFFFFFFFFF0000#64 } }
  | .psave => s.pfWrite fun s => { s with pf := { s.pf with psave := value &&& 0xFFFFFFFFFFFF0000#64 } }
  | .vlbase => s.pfWrite fun s => { s with pf := { s.pf with vlbase := value } }
  | .mpd n => s.pfWrite fun s => { s with pf := { s.pf with mpd := s.pf.mpd.set n (value &&& 0x800007FFFFFFFFFF#64) } }
  | .hdmlay => s.pfWrite fun s => s.setHdmlay value
  | .exp n hi => s.pfWrite fun s => s.setExp n hi value
  | .rt n => s.pfWrite fun s => { s with pf := { s.pf with rt := s.pf.rt.set n (value &&& 0x0000000FFFFFFFFF#64) } }
  | .gtbctl => s.pfWrite fun s => { s with pf := { s.pf with gtbctl := value.setWidth 10 } }
  | .pwcap => s.pfWrite fun s => s.setCap (value.setWidth 16).toNat
  | .fwaddr => s.pfWrite fun s => { s with mg := { s.mg with fwaddr := value } }
  | .attaddr => s.pfWrite fun s => { s with mg := { s.mg with attaddr := value &&& 0xFFFFFFFFFFFFF000#64 } }

def execHostRegisterWrite (r : HostReg) (value : Word) (s : State) : Out := .next (s.hostRegister r value)

/-! ## Bytes on the host port -/

def bytesOf (x n : Nat) : List Byte := (List.range n).map fun i => BitVec.ofNat 8 (x >>> (8 * i))
def numOf : List Byte → Nat
  | [] => 0
  | b :: r => b.toNat + 256 * numOf r

/-- n bytes of ones. -/
def onesBytes (n : Nat) : List Byte := List.replicate n 0xFF

/-! ## The PF's HDM range (R398) -/

/-- A sector of HBM4E as the range shows it: stored bits whatever the stamp, zero where blank, ones where lost, which is logged. -/
def State.hdmHbmOut (s : State) (sector : Nat) : State × BitVec 256 :=
  match s.sense sector none with
  | (s, .blank) => (s, 0)
  | (s, .lost) => (s.log 3 (hbmPlace (32 * sector)) false { noFlags with unknown := true } 0 0, BitVec.allOnes 256)
  | (s, .bad) => (s.loseUnowned sector 0, BitVec.allOnes 256)
  | (s, .ok f d) => (s.noteHbm sector f 0, d)

/-- A sector as the range shows it, from the L2 where that holds it under any tag, with the checks of any read and nobody charged but
the owner of a dirty line (R364, R371). -/
def State.hdmSectorOut (s : State) (sector : Nat) : State × BitVec 256 :=
  let la := sector / 4
  let i := sector % 4
  let s := s.homeTurn (32 * sector)
  if (s.lineAt la).any fun l => l.valid.getLsbD i then
    match s.scanLine ⟨0, 0, true⟩ la (1 <<< i) [0, 1, 2, 3] 0 [] with
    | (s, .ok d _) => (s, lineSector d i)
    | (s, _) => s.hdmHbmOut sector
  else s.hdmHbmOut sector

/-- n bytes from an address on. -/
def State.hdmGet (s : State) (pa n : Nat) : Nat → State × Nat
  | 0 => (s, 0)
  | fuel + 1 =>
    if n = 0 then (s, 0)
    else
      let lo := pa % 32
      let k := min n (32 - lo)
      let (s, d) := s.hdmSectorOut (pa / 32)
      let (s, y) := s.hdmGet (pa + k) (n - k) fuel
      (s, (d.toNat >>> (8 * lo)) % 2 ^ (8 * k) + y * 2 ^ (8 * k))

/-- The request lies in the 1 TiB of the range. -/
def inRange (pa : BitVec 47) (n : Nat) : Bool := decide (pa.toNat + n ≤ 2 ^ 40)

def State.hdmRead (s : State) (pa n : Nat) : State :=
  let (s, x) := s.hdmGet pa n (n / 32 + 2)
  { s with hostOut := bytesOf x n }

def execHdmRead (pa : BitVec 47) (len : Nat) (s : State) : Out :=
  .next (if s.vfUp && inRange pa len && !s.spanOut pa.toNat len then s.asRequester none (·.hdmRead pa.toNat len) else s)

/-- The code that a write stamps, where hdmlay asks for one. -/
def State.hdmStamp (s : State) : Option Layout := if s.pf.hdmlay.getLsbD 6 then some (s.pf.hdmlay.setWidth 6) else none

def execHdmWrite (pa : BitVec 47) (bytes : List Byte) (s : State) : Out :=
  .next (if s.vfUp && inRange pa bytes.length && !s.spanOut pa.toNat bytes.length then
    s.asRequester none fun s => (s.spanTurn pa.toNat bytes.length).hdmPut s.hdmStamp pa.toNat (numOf bytes) bytes.length (bytes.length / 32 + 2)
    else s)

/-! ## The VF aperture (R398) -/

/-- The context that an aperture addresses. -/
def apCtx (vf : Fin 64) : Ctx := BitVec.ofNat 10 (16 * vf.val)

/-- A part of a request that lies in one 256-B row: its entry, physical address, virtual address, bytes. -/
structure ApPart where
  pte : Word
  pa  : Nat
  va  : Word
  n   : Nat
  deriving DecidableEq, Repr

/-- Whether the aperture reaches the bytes of a page: a compressed page has none to show (check 6), and an EMBC page is written in its
expanded form (R187). -/
def apReaches (write : Bool) (code : Layout) : Bool := !needsCompressed code || (write && isEmbc code)

/-- The parts of a request, each translated and checked. -/
def State.apParts (s : State) (vf : Fin 64) (write : Bool) (va : Word) (n : Nat) : Nat → State × Except Stop (List ApPart)
  | 0 => (s, .ok [])
  | fuel + 1 =>
    if n = 0 then (s, .ok [])
    else
      let k := min n (256 - va.toNat % 256)
      match s.reachVa 0 ⟨apCtx vf, 0, false⟩ false ⟨!write, write, false⟩ va with
      | (s, .error e) => (s, .error e)
      | (s, .ok (p, pa)) =>
        if !apReaches write (pteCode p) then (s, .error (.trap .conversionUnavailable va))
        else
          match s.apParts vf write (va + BitVec.ofNat 64 k) (n - k) fuel with
          | (s, .error e) => (s, .error e)
          | (s, .ok ps) => (s, .ok (⟨p, pa, va, k⟩ :: ps))

/-- The host function of a VF has failed a check: it is frozen, and the violation recorded (R360). -/
def State.freezeHost (s : State) (vf : Fin 64) (va : Word) (k : VKind := .hostAccess) : State :=
  let v : Violation := ⟨k, 5, 0, BitVec.ofNat 16 vf.val, apCtx vf, 0, va⟩
  (s.onVf vf fun x => { x with frozen := some v }).record v

/-- What comes of a stop: a violation at its address, or nothing. -/
def State.apStop (s : State) (vf : Fin 64) (e : Stop) : State :=
  match e with
  | .trap _ va => s.freezeHost vf va
  | .violation _ va => s.freezeHost vf va
  | _ => s

/-- The parts read in order; none where a stamp or tag disagrees. -/
def State.apGet (s : State) (vf : Fin 64) : List ApPart → State × Except Stop Nat
  | [] => (s, .ok 0)
  | p :: ps =>
    match s.readAt 0 ⟨apCtx vf, 0, false⟩ false p.va p.n with
    | (s, .error e) => (s, .error e)
    | (s, .ok g) =>
      match s.apGet vf ps with
      | (s, .error e) => (s, .error e)
      | (s, .ok y) => (s, .ok (g.x + y * 2 ^ (8 * p.n)))

/-- Whether the link that a request's parts go out by answers in time is open (R406, R409; log 81). -/
def State.hostAsk (s : State) (ps : List ApPart) : State :=
  match ps.findSome? fun p => linkOf p.pa with
  | none => s
  | some l =>
    let (n, s) := s.free
    if Config.freeDetect n then s else { s with mute := some l }

/-- A read: all ones after a violation or a mismatch; what a read gives whose context ends with it is open. What another package refuses is
a violation of its own kind (R408). -/
def State.apRead (s : State) (vf : Fin 64) (va : Word) (n : Nat) : State :=
  match s.apParts vf false va n (n / 256 + 2) with
  | (_, .error (.wait _)) => s
  | (s', .error e) => { s'.apStop vf e with hostOut := onesBytes n }
  | (s', .ok ps) =>
    let (s, r) := (s'.hostAsk ps).apGet vf ps
    let s := { s with mute := none }
    match r with
    | .ok x => { s with hostOut := bytesOf x n }
    | .error .gone =>
      let (k, s) := s.free
      { s with hostOut := bytesOf (Config.freeValue k).toNat n }
    | .error (.violation k va) => { s.freezeHost vf va k with hostOut := onesBytes n }
    | .error _ => { s with hostOut := onesBytes n }

def execVfApertureRead (vf : Fin 64) (off : BitVec 36) (len : Nat) (s : State) : Out :=
  .next (if s.vfUp && (s.vfs[vf].frozen).isNone then s.asRequester none (·.apRead vf (off.setWidth 64) len) else s)

/-- The sector in which bytes are written keeps what it holds where that is the page's own; zero where it is blank or another code's
(R398). None where the read of it is not answered. -/
def State.apBase (s : State) (who : Asker) (code : Layout) (pa : Nat) : State × Option (BitVec 256) :=
  if pa < 2 ^ 47 ∧ inHbm pa then
    if s.stampOf (pa / 32) = lostStamp ∧ !((s.lineAt (pa / 128)).any fun l => l.valid.getLsbD (pa / 32 % 4)) then (s, some 0)
    else
      match s.memRead who pa (1 <<< (pa / 32 % 4)) code .none with
      | (s, .got d _) => (s, some (lineSector d (pa / 32 % 4)))
      | (s, .refused) => (s, some 0)
      | (s, .lost) | (s, .denied) => (s, none)
  else
    let s := s.drainLine pa
    (s, some (BitVec.ofNat 256 (Memory.bytes s.mem (pa / 32 * 32) 32)))

/-- n bytes written in one row, sector by sector, under the page's code and with the aperture's context as owner (R181, R187, R398). What
the home refuses for its layout is dropped. -/
def State.apPut (s : State) (who : Asker) (code : Layout) (pa x n : Nat) : Nat → State × WriteOut
  | 0 => (s, .done)
  | fuel + 1 =>
    if n = 0 then (s, .done)
    else
      let lo := pa % 32
      let k := min n (32 - lo)
      let i := pa / 32 % 4
      let base : State × Option (BitVec 256) := if lo = 0 ∧ k = 32 then (s, some 0) else s.apBase who code pa
      match base with
      | (s, none) => (s, .done)
      | (s, some old) =>
        let new := mergeSector old lo (lo + k) (x % 2 ^ (8 * k))
        match s.memWrite who pa (1 <<< i) (setLineSector 0 i new) code .none false with
        | (s, .denied) => (s, .denied)
        | (s, _) => s.apPut who code (pa + k) (x / 2 ^ (8 * k)) (n - k) fuel

/-- The parts written in order; a discarded page keeps nothing. The address at which another package refuses is handed on. -/
def State.apPutAll (s : State) (vf : Fin 64) : List ApPart → Nat → State × Option Word
  | [], _ => (s, none)
  | p :: ps, x =>
    if pteDiscard p.pte = 1 then s.apPutAll vf ps (x / 2 ^ (8 * p.n))
    else
      match s.apPut ⟨apCtx vf, 0, false⟩ (pteCode p.pte) p.pa (x % 2 ^ (8 * p.n)) p.n 10 with
      | (s, .denied) => (s, some p.va)
      | (s, _) => s.apPutAll vf ps (x / 2 ^ (8 * p.n))

/-- A write is dropped after a violation; what another package refuses is a violation of its own kind (R408). -/
def State.apWrite (s : State) (vf : Fin 64) (va : Word) (bytes : List Byte) : State :=
  match s.apParts vf true va bytes.length (bytes.length / 256 + 2) with
  | (_, .error (.wait _)) => s
  | (s', .error e) => s'.apStop vf e
  | (s', .ok ps) =>
    let (s, r) := (s'.hostAsk ps).apPutAll vf ps (numOf bytes)
    let s := { s with mute := none }
    match r with
    | some va => s.freezeHost vf va .foreignPage
    | none => s

def execVfApertureWrite (vf : Fin 64) (off : BitVec 36) (bytes : List Byte) (s : State) : Out :=
  .next (if s.vfUp && (s.vfs[vf].frozen).isNone then s.asRequester none (·.apWrite vf (off.setWidth 64) bytes) else s)

end Sys2Proof.Machine
end

