-- ==== Sys2Proof/Machine/Hawser.lean ====
section
/-! DEFINITION. Hawser (R407-R411): requests from other packages, ports and their retries, the common time base. -/

namespace Sys2Proof.Machine

/-! ## Requests from other packages (R408) -/

def remoteWrites : RemoteOp → Bool
  | .read => false
  | _ => true

/-- A valid export entry covers the frame for the node, and allows what is asked. -/
def exportOk (e : Word × Word) (frame node : Nat) (write : Bool) : Bool :=
  let first := (e.1.extractLsb' 16 31).toNat
  e.1.getLsbD 63 && (!write || e.1.getLsbD 62) && decide (first ≤ frame) && decide (frame < first + (e.2.extractLsb' 0 32).toNat) &&
    decide ((e.2.extractLsb' 32 10).toNat ≤ node) && decide (node ≤ (e.2.extractLsb' 42 10).toNat)

def State.exported (s : State) (frame node : Nat) (write : Bool) : Bool := s.pf.exp.any fun e => exportOk e frame node write

/-- The atomic that an fn of AOW or CAS names (R62). -/
def remoteAtom (op : BitVec 5) (w64 sgn : Bool) : Option Atom :=
  let w := if w64 then 64 else 32
  match op.toNat with
  | 0x00 => some ⟨.addi, 32, false⟩
  | 0x01 => some ⟨.addi, 64, false⟩
  | 0x02 => some ⟨.addf, 32, false⟩
  | 0x03 => some ⟨.max, w, sgn⟩
  | 0x04 => some ⟨.min, w, sgn⟩
  | 0x05 => some ⟨.and, w, false⟩
  | 0x06 => some ⟨.or, w, false⟩
  | 0x07 => some ⟨.xor, w, false⟩
  | 0x08 => some ⟨.swap, w, false⟩
  | 0x10 => some ⟨.cas, w, false⟩
  | _ => none

/-- A row written at its home. -/
def State.putRow (s : State) (who : Asker) (code : Layout) (pa : Nat) (d : BitVec 2048) : State × WriteOut :=
  match (s.homeTurn pa).homeWrite who pa 15 (d.extractLsb' 0 1024) code .none false with
  | (s, .done) => (s.homeTurn (pa + 128)).homeWrite who (pa + 128) 15 (d.extractLsb' 1024 1024) code .none false
  | r => r

/-- Rows written in order, up to one that is refused. -/
def State.putChunk (s : State) (who : Asker) (code : Layout) : List (BitVec 47 × BitVec 2048) → State × WriteOut
  | [] => (s, .done)
  | r :: rest =>
    match s.putRow who code r.1.toNat r.2 with
    | (s, .done) => s.putChunk who code rest
    | x => x

/-- What a chunk's writes answer. -/
def WriteOut.answer (w : WriteOut) (ok : FarAnswer) : FarAnswer :=
  match w with
  | .done => ok
  | .refused => .mismatch
  | .denied => .refused

/-- The receiving port writes the data rows and checks them; a good chunk takes its trailer, a bad one is asked for again once, and then
its trailer says that it failed (R326, R327). -/
def State.serveChunk (s : State) (who : Asker) (code : Layout) (int again : Bool) (rows : List (BitVec 47 × BitVec 2048)) :
    State × FarAnswer :=
  match s.putChunk who code rows.dropLast, rows.getLast? with
  | (s, .done), some last =>
    let t := trailerOf last.2.toNat
    let good := collGood int (rows.dropLast.map (·.2)) t
    if !good && !again then (s, .badChunk)
    else
      let (s, w) := s.putRow who code last.1.toNat (if good then last.2 else { t with st := 2 }.row)
      (s, w.answer (if good then .done else .badChunk))
  | (s, w), _ => (s, w.answer .done)

/-- A request that has passed checks 1 and 2: its effect and its answer. -/
def State.serveRemote (s : State) (r : RemoteReq) : State × FarAnswer :=
  let who : Asker := ⟨r.ctx, 0, true⟩
  let pa := r.pa.toNat
  let i := pa / 32 % 4
  let mask : BitVec 4 := 1 <<< i
  match r.op with
  | .read =>
    match (s.homeTurn pa).homeRead who pa mask r.code .none with
    | (s, .got d _) => (s, .data (lineSector d i))
    | (s, .refused) => (s, .mismatch)
    | (s, .denied) => (s, .refused)
    | (s, .lost) => (s, .lost)
  | .write x =>
    match (s.homeTurn pa).homeWrite who pa mask (setLineSector 0 i x) r.code .none false with
    | (s, .done) => (s, .done)
    | (s, .denied) => (s, .refused)
    | (s, .refused) => (s, .mismatch)
  | .chunk int again rows => s.serveChunk who r.code int again rows
  | .atomic op w64 sgn a b =>
    match remoteAtom op w64 sgn with
    | none => (s, .refused)
    | some x =>
      match s.applyAtom who x r.code pa 0 a b true with
      | (s, .ok old) => (s, .old (BitVec.ofNat 64 old))
      | (s, .error .gone) => (s, .lost)
      | (s, .error _) => (s, .mismatch)

/-- The addresses that a request names. -/
def remotePlaces (r : RemoteReq) : List Nat :=
  match r.op with
  | .chunk _ _ rows => rows.map fun x => x.1.toNat
  | _ => [r.pa.toNat]

/-- A request that can have been sent: an atomic is aligned (R316), a chunk is of aligned rows (R325). -/
def remoteAligned (r : RemoteReq) : Bool :=
  match r.op with
  | .atomic op w64 sgn _ _ => ((remoteAtom op w64 sgn).map fun x => r.pa.toNat % (x.w / 8) == 0).getD true
  | .chunk _ _ rows => !rows.isEmpty && rows.all fun x => x.1.toNat % 256 == 0
  | _ => true

/-- HAWSER_REMOTE_REQUEST: the checks in order; what the home cannot reach is lost there. -/
def State.remoteRequest (s : State) (r : RemoteReq) : State :=
  if !((remotePlaces r).all fun pa => s.exported (pa / 65536) r.node.toNat (remoteWrites r.op)) || r.noncoherent then { s with fab := { s.fab with answer := .refused } }
  else if !(remotePlaces r).all s.homeUp then { s with fab := { s.fab with answer := .lost } }
  else
    let (s, a) := s.serveRemote r
    { s with fab := { s.fab with answer := a } }

def execHawserRemoteRequest (r : RemoteReq) (s : State) : Out :=
  .next (if s.vfUp && remoteAligned r && !(remotePlaces r).any s.dieOut then s.asRequester none (·.remoteRequest r) else s)

/-! ## Ports (R407) -/

/-- A retry of a flit: whether it fails again is not the machine's to say. -/
def State.flitRetry (s : State) (port : Fin 36) : State :=
  if !s.fab.up[port] || 16 ≤ s.fab.retry[port] then s
  else
    let (n, s) := s.free
    let k := if Config.freeDetect n then s.fab.retry[port] + 1 else 0
    { s with fab := { s.fab with retry := s.fab.retry.set port k } }

def execHawserFlitRetry (port : Fin 36) (s : State) : Out := .next (s.flitRetry port)

/-- A port that failed 16 retries in a row goes down; requests to a node choose among the ports that are left, those it held first. -/
def execHawserPortDown (port : Fin 36) (s : State) : Out :=
  .next (if s.fab.up[port] && decide (16 ≤ s.fab.retry[port]) then
    State.resend { s with fab := { s.fab with up := s.fab.up.set port false } } port else s)

def execHawserPortUp (port : Fin 36) (s : State) : Out :=
  .next (if s.fab.up[port] then s else { s with fab := { s.fab with up := s.fab.up.set port true, retry := s.fab.retry.set port 0 } })

/-! ## The time base (R411) -/

/-- This package is the time-base master. -/
def State.timeMaster (s : State) : Bool := s.pf.gtbctl == s.pf.nodeid

/-- A time message: what gtb lacks to the master's is to be slewed away. -/
def execGtbTimeMessage (master : Word) (s : State) : Out :=
  .next (if s.timeMaster then s
    else { s with fab := { s.fab with lead := (master.toNat * 189 : Nat) - (s.gtbq : Int), lastMsg := s.gtbq, lost := false } })

/-- 1 ms without a time message. -/
def execGtbLost (s : State) : Out :=
  .next (if s.timeMaster || decide (s.gtbq < s.fab.lastMsg + 189000000) then s
    else { s with fab := { s.fab with lost := true, lead := 0 } })

end Sys2Proof.Machine
end

