-- ==== Sys2Proof/Machine/Platform.lean ====
section
/-! DEFINITION. Lovage (R412-R419): bring-up, firmware and attestation, power, cooling; the registers of BAR0 as the host reads them. -/

namespace Sys2Proof.Machine

/-! ## Bring-up (R412) -/

/-- Whether an image may run: it has passed R414's checks of form, and its security version is not rolled back. -/
def imageOk (passed : Bool) (svn fuse : BitVec 32) : Bool := (passed || Config.bootImageOk) && decide (fuse ≤ svn)

/-- The image that a bring-up runs: the staged one where there is one that still passes R414, the one that ran otherwise. FAIL is set
where the image to be started does not pass. -/
def MgSt.boot (m : MgSt) : MgSt :=
  match m.staged with
  | some (v, d) =>
    if m.fuse ≤ v then { m with svn := v, body := some d, passed := true, staged := none, fail := false }
    else { m with staged := none, fail := true }
  | none => { m with fail := !imageOk m.passed m.svn m.fuse }

/-- The machine as power finds it: what lies outside the package, in its fuses and in memory not yet scrubbed stays. -/
def State.powerOn (s : State) (m : MgSt) : State :=
  { State.reset with
    mem := s.mem
    marks := s.marks
    pf := { PfRegs.reset with nodeid := s.pf.nodeid }
    mg := m
    agenda := s.agenda
    fresh := s.fresh }

/-- PACKAGE_RESET: state 1; a firmware image that fails R414 holds the package there. -/
def State.packageReset (s : State) : State :=
  let m := s.mg.boot
  let m : MgSt := { MgSt.reset with step := m.step, svn := m.svn, fuse := m.fuse, body := m.body, passed := m.passed, fail := m.fail }
  { s.powerOn m with mgst := 1 }

def execPackageReset (s : State) : Out := .next s.packageReset

/-- Sectors of the addresses from `lo` up to `hi` become blank (R184). -/
def State.blank (s : State) (lo hi : Nat) : State :=
  { s with mem := s.mem.filter (fun e => !(decide (lo ≤ e.1) && decide (e.1 < hi))),
           marks := s.marks.filter fun e => !(decide (lo ≤ 32 * e.1) && decide (32 * e.1 < hi)) }

/-- Die 0 with stacks 0 and 1 enters service. -/
def execFirstDieBringup (s : State) : Out :=
  .next (if s.mgst == 1 && !s.mg.fail then { s.blank 0 (2 ^ 37) with mgst := 2 } else s)

/-- Reduced service begins; then dies 1 to 7 with their stacks enter service, and take the device's writes that waited for them. -/
def State.remainingDies (s : State) : State :=
  if s.mgst = 2 then { s with mgst := 3, mg := { s.mg with dies := false } }
  else if s.mgst = 3 ∧ s.mg.dies = false then State.payOwed { s.blank (2 ^ 37) (2 ^ 40) with mg := { s.mg with dies := true } }
  else s

def execRemainingDiesBringup (s : State) : Out := .next s.remainingDies

/-- Full service, from an interval boundary of cluster 0 on; the fused counter advances to the image's version (R414). -/
def execFullServiceEntry (s : State) : Out :=
  .next (if s.mgst == 3 && s.mg.dies && s.clusters[0].clk % 2100 == 0 then
    { s with mgst := 4, mg := { s.mg with fuse := if s.mg.fuse ≤ s.mg.svn then s.mg.svn else s.mg.fuse } } else s)

/-! ## Firmware (R414, R416) -/

/-- An image of device memory: header and body; none where it does not lie in device memory whole. -/
def State.image (s : State) (pa : Nat) : Option (Nat × List Byte) :=
  let h := s.shownBytes pa 512
  let n := byteField h 8 8
  if 2 ^ 40 < pa + 512 + n then none else some (h, bytesOf (s.shownBytes (pa + 512) n) n)

/-- The image as Lovage reads it, header and then body, with the checks of any read; none where a sector of it is lost too (R364, R370). -/
def State.readImage (s : State) (pa : Nat) : State × Option (Nat × List Byte) :=
  match s.checkSpan ⟨0, 0, true⟩ pa 512 with
  | (s, true) => (s, none)
  | (s, false) =>
    match s.image pa with
    | none => (s, none)
    | some (_, body) =>
      match s.checkSpan ⟨0, 0, true⟩ (pa + 512) body.length with
      | (s, true) => (s, none)
      | (s, false) => (s, s.image pa)

/-- The header's version. -/
def imageSvn (h : Nat) : BitVec 32 := BitVec.ofNat 32 (byteField h 4 4)

/-- An image passes R414. -/
def imageValid (h : Nat) (body : List Byte) (fuse : BitVec 32) : Bool :=
  byteField h 0 4 == 0x4657564B && byteField h 160 352 == 0 && byteField h 16 48 == (Config.sha384 body).toNat &&
    Config.ecdsaVerify Config.vendorKeyHash (Config.sha384 (bytesOf h 64)) (BitVec.ofNat 768 (byteField h 64 96)) &&
    decide (fuse ≤ imageSvn h)

/-- Some line of an image is homed on a die that is not yet in service (R413). -/
def State.imageOut (s : State) (pa : Nat) : Bool :=
  s.spanOut pa 512 || (s.image pa).any fun x => s.spanOut (pa + 512) x.2.length

/-- FIRMWARE_ACTIVATE: the staged image runs from the next reset on, or FAIL is set. -/
def State.activate (s : State) : State :=
  match s.readImage s.mg.fwaddr.toNat with
  | (s, some (h, body)) =>
    if imageValid h body s.mg.fuse then { s with mg := { s.mg with staged := some (imageSvn h, Config.sha384 body) } }
    else { s with mg := { s.mg with fail := true } }
  | (s, none) => { s with mg := { s.mg with fail := true } }

def execFirmwareActivate (value : Word) (s : State) : Out :=
  .next (if s.pfUp && value.getLsbD 0 && s.mg.fwaddr != 0 && !s.imageOut s.mg.fwaddr.toNat then s.activate else s)

/-! ## Attestation (R415) -/

/-- Bytes 0 to 291 of a report. -/
def State.reportBody (s : State) (nonce : Nat) : Nat :=
  nonce + (s.mg.body.getD Config.bootDigest).toNat * 2 ^ 384 + Config.lovageDigest.toNat * 2 ^ 768 + Config.configDigest.toNat * 2 ^ 1152 +
    s.mg.svn.toNat * 2 ^ 1536 + Config.devicePublicKey.toNat * 2 ^ 1568

/-- The report. -/
def State.report (s : State) (nonce : Nat) : Nat :=
  let x := s.reportBody nonce
  x + (Config.deviceSign (Config.sha384 (bytesOf x 292))).toNat * 2 ^ 2336

/-- ATTESTATION_REPORT. -/
def State.attest (s : State) : State :=
  let a := s.mg.attaddr.toNat
  let (s, _) := s.checkSpan ⟨0, 0, true⟩ a 48
  let s := s.putRecord a (s.report (s.shownBytes a 48)) 512
  { s with mg := { s.mg with att := true } }

def execAttestationReport (s : State) : Out := .next (if s.pfUp && !s.spanOut s.mg.attaddr.toNat 512 then s.attest else s)

/-! ## Power (R417, R418) -/

/-- The level after a check: one up above the limit, one down below nine tenths of it; a thermal hold keeps it (R419). -/
def MgSt.checked (m : MgSt) (watts : BitVec 16) : MgSt :=
  let m := { m with pwnow := watts }
  if m.thot then m
  else if m.pwcap.toNat < watts.toNat then { m with level := if m.level = 3 then 3 else m.level + 1 }
  else if 10 * watts.toNat < 9 * m.pwcap.toNat then { m with level := if m.level = 0 then 0 else m.level - 1 }
  else m

def execPowerCheck (watts : BitVec 16) (s : State) : Out := .next (if s.pfUp then { s with mg := s.mg.checked watts } else s)

/-! ## Cooling (R419) -/

/-- A reading of the hottest junction: the hold begins at 105 °C and ends below 95 °C; at 115 °C the compute dies lose power, and only a
package reset brings them back. -/
def State.thermal (s : State) (celsius : Byte) : State :=
  let m := { s.mg with tjmax := celsius }
  let m : MgSt := if 105 ≤ celsius.toNat then { m with thot := true, level := 3 }
    else if celsius.toNat < 95 then { m with thot := false } else m
  if 115 ≤ celsius.toNat then s.powerOn m else { s with mg := m }

def execThermalHot (celsius : Byte) (s : State) : Out := .next (if s.pfUp then s.thermal celsius else s)
def execThermalCool (celsius : Byte) (s : State) : Out := .next (if s.pfUp then s.thermal celsius else s)
def execThermalShutdown (celsius : Byte) (s : State) : Out := .next (if s.pfUp then s.thermal celsius else s)

/-! ## The registers as the host reads them (R400, R404, R416) -/

/-- Bits of a register from values at bit offsets. -/
def regBits (l : List (Nat × Nat)) : Word := BitVec.ofNat 64 (l.foldl (fun x e => x + e.2 * 2 ^ e.1) 0)

/-- mgst. -/
def State.mgstWord (s : State) : Word :=
  regBits [(0, s.mgst % 8), (3, s.mg.fail.toNat), (4, s.mg.att.toNat), (5, s.mg.level.val), (8, s.mg.thot.toNat)]

/-- sqstat. -/
def VfSt.sqstat (v : VfSt) : Word :=
  regBits ((List.finRange 4).flatMap fun q => [(16 * q.val, v.sqs[q].head.toNat), (16 * q.val + 12, v.sqs[q].stalled.toNat)])

/-- pstat; its six bits of count hold 64 as 0 (DESIGN CHOICE, log 88). -/
def State.pstat (s : State) : Word := regBits [(0, s.prq.length % 64), (6, (s.prq.any fun r => r.late).toNat)]

/-- A register that HOST_REGISTER_WRITE does not write. -/
inductive HostView where
  | sqbase (vf : Fin 64) (q : Fin 4)
  | sqstat (vf : Fin 64)
  | evtail (vf : Fin 64)
  | nodeid | pstat | vlhead | mgst | mgstep | pwnow | tjmax
  deriving DecidableEq, Repr

def State.hostView (s : State) (r : HostView) : Word :=
  match r with
  | .sqbase vf q => s.vfs[vf].sqs[q].base
  | .sqstat vf => s.vfs[vf].sqstat
  | .evtail vf => s.vfs[vf].evtail.setWidth 64
  | .nodeid => s.pf.nodeid.setWidth 64
  | .pstat => s.pstat
  | .vlhead => BitVec.ofNat 32 s.vlhead |>.setWidth 64
  | .mgst => s.mgstWord
  | .mgstep => s.mg.step.setWidth 64
  | .pwnow => s.mg.pwnow.setWidth 64
  | .tjmax => s.mg.tjmax.setWidth 64

/-- A register that HOST_REGISTER_WRITE writes, as it reads; vfrst is written only. -/
def State.hostRead (s : State) (r : HostReg) : Option Word :=
  match r with
  | .sqsize vf q => some (s.vfs[vf].sqs[q].k.setWidth 64)
  | .lgrp vf => some (s.vfs[vf].lgrp.setWidth 64)
  | .evq vf => some s.vfs[vf].evq
  | .rrec vf => some s.vfs[vf].rrec
  | .vfrst _ => none
  | .ctxtab => some s.pf.ctxtab
  | .psave => some s.pf.psave
  | .vlbase => some s.pf.vlbase
  | .mpd n => some s.pf.mpd[n]
  | .hdmlay => some (s.pf.hdmlay.setWidth 64)
  | .exp n hi => some (if hi then s.pf.exp[n].2 else s.pf.exp[n].1)
  | .rt n => some s.pf.rt[n]
  | .gtbctl => some (regBits [(0, s.pf.gtbctl.toNat), (16, s.fab.lost.toNat)])
  | .pwcap => some (s.mg.pwcap.setWidth 64)
  | .fwaddr => some s.mg.fwaddr
  | .attaddr => some s.mg.attaddr

end Sys2Proof.Machine
end

