-- ==== Sys2Proof/Machine/VecFloat.lean ====
section
/-! DEFINITION. Float arithmetic, compares and mask logic on lanes: majors 0x1A, 0x1B and 0x1C (R125-R128). -/

namespace Sys2Proof.Machine

/-- The format of a lane type of float arithmetic. -/
def fmtOf (t : LTy) : Flt := (ltyFlt t).getD .fp32

/-- The value of a float lane. -/
def fval (t : LTy) (x : Nat) : FV := decodeF (fmtOf t) x

/-- One rounded operation of EX (R125). -/
def rnd (t : LTy) (rz sat : Bool) (x : FV) : Nat := roundF (fmtOf t) rz sat .exVector x

def faddCode (t : LTy) (rz sat : Bool) (a b : Nat) : Nat := rnd t rz sat (addF .exVector (fval t a) (fval t b))
def fsubCode (t : LTy) (rz sat : Bool) (a b : Nat) : Nat := rnd t rz sat (addF .exVector (fval t a) (negF (fval t b)))
def fmulCode (t : LTy) (rz sat : Bool) (a b : Nat) : Nat := rnd t rz sat (mulF .exVector (fval t a) (fval t b))

/-- The sign of a value that is no NaN. -/
def FV.neg : FV → Bool
  | .nan _ => false
  | .inf s => s
  | .fin s _ _ => s

/-- A code of a lane type as a result: a NaN of a float type has its quiet bit set (R31). -/
def quietCode (t : LTy) (x : Nat) : Nat :=
  if !t.isInt && (fval t x).isNan then x ||| 2 ^ ((fmtOf t).mbits - 1) else x

/-- The lesser or greater, exact, with −0 below +0; a NaN input first (R42, R125). -/
def fpick (t : LTy) (greater : Bool) (a b : Nat) : Nat :=
  let x := fval t a
  let y := fval t b
  match firstNan [x, y] with
  | some n => narrowNan (fmtOf t) n
  | none =>
    match cmpF x y with
    | .lt => if greater then b else a
    | .gt => if greater then a else b
    | .eq => if greater then (if x.neg then b else a) else (if x.neg then a else b)

def execVfadd (sat rz : Bool) (o : V2) (s : State) : Out := .next (lane2 o 3 false (faddCode o.ty rz sat) s)
def execVfsub (sat rz : Bool) (o : V2) (s : State) : Out := .next (lane2 o 3 false (fsubCode o.ty rz sat) s)
def execVfmul (sat rz : Bool) (o : V2) (s : State) : Out := .next (lane2 o 3 false (fmulCode o.ty rz sat) s)
def execVfmin (o : V2) (s : State) : Out := .next (lane2 o 3 false (fpick o.ty false) s)
def execVfmax (o : V2) (s : State) : Out := .next (lane2 o 3 false (fpick o.ty true) s)

/-- VFABS and VFNEG change the sign bit alone, NaNs included (R125). -/
def execVfabs (o : V1) (s : State) : Out := .next (lane1 o 1 false (fun a => quietCode o.ty (a % 2 ^ (o.ty.width - 1))) s)
def execVfneg (o : V1) (s : State) : Out := .next (lane1 o 1 false (fun a => quietCode o.ty (a ^^^ 2 ^ (o.ty.width - 1))) s)

/-- Fused multiply-add with one rounding; `np` negates the product, `nc` the addend (R126). -/
def fmaCode (t : LTy) (rz sat np nc : Bool) (a b c : Nat) : Nat :=
  let x := fval t a
  let y := fval t b
  let z := fval t c
  rnd t rz sat (fmaF .exVector (if np then negF x else x) y (if nc then negF z else z))

def execVfma (sat rz : Bool) (o : V3) (s : State) : Out := .next (lane3 o 4 (fmaCode o.ty rz sat false false) s)
def execVfms (sat rz : Bool) (o : V3) (s : State) : Out := .next (lane3 o 4 (fmaCode o.ty rz sat false true) s)
def execVfnma (sat rz : Bool) (o : V3) (s : State) : Out := .next (lane3 o 4 (fmaCode o.ty rz sat true false) s)

/-! ## Compares (R127) -/

/-- Three-way comparison of two lanes of one type; none where a float lane is a NaN. -/
def cmpLane (t : LTy) (x y : Nat) : Option Ordering :=
  if t.isInt then some (compare (ival t.width t.isSigned x) (ival t.width t.isSigned y))
  else
    let a := fval t x
    let b := fval t y
    if a.isNan || b.isNan then none else some (cmpF a b)

/-- VCMP: bits N to 255 of the mask become zero; an inactive bit keeps its value, or is zero with mz (R127). -/
def vcmp (o : VCmp) (c : Option Ordering → Bool) (s : State) : State :=
  let t := o.ty
  let m := s.here.mask o.mask
  let n := viewLanes o.wide t
  vecOp [o.x, o.y] (some t) none (fun k vs =>
    let x := (nth vs 0).lane t
    let y := (nth vs 1).lane t
    let res := pack 1 (fun l => if c (cmpLane t (x l) (y l)) then 1 else 0) n
    let act := m.toNat % 2 ^ n
    let above := 2 ^ 256 - 2 ^ n
    k.later (viewLat o.wide 2) (.k o.kd (BitVec.ofNat 256 (above + if o.mz then 2 ^ n - 1 else act))
      (BitVec.ofNat 256 (res &&& act)))) s

def execVcmpEq (o : VCmp) (s : State) : Out := .next (vcmp o (· == some .eq) s)
def execVcmpNe (o : VCmp) (s : State) : Out := .next (vcmp o (· != some .eq) s)
def execVcmpLt (o : VCmp) (s : State) : Out := .next (vcmp o (· == some .lt) s)
def execVcmpLe (o : VCmp) (s : State) : Out := .next (vcmp o (fun r => r == some .lt || r == some .eq) s)
def execVcmpGt (o : VCmp) (s : State) : Out := .next (vcmp o (· == some .gt) s)
def execVcmpGe (o : VCmp) (s : State) : Out := .next (vcmp o (fun r => r == some .gt || r == some .eq) s)
def execVcmpUn (o : VCmp) (s : State) : Out := .next (vcmp o (· == none) s)

/-! ## Mask logic (R128) -/

/-- A mask result, one slot later. -/
def maskOp (d : Fin 8) (x : Mask) (s : State) : State := (s.mod fun k => k.later 1 (.k d (BitVec.allOnes 256) x)).retire 8

def execKand (d a b : Fin 8) (s : State) : Out := .next (maskOp d (s.here.mask a &&& s.here.mask b) s)
def execKor (d a b : Fin 8) (s : State) : Out := .next (maskOp d (s.here.mask a ||| s.here.mask b) s)
def execKxor (d a b : Fin 8) (s : State) : Out := .next (maskOp d (s.here.mask a ^^^ s.here.mask b) s)
def execKnot (d a : Fin 8) (s : State) : Out := .next (maskOp d (~~~(s.here.mask a)) s)
def execKmov (d a : Fin 8) (s : State) : Out := .next (maskOp d (s.here.mask a) s)
def execKpopc (d : Fin 32) (a : Fin 8) (s : State) : Out :=
  .next ((s.writeS d (BitVec.ofNat 64 (popCount (s.here.mask a).toNat 256)) 2).retire 8)

end Sys2Proof.Machine
end

