-- ==== Sys2Proof/Machine/Transcend.lean ====
section
/-! DEFINITION. VEXP2, VLOG2, VRCP and VRSQ (R140): the exact value, rounded once. No exact value is a tie, so the
fixed-point value with a last sticky one, far below the rounding place, rounds as the exact one does. -/

namespace Sys2Proof.Machine

/-- Fraction bits of the fixed-point values. -/
def fxP : Nat := 320

/-- floor(ln 2 × 2^320). -/
def fxLn2 : Nat := 0xb17217f7d1cf79abc9e3b39803f2f6af40f343267298b62d8a0d175b8baafa2be7b876206debac98

/-- e^t − the terms already summed, in fixed point: the exponential series from term i on. -/
def expSeries (t : Nat) : Nat → Nat → Nat → Nat
  | 0, _, _ => 0
  | fuel + 1, i, term => term + expSeries t fuel (i + 1) ((term * t) >>> fxP / (i + 1))

/-- The series z + z³/3 + z⁵/5 + ... from the term of index k on. -/
def atanhSeries (z2 : Nat) : Nat → Nat → Nat → Nat
  | 0, _, _ => 0
  | fuel + 1, k, term => term / (2 * k + 1) + atanhSeries z2 fuel (k + 1) ((term * z2) >>> fxP)

/-- Integer square root, one bit at a time. -/
def isqrt (x : Nat) : Nat → Nat → Nat
  | 0, r => r
  | i + 1, r => isqrt x i (if (r + 2 ^ i) * (r + 2 ^ i) ≤ x then r + 2 ^ i else r)

/-- An exponent far outside every format's range stands for any beyond it. -/
def clampExp (n : Int) : Int := if n < -2000 then -2000 else if 2000 < n then 2000 else n

/-- 2^x. -/
def exp2F (x : FV) : FV :=
  match x with
  | .nan b => .nan b
  | .inf s => if s then .fin false 0 0 else .inf false
  | .fin s m e =>
    let num : Int := sigAt s m (if 0 ≤ e then e else 0) 0
    let k : Nat := (-e).toNat
    let n := num / (2 : Int) ^ k
    let r := (num - n * (2 : Int) ^ k).toNat
    if r = 0 then powF (clampExp n)
    else
      let f := r <<< fxP >>> k
      let v := expSeries ((f * fxLn2) >>> fxP) 100 0 (2 ^ fxP)
      .fin false (2 * v + 1) (clampExp n - fxP - 1)

/-- log2 x. -/
def log2F (x : FV) : FV :=
  match x with
  | .nan b => .nan b
  | .inf s => if s then .nan (evNan false .invalid .exVector 3) else .inf false
  | .fin s m e =>
    if m = 0 then .inf true
    else if s then .nan (evNan false .invalid .exVector 3)
    else
      let L := Nat.log2 m
      if m = 2 ^ L then intF (L + e)
      else
        let y := m <<< fxP >>> L
        let z := (y - 2 ^ fxP) <<< fxP / (y + 2 ^ fxP)
        let ln := 2 * atanhSeries ((z * z) >>> fxP) 120 0 z
        let v : Int := ((L : Int) + e) * (2 : Int) ^ fxP + ((ln <<< fxP / fxLn2 : Nat) : Int)
        .fin (decide (v < 0)) (2 * v.natAbs + 1) (-(fxP : Int) - 1)

/-- 1 ÷ x. -/
def rcpF (x : FV) : FV :=
  match x with
  | .nan b => .nan b
  | .inf s => .fin s 0 0
  | .fin s m e =>
    if m = 0 then .inf s
    else
      let q := 2 ^ fxP / m
      let sticky := if 2 ^ fxP % m = 0 then 0 else 1
      .fin s (2 * q + sticky) (-e - fxP - 1)

/-- 1 ÷ √x. -/
def rsqF (x : FV) : FV :=
  match x with
  | .nan b => .nan b
  | .inf s => if s then .nan (evNan false .invalid .exVector 3) else .fin false 0 0
  | .fin s m e =>
    if m = 0 then .inf s
    else if s then .nan (evNan false .invalid .exVector 3)
    else
      let m' := if e % 2 = 0 then m else 2 * m
      let h := (if e % 2 = 0 then e else e - 1) / 2
      let q := 2 ^ (2 * fxP) / m'
      let r := isqrt q (fxP + 1) 0
      let sticky := if r * r * m' = 2 ^ (2 * fxP) then 0 else 1
      .fin false (2 * r + sticky) (-h - fxP - 1)

/-- One lane of a transcendental. -/
def transCode (t : LTy) (f : FV → FV) (x : Nat) : Nat := rnd t false false (f (fval t x))

def execVexp2 (o : V1) (s : State) : Out := .next (lane1 o 8 false (transCode o.ty exp2F) s true)
def execVlog2 (o : V1) (s : State) : Out := .next (lane1 o 8 false (transCode o.ty log2F) s true)
def execVrcp (o : V1) (s : State) : Out := .next (lane1 o 8 false (transCode o.ty rcpF) s true)
def execVrsq (o : V1) (s : State) : Out := .next (lane1 o 8 false (transCode o.ty rsqF) s true)

end Sys2Proof.Machine
end

