-- ==== Sys2Proof/Machine/Turn.lean ====
section
/-! DEFINITION. What a sequencer does when its turn comes: the events that go before an instruction (R349), the decode checks with
the yield assertion (R69), the hold at a yield point and the diversion (R355), and the yield bound (R81). -/

namespace Sys2Proof.Machine

/-! ## Diversion (R355) -/

/-- What a sequencer blocked at one of R355's waits waits for has not come. -/
def State.stillWaits (s : State) (c : CoreId) (q : Seq) : Bool :=
  let k := s.core c
  match (k.seq q).wait with
  | .queueEmpty qs => qs.any fun n => decide (k.queues[n].entries.length < qs.count n)
  | .bqEmpty => k.bqs[q.num].isEmpty
  | .rqEmpty => k.rq.isEmpty
  | .tokw t n => decide (k.toks[t].toNat < n.toNat)
  | .hwait h => (s.hitch (clusterOf c) h).count != 0 && !(s.hitch (clusterOf c) h).broken
  | .drain m => match s.stageRec c ((k.strand.map (·.stage)).getD 0) with
    | some (r, x) => drainWaits m r.depth x.entries.length x.flushed
    | none => true
  | .destFull n => !k.room n
  | .bqFull n => !k.bqRoom n
  | .phaseEnd => (k.seq q).copy.isSome && !k.allAtEnd
  | .held => true
  | .none | .barrier | .slice _ | .fill | .other => false

/-- The word at which a sequencer stands has yp set. -/
def Core.ypAt (k : Core) (q : Seq) : Bool := (k.fetch k.ctx (k.seq q).pc).any fun w => ypOf w.1

/-- A pc at which a sequencer may divert: covered, outside a handler, with no trap due first and no window to run again. -/
def State.divertible (s : State) (c : CoreId) (q : Seq) : Bool :=
  let k := s.core c
  let st := k.seq q
  !st.inTrap && st.sevTrap.isNone && (s.drainAt k.ctx q st.pc).isSome && (q != .ctl || k.chk.again.isEmpty)

/-- A sequencer that does not delay the diversion: halted, or held or blocked at such a pc. The yield assertion goes before the
diversion (R349). -/
def State.seqReady (s : State) (c : CoreId) (q : Seq) : Bool :=
  let k := s.core c
  match (k.seq q).run with
  | .halted => true
  | .running => s.stillWaits c q && s.divertible c q && !(k.ypAt q && k.tokensLeft q)
  | _ => false

/-- All four sequencers wait in a SYNC for the gang barrier (R355). -/
def Core.allAtBarrier (k : Core) : Bool := Seq.all.all fun q => (k.seq q).wait == .barrier || (k.seq q).run == .halted

/-- CTL takes a delivered engine fault before its next instruction issues, also in a handler, and also where it stands before issue at
the copy of a phase end that has not begun, or at a GVI (R308, R348, R349, R355; DEDUCED, log 68). -/
def Core.faultDue (k : Core) : Bool :=
  k.engFault && (k.seq .ctl).run == .running && !k.inEnd .ctl && k.chk.again.isEmpty

/-- The core diverts now (R355). -/
def State.diverts (s : State) (c : CoreId) : Bool :=
  let k := s.core c
  k.req.isSome && k.divert.isNone && !k.faultDue && (Seq.all.any fun q => (k.seq q).run == .running) &&
    ((Seq.all.all fun q => s.seqReady c q) ||
      (k.allAtBarrier && Seq.all.all fun q => (k.seq q).run == .halted || s.divertible c q))

/-! ## The turn of a sequencer -/

/-- EX has issued in this clk, or a wide instruction holds it (R121). -/
def State.exHeld (s : State) : Bool := s.cur.2 == .ex && decide (s.clk < s.here.ex.free)

/-- An instruction about to issue reads its registers, the heads of its queues, its LATT entry and its decoded micro-op, each with its
check (R364); where that ends the strand, nothing issues. -/
def State.reading (s : State) (i : Instr) : State × Option Instr :=
  if s.errs.isEmpty then (s, some i)
  else
    let (c, pc) := (s.cur.1, s.me.pc)
    let t := (s.checkUses i).fallApart s c
    let (t, i) := match i with
      | .splc => (t.checkLatt c t.here.ctx (pc.extractLsb' 16 32).toNat pc, some i)
      | i => t.checkOp c t.here.ctx pc i
    (t, if t.here.strand.isSome then i else none)

/-- What happens at the turn of the current sequencer: nothing, or one instruction or event. The state returned records
the hold at a yield point, the yp bit of the word, what CTL logs, and the use of the code line; where fetch has come to another line, its
prefetch goes on first (R226). Every check of R69 is made at each turn, also for an instruction
that has blocked before, and the yield bound before the instruction's own waits and traps (DESIGN CHOICE, log 73). -/
def State.turn (s : State) : State × Option Instr :=
  let (c, q) := s.cur
  let k := s.here
  let st := s.me
  if q = .ctl && st.run == .running && !k.chk.again.isEmpty then
    match s.rerun with
    | (s, some i) => s.reading i
    | r => r
  else if q = .ctl && k.faultDue then (s, some .engineFaultDelivery)
  else if s.diverts c then (s, some (.diversion c))
  else if st.run ≠ .running || k.inEnd q || s.exHeld then (s, none)
  else if st.sevTrap.isSome then (s, some .severityTrap)
  else if st.copy.isSome || st.gvi.isSome then (s, none)
  else
    let s := s.checkLine c k.ctx st.pc
    match s.here.fetch k.ctx st.pc with
    | none => (s, some (.codeLineFill c q))
    | some (w0, w1) =>
      if st.ahead ≠ some (lineOf st.pc) then (s, some (.codeLineFill c q)) else
      let s := s.mod fun k => k.touchCode k.ctx st.pc
      match decode q st.pc w0 w1 s.reduced with
      | .error e => (s, some (.decodeTrap e w0))
      | .ok f =>
        let live := f.yp && k.divert.isNone
        if live && k.tokensLeft q then (s, some (.decodeTrap .yieldAssertion w0))
        else if live && k.req.isSome && !st.inTrap && (s.drainAt k.ctx q st.pc).isSome then (s.block .held, none)
        else if k.overBound q f.yp then (s, some .yieldBoundExceeded)
        else ({ s with curYp := f.yp, curLog := if q = .ctl then s.logOf w0 f.instr else [], curAgain := 0 } : State).reading f.instr

end Sys2Proof.Machine
end

