-- ==== Sys2Proof/Machine/VecInt.lean ====
section
/-! DEFINITION. Integer, logic and shift instructions on lanes: majors 0x18 and 0x19 (R123, R124). -/

namespace Sys2Proof.Machine

/-- A lane's integer result: saturated with SAT, else wrapped (R29, R123). -/
def intRes (t : LTy) (sat : Bool) (r : Int) : Nat := if sat then satCode t.width t.isSigned r else wrap t.width r

/-- The value of a lane code under an integer type. -/
def laneVal (t : LTy) (x : Nat) : Int := ival t.width t.isSigned x

def execVadd (sat : Bool) (o : V2) (s : State) : Out :=
  .next (lane2 o 1 false (fun a b => intRes o.ty sat (laneVal o.ty a + laneVal o.ty b)) s)
def execVsub (sat : Bool) (o : V2) (s : State) : Out :=
  .next (lane2 o 1 false (fun a b => intRes o.ty sat (laneVal o.ty a - laneVal o.ty b)) s)
def execVmul (sat : Bool) (o : V2) (s : State) : Out :=
  .next (lane2 o 3 false (fun a b => intRes o.ty sat (laneVal o.ty a * laneVal o.ty b)) s)
def execVmulh (o : V2) (s : State) : Out :=
  .next (lane2 o 3 false (fun a b => wrap o.ty.width (laneVal o.ty a * laneVal o.ty b / (2 : Int) ^ o.ty.width)) s)
def execVmin (o : V2) (s : State) : Out :=
  .next (lane2 o 1 false (fun a b => if laneVal o.ty b < laneVal o.ty a then b else a) s)
def execVmax (o : V2) (s : State) : Out :=
  .next (lane2 o 1 false (fun a b => if laneVal o.ty a < laneVal o.ty b then b else a) s)
def execVabs (sat : Bool) (o : V1) (s : State) : Out :=
  .next (lane1 o 1 false (fun a => intRes o.ty sat ((laneVal o.ty a).natAbs : Int)) s)
def execVneg (sat : Bool) (o : V1) (s : State) : Out :=
  .next (lane1 o 1 false (fun a => intRes o.ty sat (-(laneVal o.ty a))) s)

def execVand (o : V2) (s : State) : Out := .next (lane2 o 1 true (fun a b => a &&& b) s)
def execVor (o : V2) (s : State) : Out := .next (lane2 o 1 true (fun a b => a ||| b) s)
def execVxor (o : V2) (s : State) : Out := .next (lane2 o 1 true (fun a b => a ^^^ b) s)
def execVnot (o : V1) (s : State) : Out := .next (lane1 o 1 true (fun a => 2 ^ o.ty.width - 1 - a) s)

/-- Shifts: a count of w or more shifts everything out; the count is not taken modulo w (R124). -/
def shlLane (w a n : Nat) : Nat := if w ≤ n then 0 else (a * 2 ^ n) % 2 ^ w
def shlSatLane (t : LTy) (a n : Nat) : Nat :=
  let v := laneVal t a
  if t.width ≤ n then
    (if v = 0 then 0 else satCode t.width t.isSigned (if v < 0 then -((2 : Int) ^ 64) else (2 : Int) ^ 64))
  else satCode t.width t.isSigned (v * (2 : Int) ^ n)
def shrLane (w a n : Nat) : Nat := if w ≤ n then 0 else a >>> n
def sraLane (w a n : Nat) : Nat := wrap w (sval w a / (2 : Int) ^ (if w ≤ n then w else n))

def execVshl (o : V2) (s : State) : Out := .next (lane2 o 1 false (fun a n => shlLane o.ty.width a n) s)
def execVshlSat (o : V2) (s : State) : Out := .next (lane2 o 1 false (fun a n => shlSatLane o.ty a n) s)
def execVshr (o : V2) (s : State) : Out := .next (lane2 o 1 false (fun a n => shrLane o.ty.width a n) s)
def execVsra (o : V2) (s : State) : Out := .next (lane2 o 1 false (fun a n => sraLane o.ty.width a n) s)
def execVpopc (o : V1) (s : State) : Out := .next (lane1 o 1 false (fun a => popCount a o.ty.width) s)

end Sys2Proof.Machine
end

