-- ==== Sys2Proof/Machine/VecMove.lean ====
section
/-! DEFINITION. Moves, selects and permutes, conversions and block forms on lanes: majors 0x1D and 0x1E (R129-R137). -/

namespace Sys2Proof.Machine

def execVmov (o : V1) (s : State) : Out := .next (lane1 o 1 true id s)

/-- VSEL: lane of s1 where the selecting mask's bit is one, else of s2 (R129). -/
def execVsel (o : V2) (kS : Fin 8) (s : State) : Out :=
  let t := o.ty
  let m := s.here.mask o.mask
  let sel := s.here.mask kS
  .next (vecOp [o.a, o.b] none (dstQ o.dst) (fun k vs =>
    let a := (nth vs 0).lane t
    let b := (nth vs 1).lane t
    k.writeV s.clk o.dst (viewLat o.wide 1)
      (writeLanes t.width (viewLanes o.wide t) m.getLsbD o.mz (fun l => if sel.getLsbD l then a l else b l) a (ltyTag t))) s)

/-- VBCAST: lane j of a source, or base + l × step (R129). -/
def execVbcast (d : VDst) (t : LTy) (mask : Fin 8) (mz : Bool) (f : BcastForm) (s : State) : Out :=
  let m := s.here.mask mask
  match f with
  | .lane x j =>
    let wide := wideOf [d.k00, x.k00]
    .next (vecOp [x] none (dstQ d) (fun k vs =>
      let a := (nth vs 0).lane t
      k.writeV s.clk d (viewLat wide 1)
        (writeLanes t.width (viewLanes wide t) m.getLsbD mz (fun _ => a j.toNat) a (ltyTag t))) s)
  | .index base step =>
    let wide := wideOf [d.k00]
    let b : Int := (s.src base).toInt
    .next (vecOp [.sc base] none (dstQ d) (fun k vs =>
      k.writeV s.clk d (viewLat wide 1)
        (writeLanes t.width (viewLanes wide t) m.getLsbD mz (fun l => wrap t.width (b + (l : Int) * step.toInt))
          ((nth vs 0).lane t) (ltyTag t))) s)

/-- VPERM: lane i of s1, i the lane of s2; 0 past the end (R130). -/
def execVperm (o : V2) (s : State) : Out :=
  let t := o.ty
  let m := s.here.mask o.mask
  .next (vecOp [o.a, o.b] none (dstQ o.dst) (fun k vs =>
    let a := (nth vs 0).lane t
    let b := (nth vs 1).lane t
    k.writeV s.clk o.dst 2
      (writeLanes t.width t.lanes m.getLsbD o.mz (fun l => if b l < t.lanes then a (b l) else 0) a (ltyTag t))) s)

/-- VROT: lane (l + n) mod N (R130). -/
def execVrot (o : V1) (n : SSrc) (s : State) : Out :=
  let t := o.ty
  let m := s.here.mask o.mask
  let r := (s.src n).toNat % t.lanes
  .next (vecOp [o.a] none (dstQ o.dst) (fun k vs =>
    let a := (nth vs 0).lane t
    k.writeV s.clk o.dst 2
      (writeLanes t.width t.lanes m.getLsbD o.mz (fun l => a ((l + r) % t.lanes)) a (ltyTag t))) s)

/-- VRMG: 256 bytes from byte n of the 512 bytes of s1 then s2 (R131). -/
def execVrmg (d : VDst) (mask : Fin 8) (mz : Bool) (x y : VSrc) (n : SSrc) (s : State) : Out :=
  let m := s.here.mask mask
  let r := (s.src n).toNat % 256
  .next (vecOp [x, y] none (dstQ d) (fun k vs =>
    let a := (nth vs 0).lane .n8
    let b := (nth vs 1).lane .n8
    k.writeV s.clk d 2
      (writeLanes 8 256 m.getLsbD mz (fun l => if l + r < 256 then a (l + r) else b (l + r - 256)) a (ltyTag .n8))) s)

/-! ## Conversions (R132, R133) -/

/-- One lane's conversion (R133): integers saturate; floats round once. -/
def cvtCode (src dst : LTy) (sat rz : Bool) (x : Nat) : Nat :=
  let v : FV := match ltyFlt src with
    | some f => decodeF f x
    | none => intF (ival src.width src.isSigned x)
  match ltyFlt dst with
  | some f => roundF f rz sat .exVector v
  | none =>
    if src.isInt then satCode dst.width dst.isSigned (ival src.width src.isSigned x)
    else toIntCode dst.width dst.isSigned rz v

/-- VCVT (R132): a narrowing part writes its own destination lanes alone; a queue entry, which has no earlier
value to keep, holds 0 in the others (DEDUCED from R134, log 26). -/
def execVcvt (sat rz : Bool) (sty : LTy) (o : V1) (part : BitVec 8) (s : State) : Out :=
  let t := o.ty
  let p := part.toNat
  let m := s.here.mask o.mask
  let ns := sty.lanes
  let nd := t.lanes
  .next (vecOp [o.a] (some sty) (dstQ o.dst) (fun k vs =>
    let a := (nth vs 0).lane sty
    let old := (nth vs 0).lane t
    let from' : Nat → Option Nat := fun l =>
      if sty.width < t.width then some (p * nd + l)
      else if t.width < sty.width then (if p * ns ≤ l ∧ l < p * ns + ns then some (l - p * ns) else none)
      else some l
    let out := writeLanes t.width nd m.getLsbD o.mz
      (fun l => match from' l with
        | some i => cvtCode sty t sat rz (a i)
        | none => 0) old (ltyTag t)
    k.writeV s.clk o.dst 3 { out with
      en := fun l => (from' l).isSome && out.en l
      qdata := fun l => if (from' l).isSome then out.qdata l else 0 }) s)

/-! ## Blocks (R134-R137) -/

/-- Lanes of a block: 24 for KF4, 32 for the MX layouts (R134). -/
def scBlk : ScLay → Nat
  | .kf4 => 24
  | _ => 32

/-- emax of a block layout's elements (R135). -/
def scEmax : ScLay → Int
  | .kf4 | .mxfp4 => 2
  | .mxfp8e4 => 8
  | .mxfp8e5 => 15

/-- VBSC (R135): scale byte b for block b over its active lanes. -/
def execVbsc (lay : ScLay) (t : LTy) (mask : Fin 8) (d : VDst) (x : VSrc) (s : State) : Out :=
  let m := s.here.mask mask
  let L := scBlk lay
  let B := t.lanes / L
  .next (vecOp [x] (some t) (dstQ d) (fun k vs =>
    let a := (nth vs 0).lane t
    let scale : Nat → Nat := fun b =>
      blockScale (scEmax lay) (((List.range L).filter fun i => m.getLsbD (L * b + i)).map fun i => fval t (a (L * b + i)))
    k.writeV s.clk d 4
      { w := 8, n := 256, en := fun l => decide (l < B), data := fun l => if l < B then scale l else 0,
        qdata := fun l => if l < B then scale l else 0, tag := 0 }) s)

/-- The element format of VPACK and VUNPK; none for I4. -/
def elFlt : ElTy → Option Flt
  | .e2m1 => some .e2m1
  | .e4m3 => some .e4m3
  | .e5m2 => some .e5m2
  | .i4 => none

/-- The code of one element (R136): NaN gives code 0, but an overflow-saturated NaN the greatest code with its sign;
overflow goes to the largest finite. -/
def packCode (f : Flt) (scale : Nat) (x : FV) : Nat :=
  match scaleExp scale with
  | none => 0
  | some k =>
    match x with
    | .nan b => if nanClass b = 2 then (if nanSign b then 2 ^ (f.width - 1) else 0) + f.maxFin else 0
    | .inf sg => (if sg then 2 ^ (f.width - 1) else 0) + f.maxFin
    | y => roundF f false true .exVector (divPow y k)

/-- VPACK (R136). -/
def execVpack (o : VPk) (s : State) : Out :=
  let t := o.ty
  let m := s.here.mask o.mask
  let srcs := o.a :: o.scale.toList
  .next (vecOp srcs (some t) (dstQ o.dst) (fun k vs =>
    let a := (nth vs 0).lane t
    match elFlt o.el with
    | none =>
      let code : Nat → Nat := fun l => if m.getLsbD l then satCode 4 true (ival 8 true (a l)) else 0
      k.writeV s.clk o.dst 3
        { w := 8, n := 256, en := fun b => decide (b < 128),
          data := fun b => if b < 128 then code (2 * b) + 16 * code (2 * b + 1) else 0,
          qdata := fun b => if b < 128 then code (2 * b) + 16 * code (2 * b + 1) else 0, tag := 0 }
    | some f =>
      let L := o.blk.toNat
      let n := L * (t.lanes / L)
      let sc := (nth vs 1).raw 8
      let code : Nat → Nat := fun l => if m.getLsbD l then packCode f (sc (l / L)) (fval t (a l)) else 0
      let byte : Nat → Nat := fun b => if f.width = 4 then code (2 * b) + 16 * code (2 * b + 1) else code b
      let bytes := if f.width = 4 then n / 2 else n
      k.writeV s.clk o.dst 3
        { w := 8, n := 256, en := fun b => decide (b < bytes), data := fun b => if b < bytes then byte b else 0,
          qdata := fun b => if b < bytes then byte b else 0, tag := 0 }) s)

/-- The lane VUNPK gives for one element (R137). -/
def unpackCode (t : LTy) (f : Flt) (scale code : Nat) : Nat :=
  match scaleExp scale with
  | none => narrowNan (fmtOf t) (evNan false .plain .software 0)
  | some k => rnd t false false (mulF .exVector (decodeF f code) (powF k))

/-- VUNPK (R137): lanes past the last block are as inactive ones. -/
def execVunpk (o : VPk) (s : State) : Out :=
  let t := o.ty
  let m := s.here.mask o.mask
  let srcs := o.a :: o.scale.toList
  .next (vecOp srcs none (dstQ o.dst) (fun k vs =>
    let x := nth vs 0
    let n := match o.el with
      | .i4 => 256
      | _ => o.blk.toNat * (t.lanes / o.blk.toNat)
    let res : Nat → Nat := fun l =>
      match elFlt o.el with
      | none => wrap 8 (sval 4 (x.raw 4 l))
      | some f => unpackCode t f ((nth vs 1).raw 8 (l / o.blk.toNat)) (x.raw f.width l)
    k.writeV s.clk o.dst 3
      (writeLanes t.width t.lanes (fun l => decide (l < n) && m.getLsbD l) false res (x.lane t) (ltyTag t))) s)

end Sys2Proof.Machine
end

