-- ==== Sys2Proof/Machine/Gweide.lean ====
section
/-! DEFINITION. Gweide regions (R384-R396): GVI, and GVI_REGION_RUN, which checks a region that every copy has reached and runs its
strips one by one. -/

namespace Sys2Proof.Machine

/-! ## GVI (R385) -/

/-- GVI: the sequencer waits at its copy, where it counts as held at a yield point (R394). -/
def execGvi (len : BitVec 16) (s : State) : Out :=
  let s := s.modMe fun q => { q with gvi := some len, wait := .held }
  .next (if s.cur.2 = .ctl then s.mod s.noteLog else s)

/-! ## The words of a region (R386) -/

/-- A stream: its word, shape register, direction (0 through the stash, 1 direct, 2 output), dimensions, element type. -/
structure GStream where
  word : Nat
  sh   : Fin 16
  dir  : Nat
  dims : Nat
  ty   : LTy
  deriving DecidableEq, Repr

/-- A source of a body operation: kind and index. -/
structure GSrc where
  kind : Nat
  x    : BitVec 8
  deriving DecidableEq, Repr

/-- A body operation: its word, operation, type code, SAT, whether it writes an output stream, destination, sources. -/
structure GOp where
  word : Nat
  vop  : Nat
  ty   : BitVec 4
  sat  : Bool
  out  : Bool
  d    : Nat
  a    : GSrc
  b    : GSrc
  c    : GSrc
  deriving DecidableEq, Repr

/-- A region. -/
structure Region where
  streams : List GStream
  ops     : List GOp
  deriving DecidableEq, Repr

/-- Input and output streams, each numbered in the order of their words. -/
def Region.ins (r : Region) : List GStream := r.streams.filter fun x => x.dir != 2
def Region.outs (r : Region) : List GStream := r.streams.filter fun x => x.dir == 2

/-- What a check finds: a cause and the number of the failing word. -/
abbrev Bad := Cause × Nat

/-- Stream and operation counts of a header. -/
def headCounts (h : Word) : Nat × Nat := ((h.extractLsb' 48 4).toNat, (h.extractLsb' 40 8).toNat)

def headOk (h : Word) (len : Nat) : Bool :=
  let (ns, nop) := headCounts h
  h.extractLsb' 56 8 == 0x47 && h.extractLsb' 52 4 == 1 && h.extractLsb' 0 40 == 0 && decide (2 ≤ ns) && decide (ns ≤ 8) &&
    decide (1 ≤ nop) && decide (nop ≤ 64) && len == 1 + ns + nop

/-- A stream word; none where it holds a reserved bit or value. -/
def streamOf (i : Nat) (w : Word) : Option GStream :=
  let dir := (w.extractLsb' 58 2).toNat
  if dir = 3 ∨ w.extractLsb' 0 52 ≠ 0 then none
  else (LTy.ofCode (w.extractLsb' 52 4)).map fun t => ⟨i, (w.extractLsb' 60 4).toFin, dir, (w.extractLsb' 56 2).toNat + 1, t⟩

/-- What an operation takes: sources; for integer and for float types, whether it takes them and with SAT; every lane type. -/
structure VopInfo where
  n    : Nat
  int  : Option Bool
  flt  : Option Bool
  all  : Option Bool
  deriving DecidableEq, Repr

def vopInfo (vop : Nat) : Option VopInfo :=
  match vop with
  | 0x01 | 0x02 | 0x03 => some ⟨2, some true, some true, none⟩
  | 0x04 | 0x05 => some ⟨2, some false, some false, none⟩
  | 0x06 => some ⟨3, none, some true, none⟩
  | 0x07 | 0x08 => some ⟨1, some true, some false, none⟩
  | 0x09 | 0x0A | 0x0B | 0x0D => some ⟨2, some false, none, none⟩
  | 0x0C => some ⟨2, some true, none, none⟩
  | 0x0E => some ⟨2, none, none, some false⟩
  | 0x0F => some ⟨3, none, none, some false⟩
  | 0x10 => some ⟨1, none, none, some true⟩
  | 0x11 | 0x12 | 0x13 | 0x14 => some ⟨1, none, some false, none⟩
  | 0x30 => some ⟨1, some false, some false, none⟩
  | 0x31 => some ⟨3, some false, some false, none⟩
  | 0x32 => some ⟨3, none, some true, none⟩
  | 0x33 => some ⟨2, none, some true, none⟩
  | _ => none

/-- The third source field of GCMP and GCVT; none for another operation. -/
def GOp.special (o : GOp) : Option Bool :=
  if o.vop = 0x0E then some (o.c.kind == 3 && decide (o.c.x.toNat ≤ 5))
  else if o.vop = 0x10 then some (o.c.kind == 3 && decide (o.c.x.toNat < 16) && (LTy.ofCode (o.c.x.setWidth 4)).isSome)
  else none

def GSrc.unused (x : GSrc) : Bool := x.kind == 0 && x.x == 0

/-- The fields past the sources that an operation has hold what they may. -/
def GOp.restOk (o : GOp) (n : Nat) : Bool :=
  (decide (2 ≤ n) || o.b.unused) && (match o.special with
    | some x => x
    | none => decide (3 ≤ n) || o.c.unused)

/-- A field that names a temporary names one of t0-t9. -/
def GSrc.exists (x : GSrc) : Bool := x.kind != 0 || decide (x.x.toNat ≤ 9)

/-- The fields of an operation that is assigned hold no reserved value: unused ones are zero, and a temporary is one of ten (R386). -/
def GOp.fieldsOk (o : GOp) : Bool :=
  match vopInfo o.vop with
  | none => true
  | some v => o.restOk v.n && (o.out || decide (o.d ≤ 9)) && ([o.a, o.b, o.c].take v.n).all GSrc.exists

/-- A body word; none where it holds a reserved bit or value. -/
def opOf (i : Nat) (w : Word) : Option GOp :=
  let o : GOp := ⟨i, (w.extractLsb' 58 6).toNat, w.extractLsb' 54 4, w.getLsbD 53, w.getLsbD 50, (w.extractLsb' 46 4).toNat,
    ⟨(w.extractLsb' 44 2).toNat, w.extractLsb' 36 8⟩, ⟨(w.extractLsb' 34 2).toNat, w.extractLsb' 26 8⟩,
    ⟨(w.extractLsb' 24 2).toNat, w.extractLsb' 16 8⟩⟩
  if w.getLsbD 52 || w.getLsbD 51 || w.extractLsb' 0 16 != 0 || !o.fieldsOk then none else some o

/-- Words read one by one; the number of the first that is refused. -/
def readEach {α : Type} (f : Nat → Word → Option α) : Nat → List Word → Except Nat (List α)
  | _, [] => .ok []
  | i, w :: ws =>
    match f i w with
    | none => .error i
    | some x =>
      match readEach f (i + 1) ws with
      | .error e => .error e
      | .ok xs => .ok (x :: xs)

/-- One to four streams. -/
def fewStreams (l : List GStream) : Bool := decide (1 ≤ l.length) && decide (l.length ≤ 4)

/-- Check 1 (R387). -/
def regionWords (ws : List Word) : Except Bad Region :=
  let h := ws.headD 0
  let (ns, _) := headCounts h
  if !headOk h ws.length then .error (.badGweideRegion, 0)
  else
    match readEach streamOf 1 (ws.tail.take ns) with
    | .error i => .error (.badGweideRegion, i)
    | .ok ss =>
      if !fewStreams (Region.ins ⟨ss, []⟩) || !fewStreams (Region.outs ⟨ss, []⟩) then .error (.badGweideRegion, 0)
      else
        match readEach opOf (1 + ns) (ws.tail.drop ns) with
        | .error i => .error (.badGweideRegion, i)
        | .ok ops => .ok ⟨ss, ops⟩

/-! ## Operations (R388, R396) -/

/-- What it takes for a type. -/
def VopInfo.of (v : VopInfo) (t : LTy) : Option Bool :=
  match v.all with
  | some x => some x
  | none => if t.isInt then v.int else if t.isArith then v.flt else none

/-- The type of an operation that accepts its type and SAT. -/
def GOp.accepted (o : GOp) : Option (VopInfo × LTy) :=
  match vopInfo o.vop, LTy.ofCode o.ty with
  | some v, some t =>
    match v.of t with
    | some sat => if o.sat && !sat then none else some (v, t)
    | none => none
  | _, _ => none

/-- Check 2: the first KV7 form that is not available. -/
def kv7Bad (ops : List GOp) : Option Nat := (ops.find? fun o => decide (0x30 ≤ o.vop) && o.accepted.isNone).map (·.word)

/-- The type that the sources of an operation must have. -/
def GOp.srcTy (o : GOp) (t : LTy) : Option LTy := if o.vop = 0x10 then LTy.ofCode (o.c.x.setWidth 4) else some t

/-- A source has the type wanted: a temporary written before, an input stream, a constant or a literal. -/
def GSrc.ok (x : GSrc) (temps : List (Nat × LTy)) (ins : List GStream) (want : LTy) : Bool :=
  match x.kind with
  | 0 => (temps.find? fun t => t.1 == x.x.toNat).any fun t => t.2 == want
  | 1 => (ins[x.x.toNat]?).any fun i => i.ty == want
  | _ => true

/-- Check 3 on one operation; the temporaries written after it. -/
def GOp.check (o : GOp) (r : Region) (temps : List (Nat × LTy)) : Option (List (Nat × LTy)) :=
  match o.accepted with
  | none => none
  | some (v, t) =>
    match o.srcTy t with
    | none => none
    | some want =>
      if !(([o.a, o.b, o.c].take v.n).all fun x => x.ok temps r.ins want) then none
      else if o.out then (if (r.outs[o.d]?).any fun x => x.ty == t then some temps else none)
      else some ((o.d, t) :: temps)

/-- Check 3 on the operations in order. -/
def opsBad (r : Region) : List GOp → List (Nat × LTy) → Option Nat
  | [], _ => none
  | o :: os, temps =>
    match o.check r temps with
    | none => some o.word
    | some t => opsBad r os t

/-- An output stream not written exactly once. -/
def outsBad (r : Region) : Option Nat :=
  (r.outs.zipIdx.find? fun x => (r.ops.filter fun o => o.out && o.d == x.2).length != 1).map fun x => x.1.word

/-- Checks 1 to 3 (R387). -/
def regionOf (ws : List Word) : Except Bad Region :=
  match regionWords ws with
  | .error e => .error e
  | .ok r =>
    match kv7Bad r.ops with
    | some i => .error (.kv7FormUnavailable, i)
    | none =>
      match opsBad r r.ops [] with
      | some i => .error (.badGweideRegion, i)
      | none =>
        match outsBad r with
        | some i => .error (.badGweideRegion, i)
        | none => .ok r

/-- Check 4 on a stream's shape register; `first` is that of stream 0. -/
def shapeOk (g : GStream) (x first : Shape) : Bool :=
  x.stream && !x.resBits && ((List.range 4).all fun d => decide (d < g.dims) || x.e d == 1) && x[1] == first[1]

/-- Check 4. -/
def Core.shapesBad (k : Core) (r : Region) : Option Nat :=
  match r.streams with
  | [] => none
  | g :: gs => ((g :: gs).find? fun x => !shapeOk x (k.shape x.sh) (k.shape g.sh)).map (·.word)

/-! ## Cracking (R388, R390, R396) -/

/-- A register of EX. -/
def vReg (n : Nat) : Fin 64 := ⟨n % 64, Nat.mod_lt _ (by decide)⟩

/-- Register j of a source's group; a constant or literal is broadcast. -/
def GSrc.reg (x : GSrc) (j : Nat) : VSrc :=
  match x.kind with
  | 0 => .v (vReg (16 + 4 * x.x.toNat + j))
  | 1 => .v (vReg (4 * x.x.toNat + j))
  | 2 => .sc (.c x.x.toFin)
  | _ => .sc (.lit x.x)

/-- Register j of a destination's group; an output is made in v56 on. -/
def GOp.dst (o : GOp) (j : Nat) : VDst := .v (vReg (if o.out then 56 + j else 16 + 4 * o.d + j))

/-- VCMP into k7 under the condition of x3. -/
def gcmp (cond : Nat) (t : LTy) (a b : VSrc) : Instr :=
  let o : VCmp := ⟨7, t, 0, false, a, b⟩
  match cond with
  | 0 => .vcmpEq o
  | 1 => .vcmpNe o
  | 2 => .vcmpLt o
  | 3 => .vcmpLe o
  | 4 => .vcmpGt o
  | _ => .vcmpGe o

/-- The literals 0 and 1. -/
def lit0 : VSrc := .sc (.lit 0)
def lit1 : VSrc := .sc (.lit 1)

/-- The micro-ops of an operation on register j of its groups. -/
def GOp.micro (o : GOp) (t : LTy) (j : Nat) : List Instr :=
  let a := o.a.reg j
  let b := o.b.reg j
  let c := o.c.reg j
  let d := o.dst j
  let u : VDst := .v (vReg (60 + j))
  let us : VSrc := .v (vReg (60 + j))
  let one : VDst → VSrc → V1 := fun d x => ⟨d, t, 0, false, x⟩
  let two : VDst → VSrc → VSrc → V2 := fun d x y => ⟨d, t, 0, false, x, y⟩
  let three : VDst → VSrc → VSrc → VSrc → V3 := fun d x y z => ⟨d, t, 0, false, x, y, z⟩
  let max : V2 → Instr := fun v => if t.isInt then .vmax v else .vfmax v
  let min : V2 → Instr := fun v => if t.isInt then .vmin v else .vfmin v
  match o.vop with
  | 0x01 => [if t.isInt then .vadd o.sat (two d a b) else .vfadd o.sat false (two d a b)]
  | 0x02 => [if t.isInt then .vsub o.sat (two d a b) else .vfsub o.sat false (two d a b)]
  | 0x03 => [if t.isInt then .vmul o.sat (two d a b) else .vfmul o.sat false (two d a b)]
  | 0x04 => [min (two d a b)]
  | 0x05 => [max (two d a b)]
  | 0x06 => [.vfma o.sat false (three d a b c)]
  | 0x07 => [if t.isInt then .vneg o.sat (one d a) else .vfneg (one d a)]
  | 0x08 => [if t.isInt then .vabs o.sat (one d a) else .vfabs (one d a)]
  | 0x09 => [.vand (two d a b)]
  | 0x0A => [.vor (two d a b)]
  | 0x0B => [.vxor (two d a b)]
  | 0x0C => [if o.sat then .vshlSat (two d a b) else .vshl (two d a b)]
  | 0x0D => [if t.isSigned then .vsra (two d a b) else .vshr (two d a b)]
  | 0x0E => [gcmp o.c.x.toNat t a b, .vsel (two d lit1 lit0) 7]
  | 0x0F => [.vcmpNe ⟨7, t, 0, false, a, lit0⟩, .vsel (two d b c) 7]
  | 0x11 => [.vexp2 (one d a)]
  | 0x12 => [.vlog2 (one d a)]
  | 0x13 => [.vrcp (one d a)]
  | 0x14 => [.vrsq (one d a)]
  | 0x30 => [max (two d a lit0)]
  | 0x31 => [max (two u a b), min (two d us c)]
  | 0x32 => [.vfsub o.sat false (two u b a), .vfma o.sat false (three d c us a)]
  | 0x33 => [.vfsub o.sat false (two u a b), .vfmul o.sat false (two d us us)]
  | _ => []

/-- GCVT: conversions by parts between groups (R132). A destination that is its source is written from its last register down where the
conversion widens, and from its first up where it narrows, so that no part is read after it has been written. -/
def GOp.convert (o : GOp) (t src : LTy) (l : Nat) : List Instr :=
  let ns := src.lanes
  let nd := t.lanes
  let one : Nat → Nat → Nat → Instr := fun jd js p => .vcvt o.sat false src ⟨o.dst jd, t, 0, false, o.a.reg js⟩ (BitVec.ofNat 8 p)
  if nd ≤ ns then (List.range ((l + nd - 1) / nd)).reverse.map fun jd => one jd (jd * nd / ns) (jd * nd % ns / nd)
  else (List.range ((l + ns - 1) / ns)).map fun js => one (js * ns / nd) js (js * ns % nd / ns)

/-- Registers that l elements of a type fill. -/
def stripRegs (t : LTy) (l : Nat) : Nat := (l + t.lanes - 1) / t.lanes

/-- The micro-ops of an operation on a strip of l elements. -/
def GOp.crack (o : GOp) (l : Nat) : List Instr :=
  match LTy.ofCode o.ty with
  | none => []
  | some t =>
    if o.vop = 0x10 then
      match o.srcTy t with
      | some src => o.convert t src l
      | none => []
    else (List.range (stripRegs t l)).flatMap fun j => o.micro t j

/-- A micro-op carried out as the native instruction. -/
def nativeOp (i : Instr) (s : State) : Out :=
  match i with
  | .vmov o => execVmov o s
  | .vadd sat o => execVadd sat o s
  | .vsub sat o => execVsub sat o s
  | .vmul sat o => execVmul sat o s
  | .vmin o => execVmin o s
  | .vmax o => execVmax o s
  | .vabs sat o => execVabs sat o s
  | .vneg sat o => execVneg sat o s
  | .vand o => execVand o s
  | .vor o => execVor o s
  | .vxor o => execVxor o s
  | .vshl o => execVshl o s
  | .vshlSat o => execVshlSat o s
  | .vshr o => execVshr o s
  | .vsra o => execVsra o s
  | .vfadd sat rz o => execVfadd sat rz o s
  | .vfsub sat rz o => execVfsub sat rz o s
  | .vfmul sat rz o => execVfmul sat rz o s
  | .vfmin o => execVfmin o s
  | .vfmax o => execVfmax o s
  | .vfabs o => execVfabs o s
  | .vfneg o => execVfneg o s
  | .vfma sat rz o => execVfma sat rz o s
  | .vcmpEq o => execVcmpEq o s
  | .vcmpNe o => execVcmpNe o s
  | .vcmpLt o => execVcmpLt o s
  | .vcmpLe o => execVcmpLe o s
  | .vcmpGt o => execVcmpGt o s
  | .vcmpGe o => execVcmpGe o s
  | .vsel o k => execVsel o k s
  | .vcvt sat rz src o p => execVcvt sat rz src o p s
  | .vexp2 o => execVexp2 o s
  | .vlog2 o => execVlog2 o s
  | .vrcp o => execVrcp o s
  | .vrsq o => execVrsq o s
  | _ => .next s

/-- A micro-op of EX: its result has landed before the next one issues (R392), and EX's pc and loops stay. -/
def State.microOp (s : State) (i : Instr) : State :=
  let q := s.me
  match nativeOp i (s.checkUses i) with
  | .next t => (t.mod Core.settle).modMe fun st => { st with pc := q.pc, loops := q.loops, lstk := q.lstk, wait := q.wait }
  | _ => s

/-! ## A strip (R389-R391) -/

/-- Elements of dimension 0, strips of a run, strips in all. -/
def stripsOf (x : Shape) : Nat := (x.e 0 + 255) / 256 * x.e 1 * x.e 2 * x.e 3

/-- Elements of strip k. -/
def stripLen (x : Shape) (k : Nat) : Nat :=
  let n := (x.e 0 + 255) / 256
  min 256 (x.e 0 - 256 * (k % n))

/-- Bits of an entry that hold elements and not edges, where the conversion is the identity. -/
def liveBits (x : Shape) (w : Nat) : Nat := min 2048 (w * (x.e 0 - x.i 0 * (2048 / w)))

/-- A line that a direct cracked load reads, with the sectors that earlier strips have stored to in its stash row (R391): a plain LDS
would not see them (R167), and R391 goes before that for cracked loads (DEDUCED, log 79). -/
def Core.overlay (k : Core) (page : Layout) (p : Part) : Part :=
  match k.stashAt p.va, p.st with
  | some r, .got d cls =>
    if k.wrote.contains r.va && k.pad[r.row].tag == heldCode page then
      let h := if p.va = r.va then 0 else 1
      let m := r.dirty.extractLsb' (4 * h) 4
      { p with st := .got (mergeLine d (k.pad[r.row].data.extractLsb' (1024 * h) 1024) m) (cls.filter fun x => !m.getLsbD x.1) }
    else p
  | _, _ => p

/-- What a cracked load reads from. -/
def State.stripSrc (s : State) (kind : Kind) (a : AccessPlan) : State × Except Stop LoadSrc :=
  if kind = .ldr then
    if a.rows.any fun t => s.here.refusedAt t.va then (s, .error (.trap .layoutMismatch a.ea))
    else
      match s.touchPlan true .none a with
      | (s, .stop e) => (s, .error e)
      | (s, .ok) => (s, .ok (.stash (a.rows.map fun t => (t.va, t.pa))))
  else
    match s.fetchParts ⟨s.here.ctx, s.me.pc, false⟩ a.fmt.page (if pteDiscard a.pte = 1 then [] else partsOf a kind .row) [] with
    | (s, .error e) => (s, .error e)
    | (s, .ok ps) => (s, .ok (.lines (ps.map (s.here.overlay a.fmt.page))))

/-- The entry of a cracked load, from its data. -/
def State.stripEntry (s : State) (l : Load) (live x : Nat) (cls : List (Word × Nat × Bool)) :
    State × Except Stop (QEntry × List (Word × Nat × Bool)) :=
  if !l.fmt.conv then (s, .ok (⟨l.fmt.code.setWidth 8, BitVec.ofNat 2048 (x % 2 ^ live), 0⟩, cls))
  else if isBmv l.fmt.page then s.bmvEntry s.cur.1 l x cls
  else (s, .ok (entryOf l x, cls))

/-- A cracked load of LD: its entry goes into the stream's queue, and the cursor advances. -/
def State.stripLoad (s : State) (i : Nat) (g : GStream) : State × Except Stop Unit :=
  let kind : Kind := if g.dir = 0 then .ldr else .lds
  let w := g.ty.width
  let live := liveBits (s.here.shape g.sh) w
  let q : Fin 16 := ⟨i % 16, Nat.mod_lt _ (by decide)⟩
  match s.plan kind 0 g.sh .row 0 w with
  | (s, .error e) => (s, .error e)
  | (s, .ok a) =>
    match s.stripSrc kind a with
    | (s, .error e) => (s, .error e)
    | (s, .ok src) =>
      let l := mkLoad s 0 a .row (.queue q) src none
      match s.gather s.cur.1 l with
      | (s, .pending) => (s, .error (.wait .other))
      | (s, .gone) => (s, .error .gone)
      | (s, .fault c) => (s, .error (.trap c l.va))
      | (s, .violation k va) => (s, .error (.violation k va))
      | (s, .data x cls) =>
        match s.stripEntry l live x cls with
        | (s, .error e) => (s, .error e)
        | (s, .ok (e, cls)) =>
          let s := (s.noteSev s.cur.1 .ld cls).advance g.sh { a.fmt with conv := true }
          (s.mod fun k => k.onQueue q (·.push e), .ok ())

/-- What a cracked store writes: bits and mask from its row origin, or a trap; reserved bytes of a unit are written as zero (R49). -/
def stripBits (f : Fmt) (live entry old : Nat) : Except Cause (Nat × Nat × Nat) :=
  if !f.conv then .ok (0, (BitVec.ofNat 2048 (entry % 2 ^ live) &&& ~~~reservedMask f.page).toNat, 2 ^ live - 1)
  else if isBmv f.page then
    match storeBmv f entry old with
    | .trap c => .error c
    | .block bits mask => .ok (0, bits, mask)
  else
    let (b, g) := f.rebase
    let (bits, mask) := if f.e0 ≠ 0 ∧ f.e0 ≤ f.first then (0, 0) else encodeStep g entry
    .ok (b, bits, mask)

/-- The rows of a cracked store are touched and written; those of a discarded page take nothing (R149). -/
def State.stripWrite (s : State) (a : AccessPlan) (live : Nat) (e : QEntry) : State × Except Stop Unit :=
  let c := s.cur.1
  let rows := a.rows.map fun t => (t.va, t.pa)
  if e.tag ≠ 0 ∧ e.tag ≠ a.fmt.code.setWidth 8 then (s, .error (.trap .layoutMismatch a.ea))
  else if a.rows.any fun t => s.here.refusedAt t.va then (s, .error (.trap .layoutMismatch a.ea))
  else
    match s.touchPlan true .none a with
    | (s, .stop x) => (s, .error (faultStop a.fmt a.ea x))
    | (s, .ok) =>
      if pteDiscard a.pte = 1 then (s, .ok ()) else
      match s.blockBits c a.fmt.page rows with
      | none => (s, .error (.trap .layoutMismatch a.ea))
      | some old =>
        match stripBits a.fmt live e.data.toNat old with
        | .error x => (s, .error (.trap x (faultVa a.fmt x a.ea)))
        | .ok (b, bits, mask) =>
          let s := s.storeRows c (rowOf a.ea + BitVec.ofNat 64 (256 * b)) bits mask s.me.pc rows
          (s.onCore c fun k => { k with wrote := k.wrote ++ (rows.map (·.1)).filter fun va => !k.wrote.contains va }, .ok ())

/-- A cracked store of ST: it takes the head of the stream's queue, and the cursor advances. -/
def State.stripStore (s : State) (o : Nat) (g : GStream) : State × Except Stop Unit :=
  let w := g.ty.width
  let live := liveBits (s.here.shape g.sh) w
  let q : Fin 16 := ⟨(8 + o) % 16, Nat.mod_lt _ (by decide)⟩
  match s.here.queues[q].entries with
  | [] => (s, .error (.wait .other))
  | e :: _ =>
    match s.plan .str 0 g.sh .row 0 w with
    | (s, .error x) => (s, .error x)
    | (s, .ok a) =>
      match s.stripWrite a live e with
      | (s, .error x) => (s, .error x)
      | (s, .ok _) =>
        let s := s.advance g.sh { a.fmt with conv := true }
        (s.mod fun k => k.onQueue q DQueue.pop, .ok ())

/-- Accesses made one after the other. -/
def accessAll (f : State → State × Except Stop Unit) : Nat → State → State × Except Stop Unit
  | 0, s => (s, .ok ())
  | n + 1, s =>
    match f s with
    | (s, .error e) => (s, .error e)
    | (s, .ok _) => accessAll f n s

/-- The streams one after the other, numbered. -/
def streamAll (f : Nat → GStream → State → State × Except Stop Unit) (l : Nat) : List (GStream × Nat) → State →
    State × Except Stop Unit
  | [], s => (s, .ok ())
  | (g, i) :: gs, s =>
    match accessAll (f i g) (stripRegs g.ty l) s with
    | (s, .error e) => (s, .error e)
    | (s, .ok _) => streamAll f l gs s

/-- Register r of an output group is pushed (R390). -/
def State.pushOut (s : State) (o : Nat) (t : LTy) (r : Nat) : State :=
  let q : Fin 16 := ⟨(8 + o) % 16, Nat.mod_lt _ (by decide)⟩
  (s.mod fun k => k.onQueue q (·.push ⟨ltyTag t, k.ex.v[vReg (56 + r)], 0⟩)).issue

/-- An operation on EX: its micro-ops, and the pushes of an output. -/
def State.runOp (s : State) (r : Region) (l : Nat) (o : GOp) : State :=
  let s := (o.crack l).foldl State.microOp s
  match o.out, r.outs[o.d]? with
  | true, some g => (List.range (stripRegs g.ty l)).foldl (fun s j => s.pushOut o.d g.ty j) s
  | _, _ => s

/-- EX's part of a strip: the inputs move into registers, the body runs in order. -/
def State.stripEx (s : State) (r : Region) (l : Nat) : State :=
  let moves := r.ins.zipIdx.flatMap fun (g, i) => (List.range (stripRegs g.ty l)).map fun j =>
    Instr.vmov ⟨.v (vReg (4 * i + j)), g.ty, 0, false, .q ⟨i % 8, Nat.mod_lt _ (by decide)⟩⟩
  r.ops.foldl (fun s o => s.runOp r l o) (moves.foldl State.microOp s)

/-- EX issue slots of a strip. -/
def Region.slots (r : Region) (l : Nat) : Nat :=
  (r.ins.map fun g => stripRegs g.ty l).sum + (r.outs.map fun g => stripRegs g.ty l).sum + (r.ops.map fun o => (o.crack l).length).sum

/-- A sequencer of the core acts. -/
def State.as (s : State) (c : CoreId) (q : Seq) : State := { s with cur := (c, q), curYp := false, curLog := [], curAgain := 0 }

/-- A strip: LD, then EX, then ST; the sequencer that stops, and why. Where a store stops, the strip has stored nothing, so that it
loads the same values when it runs again (R393). -/
def State.strip (s : State) (c : CoreId) (r : Region) (l : Nat) : State × Except (Seq × Stop) Unit :=
  match streamAll (fun i g s => s.stripLoad i g) l r.ins.zipIdx (s.as c .ld) with
  | (s, .error e) => (s, .error (.ld, e))
  | (s, .ok _) =>
    let s := ((s.as c .ex).mod Core.settle).stripEx r l
    match streamAll (fun o g s => s.stripStore o g) l r.outs.zipIdx (s.as c .st) with
    | (t, .error .gone) => (t, .error (.st, .gone))
    | (_, .error e) => (s, .error (.st, e))
    | (s, .ok _) => (s, .ok ())

/-! ## Translations and rows before a strip (R194, R166) -/

/-- What a strip still has to wait for: nothing; a walk, or a row on its way; or it will stop at this access. -/
inductive Warm where
  | ready
  | wait
  | stops
  deriving DecidableEq, Repr

/-- One access of a stream translated, and its stash rows touched. -/
def State.warmOne (s : State) (kind : Kind) (g : GStream) : State × Warm :=
  match s.plan kind 0 g.sh .row 0 g.ty.width with
  | (s, .error (.wait _)) => (s, .wait)
  | (s, .error _) => (s, .stops)
  | (s, .ok a) =>
    let on : State → State := fun s => s.advance g.sh { a.fmt with conv := true }
    if kind = .lds then (on s, .ready)
    else if a.rows.any fun t => s.here.refusedAt t.va then (s, .stops)
    else
      match s.touchPlan true .none a with
      | (t, .stop (.wait _)) => (t, .wait)
      | (_, .stop _) => (s, .stops)
      | (t, .ok) => (on t, if a.rows.any fun x => t.here.comingAt x.va then .wait else .ready)

/-- The accesses of a stream in a strip; rows that can be asked for at once are. -/
def State.warmStream (s : State) (kind : Kind) (g : GStream) : Nat → State × Warm
  | 0 => (s, .ready)
  | n + 1 =>
    match s.warmOne kind g with
    | (s, .stops) => (s, .stops)
    | (s, w) =>
      match s.warmStream kind g n with
      | (s, .ready) => (s, w)
      | r => r

/-- The same for streams of a sequencer. -/
def State.warmAll (s : State) (l : Nat) : List GStream → State × Warm
  | [] => (s, .ready)
  | g :: gs =>
    let kind : Kind := if g.dir = 0 then .ldr else if g.dir = 1 then .lds else .str
    match s.warmStream kind g (stripRegs g.ty l) with
    | (s, .ready) => s.warmAll l gs
    | r => r

/-- The acting sequencer and what it notes, as in an earlier state. -/
def State.actAs (s old : State) : State :=
  { s with cur := old.cur, curYp := old.curYp, curLog := old.curLog, curAgain := old.curAgain }

/-- A state with the queues, the cursors and the acting sequencer of an earlier one. -/
def State.undoStrip (s old : State) (c : CoreId) : State :=
  (s.onCore c fun k => { k with queues := (old.core c).queues, shapes := (old.core c).shapes, undo := (old.core c).undo }).actAs old

/-- Walks and rows that a strip needs are asked for, the outputs' once the inputs' are there; none once it can run, or will stop. -/
def State.warm (s : State) (c : CoreId) (r : Region) (l : Nat) : Option State :=
  match (s.as c .ld).warmAll l r.ins with
  | (t, .wait) => some (t.undoStrip s c)
  | (_, .stops) => none
  | (t, .ready) =>
    match (t.as c .st).warmAll l r.outs with
    | (t, .wait) => some (t.undoStrip s c)
    | _ => none

/-! ## The run (R385, R387, R393, R394) -/

/-- A sequencer that waits at its GVI, or at the copy of a phase end that has not begun. -/
def SeqSt.atRegion (q : SeqSt) : Bool := q.run == .halted || (q.run == .running && (q.gvi.isSome || (q.copy.isSome && q.wait == .phaseEnd)))

/-- Every sequencer has arrived somewhere, and one of them at a GVI. -/
def Core.regionDue (k : Core) : Bool :=
  k.strand.isSome && (Seq.all.all fun q => (k.seq q).atRegion) && Seq.all.any fun q => (k.seq q).gvi.isSome

/-- The copies do not form a region's (R385). -/
def Core.regionSplit (k : Core) : Bool :=
  let len : Seq → BitVec 16 := fun q => ((k.seq q).gvi).getD 0
  (Seq.all.any fun q => (k.seq q).gvi.isNone) || [Seq.ld, Seq.ex, Seq.st].any fun q => len q != 0 && len q != len .ctl

/-- Every sequencer at its GVI traps there. -/
def State.trapRegion (s : State) (c : CoreId) (cause : Cause) (word : Nat) : State :=
  Seq.all.foldl (fun s q =>
    let st := (s.core c).seq q
    if st.gvi.isNone then s
    else (s.onCore c fun k => k.onSeq q fun st => { st with gvi := none }).trapAt c q cause st.pc (BitVec.ofNat 64 word)) s

/-- One sequencer leaves its copy by a trap or a violation. -/
def State.stopRegion (s : State) (c : CoreId) (q : Seq) (e : Stop) : State :=
  let pc := ((s.core c).seq q).pc
  let t := s.onCore c fun k => k.onSeq q fun st => { st with gvi := none }
  match e with
  | .trap cause va => t.trapAt c q cause pc va
  | .violation k va => t.violateAt c q k pc va
  | _ => s

/-- What a fetch stop comes to for a word. -/
def fetchStop (va : Word) : FetchStop → Stop
  | .trap c => .trap c va
  | .violation k => .violation k va
  | .gone => .gone
  | .wait => .wait .other

/-- Words of the region from an address on, as CTL fetches them. -/
def State.regionRead (s : State) (c : CoreId) : Word → Nat → State × Except Stop (List Word)
  | _, 0 => (s, .ok [])
  | va, n + 1 =>
    let k := s.core c
    let st := k.seq .ctl
    let rest : State → State × Except Stop (List Word) := fun s =>
      let w := (((s.core c).fetch k.ctx va).map (·.1)).getD 0
      match s.regionRead c (va + 8) n with
      | (s, .error e) => (s, .error e)
      | (s, .ok ws) => (s, .ok (w :: ws))
    if (k.codeLine k.ctx va).isSome then rest s
    else
      match s.fillCode c ⟨k.ctx, st.pc, false⟩ st.sup va with
      | (s, .error e) => (s, .error (fetchStop va e))
      | (s, .ok _) => rest s

/-- The last strip is done: gvs, v0 to v63 and k7 become zero, and the copies continue past their regions. -/
def Core.leaveRegion (k : Core) (clk : Nat) : Core :=
  let k := { k.settle with gvs := 0, wrote := [] }
  let k := { k with ex := { k.ex with v := .replicate 64 0, k := k.ex.k.set 7 0 } }
  Seq.all.foldl (fun k q =>
    match (k.seq q).gvi with
    | none => k
    | some n =>
      let k := k.onSeq q fun st => SeqSt.goto { st with gvi := none, wait := .none } (st.pc + 8 + 8 * n.setWidth 64)
      if q = .ex then ((k.countSlot true).holdEx clk 1).nextSlot else if q = .ctl then k.logFull else k) k

/-- Strip number gvs of a region. ycnt is 0 at the boundary before it and counts its micro-ops (R394); where they would pass the yield
bound, EX traps once it has counted up to the bound (R81, R352; log 67). A strip that stops leaves queues and cursors as they were at
its start, and gvs at it (R393). -/
def State.runStrip (s : State) (c : CoreId) (r : Region) (x : Shape) : State :=
  let s := s.onCore c fun k => { k with ex := { k.ex with ycnt := 0 } }
  let k := s.core c
  let n := k.gvs.toNat
  let l := stripLen x n
  let bound := (k.strand.map (·.bound)).getD (r.slots l)
  if !(k.seq .ex).inTrap && k.divert.isNone && decide (bound < r.slots l) then
    s.stopRegion c .ex (.trap .yieldBoundExceeded (BitVec.ofNat 64 bound))
  else
    match s.warm c r l with
    | some s => s
    | none =>
      match s.strip c r l with
      | (t, .error (.ld, .wait _)) => t.undoStrip s c
      | (_, .error (_, .wait _)) => s
      | (t, .error (_, .gone)) => t.actAs s
      | (t, .error (q, e)) => ((t.undoStrip s c).onCore c Core.dropRefused).stopRegion c q e
      | (t, .ok _) =>
        (t.actAs s).onCore c fun k =>
          let k := { k with gvs := BitVec.ofNat 64 (n + 1), ex := { k.ex with ycnt := 0 } }
          if stripsOf x ≤ n + 1 then k.leaveRegion (s.clkOf c) else k

/-- LD and ST have nothing in flight, and EX no push. -/
def Core.accessesDone (k : Core) : Bool := k.loadsDone && k.storesDone && k.ex.pushes.isEmpty

/-- GVI_REGION_RUN: the checks in order, then the strip that gvs names; with a diversion due the region stops at the boundary. -/
def State.regionRun (s : State) (c : CoreId) : State :=
  let k := s.core c
  let st := k.seq .ctl
  let len := ((st.gvi).getD 0).toNat
  if !k.regionDue || !k.chk.again.isEmpty || s.diverts c then s
  else if k.regionSplit then s.trapRegion c .badGweideRegion 0
  else if !k.accessesDone then s
  else
    match s.regionRead c (st.pc + 8) len with
    | (_, .error (.wait _)) => s
    | (t, .error .gone) => t
    | (t, .error e) => t.stopRegion c .ctl e
    | (s, .ok ws) =>
      match regionOf ws with
      | .error (cause, i) => s.trapRegion c cause i
      | .ok r =>
        match (s.core c).shapesBad r with
        | some i => s.trapRegion c .gweideOperand i
        | none =>
          let x := (r.streams.head?.map fun g => (s.core c).shape g.sh).getD (.replicate 8 0)
          if stripsOf x ≤ (s.core c).gvs.toNat then s.onCore c (·.leaveRegion (s.clkOf c)) else s.runStrip c r x

def execGviRegionRun (c : CoreId) (s : State) : Out := .next (s.asRequester (unitOfCore c) (·.regionRun c))

end Sys2Proof.Machine
end

