-- ==== Sys2Proof/Machine/Phase.lean ====
section
/-! DEFINITION. Phase ends and barriers (R201-R206), hitches and the reply queue as CTL uses them (R210, R211), HALT (R354), and
their events: PHASE_END, PUBLICATION_COMPLETE, GANG_BARRIER_RELEASE. -/

namespace Sys2Proof.Machine

/-! ## Arrivals (R201) -/

/-- What a copy ends its phase for. -/
def PhaseCopy.kind (p : PhaseCopy) : EndKind :=
  match p.fn.toNat with
  | 0 => .pend
  | 1 => .sync (p.imm.extractLsb' 0 3).toNat
  | _ => .fence (p.imm.extractLsb' 0 4)

/-- The copies of the sequencers that have not halted. -/
def Core.copies (k : Core) : List PhaseCopy := Seq.all.filterMap fun q => if (k.seq q).run == .halted then none else (k.seq q).copy

/-- The copies agree in fn and imm32. -/
def Core.copiesAgree (k : Core) : Bool :=
  match k.copies with
  | [] => true
  | p :: ps => ps.all fun x => x.fn == p.fn && x.imm == p.imm

/-- When the last sequencer has arrived and the copies disagree, every waiting sequencer traps. -/
def State.phaseCheck (s : State) (c : CoreId) : State :=
  if (s.core c).allAtEnd && !(s.core c).copiesAgree then
    Seq.all.foldl (fun s q =>
      let st := (s.core c).seq q
      if st.run == .halted then s
      else (s.onCore c fun k => k.onSeq q fun st => { st with copy := none }).trapAt c q .phaseMismatch st.pc 0) s
  else s

/-- The current sequencer reaches its copy and waits there; CTL logs it (R377, R378). -/
def State.arrivePhase (s : State) (fn : BitVec 4) (imm : BitVec 32) : State :=
  let s := s.modMe fun q => { q with copy := some ⟨fn, imm, s.curYp⟩, wait := .phaseEnd }
  (if s.cur.2 = .ctl then s.mod s.noteLog else s).phaseCheck s.cur.1

/-- PEND (R201, R203). -/
def execPend (s : State) : Out := .next (s.arrivePhase 0 0)

/-- SYNC (R204, R335). -/
def execSync (lvl : Fin 8) (s : State) : Out :=
  match s.here.strand with
  | none => .next (s.execTrap .reservedOperand)
  | some st =>
    match st.levelTrap lvl.val with
    | some c => .next (s.execTrap c)
    | none => .next (s.arrivePhase 1 (BitVec.ofNat 32 lvl.val))

/-- The commands of an engine path that CTL issued have been performed (R206): the writes of a command that has ended are performed at every
scope, also where its reply still waits for rq. -/
def Core.pathQuiet (k : Core) (p : Path) : Bool :=
  match p with
  | .gather => (k.gath.cmds.all fun m => m.ended || (match m.op with
      | .coll _ => true
      | _ => false)) && (k.stg.cmds.all fun m => match m.op with
      | .lenq _ => m.ended
      | _ => true)
  | .coll => k.gath.cmds.all fun m => m.ended || (match m.op with
    | .coll _ => false
    | _ => true)
  | .code => (k.code.cmds.all (·.ended)) && k.gath.cmds.all fun m => m.ended || (match m.op with
    | .copy o => !o.imm.getLsbD 2
    | _ => true)
  | .tensor => (k.tens.q.cmds.all (·.ended)) && k.tens.nest.isNone
  | .core | .host => true

/-- XFENCE (R206): from CORE a phase end, whose publication is awaited at the scope; from an engine path CTL waits until its commands are
performed, which they are at every scope at once; HOST writes are applied when the host port accepts them. -/
def execXfence (src dst : Path) (scope : Scope) (s : State) : Out :=
  if src = .core then .next (s.arrivePhase 2 (0#20 ++ src.num ++ dst.num ++ scope.code))
  else if s.cur.2 ≠ .ctl then .next (s.execTrap .wrongSequencer)
  else if !s.here.pathQuiet src then .next (s.block .other)
  else .next (s.retire 8)

/-! ## Release -/

/-- A sequencer leaves its copy: its pc goes past it, and on EX its slot is counted, the one of this clk (R121). -/
def Core.leaveCopy (clk : Nat) (k : Core) (q : Seq) : Core :=
  match (k.seq q).copy with
  | none => k
  | some p =>
    let k := k.onSeq q fun st => SeqSt.goto { st with copy := none, wait := .none } (st.pc + 8)
    if q = .ex then ((k.countSlot p.yp).holdEx clk 1).nextSlot else if q = .ctl then k.logFull else k

def Core.leaveAll (k : Core) (clk : Nat) : Core := Seq.all.foldl (Core.leaveCopy clk) k

/-- The sequencers go on waiting after the phase end: SYNC for the barrier, XFENCE for its publication. -/
def Core.waitOn (k : Core) (w : Wait) : Core :=
  Seq.all.foldl (fun k q => if (k.seq q).copy.isSome then k.onSeq q fun st => { st with wait := w } else k) k

/-! ## The phase end (R202, R165, R166) -/

/-- The requests that carry a row's dirty sectors home, line by line. -/
def rowWrites (c : CoreId) (ctx : Ctx) (r : StashRow) (d : Row) : List SliceReq :=
  [0, 1].filterMap fun i =>
    let m : BitVec 4 := r.dirty.extractLsb' (4 * i) 4
    if m = 0 then none
    else some ⟨c, ctx, 0, r.va + BitVec.ofNat 64 (128 * i), r.pa + 128 * i, m, r.code,
      .write r.row (d.extractLsb' (1024 * i) 1024) r.filled⟩

/-- A row is released: clean or of a discarded page it is free at once, else its dirty sectors start home. -/
def State.releaseRow (s : State) (c : CoreId) (r : StashRow) : State :=
  if r.dirty = 0 || r.drop then s.onCore c fun k => { k with stash := k.stash.filter fun x => x.row != r.row }
  else
    match s.readPad c r.row 0 with
    | (s, none) => s
    | (s, some (d, _)) =>
      s.onCore c fun k => { k with
        stash := k.stash.map fun x => if x.row == r.row then { x with use := .writing } else x
        pubs := k.pubs ++ rowWrites c k.ctx r d }

/-- The phase ends: every filled or held row is released, the publication begins, phase counts. -/
def State.endPhase (s : State) (c : CoreId) (kind : EndKind) : State :=
  let rows := (s.core c).stash.filter fun r => r.use != .writing
  let s := rows.foldl (fun s r => s.releaseRow c r) s
  s.onCore c fun k =>
    let out : PhaseOut := ⟨kind, (rows.filter fun r => r.dirty != 0 && !r.drop).map (·.row), k.fx⟩
    let k := { k with ends := k.ends ++ [out], fx := [], strand := k.strand.map fun st => { st with phase := st.phase + 1 } }
    match kind with
    | .pend => k.leaveAll (s.clkOf c)
    | .sync _ => k.waitOn .barrier
    | .fence _ => k.waitOn .other
    | .final => k

/-- What the phase end now due is for. -/
def Core.dueKind (k : Core) : EndKind :=
  match k.copies with
  | p :: _ => p.kind
  | [] => .final

/-- A phase end is due: the strand's sequencers have arrived, what LD and ST issued has been performed, and it is not the final
one over again. -/
def Core.phaseDue (k : Core) : Bool :=
  k.strand.isSome && k.allAtEnd && k.copiesAgree && k.loadsDone && k.storesDone && k.rowsDone &&
    !(k.ends.any fun e => e.kind == .final)

def isFlush (i : Instr) : Bool :=
  match i with
  | .dflush _ => true
  | _ => false

/-- A DFLUSH stands at the head of the stage queue and executes in the next clk (R340): the phase end comes after it (DEDUCED, log 85). -/
def State.flushDue (s : State) (c : CoreId) : Bool :=
  let e := (s.core c).stg
  e.frozen.isNone && e.cmds.head?.any fun m => isFlush m.op && !m.ended && s.timeFor m && !s.mismatch m

/-- DFLUSHes that a strand has issued and its stage queue will still execute. -/
def Core.flushesComing (k : Core) : Bool :=
  !(k.stg.cmds.head?.any fun m => m.ended) && k.stg.cmds.any fun m => isFlush m.op && !m.ended

/-- PHASE_END (R202). A SYNC whose phase was published before a pre-emption arrives at its barrier without ending one again
(R355). -/
def State.phaseEnd (s : State) (c : CoreId) : State :=
  let k := s.core c
  if !k.phaseDue || s.flushDue c then s
  else
    match k.dueKind, k.synced with
    | .sync lvl, true =>
      if k.ends.isEmpty then s.onCore c fun k => { k.waitOn .barrier with synced := false, arrived := some lvl } else s
    | kind, _ => s.endPhase c kind

def execPhaseEnd (c : CoreId) (s : State) : Out := .next (s.phaseEnd c)

/-! ## The publication is complete (R202, R206, R207, R337) -/

/-- The rows of a core are performed at a scope (R207): applied at home here, or accepted by their port; from fabric scope on applied at the
remote home; at system scope nothing that the memory port accepted is on its way to a device. -/
def State.performedAt (s : State) (c : CoreId) (scope : Nat) (rows : List (Fin 2048)) : Bool :=
  rows.all (fun r => !s.rowQueued c r && (decide (scope < 4) || !s.rowPosted c r)) &&
    (decide (scope < 5) || !s.posted.any fun p => p.core == c)

/-- The phase ends up to the first of an XFENCE that still holds its sequencers, with its scope. -/
def Core.upToFence (k : Core) : Option (Nat × List PhaseOut) :=
  let pre := k.ends.takeWhile fun e => match e.kind with
    | .fence _ => false
    | _ => true
  match k.ends.drop pre.length with
  | e :: _ => (match e.kind with
    | .fence scope => some (scope.toNat, pre ++ [e])
    | _ => none)
  | [] => none

/-- The publications that an XFENCE from CORE waits for have been performed at its scope, those of earlier phases among them (R206). -/
def State.fenceDone (s : State) (c : CoreId) : Bool :=
  match (s.core c).upToFence with
  | some (scope, es) => s.performedAt c scope (es.flatMap (·.rows))
  | none => false

/-- Changes that CSWAP has still to queue for a barrier (R246); none where a reply that rq has no room for holds the queue. -/
def Core.swapsComing (k : Core) : Bool :=
  (k.rqRoom || !(k.code.cmds.head?.any fun m => m.ended)) && k.code.cmds.any fun m => !m.ended && (match m.op with
    | .cswap _ => true
    | _ => false)

/-- What the completion of a phase's publication brings: the phase's deferral effects, the arrival at a barrier, the end of the strand. -/
def State.published (s : State) (c : CoreId) (e : PhaseOut) : State :=
  let s := e.rows.foldl (fun s r => s.freeRow c r) s
  let s := s.onCore c fun k => { k with ends := k.ends.tail }
  let s := match (s.core c).strand with
    | some st => s.onLaunch (clusterOf c) st.gid fun l => (e.fx ++ if e.kind = .final then (s.core c).fx else []).foldl Launch.publish l
    | none => s
  match e.kind with
  | .pend | .fence _ => s
  | .sync lvl =>
    if Seq.all.any fun q => ((s.core c).seq q).copy.isSome && ((s.core c).seq q).wait == .barrier then
      s.onCore c fun k => { k with arrived := some lvl }
    else s
  | .final => s.endStrand c

/-- The oldest phase whose publication goes on is complete: its sectors applied at their homes, or accepted by the memory port (R202). One
that ends a strand waits for changes that a CSWAP has still to queue, since the strand's end is their barrier (R246; DEDUCED, log 82), and for
the DFLUSHes it has issued, which take effect with it (log 85). -/
def State.completeNow (s : State) (c : CoreId) : Option PhaseOut :=
  match (s.core c).ends with
  | [] => none
  | e :: _ =>
    let held := match e.kind with
      | .fence _ => true
      | .final => (s.core c).swapsComing || (s.core c).flushesComing
      | _ => false
    if held || !s.performedAt c 4 e.rows then none else some e

/-- The first `n` phases publish in their order, as far as their publications are complete (R337). -/
def State.publishReady (s : State) (c : CoreId) : Nat → State
  | 0 => s
  | n + 1 =>
    match s.completeNow c with
    | some e => (s.published c e).publishReady c n
    | none => s

/-- An XFENCE releases its sequencers; the phases that it waited for publish, as far as every sector has been applied (R202, R206). -/
def State.releaseFence (s : State) (c : CoreId) : State :=
  let n := (((s.core c).upToFence).map (·.2.length)).getD 0
  (s.onCore c fun k => { k.leaveAll (s.clkOf c) with ends := k.ends.map fun e => match e.kind with
    | .fence _ => { e with kind := .pend }
    | _ => e }).publishReady c n

/-- PUBLICATION_COMPLETE (R202): an XFENCE that waits for no more releases its sequencers; else the oldest phase's publication is complete;
else what leaves the package comes one sector further. Phases complete in their order. -/
def State.publicationComplete (s : State) (c : CoreId) : State :=
  if s.fenceDone c then s.releaseFence c
  else
    match s.completeNow c with
    | some e => s.published c e
    | none => s.postNext c

def execPublicationComplete (c : CoreId) (s : State) : Out := .next (s.publicationComplete c)

/-! ## The gang barrier (R204, R205) -/

/-- GANG_BARRIER_RELEASE: when every member around a core has arrived with its publication complete and its changes queued (R246), the sends
are delivered, the queued changes apply, and the members go on. Whether those on other packages have arrived is open (R410; log 81). -/
def State.barrierRelease (s : State) (c : CoreId) : State :=
  match (s.core c).strand, (s.core c).arrived with
  | some st, some lvl =>
    match st.domain lvl with
    | none => s
    | some d =>
      let gang := s.gang c st.gid d
      if s.gangAway c st.gid d || gang.any (fun x =>
          (s.core x).arrived != some lvl || !(s.core x).chk.again.isEmpty || (s.core x).swapsComing) then s
      else
        let far := (s.launch (clusterOf c) st.gid).any fun l => l.reachesOut lvl
        let (n, t) := s.free
        if far && !Config.gangArrived n then t
        else
          let s := ((if far then t else s).deliverSends gang).applySwaps c st.gid lvl d
          gang.foldl (fun s x => s.onCore x fun k => { k.leaveAll (s.clkOf x) with arrived := none }) s
  | _, _ => s

def execGangBarrierRelease (c : CoreId) (s : State) : Out := .next (s.barrierRelease c)

/-! ## HALT (R201, R354, R356) -/

/-- What a sequencer issued before has landed, been pushed or been performed. -/
def Core.quiet (k : Core) (q : Seq) : Bool :=
  match q with
  | .ctl => true
  | .ld => k.loads.all fun l => l.seq != .ld
  | .ex => k.ex.pushes.isEmpty
  | .st => k.storesDone && k.loads.all fun l => l.seq != .st

/-- HALT: waits until its results have landed and its pushes have been performed; then issues nothing more. In a pre-emption
stub it parks. -/
def execHalt (s : State) : Out :=
  if !s.here.quiet s.cur.2 then .next (s.block .other)
  else
    let parked := s.here.divert == some .preempt
    let s := if s.cur.2 = .ex then s.mod Core.settle else s
    let s := (s.modMe fun q => { q.setDepth 0 with run := if parked then .parked else .halted }).issue
    .next (if parked then s else s.phaseCheck s.cur.1)

/-! ## Hitches on CTL (R209, R210) -/

/-- The hitch of a handle, with the checks of R209 and R210; `init` lets any context take a complete hitch. -/
def State.useHitch (s : State) (handle : Word) (init : Bool) : Except Stop (Nat × Hitch) :=
  let n := handle.toNat
  if n = 0 ∨ 4096 ≤ n then .error (.trap .reservedOperand 0)
  else
    let h := s.hitch (clusterOf s.cur.1) n
    if h.owner == some s.here.ctx || (init && h.count == 0) then .ok (n, h) else .error (.violation .foreignHitch handle)

def State.putHitch (s : State) (n : Nat) (h : Hitch) : State := s.setHitch (clusterOf s.cur.1) n h

/-- HINIT. -/
def execHinit (h : Fin 32) (n : BitVec 16) (s : State) : Out :=
  match s.useHitch (s.reg h) true with
  | .error e => .next (s.stop e)
  | .ok (m, x) =>
    if n = 0 then .next (s.execTrap .reservedOperand)
    else if x.count ≠ 0 then .next (s.execTrap .hitchBusy)
    else .next ((s.putHitch m ⟨n, some s.here.ctx, false⟩).retire 8)

/-- HARV. -/
def execHarv (h : Fin 32) (n : BitVec 16) (s : State) : Out :=
  match s.useHitch (s.reg h) false with
  | .error e => .next (s.stop e)
  | .ok (m, x) =>
    if n = 0 then .next (s.execTrap .reservedOperand)
    else if x.count.toNat < n.toNat then .next (s.execTrap .hitchUnderflow)
    else .next ((s.putHitch m { x with count := x.count - n }).retire 8)

/-- HWAIT; with `poll` it reads the count and never blocks. -/
def execHwait (dst h : Fin 32) (poll : Bool) (s : State) : Out :=
  match s.useHitch (s.reg h) false with
  | .error e => .next (s.stop e)
  | .ok (m, x) =>
    if x.broken then .next (s.execTrap .hitchUnderflow)
    else if poll then .next ((s.writeS dst (x.count.setWidth 64) 1).retire 8)
    else if x.count ≠ 0 then .next (s.block (.hwait m))
    else .next ((s.writeS dst 0 1).retire 8)

/-! ## The reply queue (R211) -/

/-- RPOP. -/
def execRpop (dst : Fin 32) (tag : BitVec 5) (any : Bool) (s : State) : Out :=
  match s.here.rq with
  | [] => .next (s.block .rqEmpty)
  | r :: rest =>
    if !any && r.tag != tag then .next (s.execTrap .replyTagMismatch)
    else .next (((s.mod fun k => { k with rq := rest }).writeS dst r.value 1).retire 8)

/-- RTRY: reports on bq0. -/
def execRtry (dst : Fin 32) (tag : BitVec 5) (any : Bool) (s : State) : Out :=
  if !s.here.bqRoom 0 then .next (s.execTrap .branchQueueOverflow)
  else
    match s.here.rq with
    | [] => .next ((s.mod fun k => k.pushBq 0 false).retire 8)
    | r :: rest =>
      if any || r.tag == tag then
        .next (((s.mod fun k => { k.pushBq 0 true with rq := rest }).writeS dst r.value 1).retire 8)
      else .next ((s.mod fun k => k.pushBq 0 false).retire 8)

end Sys2Proof.Machine
end

