-- ==== Sys2Proof/Machine/Reduce.lean ====
section
/-! DEFINITION. Reductions, max with index, classification, branch outcomes and the accumulator forms: majors 0x1F, 0x21
and 0x28 (R44, R138, R139, R141-R145). -/

namespace Sys2Proof.Machine

/-! ## The pairwise tree (R44) -/

/-- combine of R44: an absent partial leaves the other unchanged. -/
def combine {α : Type} (f : α → α → α) : Option α → Option α → Option α
  | none, y => y
  | x, none => x
  | some x, some y => some (f x y)

/-- One level of the tree. -/
def treeLevel {α : Type} (f : α → α → α) : List (Option α) → List (Option α)
  | x :: y :: t => combine f x y :: treeLevel f t
  | t => t

/-- The first `seg` levels. -/
def tree {α : Type} (f : α → α → α) : Nat → List (Option α) → List (Option α)
  | 0, xs => xs
  | n + 1, xs => tree f n (treeLevel f xs)

/-- The queue of a reduction's destination. -/
def redQ (d : RDst) : Option (Fin 16) :=
  match d with
  | .lanes d => dstQ d
  | .s _ => none

/-- A reduction by the tree (R138): an active lane enters as it is, a NaN of a float type quiet (R31); `empty` is the result of none. -/
def vred (o : VRed) (f : Nat → Nat → Nat) (empty : Nat) (s : State) : State :=
  let t := o.ty
  let m := s.here.mask o.mask
  let n := viewLanes o.wide t
  let seg := o.seg.toNat
  vecOp [o.a] (some t) (redQ o.dst) (fun k vs =>
    let a := (nth vs 0).lane t
    let out := tree f seg ((List.range n).map fun l => if m.getLsbD l then some (quietCode t (a l)) else none)
    let res : Nat → Nat := fun l => ((out.getD (l / 2 ^ seg) none).getD empty)
    match o.dst with
    | .lanes d => (k.wideHold o.wide s.clk).writeV s.clk d (viewLat o.wide 6) (writeLanes t.width n m.getLsbD o.mz res a (ltyTag t))
    | .s d =>
      (k.wideHold o.wide s.clk).later (viewLat o.wide 6) (.s d
        (if t.isSigned then BitVec.ofInt 64 (sval t.width (res 0)) else BitVec.ofNat 64 (res 0)))) s

/-- The least and greatest codes of an integer type. -/
def minCode (t : LTy) : Nat := if t.isSigned then 2 ^ (t.width - 1) else 0
def maxCode (t : LTy) : Nat := if t.isSigned then 2 ^ (t.width - 1) - 1 else 2 ^ t.width - 1

/-- The masked-excluded NaN of EX (R44, R138). -/
def maskedNan (t : LTy) : Nat := narrowNan (fmtOf t) (evNan false .masked .exVector 0)

def execVredAdd (o : VRed) (s : State) : Out := .next (vred o (fun a b => (a + b) % 2 ^ o.ty.width) 0 s)
def execVredMin (o : VRed) (s : State) : Out :=
  .next (vred o (fun a b => if ival o.ty.width o.ty.isSigned b < ival o.ty.width o.ty.isSigned a then b else a)
    (maxCode o.ty) s)
def execVredMax (o : VRed) (s : State) : Out :=
  .next (vred o (fun a b => if ival o.ty.width o.ty.isSigned a < ival o.ty.width o.ty.isSigned b then b else a)
    (minCode o.ty) s)
def execVredAnd (o : VRed) (s : State) : Out := .next (vred o (fun a b => a &&& b) (2 ^ o.ty.width - 1) s)
def execVredOr (o : VRed) (s : State) : Out := .next (vred o (fun a b => a ||| b) 0 s)
def execVredXor (o : VRed) (s : State) : Out := .next (vred o (fun a b => a ^^^ b) 0 s)
def execVredFadd (o : VRed) (s : State) : Out := .next (vred o (faddCode o.ty false false) (maskedNan o.ty) s)
def execVredFmin (o : VRed) (s : State) : Out := .next (vred o (fpick o.ty false) (maskedNan o.ty) s)
def execVredFmax (o : VRed) (s : State) : Out := .next (vred o (fpick o.ty true) (maskedNan o.ty) s)

/-! ## VMAXI (R139) -/

/-- Strictly greater in VMAXI's order: NaN above +∞, +0 above −0. -/
def maxiGt (t : LTy) (x y : Nat) : Bool :=
  if t.isInt then decide (ival t.width t.isSigned y < ival t.width t.isSigned x)
  else
    let a := fval t x
    let b := fval t y
    if a.isNan then !b.isNan
    else if b.isNan then false
    else match cmpF a b with
      | .gt => true
      | .lt => false
      | .eq => b.neg && !a.neg

/-- The winner among the active lanes of a segment, lowest first. -/
def maxiWin (t : LTy) (a : Nat → Nat) (act : Nat → Bool) (lanes : List Nat) : Option Nat :=
  lanes.foldl (fun best l =>
    if !act l then best
    else match best with
      | none => some l
      | some b => if maxiGt t (a l) (a b) then some l else best) none

def execVmaxi (o : VRed) (s : State) : Out :=
  let t := o.ty
  let m := s.here.mask o.mask
  let n := viewLanes o.wide t
  let size := 2 ^ o.seg.toNat
  .next (vecOp [o.a] (some t) (redQ o.dst) (fun k vs =>
    let a := (nth vs 0).lane t
    let wins := (List.range (n / size)).map fun g => maxiWin t a m.getLsbD ((List.range size).map (g * size + ·))
    let win : Nat → Option Nat := fun l => wins.getD (l / size) none
    match o.dst with
    | .lanes d =>
      (k.wideHold o.wide s.clk).writeV s.clk d (viewLat o.wide 7)
        (writeLanes t.width n m.getLsbD o.mz (fun l => (win l).getD (2 ^ t.width - 1)) a (ltyTag t))
    | .s d =>
      (k.wideHold o.wide s.clk).later (viewLat o.wide 7) (.s d (match win 0 with
        | some i => BitVec.ofNat 64 i
        | none => BitVec.allOnes 64))) s)

/-! ## Classification and branch outcomes (R141, R142) -/

/-- The classification code of a lane (R141). -/
def clsCode (t : LTy) (x : Nat) : Nat :=
  match ltyFlt t with
  | none =>
    let sign := if t.isSigned && decide (2 ^ (t.width - 1) ≤ x) then 8 else 0
    let atLimit := x == maxCode t || (t.isSigned && x == minCode t)
    sign + (if x = 0 then 0 else if atLimit then 5 else 2)
  | some f =>
    let sign := if 2 ^ (f.width - 1) ≤ x then 8 else 0
    match decodeF f x with
    | .nan b => nanClass b * 16 + sign + 4
    | .inf _ => sign + 3
    | .fin _ m _ => sign + (if m = 0 then 0 else if x % 2 ^ (f.width - 1) < 2 ^ f.mbits then 1 else 2)

def execVcls (o : V1) (s : State) : Out := .next (lane1 o 2 false (clsCode o.ty) s)

/-- A lane counts as nonzero unless it is 0, or ±0 in a float type (R142). -/
def laneNonzero (t : LTy) (x : Nat) : Bool := if t.isInt then x != 0 else x % 2 ^ (t.width - 1) != 0

/-- VBQ (R142): the push is performed outside EX (R119). -/
def execVbq (t : LTy) (mask : Fin 8) (x : VSrc) (n : Fin 4) (all : Bool) (s : State) : Out :=
  let m := s.here.mask mask
  let wide := wideOf [x.k00]
  if !s.here.bqRoom n then
    if n = 2 then .next (s.execTrap .branchQueueOverflow) else .next (s.block (.bqFull n))
  else
    .next (vecOp [x] (some t) none (fun k vs =>
      let a := (nth vs 0).lane t
      let act := (List.range (viewLanes wide t)).filter fun l => m.getLsbD l
      let b := if all then act.all fun l => laneNonzero t (a l) else act.any fun l => laneNonzero t (a l)
      k.pushLater s.clk (viewLat wide 2) (.bit n b)) s)

/-! ## Accumulator forms (R143-R145) -/

/-- AMOV (R143): bits are copied; the mask bit is that of the accumulator lane. Accumulator to accumulator is a wide form (R115), one
slot longer. An inactive lane j of a queue entry with mz 0 carries lane 64p + j of s1, the lane that the active one would (DEDUCED,
log 26). -/
def execAmov (o : V1) (part : BitVec 8) (s : State) : Out :=
  let m := s.here.mask o.mask
  let p := 64 * part.toNat
  let tag := ltyTag o.ty
  .next (vecOp [o.a] (some o.ty) (dstQ o.dst) (fun k vs =>
    let a := (nth vs 0).raw 32
    let lat := 2
    match o.dst, o.a with
    | .a _, .a _ => k.writeV s.clk o.dst (viewLat true lat) (writeLanes 32 256 m.getLsbD o.mz a a tag)
    | .a _, _ =>
      let out := writeLanes 32 256 m.getLsbD o.mz (fun l => a (l - p)) (fun _ => 0) tag
      k.writeV s.clk o.dst lat { out with en := fun l => decide (p ≤ l) && decide (l < p + 64) && out.en l }
    | _, _ =>
      k.writeV s.clk o.dst lat (writeLanes 32 64 (fun l => m.getLsbD (p + l)) o.mz (fun l => a (p + l)) (fun l => a (p + l)) tag)) s)

/-- ACLR (R144). -/
def execAclr (mask : Fin 8) (d : Fin 64) (s : State) : Out :=
  let m := s.here.mask mask
  .next ((s.mod fun k => k.writeV s.clk (.a d) 1
    (writeLanes 32 256 m.getLsbD false (fun _ => 0) (fun _ => 0) 0)).retire 8)

/-- One lane of ACVT (R133, R145): from FP32 or I32 to a narrower type. -/
def acvtCode (t : LTy) (flt sat rz : Bool) (x : Nat) : Nat :=
  match ltyFlt t with
  | some f => roundF f rz sat .exVector (if flt then decodeF .fp32 x else intF (sval 32 x))
  | none => if flt then toIntCode t.width t.isSigned rz (decodeF .fp32 x) else satCode t.width t.isSigned (sval 32 x)

/-- ACVT (R145). -/
def execAcvt (d : VDst) (t : LTy) (mask : Fin 8) (mz : Bool) (a : Fin 64) (ctl : BitVec 8) (s : State) : Out :=
  let m := s.here.mask mask
  let base := 128 * (ctl.toNat % 4)
  .next (vecOp [.a a] none (dstQ d) (fun k vs =>
    let x := (nth vs 0).raw 32
    k.writeV s.clk d 3
      (writeLanes t.width t.lanes (fun l => m.getLsbD (base + l)) mz
        (fun l => acvtCode t (ctl.getLsbD 2) (ctl.getLsbD 3) (ctl.getLsbD 4) (x (base + l)))
        ((nth vs 0).raw t.width) (ltyTag t))) s)

end Sys2Proof.Machine
end

