-- ==== Sys2Proof/Machine/System.lean ====
section
/-! DEFINITION. The system instructions (R353, R354) and the events of R348-R362: decode traps, delivered faults, the yield
bound, diversions, and the decisions of system software on violations. -/

namespace Sys2Proof.Machine

/-! ## TRAP, SYS, ERET, YIELD -/

/-- TRAP and SYS complete, then trap with tval n (R352, R354); inside a handler they do not issue. -/
def State.callTrap (s : State) (cause : Cause) (n : BitVec 16) : State :=
  let pc := s.me.pc
  if s.me.inTrap then s.takeTrap cause pc 0 else s.issue.takeTrap cause (pc + 8) (n.setWidth 64)

def execTrap (n : BitVec 16) (s : State) : Out := .next (s.callTrap .softwareTrap n)
def execSys (n : BitVec 16) (s : State) : Out := .next (s.callTrap .systemCall n)

/-- ERET (R354): a violation in user mode. Its own slot is one of the handler and is not counted (R350). -/
def execEret (s : State) : Out :=
  if !s.me.sup then .next (s.violate .privilegedInstruction 0)
  else if !s.me.inTrap then .next (s.execTrap .notInTrap)
  else
    let s := s.issue.modMe SeqSt.leaveTrap
    .next (if s.cur.2 = .ctl then s.checkpoint s.cur.1 else s)

/-- YIELD may give the core back: nothing waits for it, its stage is not fixed and has more cores than its min (R354). -/
def State.mayRelease (s : State) : Bool :=
  let k := s.here
  let u := clusterOf s.cur.1
  k.req.isNone && k.divert.isNone && k.commit.isNone &&
    (match k.strand with
      | none => false
      | some st =>
        !st.fixed && (match s.launch u st.gid with
          | some l => decide ((l.stage st.stage).min < s.stageN u st.gid st.stage)
          | none => false))

/-- YIELD.YP (R354): commits a release where it may, and is then a yield point; else it acts as NOP.YP. -/
def execYield (s : State) : Out :=
  if s.mayRelease then
    let s := s.mod fun k => { k with commit := some .yielded, req := some .release }
    if !s.me.inTrap && (s.drainAt s.here.ctx s.cur.2 s.me.pc).isSome then .next (s.block .held) else .next (s.retire 8)
  else .next (s.retire 8)

/-! ## Traps that come before an instruction (R69, R81, R308, R349, R375) -/

/-- DECODE_TRAP: a fetched word fails a decode check; tval is the word (R352). -/
def execDecodeTrap (cause : Cause) (word : Word) (s : State) : Out := .next (s.takeTrap cause s.me.pc word)

/-- The current sequencer no longer stands at a copy of a phase end, or at a GVI. -/
def State.leaveWait (s : State) : State := s.modMe fun q => { q with copy := none, gvi := none }

/-- ENGINE_FAULT_DELIVERY (R308): CTL takes the cause of the halted gather queue; tval is the pc of the command. -/
def execEngineFaultDelivery (s : State) : Out :=
  let k := s.here
  match k.gath.halted, k.gath.cur with
  | some cause, some m => .next ((s.mod fun k => { k with engFault := false }).leaveWait.takeTrap cause s.me.pc m.pc)
  | _, _ => .next (s.mod fun k => { k with engFault := false })

/-- YIELD_BOUND_EXCEEDED (R81): tval is the count before the trap sets it to 0 (R350, R352). -/
def execYieldBoundExceeded (s : State) : Out :=
  let n := s.here.ex.ycnt
  .next ((s.mod fun k => { k with ex := { k.ex with ycnt := 0 } }).takeTrap .yieldBoundExceeded s.me.pc n)

/-- SEVERITY_TRAP (R375): epc is the next instruction, tval the VA of the first classed sector. -/
def execSeverityTrap (s : State) : Out :=
  match s.me.sevTrap with
  | none => .next s
  | some (cause, va) => .next ((s.modMe fun q => { q with sevTrap := none }).leaveWait.takeTrap cause s.me.pc va)

/-! ## The diversion (R355-R357) -/

def Reason.code : Reason → BitVec 3
  | .move => 1
  | .preempt => 2
  | .release => 3
  | .resume => 4

/-- Whether a SYNC that waits at its barrier has ended its phase (R355). -/
def Core.atBarrier (k : Core) : Bool := Seq.all.any fun q => (k.seq q).wait == .barrier && (k.seq q).copy.isSome

/-- One sequencer goes to the stub that covers its pc, with the end test there (R105). -/
def State.divertSeq (s : State) (c : CoreId) (why : Reason) (q : Seq) : State :=
  let st := (s.core c).seq q
  if st.run ≠ .running then s
  else
    let stub := match s.drainAt (s.core c).ctx q st.pc with
      | some d => d.stub
      | none => st.pc
    s.onCore c fun k => k.onSeq q fun st =>
      SeqSt.goto { st with dpc := st.pc, dres := why.code, wait := .none, copy := none, gvi := none, walkFault := none } (alignPc stub)

/-- DIVERSION (R355): every sequencer that has not halted goes to its stub. An arrival at a barrier is withdrawn, and the SYNC
stays published. A pre-emption withdraws a committed move (R342). -/
def State.divertCore (s : State) (c : CoreId) : State :=
  let k := s.core c
  match k.req with
  | none => s
  | some why =>
    if !s.diverts c then s
    else
      let synced := k.synced || k.atBarrier
      let s := s.onCore c fun k =>
        { k.settle with arrived := none, synced := synced, req := none, divert := some why,
                        commit := if why = .preempt then none else k.commit }
      (Seq.all.foldl (fun s q => s.divertSeq c why q) s).checkpoint c

def execDiversion (c : CoreId) (s : State) : Out := .next (s.divertCore c)

/-! ## Decisions on violations (R360, R404) -/

/-- The pending violation of a record index. -/
def State.pendingAt (s : State) (index : Byte) : Option (Nat × Violation) :=
  s.vpend.find? fun p => p.1 % 256 == index.toNat

/-- A core number in a record. -/
def Violation.core (v : Violation) : CoreId := ⟨v.place.toNat % 2048, Nat.mod_lt _ (by decide)⟩

/-- Bytes of an instruction with what belongs to it: a GVI passes over its region (R385). -/
def passedBy (w : Word) : Word :=
  if majorOf w = 0x3E then 16
  else if majorOf w = 0x3D ∧ w.extractLsb' 52 4 = 0 then 8 + 8 * (w.extractLsb' 0 16).setWidth 64
  else 8

/-- A POOL goes past the index it was at, or past the rows of a bag that it had summed. -/
def PoolAt.passed (a : PoolAt) : PoolAt := if a.full then ⟨a.bag + 1, 0, false, []⟩ else { a with n := a.n + 1 }

/-- What an engine was at is completed with no effect: an element of a gather-engine command that goes by elements, or the command. -/
def EngCmd.passed (m : EngCmd) : EngCmd :=
  match queueOf m.op, m.op with
  | some 2, .coll _ => { m with ended := true }
  | some 2, .pool _ => { m with pool := m.pool.passed, done := if m.pool.full then m.done else m.done + 1 }
  | some 2, _ => { m with done := m.done + 1 }
  | _, _ => { m with ended := true }

/-- The frozen master goes on: a sequencer, an engine's queue, a host function. `skip` completes what it was at with no
effect; an instruction of EX so completed takes a slot as its issue would, and its yp bit sets the count (R81; DESIGN CHOICE, log 73). -/
def State.thaw (s : State) (v : Violation) (skip : Bool) : State :=
  let c := v.core
  match v.master.toNat with
  | 0 =>
    let q := Seq.ofNum (v.unit.extractLsb' 0 2).toFin
    let st := (s.core c).seq q
    match (s.core c).heldPubs.find? fun h => h.viol == v with
    | some h => s.decidePub h skip
    | none =>
    if st.run ≠ .frozen v then s
    else
      let checking := s.checking
      let size : Word := match (s.core c).fetch (s.core c).ctx st.pc with
        | some (w, _) => passedBy w
        | none => 8
      s.onCore c fun k =>
        let w := ((k.fetch k.ctx st.pc).map (·.1)).getD 0
        let k := k.onSeq q fun st =>
          if skip then SeqSt.goto { st with run := .running, wait := .none } (st.pc + size) else { st with run := .running }
        let k := if q = .st then k.freezePub else k
        if !skip then k
        else if q = .ex then ((k.countSlot (ypOf w)).holdEx (s.clkOf c) 1).nextSlot
        else if q = .ctl && checking then (k.addLog [.word w, .skipped] 0).logFull
        else k
  | 5 =>
    let vf : Fin 64 := ⟨v.place.toNat % 64, Nat.mod_lt _ (by decide)⟩
    { s with vfs := s.vfs.set vf { s.vfs[vf] with frozen := none } }
  | _ =>
    let s := s.onCore c fun k => k.onEngine v.master fun e => if e.frozen = some v then { e with frozen := none } else e
    if v.kind = .foreignHitch then (if skip then s else s.arriveAs c v.master v.ctx v.pc v.target)
    else s.onCore c fun k => k.onEngine v.master fun e => e.onCur fun m =>
      let m := m.waitsFrom s.gtb.toNat
      if skip then m.passed else m

/-- A decision, which comes through a register of the PF, removes the violation from those that wait. -/
def State.decide (s : State) (index : Byte) (f : Violation → State → State) : State :=
  match (if s.pfUp then s.pendingAt index else none) with
  | none => s
  | some (n, v) => f v { s with vpend := s.vpend.filter fun p => p.1 != n }

def execVdecRetry (i : Byte) (s : State) : Out := .next (s.decide i fun v s => s.thaw v false)
def execVdecSkip (i : Byte) (s : State) : Out := .next (s.decide i fun v s => s.thaw v true)
def execVdecTerminate (i : Byte) (s : State) : Out := .next (s.decide i fun v s => s.terminate v.ctx)

/-- VF_RESET (R362, R400). -/
def execVfReset (vf : Fin 64) (s : State) : Out := .next (if s.vfUp then s.vfReset vf else s)

end Sys2Proof.Machine
end

