-- ==== Sys2Proof/Machine/Switch.lean ====
section
/-! DEFINITION. Pre-emption requests (R404), the context switch and its record (R358, R359), and the restore (R357, R358). -/

namespace Sys2Proof.Machine

/-! ## Requests (R404) -/

/-- A request of prq; beyond 64 it is ignored. The frame is the one psave holds. -/
def State.request (s : State) (c : CoreId) (ctx : Ctx) (restore : Bool) : State :=
  if 64 ≤ s.prq.length then s
  else { s with prq := s.prq ++ [⟨c, ctx, restore, s.pf.psave.toNat, s.gtbq / 189, false⟩] }

/-- A diversion for a move or a release becomes that of a pre-emption, served by the same run of the stubs: what its stubs have halted
counts as parked (R20; DEDUCED, log 80). Once the final phase end has begun the strand ends, and the core goes to no stage. -/
def Core.preemptStub (k : Core) (why : Reason) : Core :=
  let k := { k with commit := none }
  if why = .preempt || k.ends.any fun e => e.kind == .final then k
  else
    { k with divert := some .preempt, seqs := k.seqs.map fun st =>
        if st.dres != why.code then st
        else { st with dres := Reason.code .preempt, run := if st.run == .halted then .parked else st.run } }

/-- PRQ_PREEMPT: YREQ is set with reason pre-empt where the core runs the context, now or when it comes to run it; a move or release
that waits is withdrawn (R355). -/
def execPrqPreempt (c : CoreId) (ctx : Ctx) (s : State) : Out :=
  if !s.pfUp || 64 ≤ s.prq.length then .next s
  else
    let s := s.request c ctx false
    .next (if !((s.core c).strand.any fun st => st.ctx == ctx) then s
      else
        match (s.core c).divert with
        | none => s.raise c
        | some why => s.onCore c fun k => k.preemptStub why)

/-- PRQ_RESTORE. -/
def execPrqRestore (c : CoreId) (ctx : Ctx) (s : State) : Out := .next (if s.pfUp then s.request c ctx true else s)

/-- PREEMPT_LATE: the oldest request of a core that has waited 100 µs is flagged. -/
def execPreemptLate (c : CoreId) (s : State) : Out :=
  .next { s with prq := s.prq.map fun r =>
    if r.core == c && decide (100000 ≤ s.gtbq / 189 - r.since) then { r with late := true } else r }

/-! ## The record (R359) -/

/-- A number from values at byte offsets. -/
def fieldsOf (l : List (Nat × Nat)) : Nat := l.foldl (fun x e => x + e.2 * 2 ^ (8 * e.1)) 0

def b2n (b : Bool) : Nat := if b then 1 else 0

/-- Bytes of the record of a strand with some rows (R359). -/
def recLength (rows : Nat) : Nat := 256 * (256 + rows)

/-- Row 0. -/
def Core.rowZero (k : Core) (c : CoreId) (st : Strand) : Nat :=
  let halted := Seq.all.foldl (fun x q => x + b2n ((k.seq q).run == .halted) * 2 ^ q.num.val) 0
  fieldsOf ([(0, 0x4B564358), (4, st.ctx.toNat), (6, c.val), (8, st.rows), (12, halted + b2n k.synced * 16)] ++
    (Seq.all.map fun q => (16 + 8 * q.num.val, if (k.seq q).run == .halted then 0 else (k.seq q).dpc.toNat)) ++
    [(48, st.phase.toNat), (56, k.ex.tsa.toNat)] ++
    ((List.finRange 16).map fun i => (64 + 8 * i.val, k.locks[i].toNat)) ++
    ((List.finRange 4).map fun i => (192 + 2 * i.val, pack 1 (fun j => b2n (k.bqs[i].getD j false)) 16)) ++
    ((List.finRange 4).map fun i => (200 + i.val, k.bqs[i].length)) ++ [(204, k.rq.length)] ++
    ((List.finRange 16).map fun i => (205 + i.val, k.queues[i].entries.length)) ++
    ((List.finRange 16).map fun i => (221 + i.val, k.toks[i].toNat)))

/-- Row 9: the windows. -/
def Core.rowWindows (k : Core) : Nat :=
  fieldsOf ((List.finRange 16).map fun i => (16 * i.val, match k.wins[i] with
    | some w => fieldsOf [(0, w.va.toNat), (8, w.lsz.toNat), (9, w.row.toNat), (11, w.count.toNat), (13, 1)]
    | none => 0))

/-- The state of a claimed row: 8 bytes. -/
def Core.rowState (k : Core) (r : Fin 2048) : Nat :=
  let p := k.pad[r]
  match k.stash.find? fun x => x.row == r with
  | none => p.tag.toNat + p.mark.toNat * 2 ^ 20
  | some x =>
    p.tag.toNat + 2 ^ 6 + x.win.val * 2 ^ 7 + x.dirty.toNat * 2 ^ 11 + b2n (x.use == .held) * 2 ^ 19 + p.mark.toNat * 2 ^ 20 +
      (x.va.extractLsb' 8 40).toNat * 2 ^ 24

/-- First slot of a queue among the 136. -/
def slotBase (q : Nat) : Nat := if q < 12 then 8 * q else if q < 14 then 96 + 16 * (q - 12) else 128 + 4 * (q - 14)

/-- The entry in a slot. -/
def Core.slotEntry (k : Core) (n : Nat) : Option QEntry :=
  (List.finRange 16).findSome? fun q =>
    if slotBase q.val ≤ n ∧ n < slotBase q.val + queueDepth q then k.queues[q].entries[n - slotBase q.val]? else none

/-- Header row i of the record. -/
def Core.recordRow (k : Core) (c : CoreId) (st : Strand) (i : Nat) : Nat :=
  if i = 0 then k.rowZero c st
  else if i < 9 then fieldsOf ((List.range 32).map fun j => (8 * j, (k.consts.toList.getD (32 * (i - 1) + j) 0).toNat))
  else if i = 9 then k.rowWindows
  else if i < 74 then
    fieldsOf ((List.range 32).map fun j =>
      let r := 32 * (i - 10) + j
      (8 * j, if h : r < 2048 then (if r < st.rows then k.rowState ⟨r, h⟩ else 0) else 0))
  else if i = 74 then fieldsOf ((List.range 32).map fun j => (8 * j, ((k.rq[j]?).map fun r => r.value.toNat).getD 0))
  else if i = 75 then fieldsOf ((List.range 32).map fun j => (j, ((k.rq[j]?).map fun r => r.tag.toNat).getD 0))
  else if i < 212 then ((k.slotEntry (i - 76)).map fun e => e.data.toNat).getD 0
  else if i = 212 then fieldsOf ((List.range 136).map fun j => (j, ((k.slotEntry j).map fun e => e.tag.toNat).getD 0))
  else 0

/-! ## The switch (R358) -/

/-- Every sequencer is parked or halted, one at least parked, and what the core had under way is done. -/
def Core.canSwitch (k : Core) : Bool :=
  (Seq.all.all fun q => (k.seq q).run == .parked || (k.seq q).run == .halted) &&
    (Seq.all.any fun q => (k.seq q).run == .parked) && (k.engines.all fun e => e.cmds.isEmpty && e.frozen.isNone) && k.tens.nest.isNone &&
    k.ends.isEmpty && k.pubs.isEmpty && k.loadsDone && k.storesDone && k.rowsDone

/-- A claimed row as it stands goes to the record. -/
def State.saveRow (s : State) (c : CoreId) (frame : Nat) (r : Fin 2048) : State :=
  match s.readPad c r 0 with
  | (s, none) => s
  | (s, some (d, _)) => s.putRecord (frame + 256 * (256 + r.val)) d.toNat 256

/-- The record of a core's strand in its frame. -/
def State.saveCore (s : State) (c : CoreId) (st : Strand) (frame : Nat) : State :=
  let k := s.core c
  let s := (List.range 256).foldl (fun s i => s.putRecord (frame + 256 * i) (k.recordRow c st i) 256) s
  (List.finRange 2048).foldl (fun s r => if r.val < st.rows then s.saveRow c frame r else s) s

/-- Parked sequencers start again at their stubs, as on a resume, when their request is no more. The slots of a restoring stub count
(DESIGN CHOICE, log 73). -/
def State.unpark (s : State) (c : CoreId) : State :=
  s.onCore c fun k =>
    let ctx := k.ctx
    let k := Seq.all.foldl (fun k q =>
      if (k.seq q).run == .parked then
        k.onSeq q fun st => SeqSt.goto { st with run := .running, dres := Reason.code .resume } (alignPc (match s.drainAt ctx q st.dpc with
          | some d => d.stub
          | none => st.dpc))
      else k) k
    { (if s.checking then k.checkpoint else k) with divert := none, ex := { k.ex with ycnt := 0 } }

/-- CONTEXT_SWITCH (R358): the record is written, the core's entries of the context are cleared, and the core is released. A
core whose request was cancelled while it drained goes on. A frame on a die that is not yet in service is waited for (R413). -/
def State.contextSwitch (s : State) (c : CoreId) : State :=
  let k := s.core c
  match k.strand with
  | none => s
  | some st =>
    if k.divert != some Reason.preempt || !k.canSwitch then s
    else
      match s.prq.find? fun r => r.core == c && r.ctx == st.ctx && !r.restore with
      | none => s.unpark c
      | some r =>
        if s.spanOut r.frame (recLength st.rows) then s else
        let s := s.checkSaved c
        if (s.core c).strand.isNone then s else
        let s := s.saveCore c st r.frame
        let own : Swap → Bool := fun x => x.core == c && x.gid == st.gid && st.domain x.lvl == some 1
        let a : Away := ⟨st, k.fx, k.sends, k.stash, k.queues.map fun q => q.entries.map (·.mark), k.wrote, s.swaps.filter own⟩
        let s : State := { s with prq := s.prq.erase r, swaps := s.swaps.filter fun x => !own x }
        s.onCore c fun k => { (k.forget st.ctx).vacate with away := k.away ++ [a], locks := .replicate 16 0 }

def execContextSwitch (c : CoreId) (s : State) : Out := .next (s.contextSwitch c)

/-- The request that a committed move or release makes of its core (R342, R354). -/
def Commit.reason (x : Commit) : Reason :=
  match x with
  | .move _ _ => .move
  | .draw _ | .yielded => .release

/-- PREEMPT_CANCEL: the requests of a core are dropped; a core that still waits for a yield point waits on only for a move or a release
that is committed, which the pre-emption has not taken it from (R342, R355). -/
def execPreemptCancel (c : CoreId) (s : State) : Out :=
  let s : State := { s with prq := s.prq.filter fun r => r.core != c || r.restore }
  .next (s.onCore c fun k => if k.req == some .preempt then { k with req := k.commit.map Commit.reason } else k)

/-! ## The restore (R357, R358) -/

/-- n bytes of the record at an offset. -/
def State.recBytes (s : State) (frame off n : Nat) : Nat := s.shownBytes (frame + off) n

/-- A row of the record's row state comes back; a stash row lies in memory where it was filled from, and one that the switch path does
not know is found by its VA. -/
def State.loadRow (s : State) (c : CoreId) (ctx : Ctx) (a : Away) (frame : Nat) (r : Fin 2048) : State :=
  let x := s.recBytes frame (2560 + 8 * r.val) 8
  let d := s.recBytes frame (256 * (256 + r.val)) 256
  let tag : Layout := BitVec.ofNat 6 x
  let s := s.writePad c r tag (BitVec.ofNat 2 (x >>> 20)) (BitVec.ofNat 2048 d)
  if x >>> 6 % 2 = 0 then s
  else
    let va : Word := BitVec.ofNat 64 ((x >>> 24) % 2 ^ 40 * 256)
    let win : Fin 16 := (BitVec.ofNat 4 (x >>> 7)).toFin
    let dirty : BitVec 8 := BitVec.ofNat 8 (x >>> 11)
    let use : RowUse := if (x >>> 19) % 2 = 1 then .held else .filled
    match a.stash.find? fun y => y.row == r && y.va == va with
    | some y => s.onCore c fun k => { k with stash := k.stash ++ [{ y with win := win, dirty := dirty, use := use }] }
    | none =>
    match s.translateNow (clusterOf c) ⟨ctx, 0, false⟩ va with
    | (s, .leaf p big) =>
      let row : StashRow := ⟨r, win, va, leafPa p big va, tag, dirty, true, pteDiscard p == 1, use⟩
      s.onCore c fun k => { k with stash := k.stash ++ [row] }
    | (s, _) => s

/-- The queues of the record, with the slot marks that the switch path kept. -/
def State.loadQueue (s : State) (a : Away) (frame : Nat) (q : Fin 16) : DQueue :=
  let n := min (s.recBytes frame (205 + q.val) 1) (queueDepth q)
  let entries : List QEntry := (List.range n).map fun j =>
    let slot := slotBase q.val + j
    ⟨BitVec.ofNat 8 (s.recBytes frame (256 * 212 + slot) 1), BitVec.ofNat 2048 (s.recBytes frame (256 * (76 + slot)) 256),
      a.marks[q].getD j 0⟩
  ⟨entries, BitVec.ofNat 16 n, 0, 0⟩

/-- The windows of the record. -/
def State.loadWindow (s : State) (frame : Nat) (i : Fin 16) : Option Window :=
  let o := 256 * 9 + 16 * i.val
  if s.recBytes frame (o + 13) 1 = 0 then none
  else some ⟨BitVec.ofNat 64 (s.recBytes frame o 8), BitVec.ofNat 5 (s.recBytes frame (o + 8) 1),
    BitVec.ofNat 11 (s.recBytes frame (o + 9) 2), BitVec.ofNat 12 (s.recBytes frame (o + 11) 2)⟩

/-- A sequencer on resume: halted, or at the stub of its dpc with dres 4. -/
def State.resumeSeq (s : State) (ctx : Ctx) (frame flags : Nat) (tvec sscr : Word) (q : Seq) : SeqSt :=
  let dpc : Word := BitVec.ofNat 64 (s.recBytes frame (16 + 8 * q.num.val) 8)
  let pc := match s.drainAt ctx q dpc with
    | some d => d.stub
    | none => dpc
  let st := SeqSt.start pc tvec sscr
  if flags >>> q.num.val % 2 = 1 then { st with run := .halted } else { st with dpc := dpc, dres := Reason.code .resume }

/-- The core with every field of the record; no diversion is under way in it, so that the slots of the restoring stub count (DESIGN
CHOICE, log 73). -/
def State.loadCore (s : State) (c : CoreId) (a : Away) (frame : Nat) : Core :=
  let st := a.strand
  let e := s.ctxEntry st.ctx
  let flags := s.recBytes frame 12 4
  let k := s.core c
  { k.start { st with rows := s.recBytes frame 8 4, phase := BitVec.ofNat 64 (s.recBytes frame 48 8) } (.replicate 4 0) 0 0
      k.consts with
    seqs := Vector.ofFn fun i => s.resumeSeq st.ctx frame flags (ctxTvec e) (ctxSscr e) (Seq.ofNum i)
    consts := Vector.ofFn fun (i : Fin 256) => BitVec.ofNat 64 (s.recBytes frame (256 + 8 * i.val) 8)
    ex := { ExSt.reset with slot := k.ex.slot, tsa := BitVec.ofNat 64 (s.recBytes frame 56 8) }
    queues := Vector.ofFn fun i => s.loadQueue a frame i
    toks := Vector.ofFn fun (i : Fin 16) => BitVec.ofNat 6 (s.recBytes frame (221 + i.val) 1)
    bqs := Vector.ofFn fun (i : Fin 4) =>
      (List.range (min (s.recBytes frame (200 + i.val) 1) 16)).map fun j => (s.recBytes frame (192 + 2 * i.val) 2).testBit j
    rq := (List.range (min (s.recBytes frame 204 1) 32)).map fun j =>
      ⟨BitVec.ofNat 64 (s.recBytes frame (256 * 74 + 8 * j) 8), BitVec.ofNat 5 (s.recBytes frame (256 * 75 + j) 1)⟩
    wins := Vector.ofFn fun i => s.loadWindow frame i
    locks := Vector.ofFn fun (i : Fin 16) => BitVec.ofNat 64 (s.recBytes frame (64 + 8 * i.val) 8)
    synced := flags.testBit 4
    wrote := a.wrote
    fx := a.fx
    sends := a.sends
    away := k.away.filter fun x => x.strand.ctx != st.ctx }

/-- What the switch path kept of a strand of a context, or a strand of no launch (log 16). -/
def Core.awayOf (k : Core) (ctx : Ctx) : Away :=
  (k.away.find? fun a => a.strand.ctx == ctx).getD ⟨⟨ctx, 65536, 0, 0, 0, 0, false, 0, []⟩, [], [], [], .replicate 16 [], [], []⟩

/-- A strand may start or go on here: from state 3 on, in reduced service on cluster 0 alone (R412, R413). -/
def State.serves (s : State) (c : CoreId) : Bool := s.vfUp && (!s.reduced || (clusterOf c).val == 0)

/-- The record as the switch path reads it, its header rows and the rows it holds, with the entry of its context; true where a sector of
them is lost, which is charged to the context (R370, R371). -/
def State.checkRecord (s : State) (ctx : Ctx) (frame : Nat) : State × Bool :=
  match s.checkSpan ⟨ctx, 0, false⟩ frame (recLength 0) with
  | (s, true) => (s, true)
  | (s, false) =>
    match s.checkSpan ⟨ctx, 0, false⟩ (frame + recLength 0) (256 * min 2048 (s.recBytes frame 8 4)) with
    | (s, true) => (s, true)
    | (s, false) => s.checkCtx ctx 0

/-- CONTEXT_RESTORE (R358): on the core whose number the record holds, once it is idle. A record on a die that is not yet in service is
waited for (R413); where it is lost its context has been charged, and nothing is restored. -/
def State.contextRestore (s : State) (c : CoreId) : State :=
  match s.prq.find? fun r => r.core == c && r.restore with
  | none => s
  | some r =>
    let f := r.frame
    if s.spanOut f (recLength 2048) || s.spanOut (s.ctxPlace r.ctx) 64 then s else
    match s.checkRecord r.ctx f with
    | (s, true) => { s with prq := s.prq.erase r }
    | (s, false) =>
    let ok := s.recBytes f 0 4 == 0x4B564358 && s.recBytes f 4 2 == r.ctx.toNat && s.recBytes f 6 2 == c.val
    if !ok || !(s.core c).idle || !s.serves c then s
    else
      let a := (s.core c).awayOf r.ctx
      let k := s.loadCore c a f
      let n : Nat := (k.strand.map (·.rows)).getD 0
      let s : State := { s with prq := s.prq.erase r, swaps := s.swaps ++ a.swaps }
      let s := s.onCore c fun _ => k
      let s := (List.finRange 2048).foldl (fun s i => if i.val < n then s.loadRow c r.ctx a f i else s) s
      ((s.relock c r.ctx a.strand.lockq).raise c).checkpoint c

def execContextRestore (c : CoreId) (s : State) : Out := .next (s.asRequester (unitOfCore c) (·.contextRestore c))

end Sys2Proof.Machine
end

