-- ==== Sys2Proof/Machine/Terms.lean ====
section
/-! DEFINITION. The term bundle (R250-R256) and SPLC (R257-R259). -/

namespace Sys2Proof.Machine

/-! ## Sources (R251) -/

/-- Val: lane l of a v register as a signed byte, or of an accumulator as its 32 bits. -/
def ExSt.term (e : ExSt) (i : Fin 128) (l : Nat) : Int :=
  if h : i.val < 64 then sval 8 (laneOf e.v[i.val].toNat 8 l) else sval 32 (laneOf e.a[i.val - 64].toNat 32 l)

/-- 256 lanes of 32 bits. -/
def termLanes (f : Nat → Int) : Acc := BitVec.ofNat 8192 (pack 32 (fun l => wrap 32 (f l)) 256)

/-- An accumulator written whole. -/
def setAcc (d : Fin 64) (f : Nat → Int) : ExWrite := .a d (BitVec.allOnes 8192) (termLanes f)

/-- What a slot writes, with its sources as they stand at issue (R251, R252). -/
def ExSt.slotWrite (e : ExSt) (x : Sys2Proof.Slot) : Option ExWrite :=
  match x with
  | .nop => none
  | .tmac d src w => some (.aAdd d (termLanes fun l => w.toInt * e.term src l))
  | .tadd d src => some (.aAdd d (termLanes (e.term src)))
  | .tpair d a b => some (setAcc d fun l => e.term a l + e.term b l)
  | .tset d src => some (setAcc d (e.term src))
  | .tscl f p c => some (.aScale f p c e.a[p])
  | .tclr d => some (setAcc d fun _ => 0)

/-- TB: every write lands three slots later, in slot order (R253); with tsm its address is the marker (R256). -/
def execTb (tsm : Bool) (slots : List Sys2Proof.Slot) (s : State) : Out :=
  let pc := s.me.pc
  .next ((s.mod fun k =>
    let k := (slots.filterMap k.ex.slotWrite).foldl (fun k w => k.later 3 w) k
    if tsm then { k with ex := { k.ex with tsa := pc } } else k).retire 16)

/-! ## SPLC (R257) -/

/-- The splice of a page that SPLC uses on a core: that of its LATT entry, or of the directory, as a LATT fill would read it, where the
LATT has lost the page (R259). Before a barrier this is always the old entry: R259 allows a strand outside the CSWAP's gang the new one
too (DESIGN CHOICE, log 96). -/
def State.spliceOf (s : State) (c : CoreId) (ctx : Ctx) (page : Word) : Option Word :=
  match (s.core c).latt.find? fun e => e.ctx == ctx && e.vpn == (page.extractLsb' 16 32).toNat with
  | some e => e.splice
  | none => s.spliceNow ctx page

def State.setSplret (s : State) (x : Word) : State := s.mod fun k => { k with ex := { k.ex with splret := x } }

def execSplc (s : State) : Out :=
  let r := s.here.ex.splret
  let pc := s.me.pc
  if r.getLsbD 0 then .next ((s.setSplret 0).jump (r &&& ~~~7#64))
  else
    match s.spliceOf s.cur.1 s.here.ctx (pc &&& ~~~0xFFFF#64) with
    | some page => .next ((s.setSplret ((pc + 8) ||| 1)).jump page)
    | none => .next (s.retire 8)

end Sys2Proof.Machine
end

