-- ==== Sys2Proof/Machine/Tiles.lean ====
section
/-! DEFINITION. Accumulator tiles as the rest of the core sees them: TRD (R278), TDISC with its spill and fill (R282), and the
tensor replay (R380-R382). -/

namespace Sys2Proof.Machine

/-! ## TRD (R278) -/

/-- A TRD in flight will release the tile. -/
def Core.releasing (k : Core) (tile : Fin 4) : Bool :=
  k.loads.any fun l => match l.src with
    | .entry _ r => r == some tile
    | _ => false

/-- TRD: claims room in its queue, waits until its row is final, and delivers it in order with the loads of LD; with `rel` the tile
is released as the entry is pushed, and a later TRD of the tile waits for that. -/
def execTrd (q : Fin 16) (tile : Fin 4) (base : Fin 32) (r : BitVec 5) (rel : Bool) (s : State) : Out :=
  let row := (s.reg base + r.setWidth 64).toNat
  if 32 ≤ row then .next (s.execTrap .reservedOperand)
  else if !s.here.room q then .next (s.block (.destFull q))
  else if !s.here.accessRoom s.cur.2 || s.here.releasing tile || decide (s.here.tens.tiles[tile].wm ≤ row) then
    .next (s.block .other)
  else
    match s.checkTile s.cur.1 tile [row] s.me.pc with
    | (s, true) => .next s
    | (s, false) =>
    let e : QEntry := ⟨0x0C, s.here.tens.tiles[tile].rows.toList.getD row 0, 0⟩
    let (id, s) := s.free
    let l : Load := ⟨id, s.cur.2, s.me, 0, 0, .row, ⟨0, 0, false, 0, 0, 0, false, false, 0⟩, false, .queue q,
      .entry e (if rel then some tile else none), none⟩
    .next ((s.addLoad l).retire 8)

/-! ## The state rows of a spill (R282; their byte layout is the model's: log 17) -/

/-- The tiles of a mask, in ascending order. -/
def tilesOf (imm : BitVec 10) : List (Fin 4) := (List.finRange 4).filter fun t => imm.getLsbD t.val

/-- Slots of the configured rings, in ring order. -/
def Tensor.slotList (t : Tensor) : List (Fin 8 × Nat) :=
  (List.finRange 8).flatMap fun r => (List.range t.rings[r].count).map fun i => (r, i)

/-- The causes a tensor queue records. -/
def tensorCauses : List Cause :=
  [.reservedOperand, .rowNotClaimed, .ringOverlap, .tensorFormat, .tensorNestFault, .ringNotConfigured, .severitySV3]

/-- A number from its parts: bit position and value. -/
def bitsOf (l : List (Nat × Nat)) : Nat := l.foldl (fun x e => x + e.2 * 2 ^ e.1) 0

/-- The first state row. -/
def Tensor.stateRow (t : Tensor) : Nat :=
  bitsOf (
    (List.finRange 6).map (fun i => (64 * i.val, t.shadow[i].toNat)) ++
    (List.finRange 6).map (fun i => (384 + 64 * i.val, t.active[i].toNat)) ++
    (List.finRange 8).map (fun i => (768 + 64 * i.val, t.rings[i].word.toNat)) ++
    (List.finRange 8).map (fun i =>
      (1280 + 64 * i.val, t.rings[i].head % 256 + t.rings[i].fullCount % 256 * 256 + t.rings[i].fillp % 256 * 65536)) ++
    (List.finRange 4).map (fun i => (1792 + 8 * i.val, t.tiles[i].wm + bit t.tiles[i].held 7)) ++
    [(1856, match t.q.halted with
      | some c => c.code.toNat + 65536
      | none => 0)])

/-- The 32 bytes of a slot. -/
def Slot.state (x : Slot) : Nat :=
  bitsOf ([(0, x.fill % 16), (4, x.claimed % 16), (8, bit x.full 0), (9, bit x.copy.isSome 0),
    (10, match x.cut with
      | .none => 0
      | .cutting => 1
      | .held => 2), (12, x.creg.val), (16, (x.copy.map (·.1.val)).getD 0)] ++
    ((List.finRange 8).map fun i => (24 + 12 * i.val, x.kv[i] % 32 + x.lv[i] % 128 * 32)) ++
    [(120, (x.copy.map (·.2.toNat)).getD 0), (184, x.cword.toNat)])

/-- A slot from its 32 bytes. -/
def slotFrom (x : Nat) : Slot where
  claimed := fieldAt x 4 4
  fill := fieldAt x 0 4
  full := fieldAt x 8 1 == 1
  kv := Vector.ofFn fun (i : Fin 8) => fieldAt x (24 + 12 * i.val) 5
  lv := Vector.ofFn fun (i : Fin 8) => fieldAt x (29 + 12 * i.val) 7
  copy := if fieldAt x 9 1 = 1 then some ((BitVec.ofNat 3 (x >>> 16)).toFin, BitVec.ofNat 64 (x >>> 120)) else none
  cut := if fieldAt x 10 2 = 1 then .cutting else if fieldAt x 10 2 = 2 then .held else .none
  creg := (BitVec.ofNat 3 (x >>> 12)).toFin
  cword := BitVec.ofNat 64 (x >>> 184)

/-- Further state rows, eight slots each. -/
def Tensor.slotRows (t : Tensor) : List Nat :=
  let all := t.slotList.map fun x => (t.rings[x.1].slot x.2).state
  (List.range ((all.length + 7) / 8)).map fun i => bitsOf ((List.range 8).map fun j => (256 * j, all.getD (8 * i + j) 0))

/-- Rows that a spill writes after the tiles' rows. -/
def Tensor.stateRows (t : Tensor) : List Nat := t.stateRow :: t.slotRows

/-- The engine's state from its first state row: tables, rings (their slots still empty), the watermarks and held flags
of all four tiles, the fault record. -/
def Tensor.fromRow (t : Tensor) (x : Nat) : Tensor :=
  let word : Nat → Word := fun p => BitVec.ofNat 64 (x >>> p)
  let rings : Vector Ring 8 := Vector.ofFn fun i =>
    { Ring.make (word (768 + 64 * i.val)) with head := fieldAt x (1280 + 64 * i.val) 8, fillp := fieldAt x (1296 + 64 * i.val) 8 }
  let t := { t with
    shadow := Vector.ofFn fun (i : Fin 6) => word (64 * i.val)
    active := Vector.ofFn fun (i : Fin 6) => word (384 + 64 * i.val)
    rings := rings
    q := { t.q with halted := if fieldAt x 1872 1 = 1 then tensorCauses.find? (fun c => c.code.toNat == fieldAt x 1856 16) else none } }
  (List.finRange 4).foldl (fun t n => t.onTile n fun y =>
    { y with wm := min 32 (fieldAt x (1792 + 8 * n.val) 7), held := fieldAt x (1799 + 8 * n.val) 1 == 1 }) t

/-! ## TDISC (R282) -/

/-- A row of the own core. -/
def rowNo (n : Nat) : Fin 2048 := ⟨n % 2048, Nat.mod_lt _ (by decide)⟩

/-- Consecutive rows written, each with a tag. -/
def State.putRows (s : State) (row : Nat) : List (Layout × Row) → State
  | [] => s
  | (tag, d) :: rest => (s.writePad s.cur.1 (rowNo row) tag 0 d).putRows (row + 1) rest

/-- SPILL: 32 rows a tile, then the state rows. -/
def State.spill (s : State) (row : Nat) (mask : List (Fin 4)) : State :=
  let t := s.here.tens
  s.putRows row ((mask.flatMap fun n => t.tiles[n].rows.toList.map fun d => (0x0C, d)) ++
    t.stateRows.map fun x => (0, BitVec.ofNat 2048 x))

/-- n consecutive rows read; none where one is lost. -/
def State.getRows (s : State) (row : Nat) : Nat → State × Option (List Row)
  | 0 => (s, some [])
  | n + 1 =>
    match s.readPad s.cur.1 (rowNo row) s.me.pc with
    | (s, none) => (s, none)
    | (s, some (d, _)) =>
      match s.getRows (row + 1) n with
      | (s, none) => (s, none)
      | (s, some ds) => (s, some (d :: ds))

/-- The slots of a restored engine from its further state rows. -/
def Tensor.fillSlots (t : Tensor) (rows : List Row) : Tensor :=
  t.slotList.zipIdx.foldl (fun t x =>
    let d := (rows.getD (x.2 / 8) 0).toNat
    { t with rings := t.rings.set x.1.1 (t.rings[x.1.1].onSlot x.1.2 fun _ => slotFrom ((d >>> (256 * (x.2 % 8))) % 2 ^ 256)) }) t

/-- FILL: the tiles and the state that a spill with the same mask wrote. -/
def State.refill (s : State) (row : Nat) (mask : List (Fin 4)) : State × Bool :=
  match s.getRows row (32 * mask.length + 1) with
  | (s, none) => (s, false)
  | (s, some ds) =>
    let t := s.here.tens.fromRow (ds.getD (32 * mask.length) 0).toNat
    let t := mask.zipIdx.foldl (fun t x => t.onTile x.1 fun y =>
      { y with rows := Vector.ofFn fun (i : Fin 32) => ds.getD (32 * x.2 + i.val) 0 }) t
    match s.getRows (row + 32 * mask.length + 1) ((t.slotList.length + 7) / 8) with
    | (s, none) => (s, false)
    | (s, some more) => (s.mod fun k => k.onTensor fun _ => t.fillSlots more, true)

/-- Rows that a spill or fill of the engine as it stands goes through. A fill reads as many as the rings it restores have slots. -/
def State.spillRows (s : State) (row : Nat) (mask : List (Fin 4)) (fill : Bool) : Nat :=
  if fill then
    let t := s.here.tens.fromRow (s.padRow s.cur.1 (rowNo (row + 32 * mask.length))).data.toNat
    32 * mask.length + 1 + (t.slotList.length + 7) / 8
  else 32 * mask.length + s.here.tens.stateRows.length

/-- TDISC: waits until the queue is empty or halted and no nest runs; then spills, fills or discards, then clears. -/
def execTdisc (o : CCmd) (s : State) : Out :=
  let t := s.here.tens
  let mask := tilesOf o.imm
  let row := (s.reg o.sa).toNat
  let spill := o.imm.getLsbD 5
  let fill := o.imm.getLsbD 6
  if (t.q.halted.isNone && !t.q.cmds.isEmpty) || t.nest.isSome then .next (s.block .other)
  else if (spill || fill) && (decide (s.here.claimed < row + 32 * mask.length + 1) ||
      decide (s.here.claimed < row + s.spillRows row mask fill)) then .next (s.execTrap .rowNotClaimed)
  else
    let (s, bad) := if spill then mask.foldl (fun (s, bad) n =>
      let (s, x) := s.checkTile s.cur.1 n (List.range 32) s.me.pc
      (s, bad || x)) (s, false) else (s, false)
    if bad then .next s
    else
    let (s, ok) :=
      if spill then (s.spill row mask, true)
      else if fill then s.refill row mask
      else (s.mod fun k => k.onTensor fun t => mask.foldl Tensor.discard t, true)
    if !ok then .next s
    else
      let s := s.mod fun k => k.onTensor fun t =>
        let t := { t with replay := { t.replay with spoiled := true } }
        if o.imm.getLsbD 4 then { t with q := { t.q with cmds := [], halted := none } } else t
      .next (finishAct o s)

/-! ## TENSOR_REPLAY -/

def execTensorReplay (c : CoreId) (s : State) : Out := .next (s.tensorReplay c)

end Sys2Proof.Machine
end

