-- ==== Sys2Proof/Machine/Unanswered.lean ====
section
/-! DEFINITION. Accesses beyond HBM4E that have no answer in 20 us: FABRIC_UNREACHABLE and MEMPORT_TIMEOUT (R406, R409). -/

namespace Sys2Proof.Machine

/-- The read of LD or ST that has waited longest for an address of a kind: its pc, the line and the sectors. -/
def Core.unanswered (k : Core) (far : Nat → Bool) : Option (Word × Nat × BitVec 4) :=
  (k.loads.findSome? fun l => (l.waiting.find? fun x => far x.1).map fun x => (l.pc, x)).or <|
    k.stash.findSome? fun r => (r.waiting.find? fun x => far x.1).map fun x => ((k.seq .ld).pc, x)

/-- A write whose answer never came is dropped, and an event posted. -/
def State.dropWrite (s : State) (c : CoreId) (r : SliceReq) : State :=
  let s := (s.onCore c fun k => { k with pubs := k.pubs.erase r }).postFar r.ctx
  match r.op with
  | .write row _ _ => s.freeRow c row
  | .read _ _ => s

/-- A chunk that a COLL has sent and that never arrives is dropped (R326). -/
def State.dropChunk (s : State) (c : CoreId) (far : Nat → Bool) : Option State :=
  match (s.core c).gath.cur with
  | none => none
  | some m =>
    if m.chunk = [] then none
    else
      match s.reachVa c m.who m.sup ⟨false, true, false⟩ m.b with
      | (s, .ok (_, pa)) => if far pa then some ((s.postFar m.ctx).putCmd c { m with ended := true }) else none
      | (_, .error _) => none

/-- A step of an agent whose first access to a link finds no answer, where it makes one. -/
def State.unheard (s : State) (link : Link) (act : State → State) : Option State :=
  let t := act { s with mute := some link }
  if t.mute.isNone then some t else none

/-- The cut that LD of a core stands before is made (R284). -/
def State.cutRuns (s : State) (c : CoreId) : State :=
  let run : Out → State := fun o => match o with
    | .next t => { t with cur := s.cur }
    | .fault _ | .refused _ => s
  match State.turn { s with cur := (c, .ld) } with
  | (t, some (.tcut hold b base sh off)) => run (execTcut hold b base sh off t)
  | (t, some (.tfol b base sh ring off)) => run (execTfol b base sh ring off t)
  | _ => s

/-- The oldest access of a core to a link has had no answer: a read of LD or ST; a publication write, waiting or accepted; a chunk of
a COLL; else the access that its gather engine, its code or stage commands, its cluster's walker, its fetch, its cutter, the delta of its
LDT or the strip of its GVI region is at (R406, R409). -/
def State.noAnswer (s : State) (c : CoreId) (link : Link) : State :=
  let far : Nat → Bool := fun pa => linkOf pa == some link
  let k := s.core c
  match k.unanswered far with
  | some (pc, pa, mask) => s.unreachable ⟨k.ctx, pc, false⟩ pa mask
  | none =>
    match k.pubs.find? fun r => far r.pa with
    | some r => s.dropWrite c r
    | none =>
      match s.posted.find? fun p => p.core == c && far p.pa with
      | some p => s.dropPosted p
      | none =>
        let acts : List (State → State) := [fun t => t.engineStart c, fun t => t.atomicApply c, fun t => t.codeExecute c,
          fun t => t.stageExecute c, fun t => t.walkOne (clusterOf c), fun t => t.lineFill c .ctl, fun t => t.lineFill c .ld,
          fun t => t.lineFill c .ex, fun t => t.lineFill c .st, fun t => t.cutRuns c, fun t => t.loadArrives c, fun t => t.regionRun c]
        ((s.dropChunk c far).or (acts.findSome? fun f => s.unheard link f)).getD s

/-- FABRIC_UNREACHABLE: an access to another package. -/
def execFabricUnreachable (c : CoreId) (s : State) : Out := .next (s.noAnswer c .hawser)

/-- MEMPORT_TIMEOUT: an access to the CXL window. -/
def execMemportTimeout (c : CoreId) (s : State) : Out := .next (s.noAnswer c .memport)

end Sys2Proof.Machine
end

