-- ==== Sys2Proof/Machine/Dispatch.lean ====
section
/-! DEFINITION. The dispatch: one arm per constructor of Instr, each a direct call of its meaning. -/

namespace Sys2Proof.Machine

def exec (i : Instr) (s : State) : Host.Outcome State Fault Refusal :=
  match i with
  | .add x0 => Sys2Proof.Machine.execAdd x0 s
  | .sub x0 => Sys2Proof.Machine.execSub x0 s
  | .mul x0 => Sys2Proof.Machine.execMul x0 s
  | .mulh x0 => Sys2Proof.Machine.execMulh x0 s
  | .and x0 => Sys2Proof.Machine.execAnd x0 s
  | .or x0 => Sys2Proof.Machine.execOr x0 s
  | .xor x0 => Sys2Proof.Machine.execXor x0 s
  | .shl x0 => Sys2Proof.Machine.execShl x0 s
  | .shr x0 => Sys2Proof.Machine.execShr x0 s
  | .sra x0 => Sys2Proof.Machine.execSra x0 s
  | .min x0 => Sys2Proof.Machine.execMin x0 s
  | .max x0 => Sys2Proof.Machine.execMax x0 s
  | .sel x0 => Sys2Proof.Machine.execSel x0 s
  | .cmp x0 x1 => Sys2Proof.Machine.execCmp x0 x1 s
  | .popc x0 => Sys2Proof.Machine.execPopc x0 s
  | .clz x0 => Sys2Proof.Machine.execClz x0 s
  | .li x0 x1 => Sys2Proof.Machine.execLi x0 x1 s
  | .lih x0 x1 => Sys2Proof.Machine.execLih x0 x1 s
  | .bc x0 x1 => Sys2Proof.Machine.execBc x0 x1 s
  | .bq x0 x1 => Sys2Proof.Machine.execBq x0 x1 s
  | .call x0 x1 => Sys2Proof.Machine.execCall x0 x1 s
  | .jr x0 x1 x2 => Sys2Proof.Machine.execJr x0 x1 x2 s
  | .ret x0 => Sys2Proof.Machine.execRet x0 s
  | .loop x0 x1 x2 => Sys2Proof.Machine.execLoop x0 x1 x2 s
  | .loopi x0 x1 x2 => Sys2Proof.Machine.execLoopi x0 x1 x2 s
  | .lexit x0 => Sys2Proof.Machine.execLexit x0 s
  | .nop => Sys2Proof.Machine.execNop s
  | .toks x0 x1 => Sys2Proof.Machine.execToks x0 x1 s
  | .tokw x0 x1 => Sys2Proof.Machine.execTokw x0 x1 s
  | .tokt x0 x1 x2 => Sys2Proof.Machine.execTokt x0 x1 x2 s
  | .bqp x0 x1 => Sys2Proof.Machine.execBqp x0 x1 s
  | .cbw x0 x1 => Sys2Proof.Machine.execCbw x0 x1 s
  | .mfsr x0 x1 => Sys2Proof.Machine.execMfsr x0 x1 s
  | .mtsr x0 x1 => Sys2Proof.Machine.execMtsr x0 x1 s
  | .ldr x0 => Sys2Proof.Machine.execLdr x0 s
  | .ldl x0 => Sys2Proof.Machine.execLdl x0 s
  | .lds x0 => Sys2Proof.Machine.execLds x0 s
  | .spr x0 => Sys2Proof.Machine.execSpr x0 s
  | .ldt x0 x1 x2 x3 x4 => Sys2Proof.Machine.execLdt x0 x1 x2 x3 x4 s
  | .pref x0 x1 x2 x3 x4 => Sys2Proof.Machine.execPref x0 x1 x2 x3 x4 s
  | .trd x0 x1 x2 x3 x4 => Sys2Proof.Machine.execTrd x0 x1 x2 x3 x4 s
  | .drain x0 x1 x2 => Sys2Proof.Machine.execDrain x0 x1 x2 s
  | .tcut x0 x1 x2 x3 x4 => Sys2Proof.Machine.execTcut x0 x1 x2 x3 x4 s
  | .tfol x0 x1 x2 x3 x4 => Sys2Proof.Machine.execTfol x0 x1 x2 x3 x4 s
  | .bget x0 x1 => Sys2Proof.Machine.execBget x0 x1 s
  | .bset x0 x1 => Sys2Proof.Machine.execBset x0 x1 s
  | .str x0 => Sys2Proof.Machine.execStr x0 s
  | .stl x0 => Sys2Proof.Machine.execStl x0 s
  | .spw x0 => Sys2Proof.Machine.execSpw x0 s
  | .snd x0 => Sys2Proof.Machine.execSnd x0 s
  | .strm x0 => Sys2Proof.Machine.execStrm x0 s
  | .shld x0 x1 => Sys2Proof.Machine.execShld x0 x1 s
  | .shset x0 x1 x2 x3 => Sys2Proof.Machine.execShset x0 x1 x2 x3 s
  | .shget x0 x1 x2 => Sys2Proof.Machine.execShget x0 x1 x2 s
  | .smap x0 x1 x2 x3 x4 => Sys2Proof.Machine.execSmap x0 x1 x2 x3 x4 s
  | .sunmap x0 => Sys2Proof.Machine.execSunmap x0 s
  | .vadd x0 x1 => Sys2Proof.Machine.execVadd x0 x1 s
  | .vsub x0 x1 => Sys2Proof.Machine.execVsub x0 x1 s
  | .vmul x0 x1 => Sys2Proof.Machine.execVmul x0 x1 s
  | .vmulh x0 => Sys2Proof.Machine.execVmulh x0 s
  | .vmin x0 => Sys2Proof.Machine.execVmin x0 s
  | .vmax x0 => Sys2Proof.Machine.execVmax x0 s
  | .vabs x0 x1 => Sys2Proof.Machine.execVabs x0 x1 s
  | .vneg x0 x1 => Sys2Proof.Machine.execVneg x0 x1 s
  | .vand x0 => Sys2Proof.Machine.execVand x0 s
  | .vor x0 => Sys2Proof.Machine.execVor x0 s
  | .vxor x0 => Sys2Proof.Machine.execVxor x0 s
  | .vnot x0 => Sys2Proof.Machine.execVnot x0 s
  | .vshl x0 => Sys2Proof.Machine.execVshl x0 s
  | .vshlSat x0 => Sys2Proof.Machine.execVshlSat x0 s
  | .vshr x0 => Sys2Proof.Machine.execVshr x0 s
  | .vsra x0 => Sys2Proof.Machine.execVsra x0 s
  | .vpopc x0 => Sys2Proof.Machine.execVpopc x0 s
  | .vfadd x0 x1 x2 => Sys2Proof.Machine.execVfadd x0 x1 x2 s
  | .vfsub x0 x1 x2 => Sys2Proof.Machine.execVfsub x0 x1 x2 s
  | .vfmul x0 x1 x2 => Sys2Proof.Machine.execVfmul x0 x1 x2 s
  | .vfmin x0 => Sys2Proof.Machine.execVfmin x0 s
  | .vfmax x0 => Sys2Proof.Machine.execVfmax x0 s
  | .vfabs x0 => Sys2Proof.Machine.execVfabs x0 s
  | .vfneg x0 => Sys2Proof.Machine.execVfneg x0 s
  | .vfma x0 x1 x2 => Sys2Proof.Machine.execVfma x0 x1 x2 s
  | .vfms x0 x1 x2 => Sys2Proof.Machine.execVfms x0 x1 x2 s
  | .vfnma x0 x1 x2 => Sys2Proof.Machine.execVfnma x0 x1 x2 s
  | .vcmpEq x0 => Sys2Proof.Machine.execVcmpEq x0 s
  | .vcmpNe x0 => Sys2Proof.Machine.execVcmpNe x0 s
  | .vcmpLt x0 => Sys2Proof.Machine.execVcmpLt x0 s
  | .vcmpLe x0 => Sys2Proof.Machine.execVcmpLe x0 s
  | .vcmpGt x0 => Sys2Proof.Machine.execVcmpGt x0 s
  | .vcmpGe x0 => Sys2Proof.Machine.execVcmpGe x0 s
  | .vcmpUn x0 => Sys2Proof.Machine.execVcmpUn x0 s
  | .kand x0 x1 x2 => Sys2Proof.Machine.execKand x0 x1 x2 s
  | .kor x0 x1 x2 => Sys2Proof.Machine.execKor x0 x1 x2 s
  | .kxor x0 x1 x2 => Sys2Proof.Machine.execKxor x0 x1 x2 s
  | .knot x0 x1 => Sys2Proof.Machine.execKnot x0 x1 s
  | .kmov x0 x1 => Sys2Proof.Machine.execKmov x0 x1 s
  | .kpopc x0 x1 => Sys2Proof.Machine.execKpopc x0 x1 s
  | .vsel x0 x1 => Sys2Proof.Machine.execVsel x0 x1 s
  | .vbcast x0 x1 x2 x3 x4 => Sys2Proof.Machine.execVbcast x0 x1 x2 x3 x4 s
  | .vperm x0 => Sys2Proof.Machine.execVperm x0 s
  | .vrot x0 x1 => Sys2Proof.Machine.execVrot x0 x1 s
  | .vrmg x0 x1 x2 x3 x4 x5 => Sys2Proof.Machine.execVrmg x0 x1 x2 x3 x4 x5 s
  | .vmov x0 => Sys2Proof.Machine.execVmov x0 s
  | .vcvt x0 x1 x2 x3 x4 => Sys2Proof.Machine.execVcvt x0 x1 x2 x3 x4 s
  | .vpack x0 => Sys2Proof.Machine.execVpack x0 s
  | .vunpk x0 => Sys2Proof.Machine.execVunpk x0 s
  | .vbsc x0 x1 x2 x3 x4 => Sys2Proof.Machine.execVbsc x0 x1 x2 x3 x4 s
  | .vredAdd x0 => Sys2Proof.Machine.execVredAdd x0 s
  | .vredMin x0 => Sys2Proof.Machine.execVredMin x0 s
  | .vredMax x0 => Sys2Proof.Machine.execVredMax x0 s
  | .vredAnd x0 => Sys2Proof.Machine.execVredAnd x0 s
  | .vredOr x0 => Sys2Proof.Machine.execVredOr x0 s
  | .vredXor x0 => Sys2Proof.Machine.execVredXor x0 s
  | .vredFadd x0 => Sys2Proof.Machine.execVredFadd x0 s
  | .vredFmin x0 => Sys2Proof.Machine.execVredFmin x0 s
  | .vredFmax x0 => Sys2Proof.Machine.execVredFmax x0 s
  | .vmaxi x0 => Sys2Proof.Machine.execVmaxi x0 s
  | .vexp2 x0 => Sys2Proof.Machine.execVexp2 x0 s
  | .vlog2 x0 => Sys2Proof.Machine.execVlog2 x0 s
  | .vrcp x0 => Sys2Proof.Machine.execVrcp x0 s
  | .vrsq x0 => Sys2Proof.Machine.execVrsq x0 s
  | .vcls x0 => Sys2Proof.Machine.execVcls x0 s
  | .vbq x0 x1 x2 x3 x4 => Sys2Proof.Machine.execVbq x0 x1 x2 x3 x4 s
  | .defer x0 x1 x2 x3 x4 => Sys2Proof.Machine.execDefer x0 x1 x2 x3 x4 s
  | .amov x0 x1 => Sys2Proof.Machine.execAmov x0 x1 s
  | .aclr x0 x1 => Sys2Proof.Machine.execAclr x0 x1 s
  | .acvt x0 x1 x2 x3 x4 x5 => Sys2Proof.Machine.execAcvt x0 x1 x2 x3 x4 x5 s
  | .splc => Sys2Proof.Machine.execSplc s
  | .tb x0 x1 => Sys2Proof.Machine.execTb x0 x1 s
  | .rcfg x0 => Sys2Proof.Machine.execRcfg x0 s
  | .tcfg x0 => Sys2Proof.Machine.execTcfg x0 s
  | .tgo x0 => Sys2Proof.Machine.execTgo x0 s
  | .twait x0 => Sys2Proof.Machine.execTwait x0 s
  | .tstat x0 => Sys2Proof.Machine.execTstat x0 s
  | .tdisc x0 => Sys2Proof.Machine.execTdisc x0 s
  | .gather x0 => Sys2Proof.Machine.execGather x0 s
  | .scatter x0 => Sys2Proof.Machine.execScatter x0 s
  | .pool x0 => Sys2Proof.Machine.execPool x0 s
  | .copy x0 => Sys2Proof.Machine.execCopy x0 s
  | .fill x0 => Sys2Proof.Machine.execFill x0 s
  | .aowAddi32 x0 => Sys2Proof.Machine.execAowAddi32 x0 s
  | .aowAddi64 x0 => Sys2Proof.Machine.execAowAddi64 x0 s
  | .aowAddf32 x0 => Sys2Proof.Machine.execAowAddf32 x0 s
  | .aowMax x0 => Sys2Proof.Machine.execAowMax x0 s
  | .aowMin x0 => Sys2Proof.Machine.execAowMin x0 s
  | .aowAnd x0 => Sys2Proof.Machine.execAowAnd x0 s
  | .aowOr x0 => Sys2Proof.Machine.execAowOr x0 s
  | .aowXor x0 => Sys2Proof.Machine.execAowXor x0 s
  | .aowSwap x0 => Sys2Proof.Machine.execAowSwap x0 s
  | .cas x0 => Sys2Proof.Machine.execCas x0 s
  | .selk x0 => Sys2Proof.Machine.execSelk x0 s
  | .nbt x0 => Sys2Proof.Machine.execNbt x0 s
  | .coll x0 => Sys2Proof.Machine.execColl x0 s
  | .cgen x0 => Sys2Proof.Machine.execCgen x0 s
  | .clock x0 => Sys2Proof.Machine.execClock x0 s
  | .cunlk x0 => Sys2Proof.Machine.execCunlk x0 s
  | .cpref x0 => Sys2Proof.Machine.execCpref x0 s
  | .cswap x0 => Sys2Proof.Machine.execCswap x0 s
  | .dflush x0 => Sys2Proof.Machine.execDflush x0 s
  | .lenq x0 => Sys2Proof.Machine.execLenq x0 s
  | .stgq x0 => Sys2Proof.Machine.execStgq x0 s
  | .pend => Sys2Proof.Machine.execPend s
  | .sync x0 => Sys2Proof.Machine.execSync x0 s
  | .xfence x0 x1 x2 => Sys2Proof.Machine.execXfence x0 x1 x2 s
  | .hinit x0 x1 => Sys2Proof.Machine.execHinit x0 x1 s
  | .harv x0 x1 => Sys2Proof.Machine.execHarv x0 x1 s
  | .hwait x0 x1 x2 => Sys2Proof.Machine.execHwait x0 x1 x2 s
  | .rpop x0 x1 x2 => Sys2Proof.Machine.execRpop x0 x1 x2 s
  | .rtry x0 x1 x2 => Sys2Proof.Machine.execRtry x0 x1 x2 s
  | .trap x0 => Sys2Proof.Machine.execTrap x0 s
  | .sys x0 => Sys2Proof.Machine.execSys x0 s
  | .eret => Sys2Proof.Machine.execEret s
  | .yield => Sys2Proof.Machine.execYield s
  | .halt => Sys2Proof.Machine.execHalt s
  | .gvi x0 => Sys2Proof.Machine.execGvi x0 s
  | .gviRegionRun x0 => Sys2Proof.Machine.execGviRegionRun x0 s
  | .decodeTrap x0 x1 => Sys2Proof.Machine.execDecodeTrap x0 x1 s
  | .engineFaultDelivery => Sys2Proof.Machine.execEngineFaultDelivery s
  | .yieldBoundExceeded => Sys2Proof.Machine.execYieldBoundExceeded s
  | .severityTrap => Sys2Proof.Machine.execSeverityTrap s
  | .diversion x0 => Sys2Proof.Machine.execDiversion x0 s
  | .prqPreempt x0 x1 => Sys2Proof.Machine.execPrqPreempt x0 x1 s
  | .prqRestore x0 x1 => Sys2Proof.Machine.execPrqRestore x0 x1 s
  | .contextSwitch x0 => Sys2Proof.Machine.execContextSwitch x0 s
  | .contextRestore x0 => Sys2Proof.Machine.execContextRestore x0 s
  | .preemptLate x0 => Sys2Proof.Machine.execPreemptLate x0 s
  | .vdecRetry x0 => Sys2Proof.Machine.execVdecRetry x0 s
  | .vdecSkip x0 => Sys2Proof.Machine.execVdecSkip x0 s
  | .vdecTerminate x0 => Sys2Proof.Machine.execVdecTerminate x0 s
  | .vfReset x0 => Sys2Proof.Machine.execVfReset x0 s
  | .phaseEnd x0 => Sys2Proof.Machine.execPhaseEnd x0 s
  | .publicationComplete x0 => Sys2Proof.Machine.execPublicationComplete x0 s
  | .gangBarrierRelease x0 => Sys2Proof.Machine.execGangBarrierRelease x0 s
  | .loadDataArrival x0 => Sys2Proof.Machine.execLoadDataArrival x0 s
  | .storePerformed x0 => Sys2Proof.Machine.execStorePerformed x0 s
  | .exPushPerformed x0 => Sys2Proof.Machine.execExPushPerformed x0 s
  | .pageWalk x0 => Sys2Proof.Machine.execPageWalk x0 s
  | .tlbinvPage x0 => Sys2Proof.Machine.execTlbinvPage x0 s
  | .tlbinvContext x0 => Sys2Proof.Machine.execTlbinvContext x0 s
  | .tlbinvAll x0 => Sys2Proof.Machine.execTlbinvAll x0 s
  | .l2Clean => Sys2Proof.Machine.execL2Clean s
  | .l2CleanInvalidate => Sys2Proof.Machine.execL2CleanInvalidate s
  | .frameRelease x0 => Sys2Proof.Machine.execFrameRelease x0 s
  | .l2SliceService x0 => Sys2Proof.Machine.execL2SliceService x0 s
  | .l2MissFill x0 => Sys2Proof.Machine.execL2MissFill x0 s
  | .l2Scrub x0 => Sys2Proof.Machine.execL2Scrub x0 s
  | .hbmScrub x0 => Sys2Proof.Machine.execHbmScrub x0 s
  | .scrubPeriodReset => Sys2Proof.Machine.execScrubPeriodReset s
  | .errorInject x0 => Sys2Proof.Machine.execErrorInject x0 s
  | .efctlResume => Sys2Proof.Machine.execEfctlResume s
  | .efctlDropHead => Sys2Proof.Machine.execEfctlDropHead s
  | .efctlDropAll => Sys2Proof.Machine.execEfctlDropAll s
  | .checkerRollback x0 => Sys2Proof.Machine.execCheckerRollback x0 s
  | .tensorReplay x0 => Sys2Proof.Machine.execTensorReplay x0 s
  | .tensorKstep x0 => Sys2Proof.Machine.execTensorKstep x0 s
  | .kstepLand x0 => Sys2Proof.Machine.execKstepLand x0 s
  | .nestComplete x0 => Sys2Proof.Machine.execNestComplete x0 s
  | .engineCommandStart x0 => Sys2Proof.Machine.execEngineCommandStart x0 s
  | .engineCommandComplete x0 => Sys2Proof.Machine.execEngineCommandComplete x0 s
  | .atomicApply x0 => Sys2Proof.Machine.execAtomicApply x0 s
  | .collChunkArrival x0 => Sys2Proof.Machine.execCollChunkArrival x0 s
  | .collTimeout x0 => Sys2Proof.Machine.execCollTimeout x0 s
  | .hawserRemoteRequest x0 => Sys2Proof.Machine.execHawserRemoteRequest x0 s
  | .hawserFlitRetry x0 => Sys2Proof.Machine.execHawserFlitRetry x0 s
  | .hawserPortDown x0 => Sys2Proof.Machine.execHawserPortDown x0 s
  | .fabricUnreachable x0 => Sys2Proof.Machine.execFabricUnreachable x0 s
  | .memportTimeout x0 => Sys2Proof.Machine.execMemportTimeout x0 s
  | .gtbTimeMessage x0 => Sys2Proof.Machine.execGtbTimeMessage x0 s
  | .gtbLost => Sys2Proof.Machine.execGtbLost s
  | .schedInterval x0 => Sys2Proof.Machine.execSchedInterval x0 s
  | .launchStart x0 => Sys2Proof.Machine.execLaunchStart x0 s
  | .strandStart x0 => Sys2Proof.Machine.execStrandStart x0 s
  | .launchDoorbell x0 x1 => Sys2Proof.Machine.execLaunchDoorbell x0 x1 s
  | .recordReread x0 x1 => Sys2Proof.Machine.execRecordReread x0 x1 s
  | .sqbaseWrite x0 x1 x2 => Sys2Proof.Machine.execSqbaseWrite x0 x1 x2 s
  | .hostRegisterWrite x0 x1 => Sys2Proof.Machine.execHostRegisterWrite x0 x1 s
  | .hdmRead x0 x1 => Sys2Proof.Machine.execHdmRead x0 x1 s
  | .hdmWrite x0 x1 => Sys2Proof.Machine.execHdmWrite x0 x1 s
  | .vfApertureRead x0 x1 x2 => Sys2Proof.Machine.execVfApertureRead x0 x1 x2 s
  | .vfApertureWrite x0 x1 x2 => Sys2Proof.Machine.execVfApertureWrite x0 x1 x2 s
  | .codeLineFill x0 x1 => Sys2Proof.Machine.execCodeLineFill x0 x1 s
  | .powerCheck x0 => Sys2Proof.Machine.execPowerCheck x0 s
  | .thermalHot x0 => Sys2Proof.Machine.execThermalHot x0 s
  | .thermalCool x0 => Sys2Proof.Machine.execThermalCool x0 s
  | .thermalShutdown x0 => Sys2Proof.Machine.execThermalShutdown x0 s
  | .packageReset => Sys2Proof.Machine.execPackageReset s
  | .firstDieBringup => Sys2Proof.Machine.execFirstDieBringup s
  | .remainingDiesBringup => Sys2Proof.Machine.execRemainingDiesBringup s
  | .fullServiceEntry => Sys2Proof.Machine.execFullServiceEntry s
  | .attestationReport => Sys2Proof.Machine.execAttestationReport s
  | .firmwareActivate x0 => Sys2Proof.Machine.execFirmwareActivate x0 s
  | .codeCommandExecute x0 => Sys2Proof.Machine.execCodeCommandExecute x0 s
  | .tensorCommandExecute x0 => Sys2Proof.Machine.execTensorCommandExecute x0 s
  | .stageCommandExecute x0 => Sys2Proof.Machine.execStageCommandExecute x0 s
  | .hawserPortUp x0 => Sys2Proof.Machine.execHawserPortUp x0 s
  | .preemptCancel x0 => Sys2Proof.Machine.execPreemptCancel x0 s

end Sys2Proof.Machine
end

