-- ==== Sys2Proof/Machine/Finish.lean ====
section
/-! DEFINITION. What goes with a step: units that it has written, or that have been corrected, hold no errors any more (R363), and the checkers that have come apart
from their CTL run beside it (R377). Where nothing holds an error and no checker is apart, a step is its instruction or event alone. -/

namespace Sys2Proof.Machine

/-- Errors of the units that a step has written are gone; that of a scalar register that the instruction writes also where its value
stays. -/
def State.settled (s t : State) (i : Option Instr) : State :=
  let (c, q) := s.cur
  let t := s.keepErrs t
  match i.bind Instr.sdst with
  | some d => if q != .ex && (t.core c).seq q != (s.core c).seq q then t.setErr c (.s q d) [] else t
  | none => t

/-- The state that the checker's own run of an instruction of CTL comes to. -/
def State.ownRun (s : State) (i : Option Instr) : Option State :=
  match s.here.chk.copy, i with
  | some p, some i =>
    match exec i (s.asChecker p) with
    | .next u => some u
    | _ => none
  | _, _ => none

/-- A step from `s` to `t`, by an instruction of the current sequencer where there is one. -/
def State.finish (s t : State) (i : Option Instr) : State :=
  let t := if s.errs.isEmpty then t else s.settled t i
  let t := if t.outside.isEmpty then t else { t with outside := t.outside.filter t.stillFlipped }
  if s.apart.isEmpty then t
  else
    let mine : CoreId → Bool := fun c => s.cur == (c, .ctl) && i.isSome
    let t := t.apart.foldl (fun t c => if mine c then s.checkerStep t c i (s.ownRun i) else s.checkerStep t c none none) t
    { t with apart := t.apart.filter fun c => (t.core c).chk.copy.isSome }

/-- An event of the opcode table takes place. -/
def State.runEvent (s : State) (i : Instr) : Host.Outcome State Fault Refusal :=
  if onItsOwn i then
    match exec i s with
    | .next t => .next (s.finish t none)
    | o => o
  else .next s

/-- The turn of the current sequencer. -/
def State.runTurn (s : State) : Host.Outcome State Fault Refusal :=
  match s.turn with
  | (t, none) => .next (s.finish t none)
  | (t, some i) =>
    match exec i t with
    | .next u => .next (t.finish u (some i))
    | o => o

end Sys2Proof.Machine
end

