-- ==== Sys2Proof/Machine/Step.lean ====
section
/-! DEFINITION. One step: the head of the agenda, or the turn of the current sequencer where the agenda is empty; and the
placing of an instruction where the step fetches. -/

namespace Sys2Proof.Machine

/-- One step (log 1). Where nothing else is to happen and EX may not issue yet, time passes (R121). -/
def step (s : State) : Host.Outcome State Fault Refusal :=
  match s.agenda with
  | [] => if s.exHeld then .next (s.elapse 1) else s.runTurn
  | .run c q :: rest => State.runTurn { s with agenda := rest, cur := (c, q) }
  | .event i :: rest => State.runEvent { s with agenda := rest } i
  | .strike c u flips :: rest => .next (State.strike { s with agenda := rest } c u flips)
  | .flip a target flips :: rest => .next (State.flipFromOutside { s with agenda := rest } a target flips)
  | .slip c n x :: rest => .next (State.slip { s with agenda := rest } c n x)
  | .tick n :: rest => .next (State.elapse { s with agenda := rest } n)

/-- `s` with an instruction placed where the next step fetches: on core 0, in full service, on the first sequencer whose
decoder accepts the words (CTL where none does), in a locked line of the code L1. -/
def State.withFetchWord (s : State) (nbits w : Nat) : State :=
  let v := w % 2 ^ nbits
  let q : Seq := match decodeAny (tableWord0 v) (tableWord1 v) with
    | some (q, _) => q
    | none => .ctl
  let k := s.core 0
  let line : CodeLine := ⟨k.ctx, 0, BitVec.ofNat 1024 (v % 2 ^ 128), true, 0⟩
  let st : SeqSt := { k.seq q with pc := 0, run := .running, wait := .none, copy := none, gvi := none, sevTrap := none,
                                   walkFault := none, ahead := some 0 }
  let k := { k.onSeq q (fun _ => st) with codeL1 := [line], req := none, divert := none, engFault := false,
                                          toks := .replicate 16 0, startTo := none
                                          ex := { k.ex with free := 0 }, chk := { k.chk with again := [] } }
  { s.onCore 0 (fun _ => k) with cur := (0, q), agenda := [], errs := [], outside := [], apart := [], mgst := 4 }

end Sys2Proof.Machine
end

