-- ==== Sys2Proof/Safety.lean ====
section
/-! DEFINITION. The terms in which claims speak: canonical memory, what an instruction leaves alone, registers once results in
flight have landed, and the tables of results that the manual gives, written from its tables. -/

namespace Sys2Proof.Machine

/-- An instruction answers a next state of which `P` holds. -/
def Runs (i : Instr) (s : State) (P : State → Prop) : Prop := ∃ t, exec i s = .next t ∧ P t

/-! ## Canonical data -/

/-- Memory and sector words are in their canonical form. -/
def State.Canon (s : State) : Prop := Memory.wf s.mem ∧ cellsWf blankWord s.marks

/-- The state of bring-up is one of R412. -/
def State.ModeOk (s : State) : Prop := s.mgst ≤ 4

/-! ## Frames -/

/-- Every byte of memory, of this package, of others and of the host, reads as before. -/
def SameBytes (s t : State) : Prop := ∀ a, t.peek a = s.peek a

/-- Nothing outside one core has changed. -/
def OnlyCore (c : CoreId) (s t : State) : Prop := t = { s with cores := t.cores } ∧ ∀ d, d ≠ c → t.core d = s.core d

/-- The other sequencers of the core stand as before. -/
def OthersFrame (s t : State) : Prop := ∀ q, q ≠ s.cur.2 → t.here.seq q = s.here.seq q

/-- The current sequencer keeps its mode and its trap registers: only scalar registers, pc, loops and what it waits for may have
changed. -/
def SeqFrame (s t : State) : Prop :=
  t.me = { s.me with regs := t.me.regs, pc := t.me.pc, loops := t.me.loops, lstk := t.me.lstk, wait := t.me.wait }

/-- On another sequencer than EX nothing of EX changes. On EX the results on their way land, and nothing else: with none on its way
the lanes, accumulators and masks stand as before. -/
def ExKept (s t : State) : Prop :=
  (s.cur.2 ≠ .ex → t.here.ex = s.here.ex) ∧
  (s.cur.2 = .ex → t.here.ex.pushes = s.here.ex.pushes ∧ t.here.ex.splret = s.here.ex.splret ∧ t.here.ex.tsa = s.here.ex.tsa ∧
    (s.here.ex.pend = [] → t.here.settle.ex.v = s.here.ex.v ∧ t.here.settle.ex.a = s.here.ex.a ∧ t.here.settle.ex.k = s.here.ex.k))

/-- What an instruction may touch that changes the current core by `f` and otherwise works on scalar registers: the current
sequencer's registers, pc and loops, EX's slot count and landings, and the count of CTL's replay log (R378). -/
def Frame (s t : State) (f : Core → Core) : Prop :=
  OnlyCore s.cur.1 s t ∧ t.here = { f s.here with seqs := t.here.seqs, ex := t.here.ex, chk := t.here.chk } ∧ OthersFrame s t ∧
    SeqFrame s t ∧ ExKept s t ∧ SameBytes s t

/-- No result of EX is in flight where EX is the sequencer that issues. -/
def NothingInFlight (s : State) : Prop := s.cur.2 = .ex → s.here.ex.pend = []

/-- A scalar register of the current sequencer once the results in flight have landed. -/
def State.landed (s : State) (n : Fin 32) : Word := (s.here.settle.seq s.cur.2).reg n

/-- One scalar register of the current sequencer takes a value once landed, and no other changes; s0 discards it (R90). -/
def Writes (s t : State) (d : Fin 32) (x : Word) : Prop :=
  NothingInFlight s → (t.landed d = if d = 0 then 0 else x) ∧ ∀ n, n ≠ d → t.landed n = s.me.reg n

/-- No scalar register changes but by results in flight. -/
def WritesNone (s t : State) : Prop := NothingInFlight s → ∀ n, t.landed n = s.me.reg n

/-- No hardware loop is open. -/
def NoLoop (s : State) : Prop := s.me.depth = 0

/-- The pc comes to an address, where the end test of the open loops runs (R105, as `Obligations.EndTest` states it): with no loop open
the pc is that address, and the loop registers stand as before. -/
def Goes (s t : State) (a : Word) : Prop :=
  let q := SeqSt.goto s.me a
  t.me.pc = q.pc ∧ t.me.loops = q.loops ∧ t.me.lstk = q.lstk ∧
    (NoLoop s → t.me.pc = a ∧ t.me.loops = s.me.loops ∧ t.me.lstk = s.me.lstk)

/-- The body of the loop at a place of the loop stack holds an address (R106). -/
def SeqSt.bodyHolds (q : SeqSt) (j : Nat) (a : Word) : Prop :=
  let l := q.loops[lstkIdx q.lstk j]
  l.lbeg.toNat ≤ a.toNat ∧ a.toNat < l.lend.toNat

/-- A taken B, BC or BQ: the pc is the target, with no end test, and from the top on the loops whose bodies do not hold it are left;
their counters stand (R106). -/
def BranchesTo (s t : State) (a : Word) : Prop :=
  s.me.depth ≤ 4 → t.me.pc = a ∧ t.me.loops = s.me.loops ∧ t.me.depth ≤ s.me.depth ∧
    (∀ j, t.me.depth ≤ j → j < s.me.depth → ¬s.me.bodyHolds j a) ∧ (0 < t.me.depth → s.me.bodyHolds (t.me.depth - 1) a) ∧
    (∀ j, j < t.me.depth → lstkIdx t.me.lstk j = lstkIdx s.me.lstk j) ∧ (t.me.depth = s.me.depth → t.me.lstk = s.me.lstk)

/-- The pc goes past the instruction. -/
def Passes (s t : State) : Prop := Goes s t (s.me.pc + 8)

/-- The sequencer waits, and nothing else has changed. -/
def Waits (s t : State) (w : Wait) : Prop :=
  OnlyCore s.cur.1 s t ∧ t.here = { s.here with seqs := t.here.seqs } ∧ OthersFrame s t ∧ t.me = { s.me with wait := w }

/-! ## Results of EX on their way (R95) -/

/-- Among the results in flight that hit a place, the one that has landed last after `j` more slots: of those due at its slot it was
issued last. -/
def LandsLast (k : Core) (j : Nat) (hits : ExWrite → Prop) (p : Pending) : Prop :=
  ∃ pre post, k.ex.pend = pre ++ p :: post ∧ hits p.w ∧ p.due ≤ k.ex.slot + j ∧
    (∀ r ∈ pre, hits r.w → r.due ≤ k.ex.slot + j → r.due ≤ p.due) ∧ (∀ r ∈ post, hits r.w → r.due ≤ k.ex.slot + j → r.due < p.due)

/-- No result that hits a place has landed after `j` more slots. -/
def LandsNone (k : Core) (j : Nat) (hits : ExWrite → Prop) : Prop := ∀ r ∈ k.ex.pend, hits r.w → k.ex.slot + j < r.due

/-! ## The scalar table (R98-R100) -/

/-- The width of a scalar type, and the value of a source under it: Bits(Src, w − 1, 0), signed or unsigned (R98, R99). -/
def tyBits : STy → Nat
  | .i64 | .n64 => 64
  | .i32 | .n32 => 32

def tyVal (t : STy) (x : Word) : Int :=
  match t with
  | .i64 => x.toInt
  | .n64 => (x.toNat : Int)
  | .i32 => (x.setWidth 32).toInt
  | .n32 => ((x.setWidth 32).toNat : Int)

/-- The w bits of a source as an unsigned and as a signed number. -/
def tyNat (t : STy) (x : Word) : Nat := x.toNat % 2 ^ tyBits t
def tyInt (t : STy) (x : Word) : Int := if tyBits t = 64 then x.toInt else (x.setWidth 32).toInt

/-- SignExt(Wrap(r, w), w) for I64 and I32, ZeroExt(Wrap(r, w), w) for N64 and N32 (R99). -/
def tyFit (t : STy) (r : Int) : Word :=
  match t with
  | .i64 | .n64 => BitVec.ofInt 64 r
  | .i32 => (BitVec.ofInt 32 r).signExtend 64
  | .n32 => (BitVec.ofInt 32 r).setWidth 64

/-- A condition of R60 on numbers read signed and unsigned. -/
def condTrue (c : Cond) (sa sb : Int) (ua ub : Nat) : Prop :=
  match c with
  | .eq => ua = ub
  | .ne => ua ≠ ub
  | .lt => sa < sb
  | .ge => sb ≤ sa
  | .ltn => ua < ub
  | .gen => ub ≤ ua

/-- The exact result of a scalar integer instruction (R99), for each that has a type. -/
def scalarExact (i : Instr) (s : State) : Option (Fin 32 × STy × Int) :=
  match i with
  | .add o => some (o.dst, o.ty, tyVal o.ty (s.src o.a) + tyVal o.ty (s.src o.b))
  | .sub o => some (o.dst, o.ty, tyVal o.ty (s.src o.a) - tyVal o.ty (s.src o.b))
  | .mul o => some (o.dst, o.ty, tyVal o.ty (s.src o.a) * tyVal o.ty (s.src o.b))
  | .mulh o => some (o.dst, o.ty, tyVal o.ty (s.src o.a) * tyVal o.ty (s.src o.b) / 2 ^ tyBits o.ty)
  | .and o => some (o.dst, o.ty, ((s.src o.a &&& s.src o.b).toNat : Int))
  | .or o => some (o.dst, o.ty, ((s.src o.a ||| s.src o.b).toNat : Int))
  | .xor o => some (o.dst, o.ty, ((s.src o.a ^^^ s.src o.b).toNat : Int))
  | .shl o => some (o.dst, o.ty, tyVal o.ty (s.src o.a) * 2 ^ ((s.src o.b).toNat % tyBits o.ty))
  | .shr o => some (o.dst, o.ty, ((tyNat o.ty (s.src o.a) / 2 ^ ((s.src o.b).toNat % tyBits o.ty) : Nat) : Int))
  | .sra o => some (o.dst, o.ty, tyInt o.ty (s.src o.a) / 2 ^ ((s.src o.b).toNat % tyBits o.ty))
  | .min o => some (o.dst, o.ty, min (tyVal o.ty (s.src o.a)) (tyVal o.ty (s.src o.b)))
  | .max o => some (o.dst, o.ty, max (tyVal o.ty (s.src o.a)) (tyVal o.ty (s.src o.b)))
  | .sel o => some (o.dst, o.ty, if tyVal o.ty (s.src o.a) ≠ 0 then tyVal o.ty (s.src o.b) else tyVal o.ty (s.src o.c))
  | .popc o => some (o.dst, o.ty, (((List.range (tyBits o.ty)).countP fun b => (s.src o.a).getLsbD b : Nat) : Int))
  | .clz o =>
    some (o.dst, o.ty, ((if tyNat o.ty (s.src o.a) = 0 then tyBits o.ty
      else tyBits o.ty - 1 - Nat.log2 (tyNat o.ty (s.src o.a)) : Nat) : Int))
  | _ => none

/-! ## Issue -/

/-- The current sequencer is about to run a fetched instruction: it fetches at its pc words that decode to it, in a line whose prefetch
has gone on, and nothing comes before the instruction: no fault or severity trap, no diversion, no window to run again, no hold of EX;
no unit holds an error that no injection made, and no checker stands apart from its CTL (R69, R121, R226, R349, R355, R364, R377, R379). -/
def Ready (s : State) (f : Fetched) : Prop :=
  s.agenda = [] ∧ s.errs = [] ∧ s.outside = [] ∧ s.apart = [] ∧
  s.me.run = .running ∧ s.me.copy = none ∧ s.me.gvi = none ∧ s.me.sevTrap = none ∧
  (s.cur.2 = .ctl → s.here.faultDue = false ∧ s.here.chk.again = []) ∧ s.diverts s.cur.1 = false ∧
  (s.cur.2 = .ex → s.here.ex.free ≤ s.clk) ∧
  s.me.ahead = some (lineOf s.me.pc) ∧
  (∃ w0 w1, s.here.fetch s.here.ctx s.me.pc = some (w0, w1) ∧ decode s.cur.2 s.me.pc w0 w1 s.reduced = .ok f) ∧
  (f.yp = true → s.here.divert = none → s.here.tokensLeft s.cur.2 = false ∧
    (s.here.req = none ∨ s.me.inTrap = true ∨ s.drainAt s.here.ctx s.cur.2 s.me.pc = none)) ∧
  s.here.overBound s.cur.2 f.yp = false

/-- A word that stands for an instruction on a sequencer: well-formed, legal there, a bundle at a multiple of 16, a GVI of a length
that CTL takes (R384), and none that reduced service takes away (R413). -/
def Encodable (q : Seq) (addr : Word) (reduced : Bool) (f : Fetched) : Prop :=
  f.wf = true ∧ f.instr.isWord = true ∧ f.instr.legalOn q = true ∧
  (match f.instr with
    | .tb _ _ => addr.getLsbD 3 = false ∧ reduced = false
    | .splc | .cgen _ => reduced = false
    | .gvi n => gviLenOk q n = true
    | _ => True)

/-! ## Traps and violations (R348, R352, R360) -/

/-- The current sequencer takes a trap: results in flight on EX land, cause, epc, tval and tstat.PSUP are written, the mode is
supervisor's, INTRAP is set and the pc goes to tvec, where the end test runs (R105); memory and everything outside the core stand. -/
def Traps (s t : State) (cause : Cause) (epc tval : Word) : Prop :=
  OnlyCore s.cur.1 s t ∧ OthersFrame s t ∧ SameBytes s t ∧
  t.here = { s.here with seqs := t.here.seqs, ex := t.here.ex, chk := t.here.chk } ∧
  t.me = SeqSt.goto { s.me with regs := t.me.regs, cause := cause.code, epc := epc, tval := tval, psup := s.me.sup, sup := true,
                                inTrap := true, wait := .none } (s.me.tvec &&& ~~~7) ∧
  (s.cur.2 ≠ .ex → t.me.regs = s.me.regs ∧ t.here.ex = s.here.ex) ∧
  (s.cur.2 = .ex → t.me.regs = (s.here.settle.seq .ex).regs ∧ t.here.ex = s.here.settle.ex)

/-- The violation that the current sequencer commits. -/
def State.offence (s : State) (kind : VKind) (target : Word) : Violation :=
  ⟨kind, 0, BitVec.ofNat 8 s.cur.2.num.val, BitVec.ofNat 16 s.cur.1.val, s.here.ctx, s.me.pc, target⟩

/-- The address of the next record of the violation log. -/
def State.recordAt (s : State) : Nat := s.pf.vlbase.toNat + 32 * (s.vlhead % 256)

/-- The next record lies on dies in service, and no line of the L2 that has to leave for it holds an error, which could end a context on
the way (R371, R398, R413). -/
def State.RecordClean (s : State) : Prop := s.spanOut s.recordAt 32 = false ∧ ∀ l ∈ s.l2, ∀ i, i < 32 → l.la = (s.recordAt + i) / 128 → l.flips = []

/-- The current sequencer is frozen with its state held, and its violation enters the log: the record's 32 bytes are written and no
byte outside their lines changes. -/
def Freezes (s t : State) (kind : VKind) (target : Word) : Prop :=
  s.RecordClean →
  t.me = { s.me with run := .frozen (s.offence kind target) } ∧ OthersFrame s t ∧ t.here = { s.here with seqs := t.here.seqs } ∧
  (∀ d, d ≠ s.cur.1 → t.core d = s.core d) ∧
  t.vlhead = s.vlhead + 1 ∧ t.vpend = s.vpend ++ [(s.vlhead, s.offence kind target)] ∧
  (s.Canon → (∀ i, i < 32 → t.peek (s.recordAt + i) = BitVec.ofNat 8 ((s.offence kind target).record / 256 ^ i)) ∧
    ∀ a, (∀ i, i < 32 → a / 128 ≠ (s.recordAt + i) / 128) → t.peek a = s.peek a)

/-! ## Special registers (R91, R112) -/

/-- The registers that take a written value and do nothing else with it. -/
def sprPlain (r : Spr) : Bool :=
  match r with
  | .cause | .epc | .tval | .lc _ | .lbeg _ | .lend _ | .lstk | .splret | .tsa | .dpc | .dres | .gvs | .cflt | .tvec | .tstat | .sscr
  | .l2flo | .l2fhi | .lkl _ | .pwmode | .relpol | .rlsel | .errinja => true
  | _ => false

/-- What a register holds after a write: the low bits of its width. -/
def sprKeeps (r : Spr) (x : Word) : Word :=
  match r with
  | .lc _ => (x.setWidth 32).setWidth 64
  | _ => x

/-- Reading one register shows nothing of a write to another; the selected log entry follows rlsel, and pc and ycnt follow the
instruction itself. -/
def sprApart (r r' : Spr) : Bool :=
  r' != r && r' != .pc && r' != .ycnt &&
    (match r, r' with
      | .rlsel, .rld _ => false
      | _, _ => true)

/-! ## Lanes (R76, R114-R145) -/

/-- Nothing outside the current core has changed, nor memory, nor another sequencer, nor the mode of EX. -/
def EXFrame (s u : State) : Prop := OnlyCore s.cur.1 s u ∧ SameBytes s u ∧ OthersFrame s u ∧ SeqFrame s u

/-- Fields of width w of a register of lanes after a write: the written ones where `en` says so, the old ones elsewhere. -/
def LanesWritten (w n : Nat) (en : Nat → Bool) (data : Nat → Nat) (old new : Nat) : Prop :=
  ∀ l, l < n → laneOf new w l = if en l then data l % 2 ^ w else laneOf old w l

/-- The one result of an instruction lands `lat` issue slots after it, and its slot is counted (R95, R121). -/
def Lands (s u : State) (lat : Nat) : Prop :=
  u.here.ex.slot = s.here.ex.slot + 1 ∧
  (s.here.ex.pend = [] → u.here.ex.pend.map (·.due) = if lat = 1 then [] else [s.here.ex.slot + lat])

/-- What an EX instruction on lanes does, once landed: its queue pops have taken place (`k` is the core after them), its destination
takes the lanes that `o` writes, or its queue gets an entry `lat` clk later whose place is claimed (R119), and every other
register, accumulator and mask stands. -/
def LaneDone (s u : State) (k : Core) (d : VDst) (lat : Nat) (o : LaneOut) : Prop :=
  EXFrame s u ∧ WritesNone s u ∧ Passes s u ∧ u.here.ex.splret = s.here.ex.splret ∧ u.here.ex.tsa = s.here.ex.tsa ∧
  match d with
  | .v n => u.here = { k with seqs := u.here.seqs, ex := u.here.ex } ∧ u.here.ex.pushes = s.here.ex.pushes ∧ Lands s u lat ∧
      (s.here.ex.pend = [] →
        LanesWritten o.w o.n o.en o.data s.here.ex.v[n].toNat u.here.settle.ex.v[n].toNat ∧
        (∀ m : Fin 64, m ≠ n → u.here.settle.ex.v[m] = s.here.ex.v[m]) ∧
        u.here.settle.ex.a = s.here.ex.a ∧ u.here.settle.ex.k = s.here.ex.k)
  | .a n => u.here = { k with seqs := u.here.seqs, ex := u.here.ex } ∧ u.here.ex.pushes = s.here.ex.pushes ∧ Lands s u lat ∧
      (s.here.ex.pend = [] →
        LanesWritten o.w o.n o.en o.data s.here.ex.a[n].toNat u.here.settle.ex.a[n].toNat ∧
        (∀ m : Fin 64, m ≠ n → u.here.settle.ex.a[m] = s.here.ex.a[m]) ∧
        u.here.settle.ex.v = s.here.ex.v ∧ u.here.settle.ex.k = s.here.ex.k)
  | .q n => u.here = { k.claim (dstQueue n) with seqs := u.here.seqs, ex := u.here.ex } ∧
      (∃ e : QEntry, e.tag = o.tag ∧ (∀ l, l < o.n → laneOf e.data.toNat o.w l = o.qdata l % 2 ^ o.w) ∧
        u.here.ex.pushes = s.here.ex.pushes ++ [⟨s.clk + lat, .data n e⟩]) ∧
      (s.here.ex.pend = [] → u.here.settle.ex.v = s.here.ex.v ∧ u.here.settle.ex.a = s.here.ex.a ∧ u.here.settle.ex.k = s.here.ex.k)

/-- An EX instruction on lanes as the manual's tables give it: the sources in order, the type that a popped entry's tag must have
(none: every tag, R120), the destination, the latency (R121), and what it writes from the masks and the values read. -/
structure LaneOp where
  srcs : List VSrc
  tag  : Option LTy
  dst  : VDst
  lat  : Nat
  out  : Core → List VVal → LaneOut

/-- The form of R76 with WriteLanes: a result for every lane of the view. -/
def laneForm (srcs : List VSrc) (bits : Bool) (dst : VDst) (t : LTy) (mask : Fin 8) (mz wide : Bool) (lat : Nat)
    (res : List (Nat → Nat) → Nat → Nat) : LaneOp where
  srcs := srcs
  tag := if bits then none else some t
  dst := dst
  lat := if wide then lat + 1 else lat
  out := fun k vs =>
    let xs := vs.map fun v => v.lane t
    writeLanes t.width (if wide then 256 else t.lanes) (k.mask mask).getLsbD mz (res xs) (xs.headD fun _ => 0) (ltyTag t)

/-- Lane by lane: the result of a lane from that lane of each source. -/
def form1 (o : V1) (lat : Nat) (bits : Bool) (f : Nat → Nat) : LaneOp :=
  laneForm [o.a] bits o.dst o.ty o.mask o.mz o.wide lat fun xs l => f ((xs.getD 0 fun _ => 0) l)

def form2 (o : V2) (lat : Nat) (bits : Bool) (f : Nat → Nat → Nat) : LaneOp :=
  laneForm [o.a, o.b] bits o.dst o.ty o.mask o.mz o.wide lat fun xs l => f ((xs.getD 0 fun _ => 0) l) ((xs.getD 1 fun _ => 0) l)

def form3 (o : V3) (lat : Nat) (f : Nat → Nat → Nat → Nat) : LaneOp :=
  laneForm [o.a, o.b, o.c] false o.dst o.ty o.mask o.mz o.wide lat fun xs l =>
    f ((xs.getD 0 fun _ => 0) l) ((xs.getD 1 fun _ => 0) l) ((xs.getD 2 fun _ => 0) l)

/-- A lane code as a number, signed for I types (R114). -/
def laneNum (t : LTy) (x : Nat) : Int := if t.isSigned then (if 2 * x < 2 ^ t.width then (x : Int) else x - 2 ^ t.width) else x

/-- SAT ? Sat(r, ty) : Wrap(r, w) (R123). -/
def laneFit (t : LTy) (sat : Bool) (r : Int) : Nat := if sat then satCode t.width t.isSigned r else wrap t.width r

/-- The integer, logic and shift table (R123, R124). -/
def laneInts (i : Instr) : Option LaneOp :=
  match i with
  | .vadd sat o => some (form2 o 1 false fun a b => laneFit o.ty sat (laneNum o.ty a + laneNum o.ty b))
  | .vsub sat o => some (form2 o 1 false fun a b => laneFit o.ty sat (laneNum o.ty a - laneNum o.ty b))
  | .vmul sat o => some (form2 o 3 false fun a b => laneFit o.ty sat (laneNum o.ty a * laneNum o.ty b))
  | .vmulh o => some (form2 o 3 false fun a b => wrap o.ty.width (laneNum o.ty a * laneNum o.ty b / 2 ^ o.ty.width))
  | .vmin o => some (form2 o 1 false fun a b => wrap o.ty.width (min (laneNum o.ty a) (laneNum o.ty b)))
  | .vmax o => some (form2 o 1 false fun a b => wrap o.ty.width (max (laneNum o.ty a) (laneNum o.ty b)))
  | .vabs sat o => some (form1 o 1 false fun a => laneFit o.ty sat |laneNum o.ty a|)
  | .vneg sat o => some (form1 o 1 false fun a => laneFit o.ty sat (-laneNum o.ty a))
  | .vand o => some (form2 o 1 true fun a b => a &&& b)
  | .vor o => some (form2 o 1 true fun a b => a ||| b)
  | .vxor o => some (form2 o 1 true fun a b => a ^^^ b)
  | .vnot o => some (form1 o 1 true fun a => 2 ^ o.ty.width - 1 - a)
  | .vshl o => some (form2 o 1 false fun a n => if o.ty.width ≤ n then 0 else wrap o.ty.width ((a : Int) * 2 ^ n))
  | .vshlSat o => some (form2 o 1 false fun a n =>
      if o.ty.width ≤ n then
        (if a = 0 then 0 else if laneNum o.ty a < 0 then 2 ^ (o.ty.width - 1)
          else if o.ty.isSigned then 2 ^ (o.ty.width - 1) - 1 else 2 ^ o.ty.width - 1)
      else satCode o.ty.width o.ty.isSigned (laneNum o.ty a * 2 ^ n))
  | .vshr o => some (form2 o 1 false fun a n => if o.ty.width ≤ n then 0 else a / 2 ^ n)
  | .vsra o => some (form2 o 1 false fun a n =>
      if o.ty.width ≤ n then (if 2 * a < 2 ^ o.ty.width then 0 else 2 ^ o.ty.width - 1)
      else wrap o.ty.width (sval o.ty.width a / 2 ^ n))
  | .vpopc o => some (form1 o 1 false fun a => (List.range o.ty.width).countP fun b => a.testBit b)
  | _ => none

/-- A code as a result: a NaN of FP16, BF16 or FP32 has its quiet bit, the greatest of the fraction, set (R31). -/
def quieted (t : LTy) (x : Nat) : Nat :=
  match t with
  | .fp16 => if x / 2 ^ 10 % 32 = 31 ∧ x % 2 ^ 10 ≠ 0 then x ||| 2 ^ 9 else x
  | .bf16 => if x / 2 ^ 7 % 256 = 255 ∧ x % 2 ^ 7 ≠ 0 then x ||| 2 ^ 6 else x
  | .fp32 => if x / 2 ^ 23 % 256 = 255 ∧ x % 2 ^ 23 ≠ 0 then x ||| 2 ^ 22 else x
  | _ => x

/-- The float table (R125, R126) with the transcendentals and VCLS (R140, R141): one rounding of the exact value. -/
def laneFloats (i : Instr) : Option LaneOp :=
  match i with
  | .vfadd sat rz o => some (form2 o 3 false fun a b => rnd o.ty rz sat (addF .exVector (fval o.ty a) (fval o.ty b)))
  | .vfsub sat rz o => some (form2 o 3 false fun a b => rnd o.ty rz sat (addF .exVector (fval o.ty a) (negF (fval o.ty b))))
  | .vfmul sat rz o => some (form2 o 3 false fun a b => rnd o.ty rz sat (mulF .exVector (fval o.ty a) (fval o.ty b)))
  | .vfmin o => some (form2 o 3 false fun a b => fpick o.ty false a b)
  | .vfmax o => some (form2 o 3 false fun a b => fpick o.ty true a b)
  | .vfabs o => some (form1 o 1 false fun a => quieted o.ty (a % 2 ^ (o.ty.width - 1)))
  | .vfneg o => some (form1 o 1 false fun a =>
      quieted o.ty (if a < 2 ^ (o.ty.width - 1) then a + 2 ^ (o.ty.width - 1) else a - 2 ^ (o.ty.width - 1)))
  | .vfma sat rz o => some (form3 o 4 fun a b c => rnd o.ty rz sat (fmaF .exVector (fval o.ty a) (fval o.ty b) (fval o.ty c)))
  | .vfms sat rz o => some (form3 o 4 fun a b c => rnd o.ty rz sat (fmaF .exVector (fval o.ty a) (fval o.ty b) (negF (fval o.ty c))))
  | .vfnma sat rz o => some (form3 o 4 fun a b c => rnd o.ty rz sat (fmaF .exVector (negF (fval o.ty a)) (fval o.ty b) (fval o.ty c)))
  | .vexp2 o => some (form1 o 8 false fun a => rnd o.ty false false (exp2F (fval o.ty a)))
  | .vlog2 o => some (form1 o 8 false fun a => rnd o.ty false false (log2F (fval o.ty a)))
  | .vrcp o => some (form1 o 8 false fun a => rnd o.ty false false (rcpF (fval o.ty a)))
  | .vrsq o => some (form1 o 8 false fun a => rnd o.ty false false (rsqF (fval o.ty a)))
  | .vcls o => some (form1 o 2 false fun a => clsCode o.ty a)
  | _ => none

/-- Moves, selects and permutes (R129-R131): the results are lanes of the sources. -/
def laneMoves (i : Instr) (s : State) : Option LaneOp :=
  match i with
  | .vmov o => some (form1 o 1 true fun a => a)
  | .vsel o k => some (laneForm [o.a, o.b] true o.dst o.ty o.mask o.mz o.wide 1 fun xs l =>
      if (s.here.mask k).getLsbD l then (xs.getD 0 fun _ => 0) l else (xs.getD 1 fun _ => 0) l)
  | .vbcast d t mask mz (.lane a j) => some (laneForm [a] true d t mask mz (wideOf [d.k00, a.k00]) 1 fun xs _ => (xs.getD 0 fun _ => 0) j.toNat)
  | .vbcast d t mask mz (.index b step) => some (laneForm [.sc b] true d t mask mz (wideOf [d.k00]) 1 fun _ l =>
      wrap t.width ((s.src b).toInt + (l : Int) * step.toInt))
  | .vperm o => some (laneForm [o.a, o.b] true o.dst o.ty o.mask o.mz false 2 fun xs l =>
      let j := (xs.getD 1 fun _ => 0) l
      if j < o.ty.lanes then (xs.getD 0 fun _ => 0) j else 0)
  | .vrot o n => some (laneForm [o.a] true o.dst o.ty o.mask o.mz false 2 fun xs l =>
      (xs.getD 0 fun _ => 0) ((l + (s.src n).toNat % o.ty.lanes) % o.ty.lanes))
  | .vrmg d mask mz a b n => some (laneForm [a, b] true d .n8 mask mz false 2 fun xs l =>
      let j := l + (s.src n).toNat % 256
      if j < 256 then (xs.getD 0 fun _ => 0) j else (xs.getD 1 fun _ => 0) (j - 256))
  | _ => none

/-- Accumulator forms (R143-R145): the mask bit is that of the accumulator lane. -/
def laneAccs (i : Instr) : Option LaneOp :=
  match i with
  | .amov o p =>
    let x : List VVal → Nat → Nat := fun vs => (vs.headD (.word 0)).raw 32
    some ⟨[o.a], some o.ty, o.dst, (match o.dst, o.a with | .a _, .a _ => 3 | _, _ => 2), fun k vs =>
      let m := (k.mask o.mask).getLsbD
      match o.dst, o.a with
      | .a _, .a _ => writeLanes 32 256 m o.mz (x vs) (x vs) (ltyTag o.ty)
      | .a _, _ => { writeLanes 32 256 m o.mz (fun l => x vs (l - 64 * p.toNat)) (fun _ => 0) (ltyTag o.ty) with
          en := fun l => decide (64 * p.toNat ≤ l) && decide (l < 64 * p.toNat + 64) && (m l || o.mz) }
      | _, _ => writeLanes 32 64 (fun j => m (64 * p.toNat + j)) o.mz (fun j => x vs (64 * p.toNat + j))
          (fun j => x vs (64 * p.toNat + j)) (ltyTag o.ty)⟩
  | .aclr mask d => some ⟨[], none, .a d, 1, fun k _ => writeLanes 32 256 (k.mask mask).getLsbD false (fun _ => 0) (fun _ => 0) 0⟩
  | .acvt d t mask mz a ctl =>
    let from' := 128 * (ctl.toNat % 4)
    some ⟨[.a a], none, d, 3, fun k vs =>
      let x := (vs.headD (.word 0)).raw 32
      writeLanes t.width t.lanes (fun l => (k.mask mask).getLsbD (from' + l)) mz
        (fun l => acvtCode t (ctl.getLsbD 2) (ctl.getLsbD 3) (ctl.getLsbD 4) (x (from' + l))) ((vs.headD (.word 0)).raw t.width) (ltyTag t)⟩
  | _ => none

/-- Lanes that a conversion of one part takes from its source: destination lane to source lane (R132). -/
def cvtFrom (src dst : LTy) (p l : Nat) : Option Nat :=
  if src.width < dst.width then some (p * dst.lanes + l)
  else if dst.width < src.width then (if p * src.lanes ≤ l ∧ l < p * src.lanes + src.lanes then some (l - p * src.lanes) else none)
  else some l

/-- The bytes that VBSC and VPACK write: the others keep their value, and are zero in a queue entry (R134). -/
def bytesOut (n : Nat) (byte : Nat → Nat) : LaneOut where
  w := 8
  n := 256
  en := fun b => decide (b < n)
  data := byte
  qdata := fun b => if b < n then byte b else 0
  tag := 0

/-- Conversions and blocks (R132-R137). -/
def laneBlocks (i : Instr) : Option LaneOp :=
  match i with
  | .vcvt sat rz sty o p => some ⟨[o.a], some sty, o.dst, 3, fun k vs =>
      let x := vs.headD (.word 0)
      let m := (k.mask o.mask).getLsbD
      { w := o.ty.width
        n := o.ty.lanes
        en := fun l => (cvtFrom sty o.ty p.toNat l).isSome && (m l || o.mz)
        data := fun l => if m l then (match cvtFrom sty o.ty p.toNat l with
          | some j => cvtCode sty o.ty sat rz (x.lane sty j)
          | none => 0) else 0
        qdata := fun l => match cvtFrom sty o.ty p.toNat l with
          | some j => if m l then cvtCode sty o.ty sat rz (x.lane sty j) else if o.mz then 0 else x.lane o.ty l
          | none => 0
        tag := ltyTag o.ty }⟩
  | .vbsc lay t mask d a => some ⟨[a], some t, d, 4, fun k vs =>
      let x := (vs.headD (.word 0)).lane t
      let L := scBlk lay
      bytesOut (t.lanes / L) fun b => blockScale (scEmax lay)
        (((List.range L).filter fun j => (k.mask mask).getLsbD (L * b + j)).map fun j => fval t (x (L * b + j)))⟩
  | .vpack o => some ⟨o.a :: o.scale.toList, some o.ty, o.dst, 3, fun k vs =>
      let x := (vs.headD (.word 0)).lane o.ty
      let m := (k.mask o.mask).getLsbD
      match elFlt o.el with
      | none =>
        let code : Nat → Nat := fun l => if m l then satCode 4 true (ival 8 true (x l)) else 0
        bytesOut 128 fun b => code (2 * b) + 16 * code (2 * b + 1)
      | some f =>
        let L := o.blk.toNat
        let code : Nat → Nat := fun l => if m l then packCode f ((vs.getD 1 (.word 0)).raw 8 (l / L)) (fval o.ty (x l)) else 0
        if f.width = 4 then bytesOut (L * (o.ty.lanes / L) / 2) fun b => code (2 * b) + 16 * code (2 * b + 1)
        else bytesOut (L * (o.ty.lanes / L)) code⟩
  | .vunpk o => some ⟨o.a :: o.scale.toList, none, o.dst, 3, fun k vs =>
      let x := vs.headD (.word 0)
      let L := o.blk.toNat
      let n := if o.el = .i4 then 256 else L * (o.ty.lanes / L)
      writeLanes o.ty.width o.ty.lanes (fun l => decide (l < n) && (k.mask o.mask).getLsbD l) false
        (fun l => match elFlt o.el with
          | none => wrap 8 (sval 4 (x.raw 4 l))
          | some f => unpackCode o.ty f ((vs.getD 1 (.word 0)).raw 8 (l / L)) (x.raw f.width l)) (x.lane o.ty) (ltyTag o.ty)⟩
  | _ => none

/-- The combine of a reduction, and its result where no lane is active (R138). -/
def redCombine (i : Instr) : Option (VRed × (Nat → Nat → Nat) × Nat) :=
  match i with
  | .vredAdd o => some (o, fun a b => wrap o.ty.width ((a : Int) + b), 0)
  | .vredMin o => some (o, fun a b => if laneNum o.ty b < laneNum o.ty a then b else a,
      if o.ty.isSigned then 2 ^ (o.ty.width - 1) - 1 else 2 ^ o.ty.width - 1)
  | .vredMax o => some (o, fun a b => if laneNum o.ty a < laneNum o.ty b then b else a,
      if o.ty.isSigned then 2 ^ (o.ty.width - 1) else 0)
  | .vredAnd o => some (o, fun a b => a &&& b, 2 ^ o.ty.width - 1)
  | .vredOr o => some (o, fun a b => a ||| b, 0)
  | .vredXor o => some (o, fun a b => a ^^^ b, 0)
  | .vredFadd o => some (o, fun a b => rnd o.ty false false (addF .exVector (fval o.ty a) (fval o.ty b)), maskedNan o.ty)
  | .vredFmin o => some (o, fun a b => fpick o.ty false a b, maskedNan o.ty)
  | .vredFmax o => some (o, fun a b => fpick o.ty true a b, maskedNan o.ty)
  | _ => none

/-- The pairwise tree of R44 over a segment of 2^n lanes from `base` on: neighbours are combined first, and a lane that is not active
takes no part. -/
def redTree (f : Nat → Nat → Nat) (x : Nat → Option Nat) : Nat → Nat → Option Nat
  | 0, base => x base
  | n + 1, base =>
    match redTree f x n base, redTree f x n (base + 2 ^ n) with
    | some a, some b => some (f a b)
    | some a, none => some a
    | none, b => b

/-- The lanes of a reduction's view, and the result of the segment of lane l (R138). -/
def redLanes (o : VRed) : Nat := if o.wide then 256 else o.ty.lanes

def redResult (o : VRed) (f : Nat → Nat → Nat) (empty : Nat) (k : Core) (vs : List VVal) (l : Nat) : Nat :=
  (redTree f (fun j => if (k.mask o.mask).getLsbD j then some (quieted o.ty ((vs.headD (.word 0)).lane o.ty j)) else none) o.seg.toNat
    (l / 2 ^ o.seg.toNat * 2 ^ o.seg.toNat)).getD empty

/-- The winner of VMAXI in the segment of lane l: active, none in the segment greater, and no lower lane as great (R139). -/
def IsWinner (o : VRed) (k : Core) (x : Nat → Nat) (l j : Nat) : Prop :=
  j / 2 ^ o.seg.toNat = l / 2 ^ o.seg.toNat ∧ (k.mask o.mask).getLsbD j = true ∧
  (∀ m, m / 2 ^ o.seg.toNat = l / 2 ^ o.seg.toNat → (k.mask o.mask).getLsbD m = true → maxiGt o.ty (x m) (x j) = false) ∧
  (∀ m, m < j → m / 2 ^ o.seg.toNat = l / 2 ^ o.seg.toNat → (k.mask o.mask).getLsbD m = true → maxiGt o.ty (x j) (x m) = true)

/-- A result of EX in a scalar register: the queue pops have taken place, the register takes the value once landed, and lanes,
accumulators and masks stand. -/
def ScalarDone (s u : State) (k : Core) (d : Fin 32) (lat : Nat) (x : Word) : Prop :=
  EXFrame s u ∧ Writes s u d x ∧ Passes s u ∧ ExKept s u ∧ Lands s u lat ∧ u.here = { k with seqs := u.here.seqs, ex := u.here.ex }

/-- A result of EX in a mask register: bit l of it is `bit l` where `bit` gives one, and is kept otherwise; k0 reads as all ones
(R116, R127, R128). -/
def MaskDone (s u : State) (k : Core) (d : Fin 8) (lat : Nat) (bit : Nat → Option Bool) : Prop :=
  EXFrame s u ∧ WritesNone s u ∧ Passes s u ∧ Lands s u lat ∧ u.here = { k with seqs := u.here.seqs, ex := u.here.ex } ∧
  u.here.ex.pushes = s.here.ex.pushes ∧ u.here.ex.splret = s.here.ex.splret ∧ u.here.ex.tsa = s.here.ex.tsa ∧
  (s.here.ex.pend = [] →
    u.here.settle.ex.v = s.here.ex.v ∧ u.here.settle.ex.a = s.here.ex.a ∧ (∀ m, m ≠ d → u.here.settle.mask m = s.here.mask m) ∧
    ∀ l, l < 256 → (u.here.settle.mask d).getLsbD l = if d = 0 then true else (bit l).getD ((s.here.mask d).getLsbD l))

/-- The compares of R127, each with its test of two lanes; an unordered pair is met by NE and UN alone. -/
def laneCompare (i : Instr) : Option (VCmp × (LTy → Nat → Nat → Bool)) :=
  match i with
  | .vcmpEq o => some (o, fun t x y => cmpLane t x y == some .eq)
  | .vcmpNe o => some (o, fun t x y => !(cmpLane t x y == some .eq))
  | .vcmpLt o => some (o, fun t x y => cmpLane t x y == some .lt)
  | .vcmpLe o => some (o, fun t x y => cmpLane t x y == some .lt || cmpLane t x y == some .eq)
  | .vcmpGt o => some (o, fun t x y => cmpLane t y x == some .lt)
  | .vcmpGe o => some (o, fun t x y => cmpLane t y x == some .lt || cmpLane t x y == some .eq)
  | .vcmpUn o => some (o, fun t x y => (cmpLane t x y).isNone)
  | _ => none

/-- The logic of masks, bit by bit (R128). -/
def maskLogic (i : Instr) (k : Core) : Option (Fin 8 × (Nat → Bool)) :=
  match i with
  | .kand d a b => some (d, fun l => (k.mask a).getLsbD l && (k.mask b).getLsbD l)
  | .kor d a b => some (d, fun l => (k.mask a).getLsbD l || (k.mask b).getLsbD l)
  | .kxor d a b => some (d, fun l => (k.mask a).getLsbD l != (k.mask b).getLsbD l)
  | .knot d a => some (d, fun l => !(k.mask a).getLsbD l)
  | .kmov d a => some (d, fun l => (k.mask a).getLsbD l)
  | _ => none

/-- The lanes of all 64 accumulators after one slot of a term bundle has landed: its sources as they stood at issue, in `e` (R251,
R252). -/
def termSlot (e : ExSt) (acc : Fin 64 → Nat → Nat) (x : Sys2Proof.Slot) : Fin 64 → Nat → Nat :=
  let put : Fin 64 → (Nat → Nat) → Fin 64 → Nat → Nat := fun d f n => if n = d then f else acc n
  match x with
  | .nop => acc
  | .tmac d src w => put d fun l => wrap 32 ((acc d l : Int) + w.toInt * e.term src l)
  | .tadd d src => put d fun l => wrap 32 ((acc d l : Int) + e.term src l)
  | .tpair d a b => put d fun l => wrap 32 (e.term a l + e.term b l)
  | .tset d src => put d fun l => wrap 32 (e.term src l)
  | .tscl f p c => fun n => if n = p then fun _ => 0 else put f (fun l => foldLane (acc f l) c.toNat (laneOf e.a[p].toNat 32 l)) n
  | .tclr d => put d fun _ => 0

/-! ## Stages (R337-R339) -/

/-- The records of a DEFER, of the active lanes in ascending order: token id, address, gate (R338). -/
def deferred (k : Core) (m : Mask) (t a g : Fin 64) : List Nat :=
  ((List.range 256).filter fun l => m.getLsbD l).map fun l =>
    laneOf k.ex.a[t].toNat 32 l + laneOf k.ex.a[a].toNat 32 l * 2 ^ 32 + laneOf k.ex.a[a + 1].toNat 32 l * 2 ^ 64 +
      laneOf k.ex.a[g].toNat 32 l * 2 ^ 96

/-- A row of the scratchpad by its number. -/
def Core.padAt (k : Core) (n : Nat) : PadRow := if h : n < 2048 then k.pad[n] else ⟨0, 0, 0, []⟩

/-- What the 16 rows from r on hold after a DRAIN of the entries `es` (R339). -/
def Drained (k : Core) (r : Nat) (es : List (BitVec 128)) : Prop :=
  (∀ i, i < 16 → (k.padAt (r + i)).tag = if i < 4 then 0x19 else if i < 12 then 0x00 else 0x0C) ∧
  ∀ l, l < 256 →
    laneOf (k.padAt (r + l / 64)).data.toNat 32 (l % 64) = (match es[l]? with | some e => e.toNat % 2 ^ 32 | none => 0xFFFFFFFF) ∧
    laneOf (k.padAt (r + 4 + l / 32)).data.toNat 64 (l % 32) = (match es[l]? with | some e => e.toNat / 2 ^ 32 % 2 ^ 64 | none => 0) ∧
    laneOf (k.padAt (r + 12 + l / 64)).data.toNat 32 (l % 64) = (match es[l]? with | some e => e.toNat / 2 ^ 96 | none => 0)

/-! ## Accesses (R146-R176) -/

/-- The effective address of R153, with the element step where nothing is converted. -/
def State.eaOf (s : State) (base : Fin 32) (sh : Fin 16) (off : BitVec 32) (conv : Bool) : Word :=
  let S := s.here.shape sh
  let at' : Nat → Word := fun d => BitVec.ofNat 64 (S.i d) * S.d d
  S[0] + s.reg base + BitVec.ofInt 64 off.toInt +
    if S.stream then at' 1 + at' 2 + at' 3 + (if conv then 0 else at' 0) else 0

/-- The accesses of a row or a part of it in memory. -/
def accessOf (i : Instr) : Option (Kind × MOp) :=
  match i with
  | .ldr o => some (.ldr, o)
  | .ldl o => some (.ldl, o)
  | .lds o => some (.lds, o)
  | .str o => some (.str, o)
  | .stl o => some (.stl, o)
  | .strm o => some (.strm, o)
  | _ => none

/-- An access can issue: room for its entry, or its entry at hand, and nothing it must wait for (R155, R158, R173). -/
def AccessFree (kind : Kind) (o : MOp) (s : State) : Prop :=
  s.here.shapePending s.cur.2 o.sh = false ∧ s.here.accessRoom s.cur.2 = true ∧
  (if kind.store then (s.here.entryFor o.q).isSome = true else s.here.room o.q = true)

/-- Indices of 16 bits that count up to their extents, the first one first, each carrying into the next; each is held to its extent
whether it has moved or not (R153). -/
def bumpDims (carry : Nat) : List (Nat × Nat) → List Nat
  | [] => []
  | (i, e) :: rest =>
    if (i + carry) % 65536 = e then 0 :: bumpDims 1 rest else (i + carry) % 65536 :: bumpDims 0 rest

/-- The extent of the first dimension as the cursor counts it: steps where the access converts (R153). -/
def Fmt.steps (f : Fmt) : Nat := if f.conv then (if f.e0 = 0 then 1 else (f.e0 + f.n - 1) / f.n) else f.e0

/-- Changes of the current sequencer under a number are remembered where an access in flight may yet take them back, what was remembered
and may yet be taken back stays so, and nothing else is remembered (R174, R176). -/
def Remembers (s u : State) (id : Nat) (xs : List Change) : Prop :=
  (∀ x ∈ xs, u.here.mayUndo ⟨id, s.cur.2, x⟩ = true → ⟨id, s.cur.2, x⟩ ∈ u.here.undo) ∧
  (∀ v ∈ s.here.undo, u.here.mayUndo v = true → v ∈ u.here.undo) ∧
  ∀ v ∈ u.here.undo, v ∈ s.here.undo ∨ ∃ x ∈ xs, v = ⟨id, s.cur.2, x⟩

/-- The cursor of a STREAM shape has gone on under a number, which is remembered with the shape before it, and nothing else of any
shape has changed (R153, R174). -/
def CursorMoves (s u : State) (id : Nat) (sh : Fin 16) (f : Fmt) : Prop :=
  let S := s.here.shape sh
  (∀ n, n ≠ sh → u.here.shape n = s.here.shape n) ∧ (∀ j : Fin 8, j ≠ 7 → (u.here.shape sh)[j] = S[j]) ∧
  (S.stream = false → u.here.shape sh = S ∧ u.here.undo = s.here.undo) ∧
  (S.stream = true → (∀ d, d < 4 → (u.here.shape sh).i d =
      (bumpDims 1 [(S.i 0, f.steps), (S.i 1, S.e 1), (S.i 2, S.e 2), (S.i 3, S.e 3)]).getD d 0) ∧
    Remembers s u id [.shape sh (.advance f.n0 0 true) S])

/-- A change to the current core by `f` and a change that an earlier access's late fault would take back (R174, R176). -/
def FrameNoting (s u : State) (f : Core → Core) (xs : List Change) : Prop :=
  Frame s u (fun k => { f k with undo := u.here.undo }) ∧ Remembers s u s.fresh xs

/-- A load has joined those in flight, with room claimed in its queue: `w` is the state in which its rows have been touched or its
lines asked for. -/
def LoadJoins (w u : State) (id : Nat) (a : AccessPlan) (o : MOp) (src : LoadSrc) : Prop :=
  Frame w u (fun k => { k.claim o.q with
    loads := k.loads ++ [mkLoad w id a o.gran (.queue o.q) src (w.cursorOf o.sh)], shapes := u.here.shapes, undo := u.here.undo }) ∧
  CursorMoves w u w.fresh o.sh a.fmt ∧ WritesNone w u ∧ Passes w u

/-- A store has joined those in flight. -/
def StoreJoins (w u : State) (id : Nat) (a : AccessPlan) (o : MOp) (op : StoreOp) : Prop :=
  Frame w u (fun k => { k with
    stores := k.stores ++ [mkStore w id o.q a.ea o.gran a.fmt (a.rows.map fun t => (t.va, t.pa)) op (w.cursorOf o.sh)],
    shapes := u.here.shapes, undo := u.here.undo }) ∧
  CursorMoves w u w.fresh o.sh a.fmt ∧ WritesNone w u ∧ Passes w u

/-- A change that a sequencer made after its access with a number: a late fault of that access takes it back (R174, R176). -/
def Undone.after (w : Undone) (q : Seq) (id : Nat) : Prop := w.seq = q ∧ id < w.id

/-- A core whose sequencer's access with a number has been found at fault: that access and the later ones of the sequencer are gone, and
the tokens, entries, outcomes and shape registers that it has taken or changed since are as they were (R153, R174, R176). -/
def TakenBack (k j : Core) (q : Seq) (id : Nat) : Prop :=
  (∀ x ∈ j.loads, x.seq = q → x.id < id) ∧ (∀ w ∈ j.undo, ¬w.after q id) ∧
  (∀ t, j.toks[t] = k.toks[t] + (k.undo.map fun w => match w.what with
    | .tokens m n => if m = t ∧ w.seq = q ∧ id < w.id then n else 0
    | _ => 0).sum) ∧
  (∀ n, j.queues[n].entries = (k.undo.filterMap fun w => match w.what with
    | .entry m e => if m = n ∧ w.seq = q ∧ id < w.id then some e else none
    | _ => none) ++ k.queues[n].entries) ∧
  (∀ n, j.bqs[n] = (k.undo.filterMap fun w => match w.what with
    | .outcome m b => if m = n ∧ w.seq = q ∧ id < w.id then some b else none
    | _ => none) ++ k.bqs[n]) ∧
  (∀ n, (∀ w ∈ k.undo, ∀ o x, w.what ≠ .shape n o x) → j.shape n = k.shape n) ∧
  ∀ n pre post w o x, k.undo = pre ++ w :: post → w.what = .shape n o x → w.after q id → (∀ y ∈ pre, ∀ o' x', y.what ≠ .shape n o' x') →
    (∀ y ∈ post, ∀ o' x', y.what = .shape n o' x' → y.after q id) → j.shape n = x

/-- The sequencer that its access with the number of a late fault takes back: it traps as it stood before the access issued (R174, R176,
R348). -/
def LateTrap (q b : SeqSt) (cause : Cause) (tval : Word) : SeqSt :=
  SeqSt.goto { q with
    regs := b.regs, loops := b.loops, lstk := b.lstk, tvec := b.tvec, sscr := b.sscr, copy := none, gvi := none, wait := .none
    cause := cause.code, epc := b.pc, tval := tval, psup := b.sup, sup := true, inTrap := true } (b.tvec &&& ~~~7)

/-- A requester meets no full slice, and has no entry granted that it has not used (R179). -/
def State.Unhindered (s : State) (r : Option Requester) : Prop := s.barred = [] ∧ s.fullFor r = [] ∧ s.grantedTo r = false

/-- No unit holds an error, and the slices of n bytes hold no request that would go first (R179, R364). -/
def State.Clear (s : State) (pa n : Nat) : Prop :=
  s.barred = [] ∧ s.errs = [] ∧ ∀ i, i < n → inHbm (pa + i) = true →
    s.slices[sliceOf ((pa + i) / 128)].queue = [] ∧ s.slices[sliceOf ((pa + i) / 128)].miss = []

/-- The device's own read of n bytes meets nothing: no sector of local memory among them holds a flip or is stamped lost (R364, R370). -/
def State.Calm (s : State) (pa n : Nat) : Prop :=
  s.Clear pa n ∧ ∀ i, i < n → inHbm (pa + i) = true → s.troubled ((pa + i) / 32) = false

/-- One more free value is used up (log 6). -/
def State.used (s : State) : State := { s with fresh := s.fresh + 1 }

/-- The requests of a PREF outside every window, which ask for no sector: the lines of its granule that lie in HBM4E; none of a page
that is coded or discarded (R167, R171). -/
def State.prefReqs (s : State) (a : AccessPlan) (gran : Gran) (hint : Hint) : List SliceReq :=
  if isEmbc a.fmt.page = true ∨ pteDiscard a.pte = 1 then []
  else partReqs s s.fresh a.fmt.page hint ((prefLines a gran).filter fun p => inHbm p.pa)

/-- Nothing is flipped, lines are held once and under assigned codes, what is dirty is valid, what is clean agrees with memory, and
blank sectors hold nothing: the state of a memory in which no error has been injected. -/
def State.Healthy (s : State) : Prop :=
  s.Canon ∧ s.errs = [] ∧ (∀ n, (s.word n).flips = []) ∧ (∀ n, (s.word n).stamp = 0x3F → s.rawSector n = 0) ∧ s.l2.Pairwise (fun x y => x.la ≠ y.la) ∧
  ∀ l ∈ s.l2, l.flips = [] ∧ l.tag.toNat < 0x1C ∧ l.la < 2 ^ 33 ∧ l.dirty &&& ~~~l.valid = 0 ∧
    ∀ i, i < 4 → l.valid.getLsbD i = true → l.dirty.getLsbD i = false →
      lineSector l.data i = if (s.word (4 * l.la + i)).stamp = 0x3F then 0 else s.rawSector (4 * l.la + i)

/-! ## Commands (R229, R302, R340) -/

/-- The engines that CTL issues commands to, the depth of their queues, and their queues. -/
inductive Engine where
  | tensor | gather | code | stage
  deriving DecidableEq, Repr

def Engine.depth : Engine → Nat
  | .gather => 32
  | .tensor | .code | .stage => 8

def Core.engine (k : Core) (e : Engine) : EngQ :=
  match e with
  | .tensor => k.tens.q
  | .gather => k.gath
  | .code => k.code
  | .stage => k.stg

def Core.setEngine (k : Core) (e : Engine) (q : EngQ) : Core :=
  match e with
  | .tensor => { k with tens := { k.tens with q := q } }
  | .gather => { k with gath := q }
  | .code => { k with code := q }
  | .stage => { k with stg := q }

/-- The commands that wait in a queue, each with its engine and fields. -/
def queuedCmd (i : Instr) : Option (Engine × CCmd) :=
  match i with
  | .rcfg o | .tcfg o | .tgo o => some (.tensor, o)
  | .gather o | .scatter o | .pool o | .copy o | .fill o | .selk o | .nbt o | .coll o | .aowAddi32 o | .aowAddi64 o | .aowAddf32 o
  | .aowMax o | .aowMin o | .aowAnd o | .aowOr o | .aowXor o | .aowSwap o | .cas o => some (.gather, o)
  | .cgen o | .clock o | .cunlk o | .cpref o | .cswap o => some (.code, o)
  | .dflush o | .lenq o | .stgq o => some (.stage, o)
  | _ => none

/-- What a command's own fields must satisfy when it issues: a stage that the launch has (R340), a level of its own launch (R246). -/
def State.cmdStop (s : State) (i : Instr) : Option Cause :=
  match i with
  | .dflush o | .stgq o => if s.stageCount s.cur.1 ≤ (o.imm.extractLsb' 0 4).toNat then some .reservedOperand else none
  | .cswap o =>
    match s.here.strand with
    | none => some .reservedOperand
    | some st => st.levelTrap (o.imm.extractLsb' 1 3).toNat
  | _ => none

/-! ## Engines at work (R302-R318) -/

/-- An engine's queue stands at a command: those before it have ended and it has not, and nothing halts or freezes the queue. -/
def EngQ.StandsAt (e : EngQ) (pre : List EngCmd) (m : EngCmd) (post : List EngCmd) : Prop :=
  e.cmds = pre ++ m :: post ∧ (∀ x ∈ pre, x.ended = true) ∧ m.ended = false ∧ e.halted = none ∧ e.frozen = none

/-- The gather engine's queue of a core with another list of commands. -/
def State.withGath (s : State) (c : CoreId) (cmds : List EngCmd) : State :=
  s.onCore c fun k => { k with gath := { k.gath with cmds := cmds } }

/-- The gather engine has halted with a cause: the command stays, and CTL is told where the command's context runs (R308). -/
def State.gathHalted (s : State) (c : CoreId) (cmds : List EngCmd) (m : EngCmd) (cause : Cause) (va : Word) : State :=
  s.onCore c fun k => { k with
    gath := { k.gath with cmds := cmds, halted := some cause, fva := va }
    engFault := k.engFault || k.strand.any fun st => st.ctx == m.ctx }

/-- A command that has started at this time. -/
def State.started (s : State) (m : EngCmd) : EngCmd := { m with begun := true, since := s.gtbq / 189 }

/-- The word of an atomic and its new value from the old one, the operand or expected value and the new value (R316). -/
def atomTable (i : Instr) (old b c : Nat) : Option (Nat × Nat) :=
  let wide : CCmd → (Nat → Nat) → Option (Nat × Nat) := fun o f => let w := if o.imm.getLsbD 0 then 64 else 32; some (w, f w)
  match i with
  | .aowAddi32 _ => some (32, (old + b) % 2 ^ 32)
  | .aowAddi64 _ => some (64, (old + b) % 2 ^ 64)
  | .aowAddf32 _ => some (32, roundF .fp32 false false .gather (addF .gather (decodeF .fp32 old) (decodeF .fp32 (b % 2 ^ 32))))
  | .aowMax o => wide o fun w => let b := b % 2 ^ w; if o.imm.getLsbD 1 then (if sval w old < sval w b then b else old) else max old b
  | .aowMin o => wide o fun w => let b := b % 2 ^ w; if o.imm.getLsbD 1 then (if sval w b < sval w old then b else old) else min old b
  | .aowAnd o => wide o fun w => old &&& b % 2 ^ w
  | .aowOr o => wide o fun w => old ||| b % 2 ^ w
  | .aowXor o => wide o fun w => old ^^^ b % 2 ^ w
  | .aowSwap o => wide o fun w => b % 2 ^ w
  | .cas o => wide o fun w => if old = b % 2 ^ w then c % 2 ^ w else old
  | _ => none

/-- The address of an atomic's next element: its own, or the one that the next entry of its list names (R318); `v` is the state
once the entry has been read. -/
def AtomAt (s v : State) (c : CoreId) (m : EngCmd) (va : Word) : Prop :=
  (m.listed = false ∧ v = s ∧ va = m.a) ∨
  (m.listed = true ∧ ∃ x, s.engIndex c m m.c m.done = (v, .ok x) ∧ x ≠ 0xFFFFFFFF ∧ va = m.a + BitVec.ofNat 64 x * m.shape.d 1)

/-- The head of what is left of a core's gather queue starts, or goes on where it stood: `m'` is the command as it then runs (R303). -/
def State.Starts (s : State) (c : CoreId) (pre : List EngCmd) (m : EngCmd) (post : List EngCmd) (m' : EngCmd) : Prop :=
  (s.core c).gath.StandsAt pre m post ∧ (s.core c).gathHeld = false ∧ s.Unhindered (engineOf c) ∧
  (m.begun = true ∧ m' = m ∨ m.begun = false ∧ m.nb.toNat ≤ s.gtb.toNat ∧ m.bad = false ∧ m' = s.started m)

/-- A command runs from one state to another and leaves the queue as it stands there: in the result it stands at `m'`. -/
def RunsTo (c : CoreId) (s t : State) (pre : List EngCmd) (m' : EngCmd) (post : List EngCmd) : Prop :=
  exec (.engineCommandStart c) s = .next (t.withGath c (pre ++ m' :: post))

/-- n bytes of a scratchpad row from an offset on take a value, and the row its tag and mark (R306, R308). -/
def RowTakes (a b : State) (k : CoreId) (r : Fin 2048) (tag : Layout) (mark : BitVec 2) (off n x : Nat) : Prop :=
  a.errs = [] ∧ (a.padRow k r).flips = [] ∧ ∃ d : Row, b = a.onCore k (fun y => { y with pad := y.pad.set r ⟨tag, mark, d, []⟩ }) ∧
    ∀ j, j < 2048 → d.getLsbD j =
      if 8 * off ≤ j ∧ j < 8 * (off + n) then x.testBit (j - 8 * off) else (a.padRow k r).data.getLsbD j

/-- Row i of the range of rows at an engine scratchpad address, which the command's context claims (R306). -/
def ClaimedRow (a : State) (m : EngCmd) (at' : Word) (i : Nat) (r : Fin 2048) : Prop :=
  r.val = engRow at' + i ∧ a.claimant (engCore at') r.val = some m.ctx

/-- n bytes from a virtual address on are written for a command under a page's code; a discarded page takes nothing (R149, R307). -/
def BytesGo (a b : State) (c : CoreId) (m : EngCmd) (va : Word) (n x : Nat) (page : Layout) : Prop :=
  ∃ v p pa, a.reachVa c m.who m.sup ⟨false, true, false⟩ va = (v, .ok (p, pa)) ∧ page = pteCode p ∧
    if pteDiscard p = 1 then b = v else v.writeLines m.who page va pa n x 3 = (b, .ok ())

/-- The parts of a command from `lo` on up to `n`, each one in the state that the one before left, with the queues standing as they
stood. -/
def InOrder (c : CoreId) (s : State) (lo n : Nat) (σ : Nat → State) (one : Nat → State → State → Prop) : Prop :=
  σ lo = s ∧ ∀ i, lo ≤ i → i < n → one i (σ i) (σ (i + 1)) ∧
    ∀ t, t = σ i ∨ t = σ (i + 1) → (t.core c).gath = (s.core c).gath ∧ (t.core c).code = (s.core c).code

/-- Place i of a GATHER takes the element that entry i of its list names, or zeros where the entry is no index (R310). `l` is the layout
that its row has taken, `l'` the same after it; `claim` comes before the element is read, `after` when it is written. -/
def Gathers (c : CoreId) (m : EngCmd) (t : Table) (i : Nat) (l l' : Option Layout) (fits : State → Layout → Prop)
    (claim : State → State → CoreId → Fin 2048 → Prop) (after : State → State → CoreId → Fin 2048 → Prop) (a b : State) : Prop :=
  let off := i * t.bytes % 256
  let had := if off = 0 then none else l
  ∃ v u y x k r, a.engIndex c m m.a i = (v, .ok x) ∧ claim v u k r ∧ after y b k r ∧
    (x = 0xFFFFFFFF → l' = had ∧
      RowTakes u y k r (if off = 0 then 0 else (u.padRow k r).tag) (if off = 0 then 0 else (u.padRow k r).mark) off t.bytes 0) ∧
    (x ≠ 0xFFFFFFFF → ∃ w z, u.readElem c m t x = (w, .ok z) ∧ fits w z.lay ∧ l' = some z.lay ∧
      RowTakes w y k r z.lay z.mark off t.bytes z.x)

/-- A GATHER into rows: the place lies in the range of rows, all elements of a row have one layout, and the last row is zero behind its
last element (R310). -/
def GathersRow (c : CoreId) (m : EngCmd) (t : Table) (i : Nat) (l l' : Option Layout) : State → State → Prop :=
  Gathers c m t i l l' (fun _ lay => i * t.bytes % 256 = 0 ∨ ∀ x, l = some x → x = lay)
    (fun v u k r => u = v ∧ k = engCore m.c ∧ ClaimedRow v m m.c (i * t.bytes / 256) r)
    (fun y b k r => if i + 1 = m.b.toNat then
        RowTakes y b k r (y.padRow k r).tag (y.padRow k r).mark (i * t.bytes % 256 + t.bytes) (256 - (i * t.bytes % 256 + t.bytes)) 0
      else b = y)

/-- A GATHER into a ring: with a slot's first row it claims the slot, `x` and `x'` being the slot at hand before and after, none where
the next element needs one; each element has the ring's format, and a slot whose last row is written is full with every count at its
limit (R310). -/
def GathersSlot (c : CoreId) (m : EngCmd) (t : Table) (n : Fin 8) (i : Nat) (l l' : Option Layout) (x x' : Option Nat) (a b : State) :
    Prop :=
  ∃ slot, Gathers c m t i l l' (fun w lay => ((w.core c).ring n).fmt = lay)
    (fun v u k r => k = c ∧ r.val = (((v.core c).ring n).slotRow slot + i * t.bytes / 256 % ((v.core c).ring n).srows) % 2048 ∧
      (x = some slot ∧ u = v ∨ x = none ∧ ((v.core c).ring n).roomWhole = true ∧ slot = ((v.core c).ring n).claimSlot.1 ∧
        u = v.onCore c fun y => (y.setRing n ((v.core c).ring n).claimSlot.2).noteClaim n slot))
    (fun y b _ _ => if (i + 1) * t.bytes % (256 * ((y.core c).ring n).srows) = 0 then
        x' = none ∧ b = y.onCore c fun k => k.setRing n (((y.core c).ring n).fullSlot slot)
      else x' = some slot ∧ b = y) a b

/-- Element i of a SCATTER: it goes from its place in the rows to the table's element that entry i of the list names; the layouts
agree, and an entry that is no index is passed over (R311). -/
def Scatters (c : CoreId) (m : EngCmd) (t : Table) (i : Nat) (a b : State) : Prop :=
  ∃ v x, a.engIndex c m m.a i = (v, .ok x) ∧ (x = 0xFFFFFFFF → b = v) ∧
    (x ≠ 0xFFFFFFFF → ∃ r page, t.bad (t.at x) = false ∧ ClaimedRow v m m.c (i * t.bytes / 256) r ∧ v.errs = [] ∧
      (v.padRow (engCore m.c) r).flips = [] ∧ scatterOk (v.padRow (engCore m.c) r).tag page = true ∧
      BytesGo v b c m (t.at x) t.bytes
        ((v.padRow (engCore m.c) r).data.toNat / 2 ^ (8 * (i * t.bytes % 256)) % 2 ^ (8 * t.bytes)) page)

/-- List position i of a POOL: the element that it names, times its weight or one, is added to every sum (R312). -/
def Pools (c : CoreId) (m : EngCmd) (p : PoolOp) (i : Nat) (x y : List Nat) (a b : State) : Prop :=
  ∃ v n, a.engIndex c m m.a i = (v, .ok n) ∧ (n = 0xFFFFFFFF → b = v ∧ y = x) ∧
    (n ≠ 0xFFFFFFFF → ∃ w wt z, w.readElem c m p.t n = (b, .ok z) ∧ z.lay = p.lay ∧
      (m.shape[5] = 0 → w = v ∧ wt = .fin false 1 0) ∧
      (m.shape[5] ≠ 0 → (m.shape[5] + BitVec.ofNat 64 (4 * i)).toNat % 4 = 0 ∧
        ∃ g, v.engRead c m (m.shape[5] + BitVec.ofNat 64 (4 * i)) 4 = (w, .ok g) ∧ g.page = 0x0C ∧ wt = decodeF .fp32 g.x) ∧
      y = x.zipIdx.map fun s => poolStep s.1 wt (p.val (fieldAt z.x (p.w * s.2) p.w)))

/-- A bag of a POOL: the offsets list says which list positions it sums, from +0 on, and its sums go to the bag's rows in the output
format (R312). -/
def PoolsBag (c : CoreId) (m : EngCmd) (p : PoolOp) (bag count : Nat) (a b : State) : Prop :=
  ∃ (v w : State) (lo hi : Nat) (τ ρ : Nat → State) (A : Nat → List Nat), a.engIndex c m m.shape[3] bag = (v, .ok lo) ∧ v.engIndex c m m.shape[3] (bag + 1) = (w, .ok hi) ∧ lo ≤ hi ∧
    count = hi - lo ∧ A lo = List.replicate p.v 0 ∧ InOrder c w lo hi τ (fun i => Pools c m p i (A i) (A (i + 1))) ∧
    InOrder c (τ hi) 0 p.nr ρ (fun j x y => x.errs = [] ∧ ∃ (r : Fin 2048) (d : Row), ClaimedRow x m m.c (p.nr * bag + j) r ∧
      y = x.onCore (engCore m.c) (fun k => { k with pad := k.pad.set r ⟨fltCode p.out, 0, d, []⟩ }) ∧
      ∀ n, n < 2048 / p.out.width → fieldAt d.toNat (p.out.width * n) p.out.width =
        match (A hi)[2048 / p.out.width * j + n]? with
        | some s => roundF p.out false false .gather (decodeF .fp32 s)
        | none => 0) ∧
    b = ρ p.nr

/-- Sector i of the source of a COPY (R313): its layout, slot mark and bits; `v` is the state once it is read. -/
def SourceIs (c : CoreId) (m : EngCmd) (rows : Bool) (i : Nat) (a v : State) (lay : Layout) (mark : BitVec 2) (x : Nat) : Prop :=
  if rows then
    v = a ∧ a.errs = [] ∧ ∃ r, ClaimedRow a m m.a (i / 8) r ∧ (a.padRow (engCore m.a) r).flips = [] ∧
      lay = (a.padRow (engCore m.a) r).tag ∧ mark = (a.padRow (engCore m.a) r).mark ∧
      x = (a.padRow (engCore m.a) r).data.toNat / 2 ^ (256 * (i % 8)) % 2 ^ 256
  else
    ∃ w p pa g, a.reachVa c m.who m.sup ⟨true, false, false⟩ (m.a + BitVec.ofNat 64 (32 * i)) = (w, .ok (p, pa)) ∧
      w.engRead c m (m.a + BitVec.ofNat 64 (32 * i)) 32 = (v, .ok g) ∧ lay = pteCode p ∧ mark = v.rowMark lay pa ∧ x = g.x

/-- Sector i of a range of rows takes a value; the sectors of a row agree in their layout (R313). -/
def SectorGoes (m : EngCmd) (i : Nat) (l l' : Option Layout) (lay : Layout) (mark : BitVec 2) (x : Nat) (a b : State) : Prop :=
  (i % 8 = 0 ∨ ∀ y, l = some y → y = lay) ∧ l' = some lay ∧
    ∃ r, ClaimedRow a m m.b (i / 8) r ∧ RowTakes a b (engCore m.b) r lay mark (32 * (i % 8)) 32 x

/-- Sector i of a COPY that is not of code: rows take the layout its data has when held, a page must take the source's (R313). -/
def Copies (c : CoreId) (m : EngCmd) (o : CCmd) (i : Nat) (l l' : Option Layout) (a b : State) : Prop :=
  ∃ v lay mark x, SourceIs c m (o.imm.getLsbD 0) i a v lay mark x ∧
    (o.imm.getLsbD 1 = true → SectorGoes m i l l' (heldCode lay) mark x v b) ∧
    (o.imm.getLsbD 1 = false → l' = l ∧ ∃ page, copyPair lay page = true ∧ BytesGo v b c m (m.b + BitVec.ofNat 64 (32 * i)) 32 x page)

/-- A line of a COPY of code goes with its first sector: four sectors of RAW or code, to a page that may be written as code (R227,
R313). -/
def CopiesCode (c : CoreId) (m : EngCmd) (o : CCmd) (i : Nat) (a b : State) : Prop :=
  if i % 4 ≠ 0 then b = a
  else ∃ (v w : State) (f : Nat) (τ : Nat → State) (x : Nat → Nat), let va := m.b + BitVec.ofNat 64 (32 * i)
    a.codeFrame (clusterOf c) m.who m.sup va = (v, .ok f) ∧
    InOrder c v 0 4 τ (fun j y z => ∃ lay mark, SourceIs c m (o.imm.getLsbD 0) (i + j) y z lay mark (x j) ∧ (lay = 0 ∨ lay = 0x17)) ∧
    w = τ 4 ∧ w.writeCode m.who (f * 65536 + va.toNat % 65536)
      (BitVec.ofNat 1024 (x 0 + x 1 * 2 ^ 256 + x 2 * 2 ^ 512 + x 3 * 2 ^ 768)) = (b, .done)

/-- A line of a CLOCK (R241): one that is no code page of the context is refused and said so; one that is locked already stays; one that
can be brought in is locked within the quota and four to a set; `r` and `r'` are the lines refused, before and after. -/
def LocksLine (c : CoreId) (m : EngCmd) (quota : Nat) (va : Word) (r r' : Locked) (a b : State) : Prop :=
  let line : State → Option CodeLine := fun x => (x.core c).codeL1.find? fun l => l.ctx == m.ctx && l.line == lineOf va
  ∃ v, (∃ e, a.lattPage c m.who m.sup va = (v, .error e) ∧ b = v ∧ r' = ⟨r.refused + 1, true⟩) ∨
    (∃ e, a.lattPage c m.who m.sup va = (v, .ok e)) ∧
      ((line v).any (·.locked) = true ∧ b = v ∧ r' = r ∨
        (line v).any (·.locked) = false ∧ ∃ w there, (line v ≠ none → w = v ∧ there = true) ∧
          (line v = none → ∃ o, v.fillCode c m.who m.sup va = (w, o) ∧ (there = true ↔ o = .ok ())) ∧
          if there = true ∧ ((w.core c).codeL1.countP fun l => l.ctx == m.ctx && l.locked) < quota ∧
            ((w.core c).codeL1.countP fun l => l.locked && l.set == (lineOf va).extractLsb' 0 7) < 4 then
            r' = r ∧ b = w.onCore c (fun k => { k with
              codeL1 := k.codeL1.map fun l => if l.ctx = m.ctx ∧ l.line = lineOf va then { l with locked := true } else l })
          else b = w ∧ r' = { r with refused := r.refused + 1 })

/-- A line of a CPREF (R244): into the code L1, or only into the L2; one that would fault or violate is passed over. -/
def PrefetchesLine (c : CoreId) (m : EngCmd) (l2 : Bool) (va : Word) (a b : State) : Prop :=
  (l2 = false → ((a.core c).codeLine m.ctx va ≠ none → b = a) ∧
    ((a.core c).codeLine m.ctx va = none → ∃ o, a.fillCode c m.who m.sup va = (b, o))) ∧
  (l2 = true → ∃ v, (∃ e, a.lattPage c m.who m.sup va = (v, .error e) ∧ b = v) ∨
    ∃ e o, a.lattPage c m.who m.sup va = (v, .ok e) ∧ v.readCode c m.who e (va.toNat % 65536 / 128) = (b, o))

/-- A line of a page that CGEN writes (R227, R238). -/
def WritesCodeLine (c : CoreId) (m : EngCmd) (va : Word) (ws : List Word) (i : Nat) (a b : State) : Prop :=
  ∃ v f, a.codeFrame (clusterOf c) m.who m.sup va = (v, .ok f) ∧ v.writeCode m.who (f * 65536 + 128 * i) (pageLine ws i) = (b, .done)

/-- The slots that a SELK evicts, of candidates with their counters: `n` of them or all, and none is left whose counter is lower, or is
the same in a lower slot (R323). -/
def Evicts (cand : List (Nat × Nat)) (n : Nat) (gone : List Nat) : Prop :=
  gone.Nodup ∧ gone.length = min n cand.length ∧ (∀ j ∈ gone, ∃ e ∈ cand, e.2 = j) ∧
  ∀ e ∈ cand, ∀ f ∈ cand, e.2 ∈ gone → f.2 ∉ gone → counterLe e.1 f.1 = true ∧ (counterLe f.1 e.1 = true → e.2 < f.2)

/-- Row i of a COLL that adds or takes: the row that has come, with the own row added lane by lane, is the own row (R325). -/
def CollRow (c : CoreId) (m : EngCmd) (o : CCmd) (i : Nat) (a b : State) : Prop :=
  let own := m.a + BitVec.ofNat 64 (256 * i)
  ∃ v g page, a.engRead c m (m.c + BitVec.ofNat 64 (256 * i)) 256 = (v, .ok g) ∧
    ((collOp o).readsL = false → BytesGo v b c m own 256 (g.x % 2 ^ 2048) page) ∧
    ((collOp o).readsL = true → ∃ w h x, v.engRead c m own 256 = (w, .ok h) ∧ x < 2 ^ 2048 ∧
      (∀ k, k < 64 → fieldAt x (32 * k) 32 =
        if collInt o then (fieldAt h.x (32 * k) 32 + fieldAt g.x (32 * k) 32) % 2 ^ 32
        else collLane false (fieldAt h.x (32 * k) 32) (fieldAt g.x (32 * k) 32)) ∧
      BytesGo w b c m own 256 x page)

/-! ## The tensor engine at work (R271-R282) -/

/-- The head of the tensor queue, or a running nest, has faulted: the queue halts with the cause, `t` being the engine otherwise, and
the TGO's hitch receives its arrival where it has not had it (R280). -/
def State.tensorFault (s : State) (c : CoreId) (t : Tensor) (m : EngCmd) (cause : Cause) : State :=
  let u := s.onCore c fun k => { k with tens := { t with q := { t.q with halted := some cause } } }
  if m.ended then u else u.arriveCmd c m

/-- The sum that a K-step adds to row m and lane n of its tile, of `live` positions (R274, R275); none where no position is live. -/
def kstepSum (a b : SubData) (fa fb : TFmt) (live m n : Nat) : Option FV :=
  let as := (List.range live).map fun k => a.value fa m k
  let bs := (List.range live).map fun k => b.value fb n k
  if fa.asym then sumScaled ((List.range 3).map fun g => a.scale fa m g) as bs
  else if fb.asym then sumScaled ((List.range 3).map fun g => b.scale fb n g) as bs
  else sumPlain as bs

/-- A sub-tile as a K-step has read it: its counts, with no more than `cap` positions live, and the rows that hold live positions. -/
def SubRead (k : Core) (r : Ring) (slot sub cap : Nat) (x : SubData) : Prop :=
  x.fmt = r.fmt ∧ x.role = r.role ∧ x.kv = min ((r.slot slot).kv.toList.getD sub 0) cap ∧ x.lv = (r.slot slot).lv.toList.getD sub 0 ∧
  ∀ i ∈ liveRows r.tf r.role x.kv x.lv,
    x.bits / 2 ^ (2048 * i) % 2 ^ 2048 = (k.padAt ((r.subRow slot sub + i) % 2048)).data.toNat

/-- The clk that a K-step of two sub-tiles takes (R263): 1, 2 or 4 by the wider element, or as many as the bank of the scratchpad
that has the most of their live rows. -/
def KstepTakes (ra : Ring) (sa ia : Nat) (x : SubData) (rb : Ring) (sb ib : Nat) (y : SubData) (clk : Nat) : Prop :=
  let rows := (liveRows ra.tf ra.role x.kv x.lv).map (ra.subRow sa ia + ·) ++ (liveRows rb.tf rb.role y.kv y.lv).map (rb.subRow sb ib + ·)
  let wide := if max ra.tf.w rb.tf.w = 4 then 1 else if max ra.tf.w rb.tf.w = 8 then 2 else 4
  let inBank : Nat → Nat := fun i => rows.countP fun r => r % 8 = i
  wide ≤ clk ∧ (∀ i, i < 8 → inBank i ≤ clk) ∧ (clk = wide ∨ ∃ i, i < 8 ∧ clk = inBank i)

/-! ## Hawser (R407-R411) -/

/-- Some valid entry of the export table covers the frame for the node, with W where a write is asked (R404, R408). -/
def State.Exports (s : State) (frame node : Nat) (write : Bool) : Prop :=
  ∃ i : Fin 64, s.pf.exp[i].1.getLsbD 63 = true ∧ (write = true → s.pf.exp[i].1.getLsbD 62 = true) ∧
    (s.pf.exp[i].1.extractLsb' 16 31).toNat ≤ frame ∧
    frame < (s.pf.exp[i].1.extractLsb' 16 31).toNat + (s.pf.exp[i].2.extractLsb' 0 32).toNat ∧
    (s.pf.exp[i].2.extractLsb' 32 10).toNat ≤ node ∧ node ≤ (s.pf.exp[i].2.extractLsb' 42 10).toNat

/-- The last remote request has been answered. -/
def State.answered (s : State) (a : FarAnswer) : State := { s with fab := { s.fab with answer := a } }

/-! ## Phase ends (R201-R206) -/

/-- fn and imm32 of a copy of a phase end; none where the instruction ends no phase (R203, R204, R206). -/
def phaseCopyOf (i : Instr) : Option (BitVec 4 × BitVec 32) :=
  match i with
  | .pend => some (0, 0)
  | .sync lvl => some (1, BitVec.ofNat 32 lvl.val)
  | .xfence .core dst scope => some (2, BitVec.ofNat 32 (16 * dst.num.toNat + scope.code.toNat))
  | _ => none

/-- A sequencer has gone past its copy of a phase end. -/
def LeftCopy (s u : State) (c : CoreId) (q : Seq) : Prop :=
  ((u.core c).seq q).copy = none ∧ ((u.core c).seq q).wait = .none ∧
  ((u.core c).seq q).pc = (SeqSt.goto ((s.core c).seq q) (((s.core c).seq q).pc + 8)).pc

/-- The oldest phase of a core can publish: no XFENCE still holds its sequencers for it, its rows have been applied at their homes or
accepted by the memory port (R202), and one that ends a strand waits for no change or flush still to come (R246, R340). -/
def CanPublish (s : State) (c : CoreId) (e : PhaseOut) : Prop :=
  (∃ post, (s.core c).ends = e :: post) ∧ (∀ n, e.kind ≠ .fence n) ∧
  (e.kind = .final → (s.core c).swapsComing = false ∧ (s.core c).flushesComing = false) ∧
  ∀ r ∈ e.rows, s.rowQueued c r = false ∧ s.rowPosted c r = false

/-- Up to `n` phases of a core publish one after the other, as PUBLICATION_COMPLETE has each do, until one cannot yet. -/
def PublishesUpTo (c : CoreId) (n : Nat) (s t : State) : Prop :=
  ∃ (k : Nat) (σ : Nat → State), σ 0 = s ∧ σ k = t ∧ k ≤ n ∧
    (∀ i, i < k → (∃ e, CanPublish (σ i) c e) ∧ exec (.publicationComplete c) (σ i) = .next (σ (i + 1))) ∧
    (k < n → ∀ e, ¬CanPublish t c e)

/-- The splice directory once a change of CSWAP has been compared and applied, and what it replies (R246). -/
def DirectoryChanges (x : Swap) (old new : List Splice) (r : Word) : Prop :=
  let mine : Splice → Bool := fun e => e.ctx == x.cmd.ctx && e.base == x.a
  let ver : BitVec 32 := ((old.find? mine).map (·.version)).getD 0
  let fails := ver.setWidth 64 ≠ x.version ∨ x.b ≠ 0 ∧ (∀ e ∈ old, mine e = false) ∧ 16384 ≤ old.length
  (fails → new = old ∧ r = 0xFFFFFFFFFFFFFFFF) ∧
  (¬fails → r = (ver + 1).setWidth 64 ∧
    new = old.filter (fun e => !mine e) ++ (if x.b = 0 then [] else [(⟨x.cmd.ctx, x.a, x.b, ver + 1⟩ : Splice)]))

/-- A change that CSWAP has queued for a barrier applies, for the gang at a domain (R246, R259): a splice entry, which the LATTs of the gang
then hold; or the frames of two pages. Its command arrives, a splice's once rq has taken its reply. -/
def SwapApplies (domain : Nat) (x : Swap) (a b : State) : Prop :=
  let c := x.core
  (x.splice = true → ∃ (v : State) (r : Word), v = { a with cores := v.cores, splices := v.splices, fresh := a.fresh + 1 } ∧
    DirectoryChanges x a.splices v.splices r ∧
    (∀ d, (v.core d) = { a.core d with latt := (v.core d).latt } ∧
      let seen := (a.core d).latt.map fun e =>
        if e.ctx = x.cmd.ctx ∧ e.vpn = (x.a.extractLsb' 16 32).toNat then { e with splice := v.spliceNow x.cmd.ctx x.a } else e
      (d ∈ a.gang c x.gid domain → (v.core d).latt = seen) ∧ ((v.core d).latt = seen ∨ (v.core d).latt = (a.core d).latt)) ∧
    let here : Prop := ∃ st, (v.core c).strand = some st ∧ st.gid = x.gid
    let room : Prop := (v.core c).rqRoom = true ∧ ∀ m rest, (v.core c).code.cmds = m :: rest → m.ended = false
    (¬here → b = v.arriveCmd c x.cmd) ∧
    (here → room → b = (v.onCore c fun k => { k with rq := k.rq ++ [(⟨r, x.cmd.f.tag⟩ : Reply)] }).arriveCmd c x.cmd) ∧
    (here → ¬room → b = v.onCore c fun k => k.owe x.cmd r)) ∧
  (x.splice = false → ∃ (v w : State) (y z : WalkOut), a.walkBoth x.cmd.ctx x.cmd.pc x.a x.b = (v, y, z) ∧ b = w.arriveCmd c x.cmd ∧
    (∀ pa p pb q, v.leafAt x.cmd.ctx x.a = .ok (pa, p) → v.leafAt x.cmd.ctx x.b = .ok (pb, q) →
      ∃ p' q' : Word, p' &&& 0x7FFFFFFF0000 = q &&& 0x7FFFFFFF0000 ∧ p' &&& ~~~0x7FFFFFFF0000 = p &&& ~~~0x7FFFFFFF0000 ∧
        q' &&& 0x7FFFFFFF0000 = p &&& 0x7FFFFFFF0000 ∧ q' &&& ~~~0x7FFFFFFF0000 = q &&& ~~~0x7FFFFFFF0000 ∧
        w = (((v.putRecord pa p'.toNat 8).putRecord pb q'.toNat 8).pageMoved x.cmd.ctx x.a
          (leafPa p' false (x.a &&& ~~~0xFFFF) / 65536)).pageMoved x.cmd.ctx x.b (leafPa q' false (x.b &&& ~~~0xFFFF) / 65536)) ∧
    (((∀ e, v.leafAt x.cmd.ctx x.a ≠ .ok e) ∨ ∀ e, v.leafAt x.cmd.ctx x.b ≠ .ok e) → w = v))

/-! ## Hitches (R209, R210) -/

/-- A hitch of the own cluster has taken a value, and the instruction has gone past. -/
def PutsHitch (s u : State) (n : Nat) (h : Hitch) : Prop :=
  let w := s.setHitch (clusterOf s.cur.1) n h
  Frame w u id ∧ WritesNone w u ∧ Passes w u

/-- A sequencer traps where it stands, whoever's turn it is. -/
def TrapsThere (s u : State) (c : CoreId) (q : Seq) (cause : Cause) (tval : Word) : Prop :=
  ((u.core c).seq q).cause = cause.code ∧ ((u.core c).seq q).epc = ((s.core c).seq q).pc ∧ ((u.core c).seq q).tval = tval ∧
  ((u.core c).seq q).pc = (SeqSt.goto ((s.core c).seq q) (((s.core c).seq q).tvec &&& ~~~7)).pc ∧
  ((u.core c).seq q).inTrap = true ∧ ((u.core c).seq q).sup = true ∧ ((u.core c).seq q).psup = ((s.core c).seq q).sup

/-! ## Strands that start and stubs that are entered (R89, R93, R117, R334, R355) -/

/-- A core has started a strand of a stage of a launch: its sequencers stand at the stage's pcs with zero registers in user mode, EX's
lanes, accumulators and masks are zero, queues are empty, and the constants that CONST names are written. -/
def StrandStarts (s u : State) (c : CoreId) (l : Launch) (n : Nat) : Prop :=
  (u.core c).strand = some ⟨l.ctx, l.bound, l.rows, 0, l.gid, n, (l.stage n).fixed, l.lockq, l.levels⟩ ∧
  (∀ q, ((u.core c).seq q).pc = (l.stage n).pcs[q.num] &&& ~~~7 ∧ ((u.core c).seq q).run = .running ∧
    ((u.core c).seq q).regs = .replicate 32 0 ∧ ((u.core c).seq q).sup = false ∧ ((u.core c).seq q).inTrap = false ∧
    ((u.core c).seq q).lstk = 0 ∧ ((u.core c).seq q).tvec = ctxTvec (s.ctxEntry l.ctx)) ∧
  (u.core c).ex.v = .replicate 64 0 ∧ (u.core c).ex.a = .replicate 64 0 ∧ (u.core c).ex.k = .replicate 8 0 ∧
  (u.core c).ex.pend = [] ∧ (u.core c).toks = .replicate 16 0 ∧ (∀ q : Fin 16, (u.core c).queues[q].entries = []) ∧
  (u.core c).rq = [] ∧ (u.core c).startTo = none ∧
  (u.core c).req = (if s.prq.any fun r => r.core == c && !r.restore && r.ctx == l.ctx then some .preempt else none) ∧ (u.core c).pad = (s.core c).pad ∧ (u.core c).wins = .replicate 16 none ∧
  (∀ i : Fin 256, (∀ e ∈ s.consts, e.ctx = l.ctx → e.entry = (l.stage n).pcs[0] → e.c ≠ i) →
    (u.core c).consts[i] = (s.core c).consts[i]) ∧
  ∀ pre post e, s.consts = pre ++ e :: post → e.ctx = l.ctx → e.entry = (l.stage n).pcs[0] →
    (∀ x ∈ post, x.ctx = l.ctx → x.entry = (l.stage n).pcs[0] → x.c ≠ e.c) → (u.core c).consts[e.c] = e.value

/-- Where a diverted sequencer goes: the stub that covers its pc, or its pc (R355). -/
def State.stubAt (s : State) (ctx : Ctx) (q : Seq) (pc : Word) : Word :=
  match s.drainAt ctx q pc with
  | some d => d.stub
  | none => pc

/-! ## Code lines (R221-R223) -/

/-- What a fetch of a core asks with: its context, at the sequencer's pc. -/
def State.fetcher (s : State) (c : CoreId) (q : Seq) : Asker := ⟨(s.core c).ctx, ((s.core c).seq q).pc, false⟩

/-- The page of a fetch, now in front of the core's LATT: it was there, or its cluster has translated it and it has passed R222, and
then no line's state is known (R221) and the splice entry is the directory's (R259). -/
def FetchPage (s v : State) (c : CoreId) (q : Seq) (e : LattPage) : Prop :=
  let pc := ((s.core c).seq q).pc
  let mine : LattPage → Prop := fun x => x.ctx = (s.core c).ctx ∧ x.vpn = (pc.extractLsb' 16 32).toNat
  mine e ∧
  ((∃ pre post, (s.core c).latt = pre ++ e :: post ∧ (∀ x ∈ pre, ¬mine x) ∧
      v = s.onCore c fun (k : Core) => { k with latt := lattPut k.latt e }) ∨
    ((∀ x ∈ (s.core c).latt, ¬mine x) ∧ e.known = [] ∧ ∃ w, e.splice = w.spliceNow (s.core c).ctx (pc &&& ~~~0xFFFF#64) ∧
      s.codeFrame (clusterOf c) (s.fetcher c q) ((s.core c).seq q).sup pc = (w, .ok e.frame) ∧
      v = w.onCore c fun (k : Core) => { k with latt := lattPut k.latt e }))

/-- The line of an address has entered a code L1, unlocked; a line leaves only where its set holds eight, never a locked one. -/
def LineEnters (k j : Core) (ctx : Ctx) (pc : Word) (pa : Nat) (data : BitVec 1024) : Prop :=
  let l : CodeLine := ⟨ctx, lineOf pc, data, false, pa⟩
  let other : CodeLine → Prop := fun x => ¬(x.ctx = ctx ∧ x.line = lineOf pc)
  j = { k with codeL1 := j.codeL1, latt := j.latt } ∧ j.codeLine ctx pc = some l ∧ (∀ x ∈ j.codeL1, x = l ∨ x ∈ k.codeL1 ∧ other x) ∧
  (k.codeL1.Pairwise (fun x y => ¬(x.ctx = y.ctx ∧ x.line = y.line)) →
    (∀ x ∈ k.codeL1, other x → x.locked = true → x ∈ j.codeL1) ∧
    (∀ x ∈ k.codeL1, other x → x.set ≠ l.set → x ∈ j.codeL1)) ∧
  ((k.codeL1.filter fun x => x.set == l.set).length < 8 → ∀ x ∈ k.codeL1, other x → x ∈ j.codeL1)

/-! ## The host port (R400, R402) -/

/-- The next place of a VF's event ring, in host memory. -/
def State.eventSlot (s : State) (vf : Fin 64) : Nat :=
  hostAddr ((s.vfs[vf].evq.extractLsb' 12 52).toNat * 4096 + 16 * (s.vfs[vf].evtail.toNat % 2 ^ (s.vfs[vf].evq.extractLsb' 0 4).toNat))

/-- One event of a type and status has been written to a VF's ring, its other fields meeting `ok`; a VF with no ring gets none. Nothing
else has changed but the count of free values. -/
def Posts (s u : State) (vf : Fin 64) (type status : Nat) (ok : Nat → Prop) : Prop :=
  ∃ x, ok x ∧ x < 2 ^ 128 ∧ byteField x 0 2 = type ∧ byteField x 6 2 = status ∧
    u = { s with mem := u.mem, vfs := u.vfs, fresh := u.fresh } ∧
    if s.vfs[vf].evq.extractLsb' 0 4 < 4 then u.mem = s.mem ∧ u.vfs = s.vfs
    else u.mem = Memory.putBytes s.mem (s.eventSlot vf) x 16 ∧
      u.vfs = s.vfs.set vf { s.vfs[vf] with evtail := s.vfs[vf].evtail + 1 }

/-- A VF of the state with another submission queue. -/
def State.withSq (s : State) (vf : Fin 64) (q : Fin 4) (x : SubQueue) : State :=
  { s with vfs := s.vfs.set vf { s.vfs[vf] with sqs := s.vfs[vf].sqs.set q x } }

/-- The stamp that a write through the PF's range leaves on a sector that no line holds (R398). -/
def State.stampAfter (s : State) (sector : Nat) : Layout :=
  if s.pf.hdmlay.getLsbD 6 then s.pf.hdmlay.setWidth 6
  else if (s.word sector).stamp = 0x3F ∨ (s.word sector).stamp = lostStamp then 0 else (s.word sector).stamp

end Sys2Proof.Machine
end

