-- ==== Sys2Proof/Certificates/Slice0/Obligations.lean ====
section
/-! DEFINITION. The statements for the provers, in the order of the manual: encoding, reset and invariants, scalar and control
instructions, special registers, traps, and so on through the chapters. Each docstring names the rules that it states. -/

open Sys2Proof Sys2Proof.Machine

/-! ## Encoding (R58-R72) -/

/-- O1. Words that the manual works out bit by bit decode to the instructions they stand for (R99, R59, R60, R104, R61, R58, R127,
R138, R64, R62, R229, R203, R353). -/
def Obligations.WorkedWordsDecode : Prop :=
  decode .ctl 0 0x040D41502C2B0300 0 false = .ok ⟨false, .cmp ⟨.i64, 5, .s 2, .lit 10⟩ .lt⟩ ∧
  decode .ld 0 0x08041C00FFFFFF38 0 false = .ok ⟨false, .li 7 0xFFFFFF38⟩ ∧
  decode .st 0 0x20240D04FFFFFFFB 0 false = .ok ⟨false, .bc (.cmp .ne (.s 3) (.s 4)) (-5)⟩ ∧
  decode .ex 0 0x2C30040000640005 0 false = .ok ⟨false, .loopi 1 100 5⟩ ∧
  decode .ld 0 0x4000887000000100 0 false = .ok ⟨false, .ldr ⟨2, 4, 3, .row, .none, 256⟩⟩ ∧
  decode .ex 0 0x6080030032040041 0 false = .ok ⟨false, .vadd true ⟨.v 12, .i8, 2, false, .v 3, .q 1⟩⟩ ∧
  decode .ex 0 0x700200303007000C 0 false = .ok ⟨false, .vcmpLt ⟨3, .fp32, 0, false, .v 1, .sc (.lit 0)⟩⟩ ∧
  decode .ex 0 0x7C0641007C18000C 0 false = .ok ⟨false, .vredFadd ⟨.s 4, .fp32, 0, false, .v 7, 6⟩⟩ ∧
  decode .ex 0 0xFB30000350F00074 0x0006D10000000000 false =
    .ok ⟨true, .tb true [.tmac 32 0 3, .tadd 33 112, .tpair 40 0 3, .tclr 34, .nop]⟩ ∧
  decode .ctl 0 0xC408A60124033C00 0 false = .ok ⟨false, .aowAddf32 ⟨false, 5, 6, 0, 2, 9, 0, 3, .pkg, .ar, 0⟩⟩ ∧
  decode .ctl 0 0xD000850024020010 0 false = .ok ⟨false, .cgen ⟨false, 4, 5, 0, 0, 9, 0, 2, .core, .rlx, 16⟩⟩ ∧
  decode .st 0 0xE200000000000000 0 false = .ok ⟨true, .pend⟩ ∧
  decode .ex 0 0xF230000000000000 0 false = .ok ⟨true, .yield⟩

/-- O2. A step runs the decoded instruction: where the current sequencer is ready with a fetched instruction, the step is exec of it at
that state, but for the note of the word's yp bit and of what CTL's replay log takes, its word, the constants it takes in and the value or
effect it has, and for the use of the code line (R57, R69, R223, R349, R378). Readings of the model: logs 1, 73, 97. -/
def Obligations.StepRunsDecoded : Prop :=
  ∀ (s : State) (f : Fetched), Ready s f →
    ∃ w0 w1, s.here.fetch s.here.ctx s.me.pc = some (w0, w1) ∧
      ∀ t, t = s.mod (fun k => k.touchCode k.ctx s.me.pc) →
        step s = exec f.instr { t with
          curYp := f.yp, curAgain := 0
          curLog := if t.cur.2 = .ctl then
              .word w0 :: ((f.instr.uses.c.map fun n => .value t.here.consts[n]) ++ (t.logged f.instr).toList)
            else [] }

/-- O3. Decoding what was encoded gives the instruction back, with every operand at every value the encoding admits, for every
instruction that is a word (R58-R72). -/
def Obligations.EncodeThenDecode : Prop :=
  ∀ (q : Seq) (addr : Word) (reduced : Bool) (f : Fetched), Encodable q addr reduced f →
    decode q addr (encode f).1 (encode f).2 reduced = .ok f

/-- O4. A word has one meaning: what decodes is well-formed, legal on its sequencer, and encodes to the very word that was read, so
no bit of a word is passed over (R5, R58-R72). -/
def Obligations.DecodeThenEncode : Prop :=
  ∀ (q : Seq) (addr w0 w1 : Word) (reduced : Bool) (f : Fetched), decode q addr w0 w1 reduced = .ok f →
    Encodable q addr reduced f ∧ (encode f).1 = w0 ∧ (majorOf w0 = 0x3E → (encode f).2 = w1)

/-! ## Reset and invariants -/

/-- O5. At reset memory lists nothing, memory and sector words are canonical, bring-up has not begun, and relpol has its reset value
(R374, R412). -/
def Obligations.ResetCanonical : Prop :=
  State.reset.Canon ∧ State.reset.ModeOk ∧ State.reset.mem = [] ∧ State.reset.mgst = 0 ∧ State.reset.rel.relpol = 0xE0

/-- O6. Every step keeps the canonical form of memory and of the sector words, whatever the state it starts from. -/
def Obligations.StepKeepsCanon : Prop := ∀ s t : State, s.Canon → step s = .next t → t.Canon

/-! ## Scalar instructions (R90, R98-R100) -/

/-- O7. Every scalar integer instruction completes on every sequencer: its destination takes the result of R99's table wrapped to the
type's width and extended, once landed (R95), and nothing else changes. -/
def Obligations.ScalarResults : Prop :=
  ∀ (i : Instr) (s : State) (d : Fin 32) (t : STy) (r : Int), scalarExact i s = some (d, t, r) →
    Runs i s fun u => Frame s u id ∧ Writes s u d (tyFit t r) ∧ Passes s u

/-- O8. CMP gives 1 or 0 by the condition, which alone fixes the signedness (R60, R99); LI sign-extends its immediate, and LIH
replaces the upper half of its destination (R100). -/
def Obligations.CompareAndConstants : Prop :=
  (∀ (o : S2) (c : Cond) (s : State), Runs (.cmp o c) s fun u => Frame s u id ∧ Passes s u ∧
    ∀ x, (x = (1 : Word) ∧ condTrue c (tyInt o.ty (s.src o.a)) (tyInt o.ty (s.src o.b)) (tyNat o.ty (s.src o.a)) (tyNat o.ty (s.src o.b)) ∨
        x = 0 ∧ ¬condTrue c (tyInt o.ty (s.src o.a)) (tyInt o.ty (s.src o.b)) (tyNat o.ty (s.src o.a)) (tyNat o.ty (s.src o.b))) →
      Writes s u o.dst x) ∧
  (∀ (d : Fin 32) (imm : BitVec 32) (s : State),
    Runs (.li d imm) s fun u => Frame s u id ∧ Passes s u ∧ Writes s u d (BitVec.ofInt 64 imm.toInt)) ∧
  (∀ (d : Fin 32) (imm : BitVec 32) (s : State),
    Runs (.lih d imm) s fun u => Frame s u id ∧ Passes s u ∧
      Writes s u d (BitVec.ofNat 64 (imm.toNat * 2 ^ 32 + (s.reg d).toNat % 2 ^ 32)))

/-- O9. On EX a result of latency L, issued in slot t, is what its destination holds from slot t + L on and not before; of two writes
that land in one slot the later-issued prevails, otherwise the one that landed last; a slot in which EX issues nothing is not counted
(R95). -/
def Obligations.ExposedPipeline : Prop :=
  (∀ (k : Core) (n : Fin 32) (x : Word) (lat j : Nat), n ≠ 0 → 1 ≤ lat → k.ex.pend = [] →
    ((Nat.iterate Core.nextSlot j (k.later lat (.s n x))).seq .ex).reg n = if lat ≤ j then x else (k.seq .ex).reg n) ∧
  (∀ (k : Core) (w : ExWrite) (lat : Nat),
    k.later lat w = { k with ex := { k.ex with pend := k.ex.pend ++ [⟨k.ex.slot + lat, w⟩] } }) ∧
  (∀ (s : State) (n : Fin 32) (x : Word) (lat : Nat), s.cur.2 = .ex → (s.writeS n x lat).here = s.here.later lat (.s n x)) ∧
  (∀ s : State, s.cur.2 = .ex → s.issue.here.ex.slot = s.here.ex.slot + 1) ∧
  (∀ (s : State) (w : Wait), (s.block w).here.ex = s.here.ex) ∧
  (∀ (k u : Core) (j : Nat), (∀ r ∈ k.ex.pend, k.ex.slot < r.due) → u = Nat.iterate Core.nextSlot j k →
    (∀ n : Fin 32, n ≠ 0 → let hits : ExWrite → Prop := fun w => ∃ y, w = .s n y
      (∀ p x, LandsLast k j hits p → p.w = .s n x → (u.seq .ex).reg n = x) ∧
      (LandsNone k j hits → (u.seq .ex).reg n = (k.seq .ex).reg n)) ∧
    (∀ (n : Fin 64) (b : Nat), let hits : ExWrite → Prop := fun w => ∃ en d, w = .v n en d ∧ en.getLsbD b = true
      (∀ p en d, LandsLast k j hits p → p.w = .v n en d → u.ex.v[n].getLsbD b = d.getLsbD b) ∧
      (LandsNone k j hits → u.ex.v[n].getLsbD b = k.ex.v[n].getLsbD b)) ∧
    (∀ (n : Fin 64) (b : Nat), (∀ r ∈ k.ex.pend, (∀ d, r.w ≠ .aAdd n d) ∧ ∀ f q c d, r.w = .aScale f q c d → f ≠ n ∧ q ≠ n) →
      let hits : ExWrite → Prop := fun w => ∃ en d, w = .a n en d ∧ en.getLsbD b = true
      (∀ p en d, LandsLast k j hits p → p.w = .a n en d → u.ex.a[n].getLsbD b = d.getLsbD b) ∧
      (LandsNone k j hits → u.ex.a[n].getLsbD b = k.ex.a[n].getLsbD b)) ∧
    (∀ (n : Fin 8) (b : Nat), n ≠ 0 → let hits : ExWrite → Prop := fun w => ∃ en d, w = .k n en d ∧ en.getLsbD b = true
      (∀ p en d, LandsLast k j hits p → p.w = .k n en d → u.ex.k[n].getLsbD b = d.getLsbD b) ∧
      (LandsNone k j hits → u.ex.k[n].getLsbD b = k.ex.k[n].getLsbD b)))

/-! ## Transfers of control (R101-R106, R110) -/

/-- O10. B, BC, BQ, CALL, JR and RET: where the pc goes, what they write, and that nothing else changes (R101-R103, R110). A taken B, BC
or BQ leaves the open loops that do not hold its target (R106); the others make the end test where they go (R105). BQ pops its queue
whether it branches or not. Readings of the model: log 10. -/
def Obligations.Branches : Prop :=
  (∀ (disp : BitVec 32) (s : State), Runs (.bc .al disp) s fun u =>
    Frame s u id ∧ WritesNone s u ∧ BranchesTo s u (s.me.pc + BitVec.ofInt 64 (8 * disp.toInt))) ∧
  (∀ (c : Cond) (a b : SSrc) (disp : BitVec 32) (s : State), Runs (.bc (.cmp c a b) disp) s fun u =>
    Frame s u id ∧ WritesNone s u ∧
      (condTrue c (s.src a).toInt (s.src b).toInt (s.src a).toNat (s.src b).toNat →
        BranchesTo s u (s.me.pc + BitVec.ofInt 64 (8 * disp.toInt))) ∧
      (¬condTrue c (s.src a).toInt (s.src b).toInt (s.src a).toNat (s.src b).toNat → Passes s u)) ∧
  (∀ (t b : Bool) (rest : List Bool) (disp : BitVec 32) (s : State), s.here.bqs[s.cur.2.num] = b :: rest →
    Runs (.bq t disp) s fun u =>
      FrameNoting s u (fun k => { k with bqs := k.bqs.set s.cur.2.num rest }) [.outcome s.cur.2.num b] ∧ WritesNone s u ∧
      (b = t → BranchesTo s u (s.me.pc + BitVec.ofInt 64 (8 * disp.toInt))) ∧ (b ≠ t → Passes s u)) ∧
  (∀ (l : Fin 32) (disp : BitVec 32) (s : State), Runs (.call l disp) s fun u =>
    Frame s u id ∧ Writes s u l (s.me.pc + 8) ∧ Goes s u (s.me.pc + BitVec.ofInt 64 (8 * disp.toInt))) ∧
  (∀ (l : Fin 32) (b : SSrc) (off : BitVec 32) (s : State), (s.src b + BitVec.ofInt 64 off.toInt).toNat % 8 = 0 →
    Runs (.jr l b off) s fun u => Frame s u id ∧ Writes s u l (s.me.pc + 8) ∧ Goes s u (s.src b + BitVec.ofInt 64 off.toInt)) ∧
  (∀ (b : SSrc) (s : State), (s.src b).toNat % 8 = 0 →
    Runs (.ret b) s fun u => Frame s u id ∧ WritesNone s u ∧ Goes s u (s.src b))

/-- O11. LOOP and LOOPI enter a loop or skip its body, and LEXIT leaves the top loop or does nothing; where a body is skipped or left the
end test of the loops still open runs (R104-R106). That the pc after LEXIT has bits [2:0] cleared, and that the index field of the entry
that is popped reads zero, are the model's readings (logs 13, 74). -/
def Obligations.Loops : Prop :=
  (∀ (i : Instr) (n : Fin 4) (count : BitVec 32) (off : Nat) (s : State),
    ((∃ src e, i = .loop n src e ∧ count = (s.src src).setWidth 32 ∧ off = e.toNat) ∨
      (∃ c e : BitVec 16, i = .loopi n c e ∧ count = c.setWidth 32 ∧ off = e.toNat)) →
    2 ≤ off → s.me.depth < 4 → loopBusy s.me n = false →
    Runs i s fun u => Frame s u id ∧ WritesNone s u ∧
      (count ≠ 0 → u.me.pc = s.me.pc + 8 ∧ u.me.depth = s.me.depth + 1 ∧ u.me.top = n ∧
        (∀ j, j < s.me.depth → lstkIdx u.me.lstk j = lstkIdx s.me.lstk j) ∧
        u.me.loops = s.me.loops.set n ⟨count, s.me.pc + 8, s.me.pc + BitVec.ofNat 64 (8 * off)⟩) ∧
      (count = 0 → u.me = { SeqSt.goto (s.me.setLc n 0) (s.me.pc + BitVec.ofNat 64 (8 * off)) with regs := u.me.regs, wait := .none }) ∧
      (count = 0 → NoLoop s → u.me.pc = s.me.pc + BitVec.ofNat 64 (8 * off) ∧ u.me.lstk = s.me.lstk ∧
        u.me.loops = s.me.loops.set n { s.me.loops[n] with lc := 0 })) ∧
  (∀ (src : SSrc) (s : State), 0 < s.me.depth → s.me.depth ≤ 4 →
    Runs (.lexit src) s fun u => Frame s u id ∧ WritesNone s u ∧
      (s.src src ≠ 0 → u.me = { SeqSt.goto ((s.me.setLc s.me.top 0).setDepth (s.me.depth - 1)) (s.me.loops[s.me.top].lend &&& ~~~7) with
        regs := u.me.regs, wait := .none }) ∧
      (s.src src ≠ 0 → s.me.depth = 1 → u.me.pc = s.me.loops[s.me.top].lend &&& ~~~7 ∧ u.me.depth = 0 ∧
        u.me.loops = s.me.loops.set s.me.top { s.me.loops[s.me.top] with lc := 0 }) ∧
      (s.src src = 0 → u.me = { s.me.goto (s.me.pc + 8) with regs := u.me.regs, wait := .none }))

/-- O12. The end test (R105): where the pc comes to the end of the top loop, a count of 2 or more falls by one and the pc goes back to
the body's start; a lesser one becomes 0, the entry is popped and the test goes on; elsewhere the pc alone changes. That bits [2:0] of
lbeg are cleared as the pc takes it, and that a pop clears the index field of its entry, are the model's readings (logs 74, 13). -/
def Obligations.EndTest : Prop :=
  (∀ (q : SeqSt) (a : Word), (q.depth = 0 ∨ q.loops[q.top].lend ≠ a) → q.goto a = { q with pc := a }) ∧
  (∀ (q : SeqSt) (a : Word), 0 < q.depth → q.loops[q.top].lend = a → 2 ≤ q.loops[q.top].lc.toNat →
    q.goto a = { q with pc := q.loops[q.top].lbeg &&& ~~~7,
                        loops := q.loops.set q.top { q.loops[q.top] with lc := q.loops[q.top].lc - 1 } }) ∧
  (∀ (q : SeqSt) (a : Word), 0 < q.depth → q.depth ≤ 4 → q.loops[q.top].lend = a → q.loops[q.top].lc.toNat < 2 →
    q.goto a = SeqSt.goto ((q.setLc q.top 0).setDepth (q.depth - 1)) a ∧
      ((q.setLc q.top 0).setDepth (q.depth - 1)).depth = q.depth - 1)

/-! ## Tokens, branch outcomes, constants (R107-R113) -/

/-- O13. NOP, TOKS, TOKW, TOKT, BQP and CBW complete and change what R108, R110, R111 and R113 give, alone. What LD or ST takes from a
token queue under an access that may yet fault is remembered, so that such a fault takes it back (R174, R176); TOKS leaves room for it,
and BQP waits for such accesses. Readings of the model: log 10. -/
def Obligations.TokensAndConstants : Prop :=
  (∀ s : State, Runs .nop s fun u => Frame s u id ∧ WritesNone s u ∧ Passes s u) ∧
  (∀ (t : Fin 16) (n : BitVec 6) (s : State), s.here.toks[t].toNat + n.toNat + s.here.heldTokens t ≤ 63 → s.here.performed s.cur.2 = true →
    Runs (.toks t n) s fun u => Frame s u (fun k => { k with toks := k.toks.set t (k.toks[t] + n) }) ∧ WritesNone s u ∧ Passes s u ∧
      u.here.toks[t].toNat = s.here.toks[t].toNat + n.toNat) ∧
  (∀ (t : Fin 16) (n : BitVec 6) (s : State), n.toNat ≤ s.here.toks[t].toNat →
    Runs (.tokw t n) s fun u =>
      FrameNoting s u (fun k => { k with toks := k.toks.set t (k.toks[t] - n) }) [.tokens t n] ∧ WritesNone s u ∧ Passes s u ∧
      u.here.toks[t].toNat + n.toNat = s.here.toks[t].toNat) ∧
  (∀ (d : Fin 32) (t : Fin 16) (n : BitVec 6) (s : State), n.toNat ≤ s.here.toks[t].toNat →
    Runs (.tokt d t n) s fun u =>
      FrameNoting s u (fun k => { k with toks := k.toks.set t (k.toks[t] - n) }) [.tokens t n] ∧ Writes s u d 1 ∧ Passes s u) ∧
  (∀ (d : Fin 32) (t : Fin 16) (n : BitVec 6) (s : State), s.here.toks[t].toNat < n.toNat →
    Runs (.tokt d t n) s fun u => Frame s u id ∧ Writes s u d 0 ∧ Passes s u) ∧
  (∀ (src : SSrc) (n : Fin 4) (s : State), s.here.inFlight s.cur.2 = 0 → s.here.bqRoom n = true →
    Runs (.bqp src n) s fun u => Frame s u (fun k => { k with bqs := k.bqs.set n (k.bqs[n] ++ [decide (s.src src ≠ 0)]) }) ∧
      WritesNone s u ∧ Passes s u) ∧
  (∀ (c : Fin 256) (src : SSrc) (s : State),
    Runs (.cbw c src) s fun u => Frame s u (fun k => { k with consts := k.consts.set c (s.src src) }) ∧ WritesNone s u ∧ Passes s u)

/-- O14. An instruction that waits changes nothing but what its sequencer waits for: BQ on an empty queue, TOKW and TOKS of a
counter that another sequencer can change, TOKS while what its sequencer issued before is not performed (R109), BQP on a full queue of
another, or while an access of its sequencer may yet fault, RPOP on an empty rq (R66, R108-R110, R211). Readings of the model: logs 1, 10. -/
def Obligations.WaitsLeaveAll : Prop :=
  (∀ (t : Bool) (disp : BitVec 32) (s : State), s.here.bqs[s.cur.2.num] = [] → Runs (.bq t disp) s fun u => Waits s u .bqEmpty) ∧
  (∀ (t : Fin 16) (n : BitVec 6) (s : State), s.here.toks[t].toNat < n.toNat → selfCounter t = false →
    Runs (.tokw t n) s fun u => Waits s u (.tokw t n)) ∧
  (∀ (t : Fin 16) (n : BitVec 6) (s : State), 63 < s.here.toks[t].toNat + n.toNat → selfCounter t = false →
    Runs (.toks t n) s fun u => Waits s u .other) ∧
  (∀ (t : Fin 16) (n : BitVec 6) (s : State), s.here.toks[t].toNat + n.toNat ≤ 63 →
    (s.here.performed s.cur.2 = false ∨ 63 < s.here.toks[t].toNat + n.toNat + s.here.heldTokens t) →
    Runs (.toks t n) s fun u => Waits s u .other) ∧
  (∀ (src : SSrc) (n : Fin 4) (s : State),
    (s.here.inFlight s.cur.2 ≠ 0 → Runs (.bqp src n) s fun u => Waits s u .other) ∧
    (s.here.inFlight s.cur.2 = 0 → s.here.bqRoom n = false → n ≠ s.cur.2.num →
      Runs (.bqp src n) s fun u => Waits s u (.bqFull n))) ∧
  (∀ (d : Fin 32) (tag : BitVec 5) (any : Bool) (s : State), s.here.rq = [] → Runs (.rpop d tag any) s fun u => Waits s u .rqEmpty)

/-! ## Special registers (R91, R112) -/

/-- O15. MFSR gives the value of every register that may be read, in a mode that may read it (R91, R112); where the manual gives no value the
value is free and one free value is used up (log 6). Readings of the model: logs 6, 25. -/
def Obligations.SpecialReads : Prop :=
  (∀ (d : Fin 32) (r : Spr) (x : Word) (s : State), sprReads r = true → (sprSup r = true → s.me.sup = true) → s.readSpr r = some x →
    Runs (.mfsr d r) s fun u => Frame s u id ∧ Writes s u d x ∧ Passes s u) ∧
  (∀ (d : Fin 32) (r : Spr) (s : State), sprReads r = true → (sprSup r = true → s.me.sup = true) → s.readSpr r = none →
    Runs (.mfsr d r) s fun u => u.fresh = s.fresh + 1 ∧ Frame { s with fresh := s.fresh + 1 } u id ∧ (∃ x, Writes s u d x) ∧ Passes s u)

/-- O16. MTSR writes every register that only holds its value, in a mode that may write it, with a value it takes: reading it back
gives the value, no other special register shows a change, and scalar registers and memory stand (R91, R112). Writing ycnt on EX
counts the MTSR's own slot from the value written. Readings of the model: logs 13, 25, 56. -/
def Obligations.SpecialWrites : Prop :=
  (∀ (src : SSrc) (r : Spr) (s : State), sprPlain r = true → sprWrites s.me.sup r = true → (sprSup r = true → s.me.sup = true) →
    s.sprOk r (s.src src) = true → NoLoop s → (r = .lstk → (s.src src).toNat % 8 = 0) →
    Runs (.mtsr src r) s fun u => u.readSpr r = some (sprKeeps r (s.src src)) ∧
      (∀ r', sprApart r r' = true → u.readSpr r' = s.readSpr r') ∧ WritesNone s u ∧ SameBytes s u ∧ OthersFrame s u ∧
      u.me.pc = s.me.pc + 8) ∧
  (∀ (src : SSrc) (s : State), s.me.sup = true → s.src src &&& ~~~7 = 0 → NoLoop s →
    Runs (.mtsr src .status) s fun u => u.me.inTrap = (s.src src).getLsbD 1 ∧ u.me.sup = s.me.sup ∧ u.here.req = s.here.req ∧
      WritesNone s u ∧ SameBytes s u ∧ OthersFrame s u ∧ u.me.pc = s.me.pc + 8) ∧
  (∀ (src : SSrc) (s : State), s.cur.2 = .ex → s.me.sup = true → s.me.inTrap = false → s.here.divert = none → NoLoop s →
    Runs (.mtsr src .ycnt) s fun u => u.here.ex.ycnt = (if s.curYp then 1 else s.src src + 1) ∧ WritesNone s u ∧ SameBytes s u ∧
      OthersFrame s u ∧ u.me.pc = s.me.pc + 8)

/-- O17. In user mode an access to a supervisor register, and an ERET, freeze the sequencer with its state held and add a record to
the violation log (R91, R354, R360). Readings of the model: log 25. -/
def Obligations.PrivilegeViolations : Prop :=
  (∀ (d : Fin 32) (r : Spr) (s : State), sprSup r = true → s.me.sup = false →
    Runs (.mfsr d r) s fun u => Freezes s u .privilegedRegister (BitVec.ofNat 64 r.num)) ∧
  (∀ (src : SSrc) (r : Spr) (s : State), sprSup r = true → s.me.sup = false →
    Runs (.mtsr src r) s fun u => Freezes s u .privilegedRegister (BitVec.ofNat 64 r.num)) ∧
  (∀ s : State, s.me.sup = false → Runs .eret s fun u => Freezes s u .privilegedInstruction 0)

/-! ## Traps (R348, R352, R354) -/

/-- O18. TRAP and SYS complete and trap with their cause, epc the next instruction and tval the immediate (R352, R354); ERET in a
supervisor's handler goes back to epc, restores the mode and leaves the handler (R354); its slot on EX is the handler's, so that the
count of slots stands (R350). Readings of the model: logs 12, 74. -/
def Obligations.SystemCalls : Prop :=
  (∀ (n : BitVec 16) (s : State), s.me.inTrap = false →
    Runs (.trap n) s fun u => ∃ v, v = s.issue ∧ Traps v u .softwareTrap (s.me.pc + 8) (n.setWidth 64)) ∧
  (∀ (n : BitVec 16) (s : State), s.me.inTrap = false →
    Runs (.sys n) s fun u => ∃ v, v = s.issue ∧ Traps v u .systemCall (s.me.pc + 8) (n.setWidth 64)) ∧
  (∀ s : State, s.me.sup = true → s.me.inTrap = true → NoLoop s →
    Runs .eret s fun u => OnlyCore s.cur.1 s u ∧ OthersFrame s u ∧ SameBytes s u ∧ WritesNone s u ∧ u.here.ex.ycnt = s.here.ex.ycnt ∧
      u.me = { s.me with pc := s.me.epc &&& ~~~7, sup := s.me.psup, inTrap := false, wait := .none, regs := u.me.regs })

/-- O19. Execution traps outside a handler: a jump to a target that is no multiple of 8, a fifth loop, a loop on a busy counter, LEXIT
with no loop, a self-counter beyond its range, a push to one's own full branch queue, ERET outside a handler, a reply of another tag,
an MTSR of a value that the register does not take; epc is the instruction, tval 0 (R103, R104, R106, R108, R110, R112, R211, R352).
Readings of the model: log 25. -/
def Obligations.ExecutionTraps : Prop :=
  ∀ s : State, s.me.inTrap = false →
    (∀ l b off, (s.src b + BitVec.ofInt 64 (off : BitVec 32).toInt).toNat % 8 ≠ 0 →
      Runs (.jr l b off) s fun u => Traps s u .misalignedTarget s.me.pc 0) ∧
    (∀ b, (s.src b).toNat % 8 ≠ 0 → Runs (.ret b) s fun u => Traps s u .misalignedTarget s.me.pc 0) ∧
    (∀ n src e, s.me.depth = 4 → Runs (.loop n src e) s fun u => Traps s u .loopDepth s.me.pc 0) ∧
    (∀ n src e, s.me.depth ≠ 4 → loopBusy s.me n = true → Runs (.loop n src e) s fun u => Traps s u .loopCounterBusy s.me.pc 0) ∧
    (∀ n c e, s.me.depth = 4 → Runs (.loopi n c e) s fun u => Traps s u .loopDepth s.me.pc 0) ∧
    (∀ n c e, s.me.depth ≠ 4 → loopBusy s.me n = true → Runs (.loopi n c e) s fun u => Traps s u .loopCounterBusy s.me.pc 0) ∧
    (∀ src, s.me.depth = 0 → Runs (.lexit src) s fun u => Traps s u .loopDepth s.me.pc 0) ∧
    (∀ t n, selfCounter t = true → 63 < s.here.toks[t].toNat + n.toNat →
      Runs (.toks t n) s fun u => Traps s u .tokenOverflow s.me.pc 0) ∧
    (∀ t n, selfCounter t = true → s.here.toks[t].toNat < n.toNat →
      Runs (.tokw t n) s fun u => Traps s u .tokenUnderflow s.me.pc 0) ∧
    (∀ src, s.here.inFlight s.cur.2 = 0 → s.here.bqRoom s.cur.2.num = false →
      Runs (.bqp src s.cur.2.num) s fun u => Traps s u .branchQueueOverflow s.me.pc 0) ∧
    (s.me.sup = true → Runs .eret s fun u => Traps s u .notInTrap s.me.pc 0) ∧
    (∀ d tag r rest, s.here.rq = r :: rest → r.tag ≠ tag → Runs (.rpop d tag false) s fun u => Traps s u .replyTagMismatch s.me.pc 0) ∧
    (∀ src r, (sprSup r = true → s.me.sup = true) → (sprWrites s.me.sup r = false ∨ s.sprOk r (s.src src) = false) →
      Runs (.mtsr src r) s fun u => Traps s u .reservedOperand s.me.pc 0)

/-- O20. What goes before an instruction: a decode trap gives the word as tval, the yield bound gives the count and clears it, a
severity gives the address of the first classed sector, an engine fault gives CTL the cause and the command's pc; and where a trap
arises in a handler, no trap is taken and the sequencer is frozen for a double trap (R81, R308, R348, R352, R375). Readings of the
model: logs 68, 73. -/
def Obligations.TrapsBeforeInstructions : Prop :=
  (∀ (c : Cause) (w : Word) (s : State), s.me.inTrap = false → Runs (.decodeTrap c w) s fun u => Traps s u c s.me.pc w) ∧
  (∀ (c : Cause) (w : Word) (s : State), s.me.inTrap = true → Runs (.decodeTrap c w) s fun u => Freezes s u .doubleTrap 0) ∧
  (∀ s : State, s.cur.2 = .ex → s.me.inTrap = false →
    Runs .yieldBoundExceeded s fun u => u.here.ex.ycnt = 0 ∧
      Traps (s.mod fun k => { k with ex := { k.ex with ycnt := 0 } }) u .yieldBoundExceeded s.me.pc s.here.ex.ycnt) ∧
  (∀ (c : Cause) (va : Word) (s : State), s.me.inTrap = false → s.me.sevTrap = some (c, va) →
    Runs .severityTrap s fun u => Traps (s.modMe fun q => { q with sevTrap := none, copy := none, gvi := none }) u c s.me.pc va) ∧
  (∀ (c : Cause) (m : EngCmd) (s : State), s.cur.2 = .ctl → s.me.inTrap = false → s.here.gath.halted = some c → s.here.gath.cur = some m →
    Runs .engineFaultDelivery s fun u => Traps ((s.mod fun k => { k with engFault := false }).modMe fun q => { q with copy := none, gvi := none }) u c s.me.pc m.pc) ∧
  (∀ (c : Cause) (va : Word) (s : State), s.me.inTrap = true → s.me.sevTrap = some (c, va) →
    Runs .severityTrap s fun u => Freezes (s.modMe fun q => { q with sevTrap := none, copy := none, gvi := none }) u .doubleTrap 0) ∧
  (∀ (c : Cause) (m : EngCmd) (s : State), s.cur.2 = .ctl → s.me.inTrap = true → s.here.gath.halted = some c → s.here.gath.cur = some m →
    Runs .engineFaultDelivery s fun u => Freezes ((s.mod fun k => { k with engFault := false }).modMe fun q => { q with copy := none, gvi := none }) u .doubleTrap 0)

/-! ## Lanes (R76, R114-R145) -/

/-- O21. The integer, logic and shift instructions on lanes complete on EX with the results of R123 and R124, each lane alone,
through WriteLanes (R76), with the latencies of R121. -/
def Obligations.LaneIntegers : Prop :=
  ∀ (i : Instr) (op : LaneOp) (s : State) (vs : List VVal) (k : Core), laneInts i = some op → s.cur.2 = .ex → i.wf = true →
    s.here.readAll op.srcs = some (vs, k) → tagsOk op.tag vs = true → s.here.dstRoom op.dst = true →
    Runs i s fun u => LaneDone s u k op.dst op.lat (op.out s.here vs)

/-- O22. The float instructions on lanes, the transcendentals and VCLS complete on EX with the results of R125, R126, R140 and R141: one
rounding of the exact value, with the latencies of R121. The algorithm by which VEXP2 and VLOG2 come to theirs is the model's (log 72,
PRESUMED). Readings of the model: logs 29, 72. -/
def Obligations.LaneFloats : Prop :=
  ∀ (i : Instr) (op : LaneOp) (s : State) (vs : List VVal) (k : Core), laneFloats i = some op → s.cur.2 = .ex → i.wf = true →
    s.here.readAll op.srcs = some (vs, k) → tagsOk op.tag vs = true → s.here.dstRoom op.dst = true →
    Runs i s fun u => LaneDone s u k op.dst op.lat (op.out s.here vs)

/-- O23. Moves, selects, broadcasts and permutes complete on EX: each lane takes the lane of a source that R129-R131 name. How a broadcast
form of a source reads is the model's reading (log 23). Readings of the model: logs 23, 26. -/
def Obligations.LaneMoves : Prop :=
  ∀ (i : Instr) (op : LaneOp) (s : State) (vs : List VVal) (k : Core), laneMoves i s = some op → s.cur.2 = .ex → i.wf = true →
    s.here.readAll op.srcs = some (vs, k) → tagsOk op.tag vs = true → s.here.dstRoom op.dst = true →
    Runs i s fun u => LaneDone s u k op.dst op.lat (op.out s.here vs)

/-- O24. AMOV, ACLR and ACVT complete on EX, lane by lane of the accumulator (R143-R145). Readings of the model: logs 26, 27. -/
def Obligations.Accumulators : Prop :=
  ∀ (i : Instr) (op : LaneOp) (s : State) (vs : List VVal) (k : Core), laneAccs i = some op → s.cur.2 = .ex → i.wf = true →
    s.here.readAll op.srcs = some (vs, k) → tagsOk op.tag vs = true → s.here.dstRoom op.dst = true →
    Runs i s fun u => LaneDone s u k op.dst op.lat (op.out s.here vs)

/-- O25. VCVT, VBSC, VPACK and VUNPK complete on EX: parts, block scales and packed elements as R132-R137 lay them out.
Readings of the model: logs 23, 26, 29. -/
def Obligations.LaneConversions : Prop :=
  ∀ (i : Instr) (op : LaneOp) (s : State) (vs : List VVal) (k : Core), laneBlocks i = some op → s.cur.2 = .ex → i.wf = true →
    s.here.readAll op.srcs = some (vs, k) → tagsOk op.tag vs = true → s.here.dstRoom op.dst = true →
    Runs i s fun u => LaneDone s u k op.dst op.lat (op.out s.here vs)

/-- O26. A reduction combines the active lanes of each segment by the pairwise tree (R44, R138): every lane of a segment takes its
result, a scalar destination takes lane 0's, extended by the type. Readings of the model: logs 23, 29. -/
def Obligations.Reductions : Prop :=
  ∀ (i : Instr) (o : VRed) (f : Nat → Nat → Nat) (empty : Nat) (s : State) (vs : List VVal) (k : Core),
    redCombine i = some (o, f, empty) → s.cur.2 = .ex → i.wf = true → s.here.readAll [o.a] = some (vs, k) →
    tagsOk (some o.ty) vs = true →
    (∀ d, o.dst = .lanes d → s.here.dstRoom d = true →
      Runs i s fun u => LaneDone s u k d (if o.wide then 7 else 6)
        (writeLanes o.ty.width (redLanes o) (s.here.mask o.mask).getLsbD o.mz (redResult o f empty s.here vs)
          ((vs.headD (.word 0)).lane o.ty) (ltyTag o.ty))) ∧
    (∀ d, o.dst = .s d →
      Runs i s fun u => ScalarDone s u k d (if o.wide then 7 else 6)
        (if o.ty.isSigned then BitVec.ofInt 64 (laneNum o.ty (redResult o f empty s.here vs 0))
          else BitVec.ofNat 64 (redResult o f empty s.here vs 0)))

/-- O27. VMAXI gives in every lane of a segment the number of its first greatest active lane, and all ones where none is active
(R139). How a broadcast form of its source reads is the model's reading (log 23). -/
def Obligations.MaxWithIndex : Prop :=
  ∀ (o : VRed) (s : State) (vs : List VVal) (k : Core) (res : Nat → Nat), s.cur.2 = .ex → Instr.wf (.vmaxi o) = true →
    s.here.readAll [o.a] = some (vs, k) → tagsOk (some o.ty) vs = true →
    (∀ l, l < redLanes o → (∀ j, IsWinner o s.here ((vs.headD (.word 0)).lane o.ty) l j → res l = j) ∧
      ((¬∃ j, IsWinner o s.here ((vs.headD (.word 0)).lane o.ty) l j) → res l = 2 ^ o.ty.width - 1)) →
    (∀ d, o.dst = .lanes d → s.here.dstRoom d = true →
      Runs (.vmaxi o) s fun u => LaneDone s u k d (if o.wide then 8 else 7)
        (writeLanes o.ty.width (redLanes o) (s.here.mask o.mask).getLsbD o.mz res ((vs.headD (.word 0)).lane o.ty) (ltyTag o.ty))) ∧
    (∀ d, o.dst = .s d →
      ((∃ j, IsWinner o s.here ((vs.headD (.word 0)).lane o.ty) 0 j) →
        Runs (.vmaxi o) s fun u => ScalarDone s u k d (if o.wide then 8 else 7) (BitVec.ofNat 64 (res 0))) ∧
      ((¬∃ j, IsWinner o s.here ((vs.headD (.word 0)).lane o.ty) 0 j) →
        Runs (.vmaxi o) s fun u => ScalarDone s u k d (if o.wide then 8 else 7) (BitVec.allOnes 64)))

/-- O28. VCMP sets the bits of active lanes by its test and clears those beyond the view (R127); KAND, KOR, KXOR, KNOT and KMOV
write all 256 bits, and KPOPC counts them (R128). -/
def Obligations.Masks : Prop :=
  (∀ (i : Instr) (o : VCmp) (test : LTy → Nat → Nat → Bool) (s : State) (vs : List VVal) (k : Core),
    laneCompare i = some (o, test) → s.cur.2 = .ex → i.wf = true → s.here.readAll [o.x, o.y] = some (vs, k) →
    tagsOk (some o.ty) vs = true →
    Runs i s fun u => MaskDone s u k o.kd (if o.wide then 3 else 2) fun l =>
      if (if o.wide then 256 else o.ty.lanes) ≤ l then some false
      else if (s.here.mask o.mask).getLsbD l then
        some (test o.ty ((vs.getD 0 (.word 0)).lane o.ty l) ((vs.getD 1 (.word 0)).lane o.ty l))
      else if o.mz then some false else none) ∧
  (∀ (i : Instr) (d : Fin 8) (bit : Nat → Bool) (s : State), maskLogic i s.here = some (d, bit) → s.cur.2 = .ex →
    Runs i s fun u => MaskDone s u s.here d 1 fun l => some (bit l)) ∧
  (∀ (d : Fin 32) (a : Fin 8) (s : State), s.cur.2 = .ex →
    Runs (.kpopc d a) s fun u => ScalarDone s u s.here d 2
      (BitVec.ofNat 64 ((List.range 256).countP fun l => (s.here.mask a).getLsbD l)))

/-- O29. VBQ pushes one outcome, whether all or any of the active lanes are nonzero, into its branch queue 2 clk later, or 3 in the
wide form (R119, R121, R142). -/
def Obligations.BranchOutcomes : Prop :=
  ∀ (t : LTy) (mask : Fin 8) (x : VSrc) (n : Fin 4) (all : Bool) (s : State) (vs : List VVal) (k : Core), s.cur.2 = .ex →
    Instr.wf (.vbq t mask x n all) = true → s.here.bqRoom n = true → s.here.readAll [x] = some (vs, k) →
    tagsOk (some t) vs = true →
    Runs (.vbq t mask x n all) s fun u => EXFrame s u ∧ WritesNone s u ∧ Passes s u ∧
      u.here = { k with seqs := u.here.seqs, ex := u.here.ex } ∧
      (s.here.ex.pend = [] → u.here.settle.ex.v = s.here.ex.v ∧ u.here.settle.ex.a = s.here.ex.a ∧
        u.here.settle.ex.k = s.here.ex.k) ∧
      ∃ b : Bool, u.here.ex.pushes = s.here.ex.pushes ++ [⟨s.clk + (if wideOf [x.k00] then 3 else 2), .bit n b⟩] ∧
        (all = true → (b = true ↔ ∀ l, l < (if wideOf [x.k00] then 256 else t.lanes) → (s.here.mask mask).getLsbD l = true →
          laneNonzero t ((vs.headD (.word 0)).lane t l) = true)) ∧
        (all = false → (b = true ↔ ∃ l, l < (if wideOf [x.k00] then 256 else t.lanes) ∧ (s.here.mask mask).getLsbD l = true ∧
          laneNonzero t ((vs.headD (.word 0)).lane t l) = true))

/-- O30. An instruction on lanes waits for the entries it pops and for room in its destination, with nothing popped; an entry of
another layout traps, and nothing is popped (R66, R120). EX issues at most one instruction per clk, and a wide transcendental holds it
for 3 clk more, in which no slot is counted (R121). -/
def Obligations.LaneWaits : Prop :=
  (∀ s : State, s.cur.2 = .ex → s.issue.here.ex.free = max s.here.ex.free (s.clk + 1)) ∧
  (∀ (i : Instr) (o : V1) (s : State) (vs : List VVal) (k : Core), (i = .vexp2 o ∨ i = .vlog2 o ∨ i = .vrcp o ∨ i = .vrsq o) →
    s.cur.2 = .ex → s.here.readAll [o.a] = some (vs, k) → tagsOk (some o.ty) vs = true → s.here.dstRoom o.dst = true →
    Runs i s fun u => u.here.ex.free = max s.here.ex.free (s.clk + if o.wide then 4 else 1)) ∧
  (∀ s : State, s.cur.2 = .ex → s.clk < s.here.ex.free → s.diverts s.cur.1 = false →
    s.turn = (s, none) ∧ (s.agenda = [] → step s = .next (s.elapse 1))) ∧
  ∀ (i : Instr) (op : LaneOp) (s : State), (laneInts i = some op ∨ laneFloats i = some op ∨ laneMoves i s = some op ∨
      laneAccs i = some op ∨ laneBlocks i = some op) → s.cur.2 = .ex → i.wf = true →
    (s.here.readAll op.srcs = none → Runs i s fun u => Waits s u (.queueEmpty (popsOf op.srcs))) ∧
    (∀ vs k n, s.here.readAll op.srcs = some (vs, k) → op.dst = .q n → s.here.room (dstQueue n) = false →
      Runs i s fun u => Waits s u (.destFull (dstQueue n))) ∧
    (∀ vs k, s.here.readAll op.srcs = some (vs, k) → s.here.dstRoom op.dst = true → tagsOk op.tag vs = false → s.me.inTrap = false →
      Runs i s fun u => Traps s u .layoutMismatch s.me.pc 0)

/-! ## Term bundles and splices (R250-R259) -/

/-- O31. TB completes in one slot: its writes land three slots later in slot order, from sources as they stood at issue, the pc goes
16 bytes on, and with the marker bit tsa takes the bundle's address (R250-R256). -/
def Obligations.TermBundles : Prop :=
  ∀ (tsm : Bool) (slots : List Sys2Proof.Slot) (s : State), s.cur.2 = .ex →
    Runs (.tb tsm slots) s fun u => EXFrame s u ∧ WritesNone s u ∧ Goes s u (s.me.pc + 16) ∧
      u.here = { s.here with seqs := u.here.seqs, ex := u.here.ex } ∧ u.here.ex.pushes = s.here.ex.pushes ∧
      u.here.ex.splret = s.here.ex.splret ∧ u.here.ex.tsa = (if tsm then s.me.pc else s.here.ex.tsa) ∧
      (s.here.ex.pend = [] → (∀ p ∈ u.here.ex.pend, p.due = s.here.ex.slot + 3) ∧ u.here.settle.ex.v = s.here.ex.v ∧
        u.here.settle.ex.k = s.here.ex.k ∧
        ∀ (n : Fin 64) (l : Nat), l < 256 → laneOf u.here.settle.ex.a[n].toNat 32 l =
          slots.foldl (termSlot s.here.ex) (fun n l => laneOf s.here.ex.a[n].toNat 32 l) n l)

/-- O32. SPLC returns from a page where splret marks it, enters the page that the splice directory gives for its block, as its core's LATT
read it, and is no more than a NOP where none is given (R257-R259). Readings of the model: log 96. -/
def Obligations.Splices : Prop :=
  ∀ s : State, s.cur.2 = .ex →
    ((s.here.ex.splret.getLsbD 0 = true ∨ (s.spliceOf s.cur.1 s.here.ctx (s.me.pc &&& ~~~0xFFFF)).isSome = true) →
      Runs .splc s fun u => EXFrame s u ∧ WritesNone s u ∧ u.here = { s.here with seqs := u.here.seqs, ex := u.here.ex } ∧
        u.here.ex.pushes = s.here.ex.pushes ∧ u.here.ex.tsa = s.here.ex.tsa ∧
        (s.here.ex.pend = [] → u.here.settle.ex.v = s.here.ex.v ∧ u.here.settle.ex.a = s.here.ex.a ∧
          u.here.settle.ex.k = s.here.ex.k) ∧
        (s.here.ex.splret.getLsbD 0 = true → u.here.ex.splret = 0 ∧ Goes s u (s.here.ex.splret &&& ~~~7)) ∧
        (∀ page, s.here.ex.splret.getLsbD 0 = false → s.spliceOf s.cur.1 s.here.ctx (s.me.pc &&& ~~~0xFFFF) = some page →
          u.here.ex.splret = (s.me.pc + 8) ||| 1 ∧ Goes s u page)) ∧
    (s.here.ex.splret.getLsbD 0 = false → s.spliceOf s.cur.1 s.here.ctx (s.me.pc &&& ~~~0xFFFF) = none →
      Runs .splc s fun u => Frame s u id ∧ WritesNone s u ∧ Passes s u)

/-! ## Stages (R337-R339) -/

/-- O33. DEFER reserves places in its stage's queue and records the active lanes for the phase's end; with no lane active it does
nothing; beyond the depth it traps, and without room it waits (R338). DRAIN takes up to 256 entries into 16 rows and gives how many, and
whether the flush is used up; it waits as its mode says (R339), and for LD's loads in flight, which may yet fault. Readings of the model:
logs 10, 53. -/
def Obligations.StageQueues : Prop :=
  (∀ (mask : Fin 8) (stage : Fin 32) (t a g : Fin 64) (s : State) (n : Nat), s.cur.2 = .ex → n = (s.reg stage).toNat →
    (s.stageCount s.cur.1 ≤ n → s.me.inTrap = false →
      Runs (.defer mask stage t a g) s fun u => Traps s u .reservedOperand s.me.pc 0) ∧
    (n < s.stageCount s.cur.1 → deferred s.here (s.here.mask mask) t a g = [] →
      Runs (.defer mask stage t a g) s fun u => Frame s u id ∧ WritesNone s u ∧ Passes s u) ∧
    (∀ r q m, n < s.stageCount s.cur.1 → s.stageRec s.cur.1 n = some (r, q) →
      m = (deferred s.here (s.here.mask mask) t a g).length → 0 < m →
      (r.depth < m + s.here.ownReserved n → s.me.inTrap = false →
        Runs (.defer mask stage t a g) s fun u => Traps s u .deferralOverflow s.me.pc 0) ∧
      (m + s.here.ownReserved n ≤ r.depth → r.depth < q.entries.length + q.reserved + m →
        Runs (.defer mask stage t a g) s fun u => Waits s u .other) ∧
      (m + s.here.ownReserved n ≤ r.depth → q.entries.length + q.reserved + m ≤ r.depth →
        Runs (.defer mask stage t a g) s fun u => ∃ es, es.map BitVec.toNat = deferred s.here (s.here.mask mask) t a g ∧
          Frame (s.onStage s.cur.1 n fun q => { q with reserved := q.reserved + m }) u
            (fun k => { k with fx := k.fx ++ [.defer n es] }) ∧ WritesNone s u ∧ Passes s u))) ∧
  (∀ (dst : Fin 32) (mode : DrainMode) (off : BitVec 32) (s : State) (st : Strand) (r : Nat) (rec : StageRec) (q : StageQ),
    s.errs = [] → s.cur.2 = .ld → s.here.strand = some st → s.stageRec s.cur.1 st.stage = some (rec, q) → off.extractLsb' 26 6 = 0 →
    r = (off.extractLsb' 8 11).toNat → r + 16 ≤ st.rows → r + 16 ≤ 2048 → (∀ i, i < 16 → s.here.rowBusy (r + i) = false) →
    ((mode = .full ∧ q.flushed = false ∧ q.entries.length < min 256 rec.depth ∨
        mode = .any ∧ q.flushed = false ∧ q.entries = []) → Runs (.drain dst mode off) s fun u => Waits s u (.drain mode)) ∧
    (drainWaits mode rec.depth q.entries.length q.flushed = false → s.here.inFlight .ld ≠ 0 →
      Runs (.drain dst mode off) s fun u => Waits s u .other) ∧
    (s.here.inFlight .ld = 0 → (mode = .attempt ∨ q.flushed = true ∨ mode = .full ∧
      min 256 rec.depth ≤ q.entries.length ∨ mode = .any ∧ q.entries ≠ []) →
      Runs (.drain dst mode off) s fun u => ∃ last : Bool, (last = true ↔ q.flushed = true ∧ q.entries.length ≤ 256) ∧
        Frame (s.onStage s.cur.1 st.stage fun q => { q with entries := q.entries.drop 256, flushed := q.flushed && !last }) u
          (fun k => { k with pad := u.here.pad }) ∧
        Writes s u dst (BitVec.ofNat 64 (min 256 q.entries.length + if last then 2 ^ 16 else 0)) ∧ Passes s u ∧
        Drained u.here r (q.entries.take 256) ∧ ∀ i, i < r ∨ r + 16 ≤ i → u.here.padAt i = s.here.padAt i))

/-! ## Accesses (R146-R176) -/

/-- O34. An access that passes its checks has the effective address of R153, below 2^48, in a page that grants it (R146-R148), and
making it out changes the core's TLB alone; the checks of an entry are those of R148 (2 to 5), a fill being asked for where the
first touch of the row at that address in a window will make one.
Readings of the model: logs 30, 32. -/
def Obligations.AccessPlans : Prop :=
  (∀ (kind : Kind) (base : Fin 32) (sh : Fin 16) (gran : Gran) (off : BitVec 32) (s v : State) (a : AccessPlan),
    s.plan kind base sh gran off = (v, .ok a) →
    v = s.mod (fun k => { k with tlb := v.here.tlb }) ∧ a.ea = s.eaOf base sh off a.fmt.conv ∧ a.ea.toNat < 2 ^ 48 ∧
      (∃ big, a.pa = leafPa a.pte big a.ea) ∧
      ∀ fill, fill = (kind.stash && (a.rows.any fun t => t.va == a.ea &&& ~~~0xFF) && s.here.fillsAt a.ea && kind != .strm) →
        accessCheck a.pte (vfOf s.here.ctx) s.me.sup ⟨!kind.store || fill, kind.store, fill⟩ = .ok) ∧
  (∀ (pte : Word) (vf : Fin 64) (sup : Bool) (n : Need),
    (accessCheck pte vf sup n = .ok ↔ (pteSuper pte = true → sup = true) ∧ (pteOwner pte).toFin = vf ∧
      (n.read = true → pteRead pte = true) ∧ (n.write = true → pteWrite pte = true ∧ pteIsCode pte = false) ∧
      (n.fill = true → pteStash pte = true)) ∧
    (accessCheck pte vf sup n = .violation .supervisorPage ↔ pteSuper pte = true ∧ sup = false) ∧
    (accessCheck pte vf sup n = .fault .stashNotAllowed → n.fill = true ∧ pteStash pte = false))

/-- O35. How an access stops before it has an effect: with any of bits 63 to 48 of its address set it traps "address out of range"
(R146); where its checks stop it, it traps or its sequencer is frozen, as they say (R148), and PREF is dropped (R171).
Readings of the model: logs 30, 31. -/
def Obligations.AccessStops : Prop :=
  (∀ (i : Instr) (kind : Kind) (o : MOp) (s : State), accessOf i = some (kind, o) → AccessFree kind o s → s.me.inTrap = false →
    (s.here.shape o.sh).bad = false → (s.here.shape o.sh).stream = false → 2 ^ 48 ≤ (s.eaOf o.base o.sh o.off false).toNat →
    Runs i s fun u => Traps s u .addressOutOfRange s.me.pc (s.eaOf o.base o.sh o.off false)) ∧
  (∀ (i : Instr) (kind : Kind) (o : MOp) (s v : State), accessOf i = some (kind, o) → AccessFree kind o s →
    (∀ c tval, s.plan kind o.base o.sh o.gran o.off = (v, .error (.trap c tval)) → v.me.inTrap = false →
      Runs i s fun u => Traps v u c s.me.pc tval) ∧
    (∀ k tval, s.plan kind o.base o.sh o.gran o.off = (v, .error (.violation k tval)) →
      Runs i s fun u => Freezes v u k tval) ∧
    (∀ w, s.plan kind o.base o.sh o.gran o.off = (v, .error (.wait w)) → Runs i s fun u => Waits v u w)) ∧
  (∀ (base : Fin 32) (sh : Fin 16) (gran : Gran) (hint : Hint) (off : BitVec 32) (s v : State) (e : Stop),
    s.here.shapePending s.cur.2 sh = false → s.plan .pref base sh gran off = (v, .error e) → (∀ w, e ≠ .wait w) →
    Runs (.pref base sh gran hint off) s fun u => Frame v u id ∧ WritesNone v u ∧ Passes v u)

/-- O36. LDR, LDL, LDS, SHLD and PREF complete: a load claims room in its queue and joins those in flight; LDR and an access in a
window touch the stash, the others ask the slices of their lines, and wait where one has no entry left; a STREAM shape's cursor goes on
(R153, R155, R158, R165, R167, R171, R179). What an instruction pops, or changes of a shape register, is remembered while an earlier
access may yet fault (R174, R176). Readings of the model: logs 10, 32, 35, 37. -/
def Obligations.MemoryLoads : Prop :=
  (∀ (o : MOp) (s v w : State) (a : AccessPlan), AccessFree .ldr o s → s.plan .ldr o.base o.sh o.gran o.off = (v, .ok a) →
    v.used.touchPlan true o.hint a = (w, .ok) →
    Runs (.ldr o) s fun u => LoadJoins w u s.fresh a o (.stash (a.rows.map fun t => (t.va, t.pa)))) ∧
  (∀ (i : Instr) (kind : Kind) (o : MOp) (s v : State) (a : AccessPlan) (ps : List Part) (rs : List SliceReq),
    (i = .ldl o ∧ kind = .ldl ∨ i = .lds o ∧ kind = .lds) → AccessFree kind o s →
    s.plan kind o.base o.sh o.gran o.off = (v, .ok a) →
    ps = (if pteDiscard a.pte = 1 then [] else partsOf a kind o.gran) → rs = partReqs v s.fresh a.fmt.page o.hint ps →
    (v.fullSlice s.cur.1 rs = none → Runs i s fun u => LoadJoins (v.used.askSlices rs) u s.fresh a o (.lines ps)) ∧
    (∀ n, v.fullSlice s.cur.1 rs = some n → Runs i s fun u => Waits v.used u (.slice n))) ∧
  (∀ (sh : Fin 16) (q : Fin 16) (e : QEntry) (rest : List QEntry) (s : State), s.here.shapePending s.cur.2 sh = false →
    s.here.shapeUsed s.cur.2 sh = false → s.here.queues[q].entries = e :: rest →
    Runs (.shld sh (.queue q)) s fun u =>
      FrameNoting s u (fun k => { k.onQueue q DQueue.pop with shapes := u.here.shapes })
        [.entry q e, .shape sh (.whole (u.here.shape sh)) (s.here.shape sh)] ∧ WritesNone s u ∧ Passes s u ∧
        (∀ n, n ≠ sh → u.here.shape n = s.here.shape n) ∧
        ∀ j : Fin 8, (u.here.shape sh)[j] = BitVec.ofNat 64 (laneOf e.data.toNat 64 j.val)) ∧
  (∀ (sh : Fin 16) (base : Fin 32) (off : BitVec 32) (s : State) (p : Word) (big : Bool) (v w : State) (va : Word) (pa : Nat)
      (a : AccessPlan),
    s.here.shapePending s.cur.2 sh = false → s.here.shapeUsed s.cur.2 sh = false → s.here.accessRoom s.cur.2 = true →
    va = s.reg base + BitVec.ofInt 64 off.toInt → va.toNat < 2 ^ 48 → s.translate va = (v, .leaf p big) → pa = leafPa p big va →
    v.dieOut pa = false →
    a = ⟨va, pa, p, ⟨pteCode p, pteCode p, false, 0, 0, 0, false, false, 0⟩,
      [⟨rowOf va, pa / 256 * 256, pteCode p, pteDiscard p == 1⟩]⟩ →
    ((s.here.windowOf va).isSome = true →
      accessCheck p (vfOf s.here.ctx) s.me.sup ⟨true, false, s.here.fillsAt va⟩ = .ok →
      v.used.touchAll s.cur.1 s.cur.2 s.me.pc true .none a.rows = (w, .ok) →
      Runs (.shld sh (.mem base off)) s fun u => WritesNone w u ∧ Passes w u ∧
        Frame w u (fun k => { k with loads := k.loads ++
          [mkLoad w s.fresh a .row (.shape sh) (.stash [(rowOf va, pa / 256 * 256)]) none] })) ∧
    (∀ ps rs, s.here.windowOf va = none → accessCheck p (vfOf s.here.ctx) s.me.sup ⟨true, false, false⟩ = .ok →
      ps = (if pteDiscard p = 1 then [] else [⟨va &&& ~~~0x7F, pa / 128 * 128, if va.getLsbD 6 then 0xC else 0x3, .asked⟩]) →
      rs = partReqs v s.fresh (pteCode p) .none ps → v.fullSlice s.cur.1 rs = none →
      Runs (.shld sh (.mem base off)) s fun u => WritesNone v u ∧ Passes v u ∧
        Frame (v.used.askSlices rs) u (fun k => { k with loads := k.loads ++
          [mkLoad v s.fresh a .row (.shape sh) (.lines ps) none] }))) ∧
  (∀ (base : Fin 32) (sh : Fin 16) (gran : Gran) (hint : Hint) (off : BitVec 32) (s v w : State) (a : AccessPlan),
    s.here.shapePending s.cur.2 sh = false → s.plan .pref base sh gran off = (v, .ok a) →
    ((v.here.windowOf a.ea).isSome = true ∧ v.touchAll s.cur.1 s.cur.2 s.me.pc true hint a.rows = (w, .ok) ∨
      v.here.windowOf a.ea = none ∧ v.fullSlice s.cur.1 (v.prefReqs a gran hint) = none ∧ w = v.used.askSlices (v.prefReqs a gran hint)) →
    Runs (.pref base sh gran hint off) s fun u =>
      Frame w u (fun k => { k with shapes := u.here.shapes, undo := u.here.undo }) ∧ CursorMoves w u w.fresh sh a.fmt ∧
        WritesNone w u ∧ Passes w u)

/-- O37. STR, STL and STRM complete: an entry whose tag agrees or is RAW is taken, the rows are touched (STRM fills nothing), and the
store joins those in flight without popping (R158, R160, R165, R172); a store to a discarded page touches its rows too, and is to be
dropped (R149); an entry of another layout traps (R160). A BMV store is checked whole at issue, with no earlier store in flight and its
rows at hand, and waits for both (R162); a row of its that was refused for its layout traps (R148).
Readings of the model: logs 30, 31, 32, 33, 34, 37. -/
def Obligations.MemoryStores : Prop :=
  ∀ (i : Instr) (kind : Kind) (o : MOp) (s v : State) (e : QEntry) (a : AccessPlan), accessOf i = some (kind, o) →
    kind.store = true → AccessFree kind o s → s.here.entryFor o.q = some e → s.plan kind o.base o.sh o.gran o.off = (v, .ok a) →
    (e.tag ≠ 0 → e.tag ≠ a.fmt.code.setWidth 8 → v.me.inTrap = false → Runs i s fun u => Traps v u .layoutMismatch s.me.pc a.ea) ∧
    ((e.tag = 0 ∨ e.tag = a.fmt.code.setWidth 8) →
      ∀ bmv, bmv = (a.fmt.conv && isBmv a.fmt.page) →
        (bmv = true → v.here.stores ≠ [] → Runs i s fun u => Waits v u .other) ∧
        (bmv = true → v.here.stores = [] → (∃ t ∈ a.rows, v.here.refusedAt t.va = true) → v.me.inTrap = false →
          Runs i s fun u => Traps (v.mod Core.dropRefused) u .layoutMismatch s.me.pc a.ea) ∧
        ∀ w : State, (bmv = true → v.here.stores = [] ∧ ∀ t ∈ a.rows, v.here.refusedAt t.va = false) →
          v.touchPlan (kind != .strm) o.hint a = (w, .ok) →
          ((bmv = false ∨ pteDiscard a.pte = 1) →
            Runs i s fun u => StoreJoins w.used u w.fresh a o (.stash (kind == .strm) (pteDiscard a.pte == 1))) ∧
          (bmv = true → pteDiscard a.pte ≠ 1 → (∃ t ∈ a.rows, w.here.comingAt t.va = true) →
            Runs i s fun u => Waits w.used u .fill) ∧
          (∀ x b m, bmv = true → pteDiscard a.pte ≠ 1 → (∀ t ∈ a.rows, w.here.comingAt t.va = false) →
            w.blockBits s.cur.1 a.fmt.page (a.rows.map fun t => (t.va, t.pa)) = some x → storeBmv a.fmt e.data.toNat x = .block b m →
            Runs i s fun u => StoreJoins w.used u w.fresh a o (.stash (kind == .strm) false)))

/-- O38. SPR, SPW and SND complete on rows of the cluster that the strand's context claims (R168-R170): SPR and SPW's read-back form
join the loads, SPW and SND the stores. An address beyond 26 bits traps, and so does an unclaimed row; another context's row is a
violation. Readings of the model: log 21. -/
def Obligations.Scratchpads : Prop :=
  ∀ (o : PadOp) (s : State) (addr : Word) (c : CoreId) (r : Fin 2048), addr = s.reg o.base + BitVec.ofInt 64 o.off.toInt →
    s.here.accessRoom s.cur.2 = true →
    (∀ i ∈ [Instr.spr o, .spw o, .snd o], s.me.inTrap = false → 2 ^ 26 ≤ addr.toNat → s.here.room o.q = true →
      (s.here.entryFor o.q).isSome = true → Runs i s fun u => Traps s u .addressOutOfRange s.me.pc addr) ∧
    (addr.toNat < 2 ^ 26 → c.val = s.cur.1.val / 128 * 128 + addr.toNat / 2 ^ 19 → r.val = addr.toNat / 2 ^ 8 % 2 ^ 11 →
      (∀ i ∈ [Instr.spr o, .snd o], s.me.inTrap = false → s.claimant c r.val = none → s.here.room o.q = true →
        (s.here.entryFor o.q).isSome = true → Runs i s fun u => Traps s u .rowNotClaimed s.me.pc addr) ∧
      (∀ i ∈ [Instr.spr o, .snd o], ∀ x, s.claimant c r.val = some x → x ≠ s.here.ctx → s.here.room o.q = true →
        (s.here.entryFor o.q).isSome = true → Runs i s fun u => Freezes s u .foreignRow addr) ∧
      (s.me.inTrap = false → c ≠ s.cur.1 → s.here.room o.q = true → (s.here.entryFor o.q).isSome = true →
        Runs (.spw o) s fun u => Traps s u .rowNotClaimed s.me.pc addr) ∧
      (s.claimant c r.val = some s.here.ctx →
        (∀ i, (i = Instr.spr o ∨ i = .spw o ∧ 14 ≤ o.q.val ∧ c = s.cur.1) → s.here.room o.q = true →
          (s.core c).rowBusy r.val = false →
          Runs i s fun u => WritesNone s u ∧ Passes s u ∧
            ∃ l, l.id = s.fresh ∧ l.seq = s.cur.2 ∧ l.before = s.me ∧ l.va = addr ∧ l.dest = .queue o.q ∧ l.src = .pad c r ∧
              l.cursor = none ∧ Frame s.used u (fun k => { k.claim o.q with loads := k.loads ++ [l] })) ∧
        (∀ i op, (i = Instr.spw o ∧ o.q.val < 14 ∧ c = s.cur.1 ∧ (s.core c).rowBusy r.val = false ∧ op = .pad r ∨
            i = .snd o ∧ op = .send c r) → (s.here.entryFor o.q).isSome = true →
          Runs i s fun u => WritesNone s u ∧ Passes s u ∧
            ∃ x, x.id = s.fresh ∧ x.before = s.me ∧ x.q = o.q ∧ x.va = addr ∧ x.op = op ∧ x.cursor = none ∧
              Frame s.used u (fun k => { k with stores := k.stores ++ [x] }))))

/-- O39. SHSET and SHGET write and read one field of a shape register (R156); SMAP maps a window where nothing is in its way, and
traps otherwise (R164); SUNMAP removes a window, whose filled rows stay held (R166). SMAP and SUNMAP wait for what their sequencer has in
flight, which may yet fault (R174). Readings of the model: logs 10, 22. -/
def Obligations.ShapesAndWindows : Prop :=
  (∀ (sh : Fin 16) (j : Fin 8) (base : Fin 32) (off : BitVec 32) (s : State), s.here.shapePending s.cur.2 sh = false →
    s.here.shapeUsed s.cur.2 sh = false →
    Runs (.shset sh j base off) s fun u => WritesNone s u ∧ Passes s u ∧
      FrameNoting s u (fun k => { k with
        shapes := k.shapes.set sh ((k.shape sh).set j (s.reg base + BitVec.ofInt 64 off.toInt)) })
        [.shape sh (.field j (s.reg base + BitVec.ofInt 64 off.toInt)) (s.here.shape sh)]) ∧
  (∀ (dst : Fin 32) (sh : Fin 16) (j : Fin 8) (s : State), s.here.shapePending s.cur.2 sh = false →
    Runs (.shget dst sh j) s fun u => Frame s u id ∧ Writes s u dst (s.here.shape sh)[j] ∧ Passes s u) ∧
  (∀ (w : Fin 16) (base : Fin 32) (lsz : BitVec 5) (row : BitVec 11) (count : BitVec 16) (s : State) (va n r size : Nat),
    va = (s.reg base).toNat → n = count.toNat → r = row.toNat → size = 256 * 2 ^ lsz.toNat →
    (s.me.inTrap = false → (va % 256 ≠ 0 ∨ 27 < lsz.toNat ∨ n = 0 ∨ 2048 < n) →
      Runs (.smap w base lsz row count) s fun u => Traps s u .reservedOperand s.me.pc 0) ∧
    (va % 256 = 0 → lsz.toNat ≤ 27 → 1 ≤ n → n ≤ 2048 → s.here.inFlight s.cur.2 ≠ 0 →
      Runs (.smap w base lsz row count) s fun u => Waits s u .other) ∧
    (va % 256 = 0 → lsz.toNat ≤ 27 → 1 ≤ n → n ≤ 2048 → s.here.inFlight s.cur.2 = 0 →
      (s.me.inTrap = false → ((s.here.wins[w]).isSome = true ∨ (∃ (j : Fin 16) (x : Window), s.here.wins[j] = some x ∧
          (x.va.toNat < va + size ∧ va < x.va.toNat + x.size ∨ x.row.toNat < r + n ∧ r < x.row.toNat + x.count.toNat)) ∨
          ∃ x ∈ s.here.stash, r ≤ x.row.val ∧ x.row.val < r + n) →
        Runs (.smap w base lsz row count) s fun u => Traps s u .stashWindowOverlap s.me.pc 0) ∧
      ((∀ (j : Fin 16) (x : Window), s.here.wins[j] = some x →
          (x.va.toNat + x.size ≤ va ∨ va + size ≤ x.va.toNat) ∧ (x.row.toNat + x.count.toNat ≤ r ∨ r + n ≤ x.row.toNat)) →
        s.here.wins[w] = none → (∀ x ∈ s.here.stash, x.row.val < r ∨ r + n ≤ x.row.val) →
        (s.me.inTrap = false → (∀ st, s.here.strand = some st → st.rows < r + n) →
          Runs (.smap w base lsz row count) s fun u => Traps s u .rowNotClaimed s.me.pc 0) ∧
        (∀ st, s.here.strand = some st → r + n ≤ st.rows →
          Runs (.smap w base lsz row count) s fun u => WritesNone s u ∧ Passes s u ∧
            Frame s u (fun k => { k with wins := k.wins.set w (some ⟨s.reg base, lsz, row, count.setWidth 12⟩) }))))) ∧
  (∀ (w : Fin 16) (s : State),
    (s.here.inFlight s.cur.2 ≠ 0 → Runs (.sunmap w) s fun u => Waits s u .other) ∧
    (s.here.inFlight s.cur.2 = 0 → Runs (.sunmap w) s fun u => WritesNone s u ∧ Passes s u ∧
      (s.here.wins[w] = none → Frame s u id) ∧
      (s.here.wins[w] ≠ none → Frame s u (fun k => { k with
        wins := k.wins.set w none
        stash := (k.stash.map fun x => if x.win = w ∧ x.use = .filled then { x with use := .held } else x).filter fun x =>
          x.use != .refused || k.needs x.va }))))

/-- O40. A first touch of rows of this package claims pool rows and asks slices for their lines, and changes nothing else (R165, R179);
and in a memory without injected errors a read through the L2 delivers the bytes of its sectors and leaves every byte as it was,
whatever line it brings in and whichever it sends away, and leaves such a memory (R179-R181). Readings of the model: logs 8, 76. -/
def Obligations.TouchKeepsBytes : Prop :=
  (∀ (s t : State) (c : CoreId) (q : Seq) (pc : Word) (fill : Bool) (hint : Hint) (rows : List Touch),
    s.errs = [] → (∀ r ∈ rows, r.pa < 2 ^ 47) → s.touchAll c q pc fill hint rows = (t, .ok) →
    t = { s with cores := t.cores, slices := t.slices, fresh := t.fresh } ∧ (∀ d, d ≠ c → t.core d = s.core d) ∧
      t.core c = { s.core c with pad := (t.core c).pad, stash := (t.core c).stash }) ∧
  (∀ (s t : State) (who : Asker) (pa : Nat) (mask : BitVec 4) (code : Layout) (hint : Hint) (d : BitVec 1024) (cls : Classed),
    s.Healthy → inHbm pa = true → isEmbc code = false → code.toNat < 0x1C → s.homeRead who pa mask code hint = (t, .got d cls) →
    SameBytes s t ∧ t.Healthy ∧ cls = [] ∧
      t = { s with mem := t.mem, marks := t.marks, l2 := t.l2, rel := t.rel, fresh := t.fresh } ∧
      ∀ i b, i < 4 → mask.getLsbD i = true → b < 32 →
        (lineSector d i).extractLsb' (8 * b) 8 = s.peek (pa / 128 * 128 + 32 * i + b))

/-! ## Arrivals (R119, R155, R158-R163, R174-R180) -/

/-- O41. Loads and stores come to their end in order, EX's pushes when their clk has come, and slices serve their oldest request (R119,
R158, R160, R172, R179, R180), none overtaking an earlier one for its line (R213): what each delivers, and that a load found at fault
late traps its sequencer at its own pc as it stood before it issued, with the accesses after it cancelled and what the sequencer has taken
or changed since taken back (R174, R176). A row found refused for its layout is a fault (R148 check 7). Every line of HBM4E has a place of
its own (R183). Readings of the model: logs 10, 33, 37, 76, 77. -/
def Obligations.Arrivals : Prop :=
  (∀ la, la < 2 ^ 33 → let h := hbmSlot la
    h.stack < 16 ∧ h.pseudo < 64 ∧ h.line < 2 ^ 23 ∧ h.stack / 2 = dieOf la ∧ h.line = la % 2 ^ 30 / 128 ∧ h.la = la) ∧
  (∀ (c : CoreId) (s : State), s.Unhindered (unitOfCore c) → (s.core c).loads = [] → exec (.loadDataArrival c) s = .next s) ∧
  (∀ (c c' : CoreId) (r : Fin 2048) (q : Fin 16) (l : Load) (rest : List Load) (s : State), s.errs = [] → s.Unhindered (unitOfCore c) →
    (s.core c).loads = l :: rest → l.src = .pad c' r → l.dest = .queue q → (s.padRow c' r).flips = [] →
    exec (.loadDataArrival c) s = .next (s.onCore c fun k =>
      { k.arrive q ⟨(s.padRow c' r).tag.setWidth 8, (s.padRow c' r).data, (s.padRow c' r).mark⟩ with
        loads := (l :: rest).filter fun x => x.id ≠ l.id })) ∧
  (∀ (c : CoreId) (q : Fin 16) (l : Load) (rest : List Load) (pa : Nat) (h : StashRow) (s : State), s.errs = [] →
    s.Unhindered (unitOfCore c) → (s.core c).loads = l :: rest → l.src = .stash [(rowOf l.va, pa)] → l.dest = .queue q →
      l.fmt.conv = false → l.discard = false →
    (s.core c).stashAt l.va = some h → (s.padRow c h.row).tag = heldCode l.fmt.page → (s.padRow c h.row).flips = [] →
    exec (.loadDataArrival c) s = .next (s.onCore c fun k =>
      { k.arrive q ⟨l.fmt.code.setWidth 8, (s.padRow c h.row).data, if l.fmt.page = 0x1A then (s.padRow c h.row).mark else 0⟩ with
        loads := (l :: rest).filter fun x => x.id ≠ l.id })) ∧
  (∀ (c : CoreId) (l : Load) (rest : List Load) (s v : State), s.Unhindered (unitOfCore c) → (s.core c).loads = l :: rest →
    s.gather c l = (v, .pending) → exec (.loadDataArrival c) s = .next v) ∧
  (∀ (c : CoreId) (l : Load) (pa : Nat) (rows : List (Word × Nat)) (s : State), l.src = .stash ((rowOf l.va, pa) :: rows) →
    l.discard = false → (s.core c).refusedAt l.va = true →
    s.gather c l = (s, .fault .layoutMismatch)) ∧
  (∀ (c : CoreId) (q : Fin 16) (l : Load) (rest : List Load) (ps : List Part) (x : Nat) (cls : List (Word × Nat × Bool))
      (s v : State),
    s.Unhindered (unitOfCore c) → (s.core c).loads = l :: rest → l.src = .lines ps → l.dest = .queue q →
      (l.fmt.conv && isBmv l.fmt.page) = false →
    s.gather c l = (v, .data x cls) →
    exec (.loadDataArrival c) s = .next ((v.onCore c fun k =>
      { k.arrive q { entryOf l x with mark := v.loadMark c l } with
        loads := k.loads.filter fun x => x.id ≠ l.id }).noteSev c l.seq cls)) ∧
  (∀ (c : CoreId) (l : Load) (rest : List Load) (cause : Cause) (s v : State), s.Unhindered (unitOfCore c) →
    (s.core c).loads = l :: rest → s.gather c l = (v, .fault cause) → l.seq ≠ .ex → l.before.inTrap = false →
    Runs (.loadDataArrival c) s fun u => TakenBack (v.core c) (u.core c) l.seq l.id ∧
      (u.core c).seq l.seq = LateTrap ((v.core c).seq l.seq) l.before cause l.va ∧
      (∀ q, q ≠ l.seq → (u.core c).seq q = (v.core c).seq q) ∧ (∀ d, d ≠ c → u.core d = v.core d) ∧ SameBytes v u) ∧
  (∀ (c : CoreId) (l : Load) (rest : List Load) (k : VKind) (va : Word) (s v : State), s.Unhindered (unitOfCore c) →
    (s.core c).loads = l :: rest → s.gather c l = (v, .violation k va) → v.RecordClean →
    Runs (.loadDataArrival c) s fun u => TakenBack (v.core c) (u.core c) l.seq l.id ∧
      ((u.core c).seq l.seq).run = .frozen ⟨k, 0, BitVec.ofNat 8 l.seq.num.val, BitVec.ofNat 16 c.val, (v.core c).ctx, l.pc, va⟩ ∧
      ((u.core c).seq l.seq).pc = l.pc ∧ ((u.core c).seq l.seq).regs = l.before.regs ∧ u.vlhead = v.vlhead + 1) ∧
  (∀ (c : CoreId) (s : State), (s.core c).stores = [] → exec (.storePerformed c) s = .next s) ∧
  (∀ (c : CoreId) (x : Store) (rest : List Store) (e : QEntry) (es : List QEntry) (s : State), (s.core c).stores = x :: rest →
    (s.core c).queues[x.q].entries = e :: es →
    (∀ r, s.errs = [] → x.op = .pad r → exec (.storePerformed c) s = .next (s.onCore c fun k =>
      { k.onQueue x.q DQueue.pop with
        pad := k.pad.set r ⟨e.tag.setWidth 6, e.mark, e.data, []⟩, stores := (x :: rest).filter fun y => y.id ≠ x.id })) ∧
    (∀ c' r, x.op = .send c' r → exec (.storePerformed c) s = .next (s.onCore c fun k =>
      { k.onQueue x.q DQueue.pop with
        sends := k.sends ++ [⟨c', r, e, e.mark⟩], stores := (x :: rest).filter fun y => y.id ≠ x.id })) ∧
    (∀ b, x.op = .stash b true → (∀ y ∈ x.rows, ((s.core c).rowAt y.1).all StashRow.ready = true) →
      exec (.storePerformed c) s = .next (s.onCore c fun k =>
        { k.onQueue x.q DQueue.pop with stores := (x :: rest).filter fun y => y.id ≠ x.id })) ∧
    (∀ b, x.op = .stash b false → (∃ y ∈ x.rows, (s.core c).comingAt y.1 = true) →
      (∀ h, (s.core c).rowAt x.va = some h → b = false ∨ h.use ≠ .taken ∧ h.use ≠ .refused) → exec (.storePerformed c) s = .next s) ∧
    (∀ h, s.errs = [] → x.op = .stash true false → (s.core c).rowAt x.va = some h → (h.use = .taken ∨ h.use = .refused) → h.drop = false →
      Runs (.storePerformed c) s fun u => u = s.onCore c (fun k =>
          { k.onQueue x.q DQueue.pop with
            pad := k.pad.set h.row ⟨heldCode h.code, s.rowMark h.code h.pa, plainBits x.fmt.page e.data, []⟩
            stash := (u.core c).stash, stores := (x :: rest).filter fun y => y.id ≠ x.id }) ∧
        (u.core c).stash = (s.core c).stash.map fun y =>
          if y.row = h.row then
            { y with dirty := 0xFF, filled := false, use := if y.use = .writing then .writing
                                           else if ((s.core c).windowOf y.va).isSome then .filled else .held }
          else y) ∧
    (∀ b pa h, x.op = .stash b false → x.fmt.conv = false → x.rows = [(rowOf x.va, pa)] → (s.core c).stashAt x.va = some h →
      h.drop = false → (s.padRow c h.row).tag = heldCode x.fmt.page → (s.padRow c h.row).flips = [] →
      Runs (.storePerformed c) s fun u => u = s.onCore c (fun k =>
          { k.onQueue x.q DQueue.pop with
            pad := (u.core c).pad, stash := (u.core c).stash, stores := (x :: rest).filter fun y => y.id ≠ x.id }) ∧
        (∀ r, r ≠ h.row → u.padRow c r = s.padRow c r) ∧ (u.padRow c h.row).tag = (s.padRow c h.row).tag ∧
        (∀ b, b < 2048 → (u.padRow c h.row).data.getLsbD b =
          if (granMask x.gran x.va).getLsbD b then (plainBits x.fmt.page e.data).getLsbD b
          else (s.padRow c h.row).data.getLsbD b) ∧
        (u.core c).stash = (s.core c).stash.map fun y =>
          if y.row = h.row then { y with dirty := y.dirty ||| maskSectors (granMask x.gran x.va) } else y) ∧
    (∀ b, x.op = .stash b false → (∀ y ∈ x.rows, (s.core c).comingAt y.1 = false) → (s.core c).comingAt x.va = false →
      (b = true → (s.core c).refusedAt x.va = false) → s.blockBits c x.fmt.page x.rows = none → x.before.inTrap = false →
      Runs (.storePerformed c) s fun u => TakenBack (s.core c) (u.core c) .st x.id ∧
        (u.core c).seq .st = LateTrap ((s.core c).seq .st) x.before .layoutMismatch x.va ∧
        (∀ y ∈ (u.core c).stores, y.id < x.id) ∧ SameBytes s u)) ∧
  (∀ (c : CoreId) (pre post : List ExPush) (p : ExPush) (s : State), (s.core c).ex.pushes = pre ++ p :: post →
    (∀ x ∈ pre, p.due < x.due) → (∀ x ∈ post, p.due ≤ x.due) →
    (p.due ≤ s.clkOf c → (∀ q e, p.out = .data q e → exec (.exPushPerformed c) s = .next (s.onCore c fun k =>
        { k.arrive (dstQueue q) e with ex := { k.ex with pushes := pre ++ post } })) ∧
      (∀ n b, p.out = .bit n b → exec (.exPushPerformed c) s = .next (s.onCore c fun k =>
        { k with bqs := k.bqs.set n (k.bqs[n] ++ [b]), ex := { k.ex with pushes := pre ++ post } }))) ∧
    (s.clkOf c < p.due → exec (.exPushPerformed c) s = .next s)) ∧
  (∀ (n : Fin 128) (r : SliceReq) (rest : List SliceReq) (s : State), s.slices[n].queue = r :: rest →
    (s.hitsL2 n r = true → s.slices[n].miss.length < 32 → exec (.l2SliceService n) s =
      .next (((s.onSlice n fun x => { x with queue := rest }).serve r).grant n)) ∧
    (s.hitsL2 n r = false → s.slices[n].miss.length < 32 → exec (.l2SliceService n) s =
      .next ((s.onSlice n fun x => { x with queue := rest, miss := x.miss ++ [r] }).grant n)) ∧
    (32 ≤ s.slices[n].miss.length → exec (.l2SliceService n) s = .next s) ∧
    ((∃ x ∈ s.slices[n].miss, x.pa / 128 = r.pa / 128) → s.hitsL2 n r = false)) ∧
  (∀ (n : Fin 128) (r : SliceReq) (rest : List SliceReq) (s : State), s.slices[n].miss = r :: rest →
    exec (.l2MissFill n) s = .next ((s.onSlice n fun x => { x with miss := rest }).serve r)) ∧
  (∀ (s v : State) (r : SliceReq) (id : Nat) (hint : Hint), r.op = .read id hint →
    (∀ d cls, s.homeRead ⟨r.ctx, r.pc, false⟩ r.pa r.mask r.code hint = (v, .got d cls) →
      s.serve r = v.deliverPart r id (.got d cls)) ∧
    (s.homeRead ⟨r.ctx, r.pc, false⟩ r.pa r.mask r.code hint = (v, .refused) → s.serve r = v.deliverPart r id .refused)) ∧
  (∀ (s v : State) (r : SliceReq) (row : Fin 2048) (data : BitVec 1024) (filled : Bool) (o : WriteOut), r.op = .write row data filled →
    inHbm r.pa = true → s.homeWrite ⟨r.ctx, r.pc, false⟩ r.pa r.mask data r.code .none filled = (v, o) →
    s.serve r = v.freeRow r.core row) ∧
  (∀ (s : State) (n : Fin 128), s.slices[n].queue = [] →
    exec (.l2SliceService n) s = .next (s.grant n))

/-! ## Translations and upkeep (R194-R200, R366, R373, R383) -/

/-- O42. PAGE_WALK fills the cluster's TLB or leaves its fault to those who wait (R194), and waits in the rotation of a slice that has no
entry for it (R179); an invalidation takes away the translations that its value names and no other (R196). That those of the LATT, which
R196 does not name, go with them is the model's reading (log 57). Readings of the model: logs 8, 39, 57, 76. -/
def Obligations.Translations : Prop :=
  (∀ (c : ClusterId) (w : Walk) (rest : List Walk) (s v : State), s.Unhindered (walkerOf c) → s.clusters[c].walks = w :: rest →
    (∀ p big, s.walk ⟨w.ctx, ((s.core w.core).seq w.seq).pc, false⟩ w.va = (v, .leaf p big) →
      exec (.pageWalk c) s = .next (v.onCluster c fun k => { k with
        tlb := (mkTlb w.ctx w.va p big :: k.tlb.filter fun x =>
          !(x.ctx == w.ctx && x.vpn == (w.va.extractLsb' 16 32).toNat && x.big == big)).take 16384
        walks := k.walks.filter fun x => !w.joins x big })) ∧
    (∀ cause, s.walk ⟨w.ctx, ((s.core w.core).seq w.seq).pc, false⟩ w.va = (v, .fault cause) →
      w ∈ v.clusters[c].walks → Runs (.pageWalk c) s fun u => ((u.core w.core).seq w.seq).walkFault.isSome = true ∧
        (∀ x ∈ u.clusters[c].walks, w.joins x false = false) ∧ u.clusters[c].tlb = v.clusters[c].tlb ∧ SameBytes v u ∧
        u = { v with cores := u.cores, clusters := u.clusters })) ∧
  (∀ (c : ClusterId) (s : State), s.Unhindered (walkerOf c) → s.clusters[c].walks = [] → exec (.pageWalk c) s = .next s) ∧
  (∀ (c : ClusterId) (w : Walk) (rest : List Walk) (me : Requester) (n : Fin 128) (s : State), s.clusters[c].walks = w :: rest →
    walkerOf c = some me → (∀ k, 16 ≤ s.heldEntries k me) → s.hindered = none → s.spanOut (s.ctxPlace w.ctx) 64 = false →
    inHbm (s.ctxPlace w.ctx) = true → n = sliceOf (s.ctxPlace w.ctx / 128) →
    exec (.pageWalk c) s = .next { s with slices := s.slices.set n { s.slices[n] with
      waiting := if me ∈ s.slices[n].waiting then s.slices[n].waiting else s.slices[n].waiting ++ [me] } }) ∧
  (∀ (i : Instr) (v : Word) (s : State) (kind : Nat),
    (i = .tlbinvPage v ∧ kind = 0 ∨ i = .tlbinvContext v ∧ kind = 1 ∨ i = .tlbinvAll v ∧ kind = 2) →
    (v.extractLsb' 58 2).toNat = kind → v.extractLsb' 0 16 = 0 → v.extractLsb' 60 4 = 0 →
    Runs i s fun u =>
      let named : Ctx → Bool → Prop := fun ctx here =>
        kind = 2 ∨ ctx = v.extractLsb' 48 10 ∧ (kind = 1 ∨ here = true)
      let va := v &&& 0xFFFFFFFF0000
      u = { s with cores := u.cores, clusters := u.clusters } ∧
      (∀ (c : ClusterId) e, e ∈ u.clusters[c].tlb ↔ e ∈ s.clusters[c].tlb ∧ ¬named e.ctx (e.hits e.ctx va)) ∧
      (∀ (c : ClusterId), u.clusters[c] = { s.clusters[c] with tlb := u.clusters[c].tlb, walks := u.clusters[c].walks }) ∧
      ∀ c, u.core c = { s.core c with tlb := (u.core c).tlb, latt := (u.core c).latt, seqs := (u.core c).seqs } ∧
        (∀ e, e ∈ (u.core c).tlb ↔ e ∈ (s.core c).tlb ∧ ¬named e.ctx (e.hits e.ctx va)) ∧
        (∀ e, e ∈ (u.core c).latt ↔ e ∈ (s.core c).latt ∧ ¬named e.ctx (decide (e.vpn = va.toNat / 65536))) ∧
        ∀ q, (u.core c).seq q = { (s.core c).seq q with walkFault := ((u.core c).seq q).walkFault })

/-- O43. Cleaning and invalidating L2 lines that hold no error leaves every byte (R197), where no way's corrected errors have reached
CETH (R373); a released frame reads as blank, and no translation of it and no line of it stays (R200). Readings of the model: logs 36,
57, 89. -/
def Obligations.FlushAndRelease : Prop :=
  (∀ s : State, s.Healthy → (∀ l ∈ s.l2, s.overCeth l.wayId = false) → s.me.sr.l2flo.toNat < s.me.sr.l2fhi.toNat →
    (Runs .l2Clean s fun u => SameBytes s u ∧ u.Healthy ∧ u = { s with l2 := u.l2, mem := u.mem, marks := u.marks } ∧
      u.l2.map L2Line.la = s.l2.map L2Line.la ∧
      ∀ l ∈ u.l2, s.me.sr.l2flo.toNat ≤ 128 * l.la → 128 * l.la < s.me.sr.l2fhi.toNat → l.dirty = 0) ∧
    (Runs .l2CleanInvalidate s fun u => SameBytes s u ∧ u.Healthy ∧ u = { s with l2 := u.l2, mem := u.mem, marks := u.marks } ∧
      ∀ l, l ∈ u.l2 ↔ l ∈ s.l2 ∧ ¬(s.me.sr.l2flo.toNat ≤ 128 * l.la ∧ 128 * l.la < s.me.sr.l2fhi.toNat))) ∧
  (∀ (v : Word) (s : State) (lo hi : Nat), v.extractLsb' 1 15 = 0 → v.extractLsb' 47 17 = 0 → lo = v.toNat / 65536 * 65536 →
    hi = lo + (if v.getLsbD 0 then 2 ^ 25 else 65536) → (s.relUnmap v).relWaits v = false →
    Runs (.frameRelease v) s fun u =>
      (∀ a, u.peek a = if lo ≤ a ∧ a < hi ∧ a < 2 ^ 40 then 0 else s.peek a) ∧
      (∀ l, l ∈ u.l2 ↔ l ∈ s.l2 ∧ ¬(lo ≤ 128 * l.la ∧ 128 * l.la < hi)) ∧
      ∀ c, (∀ e, e ∈ (u.core c).tlb ↔ e ∈ (s.core c).tlb ∧ relMeets v e.pte e.big = false) ∧
        (∀ r, r ∈ (u.core c).stash ↔ r ∈ (s.core c).stash ∧ ¬(lo ≤ r.pa ∧ r.pa < hi)) ∧ (u.core c).seqs = (s.core c).seqs)

/-- O44. Scrubbing finds nothing in sectors without errors, corrects and logs an SV0, a stamp that a flip has changed among them, rewrites
a poisoned sector of memory as it is delivered, and stamps a lost one (R184, R366, R367, R370); at CETH the way of a corrected L2 line is
quarantined (R373), and its count returns to zero with each scrub period of 10 s (R373); an injection flips the bits that its value names,
and reads as done (R383); a flip from outside does the same to a sector. An error of a word of a register file is corrected as the word is read, or ends the strand that runs (R364, R367,
R371); one of a LATT entry sends it to be fetched again (R365). Readings of the model: logs 4, 36, 89, 98. -/
def Obligations.ScrubAndInject : Prop :=
  (∀ (n : Nat) (s : State) (w : SectorWord), s.word n = w → (w.flips = [] ∨ (w.mends n = false ∧ (w.seen = 0x3F ∨ w.seen = 0x3E))) →
    exec (.hbmScrub n) s = .next s) ∧
  (∀ (n : Nat) (s : State) (w : SectorWord) (f : Finding), s.word n = w → w.flips ≠ [] →
    check (secKind w.stamp w.mark n) true w.flips = f →
    let mended := w.seen ≠ w.stamp ∧ w.stamp.toNat < 0x1C ∧ 0x1C ≤ w.seen.toNat ∧ f.broken = false
    let astray := w.seen ≠ w.stamp ∧ (check (secKind w.seen w.mark n) true w.flips).broken = true
    let sound := (mended ∨ w.seen.toNat < 0x1C ∧ ¬astray) ∧ w.stamp ≠ 0x3F ∧ w.stamp ≠ 0x3E ∧ f.wild = false
    (sound → f.sev = .clean → exec (.hbmScrub n) s = .next s) ∧
    (sound → f.sev = .sv0 → exec (.hbmScrub n) s =
      .next ((s.setWord n { w with flips := f.left }).log 0 (hbmPlace (32 * n)) true noFlags 0 0)) ∧
    (sound → (f.sev = .sv1 ∨ f.sev = .sv2 ∧ (mended ∨ w.seen = w.stamp)) → exec (.hbmScrub n) s =
      .next ((s.writeSector n (deliver (secKind w.stamp w.mark n) true (s.rel.relpol.getLsbD 0) f (s.rawSector n))
        { w with flips := [] }).log 2 (hbmPlace (32 * n)) true noFlags 0 0)) ∧
    ((¬mended ∧ w.seen ≠ 0x3F ∧ w.seen ≠ 0x3E ∧ (0x1C ≤ w.seen.toNat ∨ astray) ∨
        sound ∧ (f.sev = .sv3 ∨ f.sev = .sv2 ∧ ¬mended ∧ w.seen ≠ w.stamp)) →
      Runs (.hbmScrub n) s fun u => u.word n = ⟨0x3E, 0, 0, []⟩ ∧ (∀ m, m ≠ n → u.word m = s.word m) ∧
        u.rel.rlcnt = s.rel.rlcnt + 1 ∧ u.mem = s.mem ∧ u = { s with marks := u.marks, rel := u.rel })) ∧
  (∀ (la : Nat) (s : State), s.errs = [] → (s.lineAt la = none ∨ ∃ l, s.lineAt la = some l ∧ l.flips = []) →
    exec (.l2Scrub la) s = .next s) ∧
  (∀ (la : Nat) (l : L2Line) (i p : Nat) (f : Finding) (s : State), s.errs = [] → s.lineAt la = some l → i < 4 → p < 288 →
    l.flips = [288 * i + p] → l.valid.getLsbD i = true → check (secKind l.tag (l.mark i) (4 * la + i)) false [p] = f →
    f.sev = .sv0 → f.left = [] →
    let full := s.rel.relpol.extractLsb' 8 8 ≠ 0 ∧ (s.rel.relpol.extractLsb' 8 8).toNat ≤ s.rel.corr.count l.wayId + 1 ∧
      s.canQuar l.wayId = true
    Runs (.l2Scrub la) s fun u => u.rel.rlcnt = s.rel.rlcnt + 1 ∧ u.rel.corr = l.wayId :: s.rel.corr ∧
      (¬full → u.l2 = s.l2.map (fun m => if m.la = la then { l with flips := [] } else m) ∧ u.rel.quar = s.rel.quar ∧
        u = { s with l2 := u.l2, rel := u.rel }) ∧
      (full → l.dirty = 0 → u.l2 = s.l2.filter (fun m => m.la ≠ la) ∧ u.rel.quar = s.rel.quar ++ [l.wayId] ∧
        u = { s with l2 := u.l2, rel := u.rel })) ∧
  (∀ s : State, let period := 189 * 10 ^ 10
    (s.gtbq < period * (s.rel.scrubs + 1) → exec .scrubPeriodReset s = .next s) ∧
    (period * (s.rel.scrubs + 1) ≤ s.gtbq →
      exec .scrubPeriodReset s = .next { s with rel := { s.rel with corr := [], scrubs := s.gtbq / period } })) ∧
  (∀ (s : State) (c : CoreId) (u : Guarded) (flips : List Nat) (rest : List Agendum), s.agenda = .strike c u flips :: rest →
    ((s.core c).content u ≠ none → ∃ t, step s = .next t ∧ t = { s with agenda := rest, errs := t.errs } ∧
      t.flipsAt c u = toggle (s.flipsAt c u) flips ∧ ∀ d v, ¬(d = c ∧ v = u) → t.flipsAt d v = s.flipsAt d v) ∧
    ((∀ la, u ≠ .lineTag la) → (s.core c).content u = none → step s = .next { s with agenda := rest })) ∧
  (∀ (s : State) (target : Word) (ps : List Nat) (rest : List Agendum), s.agenda = .flip 0 target ps :: rest → s.Canon →
    target.toNat % 32 = 0 → target.toNat < 2 ^ 40 → (∀ p ∈ ps, p < 288) → ∃ t, step s = .next t ∧
      (t.word (target.toNat / 32)).flips = toggle (s.word (target.toNat / 32)).flips ps ∧
      (∀ m, m ≠ target.toNat / 32 → t.word m = s.word m) ∧ (false, target.toNat) ∈ t.outside ∧
      t = { s with agenda := rest, marks := t.marks, outside := t.outside }) ∧
  (∀ (s : State) (i : Instr) (n : Fin 32) (st : Strand) (p p' : Nat), n ≠ 0 → n ∈ i.uses.s → s.here.strand = some st →
    (s.errs = [⟨s.cur.1, .s s.cur.2 n, [p]⟩] → ∃ t, s.reading i = (t, some i) ∧ t = { s with errs := [], rel := t.rel } ∧
      t.rel.rlcnt = s.rel.rlcnt + 1) ∧
    (p ≠ p' → s.errs = [⟨s.cur.1, .s s.cur.2 n, [p, p']⟩] → ∃ t, s.reading i = (t, none) ∧ t.here.strand = none ∧
      s.rel.rlcnt < t.rel.rlcnt)) ∧
  (∀ (s : State) (c : CoreId) (ctx : Ctx) (vpn : Nat) (pc : Word), (s.flipsAt c (.latt ctx vpn)).length % 2 = 1 →
    ∃ t, s.checkLatt c ctx vpn pc = t ∧ t = { s with cores := t.cores, errs := t.errs, rel := t.rel } ∧ t.rel.rlcnt = s.rel.rlcnt + 1 ∧
      (∀ d, d ≠ c → t.core d = s.core d) ∧ t.core c = { s.core c with latt := (t.core c).latt } ∧
      ∀ e, e ∈ (t.core c).latt ↔ e ∈ (s.core c).latt ∧ ¬(e.ctx = ctx ∧ e.vpn = vpn)) ∧
  (∀ (v : Word) (s : State) (ps : List Nat), injValueOk v = true → injTargetOk v s.me.sr.errinja = true →
    ps = [(v.extractLsb' 2 9).toNat, (v.extractLsb' 11 9).toNat, (v.extractLsb' 20 9).toNat].take (v.extractLsb' 29 2).toNat →
    (v.extractLsb' 0 2 = 0 → s.Canon → Runs (.errorInject v) s fun u =>
      u.me.sr.errinj = v ||| 0x8000000000000000 ∧
      (u.word (s.me.sr.errinja.toNat / 32)).flips = toggle (s.word (s.me.sr.errinja.toNat / 32)).flips ps ∧
      (∀ m, m ≠ s.me.sr.errinja.toNat / 32 → u.word m = s.word m) ∧ u.mem = s.mem ∧ u.l2 = s.l2 ∧
      u = { s with marks := u.marks, cores := u.cores }) ∧
    (v.extractLsb' 0 2 = 1 → s.lineAt (s.me.sr.errinja.toNat / 128) = none → Runs (.errorInject v) s fun u =>
      u.me.sr.errinj = v ||| 0xC000000000000000 ∧ u = { s with cores := u.cores }) ∧
    (∀ l, v.extractLsb' 0 2 = 1 → s.lineAt (s.me.sr.errinja.toNat / 128) = some l →
      l.valid.getLsbD (s.me.sr.errinja.toNat / 32 % 4) = true → Runs (.errorInject v) s fun u =>
        u.me.sr.errinj = v ||| 0x8000000000000000 ∧ u = { s with l2 := u.l2, cores := u.cores } ∧
        u.l2 = s.l2.map fun m => if m.la = l.la then
          { l with flips := toggle l.flips (ps.map fun p => 288 * (s.me.sr.errinja.toNat / 32 % 4) + p) } else m) ∧
    (∀ (c : CoreId) (r : Fin 2048), v.extractLsb' 0 2 = 2 → c = engCore s.me.sr.errinja →
      r.val = s.me.sr.errinja.toNat / 256 % 2048 → Runs (.errorInject v) s fun u =>
        u.me.sr.errinj = v ||| 0x8000000000000000 ∧ u = { s with cores := u.cores } ∧
        u.padRow c r = { s.padRow c r with
          flips := toggle (s.padRow c r).flips (ps.map fun p => 288 * (s.me.sr.errinja.toNat / 32 % 8) + p) }) ∧
    (v.extractLsb' 0 2 = 3 → Runs (.errorInject v) s fun u =>
      u.me.sr.errinj = v ||| 0x8000000000000000 ∧ u.here.chk.coming = (v.extractLsb' 29 2).toNat ∧ u = { s with cores := u.cores }))

/-! ## Commands (R229, R246, R281, R282, R302, R340) -/

/-- O45. A command issues into its engine's queue with the values that its fields name at issue, its pc, context and mode, and CTL goes
on; it waits while the queue is full; a hitch beyond 4,095, a stage or a level that is not there traps, and a hitch that is another
context's is a violation (R209, R210, R229, R246, R302, R340). The checker's copy of it differs where one is to be corrupted, or
where what the checker computes does (R377, R383). Readings of the model: logs 46, 54, 69, 97. -/
def Obligations.CommandsIssue : Prop :=
  ∀ (i : Instr) (e : Engine) (o : CCmd) (s : State), queuedCmd i = some (e, o) →
    (∀ c, s.cmdStop i = some c → s.me.inTrap = false → Runs i s fun u => Traps s u c s.me.pc 0) ∧
    (s.cmdStop i = none → e.depth ≤ (s.here.engine e).cmds.length → Runs i s fun u => Waits s u .other) ∧
    (s.cmdStop i = none → (s.here.engine e).cmds.length < e.depth → 4096 ≤ (s.reg o.hitch).toNat → s.me.inTrap = false →
      Runs i s fun u => Traps s u .reservedOperand s.me.pc 0) ∧
    (s.cmdStop i = none → (s.here.engine e).cmds.length < e.depth → (s.reg o.hitch).toNat < 4096 →
      s.ownsHitch s.cur.1 s.here.ctx (s.reg o.hitch) = false → Runs i s fun u => Freezes s u .foreignHitch (s.reg o.hitch)) ∧
    (s.cmdStop i = none → (s.here.engine e).cmds.length < e.depth → (s.reg o.hitch).toNat < 4096 →
      s.ownsHitch s.cur.1 s.here.ctx (s.reg o.hitch) = true →
      Runs i s fun u => WritesNone s u ∧ Passes s u ∧
        ∃ m : EngCmd, m.op = i ∧ m.pc = s.me.pc ∧ m.ctx = s.here.ctx ∧ m.sup = s.me.sup ∧ m.a = s.reg o.sa ∧ m.b = s.reg o.sb ∧
          m.c = s.reg o.sc ∧ m.hitch = s.reg o.hitch ∧ m.nb = s.reg o.nb ∧ m.shape = s.here.shapes[o.sh] ∧ m.begun = false ∧
          m.ended = false ∧ m.done = 0 ∧ m.reply = none ∧ m.chunk = [] ∧ m.lay = none ∧ m.pool = ⟨0, 0, false, []⟩ ∧
          m.bad = (decide (0 < s.here.chk.coming) || s.commandDiffers o) ∧ m.inj = decide (0 < s.here.chk.coming) ∧
          Frame s u fun k => k.setEngine e { k.engine e with cmds := (k.engine e).cmds ++ [m] })

/-- O46. TSTAT pushes one rq entry with its tag: the recorded cause, whether the queue is halted, zeros, the four watermarks and held
flags, the stall code, whether a nest runs, and the commands queued (R281). -/
def Obligations.TensorStatus : Prop :=
  ∀ (o : CCmd) (s : State), s.here.rqRoom = true → (∀ n : Fin 4, s.here.tens.tiles[n].wm ≤ 32) → s.here.tens.q.cmds.length ≤ 8 →
    Runs (.tstat o) s fun u => WritesNone s u ∧ Passes s u ∧ ∃ x : Word,
      Frame s u (fun k => { k with rq := k.rq ++ [⟨x, o.tag⟩] }) ∧
      (∀ c, s.here.tens.q.halted = some c → x.extractLsb' 55 9 = c.code ∧ x.getLsbD 54 = true ∧ x.extractLsb' 5 3 = 4) ∧
      (s.here.tens.q.halted = none → x.extractLsb' 55 9 = 0 ∧ x.getLsbD 54 = false ∧ (x.extractLsb' 5 3).toNat < 4 ∧
        (s.here.tens.nest = none → x.extractLsb' 5 3 = 0) ∧
        ∀ n t m a, s.here.tens.nest = some n → Tensor.advance s.here.bounds s.clk nestFuel s.here.tens n = (t, m, a) →
          (∀ w, a = .wait w → (x.extractLsb' 5 3).toNat = w) ∧
          (∀ w, a = .kstep → t.ready m = .error (.wait w) → (x.extractLsb' 5 3).toNat = w)) ∧
      x.extractLsb' 36 18 = 0 ∧
      (∀ n : Fin 4, (x.extractLsb' (12 + 6 * n.val) 6).toNat = s.here.tens.tiles[n].wm ∧
        x.getLsbD (8 + n.val) = s.here.tens.tiles[n].held) ∧
      x.getLsbD 4 = s.here.tens.nest.isSome ∧ (x.extractLsb' 0 4).toNat = s.here.tens.q.cmds.length

/-- O47. TWAIT completes when nothing is queued and no nest runs, and traps with the recorded cause where the queue is halted (R279,
R280). TDISC discards, spills or fills the tiles of its mask and clears the queue, once the engine stands still; a fill takes the tables, and
the watermarks and held flags of all four tiles, from the state row of a spill (R282).
Readings of the model: logs 17, 28. -/
def Obligations.TensorWaitsAndDiscards : Prop :=
  (∀ (o : CCmd) (s : State),
    (∀ c, s.here.tens.q.halted = some c → s.me.inTrap = false →
      Runs (.twait o) s fun u => Traps s u .tensorFault s.me.pc (c.code.setWidth 64)) ∧
    (s.here.tens.q.halted = none → s.here.tens.q.cmds = [] → s.here.tens.nest = none →
      Runs (.twait o) s fun u => Frame s u id ∧ WritesNone s u ∧ Passes s u) ∧
    (s.here.tens.q.halted = none → (s.here.tens.q.cmds ≠ [] ∨ s.here.tens.nest ≠ none) →
      Runs (.twait o) s fun u => Waits s u .other)) ∧
  (∀ (o : CCmd) (s : State) (row size : Nat) (mask : List (Fin 4)), row = (s.reg o.sa).toNat →
    mask = (List.finRange 4).filter (fun t => o.imm.getLsbD t.val) →
    size = 32 * mask.length + 1 + (((List.finRange 8).map fun r => (s.here.ring r).count).sum + 7) / 8 →
    (s.here.tens.q.halted = none → s.here.tens.q.cmds ≠ [] → Runs (.tdisc o) s fun u => Waits s u .other) ∧
    ((s.here.tens.q.halted ≠ none ∨ s.here.tens.q.cmds = []) → s.here.tens.nest = none →
      let cleared : State → Prop := fun u =>
        u.here.tens.q = if o.imm.getLsbD 4 then { s.here.tens.q with cmds := [], halted := none } else s.here.tens.q
      (o.imm.getLsbD 5 = false → o.imm.getLsbD 6 = false →
        Runs (.tdisc o) s fun u => WritesNone s u ∧ Passes s u ∧ Frame s u (fun k => { k with tens := u.here.tens }) ∧ cleared u ∧
          (∀ n : Fin 4, u.here.tens.tiles[n] = if n ∈ mask then ⟨.replicate 32 0, 0, false⟩ else s.here.tens.tiles[n]) ∧
          u.here.tens.rings = s.here.tens.rings ∧ u.here.tens.shadow = s.here.tens.shadow ∧
          u.here.tens.active = s.here.tens.active) ∧
      (s.errs = [] → o.imm.getLsbD 5 = true → row + size ≤ s.here.claimed → s.here.claimed ≤ 2048 →
        Runs (.tdisc o) s fun u => WritesNone s u ∧ Passes s u ∧
          Frame s u (fun k => { k with tens := u.here.tens, pad := u.here.pad }) ∧ cleared u ∧
          (∀ j i (n : Fin 4), mask[j]? = some n → i < 32 →
            u.here.padAt (row + 32 * j + i) = ⟨0x0C, 0, s.here.tens.tiles[n].rows.toList.getD i 0, []⟩) ∧
          (∀ r, r < row ∨ row + size ≤ r → u.here.padAt r = s.here.padAt r) ∧ u.here.tens.tiles = s.here.tens.tiles ∧
          u.here.tens.rings = s.here.tens.rings) ∧
      (s.errs = [] → o.imm.getLsbD 5 = false → o.imm.getLsbD 6 = true → row + s.spillRows row mask true ≤ s.here.claimed →
        s.here.claimed ≤ 2048 → (∀ r, (s.here.padAt r).flips = []) →
        Runs (.tdisc o) s fun u => WritesNone s u ∧ Passes s u ∧ Frame s u (fun k => { k with tens := u.here.tens }) ∧
          (∀ j i (n : Fin 4), mask[j]? = some n → i < 32 →
            u.here.tens.tiles[n].rows.toList.getD i 0 = (s.here.padAt (row + 32 * j + i)).data) ∧
          ∀ T : Tensor, (∀ n : Fin 4, T.tiles[n].wm ≤ 32) →
            (s.here.padAt (row + 32 * mask.length)).data = BitVec.ofNat 2048 T.stateRow →
            u.here.tens.shadow = T.shadow ∧ u.here.tens.active = T.active ∧
            ∀ n : Fin 4, u.here.tens.tiles[n].wm = T.tiles[n].wm ∧ u.here.tens.tiles[n].held = T.tiles[n].held) ∧
      (o.imm.getLsbD 5 = true → s.here.claimed < row + size → s.me.inTrap = false →
        Runs (.tdisc o) s fun u => Traps s u .rowNotClaimed s.me.pc 0)))

/-! ## Rings and cuts (R262-R301) -/

/-- O48. LDT claims a sub-tile of its ring's filling slot and joins the loads in flight with the K and line counts of R268, and its
cursor goes on; TRD delivers a final row of a tile, in order with the loads, and with REL releases the tile as the entry is pushed, an earlier fault leaving it as it was (R278); BGET and BSET
read and write a bound register, BSET once nothing of its sequencer that may yet fault is in flight (R299). Readings of the model: logs 10,
43, 45, 76, 91. -/
def Obligations.RingLoads : Prop :=
  (∀ (delta : Fin 16) (base : Fin 32) (sh : Fin 16) (hint : Hint) (off : BitVec 32) (s v w : State) (S D : Shape) (n : Fin 8)
      (r : Ring) (ea p : Word) (pa i0 i1 kv lv : Nat) (rows : List SubRow),
    S = s.here.shape sh → D = s.here.shape delta → n.val = S.ring.toNat % 8 → r = s.here.ring n →
    s.here.shapePending s.cur.2 sh = false → s.here.shapePending s.cur.2 delta = false → s.here.accessRoom s.cur.2 = true →
    ldtBad S D r.lines = false → r.count ≠ 0 → r.room = true →
    ea = (S[0] + s.reg base + BitVec.ofInt 64 off.toInt) &&& ~~~0xFF → s.resolve ea = (v, .ok (p, pa)) →
    accessCheck p (vfOf s.here.ctx) s.me.sup ⟨true, false, false⟩ = .ok → (S.code = 0 ∨ S.code = pteCode p) →
    (S.d 1).toNat % pitchUnit (pteCode p) = 0 → (D[0] = 0 → pteCode p = r.fmt) → (D[0] ≠ 0 → deltaOk (pteCode p) r.fmt = true) →
    (i0, i1) = (if S.stream then (S.i 0, S.i 1) else (0, 0)) → kv = min 24 (S.e 0 - 24 * i0) →
    lv = min r.lines (S.e 1 - i1 * r.lines) →
    v.resolveSub ea (pteCode p) (subRows (pteCode p) (i1 * r.lines * (S.d 1).toNat + 24 * i0) (S.d 1).toNat kv lv) [] =
      (w, .ok rows) →
    Runs (.ldt delta base sh hint off) s fun u => WritesNone s u ∧ Passes s u ∧
      (∃ (l : Load) (t : SubTile), l.id = w.fresh ∧ l.seq = s.cur.2 ∧ l.before = w.me ∧ l.pc = s.me.pc ∧
        l.dest = .ring n r.fillp (r.slot r.fillp).claimed ∧ l.src = .sub t ∧ t.fmt = r.fmt ∧ t.page = pteCode p ∧ t.kv = kv ∧
        t.lv = lv ∧ t.rows = rows ∧ t.pitch = (S.d 1).toNat ∧ t.k0 = 24 * i0 ∧ t.m0 = i1 * r.lines ∧ t.sup = s.me.sup ∧
        t.delta = (if D[0] = 0 then none else some ⟨D[0], D.geom, (D.d 1).toNat⟩) ∧
        Frame w.used u (fun k => { (k.setRing n r.claimSub.2.2).noteClaim n r.fillp with
          loads := k.loads ++ [l], shapes := u.here.shapes, undo := u.here.undo })) ∧
      u.here.ring n = (r.claimSub).2.2 ∧ (u.here.ring n).coming = r.coming + 1 ∧
      (∀ m, m ≠ n → u.here.ring m = s.here.ring m) ∧ u.here.tens.tiles = s.here.tens.tiles ∧ u.here.tens.q = s.here.tens.q ∧
      (∀ m, m ≠ sh → u.here.shape m = s.here.shape m) ∧ (∀ j : Fin 8, j ≠ 7 → (u.here.shape sh)[j] = S[j]) ∧
      (S.stream = false → u.here.shape sh = S ∧ u.here.undo = w.here.undo) ∧
      (S.stream = true → (∀ d, d < 2 → (u.here.shape sh).i d =
          (bumpDims 1 [(i0, (S.e 0 + 23) / 24), (i1, (S.e 1 + r.lines - 1) / r.lines)]).getD d 0) ∧
        (u.here.shape sh).i 2 = S.i 2 ∧ (u.here.shape sh).i 3 = S.i 3 ∧
        Remembers w u (w.fresh + 1) [.shape sh (S.subAdvance r.lines) S])) ∧
  (∀ (q : Fin 16) (tile : Fin 4) (base : Fin 32) (r : BitVec 5) (rel : Bool) (s : State) (row : Nat), s.errs = [] →
    row = (s.reg base + r.setWidth 64).toNat →
    (32 ≤ row → s.me.inTrap = false → Runs (.trd q tile base r rel) s fun u => Traps s u .reservedOperand s.me.pc 0) ∧
    (row < 32 → s.here.room q = true → s.here.tens.tiles[tile].wm ≤ row ∨ s.here.releasing tile = true →
      Runs (.trd q tile base r rel) s fun u => Waits s u .other) ∧
    (row < 32 → s.here.room q = true → s.here.accessRoom s.cur.2 = true → row < s.here.tens.tiles[tile].wm → s.here.releasing tile = false →
      Runs (.trd q tile base r rel) s fun u => WritesNone s u ∧ Passes s u ∧
        ∃ l : Load, l.id = s.fresh ∧ l.seq = s.cur.2 ∧ l.before = s.me ∧ l.dest = .queue q ∧
          l.src = .entry ⟨0x0C, s.here.tens.tiles[tile].rows.toList.getD row 0, 0⟩ (if rel then some tile else none) ∧
          Frame s.used u (fun k => { k.claim q with loads := k.loads ++ [l] }))) ∧
  (∀ (c : CoreId) (q : Fin 16) (e : QEntry) (rel : Option (Fin 4)) (l : Load) (rest : List Load) (s : State),
    s.Unhindered (unitOfCore c) → (s.core c).loads = l :: rest → l.src = .entry e rel → l.dest = .queue q →
    Runs (.loadDataArrival c) s fun u => u = s.onCore c (fun k =>
        { k.arrive q e with loads := (l :: rest).filter fun x => x.id ≠ l.id, tens := (u.core c).tens }) ∧
      (rel = none → (u.core c).tens = (s.core c).tens) ∧
      ∀ tile, rel = some tile →
        (u.core c).tens.tiles[tile] = { (s.core c).tens.tiles[tile] with wm := 0, held := false } ∧
        (∀ n, n ≠ tile → (u.core c).tens.tiles[n] = (s.core c).tens.tiles[n]) ∧ (u.core c).tens.rings = (s.core c).tens.rings ∧
        (u.core c).tens.q = (s.core c).tens.q ∧ (u.core c).tens.nest = (s.core c).tens.nest) ∧
  (∀ (dst : Fin 32) (b : Fin 8) (s : State),
    Runs (.bget dst b) s fun u => Frame s u id ∧ Writes s u dst s.here.bounds[b] ∧ Passes s u) ∧
  (∀ (b : Fin 8) (src : Fin 32) (s : State),
    (s.here.inFlight s.cur.2 = 0 → Runs (.bset b src) s fun u =>
      Frame s u (fun k => { k with bounds := k.bounds.set b (s.reg src) }) ∧ WritesNone s u ∧ Passes s u) ∧
    (s.here.inFlight s.cur.2 ≠ 0 → Runs (.bset b src) s fun u => Waits s u .other))

/-- O49. TCUT claims a slot and cuts from its bound's hi on: it takes coordinates in rising order, 24 a sub-tile, up to what the slot
holds, and leaves the bound word of R292; with HOLD the slot waits for its follower, else it is full (R287-R292). TFOL keeps of the
lead's list what its own operand has live, and both slots are full with the bound word of R295. Both wait until what LD has in flight, which may yet fault, has come. Readings of the model: logs 10, 43, 44, 79, 81. -/
def Obligations.Cuts : Prop :=
  (∀ (hold : Bool) (b : Fin 8) (base : Fin 32) (sh : Fin 16) (off : BitVec 32) (s v w : State) (o : CutOp) (r : Ring) (k0 : Nat)
      (a : CutAt), s.Unhindered (unitOfCore s.cur.1) → s.here.inFlight s.cur.2 = 0 →
    s.here.shapePending s.cur.2 sh = false → s.cutOp base sh off = .ok o → o.map.extractLsb' 48 16 = 0 → r = s.here.ring o.ring →
    (hold = true → r.inCut .held = []) → r.inCut .cutting = [] → r.roomWhole = true → k0 = max (bwHi s.here.bounds[b]) o.lo →
    v = (s.mod fun k => (k.setRing o.ring r.claimSlot.2).noteClaim o.ring r.fillp).cutStart s.cutting o r.fillp b k0 →
    v.cutLoop s.cutting o (v.here.ring o.ring) r.fillp b (o.hi - k0) .new ⟨k0, none, []⟩ = (w, .ok a) → w.errs = [] →
    (a.taken.Pairwise (· < ·) ∧ (∀ c ∈ a.taken, k0 ≤ c ∧ c < a.k) ∧ a.taken.length ≤ 24 * (r.ks - 1) ∧
      a.k ≤ max k0 o.hi ∧ a.lo = a.taken.head?) ∧
    Runs (.tcut hold b base sh off) s fun u =>
      let n := a.taken.length
      let x := (u.here.ring o.ring).slot r.fillp
      WritesNone w u ∧ Passes w u ∧
      Frame w u (fun k => { k with bounds := u.here.bounds, tens := u.here.tens, pad := u.here.pad }) ∧
      (n = 0 → u.here.bounds[b] = boundWord o.hi o.hi 0 3) ∧
      (∀ lo, a.taken.head? = some lo → u.here.bounds[b] = boundWord lo a.k n (if a.k = o.hi then 2 else 0)) ∧
      (∀ m, m ≠ b → u.here.bounds[m] = w.here.bounds[m]) ∧
      (r.fillp < (w.here.ring o.ring).slots.length →
        x.full = !hold ∧ x.cut = (if hold then .held else .none) ∧ x.creg = b ∧ x.copy = some (b, u.here.bounds[b]))) ∧
  (∀ (b : Fin 8) (base : Fin 32) (sh : Fin 16) (lead : Fin 8) (off : BitVec 32) (s v w y z : State) (o : CutOp) (d r : Ring)
      (ds lo hi f : Nat) (list live kept cols : List Nat), s.Unhindered (unitOfCore s.cur.1) → s.here.inFlight s.cur.2 = 0 →
    s.here.shapePending s.cur.2 sh = false → s.cutOp base sh off = .ok o → o.map.extractLsb' 48 16 = 0 → d = s.here.ring lead →
    r = s.here.ring o.ring → lead ≠ o.ring → d.role ≠ r.role → ((d.inCut .held).find? fun i => (d.slot i).creg == b) = some ds →
    r.roomWhole = true →
    (s.mod fun k => (k.setRing o.ring r.claimSlot.2).noteClaim o.ring r.fillp).getIndex s.cutting d ds = (v, some (lo, list)) →
    v.follow s.cutting o .new list = (w, .ok live) → followWord s.here.bounds[b] list live (24 * (r.ks - 1)) = (kept, hi, f) →
    w.followRows s.cutting o .new kept = (y, .ok cols) →
    y.trim s.cutting d ds list kept lo b = (z, true) → z.errs = [] →
    (∀ c ∈ kept, c ∈ list) ∧ kept.length ≤ 24 * (r.ks - 1) ∧
    Runs (.tfol b base sh lead off) s fun u => WritesNone z u ∧ Passes z u ∧
      Frame z u (fun k => { k with bounds := u.here.bounds, tens := u.here.tens, pad := u.here.pad }) ∧
      u.here.bounds[b] = boundWord (bwLo s.here.bounds[b]) hi kept.length f ∧
      (∀ m, m ≠ b → u.here.bounds[m] = z.here.bounds[m])) ∧
  (∀ (b : Fin 8) (base : Fin 32) (sh : Fin 16) (lead : Fin 8) (off : BitVec 32) (s : State), s.Unhindered (unitOfCore s.cur.1) →
    s.here.inFlight s.cur.2 ≠ 0 → (∀ hold, Runs (.tcut hold b base sh off) s fun u => Waits s u .other) ∧
      Runs (.tfol b base sh lead off) s fun u => Waits s u .other) ∧
  (∀ (b : Fin 8) (base : Fin 32) (sh : Fin 16) (lead : Fin 8) (off : BitVec 32) (s : State) (o : CutOp),
    s.Unhindered (unitOfCore s.cur.1) → s.here.inFlight s.cur.2 = 0 → s.here.shapePending s.cur.2 sh = false →
      s.cutOp base sh off = .ok o → s.me.inTrap = false →
    (o.map.extractLsb' 48 16 ≠ 0 →
      (∀ hold, Runs (.tcut hold b base sh off) s fun u => Traps s u .addressOutOfRange s.me.pc o.map) ∧
      Runs (.tfol b base sh lead off) s fun u => Traps s u .addressOutOfRange s.me.pc o.map) ∧
    (o.map.extractLsb' 48 16 = 0 → (lead = o.ring ∨ (s.here.ring lead).role = (s.here.ring o.ring).role) →
      Runs (.tfol b base sh lead off) s fun u => Traps s u .reservedOperand s.me.pc 0) ∧
    (o.map.extractLsb' 48 16 = 0 → lead ≠ o.ring → (s.here.ring lead).role ≠ (s.here.ring o.ring).role →
      (s.here.ring lead).inCut .held = [] →
      Runs (.tfol b base sh lead off) s fun u => Traps s u .noCutToFollow s.me.pc 0))

/-! ## Engines at work (R302-R318, R271-R282, R230-R246, R337-R340) -/

/-- O50. The gather engine starts commands in order once their time has come (R303), and none while a reply finds rq full (R211, R304);
each has its effect, element by element in order (R308, R310-R314, R323-R325): GATHER, SCATTER, POOL, COPY and FILL write the rows or the
bytes of memory that their lists and ranges name, SELK evicts slots of a KV page, a COLL adds or takes its rows or forms its chunk, NBT
replies the time; a length out of limits halts the queue (R308). What is written to a line in a memory without injected errors is what its
bytes then are, and no other byte changes. The head completes when its
reply has room, and arrives (R304); an arrival on another context's hitch has frozen the queue (R210). An atomic writes the new word of
R316 at its address and nothing else, and halts the queue where R316 or R317 forbids it. Readings of the model: logs 18, 34, 46, 47, 48,
49, 76. -/
def Obligations.EngineCommands : Prop :=
  (∀ (c : CoreId) (s : State), s.Unhindered (engineOf c) → ((s.core c).gath.halted ≠ none ∨ (s.core c).gath.frozen ≠ none ∨
      (∀ m ∈ (s.core c).gath.cmds, m.ended = true) ∨ (s.core c).gathHeld = true) →
    exec (.engineCommandStart c) s = .next s ∧ exec (.atomicApply c) s = .next s) ∧
  (∀ (c : CoreId) (s : State) (pre post : List EngCmd) (m : EngCmd), (s.core c).gath.StandsAt pre m post → m.begun = false →
    (s.core c).gathHeld = false → s.Unhindered (engineOf c) →
    ((s.gtb.toNat < m.nb.toNat ∨ (m.bad = true ∧ s.rel.relpol.getLsbD 7 = true)) →
      exec (.engineCommandStart c) s = .next s) ∧
    (m.nb.toNat ≤ s.gtb.toNat → m.bad = false →
      (∀ o, m.op = .nbt o → exec (.engineCommandStart c) s = .next (s.withGath c
        (pre ++ { s.started m with ended := true, reply := if o.imm.getLsbD 0 then some s.gtb else m.reply } :: post))) ∧
      (∀ o, m.op = .fill o → (m.c.toNat < 32 ∨ 2 ^ 32 < m.c.toNat) → exec (.engineCommandStart c) s =
        .next (s.gathHalted c (pre ++ s.started m :: post) m .engineOperand 0)) ∧
      (∀ o n, m.op = .fill o → o.imm.getLsbD 1 = true → m.c.toNat = 256 * n → 1 ≤ n → m.b.extractLsb' 30 34 = 0 →
        engRow m.b + n ≤ 2048 → m.done = 0 → s.errs = [] → (∀ i, i < n → s.claimant (engCore m.b) (engRow m.b + i) = some m.ctx) →
        Runs (.engineCommandStart c) s fun u => u = { s with cores := u.cores } ∧
          (∀ d, u.core d = { s.core d with pad := (u.core d).pad, gath := (u.core d).gath }) ∧
          (∀ d, d ≠ c → (u.core d).gath = (s.core d).gath) ∧ (∀ d, d ≠ engCore m.b → (u.core d).pad = (s.core d).pad) ∧
          (u.core c).gath = { (s.core c).gath with
            cmds := pre ++ { s.started m with ended := true, done := 8 * n, lay := some 0 } :: post } ∧
          (∀ i, i < n → ((u.core (engCore m.b)).padAt (engRow m.b + i)).tag = 0 ∧
            ∀ j, j < 32 → ((u.core (engCore m.b)).padAt (engRow m.b + i)).data.extractLsb' (64 * j) 64 = m.a) ∧
          ∀ r, (r < engRow m.b ∨ engRow m.b + n ≤ r) →
            (u.core (engCore m.b)).padAt r = (s.core (engCore m.b)).padAt r))) ∧
  (∀ (c : CoreId) (s : State) (pre post : List EngCmd) (m m' : EngCmd) (t : Table) (n : Nat) (σ : Nat → State), s.Starts c pre m post m' →
    tableOf m'.shape = some t → n = m'.b.toNat →
    ((n = 0 ∨ 65535 < n) → (∀ o, m'.op = .gather o ∨ m'.op = .scatter o →
      exec (.engineCommandStart c) s = .next (s.gathHalted c (pre ++ m' :: post) m' .engineOperand 0))) ∧
    (1 ≤ n → n ≤ 65535 → m'.done ≤ n →
      (∀ o (L : Nat → Option Layout), m'.op = .gather o → o.imm.getLsbD 0 = false → m'.c.extractLsb' 30 34 = 0 →
        engRow m'.c + (n * t.bytes + 255) / 256 ≤ 2048 → L m'.done = m'.lay →
        InOrder c s m'.done n σ (fun i => GathersRow c m' t i (L i) (L (i + 1))) →
        RunsTo c s (σ n) pre { m' with ended := true, done := n, lay := L n } post) ∧
      (∀ o (L : Nat → Option Layout) (x : Nat → Option Nat), m'.op = .gather o → o.imm.getLsbD 0 = true → m'.shape.ring.toNat < 8 →
        ((s.core c).ring m'.ringNo).count ≠ 0 → n * m'.shape.e 0 % (8 * ((s.core c).ring m'.ringNo).srows) = 0 →
        L m'.done = m'.lay → m'.aux = ((x m'.done).map (· + 1)).getD 0 →
        InOrder c s m'.done n σ (fun i => GathersSlot c m' t m'.ringNo i (L i) (L (i + 1)) (x i) (x (i + 1))) →
        RunsTo c s (σ n) pre { m' with ended := true, done := n, lay := L n, aux := ((x n).map (· + 1)).getD 0 } post) ∧
      (∀ o, m'.op = .scatter o → m'.c.extractLsb' 30 34 = 0 → engRow m'.c + (n * t.bytes + 255) / 256 ≤ 2048 →
        (InOrder c s m'.done n σ (fun i => Scatters c m' t i) → RunsTo c s (σ n) pre { m' with ended := true, done := n } post) ∧
        (∀ i v cause va, m'.done ≤ i → i < n → InOrder c s m'.done i σ (fun j => Scatters c m' t j) →
          (σ i).engIndex c m' m'.a i = (v, .error (.trap cause va)) → (v.core c).gath = (s.core c).gath →
          exec (.engineCommandStart c) s = .next (v.gathHalted c (pre ++ { m' with done := i } :: post) m' cause va)))) ∧
    (∀ o out p w val pte pa v (D : Nat → Nat), m'.op = .pool o → 1 ≤ n → n ≤ 4096 → m'.pool.bag < n →
      m'.pool = ⟨m'.pool.bag, 0, false, []⟩ →
      poolOut m'.shape.code = some out → s.reachVa c m'.who m'.sup ⟨true, false, false⟩ t.base = (v, .ok (pte, pa)) →
      (v.core c).gath = (s.core c).gath → poolSource (heldCode (pteCode pte)) = some (w, val) →
      p = ⟨t, heldCode (pteCode pte), w, val, out, 8 * t.bytes / w, (8 * t.bytes / w * out.width / 8 + 255) / 256⟩ →
      m'.c.extractLsb' 30 34 = 0 → engRow m'.c + p.nr * n ≤ 2048 → D m'.pool.bag = m'.done →
      InOrder c v m'.pool.bag n σ (fun i a b => ∃ k, D (i + 1) = D i + k ∧ PoolsBag c m' p i k a b) →
      RunsTo c s (σ n) pre { m' with ended := true, done := D n, pool := ⟨n, 0, false, []⟩ } post)) ∧
  (∀ (c : CoreId) (s : State) (pre post : List EngCmd) (m m' : EngCmd) (n : Nat) (σ : Nat → State), s.Starts c pre m post m' →
    32 ≤ m'.c.toNat → m'.c.toNat ≤ 2 ^ 32 → n = m'.c.toNat / 32 → m'.done ≤ n →
    (∀ o, m'.op = .copy o → endStop m'.a m'.c.toNat (o.imm.getLsbD 0) 32 = none →
      endStop m'.b m'.c.toNat (o.imm.getLsbD 1) (if o.imm.getLsbD 2 then 128 else 32) = none →
      (o.imm.getLsbD 2 = false → ∀ L : Nat → Option Layout, L m'.done = m'.lay →
        InOrder c s m'.done n σ (fun i => Copies c m' o i (L i) (L (i + 1))) →
        RunsTo c s (σ n) pre { m' with ended := true, done := n, lay := L n } post) ∧
      (o.imm.getLsbD 2 = true → InOrder c s m'.done n σ (fun i => CopiesCode c m' o i) →
        RunsTo c s (σ n) pre { m' with ended := true, done := n } post)) ∧
    (∀ o, m'.op = .fill o → o.imm.getLsbD 1 = false → m'.b.toNat % 32 = 0 → m'.c.toNat % 32 = 0 →
      InOrder c s m'.done n σ (fun i a b => ∃ page,
        BytesGo a b c m' (m'.b + BitVec.ofNat 64 (32 * i)) 32 (m'.a.toNat * (1 + 2 ^ 64 + 2 ^ 128 + 2 ^ 192)) page) →
      RunsTo c s (σ n) pre { m' with ended := true, done := n } post)) ∧
  (∀ (c : CoreId) (s v w : State) (pre post : List EngCmd) (m m' : EngCmd) (o : CCmd) (g : Got) (live : List Nat)
      (cand : List (Nat × Nat)), s.Starts c pre m post m' → m'.op = .selk o → m'.done = 0 → m'.c.toNat ≤ 255 → m'.a.toNat % 4 = 0 →
    s.engRead c m' (rowOf m'.b) 256 = (v, .ok g) → g.page = 0x1A → kvBad g.x = false →
    live = (List.range 255).filter (fun j => kvLive g.x j) →
    v.readCounters c m' (live.filter fun j => decide (j < fieldAt g.x 288 16 - (o.imm.extractLsb' 0 8).toNat)) = (w, .ok cand) →
    (w.core c).gath = (s.core c).gath →
    ∃ gone, Evicts cand (live.length - m'.c.toNat) gone ∧
      (gone = [] → RunsTo c s w pre { m' with ended := true, reply := some (BitVec.ofNat 64 (live.length * 2 ^ 8)) } post) ∧
      ∀ u bits page, gone ≠ [] → bits < 2 ^ 256 → (∀ j, j < 256 → bits.testBit j = (g.x.testBit j && !gone.contains j)) →
        BytesGo w u c m' (rowOf m'.b) 32 bits page → (u.core c).gath = (s.core c).gath →
        RunsTo c s u pre { m' with
          ended := true, done := 1
          reply := some (BitVec.ofNat 64 (gone.length + (live.length - gone.length) * 2 ^ 8)) } post) ∧
  (∀ (c : CoreId) (s : State) (pre post : List EngCmd) (m m' : EngCmd) (o : CCmd), s.Starts c pre m post m' → m'.op = .coll o →
    (m'.collBad o = true → exec (.engineCommandStart c) s = .next (s.gathHalted c (pre ++ m' :: post) m' .engineOperand 0)) ∧
    (m'.collBad o = false → m'.chunk ≠ [] → RunsTo c s s pre m' post) ∧
    (m'.collBad o = false → m'.chunk = [] →
      (∀ v L, collOp o = .send → s.collRead c m' m'.a 0 m'.rows = (v, .ok L) → (v.core c).gath = (s.core c).gath →
        RunsTo c s v pre { m' with chunk := L ++ [(trailerFor (collInt o) L none).row] } post) ∧
      (∀ v g t, collOp o ≠ .send → s.engRead c m' (m'.c + BitVec.ofNat 64 (256 * m'.rows)) 256 = (v, .ok g) → t = trailerOf g.x →
        (v.core c).gath = (s.core c).gath →
        (t.st = 0 → RunsTo c s v pre m' post) ∧
        (t.st = 2 → exec (.engineCommandStart c) s = .next (v.gathHalted c (pre ++ m' :: post) m' .collectiveChecksum
          (m'.c + BitVec.ofNat 64 (256 * m'.rows)))) ∧
        (t.st ≠ 0 → t.st ≠ 2 →
          (∀ w x y L I page, collOp o = .addSend → v.collRead c m' m'.a 0 m'.rows = (w, .ok L) →
            w.collRead c m' m'.c 0 m'.rows = (x, .ok I) →
            BytesGo x y c m' (m'.c + BitVec.ofNat 64 (256 * m'.rows)) 32 ({ t with st := 0 }.row.toNat % 2 ^ 256) page →
            (y.core c).gath = (s.core c).gath →
            RunsTo c s y pre { m' with
              chunk := (L.zip I).map (fun r => collAdd (collInt o) r.1 r.2) ++ [(trailerFor (collInt o) L (some t)).row] } post) ∧
          (∀ u page (σ : Nat → State), (collOp o).sends = false → m'.done ≤ m'.rows → InOrder c v m'.done m'.rows σ (CollRow c m' o) →
            BytesGo (σ m'.rows) u c m' (m'.c + BitVec.ofNat 64 (256 * m'.rows)) 32 ({ t with st := 0 }.row.toNat % 2 ^ 256) page →
            (u.core c).gath = (s.core c).gath →
            RunsTo c s u pre { m' with ended := true, done := m'.rows } post))))) ∧
  (∀ (s t : State) (who : Asker) (code : Layout) (va : Word) (pa n x : Nat), s.Healthy → s.barred = [] → inHbm pa = true →
    isEmbc code = false → code.toNat < 0x1C → pa % 32 = 0 → n % 32 = 0 → pa % 256 + n ≤ 256 → x < 2 ^ (8 * n) →
    (∀ la, la / 2 = pa / 256 → s.slices[sliceOf la].queue = [] ∧ s.slices[sliceOf la].miss = []) →
    s.writeLines who code va pa n x 3 = (t, .ok ()) →
    t.Healthy ∧ ∀ a, t.peek a = if pa ≤ a ∧ a < pa + n then BitVec.ofNat 8 (x / 2 ^ (8 * (a - pa))) else s.peek a) ∧
  (∀ (c : CoreId) (s : State), (s.core c).gath.cmds = [] → exec (.engineCommandComplete c) s = .next s) ∧
  (∀ (c : CoreId) (s : State) (m : EngCmd) (rest : List EngCmd), (s.core c).gath.cmds = m :: rest →
    (m.ended = false → exec (.engineCommandComplete c) s = .next s) ∧
    (m.owes = true → (s.core c).rqRoom = false → exec (.engineCommandComplete c) s = .next s) ∧
    ((∃ v, (s.core c).gath.frozen = some v ∧ v.kind = .foreignHitch) → exec (.engineCommandComplete c) s = .next s) ∧
    ((∀ v, (s.core c).gath.frozen = some v → v.kind ≠ .foreignHitch) →
    (m.ended = true → m.owes = false → exec (.engineCommandComplete c) s =
      .next ((s.onCore c fun k => { k.copyDone m with gath := { k.gath with cmds := rest } }).arriveCmd c m)) ∧
    (∀ x, m.ended = true → m.owes = true → m.reply = some x → (s.core c).rqRoom = true → exec (.engineCommandComplete c) s =
      .next ((s.onCore c fun k => { k with gath := { k.gath with cmds := rest }, rq := k.rq ++ [⟨x, m.f.tag⟩] }).arriveCmd c m)))) ∧
  (∀ (c : CoreId) (s : State) (pre post : List EngCmd) (m : EngCmd) (a : Atom), s.Unhindered (engineOf c) →
    (s.core c).gath.StandsAt pre m post →
    (s.core c).gathHeld = false → m.begun = true → atomOf m.op = some a → m.done < m.count →
    (∀ v, m.listed = true → s.engIndex c m m.c m.done = (v, .ok 0xFFFFFFFF) → (v.core c).gath.StandsAt pre m post →
      exec (.atomicApply c) s =
        .next (v.withGath c (pre ++ { m with done := m.done + 1, ended := decide (m.count ≤ m.done + 1) } :: post))) ∧
    (∀ v va, AtomAt s v c m va → (v.core c).gath.StandsAt pre m post →
      (va.toNat % (a.w / 8) ≠ 0 →
        exec (.atomicApply c) s = .next (v.gathHalted c (pre ++ m :: post) m .misalignedAtomic va)) ∧
      (∀ w p pa, va.toNat % (a.w / 8) = 0 → v.reachVa c m.who m.sup ⟨true, true, false⟩ va = (w, .ok (p, pa)) →
        (w.core c).gath.StandsAt pre m post →
        (pteCode p ≠ 0 → pteCode p ≠ 0x19 →
          exec (.atomicApply c) s = .next (w.gathHalted c (pre ++ m :: post) m .layoutMismatch va)) ∧
        ((pteCode p = 0 ∨ pteCode p = 0x19) → scopeLegal a p pa m.f.scope m.f.order = false →
          exec (.atomicApply c) s = .next (w.gathHalted c (pre ++ m :: post) m .atomicScopeIllegal va)) ∧
        (∀ l old wd new, (pteCode p = 0 ∨ pteCode p = 0x19) → scopeLegal a p pa m.f.scope m.f.order = true → pteDiscard p ≠ 1 →
          inHbm pa = true → w.errs = [] → w.slices[sliceOf (pa / 128)].queue = [] → w.slices[sliceOf (pa / 128)].miss = [] →
          pa % (a.w / 8) = 0 → w.lineAt (pa / 128) = some l → l.tag = pteCode p → l.flips = [] → l.valid.getLsbD (pa / 32 % 4) = true →
            old = l.data.toNat / 2 ^ (8 * (pa % 128)) % 2 ^ wd →
          atomTable m.op old m.b.toNat m.c.toNat = some (wd, new) →
          Runs (.atomicApply c) s fun u => ∃ l' : L2Line, u = { w with l2 := u.l2, cores := u.cores } ∧
            u.l2 = l' :: w.l2.filter (fun x => x.la != l.la) ∧
            l' = { l with data := l'.data, dirty := l.dirty ||| (1 <<< (pa / 32 % 4)), owner := m.ctx,
                          marks := Vector.ofFn fun i => if i.val = pa / 32 % 4 then 0 else l.marks[i] } ∧
            (∀ b, b < 1024 → l'.data.getLsbD b =
              if 8 * (pa % 128) ≤ b ∧ b < 8 * (pa % 128) + wd then new.testBit (b - 8 * (pa % 128)) else l.data.getLsbD b) ∧
            (u.core c).gath = { (w.core c).gath with
              cmds := pre ++ { m with
                done := m.done + 1
                ended := decide (m.count ≤ m.done + 1)
                reply := if m.owesOld then some (BitVec.ofNat 64 old) else m.reply } :: post } ∧
            u.core c = { w.core c with gath := (u.core c).gath } ∧ ∀ d, d ≠ c → u.core d = w.core d))))

/-- O51. The tensor queue executes its head: TCFG writes the shadow level, RCFG configures its ring once nothing uses it, TGO starts the
nest once none runs; what R267, R271 or R279 forbids halts the queue (R280). The nest goes on to its K-steps, which take the clk of R263,
and whose sums land 12 clk later in the lanes of live lines (R274-R276), and is complete when all has landed. A replay goes back to the marker (R381), or ends the
context (R382). Readings of the model: logs 41, 42, 45, 92, 94. -/
def Obligations.TensorEvents : Prop :=
  (∀ (c : CoreId) (s : State), ((s.core c).tens.q.halted ≠ none ∨ (s.core c).tens.q.frozen ≠ none ∨
      (s.core c).tens.q.cmds = []) →
    exec (.tensorCommandExecute c) s = .next s) ∧
  (∀ (c : CoreId) (s : State) (m : EngCmd) (rest : List EngCmd) (t : Tensor), (s.core c).tens = t → t.q.halted = none →
    t.q.frozen = none → t.q.cmds = m :: rest →
    (m.bad = true → s.rel.relpol.getLsbD 7 = true → exec (.tensorCommandExecute c) s = .next s) ∧
    (m.bad = false →
      let faults : Cause → Prop := fun cause => exec (.tensorCommandExecute c) s =
        .next (s.tensorFault c { t with q := { t.q with cmds := { m with ended := true } :: rest } } m cause)
      (∀ o, m.op = .tcfg o →
        (lvBad m.a = true → faults .reservedOperand) ∧
        (lvBad m.a = false → o.imm.toNat < 6 → Runs (.tensorCommandExecute c) s fun u =>
          u = s.onCore c (fun k => { k with tens := (u.core c).tens }) ∧
          (u.core c).tens = { t with q := { t.q with cmds := rest }, shadow := (u.core c).tens.shadow, replay := (u.core c).tens.replay } ∧
          ∀ i, i < 6 → (u.core c).tens.shadow.toList.getD i 0 = if i = o.imm.toNat then m.a else t.shadow.toList.getD i 0)) ∧
      (∀ o n, m.op = .rcfg o → n = (o.imm.extractLsb' 0 3).toFin →
        ((t.names n = true ∨ t.rings[n].coming ≠ 0 ∨ ∃ g ∈ (s.core c).gath.cmds, ∃ o, g.op = .gather o ∧ g.aux ≠ 0 ∧
          g.shape.ring = BitVec.ofNat _ n.val) →
          exec (.tensorCommandExecute c) s = .next s) ∧
        (t.names n = false → t.rings[n].coming = 0 → (∀ g ∈ (s.core c).gath.cmds, ∀ o, g.op = .gather o →
          g.aux = 0 ∨ g.shape.ring ≠ BitVec.ofNat _ n.val) →
          (∀ cause, ringFault t.rings n m.a (s.core c).claimed = some cause → faults cause) ∧
          (ringFault t.rings n m.a (s.core c).claimed = none → Runs (.tensorCommandExecute c) s fun u =>
            u = s.onCore c (fun k => { k with tens := (u.core c).tens }) ∧
            (u.core c).tens = { t with q := { t.q with cmds := rest }, rings := (u.core c).tens.rings, replay := (u.core c).tens.replay } ∧
            (∀ i, i ≠ n → (u.core c).ring i = t.rings[i]) ∧ ((u.core c).ring n).word = m.a ∧ ((u.core c).ring n).head = 0 ∧
            ((u.core c).ring n).fillp = 0 ∧ ((u.core c).ring n).slots.length = ((u.core c).ring n).count ∧
            ∀ x ∈ ((u.core c).ring n).slots, x.full = false ∧ x.claimed = 0))) ∧
      (∀ o, m.op = .tgo o →
        (t.nest ≠ none → exec (.tensorCommandExecute c) s = .next s) ∧
        (t.nest = none →
          (∀ cause, tgoFault s.reduced t.rings[ringA o] t.rings[ringB o] = some cause → faults cause) ∧
          (tgoFault s.reduced t.rings[ringA o] t.rings[ringB o] = none → Runs (.tensorCommandExecute c) s fun u =>
            u = s.onCore c (fun k => { k with tens := (u.core c).tens }) ∧
            (u.core c).tens = { t with
              q := { t.q with cmds := rest }
              active := t.shadow
              nest := some ⟨(o.imm.extractLsb' 0 3).toFin, (o.imm.extractLsb' 3 3).toFin, [], .enter, 0, 0,
                (o.imm.extractLsb' 6 2).toFin, m, s.clkOf c + 2⟩
              replay := (u.core c).tens.replay }))))) ∧
  (∀ (c : CoreId) (s : State), (s.core c).tens.nest = none →
    exec (.tensorKstep c) s = .next s ∧ exec (.nestComplete c) s = .next s) ∧
  (∀ (c : CoreId) (s : State) (n n' : Nest) (t : Tensor) (a : Adv), s.errs = [] → (s.core c).tens.nest = some n →
    ((s.clkOf c < n.next ∨ s.gtb.toNat < n.cmd.nb.toNat) →
      exec (.tensorKstep c) s = .next s ∧ exec (.nestComplete c) s = .next s) ∧
    (n.next ≤ s.clkOf c → n.cmd.nb.toNat ≤ s.gtb.toNat →
      Tensor.advance (s.core c).bounds (s.clkOf c) nestFuel (s.core c).tens n = (t, n', a) →
      let stands : State := s.onCore c fun k => { k with tens := { t with nest := some n' } }
      (∀ cause, a = .fault cause →
        exec (.tensorKstep c) s = .next (s.tensorFault c { t.allArrived with nest := none } n'.cmd cause) ∧
        exec (.nestComplete c) s = .next (s.tensorFault c { t.allArrived with nest := none } n'.cmd cause)) ∧
      (∀ w, a = .wait w → exec (.tensorKstep c) s = .next stands ∧ exec (.nestComplete c) s = .next stands) ∧
      (a = .done → exec (.tensorKstep c) s = .next stands ∧
        (t.flight ≠ [] → exec (.nestComplete c) s = .next stands) ∧
        (t.flight = [] → exec (.nestComplete c) s = .next (
          let u := s.onCore c fun k => { k with tens := { t.allArrived with nest := none } }
          if n'.cmd.ended then u else u.arriveCmd c n'.cmd))) ∧
      (a = .kstep → exec (.nestComplete c) s = .next stands ∧
        (∀ w, { t with nest := some n' }.ready n' = .error (.wait w) → exec (.tensorKstep c) s = .next stands) ∧
        (∀ cause, { t with nest := some n' }.ready n' = .error (.fault cause) → exec (.tensorKstep c) s =
          .next (s.tensorFault c { t.allArrived with nest := none } n'.cmd cause)) ∧
        (∀ ia ib ra rb cap, { t with nest := some n' }.ready n' = .ok (ia, ib) → ra = t.rings[n'.ringA] → rb = t.rings[n'.ringB] →
          cap = (match n'.levels with | l :: _ => if l.i + 1 = l.n then l.last else 24 | [] => 24) →
          (∀ r, (s.padRow c r).flips = []) →
          Runs (.tensorKstep c) s fun u => u = s.onCore c (fun k => { k with tens := (u.core c).tens }) ∧
            ∃ x y, SubRead (s.core c) ra ia.1 ia.2 cap x ∧ SubRead (s.core c) rb ib.1 ib.2 cap y ∧
              ∃ d, KstepTakes ra ia.1 ia.2 x rb ib.1 ib.2 y d ∧ (u.core c).tens = { t with
                flight := t.flight ++ [⟨s.clkOf c + 12, n'.cur, .add x y (min x.kv y.kv)⟩]
                nest := some { n' with at' := .tail, next := s.clkOf c + d }
                replay := { t.replay with touched := t.replay.touched ||| (1 <<< n'.cur.val) } })))) ∧
  (∀ (c : CoreId) (s : State), (s.core c).tens.flight = [] → exec (.kstepLand c) s = .next s) ∧
  (∀ (c : CoreId) (s : State) (pre post : List Flight) (f : Flight) (t : Tensor), (s.core c).tens = t →
    t.flight = pre ++ f :: post → (∀ x ∈ pre, f.due < x.due) → (∀ x ∈ post, f.due ≤ x.due) →
    (s.clkOf c < f.due → exec (.kstepLand c) s = .next s) ∧
    (s.errs = [] → f.due ≤ s.clkOf c → Runs (.kstepLand c) s fun u => u = s.onCore c (fun k => { k with tens := (u.core c).tens }) ∧
      (u.core c).tens = { t with flight := pre ++ post, tiles := (u.core c).tens.tiles } ∧
      (∀ n, n ≠ f.tile → (u.core c).tens.tiles[n] = t.tiles[n]) ∧
      (f.op = .clear → (u.core c).tens.tiles[f.tile] = { t.tiles[f.tile] with rows := .replicate 32 0 }) ∧
      (f.op = .final → (u.core c).tens.tiles[f.tile] = { t.tiles[f.tile] with wm := min 32 (t.tiles[f.tile].wm + 4) }) ∧
      (∀ a b live fa fb, f.op = .add a b live → tfmt a.fmt = some fa → tfmt b.fmt = some fb →
        (u.core c).tens.tiles[f.tile].wm = t.tiles[f.tile].wm ∧ (u.core c).tens.tiles[f.tile].held = t.tiles[f.tile].held ∧
        ∀ (m : Fin 32) (n : Nat), n < 64 →
          laneOf (u.core c).tens.tiles[f.tile].rows[m].toNat 32 n =
            match (if m.val < a.lv ∧ n < b.lv then kstepSum a b fa fb live m.val n else none) with
            | some x => roundF .fp32 false false .tensor (addF .tensor (decodeF .fp32 (laneOf t.tiles[f.tile].rows[m].toNat 32 n)) x)
            | none => laneOf t.tiles[f.tile].rows[m].toNat 32 n))) ∧
  (∀ (c : CoreId) (s : State), (s.core c).strand = none → exec (.tensorReplay c) s = .next s) ∧
  (∀ (c : CoreId) (s : State) (st : Strand) (t : Tensor), (s.core c).strand = some st → (s.core c).tens = t →
    (t.replay.barred = true → Runs (.tensorReplay c) s fun u => (u.core c).strand = none ∧ s.rel.rlcnt < u.rel.rlcnt) ∧
    (t.replay.barred = false → Runs (.tensorReplay c) s fun u => u = { s with cores := u.cores, rel := u.rel } ∧
      u.rel.rlcnt = s.rel.rlcnt + 1 ∧ (∀ d, d ≠ c → u.core d = s.core d) ∧
      u.core c = { s.core c with tens := (u.core c).tens } ∧ (u.core c).tens.nest = none ∧ (u.core c).tens.flight = [] ∧
      (u.core c).tens.q.cmds = t.replay.cmds ++ t.q.cmds ∧ (u.core c).tens.q.halted = none ∧
      (u.core c).tens.shadow = t.replay.shadow ∧
      (∀ n : Fin 4, (u.core c).tens.tiles[n] = if t.replay.touched.getLsbD n.val then ⟨.replicate 32 0, 0, false⟩ else t.tiles[n]) ∧
      ∀ n : Fin 8, ((u.core c).ring n).head = t.replay.heads[n] ∧ ((u.core c).ring n).word = t.rings[n].word))

/-- O52. The heads of the code queue and of the stage queue execute, reply with their tags and arrive (R230-R246, R337-R340): CGEN
writes the pages it generates, each with a term bundle in front and NOP and SPLC behind, and replies (R230, R235, R238); CLOCK lists its range
and locks its lines, CUNLK unlocks, CPREF brings its lines in and beyond its count is noted in cflt, CSWAP waits for its barrier or fails at
once; an
earlier CGEN of the cluster goes first (R230), and CLOCK and CPREF wait for a die not in service (R413); DFLUSH leaves its mark in the
phase and arrives, STGQ replies its queue's state, LENQ enqueues a launch, replies the check that failed, or waits with its reads
(R413). efctl resumes, drops the head or drops all (R308); a rolled-back window issues its commands again, and a second mismatch or
an effect found wrong ends the context (R378, R379). Readings of the model: logs 47, 51, 52, 53, 58, 84, 85, 95. -/
def Obligations.QueuesExecute : Prop :=
  (∀ (c : CoreId) (s : State), s.Unhindered (engineOf c) → (s.core c).code.cmds = [] → exec (.codeCommandExecute c) s = .next s) ∧
  (∀ (c : CoreId) (s : State), s.Unhindered (engineOf c) → (s.core c).stg.cmds = [] → exec (.stageCommandExecute c) s = .next s) ∧
  (∀ (d : GenData) (budget : Nat) (g : Generated), g = generate d budget →
    g.status ≤ 1 ∧ g.pages ≠ [] ∧ g.pages.length ≤ max 1 budget ∧
    ∀ pre p post, g.pages = pre ++ p :: post → p.length ≤ 0x2000 ∧
      (∃ ss ws, p = (tbWords true true ss).1 :: (tbWords true true ss).2 :: ws) ∧
      (post ≠ [] → p.length = 0x2000 ∧ p[0x1FFE]? = some (encode ⟨false, .nop⟩).1 ∧ p[0x1FFF]? = some (encode ⟨false, .splc⟩).1)) ∧
  (∀ (d : Nat) (src : Fin 128) (w : Int), -512 ≤ w → w ≤ 508 → ∃ xs : List (BitVec 8),
    tmac d src w = xs.map (fun x => .term (.tmac (accReg d) src x)) ∧ (xs.map BitVec.toInt).sum = w) ∧
  (∀ (c : CoreId) (s : State) (m : EngCmd) (rest : List EngCmd), s.Unhindered (engineOf c) → (s.core c).code.cmds = m :: rest →
    m.ended = false →
    ((s.gtb.toNat < m.nb.toNat ∨ (m.bad = true ∧ s.rel.relpol.getLsbD 7 = true) ∨ (s.core c).code.frozen ≠ none) →
      exec (.codeCommandExecute c) s = .next s) ∧
    (m.nb.toNat ≤ s.gtb.toNat → m.bad = false → (s.core c).code.frozen = none →
      let behind : State → List EngCmd := fun v => rest.modifyHead fun x => { x with since := v.clkOf c }
      let popped : (Core → Core) → State := fun f =>
        (s.onCore c fun k => f { k with code := { k.code with cmds := behind s } }).arriveCmd c m
      (∀ o v r, m.op = .cgen o → s.stavaskTurn c m = true → s.runCgen c m o = (v, r) → (v.core c).code.cmds = m :: rest →
        (v.core c).code.frozen = none → (v.core c).rqRoom = true →
        exec (.codeCommandExecute c) s = .next ((v.onCore c fun k => { k with
          code := { k.code with cmds := behind v }, rq := k.rq ++ [⟨r, m.f.tag⟩] }).arriveCmd c m)) ∧
      (∀ o d x xs y, m.op = .cgen o → clusterOf d = clusterOf c → (s.core d).code.cmds = x :: xs → x.op = .cgen y → x.ended = false →
        x.bad = false → x.nb.toNat ≤ s.gtb.toNat → (s.core d).code.frozen = none →
        (x.since < m.since ∨ x.since = m.since ∧ d.val < c.val) → exec (.codeCommandExecute c) s = .next s) ∧
      (∀ o v e, s.readAll c m m.a 64 = (v, .error e) → s.runCgen c m o = (v, BitVec.ofNat 64 (2 * 2 ^ 60))) ∧
      (∀ o v x, s.readAll c m m.a 64 = (v, .ok x) → genBlock x m.b = none → s.runCgen c m o = (v, BitVec.ofNat 64 (3 * 2 ^ 60))) ∧
      (∀ o v x b w y z sc g, s.readAll c m m.a 64 = (v, .ok x) → genBlock x m.b = some b →
        v.readAll c m (b.wva + BitVec.ofNat 64 b.span.1) (b.span.2 - b.span.1) = (w, .ok y) →
        (if (groupOf b.layout).isSome then z = w ∧ sc = 0
          else w.readAll c m (b.sva + BitVec.ofNat 64 (64 * b.band)) (2 * b.rows) = (z, .ok sc)) →
        g = generate ⟨b, b.span.1, y, sc⟩ o.imm.toNat →
        (∀ σ : Nat → State, InOrder c z 0 (512 * g.pages.length) σ (fun i =>
            WritesCodeLine c m (m.b + BitVec.ofNat 64 (65536 * (i / 512))) (g.pages.getD (i / 512) []) (i % 512)) →
          s.runCgen c m o = (σ (512 * g.pages.length),
            BitVec.ofNat 64 (g.pages.length + g.bundles % 2 ^ 16 * 2 ^ 10 + g.status * 2 ^ 60))) ∧
        (∀ (σ : Nat → State) n u e, n < 512 * g.pages.length → InOrder c z 0 n σ (fun i =>
            WritesCodeLine c m (m.b + BitVec.ofNat 64 (65536 * (i / 512))) (g.pages.getD (i / 512) []) (i % 512)) →
          (σ n).codeFrame (clusterOf c) m.who m.sup (m.b + BitVec.ofNat 64 (65536 * (n / 512))) = (u, .error e) →
          s.runCgen c m o = (u, BitVec.ofNat 64 (n / 512 + g.bundles % 2 ^ 16 * 2 ^ 10 + 4 * 2 ^ 60)))) ∧
      (∀ o n i e (r : Nat → Locked) (σ : Nat → State), m.op = .clock o → n = m.b.toNat → 1 ≤ n → n ≤ 1024 → s.codeWaits c m = false →
        (∀ j : Fin 16, j < i → lockValid (s.core c).locks[j] = true) → lockValid (s.core c).locks[i] = false →
        e.getLsbD 63 = true → e.extractLsb' 58 5 = 0 → (e.extractLsb' 48 10).toNat = n - 1 → e.extractLsb' 7 41 = m.a.extractLsb' 7 41 →
        e.extractLsb' 0 7 = 0 → r 0 = ⟨0, false⟩ →
        InOrder c (s.onCore c fun k => { k with locks := k.locks.set i e }) 0 n σ (fun j =>
          LocksLine c m (s.core c).quota ((m.a &&& ~~~0x7F) + BitVec.ofNat 64 (128 * j)) (r j) (r (j + 1))) → ((σ n).core c).rqRoom = true →
        exec (.codeCommandExecute c) s = .next (((σ n).onCore c fun k => { k with
          code := { k.code with cmds := behind (σ n) }
          rq := k.rq ++ [⟨BitVec.ofNat 64 ((r n).refused + if (r n).notCode then 2 ^ 17 else 0), m.f.tag⟩] }).arriveCmd c m)) ∧
      (∀ o n (σ : Nat → State), m.op = .cpref o → n = m.b.toNat → 1 ≤ n → n ≤ 4096 → s.codeWaits c m = false →
        InOrder c s 0 n σ (fun j => PrefetchesLine c m (o.imm.getLsbD 0) ((m.a &&& ~~~0x7F) + BitVec.ofNat 64 (128 * j))) →
        exec (.codeCommandExecute c) s = .next (((σ n).onCore c fun k => { k with
          code := { k.code with cmds := behind (σ n) } }).arriveCmd c m)) ∧
      (∀ o, m.op = .clock o → 1 ≤ m.b.toNat → m.b.toNat ≤ 1024 → (∀ i : Fin 16, lockValid (s.core c).locks[i] = true) →
        (s.core c).rqRoom = true →
        exec (.codeCommandExecute c) s =
          .next (popped fun k => { k with rq := k.rq ++ [⟨BitVec.ofNat 64 (m.b.toNat + 2 ^ 16), m.f.tag⟩] })) ∧
      (∀ o, m.op = .cunlk o → o.imm.getLsbD 0 = true →
        (m.a = 0 → exec (.codeCommandExecute c) s = .next (popped fun k => { k with
          locks := .replicate 16 0
          codeL1 := k.codeL1.map fun l =>
            if l.ctx = m.ctx ∧ k.locks.toList.any (fun x => lockCovers x l.line) = true then { l with locked := false } else l })) ∧
        (m.a ≠ 0 → exec (.codeCommandExecute c) s =
          .next (popped fun k => { k with cflt := Cause.reservedOperand.code.setWidth 10 ||| 0x200 }))) ∧
      (∀ o, m.op = .cpref o → (m.b.toNat = 0 ∨ 4096 < m.b.toNat) → exec (.codeCommandExecute c) s =
        .next (popped fun k => { k with cflt := Cause.reservedOperand.code.setWidth 10 ||| 0x200 })) ∧
      (∀ i (va : Word) w, ((∃ o, m.op = .clock o ∧ m.b.toNat ≤ 1024 ∧ ∃ j : Fin 16, lockValid (s.core c).locks[j] = false) ∨
          ∃ o, m.op = .cpref o ∧ m.b.toNat ≤ 4096) → 0 < m.b.toNat → 512 * i < m.a.toNat % 65536 / 128 + m.b.toNat →
        va = m.a + BitVec.ofNat 64 (65536 * i) →
        (∀ x ∈ (s.core c).latt, ¬(x.ctx = m.ctx ∧ x.vpn = (va.extractLsb' 16 32).toNat)) →
        s.codeFrame (clusterOf c) m.who m.sup va = (w, .error .wait) → exec (.codeCommandExecute c) s = .next s) ∧
      (∀ o, m.op = .cswap o → (m.aux ≠ 0 ∨ (s.core c).strand = none) → exec (.codeCommandExecute c) s = .next s) ∧
      (∀ o st, m.op = .cswap o → m.aux = 0 → (s.core c).strand = some st → o.imm.getLsbD 0 = true →
        ((m.a ||| m.b).extractLsb' 0 16 = 0 → exec (.codeCommandExecute c) s = .next (({ s with
            swaps := s.swaps ++ [⟨c, st.gid, (o.imm.extractLsb' 1 3).toNat, true, m.a, m.b, m.c, m⟩] } : State).onCore c fun k =>
          { k with code := { k.code with cmds := behind s } })) ∧
        ((m.a ||| m.b).extractLsb' 0 16 ≠ 0 → (s.core c).rqRoom = true → exec (.codeCommandExecute c) s =
          .next (popped fun k => { k with rq := k.rq ++ [⟨0xFFFFFFFFFFFFFFFF, m.f.tag⟩] }))) ∧
      (∀ o st v x y, m.op = .cswap o → m.aux = 0 → (s.core c).strand = some st → o.imm.getLsbD 0 = false → s.codeWaits c m = false →
        s.walkBoth m.ctx m.pc m.a m.b = (v, x, y) → x ≠ .lost → y ≠ .lost → (v.core c).code = (s.core c).code →
        (v.core c).strand = some st →
        let failed : Cause → Prop := fun cause => exec (.codeCommandExecute c) s = .next ((v.onCore c fun k => { k with
          cflt := cause.code.setWidth 10 ||| 0x200, code := { k.code with cmds := behind v } }).arriveCmd c m)
        ((x = .fault .layoutMismatch ∨ y = .fault .layoutMismatch) → failed .layoutMismatch) ∧
        (x ≠ .fault .layoutMismatch → y ≠ .fault .layoutMismatch →
          ((v.leafAt m.ctx m.a = .error .pageFault ∨ v.leafAt m.ctx m.b = .error .pageFault) → failed .pageFault) ∧
          (∀ pa pb p q, v.leafAt m.ctx m.a = .ok (pa, p) → v.leafAt m.ctx m.b = .ok (pb, q) →
            (((m.a ||| m.b).extractLsb' 0 16 ≠ 0 ∨ p &&& ~~~0x7FFFFFFF0000 ≠ q &&& ~~~0x7FFFFFFF0000) → failed .badPageEntry) ∧
            ((m.a ||| m.b).extractLsb' 0 16 = 0 → p &&& ~~~0x7FFFFFFF0000 = q &&& ~~~0x7FFFFFFF0000 →
              exec (.codeCommandExecute c) s = .next (({ v with
                swaps := v.swaps ++ [⟨c, st.gid, (o.imm.extractLsb' 1 3).toNat, false, m.a, m.b, m.c, m⟩] } : State).onCore c fun k =>
                { k with code := { k.code with cmds := behind v } }))))))) ∧
  (∀ (c : CoreId) (s : State) (m : EngCmd) (rest : List EngCmd), s.Unhindered (engineOf c) → (s.core c).stg.cmds = m :: rest →
    m.ended = false →
    ((s.gtb.toNat < m.nb.toNat ∨ (m.bad = true ∧ s.rel.relpol.getLsbD 7 = true) ∨ (s.core c).stg.frozen ≠ none) →
      exec (.stageCommandExecute c) s = .next s) ∧
    (m.nb.toNat ≤ s.gtb.toNat → m.bad = false → (s.core c).stg.frozen = none →
      (∀ o, m.op = .dflush o → exec (.stageCommandExecute c) s =
        .next ((s.onCore c fun k => { k with
          stg := { k.stg with cmds := rest }, fx := k.fx ++ [.flush (o.imm.extractLsb' 0 4).toNat] }).arriveCmd c m)) ∧
      (∀ o st r q, m.op = .stgq o → (s.core c).strand = some st → s.stageRec c (o.imm.extractLsb' 0 4).toNat = some (r, q) →
        (s.core c).rqRoom = true → ∃ x : Word, exec (.stageCommandExecute c) s =
          .next ((s.onCore c fun k => { k with stg := { k.stg with cmds := rest }, rq := k.rq ++ [⟨x, m.f.tag⟩] }).arriveCmd c m) ∧
          (x.extractLsb' 0 19).toNat = q.entries.length % 2 ^ 19 ∧ x.extractLsb' 28 36 = 0 ∧
          (x.extractLsb' 19 8).toNat = s.stageN (clusterOf c) st.gid (o.imm.extractLsb' 0 4).toNat % 2 ^ 8 ∧
          x.getLsbD 27 = q.flushed) ∧
      (∀ o v, m.op = .lenq o → s.runLenq c m o = (v, none) → exec (.stageCommandExecute c) s = .next v) ∧
      (∀ o v r kept, m.op = .lenq o → s.runLenq c m o = (v, some (r, kept)) → (v.core c).stg.cmds = m :: rest →
        (v.core c).stg.frozen = none → (v.core c).rqRoom = true →
        Runs (.stageCommandExecute c) s fun u => ∃ w : State,
          w = v.onCore c (fun k => { k with stg := { k.stg with cmds := rest }, rq := k.rq ++ [⟨r, m.f.tag⟩] }) ∧
          u = if kept then w else w.arriveCmd c m) ∧
      (∀ o v e, s.readAll c m m.a 256 = (v, .error e) → s.runLenq c m o = (v, match e with
        | .wait _ | .gone => none
        | .trap _ _ | .violation _ _ => some (BitVec.ofNat 64 (7 * 2 ^ 16 + 4 * 2 ^ 60), false))) ∧
      (∀ o v w x t u, s.readAll c m m.a 256 = (v, .ok x) → m.a.extractLsb' 0 6 = 0 → recHead x = none →
        v.readAll c m (BitVec.ofNat 64 (byteField x 8 8)) (64 * byteField x 16 2) = (w, .ok t) →
        u = (if o.imm.getLsbD 4 then clusterOf c else (o.imm.extractLsb' 0 4).toFin) →
        (∀ st ck, w.recRest u m.ctx (some (w.launchPrio c)) x (tableEntries t (byteField x 16 2)) = some (st, ck) →
          s.runLenq c m o = (w, some (BitVec.ofNat 64 (ck * 2 ^ 16 + st * 2 ^ 60), false))) ∧
        (w.recRest u m.ctx (some (w.launchPrio c)) x (tableEntries t (byteField x 16 2)) = none →
          ∀ y no, w.ctxRefused m.ctx = (y, no) →
          (no = true → s.runLenq c m o = (y, some (BitVec.ofNat 64 (7 * 2 ^ 16 + 4 * 2 ^ 60), false))) ∧
          (no = false → ∃ (z : State) (r : Word) (l : Launch), s.runLenq c m o = (z, some (r, true)) ∧ r.extractLsb' 16 48 = 0 ∧
            z = { y with clusters := z.clusters, nextGid := y.nextGid + 1 } ∧
            l.gid = y.nextGid ∧ l.ctx = m.ctx ∧ l.prio = byteField x 6 1 ∧ l.rows = byteField x 18 2 ∧ l.running = false ∧
            l.stages = (tableEntries t (byteField x 16 2)).map stageOf ∧ l.queues.length = l.stages.length ∧
            (∀ q ∈ l.queues, q.entries = [] ∧ q.flushed = false) ∧
            l.hitch = (if m.hitch = 0 then none else some (c, m.pc, m.hitch)) ∧
            ∀ v : ClusterId, z.clusters[v] = if v ∈ spanOf u (recLevels x) then
              { y.clusters[v] with launches := y.clusters[v].launches ++ [l] } else y.clusters[v]))))) ∧
  (∀ s : State, (∀ m ∈ s.here.gath.cmds, m.ended = true) →
    exec .efctlResume s = .next (s.mod fun k => { k with gath := { k.gath with halted := none } })) ∧
  (∀ (s : State) (pre post : List EngCmd) (m : EngCmd), s.here.gath.cmds = pre ++ m :: post → (∀ x ∈ pre, x.ended = true) →
    m.ended = false → exec .efctlResume s = .next (s.mod fun k => { k with gath := { k.gath with
      halted := none
      cmds := pre ++ { m with since := match m.op with | .coll _ => s.gtb.toNat | _ => m.since } :: post } })) ∧
  (∀ (s : State) (m : EngCmd) (post : List EngCmd), s.here.gath.cmds = m :: post → m.ended = false → (∀ x ∈ post, x.ended = false) →
    s.here.gath.heldUp = false → (m.owes = true → s.here.rqRoom = true) →
    ((∀ o, m.op = .gather o → m.aux = 0) → exec .efctlDropHead s = .next ((s.mod fun k => { k.copyDone m with
      gath := { k.gath with cmds := post, halted := none }
      rq := k.rq ++ (if m.owes then [⟨0xFFFFFFFFFFFFFFFF, m.f.tag⟩] else [] : List Reply) }).arriveCmd s.cur.1 m)) ∧
    (∀ o, m.op = .gather o → m.aux ≠ 0 → s.ownsHitch s.cur.1 m.ctx m.hitch = true → Runs .efctlDropHead s fun u =>
      u.here.gath.cmds = post ∧ u.here.gath.halted = none ∧
      u.here.ring m.ringNo = (s.here.ring m.ringNo).dropSlot (m.aux - 1))) ∧
  (∀ s : State, (∀ x ∈ s.here.gath.cmds, x.ended = false ∧ s.ownsHitch s.cur.1 x.ctx x.hitch = true) →
    s.here.gath.heldUp = false → s.here.gath.cmds.length ≤ 32 →
    s.here.rq.length + (s.here.gath.cmds.filter EngCmd.owes).length ≤ 32 →
    Runs .efctlDropAll s fun u => u = { s with cores := u.cores, clusters := u.clusters } ∧ u.here.gath.cmds = [] ∧
      u.here.gath.halted = none ∧
      u.here.rq = s.here.rq ++ (s.here.gath.cmds.filter EngCmd.owes).map fun m => (⟨0xFFFFFFFFFFFFFFFF, m.f.tag⟩ : Reply)) ∧
  (∀ (c : CoreId) (s : State), s.rel.relpol.getLsbD 7 = false → exec (.checkerRollback c) s = .next s) ∧
  (∀ (c : CoreId) (s : State), (∀ e ∈ (s.core c).engines, ∀ m, e.cur = some m → m.bad = false ∨ m.begun = true) →
    (∀ t pc, (s.core c).chk.due = some (t, pc) → s.clkOf c < t) → exec (.checkerRollback c) s = .next s) ∧
  (∀ (c : CoreId) (s : State) (st : Strand) (t : Nat) (pc : Word), s.rel.relpol.getLsbD 7 = true →
    (((s.core c).seq .ctl).run = .running ∨ ((s.core c).seq .ctl).run = .halted ∨ ((s.core c).seq .ctl).run = .parked) →
    (s.core c).chk.due = some (t, pc) → t ≤ s.clkOf c → (s.core c).strand = some st →
    Runs (.checkerRollback c) s fun u => (u.core c).strand = none ∧ s.rel.rlcnt < u.rel.rlcnt) ∧
  (∀ (c : CoreId) (s : State) (pre post : List EngCmd) (m : EngCmd), s.rel.relpol.getLsbD 7 = true →
    (∀ x, (s.core c).tens.q.cur = some x → x.bad = false ∨ x.begun = true) → (s.core c).gath.StandsAt pre m post →
    m.bad = true → m.begun = false → (∀ t pc, (s.core c).chk.due = some (t, pc) → s.clkOf c < t) →
    (((s.core c).seq .ctl).run = .running ∨ ((s.core c).seq .ctl).run = .halted ∨ ((s.core c).seq .ctl).run = .parked) →
    ((s.core c).chk.missed = 0 → (m :: post).length ≤ (s.core c).chk.log.countP (·.isCmd 2) → Runs (.checkerRollback c) s fun u =>
      let p := (s.core c).chk.point
      u = { s with cores := u.cores, rel := u.rel } ∧ u.rel.rlcnt = s.rel.rlcnt + 1 ∧ (∀ d, d ≠ c → u.core d = s.core d) ∧
      u.core c = { s.core c with
        seqs := (u.core c).seqs
        gath := { (s.core c).gath with cmds := pre }
        chk := { (s.core c).chk with
          copy := (s.core c).chk.copyPoint
          coming := (s.core c).chk.coming + post.countP (·.inj)
          log := (u.core c).chk.again
          again := (u.core c).chk.again
          stood := (u.core c).chk.stood
          missed := 1 } } ∧
      (∀ q, q ≠ .ctl → (u.core c).seq q = (s.core c).seq q) ∧
      (u.core c).seq .ctl = { (s.core c).seq .ctl with
        pc := p.pc, regs := p.regs, loops := p.loops, lstk := p.lstk, run := .running, wait := .none } ∧
      (u.core c).chk.again.length = (s.core c).chk.log.length ∧
      ∀ i : Nat, (u.core c).chk.again[i]? = (s.core c).chk.log[i]? ∨ ∃ x, (s.core c).chk.log[i]? = some (.command x false) ∧
        (u.core c).chk.again[i]? = some (.command x true) ∧ queueOf x.op = some 2) ∧
    (∀ st, 0 < (s.core c).chk.missed → (s.core c).strand = some st → Runs (.checkerRollback c) s fun u =>
      (u.core c).strand = none ∧ s.rel.rlcnt < u.rel.rlcnt)) ∧
  (∀ (s : State) (w : Word) (rest : List Logged) (f : Fetched), s.cur.2 = .ctl → s.me.run = .running →
    decode .ctl s.me.pc w 0 s.reduced = .ok f →
    let again : List Logged → State → State := fun es t => t.mod fun k => { k with chk := { k.chk with again := es, served := [] } }
    (∀ t n, f.instr = .toks t n → s.here.chk.again = .word w :: .effect (n.setWidth 64) :: rest → s.me.copy = none → s.me.gvi = none →
      s.turn = (again rest (s.modMe fun q => q.goto (q.pc + 8)), none)) ∧
    (∀ d r x, f.instr = .mfsr d r → s.here.chk.again = .word w :: .value x :: rest →
      s.turn = (again rest (s.modMe fun q => (q.setReg d x).goto (q.pc + 8)), none)) ∧
    (∀ o cs, f.instr = .add o → s.errs = [] → s.here.chk.again = .word w :: (cs.map Logged.value ++ rest) →
      cs.length = o.uses.c.length → (cs = [] → rest.head? ≠ some .skipped) →
      s.turn = ({ s.mod (fun k => { k with chk := { k.chk with served := o.uses.c.zip cs } }) with
        curYp := f.yp, curLog := [], curAgain := 1 + cs.length }, some f.instr)) ∧
    (∀ t n x st, f.instr = .toks t n → s.here.chk.again = .word w :: .effect x :: rest → x ≠ n.setWidth 64 →
      s.here.strand = some st → (s.turn.1.here).strand = none ∧ s.rel.rlcnt < s.turn.1.rel.rlcnt))

/-! ## Collectives and the fabric (R325-R327, R406-R411) -/

/-- O53. A chunk that arrives is checked: a good one takes its trailer and ends its COLL, a bad one is sent again once and then fails
(R326, R327), and waiting beyond 1 ms faults (R326). An access without an answer is lost or dropped (R406, R409). A remote request is
refused, lost or served at its home behind what the slice has already (R185, R408), or waits with a die out of service (R413); a request goes out by the (LA mod m)-th of the m
live ports of its route, ports go down after 16 retries, what they held goes out by another, and they come up (R407); gtb follows its
master, slewed, and never decreases (R411). Readings of the model: logs 6, 49, 50, 62, 81. -/
def Obligations.Fabric : Prop :=
  (∀ (c : CoreId) (s : State), s.Unhindered (engineOf c) → ((s.core c).gath.halted ≠ none ∨ ∀ m, (s.core c).gath.cur = some m →
    m.chunk = []) →
    exec (.collChunkArrival c) s = .next s) ∧
  (∀ (c : CoreId) (s v : State) (pre post : List EngCmd) (m : EngCmd) (o : CCmd) (rows : List Row) (last : Row),
    s.Unhindered (engineOf c) → (s.core c).gath.StandsAt pre m post → m.op = .coll o → m.chunk = rows ++ [last] →
      s.collWriteAll c m m.b 0 rows = (v, .ok ()) →
    (v.core c).gath.StandsAt pre m post →
    let good := collGood (o.imm.getLsbD 2) rows (trailerOf last.toNat)
    (o.imm.getLsbD 2 = true → (good = true ↔ (lanesOf rows).sum % 2 ^ 32 = last.toNat % 2 ^ 32)) ∧
    (good = false → m.aux = 0 → exec (.collChunkArrival c) s = .next (v.withGath c (pre ++ { m with aux := 1 } :: post))) ∧
    (∀ w, good = true → v.collWrite c m m.b rows.length 256 last = (w, .ok ()) → (w.core c).gath.StandsAt pre m post →
      exec (.collChunkArrival c) s = .next (w.withGath c (pre ++ { m with ended := true, done := m.shape.e 0 } :: post))) ∧
    (∀ w, good = false → m.aux ≠ 0 →
      v.collWrite c m m.b rows.length 256 ({ trailerOf last.toNat with st := 2 } : Trailer).row = (w, .ok ()) →
      (w.core c).gath.StandsAt pre m post →
      exec (.collChunkArrival c) s =
        .next (w.gathHalted c (pre ++ { m with aux := 0 } :: post) m .collectiveChecksum m.b))) ∧
  (∀ (c : CoreId) (s : State), s.Unhindered (engineOf c) → (∀ m, (s.core c).gath.cur = some m → s.gtbq / 189 ≤ m.since + 1000000) →
    exec (.collTimeout c) s = .next s) ∧
  (∀ (c : CoreId) (s : State) (pre post : List EngCmd) (m : EngCmd) (o : CCmd), s.Unhindered (engineOf c) →
    (s.core c).gath.StandsAt pre m post →
    m.op = .coll o → m.begun = true → m.chunk = [] → (o.imm.extractLsb' 0 2).toNat ≠ 0 → m.since + 1000000 < s.gtbq / 189 →
    ∀ v out, s.engRead c m (m.c + BitVec.ofNat 64 (256 * m.shape.e 0)) 256 = (v, out) →
      (∀ g, out = .ok g → g.x / 2 ^ 96 % 256 = 0 → (v.core c).gath.StandsAt pre m post → exec (.collTimeout c) s =
        .next (v.gathHalted c (pre ++ { m with since := s.gtbq / 189 } :: post) m .collectiveTimeout m.c)) ∧
      (∀ g, out = .ok g → g.x / 2 ^ 96 % 256 ≠ 0 → exec (.collTimeout c) s = .next s) ∧
      (∀ e, out = .error e → exec (.collTimeout c) s = .next s)) ∧
  (∀ (c : CoreId) (i : Instr) (far : Nat → Bool) (s : State),
    (i = .fabricUnreachable c ∧ far = (fun pa => decide (2 ^ 47 ≤ pa)) ∨
      i = .memportTimeout c ∧ far = fun pa => decide (pa < 2 ^ 47) && !inHbm pa) →
    let reads : Prop := (∃ l ∈ (s.core c).loads, ∃ x ∈ l.waiting, far x.1 = true) ∨
      ∃ r ∈ (s.core c).stash, ∃ x ∈ r.waiting, far x.1 = true
    let dropped : State → Prop := fun u =>
      u = { s with cores := u.cores, mem := u.mem, vfs := u.vfs, fresh := u.fresh, posted := u.posted } ∧
      (∀ d, d ≠ c → u.core d = s.core d) ∧ u.core c = { s.core c with pubs := (u.core c).pubs, stash := (u.core c).stash } ∧
      (∀ x ∈ (u.core c).stash, x ∈ (s.core c).stash) ∧ ∀ x ∈ (s.core c).stash, x.use ≠ .writing → x ∈ (u.core c).stash
    (reads → Runs i s fun u => (u.core c).strand = none ∧
      ((∀ l ∈ (s.core c).loads, ∀ x ∈ l.waiting, x.2 ≠ 0) → (∀ r ∈ (s.core c).stash, ∀ x ∈ r.waiting, x.2 ≠ 0) →
        s.rel.rlcnt < u.rel.rlcnt)) ∧
    (∀ r pre post, ¬reads → (s.core c).pubs = pre ++ r :: post → (∀ x ∈ pre, far x.pa = false) → far r.pa = true →
      Runs i s fun u => dropped u ∧ (u.core c).pubs = pre ++ post ∧ u.posted = s.posted) ∧
    (∀ p pre post, ¬reads → (∀ x ∈ (s.core c).pubs, far x.pa = false) → s.posted = pre ++ p :: post →
      (∀ x ∈ pre, x.core ≠ c ∨ far x.pa = false) → p.core = c → far p.pa = true →
      Runs i s fun u => dropped u ∧ (u.core c).pubs = (s.core c).pubs ∧ u.posted = pre ++ post) ∧
    (¬reads → (∀ x ∈ (s.core c).pubs, far x.pa = false) → (∀ x ∈ s.posted, x.core ≠ c ∨ far x.pa = false) →
      (s.core c).gath.cmds = [] → (s.core c).code.cmds = [] → (s.core c).stg.cmds = [] → s.clusters[clusterOf c].walks = [] →
      (s.core c).loads = [] → (∀ q, ((s.core c).seq q).run ≠ .running ∧ ((s.core c).seq q).gvi = none) → exec i s = .next s)) ∧
  (∀ (r : RemoteReq) (s : State), s.mgst < 3 → exec (.hawserRemoteRequest r) s = .next s) ∧
  (∀ (r : RemoteReq) (s : State), (∃ pa ∈ remotePlaces r, s.dieOut pa = true) → exec (.hawserRemoteRequest r) s = .next s) ∧
  (∀ (r : RemoteReq) (s : State), s.Unhindered none → 3 ≤ s.mgst → (∀ pa ∈ remotePlaces r, s.dieOut pa = false) → remoteAligned r = true →
    let mayGo : Nat → Prop := fun pa => s.Exports (pa / 65536) r.node.toNat (match r.op with | .read => false | _ => true)
    let lies : Nat → Prop := fun pa => inHbm pa = true ∨ s.cxlCovered pa = true
    (((∃ pa ∈ remotePlaces r, ¬mayGo pa) ∨ r.noncoherent = true) →
      exec (.hawserRemoteRequest r) s = .next (s.answered .refused)) ∧
    ((∀ pa ∈ remotePlaces r, mayGo pa) → r.noncoherent = false →
      ((∃ pa ∈ remotePlaces r, ¬lies pa) → exec (.hawserRemoteRequest r) s = .next (s.answered .lost)) ∧
      ((∀ pa ∈ remotePlaces r, lies pa) →
        (r.op = .read → ∀ v out, (s.homeTurn r.pa.toNat).homeRead ⟨r.ctx, 0, true⟩ r.pa.toNat (1 <<< (r.pa.toNat / 32 % 4)) r.code .none = (v, out) →
          exec (.hawserRemoteRequest r) s = .next (v.answered (match out with
            | .got d _ => .data (lineSector d (r.pa.toNat / 32 % 4))
            | .refused => .mismatch
            | .denied => .refused
            | .lost => .lost))) ∧
        (∀ x, r.op = .write x → ∀ v out, (s.homeTurn r.pa.toNat).homeWrite ⟨r.ctx, 0, true⟩ r.pa.toNat (1 <<< (r.pa.toNat / 32 % 4))
            (setLineSector 0 (r.pa.toNat / 32 % 4) x) r.code .none false = (v, out) →
          exec (.hawserRemoteRequest r) s = .next (v.answered (match out with
            | .done => .done
            | .denied => .refused
            | .refused => .mismatch))) ∧
        (∀ int again rows last v t good, r.op = .chunk int again rows → rows.getLast? = some last →
          s.putChunk ⟨r.ctx, 0, true⟩ r.code rows.dropLast = (v, .done) → t = trailerOf last.2.toNat →
          good = collGood int (rows.dropLast.map (·.2)) t →
          (good = false → again = false → exec (.hawserRemoteRequest r) s = .next (v.answered .badChunk)) ∧
          (∀ w, (good = true ∨ again = true) →
            v.putRow ⟨r.ctx, 0, true⟩ r.code last.1.toNat (if good then last.2 else ({ t with st := 2 } : Trailer).row) = (w, .done) →
            exec (.hawserRemoteRequest r) s = .next (w.answered (if good then .done else .badChunk)))) ∧
        (∀ op w64 sgn a b, r.op = .atomic op w64 sgn a b →
          (remoteAtom op w64 sgn = none → exec (.hawserRemoteRequest r) s = .next (s.answered .refused)) ∧
          (∀ x v old, remoteAtom op w64 sgn = some x →
            s.applyAtom ⟨r.ctx, 0, true⟩ x r.code r.pa.toNat 0 a b true = (v, .ok old) →
            exec (.hawserRemoteRequest r) s = .next (v.answered (.old (BitVec.ofNat 64 old)))))))) ∧
  (∀ (p : Fin 36) (s : State),
    ((s.fab.up[p] = false ∨ 16 ≤ s.fab.retry[p]) → exec (.hawserFlitRetry p) s = .next s) ∧
    (s.fab.up[p] = true → s.fab.retry[p] < 16 → ∃ n, (n = 0 ∨ n = s.fab.retry[p] + 1) ∧
      exec (.hawserFlitRetry p) s = .next { s with fresh := s.fresh + 1, fab := { s.fab with retry := s.fab.retry.set p n } }) ∧
    (s.fab.up[p] = true → 16 ≤ s.fab.retry[p] → ∀ t : State, t = { s with fab := { s.fab with up := s.fab.up.set p false } } →
      (∀ x ∈ s.posted, x.via = .hawser p → (t.portFor x.pa).isSome = true) →
      exec (.hawserPortDown p) s = .next { t with posted := s.posted.map fun x =>
        if (x.via = Via.hawser p) then { x with via := .hawser ((t.portFor x.pa).getD p) } else x }) ∧
    ((s.fab.up[p] = false ∨ s.fab.retry[p] < 16) → exec (.hawserPortDown p) s = .next s) ∧
    (s.fab.up[p] = true → exec (.hawserPortUp p) s = .next s) ∧
    (s.fab.up[p] = false →
      exec (.hawserPortUp p) s = .next { s with fab := { s.fab with up := s.fab.up.set p true, retry := s.fab.retry.set p 0 } })) ∧
  (∀ (s : State) (pa : Nat) (p : Fin 36), s.portFor pa = some p →
    let live : Fin 36 → Bool := fun q => (s.pf.rt.toList.getD (pa % 2 ^ 58 / 2 ^ 47 - 1) 0).getLsbD q.val && s.fab.up[q]
    live p = true ∧ ((List.finRange 36).countP fun q => live q && decide (q < p)) =
      pa % 2 ^ 47 / 128 % (List.finRange 36).countP live) ∧
  (∀ (master : Word) (s : State),
    (s.pf.gtbctl = s.pf.nodeid → exec (.gtbTimeMessage master) s = .next s ∧ exec .gtbLost s = .next s) ∧
    (s.pf.gtbctl ≠ s.pf.nodeid →
      exec (.gtbTimeMessage master) s = .next { s with fab := { s.fab with
        lead := (master.toNat : Int) * 189 - s.gtbq, lastMsg := s.gtbq, lost := false } } ∧
      (s.gtbq < s.fab.lastMsg + 189000000 → exec .gtbLost s = .next s) ∧
      (s.fab.lastMsg + 189000000 ≤ s.gtbq →
        exec .gtbLost s = .next { s with fab := { s.fab with lost := true, lead := 0 } }))) ∧
  (∀ (s : State) (n : Nat), s.gtbq ≤ (s.elapse n).gtbq ∧ (s.fab.lead = 0 → (s.elapse n).gtbq = s.gtbq + n) ∧
    ((s.elapse n).gtbq : Int) - (s.gtbq + n) ≤ n / 1000 + 1 ∧ (s.gtbq + n : Int) - (s.elapse n).gtbq ≤ n / 1000 + 1)

/-! ## Phases and barriers (R201-R207, R335-R337) -/

/-- O54. PEND, SYNC and XFENCE from CORE wait at their copies until every sequencer has arrived, and copies that disagree trap (R201,
R203, R204, R206); the phase end counts the phase, starts home what is dirty and releases the rest (R202). Phases publish in their order:
a publication that is complete makes its deferral effects visible (R337), ends a strand that has halted (R336), or lets the barrier see the
SYNC; an XFENCE goes on when its rows and those of earlier phases are performed at its scope (R206, R207); what leaves the package goes
sector by sector (R215). The barrier delivers the sends, applies the changes that CSWAP has queued for it, and lets the members go on
(R170, R204, R246, R259); a page that moves leaves every TLB, LATT and code L1 but for locked lines, which come from its new frame. What a
remote home refuses is held, with ST frozen, until a decision (R360, R408). Readings of the model: logs 6, 14, 70, 81, 82, 85, 90, 96. -/
def Obligations.Phases : Prop :=
  (∀ (i : Instr) (fn : BitVec 4) (imm : BitVec 32) (s : State), phaseCopyOf i = some (fn, imm) → s.me.run = .running →
    (∀ lvl, i = .sync lvl → ∃ st, s.here.strand = some st ∧ st.levelTrap lvl.val = none) →
    (((∃ q, q ≠ s.cur.2 ∧ (s.here.seq q).atEnd = false) ∨
        ∀ q, q ≠ s.cur.2 → (s.here.seq q).run = .halted ∨ ∃ p, (s.here.seq q).copy = some p ∧ p.fn = fn ∧ p.imm = imm) →
      Runs i s fun u => u = ((s.modMe fun q => { q with copy := some ⟨fn, imm, s.curYp⟩, wait := .phaseEnd }).mod fun k =>
        { k with chk := u.here.chk }) ∧ (s.cur.2 ≠ .ctl → u.here.chk = s.here.chk)) ∧
    ((∀ q, q ≠ s.cur.2 → (s.here.seq q).atEnd = true) → (∀ q, (s.here.seq q).inTrap = false) →
      (∃ q p, q ≠ s.cur.2 ∧ (s.here.seq q).run ≠ .halted ∧ (s.here.seq q).copy = some p ∧ (p.fn ≠ fn ∨ p.imm ≠ imm)) →
      Runs i s fun u => ∀ q, (s.here.seq q).run ≠ .halted → (u.here.seq q).cause = Cause.code .phaseMismatch ∧
        (u.here.seq q).epc = (s.here.seq q).pc ∧ (u.here.seq q).copy = none ∧
        (u.here.seq q).pc = (SeqSt.goto (s.here.seq q) ((s.here.seq q).tvec &&& ~~~7)).pc ∧
        (u.here.seq q).inTrap = true)) ∧
  (∀ (lvl : Fin 8) (s : State), s.me.inTrap = false → (∀ c, (match s.here.strand with
      | none => some Cause.reservedOperand
      | some st => st.levelTrap lvl.val) = some c →
    Runs (.sync lvl) s fun u => Traps s u c s.me.pc 0)) ∧
  (∀ (src dst : Path) (scope : Scope) (s : State), src ≠ .core →
    (s.cur.2 ≠ .ctl → s.me.inTrap = false → Runs (.xfence src dst scope) s fun u => Traps s u .wrongSequencer s.me.pc 0) ∧
    (s.cur.2 = .ctl → s.here.pathQuiet src = false → Runs (.xfence src dst scope) s fun u => Waits s u .other) ∧
    (s.cur.2 = .ctl → s.here.pathQuiet src = true →
      Runs (.xfence src dst scope) s fun u => Frame s u id ∧ WritesNone s u ∧ Passes s u)) ∧
  (∀ (c : CoreId) (s : State), ((s.core c).phaseDue = false ∨ s.flushDue c = true) → exec (.phaseEnd c) s = .next s) ∧
  (∀ (c : CoreId) (s : State) (kind : EndKind) (st : Strand), (s.core c).phaseDue = true → s.flushDue c = false →
    (s.core c).strand = some st → (s.core c).dueKind = kind → (∀ l, kind = .sync l → (s.core c).synced = false) →
    s.errs = [] → (∀ r, (s.padRow c r).flips = []) →
    (s.core c).stash.Pairwise (fun x y => x.row ≠ y.row) →
    Runs (.phaseEnd c) s fun u =>
      let home : StashRow → Bool := fun r => r.use != .writing && r.dirty != 0 && !r.drop
      u = { s with cores := u.cores } ∧ (∀ d, d ≠ c → u.core d = s.core d) ∧
      u.core c = { s.core c with
        seqs := (u.core c).seqs
        ex := (u.core c).ex
        chk := (u.core c).chk
        strand := some { st with phase := st.phase + 1 }
        ends := (s.core c).ends ++ [⟨kind, ((s.core c).stash.filter home).map (·.row), (s.core c).fx⟩]
        fx := []
        stash := ((s.core c).stash.filter fun r => r.use == .writing || home r).map fun r => { r with use := .writing }
        pubs := (s.core c).pubs ++
          ((s.core c).stash.filter home).flatMap fun r => rowWrites c (s.core c).ctx r (s.padRow c r.row).data } ∧
      ∀ q p, ((s.core c).seq q).copy = some p → ((s.core c).seq q).run ≠ .halted →
        (kind = .pend → LeftCopy s u c q) ∧
        (∀ l, kind = .sync l → ((u.core c).seq q) = { (s.core c).seq q with wait := .barrier }) ∧
        (∀ x, kind = .fence x → ((u.core c).seq q) = { (s.core c).seq q with wait := .other })) ∧
  (∀ (c : CoreId) (s : State) (l : Nat), (s.core c).phaseDue = true → (s.core c).dueKind = .sync l → (s.core c).synced = true →
    ((s.core c).ends ≠ [] → exec (.phaseEnd c) s = .next s) ∧
    ((s.core c).ends = [] → s.flushDue c = false → Runs (.phaseEnd c) s fun u => u = s.onCore c fun k =>
      { k with seqs := (u.core c).seqs, synced := false, arrived := some l })) ∧
  (∀ (c : CoreId) (s : State) (pre post : List PhaseOut) (e : PhaseOut) (scope : BitVec 4), (s.core c).ends = pre ++ e :: post →
    (∀ x ∈ pre, ∀ n, x.kind ≠ .fence n) → e.kind = .fence scope →
    (∀ x ∈ post, ∀ n, x.kind ≠ .fence n) → s.performedAt c scope.toNat ((pre ++ [e]).flatMap (·.rows)) = true →
    Runs (.publicationComplete c) s fun u => ∃ v : State, v = s.onCore c (fun k => { k with
        seqs := (v.core c).seqs
        ex := (v.core c).ex
        chk := (v.core c).chk
        ends := pre ++ { e with kind := .pend } :: post }) ∧
      (∀ q p, ((s.core c).seq q).copy = some p → LeftCopy s v c q) ∧ PublishesUpTo c (pre.length + 1) v u) ∧
  (∀ (c : CoreId) (s v w : State) (post : List PhaseOut) (e : PhaseOut), s.fenceDone c = false → (s.core c).ends = e :: post →
    CanPublish s c e →
    v = (e.rows.foldl (fun s r => s.freeRow c r) s).onCore c (fun k => { k with ends := post }) →
    w = (match (v.core c).strand with
      | some st => v.onLaunch (clusterOf c) st.gid fun l =>
          (if e.kind = .final then e.fx ++ (v.core c).fx else e.fx).foldl Launch.publish l
      | none => v) →
    (e.kind = .pend → exec (.publicationComplete c) s = .next w) ∧
    (∀ l, e.kind = .sync l →
      ((∃ q p, ((w.core c).seq q).copy = some p ∧ ((w.core c).seq q).wait = .barrier) →
        exec (.publicationComplete c) s = .next (w.onCore c fun k => { k with arrived := some l })) ∧
      ((∀ q p, ((w.core c).seq q).copy = some p → ((w.core c).seq q).wait ≠ .barrier) →
        exec (.publicationComplete c) s = .next w)) ∧
    (∀ st, e.kind = .final → (w.core c).strand = some st → Runs (.publicationComplete c) s fun u =>
      (u.core c).strand = none ∧ (u.core c).wins = .replicate 16 none ∧ (u.core c).sends = [] ∧
      (∀ r ∈ (u.core c).stash, r.use = .writing) ∧
      ((w.core c).commit = none → (u.core c).startTo = none) ∧
      ∀ gid n l, (w.core c).commit = some (.move gid n) → w.launch (clusterOf c) gid = some l → l.running = true →
        (∀ x ∈ w.swaps, x.gid ≠ st.gid) → (u.core c).startTo = some (gid, n))) ∧
  (∀ (c : CoreId) (s : State), s.fenceDone c = false → (∀ e, ¬CanPublish s c e) →
    (∀ pre post r row data filled, (s.core c).pubs = pre ++ r :: post → (∀ x ∈ pre, x.pa < 2 ^ 47) → 2 ^ 47 ≤ r.pa →
      r.op = .write row data filled → ∀ v : State, v = s.onCore c (fun k => { k with pubs := pre ++ post }) →
      (∀ p, s.portFor r.pa = some p → exec (.publicationComplete c) s = .next { v with
        posted := s.posted ++ ((List.range 4).filter fun i => r.mask.getLsbD i).map fun i =>
          ⟨r.core, row, r.ctx, r.va + BitVec.ofNat 64 (32 * i), r.pa / 128 * 128 + 32 * i, lineSector data i, r.code, .hawser p⟩ }) ∧
      (s.portFor r.pa = none → exec (.publicationComplete c) s = .next ((v.postFar r.ctx).freeRow c row))) ∧
    ((∀ x ∈ (s.core c).pubs, x.pa < 2 ^ 47) →
      ((∀ x ∈ s.posted, x.core ≠ c) → exec (.publicationComplete c) s = .next s) ∧
      ∀ pre post p, s.posted = pre ++ p :: post → (∀ x ∈ pre, x.core ≠ c) → p.core = c →
        ∀ old new x, s.posted = old ++ x :: new → (∀ y ∈ old, y.pa ≠ p.pa) → x.pa = p.pa →
        ∀ v : State, v = { s with posted := old ++ new } →
        (∀ n, x.via = .target n → exec (.publicationComplete c) s = .next (v.putOuter x.pa x.data)) ∧
        (∀ n, x.via = .hawser n →
          (isBarred x.pa = true → exec (.publicationComplete c) s = .next ((v.refusedPub x).freeRow x.core x.row)) ∧
          (isBarred x.pa = false → exec (.publicationComplete c) s = .next (match Config.farReply s.fresh with
            | .served | .lost => (v.used.putOuter x.pa x.data).freeRow x.core x.row
            | .refused => (v.used.refusedPub x).freeRow x.core x.row
            | .mismatch => v.used.freeRow x.core x.row))))) ∧
  (∀ (s : State) (p : Posted) (st : Strand) (run : Run), (s.core p.core).strand = some st → st.ctx = p.ctx →
    run = ((s.core p.core).seq .st).run → (∀ v, run ≠ .frozen v) → (s.core p.core).heldPubs = [] → (s.postRefused p.ctx).RecordClean →
    ∃ v, v = (⟨.foreignPage, 0, 3, BitVec.ofNat 16 p.core.val, p.ctx, ((s.core p.core).seq .st).pc, p.va⟩ : Violation) ∧
      ((s.refusedPub p).core p.core).heldPubs = [⟨v, p, run⟩] ∧
      ((s.refusedPub p).core p.core).seq .st = { (s.core p.core).seq .st with run := .frozen v } ∧
      (s.refusedPub p).rowPosted p.core p.row = true) ∧
  (∀ (c : CoreId) (s : State), ((s.core c).strand = none ∨ (s.core c).arrived = none) →
    exec (.gangBarrierRelease c) s = .next s) ∧
  (∀ (c : CoreId) (s : State) (st : Strand) (l d : Nat), (s.core c).strand = some st → (s.core c).arrived = some l →
    st.domain l = some d →
    ((s.gangAway c st.gid d = true ∨ ∃ x ∈ s.gang c st.gid d, (s.core x).arrived ≠ some l ∨ (s.core x).chk.again ≠ [] ∨
        (s.core x).swapsComing = true) →
      exec (.gangBarrierRelease c) s = .next s) ∧
    (s.gangAway c st.gid d = false → (∀ x ∈ s.gang c st.gid d, (s.core x).arrived = some l ∧ (s.core x).chk.again = [] ∧
        (s.core x).swapsComing = false) →
      ((∃ r, s.launch (clusterOf c) st.gid = some r ∧ r.reachesOut l = true) → Config.gangArrived s.fresh = false →
        exec (.gangBarrierRelease c) s = .next s.used) ∧
      (s.errs = [] → (∀ r, s.launch (clusterOf c) st.gid = some r → r.reachesOut l = true → Config.gangArrived s.fresh = true) →
      (∀ y ∈ s.swaps, y.at c st.gid l d = false) →
      ((s.gang c st.gid d).flatMap fun x => (s.core x).sends).Pairwise (fun a b => (a.core, a.row) ≠ (b.core, b.row)) →
      Runs (.gangBarrierRelease c) s fun u => u = { s with cores := u.cores, fresh := u.fresh } ∧
        (∀ x ∈ s.gang c st.gid d, u.core x = { s.core x with
            arrived := none, sends := [], seqs := (u.core x).seqs, ex := (u.core x).ex, chk := (u.core x).chk
            pad := (u.core x).pad } ∧
          ∀ q p, ((s.core x).seq q).copy = some p → LeftCopy s u x q) ∧
        (∀ x, x ∉ s.gang c st.gid d → u.core x = { s.core x with pad := (u.core x).pad }) ∧
        (∀ x ∈ s.gang c st.gid d, ∀ y ∈ (s.core x).sends,
          u.padRow y.core y.row = ⟨y.entry.tag.setWidth 6, y.mark, y.entry.data, []⟩) ∧
        ∀ k r, (∀ x ∈ s.gang c st.gid d, ∀ y ∈ (s.core x).sends, (y.core, y.row) ≠ (k, r)) → u.padRow k r = s.padRow k r) ∧
      (∀ (v : State) (ys : List Swap) (τ : Nat → State),
        ((∃ r, s.launch (clusterOf c) st.gid = some r ∧ r.reachesOut l = true) → Config.gangArrived s.fresh = true ∧ v = s.used) →
        ((∀ r, s.launch (clusterOf c) st.gid = some r → r.reachesOut l = false) → v = s) →
        (∀ x ∈ s.gang c st.gid d, (s.core x).sends = []) →
        ys = ((List.finRange 2048).flatMap fun k => s.swaps.filter fun y => y.at c st.gid l d && y.core == k) →
        τ 0 = { v with swaps := s.swaps.filter fun y => !y.at c st.gid l d } →
        (∀ i y, ys[i]? = some y → SwapApplies d y (τ i) (τ (i + 1))) →
        Runs (.gangBarrierRelease c) s fun u => u = { τ ys.length with cores := u.cores } ∧
          (∀ x ∈ s.gang c st.gid d, u.core x = { (τ ys.length).core x with
              arrived := none, seqs := (u.core x).seqs, ex := (u.core x).ex, chk := (u.core x).chk } ∧
            ∀ q p, (((τ ys.length).core x).seq q).copy = some p → LeftCopy (τ ys.length) u x q) ∧
          ∀ x, x ∉ s.gang c st.gid d → u.core x = (τ ys.length).core x))) ∧
  (∀ (s t : State) (ctx : Ctx) (va : Word) (frame : Nat), s.errs = [] → t = s.pageMoved ctx va frame →
    (∀ n, s.troubled n = false) →
    (∀ u : ClusterId, ∀ e ∈ t.clusters[u].tlb, e.hits ctx va = false) ∧
    ∀ c, (∀ e ∈ (t.core c).tlb, e.hits ctx va = false) ∧
      (∀ e ∈ (t.core c).latt, ¬(e.ctx = ctx ∧ e.vpn = (va.extractLsb' 16 32).toNat)) ∧
      ∀ x ∈ (t.core c).codeL1, x.ctx = ctx → (x.line.extractLsb' 9 32).toNat = (va.extractLsb' 16 32).toNat →
        x.locked = true ∧ x.pa = frame * 65536 + 128 * (x.line.extractLsb' 0 9).toNat)

/-! ## Hitches, replies, HALT, YIELD and regions (R209-R211, R354, R384-R394) -/

/-- O55. HINIT takes a complete hitch, HARV makes arrivals, HWAIT waits for completion or reads the count (R209, R210); a handle out of
range, a foreign hitch, a busy one, an underflow stop them. RPOP and RTRY take the head of rq (R211). YIELD gives a core back only where
it may (R354), HALT ends its sequencer once quiet (R354, R356), and GVI waits at its copy (R384). A region whose copies disagree or
whose words are bad traps at its GVIs; a strip that runs counts in gvs, and after the last the copies go past their regions (R385-R394).
Readings of the model: logs 13, 65, 66, 67, 73, 79. -/
def Obligations.HitchesAndRegions : Prop :=
  (∀ (u v : ClusterId) (n m : Nat) (h : Hitch) (s : State), cellsWf freeHitch s.clusters[u].hitches →
    (s.setHitch u n h).hitch v m = if v = u ∧ m = n then h else s.hitch v m) ∧
  (∀ (i : Instr) (h dst : Fin 32) (k : BitVec 16) (poll : Bool) (s : State),
    (i = .hinit h k ∨ i = .harv h k ∨ i = .hwait dst h poll) →
    (((s.reg h).toNat = 0 ∨ 4096 ≤ (s.reg h).toNat) → s.me.inTrap = false →
      Runs i s fun u => Traps s u .reservedOperand s.me.pc 0) ∧
    (∀ x, 1 ≤ (s.reg h).toNat → (s.reg h).toNat < 4096 → x = s.hitch (clusterOf s.cur.1) (s.reg h).toNat → x.owner ≠ some s.here.ctx →
      (i = .hinit h k → x.count ≠ 0) → Runs i s fun u => Freezes s u .foreignHitch (s.reg h))) ∧
  (∀ (h : Fin 32) (k : BitVec 16) (n : Nat) (x : Hitch) (s : State), n = (s.reg h).toNat → 1 ≤ n → n < 4096 → k ≠ 0 →
    x = s.hitch (clusterOf s.cur.1) n →
    (x.count = 0 → Runs (.hinit h k) s fun u => PutsHitch s u n ⟨k, some s.here.ctx, false⟩) ∧
    (x.count ≠ 0 → x.owner = some s.here.ctx → s.me.inTrap = false → Runs (.hinit h k) s fun u => Traps s u .hitchBusy s.me.pc 0) ∧
    (x.owner = some s.here.ctx →
      (k.toNat ≤ x.count.toNat → Runs (.harv h k) s fun u => PutsHitch s u n { x with count := x.count - k }) ∧
      (x.count.toNat < k.toNat → s.me.inTrap = false → Runs (.harv h k) s fun u => Traps s u .hitchUnderflow s.me.pc 0) ∧
      (∀ dst poll, x.broken = true → s.me.inTrap = false → Runs (.hwait dst h poll) s fun u => Traps s u .hitchUnderflow s.me.pc 0) ∧
      (∀ dst, x.broken = false → Runs (.hwait dst h true) s fun u => Frame s u id ∧ Passes s u ∧
        Writes s u dst (x.count.setWidth 64)) ∧
      (∀ dst, x.broken = false → x.count = 0 → Runs (.hwait dst h false) s fun u => Frame s u id ∧ Passes s u ∧ Writes s u dst 0) ∧
      (∀ dst, x.broken = false → x.count ≠ 0 → Runs (.hwait dst h false) s fun u => Waits s u (.hwait (s.reg h).toNat)))) ∧
  (∀ (dst : Fin 32) (tag : BitVec 5) (any : Bool) (s : State),
    (s.here.rq = [] → (Runs (.rpop dst tag any) s fun u => Waits s u .rqEmpty) ∧
      (s.here.bqRoom 0 = true → Runs (.rtry dst tag any) s fun u =>
        Frame s u (fun k => { k with bqs := k.bqs.set 0 (k.bqs[0] ++ [false]) }) ∧ WritesNone s u ∧ Passes s u)) ∧
    (s.here.bqRoom 0 = false → s.me.inTrap = false → Runs (.rtry dst tag any) s fun u => Traps s u .branchQueueOverflow s.me.pc 0) ∧
    (∀ r rest, s.here.rq = r :: rest →
      ((any = true ∨ r.tag = tag) →
        (Runs (.rpop dst tag any) s fun u => Frame s u (fun k => { k with rq := rest }) ∧ Writes s u dst r.value ∧ Passes s u) ∧
        (s.here.bqRoom 0 = true → Runs (.rtry dst tag any) s fun u =>
          Frame s u (fun k => { k with rq := rest, bqs := k.bqs.set 0 (k.bqs[0] ++ [true]) }) ∧ Writes s u dst r.value ∧ Passes s u)) ∧
      (any = false → r.tag ≠ tag →
        (s.me.inTrap = false → Runs (.rpop dst tag any) s fun u => Traps s u .replyTagMismatch s.me.pc 0) ∧
        (s.here.bqRoom 0 = true → Runs (.rtry dst tag any) s fun u =>
          Frame s u (fun k => { k with bqs := k.bqs.set 0 (k.bqs[0] ++ [false]) }) ∧ WritesNone s u ∧ Passes s u)))) ∧
  (∀ s : State,
    (s.mayRelease = false → Runs .yield s fun u => Frame s u id ∧ WritesNone s u ∧ Passes s u) ∧
    (∀ st l, s.here.req = none → s.here.divert = none → s.here.commit = none → s.here.strand = some st → st.fixed = false →
      s.launch (clusterOf s.cur.1) st.gid = some l →
      (l.stage st.stage).min < s.stageN (clusterOf s.cur.1) st.gid st.stage →
      let f : Core → Core := fun k => { k with commit := some .yielded, req := some .release }
      ((s.me.inTrap = true ∨ s.drainAt s.here.ctx s.cur.2 s.me.pc = none) →
        Runs .yield s fun u => Frame s u f ∧ WritesNone s u ∧ Passes s u) ∧
      (s.me.inTrap = false → s.drainAt s.here.ctx s.cur.2 s.me.pc ≠ none →
        exec .yield s = .next ((s.mod f).block .held)))) ∧
  (∀ s : State,
    (s.here.quiet s.cur.2 = false → Runs .halt s fun u => Waits s u .other) ∧
    (s.here.quiet s.cur.2 = true →
      let ends : Run → State → Prop := fun r u => OnlyCore s.cur.1 s u ∧ OthersFrame s u ∧
        u.here = { s.here with seqs := u.here.seqs, ex := u.here.ex, chk := u.here.chk } ∧
        u.me = { s.me with run := r, wait := .none, lstk := 0, regs := u.me.regs } ∧
        (s.cur.2 ≠ .ex → u.me.regs = s.me.regs ∧ u.here.ex = s.here.ex)
      (s.here.divert = some .preempt → Runs .halt s (ends .parked)) ∧
      (s.here.divert ≠ some .preempt →
        ((∃ q, q ≠ s.cur.2 ∧ (s.here.seq q).atEnd = false) ∨
          (∃ fn imm, ∀ q, q ≠ s.cur.2 → (s.here.seq q).run = .halted ∨
            ∃ p, (s.here.seq q).copy = some p ∧ p.fn = fn ∧ p.imm = imm)) → Runs .halt s (ends .halted)))) ∧
  (∀ (len : BitVec 16) (s : State), Runs (.gvi len) s fun u =>
    u = ((s.modMe fun q => { q with gvi := some len, wait := .held }).mod fun k => { k with chk := u.here.chk }) ∧
    (s.cur.2 ≠ .ctl → u.here.chk = s.here.chk)) ∧
  (∀ (c : CoreId) (s : State), s.Unhindered (unitOfCore c) →
    ((s.core c).regionDue = false ∨ (s.core c).chk.again ≠ [] ∨ s.diverts c = true) → exec (.gviRegionRun c) s = .next s) ∧
  (∀ (c : CoreId) (s : State), s.Unhindered (unitOfCore c) → (s.core c).regionDue = true → (s.core c).chk.again = [] →
    s.diverts c = false →
    ((s.core c).regionSplit = true → (∀ q, ((s.core c).seq q).inTrap = false) → Runs (.gviRegionRun c) s fun u =>
      ∀ q n, ((s.core c).seq q).gvi = some n → TrapsThere s u c q .badGweideRegion 0 ∧ ((u.core c).seq q).gvi = none) ∧
    ((s.core c).regionSplit = false → (s.core c).accessesDone = false → exec (.gviRegionRun c) s = .next s) ∧
    (∀ v len cause va, (s.core c).regionSplit = false → (s.core c).accessesDone = true → ((s.core c).seq .ctl).gvi = some len →
      s.regionRead c (((s.core c).seq .ctl).pc + 8) len.toNat = (v, .error (.trap cause va)) → ((v.core c).seq .ctl).inTrap = false →
      Runs (.gviRegionRun c) s fun u => TrapsThere v u c .ctl cause va ∧ ((u.core c).seq .ctl).gvi = none) ∧
    (∀ v ws len, (s.core c).regionSplit = false → (s.core c).accessesDone = true → ((s.core c).seq .ctl).gvi = some len →
      s.regionRead c (((s.core c).seq .ctl).pc + 8) len.toNat = (v, .ok ws) →
      (∀ cause i, regionOf ws = .error (cause, i) → (∀ q, ((v.core c).seq q).inTrap = false) → Runs (.gviRegionRun c) s fun u =>
        ∀ q n, ((v.core c).seq q).gvi = some n → TrapsThere v u c q cause (BitVec.ofNat 64 i) ∧ ((u.core c).seq q).gvi = none) ∧
      (∀ r x, regionOf ws = .ok r → (v.core c).shapesBad r = none →
        x = (r.streams.head?.map fun g => (v.core c).shape g.sh).getD (.replicate 8 0) →
        (stripsOf x ≤ (v.core c).gvs.toNat → Runs (.gviRegionRun c) s fun u =>
          u = { v with cores := u.cores } ∧ (∀ d, d ≠ c → u.core d = v.core d) ∧ (u.core c).gvs = 0 ∧
          (∀ q n, ((v.core c).seq q).gvi = some n → ((u.core c).seq q).gvi = none ∧
            ((u.core c).seq q).pc =
              (SeqSt.goto ((v.core c).seq q) (((v.core c).seq q).pc + 8 + 8 * n.setWidth 64)).pc)) ∧
        (∀ st, (v.core c).gvs.toNat < stripsOf x → (v.core c).strand = some st → st.bound < r.slots (stripLen x (v.core c).gvs.toNat) →
          ((v.core c).seq .ex).inTrap = false → (v.core c).divert = none → Runs (.gviRegionRun c) s fun u =>
            TrapsThere v u c .ex .yieldBoundExceeded (BitVec.ofNat 64 st.bound) ∧ ((u.core c).seq .ex).gvi = none ∧
            (u.core c).gvs = (v.core c).gvs) ∧
        (∀ w t y st, (v.core c).gvs.toNat + 1 < stripsOf x → (v.core c).strand = some st →
          r.slots (stripLen x (v.core c).gvs.toNat) ≤ st.bound → w = (v.onCore c fun k => { k with ex := { k.ex with ycnt := 0 } }) →
          w.warm c r (stripLen x (v.core c).gvs.toNat) = none → w.strip c r (stripLen x (v.core c).gvs.toNat) = (t, .ok y) →
          exec (.gviRegionRun c) s = .next (({ t with cur := v.cur, curYp := v.curYp, curLog := v.curLog, curAgain := v.curAgain } : State).onCore c fun k =>
            { k with gvs := (v.core c).gvs + 1, ex := { k.ex with ycnt := 0 } })))))

/-! ## Pre-emption (R350, R355-R359, R404) -/

/-- O56. Requests join prq from state 2 on while it has room, and reach a core that runs the context, in the run of a stub for a move or a
release too (R20, R404, R412); a diversion sends every running sequencer to its stub with its resume pc and the reason (R355); a context
switch writes the record of R359, clears the core's entries of the context and frees the core, and a restore brings back what the record
holds, with every sequencer at its stub or halted, where the core may serve (R357, R358, R412, R413). A pre-emption that is cancelled leaves
a committed move or release to go on. A frame on a die that is not in service is waited for. Readings of the model: logs 14, 16, 73, 74
(bits [2:0] of the pc at a stub), 76, 78, 80, 83. -/
def Obligations.Preemption : Prop :=
  (∀ (c : CoreId) (ctx : Ctx) (s : State),
    ((64 ≤ s.prq.length ∨ s.mgst < 2) → exec (.prqPreempt c ctx) s = .next s ∧ exec (.prqRestore c ctx) s = .next s) ∧
    (s.prq.length < 64 → 2 ≤ s.mgst →
      exec (.prqRestore c ctx) s =
        .next { s with prq := s.prq ++ [⟨c, ctx, true, s.pf.psave.toNat, s.gtbq / 189, false⟩] } ∧
      Runs (.prqPreempt c ctx) s fun u => u = { s with
          prq := s.prq ++ [⟨c, ctx, false, s.pf.psave.toNat, s.gtbq / 189, false⟩], cores := u.cores } ∧
        (∀ d, d ≠ c → u.core d = s.core d) ∧
        (∀ st, (s.core c).divert = none → (s.core c).strand = some st → st.ctx = ctx →
          u.core c = { s.core c with req := some .preempt, commit := none }) ∧
        (∀ st why, (s.core c).divert = some why → (s.core c).strand = some st → st.ctx = ctx →
          let ends : Bool := (s.core c).ends.any fun e => e.kind == .final
          ((why = .preempt ∨ ends = true) → u.core c = { s.core c with commit := none }) ∧
          (why ≠ .preempt → ends = false →
            u.core c = { s.core c with commit := none, divert := some .preempt, seqs := (u.core c).seqs } ∧
            ∀ q, (((s.core c).seq q).dres = (match why with | .move => 1 | .preempt => 2 | .release => 3 | .resume => 4) →
                (u.core c).seq q = { (s.core c).seq q with dres := 2, run := if ((s.core c).seq q).run = .halted then .parked
                  else ((s.core c).seq q).run }) ∧
              (((s.core c).seq q).dres ≠ (match why with | .move => 1 | .preempt => 2 | .release => 3 | .resume => 4) →
                (u.core c).seq q = (s.core c).seq q))) ∧
        ((∀ st, (s.core c).strand = some st → st.ctx ≠ ctx) → u.core c = s.core c))) ∧
  (∀ (c : CoreId) (s : State), Runs (.preemptLate c) s fun u => u = { s with prq := u.prq } ∧
    u.prq = s.prq.map fun r => { r with late := r.late || (r.core == c && decide (r.since + 100000 ≤ s.gtbq / 189)) }) ∧
  (∀ (c : CoreId) (s : State), Runs (.preemptCancel c) s fun u => u = { s with prq := u.prq, cores := u.cores } ∧
    (∀ r, r ∈ u.prq ↔ r ∈ s.prq ∧ ¬(r.core = c ∧ r.restore = false)) ∧ (∀ d, d ≠ c → u.core d = s.core d) ∧
    ((s.core c).req = some .preempt → u.core c = { s.core c with req := match (s.core c).commit with
      | none => none
      | some (.move _ _) => some .move
      | some (.draw _) | some .yielded => some .release }) ∧
    ((s.core c).req ≠ some .preempt → u.core c = s.core c)) ∧
  (∀ (c : CoreId) (s : State), ((s.core c).req = none ∨ s.diverts c = false) → exec (.diversion c) s = .next s) ∧
  (∀ (c : CoreId) (s : State) (why : Reason), (s.core c).req = some why → s.diverts c = true →
    Runs (.diversion c) s fun u => u = { s with cores := u.cores } ∧ (∀ d, d ≠ c → u.core d = s.core d) ∧
      u.core c = { s.core c with
        seqs := (u.core c).seqs
        ex := (s.core c).settle.ex
        chk := (u.core c).chk
        req := none
        divert := some why
        commit := if why = .preempt then none else (s.core c).commit
        arrived := none
        synced := (s.core c).synced || (s.core c).atBarrier } ∧
      ∀ q, (q ≠ .ex → ((u.core c).seq q).regs = ((s.core c).seq q).regs) ∧
        (((s.core c).seq q).run ≠ .running → (u.core c).seq q = { (s.core c).seq q with regs := ((u.core c).seq q).regs }) ∧
        (((s.core c).seq q).run = .running → (u.core c).seq q = SeqSt.goto { (s.core c).seq q with
          regs := ((u.core c).seq q).regs
          dpc := ((s.core c).seq q).pc
          dres := (match why with | .move => 1 | .preempt => 2 | .release => 3 | .resume => 4)
          wait := .none
          copy := none
          gvi := none
          walkFault := none } (s.stubAt (s.core c).ctx q ((s.core c).seq q).pc &&& ~~~7))) ∧
  (∀ (c : CoreId) (s : State), ((s.core c).strand = none ∨ (s.core c).divert ≠ some .preempt ∨ (s.core c).canSwitch = false) →
    exec (.contextSwitch c) s = .next s) ∧
  (∀ (c : CoreId) (s : State) (st : Strand), (s.core c).strand = some st → (s.core c).divert = some .preempt →
    (s.core c).canSwitch = true →
    ((∀ r ∈ s.prq, r.core = c → r.ctx = st.ctx → r.restore = true) → Runs (.contextSwitch c) s fun u =>
      u = { s with cores := u.cores } ∧ (∀ d, d ≠ c → u.core d = s.core d) ∧
      u.core c = { s.core c with
        divert := none, seqs := (u.core c).seqs, chk := (u.core c).chk, ex := { (s.core c).ex with ycnt := 0 } } ∧
      ∀ q, (((s.core c).seq q).run = .parked → (u.core c).seq q = SeqSt.goto { (s.core c).seq q with run := .running, dres := 4 }
          (s.stubAt st.ctx q ((s.core c).seq q).dpc &&& ~~~7)) ∧
        (((s.core c).seq q).run ≠ .parked → (u.core c).seq q = (s.core c).seq q)) ∧
    (∀ pre r post, s.prq = pre ++ r :: post → (∀ x ∈ pre, x.core = c → x.ctx = st.ctx → x.restore = true) → r.core = c →
      r.ctx = st.ctx → r.restore = false → s.spanOut r.frame (256 * (256 + st.rows)) = true → exec (.contextSwitch c) s = .next s) ∧
    (∀ pre r post, s.prq = pre ++ r :: post → (∀ x ∈ pre, x.core = c → x.ctx = st.ctx → x.restore = true) → r.core = c →
      r.ctx = st.ctx → r.restore = false → s.spanOut r.frame (256 * (256 + st.rows)) = false → s.errs = [] → s.Canon →
        r.frame % 256 = 0 → r.frame + 256 * (256 + 2048) ≤ 2 ^ 40 →
      (∀ n, (s.padRow c n).flips = []) →
      (∀ l ∈ s.l2, r.frame / 128 ≤ l.la → l.la < (r.frame + 256 * (256 + 2048)) / 128 → l.flips = []) →
      ∀ own : Swap → Bool, (∀ x, own x = decide (x.core = c ∧ x.gid = st.gid ∧ st.domain x.lvl = some 1)) →
      Runs (.contextSwitch c) s fun u =>
        u.prq = pre ++ post ∧ (∀ d, d ≠ c → u.core d = s.core d) ∧ (u.core c).strand = none ∧ (u.core c).divert = none ∧
        (u.core c).away = (s.core c).away ++ [⟨st, (s.core c).fx, (s.core c).sends, (s.core c).stash,
          (s.core c).queues.map fun q => q.entries.map (·.mark), (s.core c).wrote, s.swaps.filter own⟩] ∧
        u.swaps = (s.swaps.filter fun x => !own x) ∧ (u.core c).locks = .replicate 16 0 ∧
        (∀ q, ((u.core c).seq q).run = .idle) ∧ (∀ e, e ∈ (u.core c).tlb ↔ e ∈ (s.core c).tlb ∧ e.ctx ≠ st.ctx) ∧
        (∀ e, e ∈ (u.core c).latt ↔ e ∈ (s.core c).latt ∧ e.ctx ≠ st.ctx) ∧
        (∀ l, l ∈ (u.core c).codeL1 ↔ l ∈ (s.core c).codeL1 ∧ l.ctx ≠ st.ctx) ∧
        (∀ i, i < 256 → u.peekBytes (r.frame + 256 * i) 256 = (s.core c).recordRow c st i % 2 ^ 2048) ∧
        (∀ n : Fin 2048, n.val < st.rows → u.peekBytes (r.frame + 256 * (256 + n.val)) 256 = (s.padRow c n).data.toNat) ∧
        ∀ a, (a / 128 < r.frame / 128 ∨ (r.frame + 256 * (256 + 2048)) / 128 ≤ a / 128) → u.peek a = s.peek a)) ∧
  (∀ (k : Core) (c : CoreId) (st : Strand), st.rows ≤ 2048 → (∀ q : Fin 16, k.queues[q].entries.length ≤ queueDepth q) →
    k.rq.length ≤ 32 → (∀ q : Fin 4, k.bqs[q].length ≤ 16) →
    let w : Nat → Nat → Nat := fun off n => k.recordRow c st (off / 256) / 2 ^ (8 * (off % 256)) % 2 ^ (8 * n)
    w 0 4 = 0x4B564358 ∧ w 4 2 = st.ctx.toNat ∧ w 6 2 = c.val ∧ w 8 4 = st.rows ∧ w 48 8 = st.phase.toNat ∧
      w 56 8 = k.ex.tsa.toNat ∧ w 204 1 = k.rq.length ∧ w 237 19 = 0 ∧
      (∀ q : Seq, (w 12 4).testBit q.num.val = decide ((k.seq q).run = .halted) ∧
        w (16 + 8 * q.num.val) 8 = if (k.seq q).run = .halted then 0 else (k.seq q).dpc.toNat) ∧
      (w 12 4).testBit 4 = k.synced ∧ w 12 4 < 32 ∧ (∀ i : Fin 16, w (64 + 8 * i.val) 8 = k.locks[i].toNat) ∧
      (∀ i : Fin 4, w (200 + i.val) 1 = k.bqs[i].length ∧
        ∀ j, j < 16 → (w (192 + 2 * i.val) 2).testBit j = k.bqs[i].getD j false) ∧
      (∀ i : Fin 16, w (205 + i.val) 1 = k.queues[i].entries.length ∧ w (221 + i.val) 1 = k.toks[i].toNat) ∧
      (∀ i : Fin 256, w (256 + 8 * i.val) 8 = k.consts[i].toNat) ∧
      (∀ j r, k.rq[j]? = some r → w (256 * 74 + 8 * j) 8 = r.value.toNat ∧ w (256 * 75 + j) 1 = r.tag.toNat)) ∧
  (∀ (c : CoreId) (s : State), s.Unhindered (unitOfCore c) → (∀ r ∈ s.prq, r.core = c → r.restore = false) →
    exec (.contextRestore c) s = .next s) ∧
  (∀ (c : CoreId) (s : State) (pre post : List PReq) (r : PReq), s.Unhindered (unitOfCore c) →
    s.prq = pre ++ r :: post → (∀ x ∈ pre, x.core = c → x.restore = false) → r.core = c → r.restore = true →
    (s.spanOut r.frame (256 * (256 + 2048)) = true ∨ s.spanOut (s.ctxPlace r.ctx) 64 = true) →
    exec (.contextRestore c) s = .next s) ∧
  (∀ (c : CoreId) (s : State) (pre post : List PReq) (r : PReq) (w : Nat → Nat → Nat), s.Unhindered (unitOfCore c) →
    s.prq = pre ++ r :: post → (∀ x ∈ pre, x.core = c → x.restore = false) → r.core = c → r.restore = true →
    w = (fun off n => s.shownBytes (r.frame + off) n) → s.spanOut r.frame (256 * (256 + 2048)) = false →
    s.spanOut (s.ctxPlace r.ctx) 64 = false →
    (∀ t, s.checkRecord r.ctx r.frame = (t, true) → exec (.contextRestore c) s = .next { t with prq := t.prq.erase r }) ∧
    (s.Calm r.frame (256 * (256 + min 2048 (w 8 4))) → s.Calm (s.ctxPlace r.ctx) 64 → s.checkRecord r.ctx r.frame = (s, false)) ∧
    (s.checkRecord r.ctx r.frame = (s, false) →
      (w 0 4 ≠ 0x4B564358 ∨ w 4 2 ≠ r.ctx.toNat ∨ w 6 2 ≠ c.val ∨ (s.core c).idle = false ∨ s.mgst < 3 ∨
        (s.mgst = 3 ∧ (clusterOf c).val ≠ 0)) →
      exec (.contextRestore c) s = .next s) ∧
    (∀ k, s.checkRecord r.ctx r.frame = (s, false) → w 0 4 = 0x4B564358 → w 4 2 = r.ctx.toNat → w 6 2 = c.val →
      (s.core c).idle = true → 3 ≤ s.mgst →
      (s.mgst = 3 → (clusterOf c).val = 0) → k = s.loadCore c ((s.core c).awayOf r.ctx) r.frame →
      exec (.contextRestore c) s = .next (((((List.finRange 2048).foldl (fun (t : State) (i : Fin 2048) =>
          if i.val < w 8 4 then t.loadRow c r.ctx ((s.core c).awayOf r.ctx) r.frame i else t)
          (({ s with prq := pre ++ post, swaps := s.swaps ++ ((s.core c).awayOf r.ctx).swaps } : State).onCore c fun _ => k)).relock
            c r.ctx ((s.core c).awayOf r.ctx).strand.lockq).raise c).checkpoint c) ∧
      (∃ st, k.strand = some st ∧ st = { ((s.core c).awayOf r.ctx).strand with rows := w 8 4, phase := BitVec.ofNat 64 (w 48 8) }) ∧
      k.fx = ((s.core c).awayOf r.ctx).fx ∧ k.sends = ((s.core c).awayOf r.ctx).sends ∧
      k.wrote = ((s.core c).awayOf r.ctx).wrote ∧ k.synced = (w 12 4).testBit 4 ∧
      k.ex.tsa = BitVec.ofNat 64 (w 56 8) ∧
      (∀ q : Seq, ((w 12 4).testBit q.num.val = true → (k.seq q).run = .halted) ∧
        ((w 12 4).testBit q.num.val = false → (k.seq q).run = .running ∧ (k.seq q).dres = 4 ∧
          (k.seq q).dpc = BitVec.ofNat 64 (w (16 + 8 * q.num.val) 8) ∧
          (k.seq q).pc = s.stubAt ((s.core c).awayOf r.ctx).strand.ctx q (BitVec.ofNat 64 (w (16 + 8 * q.num.val) 8)) &&& ~~~7)) ∧
      (∀ i : Fin 256, k.consts[i] = BitVec.ofNat 64 (w (256 + 8 * i.val) 8)) ∧
      (∀ i : Fin 16, k.toks[i] = BitVec.ofNat 6 (w (221 + i.val) 1) ∧ k.locks[i] = BitVec.ofNat 64 (w (64 + 8 * i.val) 8) ∧
        k.queues[i].entries.length = min (w (205 + i.val) 1) (queueDepth i))))

/-! ## Decisions, intervals, launches (R334-R347, R360-R362) -/

/-- O57. A decision thaws the frozen master, passes over what it was at, or terminates its context (R360, R361); a VF reset terminates the
VF's contexts, empties its queues and writes its record (R362, R403); both are there from their service's state on (R412). An interval
sets the next, the level of the clusters that change together and the forecast, and moves at most eight cores (R341, R347, R418, R419); a
launch starts once every cluster can place it, and every core it gets, like one that a move sends, starts its strand (R89, R93, R117, R334,
R342). A publication write that is held goes again or is dropped, and a POOL is passed by index (R308, R360). Readings of the model: logs 15,
19, 20, 47, 55, 69, 73, 74 (bits [2:0] of a stage's pcs), 86. -/
def Obligations.DecisionsAndStarts : Prop :=
  (∀ (i : Byte) (s : State), (s.mgst < 2 ∨ ∀ p ∈ s.vpend, p.1 % 256 ≠ i.toNat) →
    exec (.vdecRetry i) s = .next s ∧ exec (.vdecSkip i) s = .next s ∧ exec (.vdecTerminate i) s = .next s) ∧
  (∀ (i : Byte) (s : State) (pre post : List (Nat × Violation)) (n : Nat) (v : Violation), s.vpend = pre ++ (n, v) :: post →
    (∀ p ∈ pre, p.1 % 256 ≠ i.toNat) → n % 256 = i.toNat → 2 ≤ s.mgst →
    let rest : State := { s with vpend := s.vpend.filter fun p => p.1 != n }
    exec (.vdecTerminate i) s = .next (rest.terminate v.ctx) ∧
    (∀ c, v.master = 0 → c = v.core → ∀ a h b, (s.core c).heldPubs = a ++ h :: b → (∀ x ∈ a, x.viol ≠ v) → h.viol = v →
      exec (.vdecRetry i) s = .next (rest.decidePub h false) ∧ exec (.vdecSkip i) s = .next (rest.decidePub h true)) ∧
    (∀ c q, v.master = 0 → c = v.core → q = Seq.ofNum (v.unit.extractLsb' 0 2).toFin → (∀ h ∈ (s.core c).heldPubs, h.viol ≠ v) →
      (((s.core c).seq q).run = .frozen v → (q = .st → (s.core c).heldPubs = []) →
        exec (.vdecRetry i) s = .next (rest.onCore c fun k => k.onSeq q fun st => { st with run := .running }) ∧
        ∀ w0 w1, (s.core c).fetch (s.core c).ctx ((s.core c).seq q).pc = some (w0, w1) → ∀ past : SeqSt → SeqSt,
          (∀ st, past st = SeqSt.goto { st with run := .running, wait := .none } (st.pc + if majorOf w0 = 0x3E then 16
            else if majorOf w0 = 0x3D ∧ w0.extractLsb' 52 4 = 0 then 8 + 8 * (w0.extractLsb' 0 16).setWidth 64 else 8)) →
          (q ≠ .ex → Runs (.vdecSkip i) s fun u => (q ≠ .ctl → (u.core c).chk = (s.core c).chk) ∧
            u = rest.onCore c fun k => { k.onSeq q past with chk := (u.core c).chk }) ∧
          (q = .ex → Runs (.vdecSkip i) s fun u =>
            u = rest.onCore c (fun k => { k with seqs := (u.core c).seqs, ex := (u.core c).ex }) ∧
            (∀ x, x ≠ .ex → (u.core c).seq x = (s.core c).seq x) ∧
            (u.core c).seq .ex = { past ((s.core c).seq .ex) with regs := ((u.core c).seq .ex).regs } ∧
            (u.core c).ex.slot = (s.core c).ex.slot + 1 ∧
            (u.core c).ex.free = max (s.core c).ex.free (s.clkOf c + 1) ∧
            (u.core c).ex.ycnt = if ((s.core c).seq .ex).inTrap = true ∨ (s.core c).divert ≠ none then (s.core c).ex.ycnt
              else if ypOf w0 = true then 1 else (s.core c).ex.ycnt + 1)) ∧
      (((s.core c).seq q).run ≠ .frozen v → exec (.vdecRetry i) s = .next rest ∧ exec (.vdecSkip i) s = .next rest)) ∧
    (∀ e : Engine, v.master = (match e with | .tensor => 1 | .gather => 2 | .code => 3 | .stage => 4) →
      let thawed : EngQ → EngQ := fun x => if x.frozen = some v then { x with frozen := none } else x
      let goes : State := rest.onCore v.core fun k => k.setEngine e (thawed (k.engine e))
      (v.kind = .foreignHitch → exec (.vdecSkip i) s = .next goes ∧
        exec (.vdecRetry i) s = .next (goes.arriveAs v.core v.master v.ctx v.pc v.target)) ∧
      (v.kind ≠ .foreignHitch → ∀ a m b, ((s.core v.core).engine e).cmds = a ++ m :: b → (∀ x ∈ a, x.ended = true) → m.ended = false →
        queueOf m.op = some v.master →
        exec (.vdecRetry i) s = .next (rest.onCore v.core fun k => k.setEngine e { thawed (k.engine e) with
          cmds := a ++ (match m.op with
            | .coll _ => { m with since := s.gtb.toNat }
            | _ => m) :: b }) ∧
        exec (.vdecSkip i) s = .next (rest.onCore v.core fun k => k.setEngine e { thawed (k.engine e) with
          cmds := a ++ (match e, m.op with
            | .gather, .coll _ => { m with since := s.gtb.toNat, ended := true }
            | .gather, .pool _ => if m.pool.full = true then { m with pool := ⟨m.pool.bag + 1, 0, false, []⟩ }
              else { m with pool := { m.pool with n := m.pool.n + 1 }, done := m.done + 1 }
            | .gather, _ => { m with done := m.done + 1 }
            | _, _ => { m with ended := true }) :: b }))) ∧
    (v.master = 5 → ∀ vf : Fin 64, vf.val = v.place.toNat % 64 →
      exec (.vdecRetry i) s = .next { rest with vfs := s.vfs.set vf { s.vfs[vf] with frozen := none } } ∧
      exec (.vdecSkip i) s = .next { rest with vfs := s.vfs.set vf { s.vfs[vf] with frozen := none } })) ∧
  (∀ (ctx : Ctx) (s t : State), t = s.terminate ctx →
    t = { s with cores := t.cores, clusters := t.clusters, swaps := t.swaps, slices := t.slices, vfs := t.vfs, vpend := t.vpend } ∧
    (∀ n : Fin 128, ∀ r, (r ∈ t.slices[n].queue ↔ r ∈ s.slices[n].queue ∧ (r.ctx ≠ ctx ∨ ∃ row d f, r.op = .write row d f)) ∧
      (r ∈ t.slices[n].miss ↔ r ∈ s.slices[n].miss ∧ (r.ctx ≠ ctx ∨ ∃ row d f, r.op = .write row d f))) ∧
    (∀ vf : Fin 64, t.vfs[vf].frozen = s.vfs[vf].frozen.filter fun x => x.ctx != ctx || vf != vfOf ctx) ∧
    (∀ c, (∀ st, (s.core c).strand = some st → st.ctx = ctx → (t.core c).strand = none ∧
        (∀ q, ((t.core c).seq q).run = .idle) ∧ (t.core c).wins = .replicate 16 none ∧ (t.core c).rq = []) ∧
      ((∀ st, (s.core c).strand = some st → st.ctx ≠ ctx) → (t.core c).strand = (s.core c).strand ∧
        (t.core c).seqs = (s.core c).seqs ∧ (t.core c).ex = (s.core c).ex ∧ (t.core c).queues = (s.core c).queues) ∧
      (t.core c).pad = (s.core c).pad ∧ (∀ e, e ∈ (t.core c).tlb ↔ e ∈ (s.core c).tlb ∧ e.ctx ≠ ctx) ∧
      (∀ e, e ∈ (t.core c).codeL1 ↔ e ∈ (s.core c).codeL1 ∧ e.ctx ≠ ctx) ∧
      ∀ e ∈ (t.core c).engines, ∀ m ∈ e.cmds, m.ctx ≠ ctx) ∧
    (∀ u : ClusterId, (∀ e, e ∈ t.clusters[u].tlb ↔ e ∈ s.clusters[u].tlb ∧ e.ctx ≠ ctx) ∧
      (∀ l, l ∈ t.clusters[u].launches ↔ l ∈ s.clusters[u].launches ∧ l.ctx ≠ ctx) ∧
      (cellsWf freeHitch s.clusters[u].hitches → ∀ n,
        t.hitch u n = if (s.hitch u n).owner = some ctx then freeHitch else s.hitch u n)) ∧
    ∀ p, p ∈ t.vpend ↔ p ∈ s.vpend ∧ p.2.ctx ≠ ctx) ∧
  (∀ (vf : Fin 64) (s : State), s.mgst < 3 → exec (.vfReset vf) s = .next s) ∧
  (∀ (vf : Fin 64) (s : State), 3 ≤ s.mgst → s.spanOut s.vfs[vf].rrec.toNat 16 = true → Runs (.vfReset vf) s fun u =>
    u = { s with cores := u.cores, clusters := u.clusters, swaps := u.swaps, slices := u.slices, vfs := u.vfs, vpend := u.vpend,
                 prq := u.prq, owed := u.owed } ∧
    ∃ x n, u.owed = s.owed ++ [⟨s.vfs[vf].rrec.toNat, x, n, some vf⟩] ∧ x / 2 ^ 32 % 2 ^ 32 = (s.vfs[vf].resets + 1).toNat) ∧
  (∀ (vf : Fin 64) (s : State), 3 ≤ s.mgst → s.errs = [] → s.spanOut s.vfs[vf].rrec.toNat 4096 = false →
    (∀ l ∈ s.l2, s.vfs[vf].rrec.toNat / 128 ≤ l.la →
      l.la ≤ (s.vfs[vf].rrec.toNat + 4096) / 128 → l.flips = []) → Runs (.vfReset vf) s fun u =>
    (∀ c st, (s.core c).strand = some st → vfOf st.ctx = vf → (u.core c).strand = none) ∧
    (∀ c, (∀ st, (s.core c).strand = some st → vfOf st.ctx ≠ vf) → (u.core c).strand = (s.core c).strand) ∧
    (∀ p ∈ u.vpend, vfOf p.2.ctx ≠ vf) ∧ (∀ r, r ∈ u.prq ↔ r ∈ s.prq ∧ vfOf r.ctx ≠ vf) ∧ u.vfs[vf].frozen = none ∧
    u.vfs[vf].resets = s.vfs[vf].resets + 1 ∧ u.vfs[vf].ents = [] ∧
    (∀ q : Fin 4, u.vfs[vf].sqs[q] = { s.vfs[vf].sqs[q] with head := 0, tail := 0, stamp := 1, stalled := false, rereads := none }) ∧
    (∀ v : Fin 64, v ≠ vf → u.vfs[v] = s.vfs[v]) ∧
    (s.Canon → s.vfs[vf].rrec.toNat % 4096 = 0 → s.vfs[vf].rrec.toNat < 2 ^ 40 →
      u.peekBytes (s.vfs[vf].rrec.toNat + 4) 4 = (s.vfs[vf].resets + 1).toNat ∧ u.peekBytes (s.vfs[vf].rrec.toNat + 8) 8 = 0)) ∧
  (∀ (u : ClusterId) (s : State), s.clusters[u].clk < s.clusters[u].nextInt → exec (.schedInterval u) s = .next s) ∧
  (∀ (u : ClusterId) (s : State), s.clusters[u].nextInt ≤ s.clusters[u].clk → Runs (.schedInterval u) s fun t =>
    t = { s with cores := t.cores, clusters := t.clusters, afc := t.afc } ∧
    t.clusters[u].nextInt = s.clusters[u].nextInt + 2100 ∧
    (∀ v : ClusterId, (v ∉ s.levelGroup u → t.clusters[v].level = s.clusters[v].level) ∧
      (v ∈ s.levelGroup u → t.clusters[v].level = ((s.levelGroup u).map fun x =>
        if s.mg.thot = true then 3
        else if s.pwmode.getLsbD 0 = true ∨ s.mg.level ≠ s.clusters[x].took then s.mg.level
        else Config.clusterLevel t.afc[x] s.mg.pwnow).foldl max 0 ∧ t.clusters[v].took = s.mg.level)) ∧
    (s.pwmode.getLsbD 0 = false → s.levelGroup u = [u]) ∧
    (s.pwmode.getLsbD 0 = false → t.afc[u] = s.forecast u (s.snapshot u)) ∧ (s.pwmode.getLsbD 0 = true → t.afc = s.afc) ∧
    (∀ v : ClusterId, v ≠ u → t.afc[v] = s.afc[v]) ∧
    (∀ c, t.core c = { s.core c with commit := (t.core c).commit, req := (t.core c).req, startTo := (t.core c).startTo }) ∧
    (∀ c, clusterOf c ≠ u → t.core c = s.core c) ∧
    ((coresOf u).filter fun c => t.core c != s.core c).length ≤ 8 - s.waitingMoves u) ∧
  (∀ (u : ClusterId) (s : State), s.clusters[u].head = none → exec (.launchStart u) s = .next s) ∧
  (∀ (u : ClusterId) (l : Launch) (s : State), s.clusters[u].head = some l →
    ((s.mgst < 3 ∨ ∃ v ∈ s.clustersOf l.gid, s.canStart v l.gid = none) → exec (.launchStart u) s = .next s) ∧
    (3 ≤ s.mgst → (∀ v ∈ s.clustersOf l.gid, s.canStart v l.gid ≠ none) → (∀ v x, s.launch v l.gid = some x →
      s.Calm (s.ctxPlace x.ctx) 64) →
      Runs (.launchStart u) s fun t =>
      t = { s with cores := t.cores, clusters := t.clusters } ∧
      ∀ v ∈ s.clustersOf l.gid, ∃ x on, s.launch v l.gid = some x ∧ t.launch v l.gid = some { x with running := true } ∧
        s.canStart v l.gid = some on ∧ ∀ p ∈ on, StrandStarts s t p.2 x p.1)) ∧
  (∀ (c : CoreId) (s : State), (s.core c).startTo = none → exec (.strandStart c) s = .next s) ∧
  (∀ (c : CoreId) (gid n : Nat) (s : State), (s.core c).startTo = some (gid, n) →
    (s.launch (clusterOf c) gid = none → exec (.strandStart c) s = .next (s.onCore c fun k => { k with startTo := none })) ∧
    (∀ l t, s.launch (clusterOf c) gid = some l → s.checkCtx l.ctx 0 = (t, true) → exec (.strandStart c) s = .next t) ∧
    (∀ l, s.launch (clusterOf c) gid = some l → s.Calm (s.ctxPlace l.ctx) 64 → Runs (.strandStart c) s fun u =>
      u = { s with cores := u.cores } ∧ (∀ d, d ≠ c → u.core d = s.core d) ∧ StrandStarts s u c l n))

/-! ## Code lines (R220-R223) -/

/-- O58. A fetch that misses the code L1 fills its line: a known blank line reads nothing, another is read in the sectors of its known
form, or whole, and its form recorded, which loses the line where it is reserved (R220); a page that is not in the LATT is translated by
the cluster and checked in R222's order, and a failure traps at the fetched address or freezes the sequencer (R221, R222, R223). A
sequencer that does not run fills nothing; one that comes to a line it holds prefetches eight lines ahead and the targets of the line's
branches (R226). A fetch whose slice is full waits in its rotation (R179, log 76). Readings of the model: logs 8, 9, 76, 81. -/
def Obligations.CodeFills : Prop :=
  (∀ (c : CoreId) (q : Seq) (s : State), s.Unhindered (unitOfCore c) → ((s.core c).seq q).run ≠ .running →
    exec (.codeLineFill c q) s = .next s) ∧
  (∀ (c : CoreId) (q : Seq) (s : State) (pc base : Word) (l : CodeLine), pc = ((s.core c).seq q).pc → base = pc &&& ~~~0x7F#64 →
    s.Unhindered (unitOfCore c) → ((s.core c).seq q).run = .running → (s.core c).codeLine (s.core c).ctx pc = some l →
    exec (.codeLineFill c q) s = .next ((((List.range 8).map (fun i => base + BitVec.ofNat 64 (128 * i + 128)) ++
        lineTargets q s.reduced l.data base 0 16).foldl (fun t va => t.prefetchLine c q va) s).onCore c fun k =>
      k.onSeq q fun st => { st with ahead := some (lineOf pc) })) ∧
  (∀ (q : Seq) (reduced : Bool) (data : BitVec 1024) (base va : Word),
    let at' : Nat → Word := fun i => base + BitVec.ofNat 64 (8 * i)
    (∀ i, i < 16 → majorOf (lineWord data (at' i)) ≠ 0x3E) →
    (va ∈ lineTargets q reduced data base 0 16 ↔ ∃ i f d, i < 16 ∧
      decode q (at' i) (lineWord data (at' i)) (lineWord data (at' i + 8)) reduced = .ok f ∧
      ((∃ x, f.instr = .bc x d) ∨ ∃ x, f.instr = .call x d) ∧ va = at' i + (d.signExtend 64 <<< 3))) ∧
  (∀ (c : CoreId) (q : Seq) (s : State) (pc : Word), s.Unhindered (unitOfCore c) → s.errs = [] → pc = ((s.core c).seq q).pc →
    ((s.core c).seq q).run = .running →
    (∀ l ∈ (s.core c).codeL1, ¬(l.ctx = (s.core c).ctx ∧ l.line = lineOf pc)) →
    (∀ v e line, FetchPage s v c q e → line = (pc.extractLsb' 7 9).toNat →
      let pa := e.frame * 65536 + 128 * line
      (e.known.find? (fun y => y.1 == line) = some (line, 0) → Runs (.codeLineFill c q) s fun u =>
        OnlyCore c v u ∧ LineEnters (v.core c) (u.core c) (s.core c).ctx pc pa 0) ∧
      (∀ asked : BitVec 4, ((∀ y ∈ e.known, y.1 ≠ line) ∧ asked = 15 ∨
          ∃ n, 0 < n ∧ n ≤ 4 ∧ e.known.find? (fun y => y.1 == line) = some (line, n) ∧ asked = BitVec.ofNat 4 (2 ^ n - 1)) →
        (∀ w d f, v.memRead (s.fetcher c q) pa asked 0x18 .none = (w, .got d f) →
          (∀ form, (if inHbm pa then w.codeForm pa else some 4) = some form → Runs (.codeLineFill c q) s fun u =>
            OnlyCore c w u ∧
            LineEnters (w.core c) (u.core c) (s.core c).ctx pc pa (if !inHbm pa then d else if form = 0 then 0
              else mergeLine (BitVec.ofNat 1024 (w.shownBytes pa 128)) d asked) ∧
            ∀ x ∈ (u.core c).latt, x.ctx = (s.core c).ctx → x.vpn = (pc.extractLsb' 16 32).toNat →
              x.known.find? (fun y => y.1 == line) = some (line, form)) ∧
          (inHbm pa = true → w.codeForm pa = none →
            exec (.codeLineFill c q) s = .next (w.loseSector (s.fetcher c q) (pa / 32) true))) ∧
        (∀ w, v.memRead (s.fetcher c q) pa asked 0x18 .none = (w, .refused) → (w.core c).seq q = (s.core c).seq q →
          ((s.core c).seq q).inTrap = false →
          Runs (.codeLineFill c q) s fun u => TrapsThere w u c q .layoutMismatch pc) ∧
        (∀ w, v.memRead (s.fetcher c q) pa asked 0x18 .none = (w, .denied) → w.RecordClean → Runs (.codeLineFill c q) s fun u =>
          ∃ x : Violation, ((u.core c).seq q).run = .frozen x ∧ x.kind = .foreignPage ∧ x.pc = pc ∧ x.target = pc ∧
            u.vpend = w.vpend ++ [(w.vlhead, x)]) ∧
        ∀ w, v.memRead (s.fetcher c q) pa asked 0x18 .none = (w, .lost) → exec (.codeLineFill c q) s = .next w)) ∧
    ((∀ x ∈ (s.core c).latt, ¬(x.ctx = (s.core c).ctx ∧ x.vpn = (pc.extractLsb' 16 32).toNat)) → ∀ w,
      let found := s.codeFrame (clusterOf c) (s.fetcher c q) ((s.core c).seq q).sup pc
      (∀ x, found = (w, .error (.trap x)) → (w.core c).seq q = (s.core c).seq q → ((s.core c).seq q).inTrap = false →
        Runs (.codeLineFill c q) s fun u => TrapsThere w u c q x pc) ∧
      (∀ x, found = (w, .error (.violation x)) → w.RecordClean → Runs (.codeLineFill c q) s fun u =>
        ∃ v : Violation, ((u.core c).seq q).run = .frozen v ∧ v.kind = x ∧ v.pc = pc ∧ v.target = pc ∧ v.ctx = (w.core c).ctx ∧
          u.vpend = w.vpend ++ [(w.vlhead, v)]) ∧
      ((found = (w, .error .wait) ∨ found = (w, .error .gone)) → exec (.codeLineFill c q) s = .next w))) ∧
  (∀ (s : State) (u : ClusterId) (who : Asker) (sup : Bool) (va : Word),
    (va.extractLsb' 48 16 ≠ 0 → s.codeFrame u who sup va = (s, .error (.trap .codePageFault))) ∧
    (va.extractLsb' 48 16 = 0 →
      (∀ w x, s.translateNow u who va = (w, .fault x) →
        s.codeFrame u who sup va = (w, .error (.trap (if x = .pageFault then .codePageFault else x)))) ∧
      (∀ w, s.translateNow u who va = (w, .lost) → s.codeFrame u who sup va = (w, .error .gone)) ∧
      (∀ w, s.translateNow u who va = (w, .wait) → s.codeFrame u who sup va = (w, .error .wait)) ∧
      ∀ w p big, s.translateNow u who va = (w, .leaf p big) → s.codeFrame u who sup va = (w,
        if pteDiscard p = 1 then .error (.trap .codePageFault)
        else if p.getLsbD 11 = true ∧ sup = false then .error (.violation .supervisorPage)
        else if (p.extractLsb' 47 6).toNat ≠ (vfOf who.ctx).val then .error (.violation .foreignPage)
        else if p.getLsbD 10 = false then .error (.trap .notCode)
        else if p.extractLsb' 55 6 ≠ 0x17 then .error (.trap .layoutMismatch)
        else if w.dieOut (leafPa p big (va &&& ~~~0xFFFF#64)) then .error .wait
        else .ok (leafPa p big (va &&& ~~~0xFFFF#64) / 65536))))

/-! ## The host port (R398-R403) -/

/-- O59. Requests of the host: none is served before bring-up offers it (R412); a register takes what is in its range, and what is not
posts an event of type 0 with status 1 (R400); a doorbell takes current records in order, re-reads a stale one eight times and then
stalls (R401), and a record that fails a check posts its event (R402); the PF's range moves stored bits (R398); an aperture request that
fails a check freezes the host function, and a write goes to the L2 under its page's code with the aperture's context as owner (R181, R398);
what another package refuses freezes it too (R408). What lies on a die not yet in service waits (R413), and what finds its slice full (R179).
Readings of the model: logs 19, 20, 38, 54, 58, 59, 60, 61, 76, 81. -/
def Obligations.HostPort : Prop :=
  (∀ (vf : Fin 64) (q : Fin 4) (r : HostReg) (value : Word) (pa : BitVec 47) (off : BitVec 36) (n : Nat) (bytes : List Byte) (s : State),
    (s.mgst < 3 → exec (.launchDoorbell vf value) s = .next s ∧ exec (.recordReread vf q) s = .next s ∧
      exec (.sqbaseWrite vf q value) s = .next s ∧ exec (.hdmRead pa n) s = .next s ∧ exec (.hdmWrite pa bytes) s = .next s ∧
      exec (.vfApertureRead vf off n) s = .next s ∧ exec (.vfApertureWrite vf off bytes) s = .next s) ∧
    ((s.mgst < 2 ∨ (s.mgst < 3 ∧ (r = .sqsize vf q ∨ r = .lgrp vf ∨ r = .evq vf ∨ r = .rrec vf ∨ r = .vfrst vf))) →
      exec (.hostRegisterWrite r value) s = .next s) ∧
    (s.vfs[vf].frozen ≠ none → exec (.vfApertureRead vf off n) s = .next s ∧ exec (.vfApertureWrite vf off bytes) s = .next s)) ∧
  (∀ (vf : Fin 64) (q : Fin 4) (value : Word) (s : State), 3 ≤ s.mgst →
    (value.extractLsb' 1 11 = 0 → exec (.sqbaseWrite vf q value) s =
      .next (s.withSq vf q ⟨value, s.vfs[vf].sqs[q].k, 0, 0, 1, false, none⟩)) ∧
    (value.extractLsb' 1 11 ≠ 0 → Runs (.sqbaseWrite vf q value) s fun u => Posts s u vf 0 1 fun _ => True)) ∧
  (∀ (vf : Fin 64) (q : Fin 4) (value : Word) (s : State), 3 ≤ s.mgst → ∀ (r : HostReg) (good : Prop) (v : VfSt),
    ((r = .sqsize vf q ∧ (good ↔ 1 ≤ value.toNat ∧ value.toNat ≤ 12) ∧
        v = { s.vfs[vf] with sqs := s.vfs[vf].sqs.set q { s.vfs[vf].sqs[q] with k := value.setWidth 4 } }) ∨
      (r = .lgrp vf ∧ (good ↔ value.toNat < 2 ^ 36) ∧ v = { s.vfs[vf] with lgrp := value.setWidth 36 }) ∨
      (r = .evq vf ∧ (good ↔ value.toNat % 4096 ∈ [4, 5, 6, 7, 8, 9, 10, 11, 12]) ∧ v = { s.vfs[vf] with evq := value }) ∨
      (r = .rrec vf ∧ (good ↔ value.toNat % 4096 = 0 ∧ value.toNat < 2 ^ 40) ∧ v = { s.vfs[vf] with rrec := value })) →
    (good → exec (.hostRegisterWrite r value) s = .next { s with vfs := s.vfs.set vf v }) ∧
    (¬good → Runs (.hostRegisterWrite r value) s fun u => Posts s u vf 0 1 fun _ => True)) ∧
  (∀ (vf : Fin 64) (value : Word) (s : State), 3 ≤ s.mgst →
    (value = 1 → exec (.hostRegisterWrite (.vfrst vf) value) s = exec (.vfReset vf) s) ∧
    (value ≠ 1 → Runs (.hostRegisterWrite (.vfrst vf) value) s fun u => Posts s u vf 0 1 fun _ => True)) ∧
  (∀ (value : Word) (s : State), 2 ≤ s.mgst →
    (value.toNat % 65536 = 0 → exec (.hostRegisterWrite .ctxtab value) s = .next { s with pf := { s.pf with ctxtab := value } } ∧
      exec (.hostRegisterWrite .psave value) s = .next { s with pf := { s.pf with psave := value } }) ∧
    exec (.hostRegisterWrite .vlbase value) s = .next { s with pf := { s.pf with vlbase := value } } ∧
    (∀ n, value.extractLsb' 43 20 = 0 →
      exec (.hostRegisterWrite (.mpd n) value) s = .next { s with pf := { s.pf with mpd := s.pf.mpd.set n value } }) ∧
    (value.toNat < 128 → exec (.hostRegisterWrite .hdmlay value) s =
      .next (if value.getLsbD 6 = true ∧ reservedCode (value.setWidth 6) = true then s
        else { s with pf := { s.pf with hdmlay := value.setWidth 7 } })) ∧
    (∀ n, value.extractLsb' 0 16 = 0 → value.extractLsb' 47 15 = 0 → exec (.hostRegisterWrite (.exp n false) value) s =
      .next { s with pf := { s.pf with exp := s.pf.exp.set n (value, s.pf.exp[n].2) } }) ∧
    (∀ n, value.extractLsb' 52 12 = 0 → exec (.hostRegisterWrite (.exp n true) value) s =
      .next { s with pf := { s.pf with exp := s.pf.exp.set n (s.pf.exp[n].1, value) } }) ∧
    (∀ n, value.toNat < 2 ^ 36 → exec (.hostRegisterWrite (.rt n) value) s =
      .next { s with pf := { s.pf with rt := s.pf.rt.set n value } }) ∧
    (value.toNat < 1024 → exec (.hostRegisterWrite .gtbctl value) s =
      .next { s with pf := { s.pf with gtbctl := value.setWidth 10 } }) ∧
    (1000 ≤ value.toNat % 65536 → exec (.hostRegisterWrite .pwcap value) s =
      .next { s with mg := { s.mg with pwcap := BitVec.ofNat 16 (min (value.toNat % 65536) 5600) } }) ∧
    (value.toNat % 65536 < 1000 → ∃ x, exec (.hostRegisterWrite .pwcap value) s =
      .next { s.used with mg := { s.mg with pwcap := x } }) ∧
    exec (.hostRegisterWrite .fwaddr value) s = .next { s with mg := { s.mg with fwaddr := value } } ∧
    (value.toNat % 4096 = 0 →
      exec (.hostRegisterWrite .attaddr value) s = .next { s with mg := { s.mg with attaddr := value } })) ∧
  (∀ (vf : Fin 64) (value : Word) (s : State), 3 ≤ s.mgst → ∀ (q : Fin 4) (sq : SubQueue) (tail : BitVec 12),
    q.val = value.toNat % 4 → sq = s.vfs[vf].sqs[q] → tail = value.extractLsb' 2 12 →
    ((2 ^ 14 ≤ value.toNat ∨ 2 ^ sq.k.toNat ≤ tail.toNat) →
      Runs (.launchDoorbell vf value) s fun u => Posts s u vf 0 1 fun _ => True) ∧
    (value.toNat < 2 ^ 14 → tail.toNat < 2 ^ sq.k.toNat → ∀ t : State,
      t = { s with vfs := s.vfs.set vf { s.vfs[vf] with
        latched := s.vfs[vf].lgrp
        sqs := s.vfs[vf].sqs.set q { sq with tail := tail, stalled := false } } } →
      (sq.rereads ≠ none → exec (.launchDoorbell vf value) s = .next t) ∧
      (sq.rereads = none → exec (.launchDoorbell vf value) s = .next (t.takeRecords vf q 4097)))) ∧
  (∀ (vf : Fin 64) (q : Fin 4) (s : State) (n : Nat), 0 < n → ∀ (sq : SubQueue) (x : Nat), sq = s.vfs[vf].sqs[q] →
    x = (let a := (sq.base.extractLsb' 12 52).toNat * 4096 + 256 * sq.head.toNat
      if sq.base.getLsbD 0 then Memory.bytes s.mem (hostAddr a) 256 else s.shownBytes a 256) →
    (sq.head = sq.tail → s.takeRecords vf q n = s.withSq vf q { sq with rereads := none }) ∧
    (sq.head ≠ sq.tail → s.headOut sq = true → s.takeRecords vf q n = s.withSq vf q { sq with rereads := some 0 }) ∧
    (∀ t, sq.head ≠ sq.tail → s.headOut sq = false → s.checkHead sq = (t, true) →
      s.takeRecords vf q n = t.withSq vf q { t.vfs[vf].sqs[q] with rereads := some 0 }) ∧
    ((sq.base.getLsbD 0 = true ∨ s.Calm sq.place 256) → s.checkHead sq = (s, false)) ∧
    (sq.head ≠ sq.tail → s.headOut sq = false → s.checkHead sq = (s, false) → byteField x 252 4 ≠ sq.stamp.toNat →
      s.takeRecords vf q n = s.withSq vf q { sq with rereads := some 0 }) ∧
    (sq.head ≠ sq.tail → s.headOut sq = false → s.checkHead sq = (s, false) → byteField x 252 4 = sq.stamp.toNat → ∀ t : State,
      t = s.withSq vf q { sq with
        head := BitVec.ofNat 12 ((sq.head.toNat + 1) % 2 ^ sq.k.toNat)
        stamp := if sq.stamp = 0xFFFFFFFF then 1 else sq.stamp + 1
        rereads := none } →
      (t.submit vf x = none → s.takeRecords vf q n = s.withSq vf q { sq with rereads := some 0 }) ∧
      (∀ u, t.submit vf x = some u → s.takeRecords vf q n = u.takeRecords vf q (n - 1)) ∧
      ((¬recFieldsOk x ∨ (∃ w ∈ recLevels x, ¬levelFieldsOk w) ∨ ¬recLevelsOk (recLevels x)) → ∃ u, t.submit vf x = some u ∧
        Posts t u vf 0 1 fun y =>
        byteField y 2 2 = (if recFieldsOk x ∧ ∀ w ∈ recLevels x, levelFieldsOk w then 2 else 1) ∧
          byteField y 4 2 = 16 * vf.val + byteField x 4 2 % 16) ∧
      (recHead x = none → ∀ v out ctx, ctx = BitVec.ofNat 10 (16 * vf.val + byteField x 4 2 % 16) →
        t.readSpan 0 ⟨ctx, 0, false⟩ false (BitVec.ofNat 64 (byteField x 8 8)) (64 * byteField x 16 2)
          (64 * byteField x 16 2 / 256 + 2) = (v, out) →
        ((∃ w, out = .error (.wait w)) → t.submit vf x = none) ∧
        (∀ e, out = .error e → (∀ w, e ≠ .wait w) → ∃ u, t.submit vf x = some u ∧ Posts v u vf 0 4 fun y => byteField y 2 2 = 7) ∧
        ∀ tab, out = .ok tab → ∃ u, t.submit vf x = some u ∧
        (∀ st ck, v.recRest 0 ctx none x (tableEntries tab (byteField x 16 2)) = some (st, ck) →
          Posts v u vf 0 st fun y => byteField y 2 2 = ck ∧ byteField y 4 2 = ctx.toNat) ∧
        (∀ w, v.recRest 0 ctx none x (tableEntries tab (byteField x 16 2)) = none → v.ctxRefused ctx = (w, true) →
          Posts w u vf 0 4 fun y => byteField y 2 2 = 7 ∧ byteField y 4 2 = ctx.toNat) ∧
        (v.Calm (v.ctxPlace ctx) 64 → v.ctxRefused ctx = (v, !ctxValid (v.ctxEntry ctx))) ∧
        (v.recRest 0 ctx none x (tableEntries tab (byteField x 16 2)) = none → v.ctxRefused ctx = (v, false) → ∃ l : Launch,
          l.gid = v.nextGid ∧ l.ctx = ctx ∧ l.prio = byteField x 6 1 ∧ l.rows = byteField x 18 2 ∧ l.running = false ∧
          l.stages = (tableEntries tab (byteField x 16 2)).map stageOf ∧ l.hitch = none ∧
          ((recLevels x).any (fun w => decide (6 ≤ levelDomain w)) = true → l.group = v.vfs[vf].latched) ∧
          u = { v with clusters := u.clusters, nextGid := v.nextGid + 1 } ∧
          ∀ w : ClusterId, u.clusters[w] = if w ∈ spanOf 0 (recLevels x) then
            { v.clusters[w] with launches := v.clusters[w].launches ++ [l] } else v.clusters[w])))) ∧
  (∀ (vf : Fin 64) (q : Fin 4) (s : State), 3 ≤ s.mgst → ∀ (sq : SubQueue) (stale : Prop), sq = s.vfs[vf].sqs[q] →
    (stale ↔ byteField (s.headRecord sq) 252 4 ≠ sq.stamp.toNat) →
    ((sq.rereads = none ∨ s.headOut sq = true) → exec (.recordReread vf q) s = .next s) ∧
    (∀ n t, sq.rereads = some n → s.headOut sq = false → s.checkHead sq = (t, true) →
      (n < 7 → exec (.recordReread vf q) s = .next (t.withSq vf q { t.vfs[vf].sqs[q] with rereads := some (n + 1) })) ∧
      (7 ≤ n → Runs (.recordReread vf q) s fun u =>
        Posts (t.withSq vf q { t.vfs[vf].sqs[q] with stalled := true, rereads := none }) u vf 2 0 fun x => byteField x 2 2 = 0x1C0)) ∧
    (∀ n, sq.rereads = some n → s.headOut sq = false → s.checkHead sq = (s, false) →
      (¬stale → exec (.recordReread vf q) s = .next (s.takeRecords vf q 4097)) ∧
      (stale → n < 7 → exec (.recordReread vf q) s = .next (s.withSq vf q { sq with rereads := some (n + 1) })) ∧
      (stale → 7 ≤ n → Runs (.recordReread vf q) s fun u =>
        Posts (s.withSq vf q { sq with stalled := true, rereads := none }) u vf 2 0 fun x => byteField x 2 2 = 0x1C0))) ∧
  (∀ (pa : BitVec 47) (n : Nat) (s : State), 3 ≤ s.mgst →
    ((2 ^ 40 < pa.toNat + n ∨ s.spanOut pa.toNat n = true) → exec (.hdmRead pa n) s = .next s) ∧
    (pa.toNat + n ≤ 2 ^ 40 → s.spanOut pa.toNat n = false → s.Unhindered none → s.Clear pa.toNat n →
      (∀ i, i < n → let w := s.word ((pa.toNat + i) / 32)
        w.flips = [] ∧ (w.stamp.toNat < 0x1C ∨ w.stamp = lostStamp ∨ w.stamp = 0x3F)) →
      (∀ l ∈ s.l2, (∃ i, i < n ∧ l.la = (pa.toNat + i) / 128) → l.flips = []) → Runs (.hdmRead pa n) s fun u =>
      u = { s with hostOut := u.hostOut, rel := u.rel } ∧ u.hostOut.length = n ∧
      (∀ i, i < n → let sector := (pa.toNat + i) / 32
        let held := ∃ l, s.lineAt (sector / 4) = some l ∧ l.valid.getLsbD (sector % 4) = true
        (¬held → (s.word sector).stamp = lostStamp → u.hostOut[i]? = some 0xFF ∧ s.rel.rlcnt < u.rel.rlcnt) ∧
        (¬held → (s.word sector).stamp = 0x3F → u.hostOut[i]? = some 0) ∧
        ((held ∨ (s.word sector).stamp ≠ lostStamp ∧ (s.word sector).stamp ≠ 0x3F) → u.hostOut[i]? = some (s.peek (pa.toNat + i)))) ∧
      ((∀ i, i < n → (s.word ((pa.toNat + i) / 32)).stamp ≠ lostStamp) → u.rel = s.rel))) ∧
  (∀ (pa : BitVec 47) (bytes : List Byte) (s : State), 3 ≤ s.mgst →
    ((2 ^ 40 < pa.toNat + bytes.length ∨ s.spanOut pa.toNat bytes.length = true) → exec (.hdmWrite pa bytes) s = .next s) ∧
    (pa.toNat + bytes.length ≤ 2 ^ 40 → s.spanOut pa.toNat bytes.length = false → s.Unhindered none → s.Clear pa.toNat bytes.length →
      s.Canon →
      (s.pf.hdmlay.getLsbD 6 = true → s.pf.hdmlay.setWidth 6 ≠ (0x3F : BitVec 6)) →
      (∀ l ∈ s.l2, (∃ i, i < bytes.length ∧ l.la = (pa.toNat + i) / 128) → l.flips = []) →
      Runs (.hdmWrite pa bytes) s fun u =>
        u = { s with mem := u.mem, marks := u.marks, l2 := u.l2, rel := u.rel, fresh := u.fresh } ∧
        (∀ i (h : i < bytes.length), u.peek (pa.toNat + i) = bytes[i]) ∧
        (∀ i, i < bytes.length → u.lineAt ((pa.toNat + i) / 128) = none ∧
          (s.pf.hdmlay.getLsbD 6 = true → (u.word ((pa.toNat + i) / 32)).stamp = s.pf.hdmlay.setWidth 6) ∧
          (s.lineAt ((pa.toNat + i) / 128) = none → (s.word ((pa.toNat + i) / 32)).flips = [] →
            ((s.word ((pa.toNat + i) / 32)).stamp.toNat < 0x1C ∨ 0x3E ≤ (s.word ((pa.toNat + i) / 32)).stamp.toNat) →
            (u.word ((pa.toNat + i) / 32)).stamp = s.stampAfter ((pa.toNat + i) / 32))) ∧
        (∀ a, (∀ i, i < bytes.length → (pa.toNat + i) / 128 ≠ a / 128) → u.peek a = s.peek a) ∧
        ∀ a i, i < bytes.length → (pa.toNat + i) / 32 = a / 32 → (a < pa.toNat ∨ pa.toNat + bytes.length ≤ a) →
          s.lineAt (a / 128) = none → (s.word (a / 32)).flips = [] →
          ((s.word (a / 32)).stamp.toNat < 0x1C ∨ 0x3E ≤ (s.word (a / 32)).stamp.toNat) →
          u.peek a = if (s.word (a / 32)).stamp = lostStamp ∨ s.stampAfter (a / 32) ≠ (s.word (a / 32)).stamp then 0 else s.peek a)) ∧
  (∀ (vf : Fin 64) (off : BitVec 36) (n : Nat) (s : State), 3 ≤ s.mgst → s.vfs[vf].frozen = none → s.Unhindered none → ∀ v out,
    s.apParts vf false (off.setWidth 64) n (n / 256 + 2) = (v, out) →
    (∀ w, out = .error (.wait w) → exec (.vfApertureRead vf off n) s = .next s) ∧
    (∀ e a, (∃ x, e = .trap x a) ∨ (∃ x, e = .violation x a) → out = .error e → v.RecordClean → Runs (.vfApertureRead vf off n) s fun u =>
      u.hostOut = List.replicate n 0xFF ∧ ∃ x : Violation, u.vfs[vf].frozen = some x ∧ x.kind = .hostAccess ∧ x.target = a ∧
        x.ctx.toNat = 16 * vf.val ∧ u.vpend = v.vpend ++ [(v.vlhead, x)] ∧ ∀ w : Fin 64, w ≠ vf → u.vfs[w] = v.vfs[w]) ∧
    (∀ ps, out = .ok ps → (∀ p ∈ ps, linkOf p.pa = none) → v.hostAsk ps = v) ∧
    (∀ ps w x, out = .ok ps → (v.hostAsk ps).apGet vf ps = (w, .ok x) →
      exec (.vfApertureRead vf off n) s = .next { w with mute := none, hostOut := bytesOf x n }) ∧
    (∀ ps w, out = .ok ps → (v.hostAsk ps).apGet vf ps = (w, .error .gone) →
      ∃ y, exec (.vfApertureRead vf off n) s = .next { w with mute := none, fresh := w.fresh + 1, hostOut := bytesOf y n }) ∧
    (∀ ps w k va, out = .ok ps → (v.hostAsk ps).apGet vf ps = (w, .error (.violation k va)) → w.RecordClean →
      Runs (.vfApertureRead vf off n) s fun u => u.hostOut = List.replicate n 0xFF ∧
        ∃ x : Violation, u.vfs[vf].frozen = some x ∧ x.kind = k ∧ x.target = va ∧ u.vpend = w.vpend ++ [(w.vlhead, x)]) ∧
    (∀ ps w, out = .ok ps → (∃ e, (v.hostAsk ps).apGet vf ps = (w, .error e) ∧ e ≠ .gone ∧ ∀ k va, e ≠ .violation k va) →
      exec (.vfApertureRead vf off n) s = .next { w with mute := none, hostOut := List.replicate n 0xFF })) ∧
  (∀ (vf : Fin 64) (off : BitVec 36) (bytes : List Byte) (s : State), 3 ≤ s.mgst → s.vfs[vf].frozen = none → s.Unhindered none → ∀ v out,
    s.apParts vf true (off.setWidth 64) bytes.length (bytes.length / 256 + 2) = (v, out) →
    (∀ w, out = .error (.wait w) → exec (.vfApertureWrite vf off bytes) s = .next s) ∧
    (∀ e a, (∃ x, e = .trap x a) ∨ (∃ x, e = .violation x a) → out = .error e → v.RecordClean →
      Runs (.vfApertureWrite vf off bytes) s fun u =>
      ∃ x : Violation, u.vfs[vf].frozen = some x ∧ x.kind = .hostAccess ∧ x.target = a ∧ x.ctx.toNat = 16 * vf.val ∧
        u.vpend = v.vpend ++ [(v.vlhead, x)] ∧ ∀ w : Fin 64, w ≠ vf → u.vfs[w] = v.vfs[w]) ∧
    (∀ ps w va, out = .ok ps → (v.hostAsk ps).apPutAll vf ps (numOf bytes) = (w, some va) → w.RecordClean →
      Runs (.vfApertureWrite vf off bytes) s fun u => ∃ x : Violation, u.vfs[vf].frozen = some x ∧ x.kind = .foreignPage ∧ x.target = va ∧
        u.vpend = w.vpend ++ [(w.vlhead, x)]) ∧
    (∀ ps w, out = .ok ps → (v.hostAsk ps).apPutAll vf ps (numOf bytes) = (w, none) →
      exec (.vfApertureWrite vf off bytes) s = .next { w with mute := none }) ∧
    (∀ ps, out = .ok ps → (∀ p ∈ ps, linkOf p.pa = none) → Runs (.vfApertureWrite vf off bytes) s fun u =>
      (v.Healthy → v.rel.quar = [] → (∀ n : Fin 128, v.slices[n].queue = [] ∧ v.slices[n].miss = []) →
        off.toNat + bytes.length ≤ 2 ^ 36 → (ps.map fun p => p.pa / 256).Nodup →
        (∀ p ∈ ps, ∀ l ∈ v.l2, p.pa / 128 ≤ l.la → l.la ≤ (p.pa + p.n) / 128 → l.tag = pteCode p.pte) →
        ∀ p ∈ ps, pteDiscard p.pte ≠ 1 → (pteCode p.pte).toNat < 0x1C → isEmbc (pteCode p.pte) = false → ∀ j, j < p.n →
          some (u.peek (p.pa + j)) = bytes[(p.va.toNat - off.toNat) + j]? ∧
          (∀ l, u.lineAt ((p.pa + j) / 128) = some l → l.tag = pteCode p.pte ∧ l.owner = BitVec.ofNat 10 (16 * vf.val)) ∧
          (u.lineAt ((p.pa + j) / 128) = none → (u.word ((p.pa + j) / 32)).stamp = pteCode p.pte)) ∧
      ((∀ p ∈ ps, pteDiscard p.pte = 1) → u = { v with mute := none }))) ∧
  (∀ (vf : Fin 64) (write : Bool) (va : Word) (n fuel pa : Nat) (p : Word) (s t : State), 0 < n → va.toNat % 256 + n ≤ 256 →
    s.reachVa 0 ⟨BitVec.ofNat 10 (16 * vf.val), 0, false⟩ false ⟨!write, write, false⟩ va = (t, .ok (p, pa)) →
    s.apParts vf write va n (fuel + 1) = (t, if needsCompressed (pteCode p) = true ∧ ¬(write = true ∧ isEmbc (pteCode p) = true) then
      .error (.trap .conversionUnavailable va) else .ok [⟨p, pa, va, n⟩]))

/-! ## The platform (R412-R419) -/

/-- O60. A package reset leaves the reset values but what outlives it, and holds a package whose image may not run, where the one that ran
stays in place; each later step of bring-up enters its state, with the memory that it trains blank (R412, R414). A staged image is
activated only where it passes R414 (R416); a report stands where attaddr says (R415). The power check moves the level by one (R417), and
heat holds it at 3, or takes the package down, at whatever reading comes (R419). mgst and pstat read as laid out, and a register reads
what was written (R400, R404, R416). The device's own writes that waited for a die are made as it enters service (R413), and what it reads is
checked as any read (R364, R370). Readings of the model: logs 2, 6, 7, 63, 64, 88. -/
def Obligations.Platform : Prop :=
  (∀ s : State, Runs .packageReset s fun u =>
    u = { State.reset with
      mem := s.mem
      marks := s.marks
      pf := { State.reset.pf with nodeid := s.pf.nodeid }
      mg := u.mg
      mgst := 1
      agenda := s.agenda
      fresh := s.fresh } ∧
    (∀ a, s.l2 = [] → u.peek a = s.peek a) ∧
    u.mg = { MgSt.reset with
      step := s.mg.step
      fuse := s.mg.fuse
      svn := u.mg.svn
      body := u.mg.body
      passed := u.mg.passed
      fail := u.mg.fail } ∧
    (∀ v d, s.mg.staged = some (v, d) → s.mg.fuse ≤ v →
      u.mg.svn = v ∧ u.mg.body = some d ∧ u.mg.passed = true ∧ u.mg.fail = false) ∧
    ((s.mg.staged = none ∨ ∃ v d, s.mg.staged = some (v, d) ∧ v < s.mg.fuse) →
      u.mg.svn = s.mg.svn ∧ u.mg.body = s.mg.body ∧ u.mg.passed = s.mg.passed) ∧
    (((∃ v d, s.mg.staged = some (v, d) ∧ v < s.mg.fuse) ∨ (s.mg.staged = none ∧ s.mg.svn < s.mg.fuse)) → u.mg.fail = true) ∧
    (s.mg.staged = none → s.mg.fuse ≤ s.mg.svn → s.mg.passed = true → u.mg.fail = false)) ∧
  (∀ s : State,
    ((s.mgst ≠ 1 ∨ s.mg.fail = true) → exec .firstDieBringup s = .next s) ∧
    (s.mgst = 1 → s.mg.fail = false → Runs .firstDieBringup s fun u =>
      u = { s with mem := u.mem, marks := u.marks, mgst := 2 } ∧
      ∀ a, Memory.get u.mem a = (if a < 2 ^ 37 then 0 else Memory.get s.mem a) ∧
        u.word a = if 32 * a < 2 ^ 37 then blankWord else s.word a)) ∧
  (∀ s : State,
    (s.mgst = 2 → exec .remainingDiesBringup s = .next { s with mgst := 3, mg := { s.mg with dies := false } }) ∧
    (s.mgst = 3 → s.mg.dies = false → Runs .remainingDiesBringup s fun u => ∃ v : State,
      v = { s with mem := v.mem, marks := v.marks, mg := { s.mg with dies := true } } ∧
      (∀ a, Memory.get v.mem a = (if 2 ^ 37 ≤ a ∧ a < 2 ^ 40 then 0 else Memory.get s.mem a) ∧
        v.word a = if 2 ^ 37 ≤ 32 * a ∧ 32 * a < 2 ^ 40 then blankWord else s.word a) ∧
      u = v.payOwed ∧ u.owed = [] ∧ (s.owed = [] → u = v) ∧
      ∀ w, s.owed = [w] → v.Healthy → w.pa + w.n ≤ 2 ^ 40 → ∀ i, i < w.n → u.peek (w.pa + i) = BitVec.ofNat 8 (w.x / 256 ^ i)) ∧
    ((s.mgst ≠ 2 ∧ (s.mgst ≠ 3 ∨ s.mg.dies = true)) → exec .remainingDiesBringup s = .next s)) ∧
  (∀ s : State,
    ((s.mgst ≠ 3 ∨ s.mg.dies = false ∨ s.clusters[0].clk % 2100 ≠ 0) → exec .fullServiceEntry s = .next s) ∧
    (s.mgst = 3 → s.mg.dies = true → s.clusters[0].clk % 2100 = 0 → Runs .fullServiceEntry s fun u =>
      u = { s with mgst := 4, mg := { s.mg with fuse := u.mg.fuse } } ∧ s.mg.fuse ≤ u.mg.fuse ∧
      (s.mg.fuse ≤ s.mg.svn → u.mg.fuse = s.mg.svn))) ∧
  (∀ (value : Word) (s : State),
    ((s.mgst < 2 ∨ value.getLsbD 0 = false ∨ s.mg.fwaddr = 0 ∨ s.imageOut s.mg.fwaddr.toNat = true) →
      exec (.firmwareActivate value) s = .next s) ∧
    (2 ≤ s.mgst → value.getLsbD 0 = true → s.mg.fwaddr ≠ 0 → s.imageOut s.mg.fwaddr.toNat = false →
      (∀ t, s.readImage s.mg.fwaddr.toNat = (t, none) →
        exec (.firmwareActivate value) s = .next { t with mg := { t.mg with fail := true } }) ∧
      ∀ (a h n : Nat) (body : List Byte), a = s.mg.fwaddr.toNat → h = s.shownBytes a 512 → n = byteField h 8 8 →
        body = ((List.range n).map fun i => s.shownByte (a + 512 + i)) → s.Calm a (512 + n) →
      let good : Prop := a + 512 + n ≤ 2 ^ 40 ∧ byteField h 0 4 = 0x4657564B ∧ byteField h 160 352 = 0 ∧
        byteField h 16 48 = (Config.sha384 body).toNat ∧
        Config.ecdsaVerify Config.vendorKeyHash (Config.sha384 ((List.range 64).map fun i => BitVec.ofNat 8 (h >>> (8 * i))))
          (BitVec.ofNat 768 (byteField h 64 96)) = true ∧
        s.mg.fuse.toNat ≤ byteField h 4 4
      (good → exec (.firmwareActivate value) s =
        .next { s with mg := { s.mg with staged := some (BitVec.ofNat 32 (byteField h 4 4), Config.sha384 body) } }) ∧
      (¬good → exec (.firmwareActivate value) s = .next { s with mg := { s.mg with fail := true } }))) ∧
  (∀ s : State,
    ((s.mgst < 2 ∨ s.spanOut s.mg.attaddr.toNat 512 = true) → exec .attestationReport s = .next s) ∧
    (2 ≤ s.mgst → s.spanOut s.mg.attaddr.toNat 512 = false → s.Canon → s.mg.attaddr.toNat % 4096 = 0 → s.mg.attaddr.toNat < 2 ^ 40 →
      s.Calm s.mg.attaddr.toNat 48 →
      (∀ l ∈ s.l2, s.mg.attaddr.toNat / 128 ≤ l.la → l.la < (s.mg.attaddr.toNat + 512) / 128 → l.flips = []) →
      Runs .attestationReport s fun u =>
        u = { s with mem := u.mem, marks := u.marks, l2 := u.l2, rel := u.rel, fresh := u.fresh, mg := { s.mg with att := true } } ∧
        (∀ a, (a < s.mg.attaddr.toNat ∨ s.mg.attaddr.toNat + 512 ≤ a) → u.peek a = s.peek a) ∧
        let w : Nat → Nat → Nat := fun off n => u.peekBytes (s.mg.attaddr.toNat + off) n
        w 0 48 = s.shownBytes s.mg.attaddr.toNat 48 ∧ w 48 48 = (s.mg.body.getD Config.bootDigest).toNat ∧
          w 96 48 = Config.lovageDigest.toNat ∧
        w 144 48 = Config.configDigest.toNat ∧ w 192 4 = s.mg.svn.toNat ∧ w 196 96 = Config.devicePublicKey.toNat ∧
        w 292 96 = (Config.deviceSign (Config.sha384 ((List.range 292).map fun i => u.peek (s.mg.attaddr.toNat + i)))).toNat ∧
        w 388 124 = 0)) ∧
  (∀ (watts : BitVec 16) (s : State),
    (s.mgst < 2 → exec (.powerCheck watts) s = .next s) ∧
    (2 ≤ s.mgst → Runs (.powerCheck watts) s fun u =>
      u = { s with mg := { s.mg with pwnow := watts, level := u.mg.level } } ∧
      (s.mg.thot = true → u.mg.level = s.mg.level) ∧
      (s.mg.thot = false → s.mg.pwcap.toNat < watts.toNat → u.mg.level.val = min 3 (s.mg.level.val + 1)) ∧
      (s.mg.thot = false → 10 * watts.toNat < 9 * s.mg.pwcap.toNat → u.mg.level.val = s.mg.level.val - 1) ∧
      (watts.toNat ≤ s.mg.pwcap.toNat → 9 * s.mg.pwcap.toNat ≤ 10 * watts.toNat → u.mg.level = s.mg.level))) ∧
  (∀ (x : Byte) (s : State),
    (s.mgst < 2 → exec (.thermalHot x) s = .next s ∧ exec (.thermalCool x) s = .next s ∧ exec (.thermalShutdown x) s = .next s) ∧
    (2 ≤ s.mgst →
      ∀ i, (i = .thermalHot x ∨ i = .thermalCool x ∨ i = .thermalShutdown x) →
        (x.toNat < 95 → exec i s = .next { s with mg := { s.mg with tjmax := x, thot := false } }) ∧
        (95 ≤ x.toNat → x.toNat < 105 → exec i s = .next { s with mg := { s.mg with tjmax := x } }) ∧
        (105 ≤ x.toNat → x.toNat < 115 → exec i s = .next { s with mg := { s.mg with tjmax := x, thot := true, level := 3 } }) ∧
        (115 ≤ x.toNat → exec i s = .next { State.reset with
          mem := s.mem
          marks := s.marks
          pf := { State.reset.pf with nodeid := s.pf.nodeid }
          mg := { s.mg with tjmax := x, thot := true, level := 3 }
          agenda := s.agenda
          fresh := s.fresh }))) ∧
  (∀ s : State, s.ModeOk → let w := s.hostView .mgst
    (w.extractLsb' 0 3).toNat = s.mgst ∧ w.getLsbD 3 = s.mg.fail ∧ w.getLsbD 4 = s.mg.att ∧
      (w.extractLsb' 5 3).toNat = s.mg.level.val ∧ w.getLsbD 8 = s.mg.thot ∧ w.extractLsb' 9 55 = 0) ∧
  (∀ s : State, let w := s.hostView .pstat
    (w.extractLsb' 0 6).toNat = s.prq.length % 64 ∧ w.getLsbD 6 = (s.prq.any fun r => r.late) ∧ w.extractLsb' 7 57 = 0) ∧
  (∀ (vf : Fin 64) (s : State) (q : Fin 4), let w := s.hostView (.sqstat vf)
    (w.extractLsb' (16 * q.val) 12) = s.vfs[vf].sqs[q].head ∧ w.getLsbD (16 * q.val + 12) = s.vfs[vf].sqs[q].stalled) ∧
  (∀ (value : Word) (vf : Fin 64) (n : Fin 64) (s u : State), 3 ≤ s.mgst →
    (∀ r x, ((r = .fwaddr ∨ r = .vlbase) ∧ x = value) ∨ (r = .attaddr ∧ x = value &&& ~~~0xFFF) ∨
        ((r = .ctxtab ∨ r = .psave) ∧ x = value &&& ~~~0xFFFF) ∨ (r = .exp n true ∧ x = (value.setWidth 52).setWidth 64) ∨
        (r = .rrec vf ∧ value.toNat < 2 ^ 40 ∧ value.toNat % 4096 = 0 ∧ x = value) →
      exec (.hostRegisterWrite r value) s = .next u → u.hostRead r = some x))
end

