-- ==== Sys2Proof/Laws/Encoding.lean ====
section
/-! SUPPORT. The fields of a word built from fields are those fields (R58-R62): the ground of decoding what was encoded. -/

namespace Sys2Proof.Laws

open BitVec


/-! ## O format -/

theorem o_m (m : BitVec 6) (fn : BitVec 8) (dk : BitVec 2) (di : BitVec 8) (ak : BitVec 2) (ai : BitVec 8) (bk : BitVec 2) (bi : BitVec 8) (ck : BitVec 2) (ci : BitVec 8) (mask : BitVec 3) (ty : BitVec 4) (y mz : Bool) :
    extractLsb' 58 6 (m ++ ofBool y ++ 0#1 ++ fn ++ dk ++ di ++ ak ++ ai ++ bk ++ bi ++ ck ++ ci ++ mask ++ ofBool mz ++ ty) = m := by
  rw [extractLsb'_append_eq_of_le (by decide), extractLsb'_append_eq_of_le (by decide), extractLsb'_append_eq_of_le (by decide), extractLsb'_append_eq_of_le (by decide), extractLsb'_append_eq_of_le (by decide), extractLsb'_append_eq_of_le (by decide), extractLsb'_append_eq_of_le (by decide), extractLsb'_append_eq_of_le (by decide), extractLsb'_append_eq_of_le (by decide), extractLsb'_append_eq_of_le (by decide), extractLsb'_append_eq_of_le (by decide), extractLsb'_append_eq_of_le (by decide), extractLsb'_append_eq_of_le (by decide), extractLsb'_append_eq_of_le (by decide), extractLsb'_eq_self]

theorem o_y (m : BitVec 6) (fn : BitVec 8) (dk : BitVec 2) (di : BitVec 8) (ak : BitVec 2) (ai : BitVec 8) (bk : BitVec 2) (bi : BitVec 8) (ck : BitVec 2) (ci : BitVec 8) (mask : BitVec 3) (ty : BitVec 4) (y mz : Bool) :
    (m ++ ofBool y ++ 0#1 ++ fn ++ dk ++ di ++ ak ++ ai ++ bk ++ bi ++ ck ++ ci ++ mask ++ ofBool mz ++ ty).getLsbD 57 = y := by
  rw [getLsbD_append, if_neg (by decide), getLsbD_append, if_neg (by decide), getLsbD_append, if_neg (by decide), getLsbD_append, if_neg (by decide), getLsbD_append, if_neg (by decide), getLsbD_append, if_neg (by decide), getLsbD_append, if_neg (by decide), getLsbD_append, if_neg (by decide), getLsbD_append, if_neg (by decide), getLsbD_append, if_neg (by decide), getLsbD_append, if_neg (by decide), getLsbD_append, if_neg (by decide), getLsbD_append, if_neg (by decide), getLsbD_append, if_pos (by decide)]
  cases y <;> rfl

theorem o_gap (m : BitVec 6) (fn : BitVec 8) (dk : BitVec 2) (di : BitVec 8) (ak : BitVec 2) (ai : BitVec 8) (bk : BitVec 2) (bi : BitVec 8) (ck : BitVec 2) (ci : BitVec 8) (mask : BitVec 3) (ty : BitVec 4) (y mz : Bool) :
    (m ++ ofBool y ++ 0#1 ++ fn ++ dk ++ di ++ ak ++ ai ++ bk ++ bi ++ ck ++ ci ++ mask ++ ofBool mz ++ ty).getLsbD 56 = false := by
  rw [getLsbD_append, if_neg (by decide), getLsbD_append, if_neg (by decide), getLsbD_append, if_neg (by decide), getLsbD_append, if_neg (by decide), getLsbD_append, if_neg (by decide), getLsbD_append, if_neg (by decide), getLsbD_append, if_neg (by decide), getLsbD_append, if_neg (by decide), getLsbD_append, if_neg (by decide), getLsbD_append, if_neg (by decide), getLsbD_append, if_neg (by decide), getLsbD_append, if_neg (by decide), getLsbD_append, if_pos (by decide)]
  rfl

theorem o_fn (m : BitVec 6) (fn : BitVec 8) (dk : BitVec 2) (di : BitVec 8) (ak : BitVec 2) (ai : BitVec 8) (bk : BitVec 2) (bi : BitVec 8) (ck : BitVec 2) (ci : BitVec 8) (mask : BitVec 3) (ty : BitVec 4) (y mz : Bool) :
    extractLsb' 48 8 (m ++ ofBool y ++ 0#1 ++ fn ++ dk ++ di ++ ak ++ ai ++ bk ++ bi ++ ck ++ ci ++ mask ++ ofBool mz ++ ty) = fn := by
  rw [extractLsb'_append_eq_of_le (by decide), extractLsb'_append_eq_of_le (by decide), extractLsb'_append_eq_of_le (by decide), extractLsb'_append_eq_of_le (by decide), extractLsb'_append_eq_of_le (by decide), extractLsb'_append_eq_of_le (by decide), extractLsb'_append_eq_of_le (by decide), extractLsb'_append_eq_of_le (by decide), extractLsb'_append_eq_of_le (by decide), extractLsb'_append_eq_of_le (by decide), extractLsb'_append_eq_of_le (by decide), extractLsb'_append_eq_of_add_le (by decide), extractLsb'_eq_self]

theorem o_dk (m : BitVec 6) (fn : BitVec 8) (dk : BitVec 2) (di : BitVec 8) (ak : BitVec 2) (ai : BitVec 8) (bk : BitVec 2) (bi : BitVec 8) (ck : BitVec 2) (ci : BitVec 8) (mask : BitVec 3) (ty : BitVec 4) (y mz : Bool) :
    extractLsb' 46 2 (m ++ ofBool y ++ 0#1 ++ fn ++ dk ++ di ++ ak ++ ai ++ bk ++ bi ++ ck ++ ci ++ mask ++ ofBool mz ++ ty) = dk := by
  rw [extractLsb'_append_eq_of_le (by decide), extractLsb'_append_eq_of_le (by decide), extractLsb'_append_eq_of_le (by decide), extractLsb'_append_eq_of_le (by decide), extractLsb'_append_eq_of_le (by decide), extractLsb'_append_eq_of_le (by decide), extractLsb'_append_eq_of_le (by decide), extractLsb'_append_eq_of_le (by decide), extractLsb'_append_eq_of_le (by decide), extractLsb'_append_eq_of_le (by decide), extractLsb'_append_eq_of_add_le (by decide), extractLsb'_eq_self]

theorem o_di (m : BitVec 6) (fn : BitVec 8) (dk : BitVec 2) (di : BitVec 8) (ak : BitVec 2) (ai : BitVec 8) (bk : BitVec 2) (bi : BitVec 8) (ck : BitVec 2) (ci : BitVec 8) (mask : BitVec 3) (ty : BitVec 4) (y mz : Bool) :
    extractLsb' 38 8 (m ++ ofBool y ++ 0#1 ++ fn ++ dk ++ di ++ ak ++ ai ++ bk ++ bi ++ ck ++ ci ++ mask ++ ofBool mz ++ ty) = di := by
  rw [extractLsb'_append_eq_of_le (by decide), extractLsb'_append_eq_of_le (by decide), extractLsb'_append_eq_of_le (by decide), extractLsb'_append_eq_of_le (by decide), extractLsb'_append_eq_of_le (by decide), extractLsb'_append_eq_of_le (by decide), extractLsb'_append_eq_of_le (by decide), extractLsb'_append_eq_of_le (by decide), extractLsb'_append_eq_of_le (by decide), extractLsb'_append_eq_of_add_le (by decide), extractLsb'_eq_self]

theorem o_ak (m : BitVec 6) (fn : BitVec 8) (dk : BitVec 2) (di : BitVec 8) (ak : BitVec 2) (ai : BitVec 8) (bk : BitVec 2) (bi : BitVec 8) (ck : BitVec 2) (ci : BitVec 8) (mask : BitVec 3) (ty : BitVec 4) (y mz : Bool) :
    extractLsb' 36 2 (m ++ ofBool y ++ 0#1 ++ fn ++ dk ++ di ++ ak ++ ai ++ bk ++ bi ++ ck ++ ci ++ mask ++ ofBool mz ++ ty) = ak := by
  rw [extractLsb'_append_eq_of_le (by decide), extractLsb'_append_eq_of_le (by decide), extractLsb'_append_eq_of_le (by decide), extractLsb'_append_eq_of_le (by decide), extractLsb'_append_eq_of_le (by decide), extractLsb'_append_eq_of_le (by decide), extractLsb'_append_eq_of_le (by decide), extractLsb'_append_eq_of_le (by decide), extractLsb'_append_eq_of_add_le (by decide), extractLsb'_eq_self]

theorem o_ai (m : BitVec 6) (fn : BitVec 8) (dk : BitVec 2) (di : BitVec 8) (ak : BitVec 2) (ai : BitVec 8) (bk : BitVec 2) (bi : BitVec 8) (ck : BitVec 2) (ci : BitVec 8) (mask : BitVec 3) (ty : BitVec 4) (y mz : Bool) :
    extractLsb' 28 8 (m ++ ofBool y ++ 0#1 ++ fn ++ dk ++ di ++ ak ++ ai ++ bk ++ bi ++ ck ++ ci ++ mask ++ ofBool mz ++ ty) = ai := by
  rw [extractLsb'_append_eq_of_le (by decide), extractLsb'_append_eq_of_le (by decide), extractLsb'_append_eq_of_le (by decide), extractLsb'_append_eq_of_le (by decide), extractLsb'_append_eq_of_le (by decide), extractLsb'_append_eq_of_le (by decide), extractLsb'_append_eq_of_le (by decide), extractLsb'_append_eq_of_add_le (by decide), extractLsb'_eq_self]

theorem o_bk (m : BitVec 6) (fn : BitVec 8) (dk : BitVec 2) (di : BitVec 8) (ak : BitVec 2) (ai : BitVec 8) (bk : BitVec 2) (bi : BitVec 8) (ck : BitVec 2) (ci : BitVec 8) (mask : BitVec 3) (ty : BitVec 4) (y mz : Bool) :
    extractLsb' 26 2 (m ++ ofBool y ++ 0#1 ++ fn ++ dk ++ di ++ ak ++ ai ++ bk ++ bi ++ ck ++ ci ++ mask ++ ofBool mz ++ ty) = bk := by
  rw [extractLsb'_append_eq_of_le (by decide), extractLsb'_append_eq_of_le (by decide), extractLsb'_append_eq_of_le (by decide), extractLsb'_append_eq_of_le (by decide), extractLsb'_append_eq_of_le (by decide), extractLsb'_append_eq_of_le (by decide), extractLsb'_append_eq_of_add_le (by decide), extractLsb'_eq_self]

theorem o_bi (m : BitVec 6) (fn : BitVec 8) (dk : BitVec 2) (di : BitVec 8) (ak : BitVec 2) (ai : BitVec 8) (bk : BitVec 2) (bi : BitVec 8) (ck : BitVec 2) (ci : BitVec 8) (mask : BitVec 3) (ty : BitVec 4) (y mz : Bool) :
    extractLsb' 18 8 (m ++ ofBool y ++ 0#1 ++ fn ++ dk ++ di ++ ak ++ ai ++ bk ++ bi ++ ck ++ ci ++ mask ++ ofBool mz ++ ty) = bi := by
  rw [extractLsb'_append_eq_of_le (by decide), extractLsb'_append_eq_of_le (by decide), extractLsb'_append_eq_of_le (by decide), extractLsb'_append_eq_of_le (by decide), extractLsb'_append_eq_of_le (by decide), extractLsb'_append_eq_of_add_le (by decide), extractLsb'_eq_self]

theorem o_ck (m : BitVec 6) (fn : BitVec 8) (dk : BitVec 2) (di : BitVec 8) (ak : BitVec 2) (ai : BitVec 8) (bk : BitVec 2) (bi : BitVec 8) (ck : BitVec 2) (ci : BitVec 8) (mask : BitVec 3) (ty : BitVec 4) (y mz : Bool) :
    extractLsb' 16 2 (m ++ ofBool y ++ 0#1 ++ fn ++ dk ++ di ++ ak ++ ai ++ bk ++ bi ++ ck ++ ci ++ mask ++ ofBool mz ++ ty) = ck := by
  rw [extractLsb'_append_eq_of_le (by decide), extractLsb'_append_eq_of_le (by decide), extractLsb'_append_eq_of_le (by decide), extractLsb'_append_eq_of_le (by decide), extractLsb'_append_eq_of_add_le (by decide), extractLsb'_eq_self]

theorem o_ci (m : BitVec 6) (fn : BitVec 8) (dk : BitVec 2) (di : BitVec 8) (ak : BitVec 2) (ai : BitVec 8) (bk : BitVec 2) (bi : BitVec 8) (ck : BitVec 2) (ci : BitVec 8) (mask : BitVec 3) (ty : BitVec 4) (y mz : Bool) :
    extractLsb' 8 8 (m ++ ofBool y ++ 0#1 ++ fn ++ dk ++ di ++ ak ++ ai ++ bk ++ bi ++ ck ++ ci ++ mask ++ ofBool mz ++ ty) = ci := by
  rw [extractLsb'_append_eq_of_le (by decide), extractLsb'_append_eq_of_le (by decide), extractLsb'_append_eq_of_le (by decide), extractLsb'_append_eq_of_add_le (by decide), extractLsb'_eq_self]

theorem o_mask (m : BitVec 6) (fn : BitVec 8) (dk : BitVec 2) (di : BitVec 8) (ak : BitVec 2) (ai : BitVec 8) (bk : BitVec 2) (bi : BitVec 8) (ck : BitVec 2) (ci : BitVec 8) (mask : BitVec 3) (ty : BitVec 4) (y mz : Bool) :
    extractLsb' 5 3 (m ++ ofBool y ++ 0#1 ++ fn ++ dk ++ di ++ ak ++ ai ++ bk ++ bi ++ ck ++ ci ++ mask ++ ofBool mz ++ ty) = mask := by
  rw [extractLsb'_append_eq_of_le (by decide), extractLsb'_append_eq_of_le (by decide), extractLsb'_append_eq_of_add_le (by decide), extractLsb'_eq_self]

theorem o_mz (m : BitVec 6) (fn : BitVec 8) (dk : BitVec 2) (di : BitVec 8) (ak : BitVec 2) (ai : BitVec 8) (bk : BitVec 2) (bi : BitVec 8) (ck : BitVec 2) (ci : BitVec 8) (mask : BitVec 3) (ty : BitVec 4) (y mz : Bool) :
    (m ++ ofBool y ++ 0#1 ++ fn ++ dk ++ di ++ ak ++ ai ++ bk ++ bi ++ ck ++ ci ++ mask ++ ofBool mz ++ ty).getLsbD 4 = mz := by
  rw [getLsbD_append, if_neg (by decide), getLsbD_append, if_pos (by decide)]
  cases mz <;> rfl

theorem o_ty (m : BitVec 6) (fn : BitVec 8) (dk : BitVec 2) (di : BitVec 8) (ak : BitVec 2) (ai : BitVec 8) (bk : BitVec 2) (bi : BitVec 8) (ck : BitVec 2) (ci : BitVec 8) (mask : BitVec 3) (ty : BitVec 4) (y mz : Bool) :
    extractLsb' 0 4 (m ++ ofBool y ++ 0#1 ++ fn ++ dk ++ di ++ ak ++ ai ++ bk ++ bi ++ ck ++ ci ++ mask ++ ofBool mz ++ ty) = ty := by
  rw [extractLsb'_append_eq_of_add_le (by decide), extractLsb'_eq_self]

theorem oFields_oWord (m : BitVec 6) (y : Bool) (o : OFields) : oFields (oWord m y o) = o := by
  obtain ⟨fn, ⟨dk, di⟩, ⟨ak, ai⟩, ⟨bk, bi⟩, ⟨ck, ci⟩, mask, mz, ty⟩ := o
  simp only [oFields, OFields.mk.injEq, Fld.mk.injEq]
  exact ⟨o_fn m fn dk di ak ai bk bi ck ci mask ty y mz, ⟨o_dk m fn dk di ak ai bk bi ck ci mask ty y mz, o_di m fn dk di ak ai bk bi ck ci mask ty y mz⟩, ⟨o_ak m fn dk di ak ai bk bi ck ci mask ty y mz, o_ai m fn dk di ak ai bk bi ck ci mask ty y mz⟩, ⟨o_bk m fn dk di ak ai bk bi ck ci mask ty y mz, o_bi m fn dk di ak ai bk bi ck ci mask ty y mz⟩, ⟨o_ck m fn dk di ak ai bk bi ck ci mask ty y mz, o_ci m fn dk di ak ai bk bi ck ci mask ty y mz⟩, o_mask m fn dk di ak ai bk bi ck ci mask ty y mz, o_mz m fn dk di ak ai bk bi ck ci mask ty y mz, o_ty m fn dk di ak ai bk bi ck ci mask ty y mz⟩

theorem majorOf_oWord (m : BitVec 6) (y : Bool) (o : OFields) : majorOf (oWord m y o) = m := by
  obtain ⟨fn, ⟨dk, di⟩, ⟨ak, ai⟩, ⟨bk, bi⟩, ⟨ck, ci⟩, mask, mz, ty⟩ := o
  exact o_m m fn dk di ak ai bk bi ck ci mask ty y mz

theorem ypOf_oWord (m : BitVec 6) (y : Bool) (o : OFields) : ypOf (oWord m y o) = y := by
  obtain ⟨fn, ⟨dk, di⟩, ⟨ak, ai⟩, ⟨bk, bi⟩, ⟨ck, ci⟩, mask, mz, ty⟩ := o
  exact o_y m fn dk di ak ai bk bi ck ci mask ty y mz

theorem bit56_oWord (m : BitVec 6) (y : Bool) (o : OFields) : bit56 (oWord m y o) = false := by
  obtain ⟨fn, ⟨dk, di⟩, ⟨ak, ai⟩, ⟨bk, bi⟩, ⟨ck, ci⟩, mask, mz, ty⟩ := o
  exact o_gap m fn dk di ak ai bk bi ck ci mask ty y mz

/-! ## I format -/

theorem i_m (m : BitVec 6) (fn : BitVec 4) (dk : BitVec 2) (di : BitVec 8) (ak : BitVec 2) (ai : BitVec 8) (imm : BitVec 32) (y : Bool) :
    extractLsb' 58 6 (m ++ ofBool y ++ 0#1 ++ fn ++ dk ++ di ++ ak ++ ai ++ imm) = m := by
  rw [extractLsb'_append_eq_of_le (by decide), extractLsb'_append_eq_of_le (by decide), extractLsb'_append_eq_of_le (by decide), extractLsb'_append_eq_of_le (by decide), extractLsb'_append_eq_of_le (by decide), extractLsb'_append_eq_of_le (by decide), extractLsb'_append_eq_of_le (by decide), extractLsb'_append_eq_of_le (by decide), extractLsb'_eq_self]

theorem i_y (m : BitVec 6) (fn : BitVec 4) (dk : BitVec 2) (di : BitVec 8) (ak : BitVec 2) (ai : BitVec 8) (imm : BitVec 32) (y : Bool) :
    (m ++ ofBool y ++ 0#1 ++ fn ++ dk ++ di ++ ak ++ ai ++ imm).getLsbD 57 = y := by
  rw [getLsbD_append, if_neg (by decide), getLsbD_append, if_neg (by decide), getLsbD_append, if_neg (by decide), getLsbD_append, if_neg (by decide), getLsbD_append, if_neg (by decide), getLsbD_append, if_neg (by decide), getLsbD_append, if_neg (by decide), getLsbD_append, if_pos (by decide)]
  cases y <;> rfl

theorem i_gap (m : BitVec 6) (fn : BitVec 4) (dk : BitVec 2) (di : BitVec 8) (ak : BitVec 2) (ai : BitVec 8) (imm : BitVec 32) (y : Bool) :
    (m ++ ofBool y ++ 0#1 ++ fn ++ dk ++ di ++ ak ++ ai ++ imm).getLsbD 56 = false := by
  rw [getLsbD_append, if_neg (by decide), getLsbD_append, if_neg (by decide), getLsbD_append, if_neg (by decide), getLsbD_append, if_neg (by decide), getLsbD_append, if_neg (by decide), getLsbD_append, if_neg (by decide), getLsbD_append, if_pos (by decide)]
  rfl

theorem i_fn (m : BitVec 6) (fn : BitVec 4) (dk : BitVec 2) (di : BitVec 8) (ak : BitVec 2) (ai : BitVec 8) (imm : BitVec 32) (y : Bool) :
    extractLsb' 52 4 (m ++ ofBool y ++ 0#1 ++ fn ++ dk ++ di ++ ak ++ ai ++ imm) = fn := by
  rw [extractLsb'_append_eq_of_le (by decide), extractLsb'_append_eq_of_le (by decide), extractLsb'_append_eq_of_le (by decide), extractLsb'_append_eq_of_le (by decide), extractLsb'_append_eq_of_le (by decide), extractLsb'_append_eq_of_add_le (by decide), extractLsb'_eq_self]

theorem i_dk (m : BitVec 6) (fn : BitVec 4) (dk : BitVec 2) (di : BitVec 8) (ak : BitVec 2) (ai : BitVec 8) (imm : BitVec 32) (y : Bool) :
    extractLsb' 50 2 (m ++ ofBool y ++ 0#1 ++ fn ++ dk ++ di ++ ak ++ ai ++ imm) = dk := by
  rw [extractLsb'_append_eq_of_le (by decide), extractLsb'_append_eq_of_le (by decide), extractLsb'_append_eq_of_le (by decide), extractLsb'_append_eq_of_le (by decide), extractLsb'_append_eq_of_add_le (by decide), extractLsb'_eq_self]

theorem i_di (m : BitVec 6) (fn : BitVec 4) (dk : BitVec 2) (di : BitVec 8) (ak : BitVec 2) (ai : BitVec 8) (imm : BitVec 32) (y : Bool) :
    extractLsb' 42 8 (m ++ ofBool y ++ 0#1 ++ fn ++ dk ++ di ++ ak ++ ai ++ imm) = di := by
  rw [extractLsb'_append_eq_of_le (by decide), extractLsb'_append_eq_of_le (by decide), extractLsb'_append_eq_of_le (by decide), extractLsb'_append_eq_of_add_le (by decide), extractLsb'_eq_self]

theorem i_ak (m : BitVec 6) (fn : BitVec 4) (dk : BitVec 2) (di : BitVec 8) (ak : BitVec 2) (ai : BitVec 8) (imm : BitVec 32) (y : Bool) :
    extractLsb' 40 2 (m ++ ofBool y ++ 0#1 ++ fn ++ dk ++ di ++ ak ++ ai ++ imm) = ak := by
  rw [extractLsb'_append_eq_of_le (by decide), extractLsb'_append_eq_of_le (by decide), extractLsb'_append_eq_of_add_le (by decide), extractLsb'_eq_self]

theorem i_ai (m : BitVec 6) (fn : BitVec 4) (dk : BitVec 2) (di : BitVec 8) (ak : BitVec 2) (ai : BitVec 8) (imm : BitVec 32) (y : Bool) :
    extractLsb' 32 8 (m ++ ofBool y ++ 0#1 ++ fn ++ dk ++ di ++ ak ++ ai ++ imm) = ai := by
  rw [extractLsb'_append_eq_of_le (by decide), extractLsb'_append_eq_of_add_le (by decide), extractLsb'_eq_self]

theorem i_imm (m : BitVec 6) (fn : BitVec 4) (dk : BitVec 2) (di : BitVec 8) (ak : BitVec 2) (ai : BitVec 8) (imm : BitVec 32) (y : Bool) :
    extractLsb' 0 32 (m ++ ofBool y ++ 0#1 ++ fn ++ dk ++ di ++ ak ++ ai ++ imm) = imm := by
  rw [extractLsb'_append_eq_of_add_le (by decide), extractLsb'_eq_self]

theorem iFields_iWord (m : BitVec 6) (y : Bool) (o : IFields) : iFields (iWord m y o) = o := by
  obtain ⟨fn, ⟨dk, di⟩, ⟨ak, ai⟩, imm⟩ := o
  simp only [iFields, IFields.mk.injEq, Fld.mk.injEq]
  exact ⟨i_fn m fn dk di ak ai imm y, ⟨i_dk m fn dk di ak ai imm y, i_di m fn dk di ak ai imm y⟩, ⟨i_ak m fn dk di ak ai imm y, i_ai m fn dk di ak ai imm y⟩, i_imm m fn dk di ak ai imm y⟩

theorem majorOf_iWord (m : BitVec 6) (y : Bool) (o : IFields) : majorOf (iWord m y o) = m := by
  obtain ⟨fn, ⟨dk, di⟩, ⟨ak, ai⟩, imm⟩ := o
  exact i_m m fn dk di ak ai imm y

theorem ypOf_iWord (m : BitVec 6) (y : Bool) (o : IFields) : ypOf (iWord m y o) = y := by
  obtain ⟨fn, ⟨dk, di⟩, ⟨ak, ai⟩, imm⟩ := o
  exact i_y m fn dk di ak ai imm y

theorem bit56_iWord (m : BitVec 6) (y : Bool) (o : IFields) : bit56 (iWord m y o) = false := by
  obtain ⟨fn, ⟨dk, di⟩, ⟨ak, ai⟩, imm⟩ := o
  exact i_gap m fn dk di ak ai imm y

/-! ## B format -/

theorem b_m (m : BitVec 6) (cond : BitVec 5) (ak : BitVec 2) (ai : BitVec 8) (bk : BitVec 2) (bi : BitVec 8) (disp : BitVec 32) (y : Bool) :
    extractLsb' 58 6 (m ++ ofBool y ++ cond ++ ak ++ ai ++ bk ++ bi ++ disp) = m := by
  rw [extractLsb'_append_eq_of_le (by decide), extractLsb'_append_eq_of_le (by decide), extractLsb'_append_eq_of_le (by decide), extractLsb'_append_eq_of_le (by decide), extractLsb'_append_eq_of_le (by decide), extractLsb'_append_eq_of_le (by decide), extractLsb'_append_eq_of_le (by decide), extractLsb'_eq_self]

theorem b_y (m : BitVec 6) (cond : BitVec 5) (ak : BitVec 2) (ai : BitVec 8) (bk : BitVec 2) (bi : BitVec 8) (disp : BitVec 32) (y : Bool) :
    (m ++ ofBool y ++ cond ++ ak ++ ai ++ bk ++ bi ++ disp).getLsbD 57 = y := by
  rw [getLsbD_append, if_neg (by decide), getLsbD_append, if_neg (by decide), getLsbD_append, if_neg (by decide), getLsbD_append, if_neg (by decide), getLsbD_append, if_neg (by decide), getLsbD_append, if_neg (by decide), getLsbD_append, if_pos (by decide)]
  cases y <;> rfl

theorem b_cond (m : BitVec 6) (cond : BitVec 5) (ak : BitVec 2) (ai : BitVec 8) (bk : BitVec 2) (bi : BitVec 8) (disp : BitVec 32) (y : Bool) :
    extractLsb' 52 5 (m ++ ofBool y ++ cond ++ ak ++ ai ++ bk ++ bi ++ disp) = cond := by
  rw [extractLsb'_append_eq_of_le (by decide), extractLsb'_append_eq_of_le (by decide), extractLsb'_append_eq_of_le (by decide), extractLsb'_append_eq_of_le (by decide), extractLsb'_append_eq_of_le (by decide), extractLsb'_append_eq_of_add_le (by decide), extractLsb'_eq_self]

theorem b_ak (m : BitVec 6) (cond : BitVec 5) (ak : BitVec 2) (ai : BitVec 8) (bk : BitVec 2) (bi : BitVec 8) (disp : BitVec 32) (y : Bool) :
    extractLsb' 50 2 (m ++ ofBool y ++ cond ++ ak ++ ai ++ bk ++ bi ++ disp) = ak := by
  rw [extractLsb'_append_eq_of_le (by decide), extractLsb'_append_eq_of_le (by decide), extractLsb'_append_eq_of_le (by decide), extractLsb'_append_eq_of_le (by decide), extractLsb'_append_eq_of_add_le (by decide), extractLsb'_eq_self]

theorem b_ai (m : BitVec 6) (cond : BitVec 5) (ak : BitVec 2) (ai : BitVec 8) (bk : BitVec 2) (bi : BitVec 8) (disp : BitVec 32) (y : Bool) :
    extractLsb' 42 8 (m ++ ofBool y ++ cond ++ ak ++ ai ++ bk ++ bi ++ disp) = ai := by
  rw [extractLsb'_append_eq_of_le (by decide), extractLsb'_append_eq_of_le (by decide), extractLsb'_append_eq_of_le (by decide), extractLsb'_append_eq_of_add_le (by decide), extractLsb'_eq_self]

theorem b_bk (m : BitVec 6) (cond : BitVec 5) (ak : BitVec 2) (ai : BitVec 8) (bk : BitVec 2) (bi : BitVec 8) (disp : BitVec 32) (y : Bool) :
    extractLsb' 40 2 (m ++ ofBool y ++ cond ++ ak ++ ai ++ bk ++ bi ++ disp) = bk := by
  rw [extractLsb'_append_eq_of_le (by decide), extractLsb'_append_eq_of_le (by decide), extractLsb'_append_eq_of_add_le (by decide), extractLsb'_eq_self]

theorem b_bi (m : BitVec 6) (cond : BitVec 5) (ak : BitVec 2) (ai : BitVec 8) (bk : BitVec 2) (bi : BitVec 8) (disp : BitVec 32) (y : Bool) :
    extractLsb' 32 8 (m ++ ofBool y ++ cond ++ ak ++ ai ++ bk ++ bi ++ disp) = bi := by
  rw [extractLsb'_append_eq_of_le (by decide), extractLsb'_append_eq_of_add_le (by decide), extractLsb'_eq_self]

theorem b_disp (m : BitVec 6) (cond : BitVec 5) (ak : BitVec 2) (ai : BitVec 8) (bk : BitVec 2) (bi : BitVec 8) (disp : BitVec 32) (y : Bool) :
    extractLsb' 0 32 (m ++ ofBool y ++ cond ++ ak ++ ai ++ bk ++ bi ++ disp) = disp := by
  rw [extractLsb'_append_eq_of_add_le (by decide), extractLsb'_eq_self]

theorem bFields_bWord (m : BitVec 6) (y : Bool) (o : BFields) : bFields (bWord m y o) = o := by
  obtain ⟨cond, ⟨ak, ai⟩, ⟨bk, bi⟩, disp⟩ := o
  simp only [bFields, BFields.mk.injEq, Fld.mk.injEq]
  exact ⟨b_cond m cond ak ai bk bi disp y, ⟨b_ak m cond ak ai bk bi disp y, b_ai m cond ak ai bk bi disp y⟩, ⟨b_bk m cond ak ai bk bi disp y, b_bi m cond ak ai bk bi disp y⟩, b_disp m cond ak ai bk bi disp y⟩

theorem majorOf_bWord (m : BitVec 6) (y : Bool) (o : BFields) : majorOf (bWord m y o) = m := by
  obtain ⟨cond, ⟨ak, ai⟩, ⟨bk, bi⟩, disp⟩ := o
  exact b_m m cond ak ai bk bi disp y

theorem ypOf_bWord (m : BitVec 6) (y : Bool) (o : BFields) : ypOf (bWord m y o) = y := by
  obtain ⟨cond, ⟨ak, ai⟩, ⟨bk, bi⟩, disp⟩ := o
  exact b_y m cond ak ai bk bi disp y

/-! ## M format -/

theorem m_m (m : BitVec 6) (fn : BitVec 6) (q : BitVec 4) (base : BitVec 5) (sh : BitVec 4) (gran : BitVec 2) (hint : BitVec 3) (off : BitVec 32) (y : Bool) :
    extractLsb' 58 6 (m ++ ofBool y ++ 0#1 ++ fn ++ q ++ base ++ sh ++ gran ++ hint ++ off) = m := by
  rw [extractLsb'_append_eq_of_le (by decide), extractLsb'_append_eq_of_le (by decide), extractLsb'_append_eq_of_le (by decide), extractLsb'_append_eq_of_le (by decide), extractLsb'_append_eq_of_le (by decide), extractLsb'_append_eq_of_le (by decide), extractLsb'_append_eq_of_le (by decide), extractLsb'_append_eq_of_le (by decide), extractLsb'_append_eq_of_le (by decide), extractLsb'_eq_self]

theorem m_y (m : BitVec 6) (fn : BitVec 6) (q : BitVec 4) (base : BitVec 5) (sh : BitVec 4) (gran : BitVec 2) (hint : BitVec 3) (off : BitVec 32) (y : Bool) :
    (m ++ ofBool y ++ 0#1 ++ fn ++ q ++ base ++ sh ++ gran ++ hint ++ off).getLsbD 57 = y := by
  rw [getLsbD_append, if_neg (by decide), getLsbD_append, if_neg (by decide), getLsbD_append, if_neg (by decide), getLsbD_append, if_neg (by decide), getLsbD_append, if_neg (by decide), getLsbD_append, if_neg (by decide), getLsbD_append, if_neg (by decide), getLsbD_append, if_neg (by decide), getLsbD_append, if_pos (by decide)]
  cases y <;> rfl

theorem m_gap (m : BitVec 6) (fn : BitVec 6) (q : BitVec 4) (base : BitVec 5) (sh : BitVec 4) (gran : BitVec 2) (hint : BitVec 3) (off : BitVec 32) (y : Bool) :
    (m ++ ofBool y ++ 0#1 ++ fn ++ q ++ base ++ sh ++ gran ++ hint ++ off).getLsbD 56 = false := by
  rw [getLsbD_append, if_neg (by decide), getLsbD_append, if_neg (by decide), getLsbD_append, if_neg (by decide), getLsbD_append, if_neg (by decide), getLsbD_append, if_neg (by decide), getLsbD_append, if_neg (by decide), getLsbD_append, if_neg (by decide), getLsbD_append, if_pos (by decide)]
  rfl

theorem m_fn (m : BitVec 6) (fn : BitVec 6) (q : BitVec 4) (base : BitVec 5) (sh : BitVec 4) (gran : BitVec 2) (hint : BitVec 3) (off : BitVec 32) (y : Bool) :
    extractLsb' 50 6 (m ++ ofBool y ++ 0#1 ++ fn ++ q ++ base ++ sh ++ gran ++ hint ++ off) = fn := by
  rw [extractLsb'_append_eq_of_le (by decide), extractLsb'_append_eq_of_le (by decide), extractLsb'_append_eq_of_le (by decide), extractLsb'_append_eq_of_le (by decide), extractLsb'_append_eq_of_le (by decide), extractLsb'_append_eq_of_le (by decide), extractLsb'_append_eq_of_add_le (by decide), extractLsb'_eq_self]

theorem m_q (m : BitVec 6) (fn : BitVec 6) (q : BitVec 4) (base : BitVec 5) (sh : BitVec 4) (gran : BitVec 2) (hint : BitVec 3) (off : BitVec 32) (y : Bool) :
    extractLsb' 46 4 (m ++ ofBool y ++ 0#1 ++ fn ++ q ++ base ++ sh ++ gran ++ hint ++ off) = q := by
  rw [extractLsb'_append_eq_of_le (by decide), extractLsb'_append_eq_of_le (by decide), extractLsb'_append_eq_of_le (by decide), extractLsb'_append_eq_of_le (by decide), extractLsb'_append_eq_of_le (by decide), extractLsb'_append_eq_of_add_le (by decide), extractLsb'_eq_self]

theorem m_base (m : BitVec 6) (fn : BitVec 6) (q : BitVec 4) (base : BitVec 5) (sh : BitVec 4) (gran : BitVec 2) (hint : BitVec 3) (off : BitVec 32) (y : Bool) :
    extractLsb' 41 5 (m ++ ofBool y ++ 0#1 ++ fn ++ q ++ base ++ sh ++ gran ++ hint ++ off) = base := by
  rw [extractLsb'_append_eq_of_le (by decide), extractLsb'_append_eq_of_le (by decide), extractLsb'_append_eq_of_le (by decide), extractLsb'_append_eq_of_le (by decide), extractLsb'_append_eq_of_add_le (by decide), extractLsb'_eq_self]

theorem m_sh (m : BitVec 6) (fn : BitVec 6) (q : BitVec 4) (base : BitVec 5) (sh : BitVec 4) (gran : BitVec 2) (hint : BitVec 3) (off : BitVec 32) (y : Bool) :
    extractLsb' 37 4 (m ++ ofBool y ++ 0#1 ++ fn ++ q ++ base ++ sh ++ gran ++ hint ++ off) = sh := by
  rw [extractLsb'_append_eq_of_le (by decide), extractLsb'_append_eq_of_le (by decide), extractLsb'_append_eq_of_le (by decide), extractLsb'_append_eq_of_add_le (by decide), extractLsb'_eq_self]

theorem m_gran (m : BitVec 6) (fn : BitVec 6) (q : BitVec 4) (base : BitVec 5) (sh : BitVec 4) (gran : BitVec 2) (hint : BitVec 3) (off : BitVec 32) (y : Bool) :
    extractLsb' 35 2 (m ++ ofBool y ++ 0#1 ++ fn ++ q ++ base ++ sh ++ gran ++ hint ++ off) = gran := by
  rw [extractLsb'_append_eq_of_le (by decide), extractLsb'_append_eq_of_le (by decide), extractLsb'_append_eq_of_add_le (by decide), extractLsb'_eq_self]

theorem m_hint (m : BitVec 6) (fn : BitVec 6) (q : BitVec 4) (base : BitVec 5) (sh : BitVec 4) (gran : BitVec 2) (hint : BitVec 3) (off : BitVec 32) (y : Bool) :
    extractLsb' 32 3 (m ++ ofBool y ++ 0#1 ++ fn ++ q ++ base ++ sh ++ gran ++ hint ++ off) = hint := by
  rw [extractLsb'_append_eq_of_le (by decide), extractLsb'_append_eq_of_add_le (by decide), extractLsb'_eq_self]

theorem m_off (m : BitVec 6) (fn : BitVec 6) (q : BitVec 4) (base : BitVec 5) (sh : BitVec 4) (gran : BitVec 2) (hint : BitVec 3) (off : BitVec 32) (y : Bool) :
    extractLsb' 0 32 (m ++ ofBool y ++ 0#1 ++ fn ++ q ++ base ++ sh ++ gran ++ hint ++ off) = off := by
  rw [extractLsb'_append_eq_of_add_le (by decide), extractLsb'_eq_self]

theorem mFields_mWord (m : BitVec 6) (y : Bool) (o : MFields) : mFields (mWord m y o) = o := by
  obtain ⟨fn, q, base, sh, gran, hint, off⟩ := o
  simp only [mFields, MFields.mk.injEq]
  exact ⟨m_fn m fn q base sh gran hint off y, m_q m fn q base sh gran hint off y, m_base m fn q base sh gran hint off y, m_sh m fn q base sh gran hint off y, m_gran m fn q base sh gran hint off y, m_hint m fn q base sh gran hint off y, m_off m fn q base sh gran hint off y⟩

theorem majorOf_mWord (m : BitVec 6) (y : Bool) (o : MFields) : majorOf (mWord m y o) = m := by
  obtain ⟨fn, q, base, sh, gran, hint, off⟩ := o
  exact m_m m fn q base sh gran hint off y

theorem ypOf_mWord (m : BitVec 6) (y : Bool) (o : MFields) : ypOf (mWord m y o) = y := by
  obtain ⟨fn, q, base, sh, gran, hint, off⟩ := o
  exact m_y m fn q base sh gran hint off y

theorem bit56_mWord (m : BitVec 6) (y : Bool) (o : MFields) : bit56 (mWord m y o) = false := by
  obtain ⟨fn, q, base, sh, gran, hint, off⟩ := o
  exact m_gap m fn q base sh gran hint off y

/-! ## C format -/

theorem c_m (m : BitVec 6) (fn : BitVec 6) (sa : BitVec 5) (sb : BitVec 5) (sc : BitVec 5) (sh : BitVec 4) (hitch : BitVec 5) (nb : BitVec 5) (tag : BitVec 5) (scope : BitVec 4) (order : BitVec 2) (imm : BitVec 10) (y tsm : Bool) :
    extractLsb' 58 6 (m ++ ofBool y ++ ofBool tsm ++ fn ++ sa ++ sb ++ sc ++ sh ++ hitch ++ nb ++ tag ++ scope ++ order ++ imm) = m := by
  rw [extractLsb'_append_eq_of_le (by decide), extractLsb'_append_eq_of_le (by decide), extractLsb'_append_eq_of_le (by decide), extractLsb'_append_eq_of_le (by decide), extractLsb'_append_eq_of_le (by decide), extractLsb'_append_eq_of_le (by decide), extractLsb'_append_eq_of_le (by decide), extractLsb'_append_eq_of_le (by decide), extractLsb'_append_eq_of_le (by decide), extractLsb'_append_eq_of_le (by decide), extractLsb'_append_eq_of_le (by decide), extractLsb'_append_eq_of_le (by decide), extractLsb'_append_eq_of_le (by decide), extractLsb'_eq_self]

theorem c_y (m : BitVec 6) (fn : BitVec 6) (sa : BitVec 5) (sb : BitVec 5) (sc : BitVec 5) (sh : BitVec 4) (hitch : BitVec 5) (nb : BitVec 5) (tag : BitVec 5) (scope : BitVec 4) (order : BitVec 2) (imm : BitVec 10) (y tsm : Bool) :
    (m ++ ofBool y ++ ofBool tsm ++ fn ++ sa ++ sb ++ sc ++ sh ++ hitch ++ nb ++ tag ++ scope ++ order ++ imm).getLsbD 57 = y := by
  rw [getLsbD_append, if_neg (by decide), getLsbD_append, if_neg (by decide), getLsbD_append, if_neg (by decide), getLsbD_append, if_neg (by decide), getLsbD_append, if_neg (by decide), getLsbD_append, if_neg (by decide), getLsbD_append, if_neg (by decide), getLsbD_append, if_neg (by decide), getLsbD_append, if_neg (by decide), getLsbD_append, if_neg (by decide), getLsbD_append, if_neg (by decide), getLsbD_append, if_neg (by decide), getLsbD_append, if_pos (by decide)]
  cases y <;> rfl

theorem c_tsm (m : BitVec 6) (fn : BitVec 6) (sa : BitVec 5) (sb : BitVec 5) (sc : BitVec 5) (sh : BitVec 4) (hitch : BitVec 5) (nb : BitVec 5) (tag : BitVec 5) (scope : BitVec 4) (order : BitVec 2) (imm : BitVec 10) (y tsm : Bool) :
    (m ++ ofBool y ++ ofBool tsm ++ fn ++ sa ++ sb ++ sc ++ sh ++ hitch ++ nb ++ tag ++ scope ++ order ++ imm).getLsbD 56 = tsm := by
  rw [getLsbD_append, if_neg (by decide), getLsbD_append, if_neg (by decide), getLsbD_append, if_neg (by decide), getLsbD_append, if_neg (by decide), getLsbD_append, if_neg (by decide), getLsbD_append, if_neg (by decide), getLsbD_append, if_neg (by decide), getLsbD_append, if_neg (by decide), getLsbD_append, if_neg (by decide), getLsbD_append, if_neg (by decide), getLsbD_append, if_neg (by decide), getLsbD_append, if_pos (by decide)]
  cases tsm <;> rfl

theorem c_fn (m : BitVec 6) (fn : BitVec 6) (sa : BitVec 5) (sb : BitVec 5) (sc : BitVec 5) (sh : BitVec 4) (hitch : BitVec 5) (nb : BitVec 5) (tag : BitVec 5) (scope : BitVec 4) (order : BitVec 2) (imm : BitVec 10) (y tsm : Bool) :
    extractLsb' 50 6 (m ++ ofBool y ++ ofBool tsm ++ fn ++ sa ++ sb ++ sc ++ sh ++ hitch ++ nb ++ tag ++ scope ++ order ++ imm) = fn := by
  rw [extractLsb'_append_eq_of_le (by decide), extractLsb'_append_eq_of_le (by decide), extractLsb'_append_eq_of_le (by decide), extractLsb'_append_eq_of_le (by decide), extractLsb'_append_eq_of_le (by decide), extractLsb'_append_eq_of_le (by decide), extractLsb'_append_eq_of_le (by decide), extractLsb'_append_eq_of_le (by decide), extractLsb'_append_eq_of_le (by decide), extractLsb'_append_eq_of_le (by decide), extractLsb'_append_eq_of_add_le (by decide), extractLsb'_eq_self]

theorem c_sa (m : BitVec 6) (fn : BitVec 6) (sa : BitVec 5) (sb : BitVec 5) (sc : BitVec 5) (sh : BitVec 4) (hitch : BitVec 5) (nb : BitVec 5) (tag : BitVec 5) (scope : BitVec 4) (order : BitVec 2) (imm : BitVec 10) (y tsm : Bool) :
    extractLsb' 45 5 (m ++ ofBool y ++ ofBool tsm ++ fn ++ sa ++ sb ++ sc ++ sh ++ hitch ++ nb ++ tag ++ scope ++ order ++ imm) = sa := by
  rw [extractLsb'_append_eq_of_le (by decide), extractLsb'_append_eq_of_le (by decide), extractLsb'_append_eq_of_le (by decide), extractLsb'_append_eq_of_le (by decide), extractLsb'_append_eq_of_le (by decide), extractLsb'_append_eq_of_le (by decide), extractLsb'_append_eq_of_le (by decide), extractLsb'_append_eq_of_le (by decide), extractLsb'_append_eq_of_le (by decide), extractLsb'_append_eq_of_add_le (by decide), extractLsb'_eq_self]

theorem c_sb (m : BitVec 6) (fn : BitVec 6) (sa : BitVec 5) (sb : BitVec 5) (sc : BitVec 5) (sh : BitVec 4) (hitch : BitVec 5) (nb : BitVec 5) (tag : BitVec 5) (scope : BitVec 4) (order : BitVec 2) (imm : BitVec 10) (y tsm : Bool) :
    extractLsb' 40 5 (m ++ ofBool y ++ ofBool tsm ++ fn ++ sa ++ sb ++ sc ++ sh ++ hitch ++ nb ++ tag ++ scope ++ order ++ imm) = sb := by
  rw [extractLsb'_append_eq_of_le (by decide), extractLsb'_append_eq_of_le (by decide), extractLsb'_append_eq_of_le (by decide), extractLsb'_append_eq_of_le (by decide), extractLsb'_append_eq_of_le (by decide), extractLsb'_append_eq_of_le (by decide), extractLsb'_append_eq_of_le (by decide), extractLsb'_append_eq_of_le (by decide), extractLsb'_append_eq_of_add_le (by decide), extractLsb'_eq_self]

theorem c_sc (m : BitVec 6) (fn : BitVec 6) (sa : BitVec 5) (sb : BitVec 5) (sc : BitVec 5) (sh : BitVec 4) (hitch : BitVec 5) (nb : BitVec 5) (tag : BitVec 5) (scope : BitVec 4) (order : BitVec 2) (imm : BitVec 10) (y tsm : Bool) :
    extractLsb' 35 5 (m ++ ofBool y ++ ofBool tsm ++ fn ++ sa ++ sb ++ sc ++ sh ++ hitch ++ nb ++ tag ++ scope ++ order ++ imm) = sc := by
  rw [extractLsb'_append_eq_of_le (by decide), extractLsb'_append_eq_of_le (by decide), extractLsb'_append_eq_of_le (by decide), extractLsb'_append_eq_of_le (by decide), extractLsb'_append_eq_of_le (by decide), extractLsb'_append_eq_of_le (by decide), extractLsb'_append_eq_of_le (by decide), extractLsb'_append_eq_of_add_le (by decide), extractLsb'_eq_self]

theorem c_sh (m : BitVec 6) (fn : BitVec 6) (sa : BitVec 5) (sb : BitVec 5) (sc : BitVec 5) (sh : BitVec 4) (hitch : BitVec 5) (nb : BitVec 5) (tag : BitVec 5) (scope : BitVec 4) (order : BitVec 2) (imm : BitVec 10) (y tsm : Bool) :
    extractLsb' 31 4 (m ++ ofBool y ++ ofBool tsm ++ fn ++ sa ++ sb ++ sc ++ sh ++ hitch ++ nb ++ tag ++ scope ++ order ++ imm) = sh := by
  rw [extractLsb'_append_eq_of_le (by decide), extractLsb'_append_eq_of_le (by decide), extractLsb'_append_eq_of_le (by decide), extractLsb'_append_eq_of_le (by decide), extractLsb'_append_eq_of_le (by decide), extractLsb'_append_eq_of_le (by decide), extractLsb'_append_eq_of_add_le (by decide), extractLsb'_eq_self]

theorem c_hitch (m : BitVec 6) (fn : BitVec 6) (sa : BitVec 5) (sb : BitVec 5) (sc : BitVec 5) (sh : BitVec 4) (hitch : BitVec 5) (nb : BitVec 5) (tag : BitVec 5) (scope : BitVec 4) (order : BitVec 2) (imm : BitVec 10) (y tsm : Bool) :
    extractLsb' 26 5 (m ++ ofBool y ++ ofBool tsm ++ fn ++ sa ++ sb ++ sc ++ sh ++ hitch ++ nb ++ tag ++ scope ++ order ++ imm) = hitch := by
  rw [extractLsb'_append_eq_of_le (by decide), extractLsb'_append_eq_of_le (by decide), extractLsb'_append_eq_of_le (by decide), extractLsb'_append_eq_of_le (by decide), extractLsb'_append_eq_of_le (by decide), extractLsb'_append_eq_of_add_le (by decide), extractLsb'_eq_self]

theorem c_nb (m : BitVec 6) (fn : BitVec 6) (sa : BitVec 5) (sb : BitVec 5) (sc : BitVec 5) (sh : BitVec 4) (hitch : BitVec 5) (nb : BitVec 5) (tag : BitVec 5) (scope : BitVec 4) (order : BitVec 2) (imm : BitVec 10) (y tsm : Bool) :
    extractLsb' 21 5 (m ++ ofBool y ++ ofBool tsm ++ fn ++ sa ++ sb ++ sc ++ sh ++ hitch ++ nb ++ tag ++ scope ++ order ++ imm) = nb := by
  rw [extractLsb'_append_eq_of_le (by decide), extractLsb'_append_eq_of_le (by decide), extractLsb'_append_eq_of_le (by decide), extractLsb'_append_eq_of_le (by decide), extractLsb'_append_eq_of_add_le (by decide), extractLsb'_eq_self]

theorem c_tag (m : BitVec 6) (fn : BitVec 6) (sa : BitVec 5) (sb : BitVec 5) (sc : BitVec 5) (sh : BitVec 4) (hitch : BitVec 5) (nb : BitVec 5) (tag : BitVec 5) (scope : BitVec 4) (order : BitVec 2) (imm : BitVec 10) (y tsm : Bool) :
    extractLsb' 16 5 (m ++ ofBool y ++ ofBool tsm ++ fn ++ sa ++ sb ++ sc ++ sh ++ hitch ++ nb ++ tag ++ scope ++ order ++ imm) = tag := by
  rw [extractLsb'_append_eq_of_le (by decide), extractLsb'_append_eq_of_le (by decide), extractLsb'_append_eq_of_le (by decide), extractLsb'_append_eq_of_add_le (by decide), extractLsb'_eq_self]

theorem c_scope (m : BitVec 6) (fn : BitVec 6) (sa : BitVec 5) (sb : BitVec 5) (sc : BitVec 5) (sh : BitVec 4) (hitch : BitVec 5) (nb : BitVec 5) (tag : BitVec 5) (scope : BitVec 4) (order : BitVec 2) (imm : BitVec 10) (y tsm : Bool) :
    extractLsb' 12 4 (m ++ ofBool y ++ ofBool tsm ++ fn ++ sa ++ sb ++ sc ++ sh ++ hitch ++ nb ++ tag ++ scope ++ order ++ imm) = scope := by
  rw [extractLsb'_append_eq_of_le (by decide), extractLsb'_append_eq_of_le (by decide), extractLsb'_append_eq_of_add_le (by decide), extractLsb'_eq_self]

theorem c_order (m : BitVec 6) (fn : BitVec 6) (sa : BitVec 5) (sb : BitVec 5) (sc : BitVec 5) (sh : BitVec 4) (hitch : BitVec 5) (nb : BitVec 5) (tag : BitVec 5) (scope : BitVec 4) (order : BitVec 2) (imm : BitVec 10) (y tsm : Bool) :
    extractLsb' 10 2 (m ++ ofBool y ++ ofBool tsm ++ fn ++ sa ++ sb ++ sc ++ sh ++ hitch ++ nb ++ tag ++ scope ++ order ++ imm) = order := by
  rw [extractLsb'_append_eq_of_le (by decide), extractLsb'_append_eq_of_add_le (by decide), extractLsb'_eq_self]

theorem c_imm (m : BitVec 6) (fn : BitVec 6) (sa : BitVec 5) (sb : BitVec 5) (sc : BitVec 5) (sh : BitVec 4) (hitch : BitVec 5) (nb : BitVec 5) (tag : BitVec 5) (scope : BitVec 4) (order : BitVec 2) (imm : BitVec 10) (y tsm : Bool) :
    extractLsb' 0 10 (m ++ ofBool y ++ ofBool tsm ++ fn ++ sa ++ sb ++ sc ++ sh ++ hitch ++ nb ++ tag ++ scope ++ order ++ imm) = imm := by
  rw [extractLsb'_append_eq_of_add_le (by decide), extractLsb'_eq_self]

theorem cFields_cWord (m : BitVec 6) (y : Bool) (o : CFields) : cFields (cWord m y o) = o := by
  obtain ⟨tsm, fn, sa, sb, sc, sh, hitch, nb, tag, scope, order, imm⟩ := o
  simp only [cFields, CFields.mk.injEq]
  exact ⟨c_tsm m fn sa sb sc sh hitch nb tag scope order imm y tsm, c_fn m fn sa sb sc sh hitch nb tag scope order imm y tsm, c_sa m fn sa sb sc sh hitch nb tag scope order imm y tsm, c_sb m fn sa sb sc sh hitch nb tag scope order imm y tsm, c_sc m fn sa sb sc sh hitch nb tag scope order imm y tsm, c_sh m fn sa sb sc sh hitch nb tag scope order imm y tsm, c_hitch m fn sa sb sc sh hitch nb tag scope order imm y tsm, c_nb m fn sa sb sc sh hitch nb tag scope order imm y tsm, c_tag m fn sa sb sc sh hitch nb tag scope order imm y tsm, c_scope m fn sa sb sc sh hitch nb tag scope order imm y tsm, c_order m fn sa sb sc sh hitch nb tag scope order imm y tsm, c_imm m fn sa sb sc sh hitch nb tag scope order imm y tsm⟩

theorem majorOf_cWord (m : BitVec 6) (y : Bool) (o : CFields) : majorOf (cWord m y o) = m := by
  obtain ⟨tsm, fn, sa, sb, sc, sh, hitch, nb, tag, scope, order, imm⟩ := o
  exact c_m m fn sa sb sc sh hitch nb tag scope order imm y tsm

theorem ypOf_cWord (m : BitVec 6) (y : Bool) (o : CFields) : ypOf (cWord m y o) = y := by
  obtain ⟨tsm, fn, sa, sb, sc, sh, hitch, nb, tag, scope, order, imm⟩ := o
  exact c_y m fn sa sb sc sh hitch nb tag scope order imm y tsm

/-! ## Codes -/

theorem sty_code (t : STy) : STy.ofCode t.code = some t := by cases t <;> rfl
theorem lty_code (t : LTy) : LTy.ofCode t.code = some t := by cases t <;> rfl
theorem elTy_code (t : ElTy) : ElTy.ofCode t.code = some t := by cases t <;> rfl
theorem scLay_code (t : ScLay) : ScLay.ofCode t.code = some t := by cases t <;> rfl
theorem gran_code (g : Gran) : Gran.ofCode g.code = some g := by cases g <;> rfl
theorem hint_code (h : Hint) : Hint.ofCode h.code = some h := by cases h <;> rfl
theorem drainMode_code (m : DrainMode) : DrainMode.ofCode m.code = some m := by cases m <;> rfl
theorem scope_code (s : Scope) : Scope.ofCode s.code = some s := by cases s <;> rfl
theorem order_code (o : Order) : Order.ofCode o.code = o := by cases o <;> rfl
theorem path_code (p : Path) : Path.ofCode p.num = some p := by cases p <;> rfl
theorem cond_code (c : Cond) : Cond.ofCode c.code = some c := by cases c <;> rfl

/-! ## Operand fields -/

theorem sFld_sdst (n : Fin 32) : (sFld n).sdst = some n := by revert n; decide
theorem litFld_lit (x : BitVec 8) : (litFld x).lit = some x := rfl
theorem kFld_kmask (n : Fin 8) : (kFld n).kmask = some n := by revert n; decide
theorem aFld_accum (n : Fin 64) : (aFld n).accum = some n := by revert n; decide

theorem ssrc_fld (x : SSrc) : x.fld.ssrc = some x := by
  cases x with
  | s n => revert n; decide
  | c n => rfl
  | lit x => rfl

theorem vdst_fld (x : VDst) : x.fld.vdst = some x := by
  cases x with
  | v n => revert n; decide
  | a n => revert n; decide
  | q n => revert n; decide

theorem vsrc_fld (x : VSrc) : x.fld.vsrc = some x := by
  cases x with
  | v n => revert n; decide
  | a n => revert n; decide
  | q n => revert n; decide
  | sc x =>
    have h : (x.fld.k == 0) = false := by cases x <;> rfl
    simp only [VSrc.fld, Fld.vsrc, h, ssrc_fld]
    rfl

theorem rdst_fld (x : RDst) : x.fld.rdst = some x := by
  cases x with
  | s n => revert n; decide
  | lanes d =>
    have h : (d.fld.k == 1) = false := by cases d <;> rfl
    simp only [RDst.fld, Fld.rdst, h, vdst_fld]
    rfl

theorem fld_zero : Fld.zero.zero? = some () := rfl

theorem mask_field (n : Fin 8) : (BitVec.ofNat 3 n.val).toFin = n := by revert n; decide

end Sys2Proof.Laws
end

