-- ==== Sys2Proof/Laws/Memory.lean ====
section
/-! SUPPORT. The laws of sparse lists and of memory: reading what was written, writes elsewhere, the canonical form. -/

namespace Sys2Proof.Machine

section
variable {α : Type} [DecidableEq α] {d v : α} {m : List (Nat × α)} {x y : Nat}

omit [DecidableEq α] in
theorem cellGet_below (h : ∀ c ∈ m, x < c.1) : cellGet d m x = d := by
  induction m with
  | nil => rfl
  | cons c r ih =>
    have hx := h c (by simp)
    simp only [cellGet]
    rw [if_neg (by omega)]
    exact ih fun e he => h e (by simp [he])

theorem cellPut_keys (h : y ∈ (cellPut d m x v).map (·.1)) : y = x ∨ y ∈ m.map (·.1) := by
  induction m with
  | nil =>
    simp only [cellPut] at h
    split at h <;> simp_all
  | cons c r ih =>
    simp only [cellPut] at h
    split at h
    · simp only [List.map_cons, List.mem_cons] at h ⊢
      rcases h with h | h
      · exact .inr (.inl h)
      · exact (ih h).imp id .inr
    · split at h <;> split at h <;> simp_all

/-- A write keeps the canonical form. -/
theorem cellPut_wf (h : cellsWf d m) : cellsWf d (cellPut d m x v) := by
  induction m with
  | nil =>
    simp only [cellPut]
    split <;> simp_all [cellsWf]
  | cons c r ih =>
    obtain ⟨hp, hd⟩ := h
    have hr : cellsWf d r := ⟨hp.of_cons, fun e he => hd e (by simp [he])⟩
    have hc : ∀ e ∈ r, c.1 < e.1 := fun e he => (List.pairwise_cons.1 hp).1 e he
    simp only [cellPut]
    split
    · next hlt =>
      obtain ⟨hp', hd'⟩ := ih hr
      refine ⟨List.pairwise_cons.2 ⟨fun e he => ?_, hp'⟩, ?_⟩
      · rcases cellPut_keys (List.mem_map_of_mem he) with h | h
        · omega
        · obtain ⟨e', he', heq⟩ := List.mem_map.1 h
          exact heq ▸ hc e' he'
      · intro e he
        rcases List.mem_cons.1 he with rfl | he
        · exact hd _ (by simp)
        · exact hd' e he
    · next hge =>
      by_cases hx : c.1 = x
      · simp only [hx, if_true]
        split
        · exact hr
        · next hv =>
          refine ⟨List.pairwise_cons.2 ⟨fun e he => hx ▸ hc e he, hr.1⟩, fun e he => ?_⟩
          rcases List.mem_cons.1 he with rfl | he
          · exact hv
          · exact hr.2 e he
      · simp only [if_neg hx]
        split
        · exact ⟨hp, hd⟩
        · next hv =>
          refine ⟨List.pairwise_cons.2 ⟨fun e he => ?_, hp⟩, fun e he => ?_⟩
          · rcases List.mem_cons.1 he with rfl | he
            · exact Nat.lt_of_le_of_ne (Nat.le_of_not_lt hge) (Ne.symm hx)
            · exact Nat.lt_trans (Nat.lt_of_le_of_ne (Nat.le_of_not_lt hge) (Ne.symm hx)) (hc e he)
          · rcases List.mem_cons.1 he with rfl | he
            · exact hv
            · exact hd e he

/-- The value written is read back. -/
theorem cellGet_put_same (h : cellsWf d m) : cellGet d (cellPut d m x v) x = v := by
  induction m with
  | nil =>
    simp only [cellPut]
    split <;> simp_all [cellGet]
  | cons c r ih =>
    obtain ⟨hp, hd⟩ := h
    have hr : cellsWf d r := ⟨hp.of_cons, fun e he => hd e (by simp [he])⟩
    have hc : ∀ e ∈ r, c.1 < e.1 := fun e he => (List.pairwise_cons.1 hp).1 e he
    simp only [cellPut]
    split
    · next hlt =>
      simp only [cellGet]
      rw [if_neg (by omega)]
      exact ih hr
    · next hge =>
      by_cases hx : c.1 = x
      · simp only [hx, if_true]
        split
        · next hv => rw [hv]; exact cellGet_below fun e he => hx ▸ hc e he
        · simp [cellGet]
      · simp only [if_neg hx]
        split
        · next hv =>
          rw [hv]
          refine cellGet_below fun e he => ?_
          rcases List.mem_cons.1 he with rfl | he
          · exact Nat.lt_of_le_of_ne (Nat.le_of_not_lt hge) (Ne.symm hx)
          · exact Nat.lt_trans (Nat.lt_of_le_of_ne (Nat.le_of_not_lt hge) (Ne.symm hx)) (hc e he)
        · simp [cellGet]

/-- Every other place keeps its value. -/
theorem cellGet_put_ne (hxy : y ≠ x) : cellGet d (cellPut d m x v) y = cellGet d m y := by
  induction m with
  | nil =>
    simp only [cellPut]
    split
    · rfl
    · simp only [cellGet]
      rw [if_neg (Ne.symm hxy)]
  | cons c r ih =>
    simp only [cellPut]
    split
    · simp only [cellGet, ih]
    · by_cases hx : c.1 = x
      · simp only [hx, if_true]
        split
        · simp only [cellGet, hx]
          rw [if_neg (Ne.symm hxy)]
        · simp only [cellGet, hx]
          rw [if_neg (Ne.symm hxy), if_neg (Ne.symm hxy)]
      · simp only [if_neg hx]
        split
        · rfl
        · simp only [cellGet]
          rw [if_neg (Ne.symm hxy)]

theorem cellsWf_nil : cellsWf d ([] : List (Nat × α)) := ⟨List.Pairwise.nil, by simp⟩

/-- Leaving entries out keeps the canonical form. -/
theorem cellsWf_filter (p : Nat × α → Bool) (h : cellsWf d m) : cellsWf d (m.filter p) :=
  ⟨h.1.filter p, fun e he => h.2 e (List.mem_filter.1 he).1⟩

end

/-! ## Bytes -/

theorem Memory.put_wf {m : Memory} {a : Nat} {b : Byte} (h : m.wf) : (m.put a b).wf := cellPut_wf h

theorem Memory.get_put_same {m : Memory} {a : Nat} {b : Byte} (h : m.wf) : (m.put a b).get a = b := cellGet_put_same h

theorem Memory.get_put_ne {m : Memory} {a c : Nat} {b : Byte} (h : c ≠ a) : (m.put a b).get c = m.get c := cellGet_put_ne h

theorem Memory.putBytes_wf {n : Nat} : ∀ {m : Memory} {a x : Nat}, m.wf → (m.putBytes a x n).wf := by
  induction n with
  | zero => exact id
  | succ n ih => exact fun h => ih (put_wf h)

/-- Bytes outside those written stay. -/
theorem Memory.get_putBytes_out {n c : Nat} :
    ∀ {m : Memory} {a x : Nat}, (c < a ∨ a + n ≤ c) → (m.putBytes a x n).get c = m.get c := by
  induction n with
  | zero => exact fun _ => rfl
  | succ n ih =>
    intro m a x h
    simp only [putBytes]
    rw [ih (by omega), get_put_ne (by omega)]

/-- What is written is read back. -/
theorem Memory.bytes_putBytes {n : Nat} :
    ∀ {m : Memory} {a x : Nat}, m.wf → (m.putBytes a x n).bytes a n = x % 256 ^ n := by
  induction n with
  | zero => intro m a x _; simp [bytes, Nat.mod_one]
  | succ n ih =>
    intro m a x h
    simp only [putBytes, bytes]
    rw [get_putBytes_out (.inl (Nat.lt_succ_self a)), get_put_same h, ih (put_wf h)]
    have e : (256 : Nat) ^ (n + 1) = 256 * 256 ^ n := by rw [Nat.pow_succ, Nat.mul_comm]
    rw [e, Nat.mod_mul]
    simp

theorem reset_canon : State.reset.Canon := ⟨cellsWf_nil, cellsWf_nil⟩

end Sys2Proof.Machine
end

