-- ==== Sys2Proof/Laws/State.lean ====
section
/-! SUPPORT. What the basic updates of the state leave alone, field by field, and what they give back: no proof about an
instruction has to unfold a record update. -/

namespace Sys2Proof.Machine

/-! ## Updates of one core -/

@[simp] theorem State.onCore_clusters (s : State) (c : CoreId) (f : Core → Core) : (s.onCore c f).clusters = s.clusters := rfl
@[simp] theorem State.onCore_mem (s : State) (c : CoreId) (f : Core → Core) : (s.onCore c f).mem = s.mem := rfl
@[simp] theorem State.onCore_marks (s : State) (c : CoreId) (f : Core → Core) : (s.onCore c f).marks = s.marks := rfl
@[simp] theorem State.onCore_l2 (s : State) (c : CoreId) (f : Core → Core) : (s.onCore c f).l2 = s.l2 := rfl
@[simp] theorem State.onCore_slices (s : State) (c : CoreId) (f : Core → Core) : (s.onCore c f).slices = s.slices := rfl
@[simp] theorem State.onCore_rel (s : State) (c : CoreId) (f : Core → Core) : (s.onCore c f).rel = s.rel := rfl
@[simp] theorem State.onCore_pf (s : State) (c : CoreId) (f : Core → Core) : (s.onCore c f).pf = s.pf := rfl
@[simp] theorem State.onCore_vfs (s : State) (c : CoreId) (f : Core → Core) : (s.onCore c f).vfs = s.vfs := rfl
@[simp] theorem State.onCore_fab (s : State) (c : CoreId) (f : Core → Core) : (s.onCore c f).fab = s.fab := rfl
@[simp] theorem State.onCore_vlhead (s : State) (c : CoreId) (f : Core → Core) : (s.onCore c f).vlhead = s.vlhead := rfl
@[simp] theorem State.onCore_vpend (s : State) (c : CoreId) (f : Core → Core) : (s.onCore c f).vpend = s.vpend := rfl
@[simp] theorem State.onCore_owed (s : State) (c : CoreId) (f : Core → Core) : (s.onCore c f).owed = s.owed := rfl
@[simp] theorem State.onCore_drains (s : State) (c : CoreId) (f : Core → Core) : (s.onCore c f).drains = s.drains := rfl
@[simp] theorem State.onCore_consts (s : State) (c : CoreId) (f : Core → Core) : (s.onCore c f).consts = s.consts := rfl
@[simp] theorem State.onCore_splices (s : State) (c : CoreId) (f : Core → Core) : (s.onCore c f).splices = s.splices := rfl
@[simp] theorem State.onCore_swaps (s : State) (c : CoreId) (f : Core → Core) : (s.onCore c f).swaps = s.swaps := rfl
@[simp] theorem State.onCore_posted (s : State) (c : CoreId) (f : Core → Core) : (s.onCore c f).posted = s.posted := rfl
@[simp] theorem State.onCore_mute (s : State) (c : CoreId) (f : Core → Core) : (s.onCore c f).mute = s.mute := rfl
@[simp] theorem State.onCore_barred (s : State) (c : CoreId) (f : Core → Core) : (s.onCore c f).barred = s.barred := rfl
@[simp] theorem State.onCore_hindered (s : State) (c : CoreId) (f : Core → Core) : (s.onCore c f).hindered = s.hindered := rfl
@[simp] theorem State.onCore_errs (s : State) (c : CoreId) (f : Core → Core) : (s.onCore c f).errs = s.errs := rfl
@[simp] theorem State.onCore_apart (s : State) (c : CoreId) (f : Core → Core) : (s.onCore c f).apart = s.apart := rfl
@[simp] theorem State.onCore_prq (s : State) (c : CoreId) (f : Core → Core) : (s.onCore c f).prq = s.prq := rfl
@[simp] theorem State.onCore_nextGid (s : State) (c : CoreId) (f : Core → Core) : (s.onCore c f).nextGid = s.nextGid := rfl
@[simp] theorem State.onCore_pwmode (s : State) (c : CoreId) (f : Core → Core) : (s.onCore c f).pwmode = s.pwmode := rfl
@[simp] theorem State.onCore_afc (s : State) (c : CoreId) (f : Core → Core) : (s.onCore c f).afc = s.afc := rfl
@[simp] theorem State.onCore_mg (s : State) (c : CoreId) (f : Core → Core) : (s.onCore c f).mg = s.mg := rfl
@[simp] theorem State.onCore_mgst (s : State) (c : CoreId) (f : Core → Core) : (s.onCore c f).mgst = s.mgst := rfl
@[simp] theorem State.onCore_gtbq (s : State) (c : CoreId) (f : Core → Core) : (s.onCore c f).gtbq = s.gtbq := rfl
@[simp] theorem State.onCore_cur (s : State) (c : CoreId) (f : Core → Core) : (s.onCore c f).cur = s.cur := rfl
@[simp] theorem State.onCore_curYp (s : State) (c : CoreId) (f : Core → Core) : (s.onCore c f).curYp = s.curYp := rfl
@[simp] theorem State.onCore_curLog (s : State) (c : CoreId) (f : Core → Core) : (s.onCore c f).curLog = s.curLog := rfl
@[simp] theorem State.onCore_curAgain (s : State) (c : CoreId) (f : Core → Core) : (s.onCore c f).curAgain = s.curAgain := rfl
@[simp] theorem State.onCore_agenda (s : State) (c : CoreId) (f : Core → Core) : (s.onCore c f).agenda = s.agenda := rfl
@[simp] theorem State.onCore_hostOut (s : State) (c : CoreId) (f : Core → Core) : (s.onCore c f).hostOut = s.hostOut := rfl
@[simp] theorem State.onCore_fresh (s : State) (c : CoreId) (f : Core → Core) : (s.onCore c f).fresh = s.fresh := rfl

/-! ## Updates by the current sequencer -/

@[simp] theorem State.mod_clusters (s : State) (f : Core → Core) : (s.mod f).clusters = s.clusters := rfl
@[simp] theorem State.mod_mem (s : State) (f : Core → Core) : (s.mod f).mem = s.mem := rfl
@[simp] theorem State.mod_marks (s : State) (f : Core → Core) : (s.mod f).marks = s.marks := rfl
@[simp] theorem State.mod_l2 (s : State) (f : Core → Core) : (s.mod f).l2 = s.l2 := rfl
@[simp] theorem State.mod_slices (s : State) (f : Core → Core) : (s.mod f).slices = s.slices := rfl
@[simp] theorem State.mod_rel (s : State) (f : Core → Core) : (s.mod f).rel = s.rel := rfl
@[simp] theorem State.mod_pf (s : State) (f : Core → Core) : (s.mod f).pf = s.pf := rfl
@[simp] theorem State.mod_vfs (s : State) (f : Core → Core) : (s.mod f).vfs = s.vfs := rfl
@[simp] theorem State.mod_fab (s : State) (f : Core → Core) : (s.mod f).fab = s.fab := rfl
@[simp] theorem State.mod_vlhead (s : State) (f : Core → Core) : (s.mod f).vlhead = s.vlhead := rfl
@[simp] theorem State.mod_vpend (s : State) (f : Core → Core) : (s.mod f).vpend = s.vpend := rfl
@[simp] theorem State.mod_owed (s : State) (f : Core → Core) : (s.mod f).owed = s.owed := rfl
@[simp] theorem State.mod_drains (s : State) (f : Core → Core) : (s.mod f).drains = s.drains := rfl
@[simp] theorem State.mod_consts (s : State) (f : Core → Core) : (s.mod f).consts = s.consts := rfl
@[simp] theorem State.mod_splices (s : State) (f : Core → Core) : (s.mod f).splices = s.splices := rfl
@[simp] theorem State.mod_swaps (s : State) (f : Core → Core) : (s.mod f).swaps = s.swaps := rfl
@[simp] theorem State.mod_posted (s : State) (f : Core → Core) : (s.mod f).posted = s.posted := rfl
@[simp] theorem State.mod_mute (s : State) (f : Core → Core) : (s.mod f).mute = s.mute := rfl
@[simp] theorem State.mod_barred (s : State) (f : Core → Core) : (s.mod f).barred = s.barred := rfl
@[simp] theorem State.mod_hindered (s : State) (f : Core → Core) : (s.mod f).hindered = s.hindered := rfl
@[simp] theorem State.mod_errs (s : State) (f : Core → Core) : (s.mod f).errs = s.errs := rfl
@[simp] theorem State.mod_apart (s : State) (f : Core → Core) : (s.mod f).apart = s.apart := rfl
@[simp] theorem State.mod_prq (s : State) (f : Core → Core) : (s.mod f).prq = s.prq := rfl
@[simp] theorem State.mod_nextGid (s : State) (f : Core → Core) : (s.mod f).nextGid = s.nextGid := rfl
@[simp] theorem State.mod_pwmode (s : State) (f : Core → Core) : (s.mod f).pwmode = s.pwmode := rfl
@[simp] theorem State.mod_afc (s : State) (f : Core → Core) : (s.mod f).afc = s.afc := rfl
@[simp] theorem State.mod_mg (s : State) (f : Core → Core) : (s.mod f).mg = s.mg := rfl
@[simp] theorem State.mod_mgst (s : State) (f : Core → Core) : (s.mod f).mgst = s.mgst := rfl
@[simp] theorem State.mod_gtbq (s : State) (f : Core → Core) : (s.mod f).gtbq = s.gtbq := rfl
@[simp] theorem State.mod_cur (s : State) (f : Core → Core) : (s.mod f).cur = s.cur := rfl
@[simp] theorem State.mod_curYp (s : State) (f : Core → Core) : (s.mod f).curYp = s.curYp := rfl
@[simp] theorem State.mod_curLog (s : State) (f : Core → Core) : (s.mod f).curLog = s.curLog := rfl
@[simp] theorem State.mod_curAgain (s : State) (f : Core → Core) : (s.mod f).curAgain = s.curAgain := rfl
@[simp] theorem State.mod_agenda (s : State) (f : Core → Core) : (s.mod f).agenda = s.agenda := rfl
@[simp] theorem State.mod_hostOut (s : State) (f : Core → Core) : (s.mod f).hostOut = s.hostOut := rfl
@[simp] theorem State.mod_fresh (s : State) (f : Core → Core) : (s.mod f).fresh = s.fresh := rfl

@[simp] theorem State.modMe_clusters (s : State) (f : SeqSt → SeqSt) : (s.modMe f).clusters = s.clusters := rfl
@[simp] theorem State.modMe_mem (s : State) (f : SeqSt → SeqSt) : (s.modMe f).mem = s.mem := rfl
@[simp] theorem State.modMe_marks (s : State) (f : SeqSt → SeqSt) : (s.modMe f).marks = s.marks := rfl
@[simp] theorem State.modMe_l2 (s : State) (f : SeqSt → SeqSt) : (s.modMe f).l2 = s.l2 := rfl
@[simp] theorem State.modMe_slices (s : State) (f : SeqSt → SeqSt) : (s.modMe f).slices = s.slices := rfl
@[simp] theorem State.modMe_rel (s : State) (f : SeqSt → SeqSt) : (s.modMe f).rel = s.rel := rfl
@[simp] theorem State.modMe_pf (s : State) (f : SeqSt → SeqSt) : (s.modMe f).pf = s.pf := rfl
@[simp] theorem State.modMe_vfs (s : State) (f : SeqSt → SeqSt) : (s.modMe f).vfs = s.vfs := rfl
@[simp] theorem State.modMe_fab (s : State) (f : SeqSt → SeqSt) : (s.modMe f).fab = s.fab := rfl
@[simp] theorem State.modMe_vlhead (s : State) (f : SeqSt → SeqSt) : (s.modMe f).vlhead = s.vlhead := rfl
@[simp] theorem State.modMe_vpend (s : State) (f : SeqSt → SeqSt) : (s.modMe f).vpend = s.vpend := rfl
@[simp] theorem State.modMe_owed (s : State) (f : SeqSt → SeqSt) : (s.modMe f).owed = s.owed := rfl
@[simp] theorem State.modMe_drains (s : State) (f : SeqSt → SeqSt) : (s.modMe f).drains = s.drains := rfl
@[simp] theorem State.modMe_consts (s : State) (f : SeqSt → SeqSt) : (s.modMe f).consts = s.consts := rfl
@[simp] theorem State.modMe_splices (s : State) (f : SeqSt → SeqSt) : (s.modMe f).splices = s.splices := rfl
@[simp] theorem State.modMe_swaps (s : State) (f : SeqSt → SeqSt) : (s.modMe f).swaps = s.swaps := rfl
@[simp] theorem State.modMe_posted (s : State) (f : SeqSt → SeqSt) : (s.modMe f).posted = s.posted := rfl
@[simp] theorem State.modMe_mute (s : State) (f : SeqSt → SeqSt) : (s.modMe f).mute = s.mute := rfl
@[simp] theorem State.modMe_barred (s : State) (f : SeqSt → SeqSt) : (s.modMe f).barred = s.barred := rfl
@[simp] theorem State.modMe_hindered (s : State) (f : SeqSt → SeqSt) : (s.modMe f).hindered = s.hindered := rfl
@[simp] theorem State.modMe_errs (s : State) (f : SeqSt → SeqSt) : (s.modMe f).errs = s.errs := rfl
@[simp] theorem State.modMe_apart (s : State) (f : SeqSt → SeqSt) : (s.modMe f).apart = s.apart := rfl
@[simp] theorem State.modMe_prq (s : State) (f : SeqSt → SeqSt) : (s.modMe f).prq = s.prq := rfl
@[simp] theorem State.modMe_nextGid (s : State) (f : SeqSt → SeqSt) : (s.modMe f).nextGid = s.nextGid := rfl
@[simp] theorem State.modMe_pwmode (s : State) (f : SeqSt → SeqSt) : (s.modMe f).pwmode = s.pwmode := rfl
@[simp] theorem State.modMe_afc (s : State) (f : SeqSt → SeqSt) : (s.modMe f).afc = s.afc := rfl
@[simp] theorem State.modMe_mg (s : State) (f : SeqSt → SeqSt) : (s.modMe f).mg = s.mg := rfl
@[simp] theorem State.modMe_mgst (s : State) (f : SeqSt → SeqSt) : (s.modMe f).mgst = s.mgst := rfl
@[simp] theorem State.modMe_gtbq (s : State) (f : SeqSt → SeqSt) : (s.modMe f).gtbq = s.gtbq := rfl
@[simp] theorem State.modMe_cur (s : State) (f : SeqSt → SeqSt) : (s.modMe f).cur = s.cur := rfl
@[simp] theorem State.modMe_curYp (s : State) (f : SeqSt → SeqSt) : (s.modMe f).curYp = s.curYp := rfl
@[simp] theorem State.modMe_curLog (s : State) (f : SeqSt → SeqSt) : (s.modMe f).curLog = s.curLog := rfl
@[simp] theorem State.modMe_curAgain (s : State) (f : SeqSt → SeqSt) : (s.modMe f).curAgain = s.curAgain := rfl
@[simp] theorem State.modMe_agenda (s : State) (f : SeqSt → SeqSt) : (s.modMe f).agenda = s.agenda := rfl
@[simp] theorem State.modMe_hostOut (s : State) (f : SeqSt → SeqSt) : (s.modMe f).hostOut = s.hostOut := rfl
@[simp] theorem State.modMe_fresh (s : State) (f : SeqSt → SeqSt) : (s.modMe f).fresh = s.fresh := rfl

@[simp] theorem State.writeS_clusters (s : State) (n : Fin 32) (x : Word) (lat : Nat) : (s.writeS n x lat).clusters = s.clusters := rfl
@[simp] theorem State.writeS_mem (s : State) (n : Fin 32) (x : Word) (lat : Nat) : (s.writeS n x lat).mem = s.mem := rfl
@[simp] theorem State.writeS_marks (s : State) (n : Fin 32) (x : Word) (lat : Nat) : (s.writeS n x lat).marks = s.marks := rfl
@[simp] theorem State.writeS_l2 (s : State) (n : Fin 32) (x : Word) (lat : Nat) : (s.writeS n x lat).l2 = s.l2 := rfl
@[simp] theorem State.writeS_slices (s : State) (n : Fin 32) (x : Word) (lat : Nat) : (s.writeS n x lat).slices = s.slices := rfl
@[simp] theorem State.writeS_rel (s : State) (n : Fin 32) (x : Word) (lat : Nat) : (s.writeS n x lat).rel = s.rel := rfl
@[simp] theorem State.writeS_pf (s : State) (n : Fin 32) (x : Word) (lat : Nat) : (s.writeS n x lat).pf = s.pf := rfl
@[simp] theorem State.writeS_vfs (s : State) (n : Fin 32) (x : Word) (lat : Nat) : (s.writeS n x lat).vfs = s.vfs := rfl
@[simp] theorem State.writeS_fab (s : State) (n : Fin 32) (x : Word) (lat : Nat) : (s.writeS n x lat).fab = s.fab := rfl
@[simp] theorem State.writeS_vlhead (s : State) (n : Fin 32) (x : Word) (lat : Nat) : (s.writeS n x lat).vlhead = s.vlhead := rfl
@[simp] theorem State.writeS_vpend (s : State) (n : Fin 32) (x : Word) (lat : Nat) : (s.writeS n x lat).vpend = s.vpend := rfl
@[simp] theorem State.writeS_owed (s : State) (n : Fin 32) (x : Word) (lat : Nat) : (s.writeS n x lat).owed = s.owed := rfl
@[simp] theorem State.writeS_drains (s : State) (n : Fin 32) (x : Word) (lat : Nat) : (s.writeS n x lat).drains = s.drains := rfl
@[simp] theorem State.writeS_consts (s : State) (n : Fin 32) (x : Word) (lat : Nat) : (s.writeS n x lat).consts = s.consts := rfl
@[simp] theorem State.writeS_splices (s : State) (n : Fin 32) (x : Word) (lat : Nat) : (s.writeS n x lat).splices = s.splices := rfl
@[simp] theorem State.writeS_swaps (s : State) (n : Fin 32) (x : Word) (lat : Nat) : (s.writeS n x lat).swaps = s.swaps := rfl
@[simp] theorem State.writeS_posted (s : State) (n : Fin 32) (x : Word) (lat : Nat) : (s.writeS n x lat).posted = s.posted := rfl
@[simp] theorem State.writeS_mute (s : State) (n : Fin 32) (x : Word) (lat : Nat) : (s.writeS n x lat).mute = s.mute := rfl
@[simp] theorem State.writeS_barred (s : State) (n : Fin 32) (x : Word) (lat : Nat) : (s.writeS n x lat).barred = s.barred := rfl
@[simp] theorem State.writeS_hindered (s : State) (n : Fin 32) (x : Word) (lat : Nat) : (s.writeS n x lat).hindered = s.hindered := rfl
@[simp] theorem State.writeS_errs (s : State) (n : Fin 32) (x : Word) (lat : Nat) : (s.writeS n x lat).errs = s.errs := rfl
@[simp] theorem State.writeS_apart (s : State) (n : Fin 32) (x : Word) (lat : Nat) : (s.writeS n x lat).apart = s.apart := rfl
@[simp] theorem State.writeS_prq (s : State) (n : Fin 32) (x : Word) (lat : Nat) : (s.writeS n x lat).prq = s.prq := rfl
@[simp] theorem State.writeS_nextGid (s : State) (n : Fin 32) (x : Word) (lat : Nat) : (s.writeS n x lat).nextGid = s.nextGid := rfl
@[simp] theorem State.writeS_pwmode (s : State) (n : Fin 32) (x : Word) (lat : Nat) : (s.writeS n x lat).pwmode = s.pwmode := rfl
@[simp] theorem State.writeS_afc (s : State) (n : Fin 32) (x : Word) (lat : Nat) : (s.writeS n x lat).afc = s.afc := rfl
@[simp] theorem State.writeS_mg (s : State) (n : Fin 32) (x : Word) (lat : Nat) : (s.writeS n x lat).mg = s.mg := rfl
@[simp] theorem State.writeS_mgst (s : State) (n : Fin 32) (x : Word) (lat : Nat) : (s.writeS n x lat).mgst = s.mgst := rfl
@[simp] theorem State.writeS_gtbq (s : State) (n : Fin 32) (x : Word) (lat : Nat) : (s.writeS n x lat).gtbq = s.gtbq := rfl
@[simp] theorem State.writeS_cur (s : State) (n : Fin 32) (x : Word) (lat : Nat) : (s.writeS n x lat).cur = s.cur := rfl
@[simp] theorem State.writeS_curYp (s : State) (n : Fin 32) (x : Word) (lat : Nat) : (s.writeS n x lat).curYp = s.curYp := rfl
@[simp] theorem State.writeS_curLog (s : State) (n : Fin 32) (x : Word) (lat : Nat) : (s.writeS n x lat).curLog = s.curLog := rfl
@[simp] theorem State.writeS_curAgain (s : State) (n : Fin 32) (x : Word) (lat : Nat) : (s.writeS n x lat).curAgain = s.curAgain := rfl
@[simp] theorem State.writeS_agenda (s : State) (n : Fin 32) (x : Word) (lat : Nat) : (s.writeS n x lat).agenda = s.agenda := rfl
@[simp] theorem State.writeS_hostOut (s : State) (n : Fin 32) (x : Word) (lat : Nat) : (s.writeS n x lat).hostOut = s.hostOut := rfl
@[simp] theorem State.writeS_fresh (s : State) (n : Fin 32) (x : Word) (lat : Nat) : (s.writeS n x lat).fresh = s.fresh := rfl

@[simp] theorem State.issue_clusters (s : State) : (s.issue).clusters = s.clusters := rfl
@[simp] theorem State.issue_mem (s : State) : (s.issue).mem = s.mem := rfl
@[simp] theorem State.issue_marks (s : State) : (s.issue).marks = s.marks := rfl
@[simp] theorem State.issue_l2 (s : State) : (s.issue).l2 = s.l2 := rfl
@[simp] theorem State.issue_slices (s : State) : (s.issue).slices = s.slices := rfl
@[simp] theorem State.issue_rel (s : State) : (s.issue).rel = s.rel := rfl
@[simp] theorem State.issue_pf (s : State) : (s.issue).pf = s.pf := rfl
@[simp] theorem State.issue_vfs (s : State) : (s.issue).vfs = s.vfs := rfl
@[simp] theorem State.issue_fab (s : State) : (s.issue).fab = s.fab := rfl
@[simp] theorem State.issue_vlhead (s : State) : (s.issue).vlhead = s.vlhead := rfl
@[simp] theorem State.issue_vpend (s : State) : (s.issue).vpend = s.vpend := rfl
@[simp] theorem State.issue_owed (s : State) : (s.issue).owed = s.owed := rfl
@[simp] theorem State.issue_drains (s : State) : (s.issue).drains = s.drains := rfl
@[simp] theorem State.issue_consts (s : State) : (s.issue).consts = s.consts := rfl
@[simp] theorem State.issue_splices (s : State) : (s.issue).splices = s.splices := rfl
@[simp] theorem State.issue_swaps (s : State) : (s.issue).swaps = s.swaps := rfl
@[simp] theorem State.issue_posted (s : State) : (s.issue).posted = s.posted := rfl
@[simp] theorem State.issue_mute (s : State) : (s.issue).mute = s.mute := rfl
@[simp] theorem State.issue_barred (s : State) : (s.issue).barred = s.barred := rfl
@[simp] theorem State.issue_hindered (s : State) : (s.issue).hindered = s.hindered := rfl
@[simp] theorem State.issue_errs (s : State) : (s.issue).errs = s.errs := rfl
@[simp] theorem State.issue_apart (s : State) : (s.issue).apart = s.apart := rfl
@[simp] theorem State.issue_prq (s : State) : (s.issue).prq = s.prq := rfl
@[simp] theorem State.issue_nextGid (s : State) : (s.issue).nextGid = s.nextGid := rfl
@[simp] theorem State.issue_pwmode (s : State) : (s.issue).pwmode = s.pwmode := rfl
@[simp] theorem State.issue_afc (s : State) : (s.issue).afc = s.afc := rfl
@[simp] theorem State.issue_mg (s : State) : (s.issue).mg = s.mg := rfl
@[simp] theorem State.issue_mgst (s : State) : (s.issue).mgst = s.mgst := rfl
@[simp] theorem State.issue_gtbq (s : State) : (s.issue).gtbq = s.gtbq := rfl
@[simp] theorem State.issue_cur (s : State) : (s.issue).cur = s.cur := rfl
@[simp] theorem State.issue_curYp (s : State) : (s.issue).curYp = s.curYp := rfl
@[simp] theorem State.issue_curLog (s : State) : (s.issue).curLog = s.curLog := rfl
@[simp] theorem State.issue_curAgain (s : State) : (s.issue).curAgain = s.curAgain := rfl
@[simp] theorem State.issue_agenda (s : State) : (s.issue).agenda = s.agenda := rfl
@[simp] theorem State.issue_hostOut (s : State) : (s.issue).hostOut = s.hostOut := rfl
@[simp] theorem State.issue_fresh (s : State) : (s.issue).fresh = s.fresh := rfl

@[simp] theorem State.retire_clusters (s : State) (n : Word) : (s.retire n).clusters = s.clusters := rfl
@[simp] theorem State.retire_mem (s : State) (n : Word) : (s.retire n).mem = s.mem := rfl
@[simp] theorem State.retire_marks (s : State) (n : Word) : (s.retire n).marks = s.marks := rfl
@[simp] theorem State.retire_l2 (s : State) (n : Word) : (s.retire n).l2 = s.l2 := rfl
@[simp] theorem State.retire_slices (s : State) (n : Word) : (s.retire n).slices = s.slices := rfl
@[simp] theorem State.retire_rel (s : State) (n : Word) : (s.retire n).rel = s.rel := rfl
@[simp] theorem State.retire_pf (s : State) (n : Word) : (s.retire n).pf = s.pf := rfl
@[simp] theorem State.retire_vfs (s : State) (n : Word) : (s.retire n).vfs = s.vfs := rfl
@[simp] theorem State.retire_fab (s : State) (n : Word) : (s.retire n).fab = s.fab := rfl
@[simp] theorem State.retire_vlhead (s : State) (n : Word) : (s.retire n).vlhead = s.vlhead := rfl
@[simp] theorem State.retire_vpend (s : State) (n : Word) : (s.retire n).vpend = s.vpend := rfl
@[simp] theorem State.retire_owed (s : State) (n : Word) : (s.retire n).owed = s.owed := rfl
@[simp] theorem State.retire_drains (s : State) (n : Word) : (s.retire n).drains = s.drains := rfl
@[simp] theorem State.retire_consts (s : State) (n : Word) : (s.retire n).consts = s.consts := rfl
@[simp] theorem State.retire_splices (s : State) (n : Word) : (s.retire n).splices = s.splices := rfl
@[simp] theorem State.retire_swaps (s : State) (n : Word) : (s.retire n).swaps = s.swaps := rfl
@[simp] theorem State.retire_posted (s : State) (n : Word) : (s.retire n).posted = s.posted := rfl
@[simp] theorem State.retire_mute (s : State) (n : Word) : (s.retire n).mute = s.mute := rfl
@[simp] theorem State.retire_barred (s : State) (n : Word) : (s.retire n).barred = s.barred := rfl
@[simp] theorem State.retire_hindered (s : State) (n : Word) : (s.retire n).hindered = s.hindered := rfl
@[simp] theorem State.retire_errs (s : State) (n : Word) : (s.retire n).errs = s.errs := rfl
@[simp] theorem State.retire_apart (s : State) (n : Word) : (s.retire n).apart = s.apart := rfl
@[simp] theorem State.retire_prq (s : State) (n : Word) : (s.retire n).prq = s.prq := rfl
@[simp] theorem State.retire_nextGid (s : State) (n : Word) : (s.retire n).nextGid = s.nextGid := rfl
@[simp] theorem State.retire_pwmode (s : State) (n : Word) : (s.retire n).pwmode = s.pwmode := rfl
@[simp] theorem State.retire_afc (s : State) (n : Word) : (s.retire n).afc = s.afc := rfl
@[simp] theorem State.retire_mg (s : State) (n : Word) : (s.retire n).mg = s.mg := rfl
@[simp] theorem State.retire_mgst (s : State) (n : Word) : (s.retire n).mgst = s.mgst := rfl
@[simp] theorem State.retire_gtbq (s : State) (n : Word) : (s.retire n).gtbq = s.gtbq := rfl
@[simp] theorem State.retire_cur (s : State) (n : Word) : (s.retire n).cur = s.cur := rfl
@[simp] theorem State.retire_curYp (s : State) (n : Word) : (s.retire n).curYp = s.curYp := rfl
@[simp] theorem State.retire_curLog (s : State) (n : Word) : (s.retire n).curLog = s.curLog := rfl
@[simp] theorem State.retire_curAgain (s : State) (n : Word) : (s.retire n).curAgain = s.curAgain := rfl
@[simp] theorem State.retire_agenda (s : State) (n : Word) : (s.retire n).agenda = s.agenda := rfl
@[simp] theorem State.retire_hostOut (s : State) (n : Word) : (s.retire n).hostOut = s.hostOut := rfl
@[simp] theorem State.retire_fresh (s : State) (n : Word) : (s.retire n).fresh = s.fresh := rfl

@[simp] theorem State.jump_clusters (s : State) (a : Word) : (s.jump a).clusters = s.clusters := rfl
@[simp] theorem State.jump_mem (s : State) (a : Word) : (s.jump a).mem = s.mem := rfl
@[simp] theorem State.jump_marks (s : State) (a : Word) : (s.jump a).marks = s.marks := rfl
@[simp] theorem State.jump_l2 (s : State) (a : Word) : (s.jump a).l2 = s.l2 := rfl
@[simp] theorem State.jump_slices (s : State) (a : Word) : (s.jump a).slices = s.slices := rfl
@[simp] theorem State.jump_rel (s : State) (a : Word) : (s.jump a).rel = s.rel := rfl
@[simp] theorem State.jump_pf (s : State) (a : Word) : (s.jump a).pf = s.pf := rfl
@[simp] theorem State.jump_vfs (s : State) (a : Word) : (s.jump a).vfs = s.vfs := rfl
@[simp] theorem State.jump_fab (s : State) (a : Word) : (s.jump a).fab = s.fab := rfl
@[simp] theorem State.jump_vlhead (s : State) (a : Word) : (s.jump a).vlhead = s.vlhead := rfl
@[simp] theorem State.jump_vpend (s : State) (a : Word) : (s.jump a).vpend = s.vpend := rfl
@[simp] theorem State.jump_owed (s : State) (a : Word) : (s.jump a).owed = s.owed := rfl
@[simp] theorem State.jump_drains (s : State) (a : Word) : (s.jump a).drains = s.drains := rfl
@[simp] theorem State.jump_consts (s : State) (a : Word) : (s.jump a).consts = s.consts := rfl
@[simp] theorem State.jump_splices (s : State) (a : Word) : (s.jump a).splices = s.splices := rfl
@[simp] theorem State.jump_swaps (s : State) (a : Word) : (s.jump a).swaps = s.swaps := rfl
@[simp] theorem State.jump_posted (s : State) (a : Word) : (s.jump a).posted = s.posted := rfl
@[simp] theorem State.jump_mute (s : State) (a : Word) : (s.jump a).mute = s.mute := rfl
@[simp] theorem State.jump_barred (s : State) (a : Word) : (s.jump a).barred = s.barred := rfl
@[simp] theorem State.jump_hindered (s : State) (a : Word) : (s.jump a).hindered = s.hindered := rfl
@[simp] theorem State.jump_errs (s : State) (a : Word) : (s.jump a).errs = s.errs := rfl
@[simp] theorem State.jump_apart (s : State) (a : Word) : (s.jump a).apart = s.apart := rfl
@[simp] theorem State.jump_prq (s : State) (a : Word) : (s.jump a).prq = s.prq := rfl
@[simp] theorem State.jump_nextGid (s : State) (a : Word) : (s.jump a).nextGid = s.nextGid := rfl
@[simp] theorem State.jump_pwmode (s : State) (a : Word) : (s.jump a).pwmode = s.pwmode := rfl
@[simp] theorem State.jump_afc (s : State) (a : Word) : (s.jump a).afc = s.afc := rfl
@[simp] theorem State.jump_mg (s : State) (a : Word) : (s.jump a).mg = s.mg := rfl
@[simp] theorem State.jump_mgst (s : State) (a : Word) : (s.jump a).mgst = s.mgst := rfl
@[simp] theorem State.jump_gtbq (s : State) (a : Word) : (s.jump a).gtbq = s.gtbq := rfl
@[simp] theorem State.jump_cur (s : State) (a : Word) : (s.jump a).cur = s.cur := rfl
@[simp] theorem State.jump_curYp (s : State) (a : Word) : (s.jump a).curYp = s.curYp := rfl
@[simp] theorem State.jump_curLog (s : State) (a : Word) : (s.jump a).curLog = s.curLog := rfl
@[simp] theorem State.jump_curAgain (s : State) (a : Word) : (s.jump a).curAgain = s.curAgain := rfl
@[simp] theorem State.jump_agenda (s : State) (a : Word) : (s.jump a).agenda = s.agenda := rfl
@[simp] theorem State.jump_hostOut (s : State) (a : Word) : (s.jump a).hostOut = s.hostOut := rfl
@[simp] theorem State.jump_fresh (s : State) (a : Word) : (s.jump a).fresh = s.fresh := rfl

@[simp] theorem State.take_clusters (s : State) (a : Word) : (s.take a).clusters = s.clusters := rfl
@[simp] theorem State.take_mem (s : State) (a : Word) : (s.take a).mem = s.mem := rfl
@[simp] theorem State.take_marks (s : State) (a : Word) : (s.take a).marks = s.marks := rfl
@[simp] theorem State.take_l2 (s : State) (a : Word) : (s.take a).l2 = s.l2 := rfl
@[simp] theorem State.take_slices (s : State) (a : Word) : (s.take a).slices = s.slices := rfl
@[simp] theorem State.take_rel (s : State) (a : Word) : (s.take a).rel = s.rel := rfl
@[simp] theorem State.take_pf (s : State) (a : Word) : (s.take a).pf = s.pf := rfl
@[simp] theorem State.take_vfs (s : State) (a : Word) : (s.take a).vfs = s.vfs := rfl
@[simp] theorem State.take_fab (s : State) (a : Word) : (s.take a).fab = s.fab := rfl
@[simp] theorem State.take_vlhead (s : State) (a : Word) : (s.take a).vlhead = s.vlhead := rfl
@[simp] theorem State.take_vpend (s : State) (a : Word) : (s.take a).vpend = s.vpend := rfl
@[simp] theorem State.take_owed (s : State) (a : Word) : (s.take a).owed = s.owed := rfl
@[simp] theorem State.take_drains (s : State) (a : Word) : (s.take a).drains = s.drains := rfl
@[simp] theorem State.take_consts (s : State) (a : Word) : (s.take a).consts = s.consts := rfl
@[simp] theorem State.take_splices (s : State) (a : Word) : (s.take a).splices = s.splices := rfl
@[simp] theorem State.take_swaps (s : State) (a : Word) : (s.take a).swaps = s.swaps := rfl
@[simp] theorem State.take_posted (s : State) (a : Word) : (s.take a).posted = s.posted := rfl
@[simp] theorem State.take_mute (s : State) (a : Word) : (s.take a).mute = s.mute := rfl
@[simp] theorem State.take_barred (s : State) (a : Word) : (s.take a).barred = s.barred := rfl
@[simp] theorem State.take_hindered (s : State) (a : Word) : (s.take a).hindered = s.hindered := rfl
@[simp] theorem State.take_errs (s : State) (a : Word) : (s.take a).errs = s.errs := rfl
@[simp] theorem State.take_apart (s : State) (a : Word) : (s.take a).apart = s.apart := rfl
@[simp] theorem State.take_prq (s : State) (a : Word) : (s.take a).prq = s.prq := rfl
@[simp] theorem State.take_nextGid (s : State) (a : Word) : (s.take a).nextGid = s.nextGid := rfl
@[simp] theorem State.take_pwmode (s : State) (a : Word) : (s.take a).pwmode = s.pwmode := rfl
@[simp] theorem State.take_afc (s : State) (a : Word) : (s.take a).afc = s.afc := rfl
@[simp] theorem State.take_mg (s : State) (a : Word) : (s.take a).mg = s.mg := rfl
@[simp] theorem State.take_mgst (s : State) (a : Word) : (s.take a).mgst = s.mgst := rfl
@[simp] theorem State.take_gtbq (s : State) (a : Word) : (s.take a).gtbq = s.gtbq := rfl
@[simp] theorem State.take_cur (s : State) (a : Word) : (s.take a).cur = s.cur := rfl
@[simp] theorem State.take_curYp (s : State) (a : Word) : (s.take a).curYp = s.curYp := rfl
@[simp] theorem State.take_curLog (s : State) (a : Word) : (s.take a).curLog = s.curLog := rfl
@[simp] theorem State.take_curAgain (s : State) (a : Word) : (s.take a).curAgain = s.curAgain := rfl
@[simp] theorem State.take_agenda (s : State) (a : Word) : (s.take a).agenda = s.agenda := rfl
@[simp] theorem State.take_hostOut (s : State) (a : Word) : (s.take a).hostOut = s.hostOut := rfl
@[simp] theorem State.take_fresh (s : State) (a : Word) : (s.take a).fresh = s.fresh := rfl

@[simp] theorem State.block_clusters (s : State) (w : Wait) : (s.block w).clusters = s.clusters := rfl
@[simp] theorem State.block_mem (s : State) (w : Wait) : (s.block w).mem = s.mem := rfl
@[simp] theorem State.block_marks (s : State) (w : Wait) : (s.block w).marks = s.marks := rfl
@[simp] theorem State.block_l2 (s : State) (w : Wait) : (s.block w).l2 = s.l2 := rfl
@[simp] theorem State.block_slices (s : State) (w : Wait) : (s.block w).slices = s.slices := rfl
@[simp] theorem State.block_rel (s : State) (w : Wait) : (s.block w).rel = s.rel := rfl
@[simp] theorem State.block_pf (s : State) (w : Wait) : (s.block w).pf = s.pf := rfl
@[simp] theorem State.block_vfs (s : State) (w : Wait) : (s.block w).vfs = s.vfs := rfl
@[simp] theorem State.block_fab (s : State) (w : Wait) : (s.block w).fab = s.fab := rfl
@[simp] theorem State.block_vlhead (s : State) (w : Wait) : (s.block w).vlhead = s.vlhead := rfl
@[simp] theorem State.block_vpend (s : State) (w : Wait) : (s.block w).vpend = s.vpend := rfl
@[simp] theorem State.block_owed (s : State) (w : Wait) : (s.block w).owed = s.owed := rfl
@[simp] theorem State.block_drains (s : State) (w : Wait) : (s.block w).drains = s.drains := rfl
@[simp] theorem State.block_consts (s : State) (w : Wait) : (s.block w).consts = s.consts := rfl
@[simp] theorem State.block_splices (s : State) (w : Wait) : (s.block w).splices = s.splices := rfl
@[simp] theorem State.block_swaps (s : State) (w : Wait) : (s.block w).swaps = s.swaps := rfl
@[simp] theorem State.block_posted (s : State) (w : Wait) : (s.block w).posted = s.posted := rfl
@[simp] theorem State.block_mute (s : State) (w : Wait) : (s.block w).mute = s.mute := rfl
@[simp] theorem State.block_barred (s : State) (w : Wait) : (s.block w).barred = s.barred := rfl
@[simp] theorem State.block_hindered (s : State) (w : Wait) : (s.block w).hindered = s.hindered := rfl
@[simp] theorem State.block_errs (s : State) (w : Wait) : (s.block w).errs = s.errs := rfl
@[simp] theorem State.block_apart (s : State) (w : Wait) : (s.block w).apart = s.apart := rfl
@[simp] theorem State.block_prq (s : State) (w : Wait) : (s.block w).prq = s.prq := rfl
@[simp] theorem State.block_nextGid (s : State) (w : Wait) : (s.block w).nextGid = s.nextGid := rfl
@[simp] theorem State.block_pwmode (s : State) (w : Wait) : (s.block w).pwmode = s.pwmode := rfl
@[simp] theorem State.block_afc (s : State) (w : Wait) : (s.block w).afc = s.afc := rfl
@[simp] theorem State.block_mg (s : State) (w : Wait) : (s.block w).mg = s.mg := rfl
@[simp] theorem State.block_mgst (s : State) (w : Wait) : (s.block w).mgst = s.mgst := rfl
@[simp] theorem State.block_gtbq (s : State) (w : Wait) : (s.block w).gtbq = s.gtbq := rfl
@[simp] theorem State.block_cur (s : State) (w : Wait) : (s.block w).cur = s.cur := rfl
@[simp] theorem State.block_curYp (s : State) (w : Wait) : (s.block w).curYp = s.curYp := rfl
@[simp] theorem State.block_curLog (s : State) (w : Wait) : (s.block w).curLog = s.curLog := rfl
@[simp] theorem State.block_curAgain (s : State) (w : Wait) : (s.block w).curAgain = s.curAgain := rfl
@[simp] theorem State.block_agenda (s : State) (w : Wait) : (s.block w).agenda = s.agenda := rfl
@[simp] theorem State.block_hostOut (s : State) (w : Wait) : (s.block w).hostOut = s.hostOut := rfl
@[simp] theorem State.block_fresh (s : State) (w : Wait) : (s.block w).fresh = s.fresh := rfl

/-! ## Updates of a core -/

@[simp] theorem Core.onSeq_consts (k : Core) (q : Seq) (f : SeqSt → SeqSt) : (k.onSeq q f).consts = k.consts := rfl
@[simp] theorem Core.onSeq_queues (k : Core) (q : Seq) (f : SeqSt → SeqSt) : (k.onSeq q f).queues = k.queues := rfl
@[simp] theorem Core.onSeq_toks (k : Core) (q : Seq) (f : SeqSt → SeqSt) : (k.onSeq q f).toks = k.toks := rfl
@[simp] theorem Core.onSeq_bqs (k : Core) (q : Seq) (f : SeqSt → SeqSt) : (k.onSeq q f).bqs = k.bqs := rfl
@[simp] theorem Core.onSeq_rq (k : Core) (q : Seq) (f : SeqSt → SeqSt) : (k.onSeq q f).rq = k.rq := rfl
@[simp] theorem Core.onSeq_ex (k : Core) (q : Seq) (f : SeqSt → SeqSt) : (k.onSeq q f).ex = k.ex := rfl
@[simp] theorem Core.onSeq_codeL1 (k : Core) (q : Seq) (f : SeqSt → SeqSt) : (k.onSeq q f).codeL1 = k.codeL1 := rfl
@[simp] theorem Core.onSeq_strand (k : Core) (q : Seq) (f : SeqSt → SeqSt) : (k.onSeq q f).strand = k.strand := rfl
@[simp] theorem Core.onSeq_req (k : Core) (q : Seq) (f : SeqSt → SeqSt) : (k.onSeq q f).req = k.req := rfl
@[simp] theorem Core.onSeq_engFault (k : Core) (q : Seq) (f : SeqSt → SeqSt) : (k.onSeq q f).engFault = k.engFault := rfl
@[simp] theorem Core.onSeq_divert (k : Core) (q : Seq) (f : SeqSt → SeqSt) : (k.onSeq q f).divert = k.divert := rfl
@[simp] theorem Core.onSeq_gvs (k : Core) (q : Seq) (f : SeqSt → SeqSt) : (k.onSeq q f).gvs = k.gvs := rfl
@[simp] theorem Core.onSeq_wrote (k : Core) (q : Seq) (f : SeqSt → SeqSt) : (k.onSeq q f).wrote = k.wrote := rfl
@[simp] theorem Core.onSeq_cflt (k : Core) (q : Seq) (f : SeqSt → SeqSt) : (k.onSeq q f).cflt = k.cflt := rfl
@[simp] theorem Core.onSeq_shapes (k : Core) (q : Seq) (f : SeqSt → SeqSt) : (k.onSeq q f).shapes = k.shapes := rfl
@[simp] theorem Core.onSeq_bounds (k : Core) (q : Seq) (f : SeqSt → SeqSt) : (k.onSeq q f).bounds = k.bounds := rfl
@[simp] theorem Core.onSeq_pad (k : Core) (q : Seq) (f : SeqSt → SeqSt) : (k.onSeq q f).pad = k.pad := rfl
@[simp] theorem Core.onSeq_wins (k : Core) (q : Seq) (f : SeqSt → SeqSt) : (k.onSeq q f).wins = k.wins := rfl
@[simp] theorem Core.onSeq_stash (k : Core) (q : Seq) (f : SeqSt → SeqSt) : (k.onSeq q f).stash = k.stash := rfl
@[simp] theorem Core.onSeq_loads (k : Core) (q : Seq) (f : SeqSt → SeqSt) : (k.onSeq q f).loads = k.loads := rfl
@[simp] theorem Core.onSeq_stores (k : Core) (q : Seq) (f : SeqSt → SeqSt) : (k.onSeq q f).stores = k.stores := rfl
@[simp] theorem Core.onSeq_undo (k : Core) (q : Seq) (f : SeqSt → SeqSt) : (k.onSeq q f).undo = k.undo := rfl
@[simp] theorem Core.onSeq_sends (k : Core) (q : Seq) (f : SeqSt → SeqSt) : (k.onSeq q f).sends = k.sends := rfl
@[simp] theorem Core.onSeq_pubs (k : Core) (q : Seq) (f : SeqSt → SeqSt) : (k.onSeq q f).pubs = k.pubs := rfl
@[simp] theorem Core.onSeq_heldPubs (k : Core) (q : Seq) (f : SeqSt → SeqSt) : (k.onSeq q f).heldPubs = k.heldPubs := rfl
@[simp] theorem Core.onSeq_tlb (k : Core) (q : Seq) (f : SeqSt → SeqSt) : (k.onSeq q f).tlb = k.tlb := rfl
@[simp] theorem Core.onSeq_latt (k : Core) (q : Seq) (f : SeqSt → SeqSt) : (k.onSeq q f).latt = k.latt := rfl
@[simp] theorem Core.onSeq_ends (k : Core) (q : Seq) (f : SeqSt → SeqSt) : (k.onSeq q f).ends = k.ends := rfl
@[simp] theorem Core.onSeq_arrived (k : Core) (q : Seq) (f : SeqSt → SeqSt) : (k.onSeq q f).arrived = k.arrived := rfl
@[simp] theorem Core.onSeq_synced (k : Core) (q : Seq) (f : SeqSt → SeqSt) : (k.onSeq q f).synced = k.synced := rfl
@[simp] theorem Core.onSeq_fx (k : Core) (q : Seq) (f : SeqSt → SeqSt) : (k.onSeq q f).fx = k.fx := rfl
@[simp] theorem Core.onSeq_commit (k : Core) (q : Seq) (f : SeqSt → SeqSt) : (k.onSeq q f).commit = k.commit := rfl
@[simp] theorem Core.onSeq_startTo (k : Core) (q : Seq) (f : SeqSt → SeqSt) : (k.onSeq q f).startTo = k.startTo := rfl
@[simp] theorem Core.onSeq_away (k : Core) (q : Seq) (f : SeqSt → SeqSt) : (k.onSeq q f).away = k.away := rfl
@[simp] theorem Core.onSeq_gath (k : Core) (q : Seq) (f : SeqSt → SeqSt) : (k.onSeq q f).gath = k.gath := rfl
@[simp] theorem Core.onSeq_code (k : Core) (q : Seq) (f : SeqSt → SeqSt) : (k.onSeq q f).code = k.code := rfl
@[simp] theorem Core.onSeq_stg (k : Core) (q : Seq) (f : SeqSt → SeqSt) : (k.onSeq q f).stg = k.stg := rfl
@[simp] theorem Core.onSeq_tens (k : Core) (q : Seq) (f : SeqSt → SeqSt) : (k.onSeq q f).tens = k.tens := rfl
@[simp] theorem Core.onSeq_locks (k : Core) (q : Seq) (f : SeqSt → SeqSt) : (k.onSeq q f).locks = k.locks := rfl
@[simp] theorem Core.onSeq_lkres (k : Core) (q : Seq) (f : SeqSt → SeqSt) : (k.onSeq q f).lkres = k.lkres := rfl
@[simp] theorem Core.onSeq_chk (k : Core) (q : Seq) (f : SeqSt → SeqSt) : (k.onSeq q f).chk = k.chk := rfl

@[simp] theorem Core.onQueue_seqs (k : Core) (n : Fin 16) (f : DQueue → DQueue) : (k.onQueue n f).seqs = k.seqs := rfl
@[simp] theorem Core.onQueue_consts (k : Core) (n : Fin 16) (f : DQueue → DQueue) : (k.onQueue n f).consts = k.consts := rfl
@[simp] theorem Core.onQueue_toks (k : Core) (n : Fin 16) (f : DQueue → DQueue) : (k.onQueue n f).toks = k.toks := rfl
@[simp] theorem Core.onQueue_bqs (k : Core) (n : Fin 16) (f : DQueue → DQueue) : (k.onQueue n f).bqs = k.bqs := rfl
@[simp] theorem Core.onQueue_rq (k : Core) (n : Fin 16) (f : DQueue → DQueue) : (k.onQueue n f).rq = k.rq := rfl
@[simp] theorem Core.onQueue_ex (k : Core) (n : Fin 16) (f : DQueue → DQueue) : (k.onQueue n f).ex = k.ex := rfl
@[simp] theorem Core.onQueue_codeL1 (k : Core) (n : Fin 16) (f : DQueue → DQueue) : (k.onQueue n f).codeL1 = k.codeL1 := rfl
@[simp] theorem Core.onQueue_strand (k : Core) (n : Fin 16) (f : DQueue → DQueue) : (k.onQueue n f).strand = k.strand := rfl
@[simp] theorem Core.onQueue_req (k : Core) (n : Fin 16) (f : DQueue → DQueue) : (k.onQueue n f).req = k.req := rfl
@[simp] theorem Core.onQueue_engFault (k : Core) (n : Fin 16) (f : DQueue → DQueue) : (k.onQueue n f).engFault = k.engFault := rfl
@[simp] theorem Core.onQueue_divert (k : Core) (n : Fin 16) (f : DQueue → DQueue) : (k.onQueue n f).divert = k.divert := rfl
@[simp] theorem Core.onQueue_gvs (k : Core) (n : Fin 16) (f : DQueue → DQueue) : (k.onQueue n f).gvs = k.gvs := rfl
@[simp] theorem Core.onQueue_wrote (k : Core) (n : Fin 16) (f : DQueue → DQueue) : (k.onQueue n f).wrote = k.wrote := rfl
@[simp] theorem Core.onQueue_cflt (k : Core) (n : Fin 16) (f : DQueue → DQueue) : (k.onQueue n f).cflt = k.cflt := rfl
@[simp] theorem Core.onQueue_shapes (k : Core) (n : Fin 16) (f : DQueue → DQueue) : (k.onQueue n f).shapes = k.shapes := rfl
@[simp] theorem Core.onQueue_bounds (k : Core) (n : Fin 16) (f : DQueue → DQueue) : (k.onQueue n f).bounds = k.bounds := rfl
@[simp] theorem Core.onQueue_pad (k : Core) (n : Fin 16) (f : DQueue → DQueue) : (k.onQueue n f).pad = k.pad := rfl
@[simp] theorem Core.onQueue_wins (k : Core) (n : Fin 16) (f : DQueue → DQueue) : (k.onQueue n f).wins = k.wins := rfl
@[simp] theorem Core.onQueue_stash (k : Core) (n : Fin 16) (f : DQueue → DQueue) : (k.onQueue n f).stash = k.stash := rfl
@[simp] theorem Core.onQueue_loads (k : Core) (n : Fin 16) (f : DQueue → DQueue) : (k.onQueue n f).loads = k.loads := rfl
@[simp] theorem Core.onQueue_stores (k : Core) (n : Fin 16) (f : DQueue → DQueue) : (k.onQueue n f).stores = k.stores := rfl
@[simp] theorem Core.onQueue_undo (k : Core) (n : Fin 16) (f : DQueue → DQueue) : (k.onQueue n f).undo = k.undo := rfl
@[simp] theorem Core.onQueue_sends (k : Core) (n : Fin 16) (f : DQueue → DQueue) : (k.onQueue n f).sends = k.sends := rfl
@[simp] theorem Core.onQueue_pubs (k : Core) (n : Fin 16) (f : DQueue → DQueue) : (k.onQueue n f).pubs = k.pubs := rfl
@[simp] theorem Core.onQueue_heldPubs (k : Core) (n : Fin 16) (f : DQueue → DQueue) : (k.onQueue n f).heldPubs = k.heldPubs := rfl
@[simp] theorem Core.onQueue_tlb (k : Core) (n : Fin 16) (f : DQueue → DQueue) : (k.onQueue n f).tlb = k.tlb := rfl
@[simp] theorem Core.onQueue_latt (k : Core) (n : Fin 16) (f : DQueue → DQueue) : (k.onQueue n f).latt = k.latt := rfl
@[simp] theorem Core.onQueue_ends (k : Core) (n : Fin 16) (f : DQueue → DQueue) : (k.onQueue n f).ends = k.ends := rfl
@[simp] theorem Core.onQueue_arrived (k : Core) (n : Fin 16) (f : DQueue → DQueue) : (k.onQueue n f).arrived = k.arrived := rfl
@[simp] theorem Core.onQueue_synced (k : Core) (n : Fin 16) (f : DQueue → DQueue) : (k.onQueue n f).synced = k.synced := rfl
@[simp] theorem Core.onQueue_fx (k : Core) (n : Fin 16) (f : DQueue → DQueue) : (k.onQueue n f).fx = k.fx := rfl
@[simp] theorem Core.onQueue_commit (k : Core) (n : Fin 16) (f : DQueue → DQueue) : (k.onQueue n f).commit = k.commit := rfl
@[simp] theorem Core.onQueue_startTo (k : Core) (n : Fin 16) (f : DQueue → DQueue) : (k.onQueue n f).startTo = k.startTo := rfl
@[simp] theorem Core.onQueue_away (k : Core) (n : Fin 16) (f : DQueue → DQueue) : (k.onQueue n f).away = k.away := rfl
@[simp] theorem Core.onQueue_gath (k : Core) (n : Fin 16) (f : DQueue → DQueue) : (k.onQueue n f).gath = k.gath := rfl
@[simp] theorem Core.onQueue_code (k : Core) (n : Fin 16) (f : DQueue → DQueue) : (k.onQueue n f).code = k.code := rfl
@[simp] theorem Core.onQueue_stg (k : Core) (n : Fin 16) (f : DQueue → DQueue) : (k.onQueue n f).stg = k.stg := rfl
@[simp] theorem Core.onQueue_tens (k : Core) (n : Fin 16) (f : DQueue → DQueue) : (k.onQueue n f).tens = k.tens := rfl
@[simp] theorem Core.onQueue_locks (k : Core) (n : Fin 16) (f : DQueue → DQueue) : (k.onQueue n f).locks = k.locks := rfl
@[simp] theorem Core.onQueue_lkres (k : Core) (n : Fin 16) (f : DQueue → DQueue) : (k.onQueue n f).lkres = k.lkres := rfl
@[simp] theorem Core.onQueue_chk (k : Core) (n : Fin 16) (f : DQueue → DQueue) : (k.onQueue n f).chk = k.chk := rfl

@[simp] theorem Core.later_seqs (k : Core) (n : Nat) (w : ExWrite) : (k.later n w).seqs = k.seqs := rfl
@[simp] theorem Core.later_consts (k : Core) (n : Nat) (w : ExWrite) : (k.later n w).consts = k.consts := rfl
@[simp] theorem Core.later_queues (k : Core) (n : Nat) (w : ExWrite) : (k.later n w).queues = k.queues := rfl
@[simp] theorem Core.later_toks (k : Core) (n : Nat) (w : ExWrite) : (k.later n w).toks = k.toks := rfl
@[simp] theorem Core.later_bqs (k : Core) (n : Nat) (w : ExWrite) : (k.later n w).bqs = k.bqs := rfl
@[simp] theorem Core.later_rq (k : Core) (n : Nat) (w : ExWrite) : (k.later n w).rq = k.rq := rfl
@[simp] theorem Core.later_codeL1 (k : Core) (n : Nat) (w : ExWrite) : (k.later n w).codeL1 = k.codeL1 := rfl
@[simp] theorem Core.later_strand (k : Core) (n : Nat) (w : ExWrite) : (k.later n w).strand = k.strand := rfl
@[simp] theorem Core.later_req (k : Core) (n : Nat) (w : ExWrite) : (k.later n w).req = k.req := rfl
@[simp] theorem Core.later_engFault (k : Core) (n : Nat) (w : ExWrite) : (k.later n w).engFault = k.engFault := rfl
@[simp] theorem Core.later_divert (k : Core) (n : Nat) (w : ExWrite) : (k.later n w).divert = k.divert := rfl
@[simp] theorem Core.later_gvs (k : Core) (n : Nat) (w : ExWrite) : (k.later n w).gvs = k.gvs := rfl
@[simp] theorem Core.later_wrote (k : Core) (n : Nat) (w : ExWrite) : (k.later n w).wrote = k.wrote := rfl
@[simp] theorem Core.later_cflt (k : Core) (n : Nat) (w : ExWrite) : (k.later n w).cflt = k.cflt := rfl
@[simp] theorem Core.later_shapes (k : Core) (n : Nat) (w : ExWrite) : (k.later n w).shapes = k.shapes := rfl
@[simp] theorem Core.later_bounds (k : Core) (n : Nat) (w : ExWrite) : (k.later n w).bounds = k.bounds := rfl
@[simp] theorem Core.later_pad (k : Core) (n : Nat) (w : ExWrite) : (k.later n w).pad = k.pad := rfl
@[simp] theorem Core.later_wins (k : Core) (n : Nat) (w : ExWrite) : (k.later n w).wins = k.wins := rfl
@[simp] theorem Core.later_stash (k : Core) (n : Nat) (w : ExWrite) : (k.later n w).stash = k.stash := rfl
@[simp] theorem Core.later_loads (k : Core) (n : Nat) (w : ExWrite) : (k.later n w).loads = k.loads := rfl
@[simp] theorem Core.later_stores (k : Core) (n : Nat) (w : ExWrite) : (k.later n w).stores = k.stores := rfl
@[simp] theorem Core.later_undo (k : Core) (n : Nat) (w : ExWrite) : (k.later n w).undo = k.undo := rfl
@[simp] theorem Core.later_sends (k : Core) (n : Nat) (w : ExWrite) : (k.later n w).sends = k.sends := rfl
@[simp] theorem Core.later_pubs (k : Core) (n : Nat) (w : ExWrite) : (k.later n w).pubs = k.pubs := rfl
@[simp] theorem Core.later_heldPubs (k : Core) (n : Nat) (w : ExWrite) : (k.later n w).heldPubs = k.heldPubs := rfl
@[simp] theorem Core.later_tlb (k : Core) (n : Nat) (w : ExWrite) : (k.later n w).tlb = k.tlb := rfl
@[simp] theorem Core.later_latt (k : Core) (n : Nat) (w : ExWrite) : (k.later n w).latt = k.latt := rfl
@[simp] theorem Core.later_ends (k : Core) (n : Nat) (w : ExWrite) : (k.later n w).ends = k.ends := rfl
@[simp] theorem Core.later_arrived (k : Core) (n : Nat) (w : ExWrite) : (k.later n w).arrived = k.arrived := rfl
@[simp] theorem Core.later_synced (k : Core) (n : Nat) (w : ExWrite) : (k.later n w).synced = k.synced := rfl
@[simp] theorem Core.later_fx (k : Core) (n : Nat) (w : ExWrite) : (k.later n w).fx = k.fx := rfl
@[simp] theorem Core.later_commit (k : Core) (n : Nat) (w : ExWrite) : (k.later n w).commit = k.commit := rfl
@[simp] theorem Core.later_startTo (k : Core) (n : Nat) (w : ExWrite) : (k.later n w).startTo = k.startTo := rfl
@[simp] theorem Core.later_away (k : Core) (n : Nat) (w : ExWrite) : (k.later n w).away = k.away := rfl
@[simp] theorem Core.later_gath (k : Core) (n : Nat) (w : ExWrite) : (k.later n w).gath = k.gath := rfl
@[simp] theorem Core.later_code (k : Core) (n : Nat) (w : ExWrite) : (k.later n w).code = k.code := rfl
@[simp] theorem Core.later_stg (k : Core) (n : Nat) (w : ExWrite) : (k.later n w).stg = k.stg := rfl
@[simp] theorem Core.later_tens (k : Core) (n : Nat) (w : ExWrite) : (k.later n w).tens = k.tens := rfl
@[simp] theorem Core.later_locks (k : Core) (n : Nat) (w : ExWrite) : (k.later n w).locks = k.locks := rfl
@[simp] theorem Core.later_lkres (k : Core) (n : Nat) (w : ExWrite) : (k.later n w).lkres = k.lkres := rfl
@[simp] theorem Core.later_chk (k : Core) (n : Nat) (w : ExWrite) : (k.later n w).chk = k.chk := rfl

@[simp] theorem Core.pushLater_seqs (k : Core) (c n : Nat) (x : ExOut) : (k.pushLater c n x).seqs = k.seqs := rfl
@[simp] theorem Core.pushLater_consts (k : Core) (c n : Nat) (x : ExOut) : (k.pushLater c n x).consts = k.consts := rfl
@[simp] theorem Core.pushLater_queues (k : Core) (c n : Nat) (x : ExOut) : (k.pushLater c n x).queues = k.queues := rfl
@[simp] theorem Core.pushLater_toks (k : Core) (c n : Nat) (x : ExOut) : (k.pushLater c n x).toks = k.toks := rfl
@[simp] theorem Core.pushLater_bqs (k : Core) (c n : Nat) (x : ExOut) : (k.pushLater c n x).bqs = k.bqs := rfl
@[simp] theorem Core.pushLater_rq (k : Core) (c n : Nat) (x : ExOut) : (k.pushLater c n x).rq = k.rq := rfl
@[simp] theorem Core.pushLater_codeL1 (k : Core) (c n : Nat) (x : ExOut) : (k.pushLater c n x).codeL1 = k.codeL1 := rfl
@[simp] theorem Core.pushLater_strand (k : Core) (c n : Nat) (x : ExOut) : (k.pushLater c n x).strand = k.strand := rfl
@[simp] theorem Core.pushLater_req (k : Core) (c n : Nat) (x : ExOut) : (k.pushLater c n x).req = k.req := rfl
@[simp] theorem Core.pushLater_engFault (k : Core) (c n : Nat) (x : ExOut) : (k.pushLater c n x).engFault = k.engFault := rfl
@[simp] theorem Core.pushLater_divert (k : Core) (c n : Nat) (x : ExOut) : (k.pushLater c n x).divert = k.divert := rfl
@[simp] theorem Core.pushLater_gvs (k : Core) (c n : Nat) (x : ExOut) : (k.pushLater c n x).gvs = k.gvs := rfl
@[simp] theorem Core.pushLater_wrote (k : Core) (c n : Nat) (x : ExOut) : (k.pushLater c n x).wrote = k.wrote := rfl
@[simp] theorem Core.pushLater_cflt (k : Core) (c n : Nat) (x : ExOut) : (k.pushLater c n x).cflt = k.cflt := rfl
@[simp] theorem Core.pushLater_shapes (k : Core) (c n : Nat) (x : ExOut) : (k.pushLater c n x).shapes = k.shapes := rfl
@[simp] theorem Core.pushLater_bounds (k : Core) (c n : Nat) (x : ExOut) : (k.pushLater c n x).bounds = k.bounds := rfl
@[simp] theorem Core.pushLater_pad (k : Core) (c n : Nat) (x : ExOut) : (k.pushLater c n x).pad = k.pad := rfl
@[simp] theorem Core.pushLater_wins (k : Core) (c n : Nat) (x : ExOut) : (k.pushLater c n x).wins = k.wins := rfl
@[simp] theorem Core.pushLater_stash (k : Core) (c n : Nat) (x : ExOut) : (k.pushLater c n x).stash = k.stash := rfl
@[simp] theorem Core.pushLater_loads (k : Core) (c n : Nat) (x : ExOut) : (k.pushLater c n x).loads = k.loads := rfl
@[simp] theorem Core.pushLater_stores (k : Core) (c n : Nat) (x : ExOut) : (k.pushLater c n x).stores = k.stores := rfl
@[simp] theorem Core.pushLater_undo (k : Core) (c n : Nat) (x : ExOut) : (k.pushLater c n x).undo = k.undo := rfl
@[simp] theorem Core.pushLater_sends (k : Core) (c n : Nat) (x : ExOut) : (k.pushLater c n x).sends = k.sends := rfl
@[simp] theorem Core.pushLater_pubs (k : Core) (c n : Nat) (x : ExOut) : (k.pushLater c n x).pubs = k.pubs := rfl
@[simp] theorem Core.pushLater_heldPubs (k : Core) (c n : Nat) (x : ExOut) : (k.pushLater c n x).heldPubs = k.heldPubs := rfl
@[simp] theorem Core.pushLater_tlb (k : Core) (c n : Nat) (x : ExOut) : (k.pushLater c n x).tlb = k.tlb := rfl
@[simp] theorem Core.pushLater_latt (k : Core) (c n : Nat) (x : ExOut) : (k.pushLater c n x).latt = k.latt := rfl
@[simp] theorem Core.pushLater_ends (k : Core) (c n : Nat) (x : ExOut) : (k.pushLater c n x).ends = k.ends := rfl
@[simp] theorem Core.pushLater_arrived (k : Core) (c n : Nat) (x : ExOut) : (k.pushLater c n x).arrived = k.arrived := rfl
@[simp] theorem Core.pushLater_synced (k : Core) (c n : Nat) (x : ExOut) : (k.pushLater c n x).synced = k.synced := rfl
@[simp] theorem Core.pushLater_fx (k : Core) (c n : Nat) (x : ExOut) : (k.pushLater c n x).fx = k.fx := rfl
@[simp] theorem Core.pushLater_commit (k : Core) (c n : Nat) (x : ExOut) : (k.pushLater c n x).commit = k.commit := rfl
@[simp] theorem Core.pushLater_startTo (k : Core) (c n : Nat) (x : ExOut) : (k.pushLater c n x).startTo = k.startTo := rfl
@[simp] theorem Core.pushLater_away (k : Core) (c n : Nat) (x : ExOut) : (k.pushLater c n x).away = k.away := rfl
@[simp] theorem Core.pushLater_gath (k : Core) (c n : Nat) (x : ExOut) : (k.pushLater c n x).gath = k.gath := rfl
@[simp] theorem Core.pushLater_code (k : Core) (c n : Nat) (x : ExOut) : (k.pushLater c n x).code = k.code := rfl
@[simp] theorem Core.pushLater_stg (k : Core) (c n : Nat) (x : ExOut) : (k.pushLater c n x).stg = k.stg := rfl
@[simp] theorem Core.pushLater_tens (k : Core) (c n : Nat) (x : ExOut) : (k.pushLater c n x).tens = k.tens := rfl
@[simp] theorem Core.pushLater_locks (k : Core) (c n : Nat) (x : ExOut) : (k.pushLater c n x).locks = k.locks := rfl
@[simp] theorem Core.pushLater_lkres (k : Core) (c n : Nat) (x : ExOut) : (k.pushLater c n x).lkres = k.lkres := rfl
@[simp] theorem Core.pushLater_chk (k : Core) (c n : Nat) (x : ExOut) : (k.pushLater c n x).chk = k.chk := rfl

/-! ## Updates of a sequencer -/

@[simp] theorem SeqSt.setDepth_regs (q : SeqSt) (n : Nat) : (q.setDepth n).regs = q.regs := rfl
@[simp] theorem SeqSt.setDepth_pc (q : SeqSt) (n : Nat) : (q.setDepth n).pc = q.pc := rfl
@[simp] theorem SeqSt.setDepth_loops (q : SeqSt) (n : Nat) : (q.setDepth n).loops = q.loops := rfl
@[simp] theorem SeqSt.setDepth_cause (q : SeqSt) (n : Nat) : (q.setDepth n).cause = q.cause := rfl
@[simp] theorem SeqSt.setDepth_epc (q : SeqSt) (n : Nat) : (q.setDepth n).epc = q.epc := rfl
@[simp] theorem SeqSt.setDepth_tval (q : SeqSt) (n : Nat) : (q.setDepth n).tval = q.tval := rfl
@[simp] theorem SeqSt.setDepth_sup (q : SeqSt) (n : Nat) : (q.setDepth n).sup = q.sup := rfl
@[simp] theorem SeqSt.setDepth_inTrap (q : SeqSt) (n : Nat) : (q.setDepth n).inTrap = q.inTrap := rfl
@[simp] theorem SeqSt.setDepth_dpc (q : SeqSt) (n : Nat) : (q.setDepth n).dpc = q.dpc := rfl
@[simp] theorem SeqSt.setDepth_dres (q : SeqSt) (n : Nat) : (q.setDepth n).dres = q.dres := rfl
@[simp] theorem SeqSt.setDepth_tvec (q : SeqSt) (n : Nat) : (q.setDepth n).tvec = q.tvec := rfl
@[simp] theorem SeqSt.setDepth_psup (q : SeqSt) (n : Nat) : (q.setDepth n).psup = q.psup := rfl
@[simp] theorem SeqSt.setDepth_sscr (q : SeqSt) (n : Nat) : (q.setDepth n).sscr = q.sscr := rfl
@[simp] theorem SeqSt.setDepth_sr (q : SeqSt) (n : Nat) : (q.setDepth n).sr = q.sr := rfl
@[simp] theorem SeqSt.setDepth_run (q : SeqSt) (n : Nat) : (q.setDepth n).run = q.run := rfl
@[simp] theorem SeqSt.setDepth_wait (q : SeqSt) (n : Nat) : (q.setDepth n).wait = q.wait := rfl
@[simp] theorem SeqSt.setDepth_copy (q : SeqSt) (n : Nat) : (q.setDepth n).copy = q.copy := rfl
@[simp] theorem SeqSt.setDepth_gvi (q : SeqSt) (n : Nat) : (q.setDepth n).gvi = q.gvi := rfl
@[simp] theorem SeqSt.setDepth_sevTrap (q : SeqSt) (n : Nat) : (q.setDepth n).sevTrap = q.sevTrap := rfl
@[simp] theorem SeqSt.setDepth_walkFault (q : SeqSt) (n : Nat) : (q.setDepth n).walkFault = q.walkFault := rfl
@[simp] theorem SeqSt.setDepth_ahead (q : SeqSt) (n : Nat) : (q.setDepth n).ahead = q.ahead := rfl

@[simp] theorem SeqSt.setLc_regs (q : SeqSt) (n : Fin 4) (x : BitVec 32) : (q.setLc n x).regs = q.regs := rfl
@[simp] theorem SeqSt.setLc_pc (q : SeqSt) (n : Fin 4) (x : BitVec 32) : (q.setLc n x).pc = q.pc := rfl
@[simp] theorem SeqSt.setLc_lstk (q : SeqSt) (n : Fin 4) (x : BitVec 32) : (q.setLc n x).lstk = q.lstk := rfl
@[simp] theorem SeqSt.setLc_cause (q : SeqSt) (n : Fin 4) (x : BitVec 32) : (q.setLc n x).cause = q.cause := rfl
@[simp] theorem SeqSt.setLc_epc (q : SeqSt) (n : Fin 4) (x : BitVec 32) : (q.setLc n x).epc = q.epc := rfl
@[simp] theorem SeqSt.setLc_tval (q : SeqSt) (n : Fin 4) (x : BitVec 32) : (q.setLc n x).tval = q.tval := rfl
@[simp] theorem SeqSt.setLc_sup (q : SeqSt) (n : Fin 4) (x : BitVec 32) : (q.setLc n x).sup = q.sup := rfl
@[simp] theorem SeqSt.setLc_inTrap (q : SeqSt) (n : Fin 4) (x : BitVec 32) : (q.setLc n x).inTrap = q.inTrap := rfl
@[simp] theorem SeqSt.setLc_dpc (q : SeqSt) (n : Fin 4) (x : BitVec 32) : (q.setLc n x).dpc = q.dpc := rfl
@[simp] theorem SeqSt.setLc_dres (q : SeqSt) (n : Fin 4) (x : BitVec 32) : (q.setLc n x).dres = q.dres := rfl
@[simp] theorem SeqSt.setLc_tvec (q : SeqSt) (n : Fin 4) (x : BitVec 32) : (q.setLc n x).tvec = q.tvec := rfl
@[simp] theorem SeqSt.setLc_psup (q : SeqSt) (n : Fin 4) (x : BitVec 32) : (q.setLc n x).psup = q.psup := rfl
@[simp] theorem SeqSt.setLc_sscr (q : SeqSt) (n : Fin 4) (x : BitVec 32) : (q.setLc n x).sscr = q.sscr := rfl
@[simp] theorem SeqSt.setLc_sr (q : SeqSt) (n : Fin 4) (x : BitVec 32) : (q.setLc n x).sr = q.sr := rfl
@[simp] theorem SeqSt.setLc_run (q : SeqSt) (n : Fin 4) (x : BitVec 32) : (q.setLc n x).run = q.run := rfl
@[simp] theorem SeqSt.setLc_wait (q : SeqSt) (n : Fin 4) (x : BitVec 32) : (q.setLc n x).wait = q.wait := rfl
@[simp] theorem SeqSt.setLc_copy (q : SeqSt) (n : Fin 4) (x : BitVec 32) : (q.setLc n x).copy = q.copy := rfl
@[simp] theorem SeqSt.setLc_gvi (q : SeqSt) (n : Fin 4) (x : BitVec 32) : (q.setLc n x).gvi = q.gvi := rfl
@[simp] theorem SeqSt.setLc_sevTrap (q : SeqSt) (n : Fin 4) (x : BitVec 32) : (q.setLc n x).sevTrap = q.sevTrap := rfl
@[simp] theorem SeqSt.setLc_walkFault (q : SeqSt) (n : Fin 4) (x : BitVec 32) : (q.setLc n x).walkFault = q.walkFault := rfl
@[simp] theorem SeqSt.setLc_ahead (q : SeqSt) (n : Fin 4) (x : BitVec 32) : (q.setLc n x).ahead = q.ahead := rfl

@[simp] theorem SeqSt.popLoop_regs (q : SeqSt) : (q.popLoop).regs = q.regs := rfl
@[simp] theorem SeqSt.popLoop_pc (q : SeqSt) : (q.popLoop).pc = q.pc := rfl
@[simp] theorem SeqSt.popLoop_loops (q : SeqSt) : (q.popLoop).loops = q.loops := rfl
@[simp] theorem SeqSt.popLoop_cause (q : SeqSt) : (q.popLoop).cause = q.cause := rfl
@[simp] theorem SeqSt.popLoop_epc (q : SeqSt) : (q.popLoop).epc = q.epc := rfl
@[simp] theorem SeqSt.popLoop_tval (q : SeqSt) : (q.popLoop).tval = q.tval := rfl
@[simp] theorem SeqSt.popLoop_sup (q : SeqSt) : (q.popLoop).sup = q.sup := rfl
@[simp] theorem SeqSt.popLoop_inTrap (q : SeqSt) : (q.popLoop).inTrap = q.inTrap := rfl
@[simp] theorem SeqSt.popLoop_dpc (q : SeqSt) : (q.popLoop).dpc = q.dpc := rfl
@[simp] theorem SeqSt.popLoop_dres (q : SeqSt) : (q.popLoop).dres = q.dres := rfl
@[simp] theorem SeqSt.popLoop_tvec (q : SeqSt) : (q.popLoop).tvec = q.tvec := rfl
@[simp] theorem SeqSt.popLoop_psup (q : SeqSt) : (q.popLoop).psup = q.psup := rfl
@[simp] theorem SeqSt.popLoop_sscr (q : SeqSt) : (q.popLoop).sscr = q.sscr := rfl
@[simp] theorem SeqSt.popLoop_sr (q : SeqSt) : (q.popLoop).sr = q.sr := rfl
@[simp] theorem SeqSt.popLoop_run (q : SeqSt) : (q.popLoop).run = q.run := rfl
@[simp] theorem SeqSt.popLoop_wait (q : SeqSt) : (q.popLoop).wait = q.wait := rfl
@[simp] theorem SeqSt.popLoop_copy (q : SeqSt) : (q.popLoop).copy = q.copy := rfl
@[simp] theorem SeqSt.popLoop_gvi (q : SeqSt) : (q.popLoop).gvi = q.gvi := rfl
@[simp] theorem SeqSt.popLoop_sevTrap (q : SeqSt) : (q.popLoop).sevTrap = q.sevTrap := rfl
@[simp] theorem SeqSt.popLoop_walkFault (q : SeqSt) : (q.popLoop).walkFault = q.walkFault := rfl
@[simp] theorem SeqSt.popLoop_ahead (q : SeqSt) : (q.popLoop).ahead = q.ahead := rfl

@[simp] theorem SeqSt.pushLoop_regs (q : SeqSt) (n : Fin 4) : (q.pushLoop n).regs = q.regs := rfl
@[simp] theorem SeqSt.pushLoop_pc (q : SeqSt) (n : Fin 4) : (q.pushLoop n).pc = q.pc := rfl
@[simp] theorem SeqSt.pushLoop_loops (q : SeqSt) (n : Fin 4) : (q.pushLoop n).loops = q.loops := rfl
@[simp] theorem SeqSt.pushLoop_cause (q : SeqSt) (n : Fin 4) : (q.pushLoop n).cause = q.cause := rfl
@[simp] theorem SeqSt.pushLoop_epc (q : SeqSt) (n : Fin 4) : (q.pushLoop n).epc = q.epc := rfl
@[simp] theorem SeqSt.pushLoop_tval (q : SeqSt) (n : Fin 4) : (q.pushLoop n).tval = q.tval := rfl
@[simp] theorem SeqSt.pushLoop_sup (q : SeqSt) (n : Fin 4) : (q.pushLoop n).sup = q.sup := rfl
@[simp] theorem SeqSt.pushLoop_inTrap (q : SeqSt) (n : Fin 4) : (q.pushLoop n).inTrap = q.inTrap := rfl
@[simp] theorem SeqSt.pushLoop_dpc (q : SeqSt) (n : Fin 4) : (q.pushLoop n).dpc = q.dpc := rfl
@[simp] theorem SeqSt.pushLoop_dres (q : SeqSt) (n : Fin 4) : (q.pushLoop n).dres = q.dres := rfl
@[simp] theorem SeqSt.pushLoop_tvec (q : SeqSt) (n : Fin 4) : (q.pushLoop n).tvec = q.tvec := rfl
@[simp] theorem SeqSt.pushLoop_psup (q : SeqSt) (n : Fin 4) : (q.pushLoop n).psup = q.psup := rfl
@[simp] theorem SeqSt.pushLoop_sscr (q : SeqSt) (n : Fin 4) : (q.pushLoop n).sscr = q.sscr := rfl
@[simp] theorem SeqSt.pushLoop_sr (q : SeqSt) (n : Fin 4) : (q.pushLoop n).sr = q.sr := rfl
@[simp] theorem SeqSt.pushLoop_run (q : SeqSt) (n : Fin 4) : (q.pushLoop n).run = q.run := rfl
@[simp] theorem SeqSt.pushLoop_wait (q : SeqSt) (n : Fin 4) : (q.pushLoop n).wait = q.wait := rfl
@[simp] theorem SeqSt.pushLoop_copy (q : SeqSt) (n : Fin 4) : (q.pushLoop n).copy = q.copy := rfl
@[simp] theorem SeqSt.pushLoop_gvi (q : SeqSt) (n : Fin 4) : (q.pushLoop n).gvi = q.gvi := rfl
@[simp] theorem SeqSt.pushLoop_sevTrap (q : SeqSt) (n : Fin 4) : (q.pushLoop n).sevTrap = q.sevTrap := rfl
@[simp] theorem SeqSt.pushLoop_walkFault (q : SeqSt) (n : Fin 4) : (q.pushLoop n).walkFault = q.walkFault := rfl
@[simp] theorem SeqSt.pushLoop_ahead (q : SeqSt) (n : Fin 4) : (q.pushLoop n).ahead = q.ahead := rfl

/-! ## What is read back -/

theorem Seq.num_inj (a b : Seq) (h : a.num = b.num) : a = b := by cases a <;> cases b <;> first | rfl | cases h

@[simp] theorem State.core_onCore (s : State) (c : CoreId) (f : Core → Core) : (s.onCore c f).core c = f (s.core c) := by
  simp [State.core, State.onCore]

theorem State.core_onCore_ne (s : State) (c d : CoreId) (f : Core → Core) (h : d ≠ c) : (s.onCore c f).core d = s.core d := by
  simp only [State.core, State.onCore, Fin.getElem_fin]
  exact Vector.getElem_set_ne _ _ fun e => h (Fin.ext e.symm)

@[simp] theorem State.here_mod (s : State) (f : Core → Core) : (s.mod f).here = f s.here := State.core_onCore s s.cur.1 f

@[simp] theorem Core.seq_onSeq (k : Core) (q : Seq) (f : SeqSt → SeqSt) : (k.onSeq q f).seq q = f (k.seq q) := by
  simp [Core.seq, Core.onSeq]

theorem Core.seq_onSeq_ne (k : Core) (q r : Seq) (f : SeqSt → SeqSt) (h : r ≠ q) : (k.onSeq q f).seq r = k.seq r := by
  simp only [Core.seq, Core.onSeq, Fin.getElem_fin]
  exact Vector.getElem_set_ne _ _ fun e => h (Seq.num_inj _ _ (Fin.ext e.symm))

@[simp] theorem State.here_modMe (s : State) (f : SeqSt → SeqSt) : (s.modMe f).here = s.here.onSeq s.cur.2 f :=
  State.here_mod s _

@[simp] theorem State.me_modMe (s : State) (f : SeqSt → SeqSt) : (s.modMe f).me = f s.me := by
  simp [State.me]

@[simp] theorem Core.onQueue_same (k : Core) (n : Fin 16) (f : DQueue → DQueue) : (k.onQueue n f).queues[n] = f k.queues[n] := by
  simp [Core.onQueue]

theorem Core.onQueue_ne (k : Core) (n m : Fin 16) (f : DQueue → DQueue) (h : m ≠ n) :
    (k.onQueue n f).queues[m] = k.queues[m] := by
  simp only [Core.onQueue, Fin.getElem_fin]
  exact Vector.getElem_set_ne _ _ fun e => h (Fin.ext e.symm)

@[simp] theorem SeqSt.reg_setReg (q : SeqSt) (n : Fin 32) (x : Word) : (q.setReg n x).reg n = if n = 0 then 0 else x := by
  by_cases h : n = 0 <;> simp [SeqSt.reg, SeqSt.setReg, h]

theorem SeqSt.reg_setReg_ne (q : SeqSt) (n m : Fin 32) (x : Word) (h : m ≠ n) : (q.setReg n x).reg m = q.reg m := by
  by_cases h0 : n = 0
  · simp [SeqSt.setReg, h0]
  · by_cases hm : m = 0
    · simp [SeqSt.reg, hm]
    · simp only [SeqSt.reg, SeqSt.setReg, h0, hm, if_false, Fin.getElem_fin]
      exact Vector.getElem_set_ne _ _ fun e => h (Fin.ext e.symm)

/-! ## The end test changes the pc and the loops alone -/

theorem SeqSt.endTest_frame (n : Nat) (q : SeqSt) :
    q.endTest n = { q with pc := (q.endTest n).pc, loops := (q.endTest n).loops, lstk := (q.endTest n).lstk } := by
  induction n generalizing q with
  | zero => rfl
  | succ n ih =>
    unfold SeqSt.endTest
    split
    · rfl
    · dsimp only
      split
      · rfl
      · split
        · rfl
        · rw [ih]
          rfl

theorem SeqSt.goto_frame (q : SeqSt) (a : Word) :
    q.goto a = { q with pc := (q.goto a).pc, loops := (q.goto a).loops, lstk := (q.goto a).lstk } :=
  SeqSt.endTest_frame 4 _

/-- With no loop open the pc goes where it is sent. -/
theorem SeqSt.goto_of_depth_zero (q : SeqSt) (a : Word) (h : q.depth = 0) : q.goto a = { q with pc := a } := by
  have : SeqSt.depth { q with pc := a } = 0 := h
  unfold SeqSt.goto SeqSt.endTest
  rw [if_pos this]

/-! ## What taking a trap writes, and what it leaves (R348) -/

theorem SeqSt.enterTrap_goto (q : SeqSt) (c : Cause) (e t : Word) :
    q.enterTrap c e t = SeqSt.goto { q with cause := c.code, epc := e, tval := t, psup := q.sup, sup := true, inTrap := true,
                                            wait := .none } (alignPc q.tvec) := rfl

@[simp] theorem SeqSt.enterTrap_regs (q : SeqSt) (c : Cause) (e t : Word) : (q.enterTrap c e t).regs = q.regs := by
  rw [SeqSt.enterTrap_goto, SeqSt.goto_frame]
@[simp] theorem SeqSt.enterTrap_cause (q : SeqSt) (c : Cause) (e t : Word) : (q.enterTrap c e t).cause = c.code := by
  rw [SeqSt.enterTrap_goto, SeqSt.goto_frame]
@[simp] theorem SeqSt.enterTrap_epc (q : SeqSt) (c : Cause) (e t : Word) : (q.enterTrap c e t).epc = e := by
  rw [SeqSt.enterTrap_goto, SeqSt.goto_frame]
@[simp] theorem SeqSt.enterTrap_tval (q : SeqSt) (c : Cause) (e t : Word) : (q.enterTrap c e t).tval = t := by
  rw [SeqSt.enterTrap_goto, SeqSt.goto_frame]
@[simp] theorem SeqSt.enterTrap_sup (q : SeqSt) (c : Cause) (e t : Word) : (q.enterTrap c e t).sup = true := by
  rw [SeqSt.enterTrap_goto, SeqSt.goto_frame]
@[simp] theorem SeqSt.enterTrap_inTrap (q : SeqSt) (c : Cause) (e t : Word) : (q.enterTrap c e t).inTrap = true := by
  rw [SeqSt.enterTrap_goto, SeqSt.goto_frame]
@[simp] theorem SeqSt.enterTrap_dpc (q : SeqSt) (c : Cause) (e t : Word) : (q.enterTrap c e t).dpc = q.dpc := by
  rw [SeqSt.enterTrap_goto, SeqSt.goto_frame]
@[simp] theorem SeqSt.enterTrap_dres (q : SeqSt) (c : Cause) (e t : Word) : (q.enterTrap c e t).dres = q.dres := by
  rw [SeqSt.enterTrap_goto, SeqSt.goto_frame]
@[simp] theorem SeqSt.enterTrap_tvec (q : SeqSt) (c : Cause) (e t : Word) : (q.enterTrap c e t).tvec = q.tvec := by
  rw [SeqSt.enterTrap_goto, SeqSt.goto_frame]
@[simp] theorem SeqSt.enterTrap_psup (q : SeqSt) (c : Cause) (e t : Word) : (q.enterTrap c e t).psup = q.sup := by
  rw [SeqSt.enterTrap_goto, SeqSt.goto_frame]
@[simp] theorem SeqSt.enterTrap_sscr (q : SeqSt) (c : Cause) (e t : Word) : (q.enterTrap c e t).sscr = q.sscr := by
  rw [SeqSt.enterTrap_goto, SeqSt.goto_frame]
@[simp] theorem SeqSt.enterTrap_sr (q : SeqSt) (c : Cause) (e t : Word) : (q.enterTrap c e t).sr = q.sr := by
  rw [SeqSt.enterTrap_goto, SeqSt.goto_frame]
@[simp] theorem SeqSt.enterTrap_run (q : SeqSt) (c : Cause) (e t : Word) : (q.enterTrap c e t).run = q.run := by
  rw [SeqSt.enterTrap_goto, SeqSt.goto_frame]
@[simp] theorem SeqSt.enterTrap_wait (q : SeqSt) (c : Cause) (e t : Word) : (q.enterTrap c e t).wait = .none := by
  rw [SeqSt.enterTrap_goto, SeqSt.goto_frame]
@[simp] theorem SeqSt.enterTrap_copy (q : SeqSt) (c : Cause) (e t : Word) : (q.enterTrap c e t).copy = q.copy := by
  rw [SeqSt.enterTrap_goto, SeqSt.goto_frame]
@[simp] theorem SeqSt.enterTrap_gvi (q : SeqSt) (c : Cause) (e t : Word) : (q.enterTrap c e t).gvi = q.gvi := by
  rw [SeqSt.enterTrap_goto, SeqSt.goto_frame]
@[simp] theorem SeqSt.enterTrap_sevTrap (q : SeqSt) (c : Cause) (e t : Word) : (q.enterTrap c e t).sevTrap = q.sevTrap := by
  rw [SeqSt.enterTrap_goto, SeqSt.goto_frame]
@[simp] theorem SeqSt.enterTrap_walkFault (q : SeqSt) (c : Cause) (e t : Word) : (q.enterTrap c e t).walkFault = q.walkFault := by
  rw [SeqSt.enterTrap_goto, SeqSt.goto_frame]
@[simp] theorem SeqSt.enterTrap_ahead (q : SeqSt) (c : Cause) (e t : Word) : (q.enterTrap c e t).ahead = q.ahead := by
  rw [SeqSt.enterTrap_goto, SeqSt.goto_frame]

end Sys2Proof.Machine
end

