-- ==== Sys2Proof/Tests/Slice0.lean ====
section
/-! SUPPORT. Words that the manual works out bit by bit, and what they decode to; ill-formed terms that the check refuses; words
that each decode check refuses; states that meet what each obligation supposes; and single steps with results worked by hand. -/

namespace Sys2Proof.Tests

/-- The decoder's answer at an aligned address. -/
def reads (q : Seq) (w0 w1 : Word) (yp : Bool) (i : Instr) : Bool := decide (decode q 0 w0 w1 false = .ok ⟨yp, i⟩)

/-! ## Worked words -/

/-- R99, CMP.LT s5, s2, #10; R59, LI s7, #-200. -/
theorem test_decode_scalar :
    reads .ctl 0x040D41502C2B0300 0 false (.cmp ⟨.i64, 5, .s 2, .lit 10⟩ .lt) = true ∧
    reads .ld 0x08041C00FFFFFF38 0 false (.li 7 0xFFFFFF38) = true := by decide

/-- R60, BC.NE s3, s4, five words back; the B −2 of R75; R104, LOOPI lc1, #100, +5; R113, NOP.YP; R108, TOKS tk6, #1. -/
theorem test_decode_control :
    reads .st 0x20240D04FFFFFFFB 0 false (.bc (.cmp .ne (.s 3) (.s 4)) (-5)) = true ∧
    reads .ld 0x20000000FFFFFFFE 0 false (.bc .al (-2)) = true ∧
    reads .ex 0x2C30040000640005 0 false (.loopi 1 100 5) = true ∧
    reads .ex 0x3200000000000000 0 true .nop = true ∧
    reads .ld 0x3010000000060001 0 false (.toks 6 1) = true := by decide

/-- The jumps of the worked program of the code-supply chapter: JR s31, c40 and RET s31. -/
theorem test_decode_jumps :
    reads .ex 0x2C047E2800000000 0 false (.jr 31 (.c 40) 0) = true ∧
    reads .ex 0x2C10011F00000000 0 false (.ret (.s 31)) = true := by decide

/-- R112, MFSR s3, gtb; R383, MTSR s23, errinj. -/
theorem test_decode_special :
    reads .ctl 0xF0540C0000000007 0 false (.mfsr 3 .gtb) = true ∧
    reads .ctl 0xF0600117000001D8 0 false (.mtsr (.s 23) .errinj) = true := by decide

/-- R61, LDR.ROW q2, [s4 + 256], sh3; LDL.LINE q0, [s2], sh1; LDS.ROW q12, [s0], sh1; LDT.ROW sh2, [s0], sh1; TRD.ROW q12, tacc1,
[s3 + 0]; DRAIN.ROW s5, #0x1000. -/
theorem test_decode_access :
    reads .ld 0x4000887000000100 0 false (.ldr ⟨2, 4, 3, .row, .none, 256⟩) = true ∧
    reads .ld 0x4004042800000000 0 false (.ldl ⟨0, 2, 1, .line, .none, 0⟩) = true ∧
    reads .ld 0x400B003000000000 0 false (.lds ⟨12, 0, 1, .row, .none, 0⟩) = true ∧
    reads .ld 0x4010803000000000 0 false (.ldt 2 0 1 .none 0) = true ∧
    reads .ld 0x401B061000000020 0 false (.trd 12 1 3 0 false) = true ∧
    reads .ld 0x401C0A1000001000 0 false (.drain 5 .full 0x1000) = true := by decide

/-- R290, TCUT.ROW.HOLD b0; R295, TFOL.ROW b0, ring1; R299, BGET s5, b2. -/
theorem test_decode_cutter :
    reads .ld 0x4402003000000000 0 false (.tcut true 0 0 1 0) = true ∧
    reads .ld 0x4404005100000000 0 false (.tfol 0 0 2 1 0) = true ∧
    reads .ld 0x44088A0000000000 0 false (.bget 5 2) = true := by decide

/-- STR.ROW q12, [s0], sh2; R156, SHSET sh1, f1, [s6]; R164, SMAP w0, s2, #1, #0, #2. -/
theorem test_decode_store_shape :
    reads .st 0x4803005000000000 0 false (.str ⟨12, 0, 2, .row, .none, 0⟩) = true ∧
    reads .ld 0x4C044C2000000000 0 false (.shset 1 1 6 0) = true ∧
    reads .st 0x4C0C040100000002 0 false (.smap 0 2 1 0 2) = true := by decide

/-- R58, VADD.I8.SAT.k2 v12, v3, q1; R75, the same with v4; R126, VFMA.BF16 v5, v1, v2, v3; R127, VCMP.LT.FP32 k3, v1, #0. -/
theorem test_decode_lanes :
    reads .ex 0x6080030032040041 0 false (.vadd true ⟨.v 12, .i8, 2, false, .v 3, .q 1⟩) = true ∧
    reads .ex 0x6080030030100041 0 false (.vadd true ⟨.v 12, .i8, 2, false, .v 3, .v 4⟩) = true ∧
    reads .ex 0x6C0001401008030B 0 false (.vfma false false ⟨.v 5, .bf16, 0, false, .v 1, .v 2, .v 3⟩) = true ∧
    reads .ex 0x700200303007000C 0 false (.vcmpLt ⟨3, .fp32, 0, false, .v 1, .sc (.lit 0)⟩) = true := by decide

/-- The VMOV.I8 v1, q1 of the worked program; R132, VCVT.BF16.FP32 v2, v1, #0; R138, VRED.FADD.FP32 s4, v7, #6; R143, AMOV q8,
a3, #1. -/
theorem test_decode_moves :
    reads .ex 0x7405004810000001 0 false (.vmov ⟨.v 1, .i8, 0, false, .q 1⟩) = true ∧
    reads .ex 0x780C00801C00000B 0 false (.vcvt false false .fp32 ⟨.v 2, .bf16, 0, false, .v 1⟩ 0) = true ∧
    reads .ex 0x7C0641007C18000C 0 false (.vredFadd ⟨.s 4, .fp32, 0, false, .v 7, 6⟩) = true ∧
    reads .ex 0xA00022043C04000C 0 false (.amov ⟨.q 0, .fp32, 0, false, .a 3⟩ 1) = true := by decide

/-- R338, DEFER.k3 s4, a0, a2, a4; R257, SPLC. -/
theorem test_decode_defer_splice :
    reads .ex 0x8402410401084460 0 false (.defer 3 4 0 2 4) = true ∧
    reads .ex 0xA400000000000000 0 false .splc = true := by decide

/-- R64, the worked bundle with a term of each kind; R254, TSCL a0, a32, #0.5 | TADD a33, a63. -/
theorem test_decode_bundles :
    reads .ex 0xFB30000350F00074 0x0006D10000000000 true
      (.tb true [.tmac 32 0 3, .tadd 33 112, .tpair 40 0 3, .tclr 34, .nop]) = true ∧
    reads .ex 0xF8A06000E7000050 0xFF00000000000000 false (.tb false [.tscl 0 32 0x3800, .tadd 33 127, .nop, .nop]) = true := by
  decide

/-- R279, TGO.TSM; R309, GATHER.CLU; R62, AOW.ADDF32.PKG.AR; R315, CAS.DIE.AR; R325, COLL.FAB; R229, CGEN; R340, LENQ; the AOW
with RET of the engines chapter. -/
theorem test_decode_commands :
    reads .ctl 0xB108000024000008 0 false (.tgo ⟨true, 0, 0, 0, 0, 9, 0, 0, .core, .rlx, 8⟩) = true ∧
    reads .ctl 0xC000853124001000 0 false (.gather ⟨false, 4, 5, 6, 2, 9, 0, 0, .clu, .rlx, 0⟩) = true ∧
    reads .ctl 0xC408A60124033C00 0 false (.aowAddf32 ⟨false, 5, 6, 0, 2, 9, 0, 3, .pkg, .ar, 0⟩) = true ∧
    reads .ctl 0xC4416C6800042C00 0 false (.cas ⟨false, 11, 12, 13, 0, 0, 0, 4, .die, .ar, 0⟩) = true ∧
    reads .ctl 0xCC008531A5404001 0 false (.coll ⟨false, 4, 5, 6, 3, 9, 10, 0, .fab, .rlx, 1⟩) = true ∧
    reads .ctl 0xD000850024020010 0 false (.cgen ⟨false, 4, 5, 0, 0, 9, 0, 2, .core, .rlx, 16⟩) = true ∧
    reads .ctl 0xD404800024010010 0 false (.lenq ⟨false, 4, 0, 0, 0, 9, 0, 1, .core, .rlx, 16⟩) = true ∧
    reads .ctl 0xC4018F004C013E00 0 false (.aowAddi32 ⟨false, 12, 15, 0, 0, 19, 0, 1, .pkg, .ar, 0x200⟩) = true := by decide

/-- R203, PEND.YP; R204, SYNC #1; R206, XFENCE.GATHER.CORE.PKG; R210, HINIT s9, #4 and HWAIT s0, s9, #0; R211, RPOP s4, #3. -/
theorem test_decode_phases :
    reads .ld 0xE200000000000000 0 true .pend = true ∧
    reads .st 0xE010000000000001 0 false (.sync 1) = true ∧
    reads .ctl 0xE020000000000203 0 false (.xfence .gather .core .pkg) = true ∧
    reads .ctl 0xE400010900000004 0 false (.hinit 9 4) = true ∧
    reads .ctl 0xE424010900000000 0 false (.hwait 0 9 false) = true ∧
    reads .ctl 0xE804100000000003 0 false (.rpop 4 3 false) = true := by decide

/-- R353, the system instructions; R384, GVI.YP #5. -/
theorem test_decode_system :
    reads .ex 0xF000000000000005 0 false (.trap 5) = true ∧
    reads .ex 0xF010000000000001 0 false (.sys 1) = true ∧
    reads .ex 0xF020000000000000 0 false .eret = true ∧
    reads .ex 0xF230000000000000 0 true .yield = true ∧
    reads .ex 0xF040000000000000 0 false .halt = true ∧
    reads .ctl 0xF600000000000005 0 true (.gvi 5) = true := by decide

/-! ## Words that a decode check refuses (R69) -/

/-- What the decoder refuses a word for. -/
def refuses (q : Seq) (addr w0 w1 : Word) (c : Cause) : Bool := decide (decode q addr w0 w1 false = .error c)

theorem test_refuse_zero_word : refuses .ctl 0 0 0 .illegalInstruction = true := by decide
theorem test_refuse_bundle_place : refuses .ex 8 0xF800000000000000 0 .misalignedBundle = true := by decide
theorem test_refuse_sequencer : refuses .ctl 0 0x4000887000000100 0 .wrongSequencer = true := by decide
theorem test_refuse_function : refuses .ctl 0 0x0410000000000000 0 .illegalFunction = true := by decide
/-- ADD s5, v0, s0 on CTL. -/
theorem test_refuse_kind : refuses .ctl 0 0x0400415000010000 0 .operandKindUnavailable = true := by decide
/-- NOP with a field that is not zero. -/
theorem test_refuse_reserved : refuses .ctl 0 0x3000000000000001 0 .reservedOperand = true := by decide
/-- TOKS tk6 on EX, which does not produce it. -/
theorem test_refuse_queue : refuses .ex 0 0x3010000000060001 0 .queueDirection = true := by decide

/-! ## Ill-formed terms -/

theorem test_wf_ret_literal : (Instr.ret (.lit 8)).wf = false := by decide
theorem test_wf_loop_short : (Instr.loopi 0 4 1).wf = false := by decide
theorem test_wf_tokens_none : (Instr.toks 0 0).wf = false := by decide
theorem test_wf_row_granule : (Instr.ldr ⟨0, 1, 1, .line, .none, 0⟩).wf = false := by decide
theorem test_wf_line_granule : (Instr.stl ⟨8, 1, 1, .row, .none, 0⟩).wf = false := by decide
theorem test_wf_window : (Instr.smap 0 1 28 0 1).wf = false := by decide
theorem test_wf_lane_type : (Instr.vadd false ⟨.v 0, .fp32, 0, false, .v 1, .v 2⟩).wf = false := by decide
theorem test_wf_float_type : (Instr.vfadd false false ⟨.v 0, .i32, 0, false, .v 1, .v 2⟩).wf = false := by decide
theorem test_wf_wide_mix : (Instr.vadd false ⟨.a 0, .i32, 0, false, .v 1, .a 2⟩).wf = false := by decide
theorem test_wf_mask_zero : (Instr.kand 0 1 2).wf = false := by decide
theorem test_wf_compare_unordered : (Instr.vcmpUn ⟨1, .i8, 0, false, .v 1, .v 2⟩).wf = false := by decide
theorem test_wf_segment : (Instr.vredAdd ⟨.lanes (.v 0), .i32, 0, false, .v 1, 7⟩).wf = false := by decide
theorem test_wf_block : (Instr.vpack ⟨.e2m1, .bf16, 0, .v 0, .v 1, some (.v 2), 16⟩).wf = false := by decide
theorem test_wf_part : (Instr.vcvt false false .fp32 ⟨.v 0, .bf16, 0, false, .v 1⟩ 2).wf = false := by decide
theorem test_wf_bundle_slots : (Instr.tb false [.nop]).wf = false := by decide
theorem test_wf_command_field : (Instr.cgen ⟨false, 1, 2, 3, 0, 0, 0, 0, .core, .rlx, 1⟩).wf = false := by decide
theorem test_wf_fence : (Instr.xfence .code .code .die).wf = false := by decide
theorem test_wf_hitch_count : (Instr.hinit 1 0).wf = false := by decide
theorem test_wf_load_queue : (Instr.ldr ⟨8, 1, 1, .row, .none, 0⟩).wf = false := by decide
theorem test_wf_store_queue : (Instr.str ⟨0, 1, 1, .row, .none, 0⟩).wf = false := by decide
theorem test_wf_shape_queue : (Instr.shld 0 (.queue 3)).wf = false := by decide
theorem test_wf_yield_unmarked : (Fetched.wf ⟨false, .yield⟩) = false := by decide

open Sys2Proof.Machine
set_option Elab.async false

/-! ## States -/

/-- Full service, the turn on a sequencer of core 0, with that core changed. -/
def at0 (q : Seq) (f : Core → Core := id) : State := ({ State.reset with cur := (0, q), mgst := 4 } : State).onCore 0 f

/-- The same with the sequencer changed. -/
def seq0 (q : Seq) (f : SeqSt → SeqSt) : State := at0 q fun k => k.onSeq q f

def hasNext (o : Out) : Bool :=
  match o with
  | .next _ => true
  | _ => false

/-- One step goes to a state of which `p` holds. -/
def ran (s : State) (p : State → Bool) : Bool :=
  match step s with
  | .next t => p t
  | _ => false

/-! ## States that meet what the obligations suppose -/

theorem test_meets_StepRunsDecoded : Ready (State.reset.withFetchWord 64 0x3200000000000000) ⟨true, .nop⟩ :=
  ⟨rfl, rfl, rfl, rfl, by decide +kernel, by decide +kernel, by decide +kernel, by decide +kernel, fun _ => by decide +kernel,
    by decide +kernel, fun _ => by decide +kernel, by decide +kernel, ⟨0x3200000000000000, 0, by decide +kernel, by decide +kernel⟩,
    fun _ _ => ⟨by decide +kernel, .inl (by decide +kernel)⟩, by decide +kernel⟩

theorem test_meets_EncodeThenDecode :
    Encodable .ex 0 false ⟨true, .tb true [.tmac 32 0 3, .tadd 33 112, .tpair 40 0 3, .tclr 34, .nop]⟩ ∧
    Encodable .ctl 8 true ⟨false, .nop⟩ ∧ Encodable .ctl 0 false ⟨true, .gvi 73⟩ := by
  refine ⟨⟨?_, ?_, ?_, ?_, ?_⟩, ⟨?_, ?_, ?_, trivial⟩, ⟨?_, ?_, ?_, ?_⟩⟩ <;> decide

theorem test_meets_StepKeepsCanon :
    (Memory.wf State.reset.mem ∧ cellsWf blankWord State.reset.marks) ∧
    hasNext (step (State.reset.withFetchWord 64 0x3000000000000000)) = true := by decide +kernel

theorem test_meets_ScalarResults : (scalarExact (.add ⟨.i64, 5, .s 2, .lit 10⟩) (at0 .ctl)).isSome = true ∧
    (scalarExact (.clz ⟨.n32, 0, .c 255⟩) (at0 .ex)).isSome = true := by decide +kernel

/-- Results in flight. -/
def flying (ps : List Pending) : Core := { Core.reset with ex := { Core.reset.ex with pend := ps } }

/-- Two results of which the later-issued prevails. -/
theorem lands_second {a b : ExWrite} {hits : ExWrite → Prop} (h : hits b) : LandsLast (flying [⟨2, a⟩, ⟨2, b⟩]) 2 hits ⟨2, b⟩ :=
  ⟨[⟨2, a⟩], [], rfl, h, Nat.le_refl 2, fun r hr _ _ => by simp_all, by simp⟩

theorem test_meets_ExposedPipeline :
    LandsLast (flying [⟨2, .s 1 5⟩, ⟨2, .s 1 6⟩]) 2 (fun w => ∃ y, w = .s 1 y) ⟨2, .s 1 6⟩ ∧
    LandsNone (flying [⟨2, .s 1 5⟩, ⟨2, .s 1 6⟩]) 1 (fun w => ∃ y, w = .s 1 y) ∧
    LandsLast (flying [⟨2, .v 63 1 0⟩, ⟨2, .v 63 1 1⟩]) 2 (fun w => ∃ en d, w = .v 63 en d ∧ en.getLsbD 0 = true) ⟨2, .v 63 1 1⟩ ∧
    LandsLast (flying [⟨2, .a 63 1 0⟩, ⟨2, .a 63 1 1⟩]) 2 (fun w => ∃ en d, w = .a 63 en d ∧ en.getLsbD 0 = true) ⟨2, .a 63 1 1⟩ ∧
    LandsLast (flying [⟨2, .k 7 1 0⟩, ⟨2, .k 7 1 1⟩]) 2 (fun w => ∃ en d, w = .k 7 en d ∧ en.getLsbD 0 = true) ⟨2, .k 7 1 1⟩ :=
  ⟨lands_second ⟨6, rfl⟩, fun r hr _ => by simp [flying] at hr; rcases hr with rfl | rfl <;> decide,
    lands_second ⟨1, 1, rfl, by decide +kernel⟩, lands_second ⟨1, 1, rfl, by decide +kernel⟩, lands_second ⟨1, 1, rfl, by decide +kernel⟩⟩

/-- A sequencer in a loop of three instructions, its last the next. -/
def looping (n : Nat) (count : BitVec 32) : SeqSt → SeqSt := fun q =>
  { q with pc := 16, lstk := BitVec.ofNat 12 n, loops := q.loops.set 0 ⟨count, 0, 24⟩ }

theorem test_meets_Branches :
    (at0 .st fun k => { k with bqs := k.bqs.set 3 [true] }).here.bqs[Seq.st.num] = [true] ∧
    ((at0 .ctl).src (.c 1) + BitVec.ofInt 64 (8 : BitVec 32).toInt).toNat % 8 = 0 ∧ (at0 .ctl).me.depth = 0 := by decide +kernel

theorem test_meets_Loops : (at0 .ex).me.depth < 4 ∧ loopBusy (at0 .ex).me 3 = false ∧
    (seq0 .ex (looping 1 2)).me.depth = 1 ∧ loopBusy (seq0 .ex (looping 1 2)).me 0 = true ∧
    (seq0 .ex (looping 4 2)).me.depth = 4 := by decide +kernel

theorem test_meets_EndTest :
    (looping 1 2 .reset).loops[(looping 1 2 .reset).top].lend = 24 ∧ (looping 1 2 .reset).depth = 1 ∧
    2 ≤ ((looping 1 2 .reset).loops[(looping 1 2 .reset).top].lc).toNat ∧
    ((looping 1 1 .reset).loops[(looping 1 1 .reset).top].lc).toNat < 2 := by decide +kernel

/-- Counter 1, from CTL to LD, and counter 5, LD's own, full. -/
def fullTokens (q : Seq) : State := at0 q fun k => { k with toks := (k.toks.set 1 63).set 5 63 }

theorem test_meets_TokensAndConstants :
    (at0 .ctl).here.toks[1].toNat + (63 : BitVec 6).toNat ≤ 63 ∧ (at0 .ctl).here.performed .ctl = true ∧
    (63 : BitVec 6).toNat ≤ (fullTokens .ld).here.toks[1].toNat ∧ (at0 .ld).here.toks[1].toNat < (1 : BitVec 6).toNat ∧
    (at0 .ex).here.bqRoom 3 = true := by decide +kernel

theorem test_meets_WaitsLeaveAll : (at0 .ctl).here.bqs[Seq.ctl.num] = [] ∧
    (at0 .ld).here.toks[1].toNat < (1 : BitVec 6).toNat ∧ selfCounter 1 = false ∧
    63 < (fullTokens .ctl).here.toks[1].toNat + (1 : BitVec 6).toNat ∧ (at0 .ctl).here.rq = [] := by decide +kernel

/-- In supervisor mode. -/
def super (q : Seq) : State := seq0 q fun st => { st with sup := true }

theorem test_meets_SpecialReads : sprReads .gtb = true ∧ sprSup .gtb = false ∧ ((at0 .ld).readSpr .gtb).isSome = true ∧
    sprReads .relpol = true ∧ (super .ctl).me.sup = true ∧ ((super .ctl).readSpr .relpol).isSome = true ∧
    sprReads .efpc = true ∧ ((super .ctl).readSpr .efpc).isNone = true := by decide +kernel

theorem test_meets_SpecialWrites : sprPlain .tvec = true ∧ sprWrites (super .ld).me.sup .tvec = true ∧
    (super .ld).sprOk .tvec ((super .ld).src (.c 0)) = true ∧ (super .ld).me.depth = 0 ∧
    sprPlain .lstk = true ∧ sprWrites false .lstk = true ∧ (at0 .st).sprOk .lstk ((at0 .st).src (.s 0)) = true ∧
    (super .ld).src (.s 0) &&& ~~~7 = 0 ∧ (super .ex).me.inTrap = false ∧ (super .ex).here.divert = none := by decide +kernel

theorem test_meets_PrivilegeViolations : sprSup .tvec = true ∧ (at0 .ctl).me.sup = false := by decide +kernel

theorem test_meets_SystemCalls : (at0 .st).me.inTrap = false ∧
    (seq0 .st fun q => { q with sup := true, inTrap := true }).me.sup = true ∧
    (seq0 .st fun q => { q with sup := true, inTrap := true }).me.inTrap = true ∧
    (seq0 .st fun q => { q with sup := true, inTrap := true }).me.depth = 0 := by decide +kernel

theorem test_meets_ExecutionTraps :
    ((at0 .ex).src (.s 0) + BitVec.ofInt 64 (4 : BitVec 32).toInt).toNat % 8 ≠ 0 ∧ ((at0 .ex).src (.lit 9)).toNat % 8 ≠ 0 ∧
    (seq0 .ex (looping 4 2)).me.depth = 4 ∧ loopBusy (seq0 .ex (looping 1 2)).me 0 = true ∧ (at0 .ex).me.depth = 0 ∧
    selfCounter 5 = true ∧ 63 < (fullTokens .ld).here.toks[5].toNat + (1 : BitVec 6).toNat ∧
    (at0 .ld).here.toks[5].toNat < (1 : BitVec 6).toNat ∧
    (at0 .ld fun k => { k with bqs := k.bqs.set 1 (.replicate 16 true) }).here.bqRoom Seq.ld.num = false ∧
    (super .ex).me.sup = true ∧ (at0 .ctl fun k => { k with rq := [⟨1, 2⟩] }).here.rq = [⟨1, 2⟩] ∧
    sprWrites true .gtb = false ∧ (super .ctl).sprOk .efctl 0 = false := by decide +kernel


/-- Core 0 runs a strand with 64 rows at stage 0 of launch 1, a stage whose queue takes 256 entries and holds `n`. -/
def st0 : Strand := ⟨0, 65536, 64, 0, 1, 0, true, 8, []⟩
def launch0 (n : Nat) : Launch :=
  ⟨1, 0, 0, 64, 8, 65536, [], [⟨.replicate 4 0, 1, 4, 256, false⟩], [⟨.replicate n 0, 0, false, 0⟩], true, 0, none⟩
def manned (q : Seq) (n : Nat) (f : Core → Core := id) : State :=
  ({ at0 q (fun k => f { k with strand := some st0 }) with clusters := State.reset.clusters.set 0 ⟨[], [], [], [launch0 n], 0, 0, 2100, 0, 0⟩ } : State)

/-- A command that CTL issued at 0x40. -/
def cmd (i : Instr) : EngCmd :=
  ⟨i, 0x40, 0, false, 0, 0, 0, 0, 0, .replicate 8 0, false, false, 0, 0, none, 0, false, false, none, [], ⟨0, 0, false, []⟩⟩

theorem test_meets_TrapsBeforeInstructions : (at0 .ex).me.inTrap = false ∧ (at0 .ex).here.ex.pend = [] ∧
    (seq0 .ld fun q => { q with inTrap := true }).me.inTrap = true ∧
    (seq0 .ld fun q => { q with sevTrap := some (.severitySV2, 64) }).me.sevTrap = some (.severitySV2, 64) ∧
    (at0 .ctl fun k => { k with gath := ⟨[cmd .nop], some .pageFault, none, 0⟩ }).here.gath.cur = some (cmd .nop) := by decide +kernel

/-- An operation's sources are at hand, with tags that agree or not, and its destination has room or not. -/
def laneMeets (op : Option LaneOp) (s : State) (tags room : Bool) : Bool :=
  match op with
  | some o =>
    match s.here.readAll o.srcs with
    | some (vs, _) => tagsOk o.tag vs == tags && s.here.dstRoom o.dst == room
    | none => false
  | none => false

/-- EX with an entry of a tag in q0 and q8 full. -/
def queued (tag : BitVec 8) : State := at0 .ex fun k =>
  ((k.onQueue 0 fun d => d.push ⟨tag, 0, 0⟩).onQueue 8 fun d => { d with entries := .replicate 8 ⟨0, 0, 0⟩ })

theorem test_meets_LaneIntegers : laneMeets (laneInts (.vadd true ⟨.q 1, .i8, 7, true, .v 3, .q 0⟩)) (queued (ltyTag .i8)) true true = true ∧
    (Instr.vadd true ⟨.q 1, .i8, 7, true, .v 3, .q 0⟩).wf = true := by decide +kernel

theorem test_meets_LaneFloats : laneMeets (laneFloats (.vfma false true ⟨.v 63, .bf16, 0, false, .v 1, .v 2, .v 3⟩)) (at0 .ex) true true = true ∧
    (Instr.vfma false true ⟨.v 63, .bf16, 0, false, .v 1, .v 2, .v 3⟩).wf = true := by decide +kernel

theorem test_meets_LaneMoves : laneMeets (laneMoves (.vmov ⟨.v 1, .i8, 0, false, .q 0⟩) (at0 .ex)) (queued 0) true true = true ∧
    (Instr.vmov ⟨.v 1, .i8, 0, false, .q 0⟩).wf = true := by decide +kernel

theorem test_meets_Accumulators : laneMeets (laneAccs (.amov ⟨.q 1, .fp32, 0, false, .a 3⟩ 3)) (at0 .ex) true true = true ∧
    (Instr.amov ⟨.q 1, .fp32, 0, false, .a 3⟩ 3).wf = true := by decide +kernel

theorem test_meets_LaneConversions : laneMeets (laneBlocks (.vcvt false false .fp32 ⟨.v 2, .bf16, 0, false, .v 1⟩ 0)) (at0 .ex) true true = true ∧
    (Instr.vcvt false false .fp32 ⟨.v 2, .bf16, 0, false, .v 1⟩ 0).wf = true := by decide +kernel

theorem test_meets_TermBundles : (at0 .ex).cur.2 = .ex ∧ (at0 .ex).here.ex.pend = [] := by decide +kernel

theorem test_meets_CompareAndConstants : condTrue .lt (tyInt .i32 0x80000000) (tyInt .i32 0) (tyNat .i32 0x80000000) (tyNat .i32 0) ∧
    ¬condTrue .ltn (tyInt .i32 0x80000000) (tyInt .i32 0) (tyNat .i32 0x80000000) (tyNat .i32 0) := by
  constructor <;> simp only [condTrue] <;> decide

theorem test_meets_DecodeThenEncode : reads .ex 0x3200000000000000 0 true .nop = true := by decide

theorem test_meets_LaneWaits :
    (laneInts (.vnot ⟨.v 1, .i8, 0, false, .q 0⟩)).any (fun o => ((at0 .ex).here.readAll o.srcs).isNone) = true ∧
    laneMeets (laneInts (.vnot ⟨.q 0, .i8, 0, false, .q 0⟩)) (queued 0) true false = true ∧
    laneMeets (laneInts (.vabs false ⟨.v 1, .i8, 0, false, .q 0⟩)) (queued (ltyTag .fp32)) false true = true ∧
    (Instr.vnot ⟨.q 0, .i8, 0, false, .q 0⟩).wf = true ∧ (Instr.vabs false ⟨.v 1, .i8, 0, false, .q 0⟩).wf = true := by decide +kernel

theorem test_meets_Reductions : (redCombine (.vredAdd ⟨.s 1, .i32, 0, false, .q 0, 6⟩)).isSome = true ∧
    (Instr.vredAdd ⟨.s 1, .i32, 0, false, .q 0, 6⟩).wf = true ∧ (Instr.vredMax ⟨.lanes (.q 1), .i32, 0, false, .v 0, 0⟩).wf = true ∧
    ((queued 0).here.readAll [.q 0]).isSome = true ∧ (at0 .ex).here.dstRoom (.q 1) = true := by decide +kernel

/-- With no active lane the result is all ones. -/
theorem test_meets_MaxWithIndex : Instr.wf (.vmaxi ⟨.s 1, .i16, 1, false, .v 0, 7⟩) = true ∧
    ((at0 .ex).here.readAll [.v 0]).isSome = true ∧ (at0 .ex).here.mask 1 = 0 ∧
    Instr.wf (.vmaxi ⟨.lanes (.v 1), .i16, 0, false, .v 0, 0⟩) = true := by decide +kernel

theorem test_meets_Masks : (laneCompare (.vcmpLt ⟨7, .fp32, 0, false, .v 1, .sc (.lit 0)⟩)).isSome = true ∧
    Instr.wf (.vcmpLt ⟨7, .fp32, 0, false, .v 1, .sc (.lit 0)⟩) = true ∧
    ((at0 .ex).here.readAll [.v 1, .sc (.lit 0)]).isSome = true ∧ (maskLogic (.kand 1 2 3) (at0 .ex).here).isSome = true := by
  decide +kernel

theorem test_meets_BranchOutcomes : Instr.wf (.vbq .i8 0 (.v 1) 3 true) = true ∧ (at0 .ex).here.bqRoom 3 = true ∧
    ((at0 .ex).here.readAll [.v 1]).isSome = true := by decide +kernel

theorem test_meets_Splices :
    (at0 .ex fun k => { k with ex := { k.ex with splret := 0x10009 } }).here.ex.splret.getLsbD 0 = true ∧
    (({ at0 .ex with splices := [⟨0, 0, 0x20000, 1⟩] } : State).spliceOf 0 0 0).isSome = true ∧
    (at0 .ex).here.ex.splret.getLsbD 0 = false ∧ (at0 .ex).spliceOf 0 0 0 = none := by decide +kernel

/-- DEFER with all lanes, or with none, to a stage that is there, and one that is not; a full queue; DRAIN with an entry, with none and
with 256. -/
theorem test_meets_StageQueues : (manned .ex 0).stageCount 0 = 1 ∧
    (deferred (manned .ex 0).here ((manned .ex 0).here.mask 0) 0 1 3).length = 256 ∧
    deferred (manned .ex 0).here ((manned .ex 0).here.mask 1) 0 1 3 = [] ∧
    256 + (manned .ex 0).here.ownReserved 0 ≤ 256 ∧ ((manned .ex 1).stageRec 0 0).any (fun p => p.2.entries.length == 1) = true ∧
    256 < 256 + (manned .ex 0 fun k => { k with fx := [.defer 0 [0]] }).here.ownReserved 0 ∧
    (manned .ld 0).here.strand = some st0 ∧ ((manned .ld 256).stageRec 0 0).any (fun p => p.2.entries.length == 256) = true ∧
    (0x3000 : BitVec 32).extractLsb' 26 6 = 0 ∧ ((0x3000 : BitVec 32).extractLsb' 8 11).toNat + 16 ≤ st0.rows ∧
    (∀ i, i < 16 → (manned .ld 0).here.rowBusy (48 + i) = false) := by decide +kernel

/-! ### Accesses -/

/-- The page of VA 0x10000 at PA 0x20000, of a layout: readable, writable, stash allowed, owned by VF 0; its translation is in the
core's TLB. Shape 1 stands at its start. -/
def pte0 (code : Nat) : Word := BitVec.ofNat 64 (2 ^ 63 + code * 2 ^ 55 + 0x20000 + 2 ^ 12 + 2 ^ 9 + 2 ^ 8)
def mapped (q : Seq) (code : Nat) (f : Core → Core := id) : State := manned q 0 fun k =>
  f { k with tlb := [mkTlb 0 0x10000 (pte0 code) false], shapes := k.shapes.set 1 ((Vector.replicate 8 0).set 0 0x10000) }

/-- With window 0 over the first row of the page, and an entry in q12. -/
def windowed (q : Seq) (code : Nat) (f : Core → Core := id) : State := mapped q code fun k =>
  f ({ k with wins := k.wins.set 0 (some ⟨0x10000, 0, 0, 1⟩) }.onQueue 12 fun d => d.push ⟨0, 5, 0⟩)

def planOk (s : State) (kind : Kind) (o : MOp) : Bool :=
  match s.plan kind o.base o.sh o.gran o.off with
  | (v, .ok a) => match v.touchAll s.cur.1 s.cur.2 s.me.pc (kind != .strm) o.hint a.rows with
    | (_, .ok) => true
    | _ => false
  | _ => false

def free0 (kind : Kind) (o : MOp) (s : State) : Bool :=
  !s.here.shapePending s.cur.2 o.sh && s.here.accessRoom s.cur.2 && (if kind.store then (s.here.entryFor o.q).isSome else s.here.room o.q)

/-- A read of the line at 0x20000, and slices with no entry left. -/
def lineReq : SliceReq := ⟨0, 0, 8, 0x10000, 0x20000, 15, 0, .read 0 .none⟩
def slicesFull (s : State) : State := { s with slices := s.slices.map fun x => { x with queue := .replicate 16 lineReq } }

def slicesHave (s : State) : Bool × Bool :=
  match s.plan .ldl 0 1 .line 0 with
  | (v, .ok a) =>
    ((v.fullSlice v.cur.1 (partReqs v 0 a.fmt.page .none (partsOf a .ldl .line))).isNone,
      (v.here.windowOf a.ea).isNone && (v.fullSlice v.cur.1 (v.prefReqs a .line .none)).isNone)
  | _ => (false, false)

theorem test_meets_MemoryLoads :
    free0 .ldr ⟨0, 0, 1, .row, .none, 0⟩ (windowed .ld 0) = true ∧ planOk (windowed .ld 0) .ldr ⟨0, 0, 1, .row, .none, 0⟩ = true ∧
    free0 .ldl ⟨0, 0, 1, .line, .none, 0⟩ (mapped .ld 0) = true ∧
    slicesHave (mapped .ld 0) = (true, true) ∧ slicesHave (slicesFull (mapped .ld 0)) = (false, false) ∧
    (at0 .ld fun k => k.onQueue 13 fun d => d.push ⟨0, 5, 0⟩).here.queues[13].entries = [⟨0, 5, 0⟩] ∧
    (match (windowed .ld 0).translate 0x10000 with
      | (v, .leaf p big) => (v.here.windowOf 0x10000).isSome && !v.dieOut (leafPa p big 0x10000)
      | _ => false) = true ∧
    (mapped .ld 0).here.windowOf 0x10000 = none ∧ planOk (windowed .ld 0) .pref ⟨0, 0, 1, .row, .none, 0⟩ = true := by decide +kernel

theorem test_meets_AccessStops : free0 .ldr ⟨0, 0, 1, .row, .none, 0x80000000⟩ (mapped .ld 0) = true ∧
    2 ^ 48 ≤ ((mapped .ld 0).eaOf 0 1 0x80000000 false).toNat ∧ ((mapped .ld 0).here.shape 1).bad = false ∧
    ((mapped .ld 0).here.shape 1).stream = false ∧
    (match (mapped .ld 0x18).plan .ldr 0 1 .row 0 with | (_, .error (.trap _ _)) => true | _ => false) = true ∧
    (match (mapped .ld 0).plan .ldr 0 1 .row 0x100000 with | (_, .error (.wait _)) => true | _ => false) = true ∧
    (match (mapped .ld 0 fun k => { k with tlb := [mkTlb 0 0x10000 (pte0 0 ||| 0x800) false] }).plan .ldr 0 1 .row 0 with
      | (_, .error (.violation _ _)) => true | _ => false) = true := by decide +kernel

theorem test_meets_AccessPlans : planOk (windowed .ld 0) .ldr ⟨0, 0, 1, .row, .none, 0⟩ = true ∧
    accessCheck (pte0 0) 0 false ⟨true, true, true⟩ = .ok ∧
    accessCheck (pte0 0 ||| 0x800) 0 false ⟨true, true, true⟩ = .violation .supervisorPage ∧
    accessCheck (pte0 0 &&& ~~~0x1000) 0 false ⟨true, false, true⟩ = .fault .stashNotAllowed := by decide +kernel

/-- A store of a RAW entry, of one of another layout, to a discarded page. -/
theorem test_meets_MemoryStores :
    free0 .str ⟨12, 0, 1, .row, .none, 0⟩ (windowed .st 0x0B) = true ∧ planOk (windowed .st 0x0B) .str ⟨12, 0, 1, .row, .none, 0⟩ = true ∧
    (windowed .st 0x0B).here.entryFor 12 = some ⟨0, 5, 0⟩ ∧
    (windowed .st 0x0B fun k => k.onQueue 12 fun d => { d with entries := [⟨0x0C, 5, 0⟩] }).here.entryFor 12 = some ⟨0x0C, 5, 0⟩ ∧
    (match (windowed .st 0 fun k => { k with tlb := [mkTlb 0 0x10000 (pte0 0 ||| 0x0020000000000000) false] }).plan .str 0 1 .row 0 with
      | (_, .ok a) => pteDiscard a.pte == 1
      | _ => false) = true := by decide +kernel

/-- A BMV step of one row, its block zero, whose row is at hand or has still to come. -/
def bmvState (stash : List StashRow) : State := windowed .st 0x11 fun k => { k with
  stash := stash, pad := k.pad.set 0 ⟨0x11, 0, 0, []⟩
  shapes := k.shapes.set 1 (((Vector.replicate 8 0).set 0 0x10000).set 1 1 |>.set 4 0x10B) }

def bmvMeets (s : State) : Bool × Bool :=
  match s.plan .str 0 1 .row 0 with
  | (v, .ok a) =>
    match (a.fmt.conv && isBmv a.fmt.page && v.here.stores.isEmpty), v.touchAll 0 .st 0 true .none a.rows with
    | true, (w, .ok) => (a.rows.any fun t => w.here.comingAt t.va,
      match w.blockBits 0 a.fmt.page (a.rows.map fun t => (t.va, t.pa)) with
      | some x => (match storeBmv a.fmt 0 x with | .block _ _ => true | _ => false)
      | none => false)
    | _, _ => (false, false)
  | _ => (false, false)

theorem test_meets_BmvStore : bmvMeets (bmvState [⟨0, 0, 0x10000, 0x20000, 0x11, 0, true, false, .filled⟩]) = (false, true) ∧
    bmvMeets (bmvState []) = (true, false) := by decide +kernel

/-- Rows of core 0 and core 1, at both ends of what is claimed. -/
theorem test_meets_Scratchpads : (manned .ld 0).here.accessRoom .ld = true ∧ (manned .ld 0).claimant 0 63 = some 0 ∧
    (manned .ld 0).claimant 0 64 = none ∧ (manned .ld 0).claimant 1 0 = none ∧
    ((manned .ld 0).onCore 1 fun k => { k with strand := some { st0 with ctx := 5 } }).claimant 1 0 = some 5 ∧
    (manned .ld 0).here.ctx = 0 ∧ (manned .ld 0).here.room 12 = true ∧ (manned .ld 0).here.rowBusy 63 = false ∧
    ((manned .st 0 fun k => k.onQueue 12 fun d => d.push ⟨0, 5, 0⟩).here.entryFor 12).isSome = true := by decide +kernel

theorem test_meets_ShapesAndWindows : (manned .ld 0).here.shapePending .ld 0 = false ∧ (manned .ld 0).here.shapeUsed .ld 0 = false ∧
    ((manned .st 0).reg 0).toNat % 256 = 0 ∧ (∀ j : Fin 16, (manned .st 0).here.wins[j] = none) ∧ (manned .st 0).here.stash = [] ∧
    (manned .st 0).here.strand = some st0 ∧ (at0 .st).here.strand = none ∧ (windowed .st 0).here.wins[0] = some ⟨0x10000, 0, 0, 1⟩ := by
  decide +kernel

theorem bytes_nil (a n : Nat) : Memory.bytes [] a n = 0 := by
  induction n generalizing a with
  | zero => rfl
  | succ n ih => simp [Memory.bytes, Memory.get, cellGet, ih]

theorem test_meets_TouchKeepsBytes : State.reset.Healthy ∧
    (match State.touchAll (windowed .ld 0) 0 .ld 0 true .none [⟨0x10000, 0x20000, 0, false⟩] with | (_, .ok) => true | _ => false) = true := by
  refine ⟨⟨⟨by decide, by decide⟩, rfl, fun n => rfl, fun n _ => ?_, .nil, by simp [State.reset]⟩, by decide +kernel⟩
  show BitVec.ofNat 256 (Memory.bytes [] (32 * n) 32) = 0
  rw [bytes_nil]; rfl

/-- A load, a store and a push in flight. -/
def load0 (src : LoadSrc) : Load :=
  ⟨0, .ld, { SeqSt.reset with pc := 8 }, 0x10000, 0x20000, .row, ⟨0, 0, false, 0, 0, 0, false, false, 0⟩, false, .queue 0, src, none⟩
def store0 (op : StoreOp) : Store :=
  ⟨0, { SeqSt.reset with pc := 8 }, 12, 0x10000, .row, ⟨0, 0, false, 0, 0, 0, false, false, 0⟩, [(0x10000, 0x20000)], op, none⟩
def held0 (q : Seq) (tag : Layout) : State := windowed q 0 fun k => { k with
  stash := [⟨0, 0, 0x10000, 0x20000, 0, 0, true, false, .filled⟩], pad := k.pad.set 0 ⟨tag, 0, 0, []⟩ }

def gathers (s : State) (l : Load) : Bool × Bool :=
  match s.gather 0 l with
  | (_, .data _ _) => (true, false)
  | (_, .fault _) => (false, true)
  | _ => (false, false)

/-- The slice of that line, and the L2 with the line in it. -/
def lineSlice : Fin 128 := sliceOf (0x20000 / 128)
def held128 : State := { State.reset with l2 := [⟨0x20000 / 128, 0, 0, 0, .replicate 4 0, 0, 15, 0, []⟩] }

theorem test_meets_Arrivals : (held0 .ld 0).here.stashAt 0x10000 = some ⟨0, 0, 0x10000, 0x20000, 0, 0, true, false, .filled⟩ ∧
    ((held0 .ld 0).padRow 0 0).tag = 0 ∧ ((held0 .ld 0).padRow 0 0).flips = [] ∧
    gathers (mapped .ld 0) (load0 (.lines [⟨0x10000, 0x20000, 15, .got 7 []⟩])) = (true, false) ∧
    gathers (mapped .ld 0) (load0 (.lines [⟨0x10000, 0x20000, 15, .refused⟩])) = (false, true) ∧
    (held0 .st 0).here.queues[12].entries = [⟨0, 5, 0⟩] ∧
    (held0 .st 5).blockBits 0 0 [(0x10000, 0x20000)] = none ∧
    ((held0 .st 0).core 0).ex.pushes = [] ∧ (held0 .st 0).clkOf 0 = 0 ∧
    State.reset.RecordClean ∧ gathers (mapped .ld 0) (load0 (.lines [⟨0x10000, 0x20000, 15, .asked⟩])) = (false, false) ∧
    (State.reset.hitsL2 lineSlice lineReq = false ∧ State.reset.slices[lineSlice].miss.length < 32) ∧
    held128.hitsL2 lineSlice lineReq = true ∧
    (held128.onSlice lineSlice fun x => { x with miss := .replicate 32 lineReq }).hitsL2 lineSlice lineReq = false ∧
    (match State.reset.homeRead ⟨0, 8, false⟩ 0x20000 15 0 .none with | (_, .got _ _) => true | _ => false) = true ∧
    (0x20000 : Nat) / 128 < 2 ^ 33 := by
  unfold State.RecordClean
  decide +kernel

/-- The store's row: it is there, or comes, or an STRM has taken it. -/
def rowIs (u : RowUse) : Core := { (windowed .st 0).here with stash := [⟨0, 0, 0x10000, 0x20000, 0, 0, true, false, u⟩] }

theorem test_meets_store_rows : (rowIs .filled).comingAt 0x10000 = false ∧ (rowIs .taken).comingAt 0x10000 = true ∧
    (rowIs (.filling 0 .ld .asked .asked)).comingAt 0x10000 = true ∧ ((rowIs .taken).rowAt 0x10000).any (fun h => !h.drop) = true ∧
    ((rowIs .held).rowAt 0x10000).all StashRow.ready = true := by decide +kernel

/-- An access of a sequencer in flight, before which LD took 60 units of its own counter, which a fault of the access puts back. -/
def accessing (q : Seq) : State := manned q 1 fun k => { k with
  loads := [{ load0 (.pad 0 0) with seq := q }], undo := [⟨1, q, .tokens 5 60⟩] }

/-- Loops, open; a loop whose end is that of the one above it; accesses that may yet fault; a splice that a core's LATT read; a row
refused for its layout. -/
theorem test_meets_open_loops : (looping 2 1 .reset).depth = 2 ∧ (looping 4 2 .reset).depth ≤ 4 ∧
    (looping 2 1 .reset).loops[(looping 2 1 .reset).top].lend = 24 ∧ (seq0 .ex (looping 1 2)).me.bodyHolds 0 16 ∧
    ¬(seq0 .ex (looping 1 2)).me.bodyHolds 0 24 := by
  unfold SeqSt.bodyHolds
  decide +kernel

theorem test_meets_in_flight : (accessing .ld).here.inFlight .ld = 1 ∧ (manned .ld 1).here.inFlight .ld = 0 ∧
    (accessing .ld).here.performed .ld = false ∧ (accessing .ld).here.heldTokens 5 = 60 ∧ (accessing .ld).here.performed .ctl = true ∧
    (accessing .ld).here.toks[5].toNat + (4 : BitVec 6).toNat ≤ 63 ∧ (accessing .ld).here.heldTokens 4 = 0 ∧
    ((accessing .ld).stageRec 0 0).any (fun p => !drainWaits .any p.1.depth p.2.entries.length p.2.flushed) = true ∧
    ((accessing .ld).stageRec 0 0).any (fun p => drainWaits .full p.1.depth p.2.entries.length p.2.flushed) = true ∧
    (accessing .ld).errs = [] := by decide +kernel

theorem test_meets_splice_read : (at0 .ex fun k => { k with latt := [⟨0, 0, 2, [], some 0x20000⟩] }).spliceOf 0 0 0 = some 0x20000 ∧
    ((rowIs .refused).refusedAt 0x10000) = true ∧ (rowIs .held).refusedAt 0x10000 = false ∧
    (windowed .st 0x11 fun k => { k with stores := [store0 (.stash false false)] }).here.stores ≠ [] := by decide +kernel

/-! ### Upkeep -/

/-- The page table of context 0: its root at 0x30000, one pointer to 0x40000, one to 0x50000, one leaf; the context table at 0. -/
def tables : State :=
  let w8 : Memory → Nat → Nat → Memory := fun m a x => Memory.putBytes m a x 8
  let mem := w8 (w8 (w8 (w8 (w8 [] 0 0x30000) 24 1) 0x30000 (2 ^ 63 + 0x40000)) 0x40000 (2 ^ 63 + 0x50000)) 0x50008 (pte0 0).toNat
  { at0 .ld with mem := mem, marks := [0, 0x1800, 0x2000, 0x2800].map fun n => (n, ⟨0, 0, 0, []⟩) }

def walks (s : State) (va : Word) : Bool × Bool :=
  match s.walk ⟨0, 8, false⟩ va with
  | (_, .leaf _ _) => (true, false)
  | (_, .fault _) => (false, true)
  | _ => (false, false)

theorem test_meets_Translations : walks tables 0x10000 = (true, false) ∧ walks tables 0x20000 = (false, true) ∧
    State.reset.clusters[0].walks = [] ∧ ((0x0800000000000000 : Word).extractLsb' 58 2).toNat = 2 := by decide +kernel

theorem test_meets_FlushAndRelease :
    (seq0 .ctl fun q => { q with sr := { q.sr with l2flo := 0, l2fhi := 128 } }).me.sr.l2flo.toNat <
      (seq0 .ctl fun q => { q with sr := { q.sr with l2flo := 0, l2fhi := 128 } }).me.sr.l2fhi.toNat ∧
    (0x10001 : Word).extractLsb' 1 15 = 0 ∧ (0x10001 : Word).extractLsb' 47 17 = 0 := by decide +kernel

theorem test_meets_release_idle : (State.reset.relUnmap 0x10001).relWaits 0x10001 = false := by
  simp [State.relWaits, State.relUnmap, State.reset, Core.relBusy, Core.reset]

/-- A sector with flips; a line with one. -/
def flipped (ps : List Nat) : State := { at0 .ctl with marks := [(4, ⟨0, 0, 0, ps⟩)] }
def wornLine : L2Line := ⟨1, 0, 0, 0, .replicate 4 0, 0, 15, 0, [288 * 3 + 5]⟩

theorem test_meets_ScrubAndInject : ((flipped []).word 4).flips = [] ∧ ((flipped [5]).word 4).flips ≠ [] ∧
    (check (secKind 0 0 4) true [5]).sev = .sv0 ∧ (check (secKind 0 0 4) true [5]).wild = false ∧
    (check (secKind 0 0 7) false [5]).sev = .sv0 ∧ (check (secKind 0 0 7) false [5]).left = [] ∧
    ({ at0 .ctl with l2 := [wornLine] } : State).lineAt 1 = some wornLine ∧ State.reset.rel.relpol.extractLsb' 8 8 = 0 ∧
    injValueOk 0x20000014 = true ∧ injTargetOk 0x20000014 0x80 = true ∧ injValueOk 0x20000015 = true ∧
    injTargetOk 0x20000015 0x80 = true ∧ injValueOk 0x20000016 = true ∧ injTargetOk 0x20000016 0x80 = true := by decide +kernel

/-! ### Commands and engines -/

def o0 (imm : BitVec 10) : CCmd := ⟨false, 0, 0, 0, 0, 0, 0, 0, .core, .rlx, imm⟩

/-- Commands in the gather queue, the code queue, the stage queue, the tensor queue of core 0. -/
def gathers0 (ms : List EngCmd) : State := manned .ctl 1 fun k => { k with gath := ⟨ms, none, none, 0⟩ }
def codes0 (ms : List EngCmd) (f : Core → Core := id) : State := manned .ctl 1 fun k => f { k with code := ⟨ms, none, none, 0⟩ }
def stages0 (ms : List EngCmd) (f : Core → Core := id) : State := manned .ctl 1 fun k => f { k with stg := ⟨ms, none, none, 0⟩ }
def tensor0 (f : Tensor → Tensor) : State := manned .ctl 1 fun k => { k with tens := f k.tens }

theorem test_meets_CommandsIssue : queuedCmd (.dflush (o0 0)) = some (.stage, o0 0) ∧ (manned .ctl 1).cmdStop (.dflush (o0 0)) = none ∧
    (manned .ctl 1).cmdStop (.dflush (o0 1)) = some .reservedOperand ∧ (manned .ctl 1).me.inTrap = false ∧
    (stages0 (.replicate 8 (cmd .nop))).cmdStop (.stgq (o0 0)) = none ∧
    Engine.stage.depth ≤ ((stages0 (.replicate 8 (cmd .nop))).here.engine .stage).cmds.length ∧
    ((manned .ctl 1).reg 0).toNat < 4096 ∧
    4096 ≤ ((manned .ctl 1 fun k => k.onSeq .ctl fun q => q.setReg 1 4096).reg 1).toNat := by decide +kernel

/-- A nest that runs, and one that has been entered and waits for its A slot. -/
def nest0 (next : Nat) : Nest := ⟨0, 1, [], .enter, 0, 0, 0, cmd (.tgo (o0 8)), next⟩

theorem test_meets_TensorStatus : (manned .ctl 1).here.rqRoom = true ∧ (∀ n : Fin 4, (manned .ctl 1).here.tens.tiles[n].wm ≤ 32) ∧
    (tensor0 fun t => { t with q := { t.q with halted := some .tensorFormat } }).here.tens.q.halted = some .tensorFormat ∧
    (tensor0 fun t => { t with nest := some (nest0 0) }).here.tens.nest = some (nest0 0) := by decide +kernel

theorem test_meets_TensorWaitsAndDiscards : (manned .ctl 1).here.tens.q.halted = none ∧ (manned .ctl 1).here.tens.q.cmds = [] ∧
    (manned .ctl 1).here.tens.nest = none ∧ 32 + 1 ≤ (manned .ctl 1).here.claimed ∧ 2048 ≥ (manned .ctl 1).here.claimed ∧
    (o0 0x21).imm.getLsbD 5 = true ∧ (o0 0x41).imm.getLsbD 5 = false ∧ (o0 0x41).imm.getLsbD 6 = true ∧
    (manned .ctl 1).spillRows 0 [0] true ≤ 64 ∧ (manned .ctl 1).here.claimed < 32 + 33 ∧
    (tensor0 fun t => { t with q := { t.q with cmds := [cmd .nop] } }).here.tens.q.cmds ≠ [] := by decide +kernel

/-- The word of a BF16 ring: role, index row, sub-tiles, rows of a slot, slots, base. -/
def ringWord (role ix : Bool) (ks srows count base : Nat) : Word :=
  BitVec.ofNat 64 (0x0B * 2 ^ 31 + bit ix 30 + bit role 29 + ks * 2 ^ 25 + srows * 2 ^ 18 + count * 2 ^ 11 + base)

/-- Ring 0 takes A and ring 1 B, both with an index row; shape 2 reads a BF16 matrix of 24 by 1 into ring 0, shapes 3 and 4 cut
coordinates 0 to 2 of a dense operand into ring 0 and ring 1. -/
def ringed : State :=
  let shape : List (Fin 8 × Nat) → Shape := fun l => l.foldl (fun x p => x.set p.1 (BitVec.ofNat 64 p.2)) (.replicate 8 0)
  let s := mapped .ld 0x0B fun k => { k with
    tens := { k.tens with rings := (k.tens.rings.set 0 (.make (ringWord false true 2 13 2 0))).set 1 (.make (ringWord true true 2 25 1 26)) }
    shapes := ((k.shapes.set 2 (shape [(0, 0x10000), (1, 0x10018), (2, 128 * 2 ^ 32)])).set 3
      (shape [(0, 0x10000), (2, 128 * 2 ^ 32), (5, 3 * 2 ^ 24), (6, 32 * 2 ^ 24)])).set 4
      (shape [(0, 0x10000), (2, 128 * 2 ^ 32), (4, 2 ^ 32), (5, 3 * 2 ^ 24), (6, 64 * 2 ^ 24)]) }
  s.onCluster 0 fun u => { u with tlb := [mkTlb 0 0x10000 (pte0 0x0B) false] }

def ldtMeets (s : State) : Bool :=
  let S := s.here.shape 2
  let D := s.here.shape 0
  let r := s.here.ring 0
  match s.resolve 0x10000 with
  | (v, .ok (p, _)) =>
    (S.ring.toNat % 8 == 0) && !ldtBad S D r.lines && r.count != 0 && r.room && S.code == 0 && D[0] == 0 && pteCode p == r.fmt &&
    accessCheck p (vfOf s.here.ctx) s.me.sup ⟨true, false, false⟩ == .ok && (S.d 1).toNat % pitchUnit (pteCode p) == 0 &&
    match v.resolveSub 0x10000 (pteCode p) (subRows (pteCode p) 0 (S.d 1).toNat 24 1) [] with
    | (_, .ok _) => true
    | _ => false
  | _ => false

theorem test_meets_RingLoads : ldtMeets ringed = true ∧ ringed.here.shapePending .ld 2 = false ∧
    ringed.here.accessRoom .ld = true ∧ ringed.here.room 0 = true ∧ 32 ≤ (ringed.reg 0 + (31 : BitVec 5).setWidth 64).toNat + 1 ∧
    (tensor0 fun t => { t with tiles := t.tiles.set 0 ⟨.replicate 32 0, 32, true⟩ }).here.tens.tiles[0].wm = 32 := by decide +kernel

def cutMeets (s : State) : Bool :=
  match s.cutOp 0 3 0 with
  | .ok o =>
    let r := s.here.ring o.ring
    let k0 := max (bwHi s.here.bounds[0]) o.lo
    let v := (s.mod fun k => (k.setRing o.ring r.claimSlot.2).noteClaim o.ring r.fillp).cutStart s.cutting o r.fillp 0 k0
    (r.inCut .held).isEmpty && (r.inCut .cutting).isEmpty && r.roomWhole &&
      match v.cutLoop s.cutting o (v.here.ring o.ring) r.fillp 0 (o.hi - k0) .new ⟨k0, none, []⟩ with
      | (_, .ok a) => a.taken == [0, 1, 2]
      | _ => false
  | .error _ => false

/-- A follower of what ring 0 holds. -/
def folMeets (s : State) : Bool :=
  match s.cutOp 0 4 0 with
  | .ok o =>
    let d := s.here.ring 0
    let r := s.here.ring o.ring
    match (d.inCut .held).find? fun i => (d.slot i).creg == 0 with
    | some ds =>
      d.role != r.role && r.roomWhole &&
      match (s.mod fun k => (k.setRing o.ring r.claimSlot.2).noteClaim o.ring r.fillp).getIndex s.cutting d ds with
      | (v, some (lo, list)) =>
        match v.follow s.cutting o .new list with
        | (w, .ok live) =>
          let (kept, _, _) := followWord s.here.bounds[0] list live (24 * (r.ks - 1))
          match w.followRows s.cutting o .new kept with
          | (y, .ok _) => (y.trim s.cutting d ds list kept lo 0).2
          | _ => false
        | _ => false
      | _ => false
    | none => false
  | .error _ => false

theorem test_meets_Cuts : cutMeets ringed = true ∧
    (match exec (.tcut true 0 0 3 0) ringed with | .next t => folMeets t | _ => false) = true ∧
    (match ringed.cutOp 0 4 0 with | .ok o => o.ring == 1 && ((ringed.here.ring 0).inCut .held).isEmpty | _ => false) = true := by
  decide +kernel

/-- Nobody stands in the way of a core's units, its engines, its cluster's walkers; a walk that waits, with its translation at hand, and
one that no slice takes in. -/
def walking (va : Word) (f : State → State := id) : State := (f tables).onCluster 0 fun u => { u with walks := [⟨0, .ld, 0, va, false⟩] }

theorem test_meets_unhindered : (manned .ctl 1).Unhindered none ∧ (manned .ctl 1).Unhindered (unitOfCore 0) ∧
    (manned .ctl 1).Unhindered (engineOf 0) ∧ (walking 0x10000).Unhindered (walkerOf 0) ∧ (manned .ctl 1).Clear 0x20000 512 ∧
    (manned .ctl 1).Calm 0x20000 512 ∧ (held0 .st 0).errs = [] := by
  unfold State.Calm State.Clear State.Unhindered
  decide +kernel

theorem test_meets_walks : walks (walking 0x10000) 0x10000 = (true, false) ∧ walks (walking 0x20000) 0x20000 = (false, true) ∧
    ((walking 0x20000).walk ⟨0, 8, false⟩ 0x20000).1.clusters[0].walks.length = 1 ∧
    (∀ n : Fin 128, 16 ≤ (walking 0x10000 slicesFull).slices[n].queue.length) ∧ (walking 0x10000).hindered = none ∧
    (walking 0x10000).spanOut ((walking 0x10000).ctxPlace 0) 64 = false ∧ inHbm ((walking 0x10000).ctxPlace 0) = true := by
  decide +kernel

/-- A store whose row is of another layout than it wrote for is found at fault late. -/
theorem test_meets_late_faults : (held0 .st 5).here.comingAt 0x10000 = false ∧ (held0 .st 5).here.refusedAt 0x10000 = false ∧
    (store0 (.stash false false)).before.inTrap = false ∧ (load0 (.lines [])).before.inTrap = false ∧
    (rowIs .refused).refusedAt (load0 (.stash [(0x10000, 0x20000)])).va = true := by decide +kernel

/-- Errors of words of a core: of s1 of CTL, one flip and two; one of a LATT entry; flips on their way. -/
def upset (u : Guarded) (flips : List Nat) (agenda : List Agendum := []) : State :=
  { manned .ctl 1 (fun k => { k with latt := [⟨0, 1, 2, [], none⟩] }) with errs := [⟨0, u, flips⟩], agenda := agenda }

theorem test_meets_register_errors : (1 : Fin 32) ∈ (Instr.add ⟨.i64, 5, .s 1, .lit 10⟩).uses.s ∧
    (upset (.s .ctl 1) [5]).errs = [⟨(upset (.s .ctl 1) [5]).cur.1, .s .ctl 1, [5]⟩] ∧
    ((upset (.latt 0 1) [3]).flipsAt 0 (.latt 0 1)).length % 2 = 1 ∧ ((manned .ctl 1).core 0).content (.s .ctl 1) ≠ none ∧
    ((manned .ctl 1).core 0).content (.entry 0 0 0) = none ∧ State.reset.gtbq < 189 * 10 ^ 10 * (State.reset.rel.scrubs + 1) ∧
    (upset (.b 0) [1] [.strike 0 (.s .ctl 1) [5]]).agenda = [.strike 0 (.s .ctl 1) [5]] := by decide +kernel

/-- A flip on its way to the last sector of HBM4E, at a sector's last bit. -/
theorem test_meets_flips : (upset (.b 0) [1] [.flip 0 0xFFFFFFFFE0 [0, 287]]).agenda = [.flip 0 0xFFFFFFFFE0 [0, 287]] ∧
    (0xFFFFFFFFE0 : Word).toNat % 32 = 0 ∧ (0xFFFFFFFFE0 : Word).toNat < 2 ^ 40 ∧ (∀ p ∈ [0, 287], p < 288) ∧
    Memory.wf (upset (.b 0) [1]).mem ∧ cellsWf blankWord (upset (.b 0) [1]).marks := by decide +kernel

/-- A stamp that reads as no layout and is corrected, and sectors of another layout that reads, whose codeword is sound or broken. -/
theorem test_meets_stamps : ((flipped [287]).word 4).mends 4 = true ∧ ((flipped [287]).word 4).seen = 0x20 ∧
    (check (secKind 0 0 4) true [287]).sev = .sv0 ∧ ((flipped [282]).word 4).seen = 1 ∧
    (check (secKind 1 0 4) true [282]).broken = false ∧ (check (secKind 0 0 4) true [282]).wild = false ∧
    ((flipped [286, 285, 284]).word 4).seen = 0x1C ∧ ((flipped [286, 285, 284]).word 4).mends 4 = false := by decide +kernel

/-- The checker's copy has another pc than CTL. -/
theorem test_meets_checker_differs : (manned .ctl 1 fun k =>
      { k with chk := { k.chk with copy := some { k.chk.point with pc := 4 } } }).commandDiffers (o0 0) = true ∧
    (manned .ctl 1).commandDiffers (o0 0) = false := by decide +kernel

/-- A line on another package, in a page that may not be read over the fabric: the load that needs it meets a violation. -/
def barredLoad : Load := load0 (.lines [⟨0x10000, 2 ^ 58 + 2 ^ 48, 15, .asked⟩])

theorem test_meets_late_violation : (match ({ mapped .ld 0 with pf := { PfRegs.reset with rt := .replicate 1024 1 } } : State).gather 0 barredLoad with
      | (v, .violation k _) => k == .foreignPage && !v.spanOut v.recordAt 32
      | _ => false) = true ∧ (mapped .ld 0).l2 = [] := by decide +kernel

/-- A cutter that nothing keeps; one before which LD has an access in flight; one whose map lies beyond the addresses. -/
theorem test_meets_cut_stops : ringed.Unhindered (unitOfCore 0) ∧ ringed.here.inFlight .ld = 0 ∧ (accessing .ld).Unhindered (unitOfCore 0) ∧
    (match (ringed.mod fun k => { k with shapes := k.shapes.set 3 ((k.shapes[3]).set 0 (2 ^ 48)) }).cutOp 0 3 0 with
      | .ok o => o.map.extractLsb' 48 16 != 0
      | .error _ => false) = true ∧
    ((ringed.here.ring 0).role == (ringed.here.ring 1).role) = false ∧ ((ringed.here.ring 0).role == (ringed.here.ring 2).role) = true := by
  unfold State.Unhindered
  decide +kernel

/-- A TRD that releases its tile stands behind a load. -/
def releasing0 : State := manned .ld 1 fun k => { k with
  tens := { k.tens with tiles := k.tens.tiles.set 0 ⟨.replicate 32 0, 32, true⟩ }, loads := [load0 (.entry ⟨0x0C, 0, 0⟩ (some 0))] }

theorem test_meets_releases : releasing0.here.releasing 0 = true ∧ releasing0.here.releasing 1 = false ∧
    releasing0.Unhindered (unitOfCore 0) ∧ (load0 (.entry ⟨0x0C, 0, 0⟩ (some 0))).dest = .queue 0 := by
  unfold State.Unhindered
  decide +kernel

/-! ### Engines at work -/

/-- FILL of two rows, NBT, an atomic that has begun. -/
def fillCmd : EngCmd := { cmd (.fill (o0 2)) with c := 512 }
def nbtCmd : EngCmd := cmd (.nbt (o0 1))
def atomCmd : EngCmd := { cmd (.aowAddi32 { o0 0 with scope := .core }) with begun := true, a := 0x10000, c := 1 }

def standing (m : EngCmd) : EngQ := ⟨[m], none, none, 0⟩

theorem stands_alone (m : EngCmd) (h : m.ended = false) : (standing m).StandsAt [] m [] :=
  ⟨rfl, by simp, h, rfl, rfl⟩

theorem test_meets_EngineCommands : (standing fillCmd).StandsAt [] fillCmd [] ∧ (standing nbtCmd).StandsAt [] nbtCmd [] ∧
    (standing atomCmd).StandsAt [] atomCmd [] :=
  ⟨stands_alone _ rfl, stands_alone _ rfl, stands_alone _ rfl⟩

/-- An atomic whose line is in the L2. -/
def atomState : State :=
  let s := gathers0 [atomCmd]
  { s.onCluster 0 fun u => { u with tlb := [mkTlb 0 0x10000 (pte0 0) false] } with
    l2 := [⟨0x20000 / 128, 0, 0, 0, .replicate 4 0, 7, 15, 0, []⟩] }

theorem test_meets_atomics : (atomOf atomCmd.op).any (fun a => scopeLegal a (pte0 0) 0x20000 atomCmd.f.scope atomCmd.f.order) = true ∧
    atomCmd.done < atomCmd.count ∧ atomCmd.listed = false ∧
    (match atomState.reachVa 0 atomCmd.who false ⟨true, true, false⟩ 0x10000 with
      | (w, .ok (p, pa)) => pteCode p == 0 && pa == 0x20000 && (w.lineAt (pa / 128)).isSome && (w.core 0).gath == atomState.here.gath
      | _ => false) = true ∧
    (atomTable atomCmd.op 7 0 0).isSome = true ∧ 512 = 256 * 2 ∧ (∀ i, i < 2 → (gathers0 [fillCmd]).claimant 0 i = some 0) ∧
    engRow fillCmd.b = 0 ∧ engCore fillCmd.b = 0 ∧ (gathers0 [fillCmd]).gtb.toNat = 0 ∧ nbtCmd.owes = true ∧
    fillCmd.owes = false ∧ (gathers0 [nbtCmd]).here.rqRoom = true ∧ (gathers0 [nbtCmd]).here.gath.frozen = none ∧ (gathers0 [nbtCmd]).here.gathHeld = false ∧
    atomState.slices[sliceOf (0x20000 / 128)].queue = [] ∧ atomState.slices[sliceOf (0x20000 / 128)].miss = [] := by decide +kernel

/-- A core whose gather engine holds a command, with pages of indices, of FP32, of FP32 again, of a KV page and of counters, their lines in
the L2: the list is 0, 1, none; the first element begins with 1.0; a chunk of one row has come at 0x30000, with its trailer; slot 0 of the
KV page is live. -/
def atWork (m : EngCmd) (st : Nat := 1) : State :=
  let page : Nat × Nat → TlbEntry := fun p =>
    mkTlb 0 (BitVec.ofNat 64 (p.1 * 0x10000)) (pte0 p.2 + BitVec.ofNat 64 ((p.1 - 1) * 0x10000)) false
  let line : Nat → Layout → Nat → L2Line := fun la tag x => ⟨la, 0, tag, 0, .replicate 4 0, BitVec.ofNat 1024 x, 15, 0, []⟩
  { (gathers0 [m]).onCluster 0 fun u => { u with tlb := [(1, 0x1B), (2, 0x0C), (3, 0x0C), (4, 0x1A), (5, 0x19)].map page } with
    l2 := [line 0x400 0x1B (2 ^ 32 + 0xFFFFFFFF * 2 ^ 64), line 0x600 0x0C 0x3F800000, line 0x601 0x0C 0, line 0x800 0x0C 0,
      line 0x801 0x0C 0, line 0x802 0x0C (st * 2 ^ 96), line 0x803 0x0C 0,
      line 0xA00 0x1A (1 + 2 ^ 288 + 0x0B * 2 ^ 304), line 0xA01 0x1A 0, line 0xC00 0x19 0] }

def working (i : Instr) (f : EngCmd → EngCmd) : EngCmd :=
  f { cmd i with a := 0x10000, b := 1, shape := ((((Vector.replicate 8 0).set 0 0x20000).set 1 1).set 2 (32 * 2 ^ 32)).set 3 0x10000 }

/-- How much is done, whether the command has ended, and its reply. -/
def works (m : EngCmd) (d : Nat) (e : Bool) (r : Option Word) (st : Nat := 1) : Bool :=
  match exec (.engineCommandStart 0) (atWork m st) with
  | .next t => t.here.gath.cmds.map (fun (m : EngCmd) => (m.done, m.ended, m.reply)) == [(d, e, r)] && t.here.gath.halted.isNone
  | _ => false

def moving (i : Instr) (a b c : Word) : EngCmd := working i fun m => { m with a := a, b := b, c := c, shape := (Vector.replicate 8 0).set 1 1 }

/-- Where a command starts; GATHER of an element, of none, and into a ring; SCATTER; a POOL of one bag. -/
theorem test_meets_starts : (atWork (working (.gather (o0 0)) id)).here.gath = standing (working (.gather (o0 0)) id) ∧
    (atWork (working (.gather (o0 0)) id)).here.gathHeld = false ∧ (atWork (working (.gather (o0 0)) id)).Unhindered (engineOf 0) := by
  unfold State.Unhindered
  decide +kernel

theorem test_meets_lists : works (working (.gather (o0 0)) id) 1 true none = true ∧
    works (working (.gather (o0 0)) fun m => { m with a := 0x10008 }) 1 true none = true ∧
    works (working (.scatter (o0 0)) fun m => { m with shape := m.shape.set 0 0x30000 }) 1 true none = true ∧
    works (working (.pool (o0 0)) id) 1 true none = true := by decide +kernel

/-- The rest of EngineCommands: COPY, FILL to memory, SELK that evicts and that has none to evict, COLL that forms its chunk, that waits,
that takes and that adds. -/
theorem test_meets_moves : works (moving (.copy (o0 0)) 0x20000 0x30000 32) 1 true none = true ∧
    works (moving (.fill (o0 0)) 5 0x30000 32) 1 true none = true ∧
    works (moving (.selk (o0 0)) 0x50000 0x40000 0) 1 true (some 1) = true ∧
    works (moving (.selk (o0 0)) 0x50000 0x40000 1) 0 true (some 0x100) = true := by decide +kernel

theorem test_meets_collectives : works (moving (.coll (o0 0)) 0x20000 0x30000 0) 0 false none = true ∧
    works (moving (.coll { o0 2 with sb := 0 }) 0x20000 0 0x30000) 0 false none 0 = true ∧
    works (moving (.coll { o0 3 with sb := 0 }) 0x20000 0 0x30000) 1 true none = true ∧
    works (moving (.coll { o0 2 with sb := 0 }) 0x20000 0 0x30000) 1 true none = true ∧
    works (moving (.coll (o0 1)) 0x20000 0x10000 0x30000) 0 false none = true := by decide +kernel

/-- The engine at a nest of no level, whose rings hold a sub-tile each. -/
def readyTensor : Tensor → Tensor := fun t =>
  let full : Ring → Ring := fun r => (r.onSlot 0 fun x => { x with claimed := 1 }).filled 0 0 24 32
  { t with
    rings := (t.rings.set 0 (full (.make (ringWord false false 1 6 1 0)))).set 1 (full (.make (ringWord true false 1 12 1 6)))
    nest := some { nest0 0 with at' := .kstep } }

def isReady (t : Tensor) : Bool :=
  match t.ready { nest0 0 with at' := .kstep } with
  | .ok _ => true
  | _ => false

theorem test_meets_TensorEvents :
    (tensor0 fun t => { t with q := ⟨[{ cmd (.tcfg (o0 5)) with a := 0 }], none, none, 0⟩ }).here.tens.q.halted = none ∧
    lvBad 1 = true ∧ ringFault (manned .ctl 1).here.tens.rings 7 (ringWord true true 2 25 1 26) 64 = none ∧
    (ringFault (manned .ctl 1).here.tens.rings 7 (ringWord true true 2 25 2 26) 64) = some .rowNotClaimed ∧
    tgoFault true (readyTensor (manned .ctl 1).here.tens).rings[0] (readyTensor (manned .ctl 1).here.tens).rings[1] = none ∧
    tgoFault true (manned .ctl 1).here.tens.rings[0] (manned .ctl 1).here.tens.rings[1] = some .ringNotConfigured ∧
    (manned .ctl 1).here.tens.nest = none ∧ (manned .ctl 1).here.tens.flight = [] ∧
    isReady (readyTensor (manned .ctl 1).here.tens) = true ∧
    (match Tensor.advance (.replicate 8 0) 0 nestFuel (readyTensor (manned .ctl 1).here.tens) { nest0 0 with at' := .kstep } with
      | (_, _, .kstep) => true | _ => false) = true ∧
    (match Tensor.advance (.replicate 8 0) 0 nestFuel (manned .ctl 1).here.tens { nest0 0 with at' := .done } with
      | (_, _, .done) => true | _ => false) = true ∧
    tfmt 0x0B ≠ none ∧ (tensor0 fun t => { t with flight := [⟨3, 0, .final⟩] }).clkOf 0 < 3 ∧
    (manned .ctl 1).here.strand = some st0 ∧
    (tensor0 fun t => { t with replay := { t.replay with spoiled := true } }).here.tens.replay.barred = true := by decide +kernel

/-- A CGEN of core 0 behind an earlier one of core 1. -/
def behind : State :=
  (codes0 [{ cmd (.cgen (o0 0)) with since := 9 }]).onCore 1 fun k => { k with code := ⟨[{ cmd (.cgen (o0 0)) with since := 3 }], none, none, 0⟩ }

/-- The checker has found the command at the head of the gather queue, and re-runs from a checkpoint. -/
def rerun (again : List Logged) : State := { manned .ctl 1 (fun k => k.onSeq .ctl fun q => { q with run := .running }) with
  rel := { RelSt.reset with relpol := 0xE0 } }.mod fun k => { k with
    gath := ⟨[{ nbtCmd with bad := true, begun := false }], none, none, 0⟩
    chk := { k.chk with log := [.command { nbtCmd with bad := true, begun := false } false], again := again } }

theorem test_meets_the_checker : (codes0 [cmd (.cgen (o0 0))]).stavaskTurn 0 (cmd (.cgen (o0 0))) = true ∧
    behind.stavaskTurn 0 { cmd (.cgen (o0 0)) with since := 9 } = false ∧ clusterOf 1 = clusterOf 0 ∧
    1 ≤ (rerun []).here.chk.log.countP (·.isCmd 2) ∧ (rerun []).here.chk.missed = 0 ∧ ((rerun []).here.seq .ctl).run = .running ∧
    (rerun [.word 0x3010000000010001, .effect 1]).here.chk.again = .word 0x3010000000010001 :: .effect ((1 : BitVec 6).setWidth 64) :: [] ∧
    decide (decode .ctl 0 0x3010000000010001 0 false = .ok ⟨false, .toks 1 1⟩) = true ∧ (rerun []).me.copy = none ∧
    decide (decode .ctl 0 0xF0540C0000000007 0 false = .ok ⟨false, .mfsr 3 .gtb⟩) = true ∧ (rerun []).reduced = false ∧
    (rerun []).me.gvi = none := by decide +kernel

theorem test_meets_QueuesExecute : (codes0 [cmd (.cgen (o0 0))]).here.rqRoom = true ∧ (codes0 []).gtb.toNat = 0 ∧
    (∀ i : Fin 16, lockValid (codes0 [] fun k => { k with locks := .replicate 16 0x8000000000000000 }).here.locks[i] = true) ∧
    (match State.readAll ((codes0 []).onCluster 0 fun u => { u with tlb := [mkTlb 0 0x10000 (pte0 0) false] }) 0 (cmd (.cgen (o0 0))) 0x10000 64 with
      | (_, .ok x) => (genBlock x 0).isNone | _ => false) = true ∧
    (match (codes0 []).readAll 0 (cmd (.cgen (o0 0))) 0 64 with | (_, .error _) => true | _ => false) = true ∧
    ((stages0 [cmd (.stgq (o0 0))]).stageRec 0 0).isSome = true ∧
    (let s := gathers0 [fillCmd]; s.here.rq.length + (s.here.gath.cmds.filter EngCmd.owes).length ≤ 32) ∧
    State.reset.rel.relpol.getLsbD 7 = true ∧ (gathers0 [{ nbtCmd with bad := true }]).here.chk.missed = 0 ∧
    (manned .ctl 1).here.tens.q.cur = none := by decide +kernel

def record0 : Nat := 9 + 2 ^ 16 + 2 ^ 56 + 2 ^ 128 + 64 * 2 ^ 144 + 65536 * 2 ^ 192 + 0x123 * 2 ^ 256

/-- A launch that fits, one whose stage asks for no core, one that fills the deferral memory, one of an invalid context. -/
theorem test_meets_launches :
    let entry : Nat → Nat → List Nat := fun min depth => tableEntries (min * 2 ^ 256 + 2 ^ 272 + depth * 2 ^ 288) 1
    recHead record0 = none ∧ tables.recRest 0 0 (some 7) record0 (entry 1 256) = none ∧
    tables.recRest 0 0 none record0 (entry 2 256) = some (1, 3) ∧ tables.recRest 0 0 none record0 (entry 1 262145) = some (1, 3) ∧
    tables.recRest 0 1 none record0 (entry 1 256) = none ∧ (tables.ctxRefused 0).2 = false ∧ (tables.ctxRefused 1).2 = true ∧
    (match (codes0 []).readAll 0 (cmd (.lenq (o0 0))) 0 256 with | (_, .error (.trap _ _)) => true | _ => false) = true := by decide +kernel

/-- A launch record of one stage and one level passes its head's checks. -/
theorem test_meets_launch_record : ∃ x, recHead x = none := ⟨record0, by decide +kernel⟩

/-! ### The fabric, phases, regions -/

/-- A COLL of one row of lanes of zero that has been sent, of integers, with a trailer. -/
def collCmd (last : Row) : EngCmd :=
  { cmd (.coll (o0 5)) with begun := true, b := 0x10000, chunk := [0, last], shape := (Vector.replicate 8 0).set 1 1 }
def collState (last : Row) : State :=
  (gathers0 [collCmd last]).onCluster 0 fun u => { u with tlb := [mkTlb 0 0x10000 (pte0 0) false] }

def collMeets (s : State) (m : EngCmd) : Bool :=
  match s.collWriteAll 0 m m.b 0 [0] with
  | (v, .ok ()) => (v.core 0).gath == s.here.gath && (match v.collWrite 0 m m.b 1 256 ((m.chunk.getLast?).getD 0) with
      | (w, .ok ()) => (w.core 0).gath == s.here.gath
      | _ => false)
  | _ => false

/-- A load that waits for a line of another package, a write to one. -/
def far0 : Load := load0 (.lines [⟨0x10000, 2 ^ 48, 15, .asked⟩])
def farPub : SliceReq := ⟨0, 0, 8, 0x10000, 2 ^ 48, 15, 0, .write 0 0 false⟩

/-- What a port has accepted of it. -/
def farPosted : Posted := ⟨0, 0, 8, 0x10000, 2 ^ 48, 0, 0, .hawser 1⟩

/-- Frame 1 is exported to every node. -/
def exporting : State :=
  { at0 .ctl with pf := { PfRegs.reset with exp := (Vector.replicate 64 (0, 0)).set 0 (0xC000000000010000, 0xFFC0000000001) } }

theorem test_meets_Fabric :
    (standing (collCmd 0)).StandsAt [] (collCmd 0) [] ∧ collMeets (collState 0) (collCmd 0) = true ∧
    collMeets (collState 1) (collCmd 1) = true ∧ collGood true [0] (trailerOf 0) = true ∧ collGood true [0] (trailerOf 1) = false ∧
    (0 : Nat) + 1000000 < 189 * 1000001 / 189 ∧ ((o0 5).imm.extractLsb' 0 2).toNat ≠ 0 ∧
    far0.waiting = [(2 ^ 48, 15)] ∧ decide (2 ^ 47 ≤ farPub.pa) = true ∧
    exporting.Exports 1 7 true ∧ ¬exporting.Exports 2 7 false ∧ inHbm 0x10000 = true ∧ exporting.dieOut 0x10000 = false ∧
    (match exporting.homeRead ⟨0, 0, true⟩ 0x10000 1 0 .none with | (_, .got _ _) => true | _ => false) = true ∧
    (exporting.homeWrite ⟨0, 0, true⟩ 0x10000 1 0 0 .none false).2 = .done ∧ 3 ≤ exporting.mgst ∧ exporting.cxlCovered 0x10000 = false ∧
    farPosted.core = 0 ∧ decide (2 ^ 47 ≤ farPosted.pa) = true ∧ exporting.fab.lead = 0 ∧
    (remoteAtom 0 false false).isSome = true ∧ (remoteAtom 31 false false).isNone = true ∧
    State.reset.fab.up[35] = true ∧ State.reset.fab.retry[35] < 16 ∧
    ({ exporting with pf := { exporting.pf with gtbctl := 1 } } : State).pf.gtbctl ≠ exporting.pf.nodeid := by
  refine ⟨stands_alone _ rfl, ?_⟩
  unfold State.Exports
  decide +kernel

/-- Every sequencer of core 0 at a point. -/
def crew (q : Seq) (f : SeqSt → SeqSt) (g : Core → Core := id) : State :=
  manned q 0 fun k => g { k with seqs := k.seqs.map f }
def running (st : SeqSt) : SeqSt := { st with run := .running }
def ended (st : SeqSt) : SeqSt := { st with run := .halted }
def atCopy (fn : BitVec 4) (w : Wait) (st : SeqSt) : SeqSt := { st with run := .running, copy := some ⟨fn, 0, true⟩, wait := w }

/-- A row of the pool on its way home. -/
def pool0 : StashRow := ⟨0, 0, 0x10000, 0x20000, 0, 1, true, false, .filled⟩

/-- A DFLUSH at the head of the stage queue. -/
def flushing (f : SeqSt → SeqSt) : State := crew .ctl f fun k => { k with stg := ⟨[cmd (.dflush (o0 0))], none, none, 0⟩ }

/-- A row on its way to another package, whose route has ports or none: still of the core, or accepted by its port; an XFENCE from CORE
of a scope, or another phase end, waits for it. -/
def leaving (kind : EndKind) (route : Word) (pubs : List SliceReq) (posted : List Posted) : State :=
  { crew .ctl (atCopy 2 .other) (fun k => { k with pubs := pubs, ends := [⟨kind, [0], []⟩] }) with
    pf := { PfRegs.reset with rt := PfRegs.reset.rt.set 1 route }, posted := posted }

theorem test_meets_leaving :
    (leaving (.fence 3) 6 [farPub] []).portFor farPub.pa = some 1 ∧ (leaving (.fence 3) 0 [farPub] []).portFor farPub.pa = none ∧
    (leaving (.fence 3) 6 [farPub] []).fenceDone 0 = false ∧ (leaving (.fence 3) 6 [farPub] []).rowQueued 0 0 = true ∧
    (leaving (.fence 3) 6 [] [farPosted]).performedAt 0 3 [0] = true ∧ (leaving (.fence 4) 6 [] [farPosted]).fenceDone 0 = false ∧
    (leaving .pend 6 [] [farPosted]).rowPosted 0 0 = true ∧ (leaving .pend 6 [] [farPosted]).fenceDone 0 = false ∧
    (leaving .pend 6 [] [{ farPosted with pa := 2 ^ 46, via := .target 3 }]).rowPosted 0 0 = false := by decide +kernel

/-- A launch whose level 0 joins ranks of other packages. -/
def spread : Launch := { launch0 0 with levels := [6 + 2 * 2 ^ 8], group := 1 * 2 ^ 26 }

theorem test_meets_spread_gang : spread.reachesOut 0 = false ∧ { spread with levels := [6 + 2 ^ 8] }.reachesOut 0 = true := by decide +kernel

theorem test_meets_Phases :
    (crew .ctl running).me.run = .running ∧ ((crew .ctl running).here.seq .ld).atEnd = false ∧
    (Seq.all.all fun q => ((crew .ctl (atCopy 0 .phaseEnd)).here.seq q).atEnd) = true ∧
    (crew .ctl (atCopy 0 .phaseEnd)).here.phaseDue = true ∧ (crew .ctl (atCopy 0 .phaseEnd)).here.dueKind = .pend ∧
    (crew .ctl (atCopy 1 .phaseEnd)).here.dueKind = .sync 0 ∧ (crew .ctl (atCopy 2 .phaseEnd)).here.dueKind = .fence 0 ∧
    (crew .ctl ended).here.phaseDue = true ∧ (crew .ctl ended).here.dueKind = .final ∧ (crew .ctl ended).here.synced = false ∧
    st0.levelTrap 0 = some .reservedOperand ∧ ({ st0 with levels := [4] } : Strand).levelTrap 0 = none ∧
    (crew .ctl running).here.pathQuiet .gather = true ∧ (gathers0 [cmd .nop]).here.pathQuiet .gather = false ∧
    (crew .ctl (atCopy 1 .barrier) fun k => { k with ends := [⟨.sync 0, [0], [.flush 0]⟩] }).rowQueued 0 0 = false ∧
    (crew .ctl (atCopy 1 .barrier) fun k => { k with pubs := [⟨0, 0, 8, 0x10000, 0x20000, 1, 0, .write 0 0 false⟩] }).rowQueued 0 0 = true ∧
    (crew .ctl ended).flushDue 0 = false ∧ (flushing ended).flushDue 0 = true ∧ (flushing ended).here.flushesComing = true ∧
    (crew .ctl ended).here.swapsComing = false ∧
    (codes0 [cmd (.cswap (o0 0))]).here.swapsComing = true ∧
    ({ st0 with levels := [1] } : Strand).domain 0 = some 1 := by decide +kernel

theorem test_meets_barrier : (let s := crew .ctl (atCopy 1 .barrier) fun k => { k with
      arrived := some 0, sends := [⟨0, 5, ⟨0, 7, 0⟩, 0⟩, ⟨0, 6, ⟨0, 7, 0⟩, 0⟩] }
    s.gangAway 0 1 1 = false ∧ s.here.chk.again = [] ∧ s.here.swapsComing = false ∧ s.gang 0 1 1 = [0] ∧ s.here.arrived = some 0 ∧ s.swaps = [] ∧
    ((s.gang 0 1 1).flatMap fun x => (s.core x).sends).Pairwise (fun a b => (a.core, a.row) ≠ (b.core, b.row))) := by decide +kernel

/-- A phase that can publish, at the head of its core; a SYNC's barrier at which a splice enters the directory, with its page in a LATT of
the gang; a publication that its home refuses; a memory with no errors, of which a page moves. -/
def swapping : State :=
  { crew .ctl (atCopy 1 .barrier) (fun k => { k with
      arrived := some 0, strand := some { st0 with levels := [1] }, latt := [⟨0, 1, 2, [], none⟩] }) with
    swaps := [⟨0, 1, 0, true, 0x10000, 0x20000, 0, cmd (.cswap (o0 1))⟩] }

theorem test_meets_publishes : CanPublish (crew .ctl (atCopy 0 .phaseEnd) fun k => { k with ends := [⟨.pend, [], []⟩] }) 0 ⟨.pend, [], []⟩ ∧
    (crew .ctl (atCopy 0 .phaseEnd) fun k => { k with ends := [⟨.pend, [], []⟩] }).fenceDone 0 = false :=
  ⟨⟨⟨[], by decide +kernel⟩, by simp, by simp, by simp⟩, by decide +kernel⟩

theorem test_meets_swaps : (let t := swapping.swapSplice 0 0x10000 0x20000 0
      t.1.splices == [⟨0, 0x10000, 0x20000, 1⟩] && t.2 == 1) = true ∧ swapping.here.rqRoom = true ∧ swapping.here.code.cmds = [] ∧
    (swapping.swaps.map fun y => y.at 0 1 0 1) = [true] ∧ swapping.gangAway 0 1 1 = false ∧ swapping.here.chk.again = [] ∧ swapping.here.swapsComing = false ∧
    swapping.here.sends = [] ∧ swapping.gang 0 1 1 = [0] := by decide +kernel

theorem test_meets_refused_publication : (manned .ctl 0).here.strand = some st0 ∧ st0.ctx = ({ farPosted with ctx := 0 } : Posted).ctx ∧
    (match ((manned .ctl 0).here.seq .st).run with | .frozen _ => false | _ => true) = true ∧ (manned .ctl 0).here.heldPubs = [] ∧
    ((manned .ctl 0).postRefused 0).spanOut ((manned .ctl 0).postRefused 0).recordAt 32 = false ∧ ((manned .ctl 0).postRefused 0).l2 = [] ∧
    isBarred farPosted.pa = false := by decide +kernel

theorem test_meets_page_moves (n : Nat) : State.reset.troubled n = false ∧ State.reset.errs = [] := ⟨rfl, rfl⟩

/-- Hitch 1 of cluster 0, a stage with two cores, of which one may go. -/
def hitched (h : Hitch) : State := (manned .ctl 0 fun k => k.onSeq .ctl fun q => q.setReg 1 1).setHitch 0 1 h
def loose : State :=
  let s := manned .ctl 0
  let free : Core → Core := fun k => { k with strand := some { st0 with fixed := false } }
  (s.onCore 0 free).onCore 1 free

/-- HitchesAndRegions, its hitches, YIELD and HALT. -/
theorem test_meets_hitches : ((hitched freeHitch).reg 1).toNat = 1 ∧ (hitched freeHitch).hitch 0 1 = freeHitch ∧
    (hitched ⟨5, some 0, false⟩).hitch 0 1 = ⟨5, some 0, false⟩ ∧ (hitched ⟨5, some 9, false⟩).hitch 0 1 = ⟨5, some 9, false⟩ ∧
    (hitched ⟨0, some 0, true⟩).hitch 0 1 = ⟨0, some 0, true⟩ ∧ (hitched freeHitch).here.ctx = 0 ∧
    ((hitched freeHitch).reg 0).toNat = 0 ∧ (hitched freeHitch).here.bqRoom 0 = true ∧
    ((loose.launch 0 1).any fun l => decide ((l.stage 0).min < loose.stageN 0 1 0)) = true ∧ loose.mayRelease = true ∧
    (manned .ctl 0).mayRelease = false ∧ loose.drainAt loose.here.ctx .ctl loose.me.pc = none ∧
    (crew .st running).here.quiet .st = true ∧ (crew .ld running fun k => { k with loads := [far0] }).here.quiet .ld = false := by decide +kernel

/-- A region of one operation: stream 0 in, stream 1 out, out = in + in on I8, two strips of 256. -/
def region0 : List Word := [0x4712010000000000, 0x1510000000000000, 0x2910000000000000,
  BitVec.ofNat 64 (1 * 2 ^ 58 + 1 * 2 ^ 54 + 2 ^ 50 + 1 * 2 ^ 44 + 1 * 2 ^ 34)]
def stripState : State :=
  let s := mapped .ctl 1 fun k => { k with
    wins := k.wins.set 0 (some ⟨0x10000, 0, 0, 1⟩)
    shapes := (k.shapes.set 1 (((Vector.replicate 8 0).set 0 0x10000).set 1 0x0001000100030100 |>.set 4 0x10000)).set 2
      (((Vector.replicate 8 0).set 0 0x10000).set 1 0x0001000100030100 |>.set 4 0x10000)
    stash := [⟨0, 0, 0x10000, 0x20000, 1, 0, true, false, .filled⟩], pad := k.pad.set 0 ⟨1, 0, 0, []⟩
    seqs := k.seqs.map fun st => { st with run := .running, gvi := some 4, wait := .held } }
  { s.onCluster 0 fun u => { u with tlb := [mkTlb 0 0x10000 (pte0 1) false] } with
    l2 := [⟨0x20000 / 128, 0, 1, 0, .replicate 4 0, 7, 15, 0, []⟩, ⟨0x20000 / 128 + 1, 0, 1, 0, .replicate 4 0, 7, 15, 0, []⟩] }

def regionMeets (s : State) : Bool :=
  match regionOf region0 with
  | .ok r => (s.here.shapesBad r).isNone && (stripsOf (s.here.shape 1) == 3) && (s.warm 0 r 256).isNone &&
      match s.strip 0 r 256 with
      | (_, .ok _) => decide (r.slots 256 ≤ st0.bound)
      | _ => false
  | .error _ => false

/-- HitchesAndRegions, its regions. -/
theorem test_meets_HitchesAndRegions : stripState.here.regionDue = true ∧ stripState.diverts 0 = false ∧ stripState.here.regionSplit = false ∧
    stripState.here.chk.again = [] ∧ stripState.here.accessesDone = true ∧ regionMeets stripState = true ∧
    (match regionOf (region0.map fun w => w ||| 1) with | .error _ => true | _ => false) = true ∧
    (stripState.mod fun k => k.onSeq .ex fun q => { q with gvi := some 5 }).here.regionSplit = true ∧
    (crew .ctl running).here.regionDue = false := by decide +kernel

/-! ### Pre-emption, launches -/

/-- A core that a pre-emption has diverted and whose sequencers have parked, with its request; the record it writes stands in
memory. -/
def parked : State :=
  { crew .ctl (fun st => { st with run := .parked }) (fun k => { k with divert := some .preempt }) with
    prq := [⟨0, 0, false, 0x100000, 0, false⟩] }

/-- A core at covered yield points with a request. -/
def covered (why : Reason) : State :=
  { crew .ctl (fun st => { st with run := .running, wait := .held }) (fun k => { k with req := some why }) with
    drains := [Seq.ctl, .ld, .ex, .st].map fun q => ⟨0, q, 0, 0x100, 0x1000, 0, 0⟩ }

/-- The head of a record of context 5 stands in a frame. -/
def stored : State := { State.reset with
  mgst := 4
  mem := Memory.putBytes (Memory.putBytes [] 0x100000 0x4B564358 4) 0x100004 5 2
  marks := [(0x8000, ⟨0, 0, 0, []⟩)] }

theorem test_meets_Preemption : State.reset.prq.length < 64 ∧ (manned .ctl 0).here.divert = none ∧ (covered .move).diverts 0 = true ∧
    parked.here.canSwitch = true ∧ (0x100000 : Nat) % 256 = 0 ∧ 0x100000 + 256 * (256 + 2048) ≤ 2 ^ 40 ∧
    st0.rows ≤ 2048 ∧ (∀ q : Fin 16, (manned .ctl 0).here.queues[q].entries.length ≤ queueDepth q) ∧
    (∀ q : Fin 4, (manned .ctl 0).here.bqs[q].length ≤ 16) ∧ (manned .ctl 0).here.rq.length ≤ 32 ∧
    (manned .ctl 0).here.recordRow 0 st0 0 % 2 ^ 32 = 0x4B564358 ∧
    stored.peekBytes 0x100000 4 = 0x4B564358 ∧ stored.peekBytes 0x100004 2 = 5 ∧ stored.peekBytes 0x100006 2 = 0 ∧
    stored.here.idle = true ∧ 3 ≤ stored.mgst ∧ (∀ l ∈ parked.l2, l.flips = []) ∧ (parked.here.awayOf 0).wrote = [] := by
  decide +kernel

/-- A core whose sequencers run a move's stub, EX at its end; a request of the context reaches it. -/
def leavingStub : State := crew .ctl (fun st => { st with run := .running, dres := 1 }) fun k =>
  { k.onSeq .ex (fun q => { q with run := .halted }) with divert := some .move }

theorem test_meets_requests : leavingStub.prq.length < 64 ∧ 2 ≤ leavingStub.mgst ∧ leavingStub.here.divert = some .move ∧
    leavingStub.here.strand = some st0 ∧ st0.ctx = 0 ∧ (leavingStub.here.ends.any fun e => e.kind == .final) = false ∧
    (leavingStub.here.seq .ex).dres = 1 ∧ (covered .preempt).here.req = some .preempt ∧ (covered .preempt).diverts 0 = true ∧
    (manned .ctl 0).here.divert = none ∧ (crew .ctl running).diverts 0 = false := by decide +kernel

/-- HitchesAndRegions: a region that no requester keeps, whose strip takes more slots than a bound of 1; one whose strips have all run. -/
theorem test_meets_region_bounds : stripState.Unhindered (unitOfCore 0) ∧
    (match regionOf region0 with | .ok r => decide (1 < r.slots 256) | .error _ => false) = true ∧ stripState.here.divert = none ∧
    stripsOf ((stripState.mod fun k => { k with gvs := 3 }).here.shape 1) ≤ (stripState.mod fun k => { k with gvs := 3 }).here.gvs.toNat := by
  unfold State.Unhindered
  decide +kernel

/-- The stored record, asked for, which the restore's checks pass; a core whose pre-emption is cancelled, with a move to go on. -/
def asked : State := { stored with prq := [⟨0, 5, true, 0x100000, 0, false⟩] }

theorem test_meets_restores : asked.Unhindered (unitOfCore 0) ∧ asked.spanOut 0x100000 (256 * (256 + 2048)) = false ∧
    asked.spanOut (asked.ctxPlace 5) 64 = false ∧ asked.shownBytes 0x100000 4 = 0x4B564358 ∧ asked.shownBytes 0x100004 2 = 5 ∧
    asked.shownBytes 0x100006 2 = 0 ∧ asked.shownBytes 0x100008 4 = 0 ∧ asked.here.idle = true ∧
    ({ asked with mgst := 3 } : State).spanOut 0x2000000000 (256 * (256 + 2048)) = true ∧
    ((covered .preempt).mod fun k => { k with commit := some (.move 1 0) }).here.commit = some (.move 1 0) ∧
    parked.errs = [] ∧ parked.spanOut 0x100000 (256 * (256 + st0.rows)) = false := by
  unfold State.Unhindered
  decide +kernel

/-- A machine with nothing in its slices and its L2, and no error anywhere. -/
theorem calm_of {s : State} {pa n : Nat} (hb : s.barred = []) (he : s.errs = []) (hs : s.slices = .replicate 128 ⟨[], [], 0, [], []⟩)
    (hl : s.l2 = []) (hw : ∀ m, (s.word m).stamp ≠ lostStamp ∧ (s.word m).flips = []) : s.Calm pa n := by
  refine ⟨⟨hb, he, fun i _ _ => by simp [hs]⟩, fun i _ _ => ?_⟩
  simp [State.troubled, State.lineAt, State.flipsAt, he, hl, (hw _).1, (hw _).2]

theorem test_meets_calm (pa n : Nat) : asked.Calm pa n :=
  calm_of rfl rfl rfl rfl fun m => by
    simp only [State.word, asked, stored, cellGet]
    split <;> decide

/-- A violation of CTL of core 0, of its gather engine, of host function 3. -/
def guilt (master place : Nat) : Violation := ⟨.privilegedInstruction, BitVec.ofNat 8 master, 0, BitVec.ofNat 16 place, 0, 0, 0⟩

/-- Launch 1 waits in cluster 0, or has started. -/
def launching (run : Bool) : State :=
  { State.reset with mgst := 4, clusters := State.reset.clusters.set 0 ⟨[], [], [], [{ launch0 0 with running := run }], 2100, 0, 2100, 0, 0⟩ }

theorem test_meets_DecisionsAndStarts :
    2 ≤ (crew .ctl running).mgst ∧ (guilt 0 0).kind ≠ .foreignHitch ∧ queueOf (cmd (.gather (o0 0))).op = some 2 ∧
    (launching true).pwmode.getLsbD 0 = false ∧ { launching true with mg := { MgSt.reset with thot := true } }.mg.thot = true ∧
    State.reset.l2 = [] ∧ ((launching true).clustersOf 1).all (fun v => (launching false).canStart v 1 != none) = true ∧
    Seq.ofNum ((guilt 0 0).unit.extractLsb' 0 2).toFin = .ctl ∧ (guilt 5 3).place.toNat % 64 = 3 ∧
    ((crew .ctl (fun st => { st with run := .frozen (guilt 0 0) })).here.seq .ctl).run = .frozen (guilt 0 0) ∧
    ((stripState.withFetchWord 64 0x3200000000000000).here.fetch 0 (stripState.withFetchWord 64 0x3200000000000000).me.pc).isSome = true ∧
    (gathers0 [cmd .nop]).here.gath.cmds = [cmd .nop] ∧ (cmd .nop).ended = false ∧
    State.reset.vfs[3].rrec.toNat % 4096 = 0 ∧ (launching false).clusters[0].nextInt ≤ (launching false).clusters[0].clk ∧
    State.reset.clusters[0].clk < State.reset.clusters[0].nextInt ∧
    (launching false).clusters[0].head = some { launch0 0 with running := false } ∧ (launching true).clusters[0].head = none ∧
    ((launching false).clustersOf 1) = [0] ∧ ((launching false).canStart 0 1).isSome = true ∧
    ((launching true).launch 0 1).isSome = true := by decide +kernel

/-- DecisionsAndStarts: a write of ST that is held, which RETRY posts again and SKIP drops; a POOL whose bag is summed and one whose is
not; a VF whose record lies out of service; clusters whose level has just changed. -/
def holding : State := { crew .ctl running fun k => { k with heldPubs := [⟨guilt 0 0, { farPosted with ctx := 0 }, .running⟩] } with
  vpend := [(7, guilt 0 0)] }

theorem test_meets_held_writes : holding.vpend = [] ++ (7, guilt 0 0) :: [] ∧ (guilt 0 0).core = 0 ∧
    holding.here.heldPubs = [⟨guilt 0 0, { farPosted with ctx := 0 }, .running⟩] ∧ (guilt 0 0).master = 0 ∧
    (queueOf (cmd (.pool (o0 0))).op = some 2 ∧ (cmd (.pool (o0 0))).pool.full = false) ∧
    ({ State.reset with mgst := 3, vfs := State.reset.vfs.set 3 { VfSt.reset with rrec := 0x2000000000 } } : State).spanOut 0x2000000000 16 = true ∧
    ({ State.reset with mgst := 3 } : State).spanOut State.reset.vfs[3].rrec.toNat 4096 = false ∧
    ({ launching true with mg := { MgSt.reset with level := 2 } } : State).mg.level ≠ (launching true).clusters[0].took := by decide +kernel

theorem test_meets_launch_calm : (launching false).Calm ((launching false).ctxPlace 0) 64 :=
  calm_of rfl rfl rfl rfl fun _ => ⟨by change blankWord.stamp ≠ lostStamp; decide, rfl⟩

/-! ### Code lines, the host, the platform -/

/-- The page tables again, with the page one of code, and CTL of core 0 at its start. -/
def codePte : Word := pte0 0x17 ||| 0x400
def fetching (p : Word) : State :=
  let w8 : Memory → Nat → Nat → Memory := fun m a x => Memory.putBytes m a x 8
  let mem := w8 (w8 (w8 (w8 (w8 [] 0 0x30000) 24 1) 0x30000 (2 ^ 63 + 0x40000)) 0x40000 (2 ^ 63 + 0x50000)) 0x50008 p.toNat
  { crew .ctl (fun st => { st with run := .running, pc := 0x10000 }) with
    mem := mem, marks := [0, 0x1800, 0x2000, 0x2800].map fun n => (n, ⟨0, 0, 0, []⟩) }

def finds (s : State) (p : Except FetchStop Nat → Bool) : Bool := p (s.codeFrame 0 (s.fetcher 0 .ctl) false 0x10000).2

theorem test_meets_CodeFills :
    finds (fetching codePte) (fun x => match x with | .ok f => f == 2 | _ => false) = true ∧
    finds (fetching (pte0 0x17)) (fun x => match x with | .error (.trap c) => c == .notCode | _ => false) = true ∧
    finds (fetching (codePte ||| 0x800)) (fun x => match x with | .error (.violation v) => v == .supervisorPage | _ => false) = true := by
  decide +kernel

theorem test_meets_line_fills :
    (match (fetching codePte).memRead ((fetching codePte).fetcher 0 .ctl) 0x20000 15 0x18 .none with | (_, .got _ _) => true | _ => false) = true ∧
    (match ({ fetching codePte with marks := [(0x1000, ⟨0, 0, 0, []⟩)] } : State).memRead ((fetching codePte).fetcher 0 .ctl) 0x20000 15 0x18 .none with
      | (_, .refused) => true | _ => false) = true := by decide +kernel

/-- Memory classed as a line stored in 2 sectors, one of a reserved form, one lost; a line of no branches, and one that branches on. -/
def codeWord (m : BitVec 7) : State := { fetching codePte with marks := [(0x1000, ⟨0x18, m, 0, []⟩)] }
def answers (s : State) (mask : BitVec 4) : Nat :=
  match s.memRead (s.fetcher 0 .ctl) 0x20000 mask 0x18 .none with
  | (_, .got _ _) => 0
  | (_, .refused) => 1
  | (_, .denied) => 2
  | (_, .lost) => 3

/-- The fetched page on a die that is not yet in service. -/
theorem test_meets_code_waits :
    finds ({ fetching (codePte ||| 0x2000000000) with mgst := 3 }) (fun x => match x with | .error .wait => true | _ => false) = true ∧
    lockValid (fetching codePte).here.locks[0] = false ∧ 512 * 1 < (0xFF80 : Word).toNat % 65536 / 128 + 2 := by decide +kernel

theorem test_meets_code_forms : inHbm 0x20000 = true ∧ (codeWord 0x28).codeForm 0x20000 = some 2 ∧ (codeWord 0x60).codeForm 0x20000 = none ∧
    (fetching codePte).codeForm 0x20000 = some 0 ∧ answers (codeWord 0x28) 15 = 0 ∧ answers (codeWord 0x28) 3 = 0 ∧
    answers ({ codeWord 0 with marks := [(0x1000, ⟨0x3E, 0, 0, []⟩)] }) 15 = 3 ∧ (codeWord 0x28).RecordClean ∧
    lineTargets .ctl false 0 0x10000 0 16 = [] ∧
    lineTargets .ctl false 0x2000000000000002 0x10000 0 16 = [0x10010] ∧
    (∀ i, i < 16 → majorOf (lineWord 0x2000000000000002 (0x10000 + BitVec.ofNat 64 (8 * i))) ≠ 0x3E) := by
  unfold State.RecordClean
  decide +kernel

/-- A fetch of a page that the LATT holds, its line known to be of 2 sectors; and one that the core's code L1 holds. -/
def latted : State := (fetching codePte).mod fun k => { k with latt := [⟨0, 1, 2, [(0, 2)], none⟩] }
def inL1 : State := (fetching codePte).mod fun k => { k with codeL1 := [⟨0, lineOf 0x10000, 0, false, 0x20000⟩] }

/-- CodeFills: nobody in the way of a fetch, with its line and without. -/
theorem test_meets_fetches : (fetching codePte).Unhindered (unitOfCore 0) ∧ (fetching codePte).errs = [] ∧ inL1.Unhindered (unitOfCore 0) ∧
    ((fetching codePte).here.seq .ctl).inTrap = false := by
  unfold State.Unhindered
  decide +kernel

theorem test_meets_fetch_page : FetchPage latted (latted.onCore 0 fun (k : Core) => { k with latt := lattPut k.latt ⟨0, 1, 2, [(0, 2)], none⟩ }) 0 .ctl
      ⟨0, 1, 2, [(0, 2)], none⟩ ∧ (inL1.here.codeLine 0 0x10000).isSome = true ∧
    (∀ l ∈ latted.here.codeL1, ¬(l.ctx = latted.here.ctx ∧ l.line = lineOf 0x10000)) := by
  refine ⟨⟨by decide +kernel, .inl ⟨[], [], by decide +kernel, by simp, rfl⟩⟩, by decide +kernel, by decide +kernel⟩

theorem test_meets_fills_nothing : (fetching codePte).here.codeL1 = [] ∧
    ([(3, 0)] : List (Nat × Nat)).find? (fun y => y.1 == 3) = some (3, 0) := by decide +kernel

/-- A CGEN of one row of four weights of layout 1, with its block, weights and scales at hand, whose page of code is not mapped. -/
def generating : State :=
  let line : Nat → Nat → L2Line := fun la x => ⟨la, 0, 0, 0, .replicate 4 0, BitVec.ofNat 1024 x, 15, 0, []⟩
  { (codes0 [cmd (.cgen (o0 0))]).onCluster 0 fun u => { u with tlb := [mkTlb 0 0x10000 (pte0 0) false] } with
    l2 := [line 0x400 (0x10080 + 1 * 2 ^ 64 + 1 * 2 ^ 80 + 4 * 2 ^ 96 + 0x100C0 * 2 ^ 128), line 0x401 0x01020304] }

def genMeets (s : State) : Bool :=
  match s.readAll 0 (cmd .nop) 0x10000 64 with
  | (v, .ok x) => match genBlock x 0x20000 with
    | some b => match v.readAll 0 (cmd .nop) (b.wva + BitVec.ofNat 64 b.span.1) (b.span.2 - b.span.1) with
      | (w, .ok _) => match w.readAll 0 (cmd .nop) (b.sva + BitVec.ofNat 64 (64 * b.band)) (2 * b.rows) with
        | (z, .ok _) => (groupOf b.layout).isNone &&
          match z.codeFrame 0 (cmd .nop).who false 0x20000 with | (_, .error (.trap _)) => true | _ => false
        | _ => false
      | _ => false
    | none => false
  | _ => false

/-- A core with a command in its code queue, whose page of code at 0x10000 is at hand. -/
def coding (m : EngCmd) : State := (fetching codePte).mod fun k => { k with code := ⟨[m], none, none, 0⟩ }
def lockCmd (i : Instr) : EngCmd := { cmd i with a := 0x10000, b := 1 }
def codeRuns (m : EngCmd) (p : State → Bool) : Bool :=
  match execCodeCommandExecute 0 (coding m) with
  | .next t => t.here.code.cmds.isEmpty && p t
  | _ => false

/-- QueuesExecute: CGEN whose page cannot be written; CLOCK that locks a line and CPREF that brings one; CSWAP of a page with itself and
with one that is not mapped. -/
theorem test_meets_generates : genMeets generating = true ∧ generating.stavaskTurn 0 (cmd (.cgen (o0 0))) = true := by decide +kernel

theorem test_meets_locks : (codeRuns (lockCmd (.clock (o0 0))) fun t => t.here.rq == [⟨0, 0⟩] && t.here.codeL1.map (·.locked) == [true]) = true ∧
    (codeRuns (lockCmd (.cpref (o0 0))) fun t => t.here.codeL1.map (·.locked) == [false]) = true ∧
    (codeRuns (lockCmd (.cpref (o0 1))) fun t => t.here.codeL1.isEmpty && t.l2.any fun l => l.la == 0x400) = true ∧
    (coding (lockCmd (.clock (o0 0)))).codeWaits 0 (lockCmd (.clock (o0 0))) = false := by decide +kernel

theorem test_meets_page_swaps : (codeRuns { lockCmd (.cswap (o0 0)) with b := 0x10000 } fun t => t.swaps.length == 1) = true ∧
    (codeRuns { lockCmd (.cswap (o0 0)) with b := 0x20000 } fun t => t.here.cflt == Cause.pageFault.code.setWidth 10 ||| 0x200) = true := by
  decide +kernel

/-- An effect found wrong, one that differs from its log, a constant that the log serves, and a drop of two commands. -/
theorem test_meets_rollbacks : ((rerun []).mod fun k => { k with chk := { k.chk with due := some (0, 8) } }).here.chk.due = some (0, 8) ∧
    (rerun []).clkOf 0 = 0 ∧ (rerun []).rel.relpol.getLsbD 7 = true ∧ (2 : Word) ≠ (1 : BitVec 6).setWidth 64 ∧
    (rerun []).here.strand = some st0 ∧ (rerun []).errs = [] ∧
    decide (decode .ctl 0 (encode ⟨false, .add ⟨.i64, 5, .s 2, .c 10⟩⟩).1 0 false = .ok ⟨false, .add ⟨.i64, 5, .s 2, .c 10⟩⟩) = true ∧
    (Instr.uses (.add ⟨.i64, 5, .s 2, .c 10⟩)).c = [10] ∧ (gathers0 [fillCmd, nbtCmd]).here.gath.heldUp = false ∧
    ((rerun []).mod fun k => { k with chk := { k.chk with missed := 1 } }).here.chk.missed = 1 := by decide +kernel

/-- VF 0 has a queue in host memory whose first record is current or stale, and an event ring. -/
def hosted (stamp : Nat) (f : SubQueue → SubQueue := id) : State :=
  { at0 .ctl with
    mem := Memory.putBytes (Memory.putBytes [] (hostAddr 0x100000) record0 64) (hostAddr 0x1000FC) stamp 4
    vfs := State.reset.vfs.set 0 { VfSt.reset with
      sqs := VfSt.reset.sqs.set 0 (f { SubQueue.reset with base := 0x100001, k := 4, tail := 1 }), evq := 0x200004 } }

theorem test_meets_HostPort :
    byteField ((hosted 1).headRecord (hosted 1).vfs[0].sqs[0]) 252 4 = (hosted 1).vfs[0].sqs[0].stamp.toNat ∧
    byteField ((hosted 2).headRecord (hosted 2).vfs[0].sqs[0]) 252 4 ≠ (hosted 2).vfs[0].sqs[0].stamp.toNat ∧
    (hosted 1).vfs[0].sqs[0].head ≠ (hosted 1).vfs[0].sqs[0].tail ∧ (hosted 1).vfs[0].sqs[0].rereads = none ∧
    (hosted 1 fun q => { q with rereads := some 7 }).vfs[0].sqs[0].rereads = some 7 ∧ 4 ≤ (hosted 1).vfs[0].evq.toNat % 16 ∧
    recHead ((hosted 1).headRecord (hosted 1).vfs[0].sqs[0]) = none ∧ recHead 0 ≠ none ∧ (0 : Nat) < 2 ^ 4 ∧
    (hosted 1).vfs[0].frozen = none ∧ 3 ≤ (hosted 1).mgst ∧ (hosted 1).headOut (hosted 1).vfs[0].sqs[0] = false ∧
    ({ hosted 1 with mgst := 3 } : State).headOut { SubQueue.reset with base := 0x2000000000 } = true ∧ (hosted 1).spanOut 0x1000 512 = false ∧
    ({ hosted 1 with mgst := 3 } : State).spanOut 0x2000000000 512 = true ∧ ((hosted 1).word 8).flips = [] ∧
    (hosted 1).pf.hdmlay.getLsbD 6 = false ∧ ((hosted 1).word 8).stamp = 0x3F := by decide +kernel

theorem test_meets_aperture :
    (let s := (fetching (pte0 0)).apParts 0 true 0x10000 4 3; match s.2 with | .ok ps => ps.length == 1 | _ => false) = true ∧
    (let s := (fetching (pte0 0x18)).apParts 0 false 0x10000 4 3; match s.2 with | .error (.trap _ _) => true | _ => false) = true := by
  decide +kernel

/-- HostPort: a head record in device memory, lost and whole; an aperture's page on this package, whose bytes it reads. -/
def headed (stamp : Layout) : State := { at0 .ctl with
  marks := [(0x8000, ⟨stamp, 0, 0, []⟩)], vfs := State.reset.vfs.set 0 { VfSt.reset with sqs := VfSt.reset.sqs.set 0 { SubQueue.reset with
    base := 0x100000, k := 4, tail := 1 } } }

theorem test_meets_heads : ((headed 0x3E).checkHead (headed 0x3E).vfs[0].sqs[0]).2 = true ∧
    (headed 0).headOut (headed 0).vfs[0].sqs[0] = false ∧ linkOf 0x20000 = none ∧ (at0 .ctl).Unhindered none ∧
    levelFieldsOk 8 = false ∧ (match (fetching (pte0 0)).apParts 0 false 0x10000 4 3 with
      | (v, .ok ps) => (match (v.hostAsk ps).apGet 0 ps with | (_, .ok x) => x == 0 | _ => false)
      | _ => false) = true := by
  unfold State.Unhindered
  decide +kernel

theorem test_meets_head_calm (pa n : Nat) : (headed 0).Calm pa n :=
  calm_of rfl rfl rfl rfl fun m => by
    simp only [State.word, headed, cellGet]
    split <;> decide

/-- Platform: an image whose first sector is lost; a record of the device's own that waits for a die; an image and a report that nothing
troubles. -/
theorem test_meets_device_reads : (({ State.reset with marks := [(0x80, ⟨0x3E, 0, 0, []⟩)] } : State).readImage 0x1000).2 = none ∧
    ({ State.reset with mgst := 3, owed := [⟨0x2000000000, 5, 8, none⟩] } : State).owed = [⟨0x2000000000, 5, 8, none⟩] ∧
    0x2000000000 + 8 ≤ 2 ^ 40 := by decide +kernel

theorem test_meets_device_calm (pa n : Nat) : State.reset.Calm pa n :=
  calm_of rfl rfl rfl rfl fun _ => ⟨by change blankWord.stamp ≠ lostStamp; decide, rfl⟩

/-- A register reads what was written. -/
def hostReads (r : HostReg) (v x : Word) : Bool :=
  match exec (.hostRegisterWrite r v) (at0 .ctl) with
  | .next u => u.hostRead r == some x
  | _ => false

theorem test_meets_Platform :
    ({ State.reset with mgst := 1 } : State).mg.fail = false ∧
    ({ State.reset with mgst := 3, mg := { MgSt.reset with dies := true } } : State).mg.dies = true ∧
    State.reset.clusters[0].clk % 2100 = 0 ∧ (0 : Word).toNat % 4096 = 0 ∧ (at0 .ctl).dieOut 0 = false ∧
    ({ at0 .ctl with mg := { MgSt.reset with fwaddr := 0x1000 } } : State).mg.fwaddr ≠ 0 ∧ MgSt.reset.thot = false ∧
    (at0 .ctl).spanOut (at0 .ctl).mg.attaddr.toNat 512 = false ∧ (at0 .ctl).mgst ≤ 4 ∧
    ({ at0 .ctl with mg := { MgSt.reset with fwaddr := 0x1000 } } : State).imageOut 0x1000 = false ∧
    ({ at0 .ctl with mgst := 3, mg := { MgSt.reset with fwaddr := 0x2000000000 } } : State).imageOut 0x2000000000 = true ∧
    (hostReads (.rrec 3) 0x5000 0x5000 && hostReads .psave 0x30000 0x30000) = true ∧
    MgSt.reset.pwcap.toNat < (5601 : BitVec 16).toNat ∧ 10 * (0 : BitVec 16).toNat < 9 * MgSt.reset.pwcap.toNat := by decide +kernel

/-! ## One instruction at a time: results worked by hand from the manual's tables -/

/-- What comes of one instruction. -/
def does (i : Instr) (s : State) (p : State → Bool) : Bool :=
  match exec i s with
  | .next t => p t
  | _ => false

/-- A sequencer at 0x40 with s1 and s2. -/
def with12 (q : Seq) (x y : Word) : State := seq0 q fun st => { (st.setReg 1 x).setReg 2 y with pc := 0x40, run := .running }
def two (ty : STy) : S2 := ⟨ty, 3, .s 1, .s 2⟩

/-- R99: I32 wraps and is sign-extended, N64 takes the high half, a shift takes its count modulo the width. -/
theorem test_scalar_results :
    does (.add (two .i32)) (with12 .ctl 0x7FFFFFFF 1) (fun t => t.reg 3 == 0xFFFFFFFF80000000 && t.me.pc == 0x48) = true ∧
    does (.mulh (two .n64)) (with12 .ld 0xFFFFFFFFFFFFFFFF 2) (fun t => t.reg 3 == 1) = true ∧
    does (.sra (two .i32)) (with12 .st 0x80000000 33) (fun t => t.reg 3 == 0xFFFFFFFFC0000000) = true ∧
    does (.max (two .i64)) (with12 .ctl 0xFFFFFFFFFFFFFFFF 0) (fun t => t.reg 3 == 0) = true ∧
    does (.clz ⟨.n32, 3, .s 1⟩) (with12 .ctl 0xF00000001 0) (fun t => t.reg 3 == 31) = true ∧
    does (.cmp (two .i64) .ltn) (with12 .ctl 1 0xFFFFFFFFFFFFFFFF) (fun t => t.reg 3 == 1) = true := by decide +kernel

/-- R59, R100: LI extends the sign, LIH keeps the low half. -/
theorem test_constants :
    does (.li 1 0xFFFFFF38) (with12 .ctl 0 0) (fun t => t.reg 1 == 0xFFFFFFFFFFFFFF38) = true ∧
    does (.lih 1 0x12345678) (with12 .ctl 0xAAAAAAAABBBBBBBB 0) (fun t => t.reg 1 == 0x12345678BBBBBBBB) = true ∧
    does (.li 0 5) (with12 .ctl 0 0) (fun t => t.reg 0 == 0) = true := by decide +kernel

/-- R101, R102, R104: a branch counts words from itself; a loop of no iteration is skipped. -/
theorem test_branches :
    does (.bc (.cmp .lt (.s 1) (.s 2)) (-2)) (with12 .ctl 0xFFFFFFFFFFFFFFFF 0) (fun t => t.me.pc == 0x30) = true ∧
    does (.call 31 4) (with12 .ld 0 0) (fun t => t.me.pc == 0x60 && t.reg 31 == 0x48) = true ∧
    does (.ret (.s 1)) (with12 .st 0x100 0) (fun t => t.me.pc == 0x100) = true ∧
    does (.loopi 2 0 5) (with12 .ctl 0 0) (fun t => t.me.pc == 0x68 && t.me.depth == 0) = true ∧
    does (.loopi 2 7 5) (with12 .ctl 0 0) (fun t => t.me.loops[2].lc == 7 && t.me.loops[2].lend == 0x68 && t.me.depth == 1) = true := by
  decide +kernel

/-- R107-R111: 63 tokens are the most; TOKT takes what is there and says so. -/
theorem test_tokens :
    does (.toks 1 63) (with12 .ctl 0 0) (fun t => t.here.toks[1] == 63) = true ∧
    does (.tokt 3 1 2) (at0 .ld fun k => { k with toks := k.toks.set 1 3 }) (fun t => t.reg 3 == 1 && t.here.toks[1] == 1) = true ∧
    does (.tokw 1 4) (at0 .ld fun k => { k with toks := k.toks.set 1 3 }) (fun t => t.here.toks[1] == 3 && t.me.wait == .tokw 1 4) = true := by
  decide +kernel

/-- R348, R352-R354: SYS goes to the handler with epc past it and the number in tval; ERET goes back to user mode. -/
theorem test_traps :
    does (.sys 9) (seq0 .st fun q => { q with pc := 0x40, tvec := 0x800 })
      (fun t => t.me.pc == 0x800 && t.me.epc == 0x48 && t.me.tval == 9 && t.me.cause == 0x1F && t.me.sup && t.me.inTrap && !t.me.psup) = true ∧
    does .eret (seq0 .ex fun q => { q with pc := 0x800, epc := 0x48, sup := true, inTrap := true })
      (fun t => t.me.pc == 0x48 && !t.me.sup && !t.me.inTrap) = true ∧
    does .eret (seq0 .ex fun q => { q with sup := true }) (fun t => t.me.cause == (Cause.code .notInTrap)) = true ∧
    does .eret (at0 .ctl) (fun t => match t.me.run with | .frozen v => v.kind == .privilegedInstruction | _ => false) = true := by
  decide +kernel

/-- R209, R210: an arrival of more than the count breaks a hitch of its owner, a wait on a complete one answers 0. -/
theorem test_hitches :
    does (.hinit 1 5) (hitched freeHitch) (fun t => t.hitch 0 1 == ⟨5, some 0, false⟩) = true ∧
    does (.harv 1 2) (hitched ⟨5, some 0, false⟩) (fun t => t.hitch 0 1 == ⟨3, some 0, false⟩) = true ∧
    does (.hwait 3 1 true) (hitched ⟨5, some 0, false⟩) (fun t => t.reg 3 == 5) = true := by decide +kernel

/-- EX with v1 and v2, and what v3 holds once the result has landed. -/
def lanes (x y : Row) : State := at0 .ex fun k => { k with ex := { k.ex with v := (k.ex.v.set 1 x).set 2 y } }
def v3 (i : Instr) (s : State) (p : Nat → Bool) : Bool := does i s fun t => p t.here.settle.ex.v[3].toNat

/-- R124: SAT stops at 127, a shift of a lane by its width leaves the sign. -/
theorem test_lane_integers :
    v3 (.vadd true ⟨.v 3, .i8, 0, false, .v 1, .v 2⟩) (lanes 0x7F01 0x0101) (fun x => x == 0x7F02) = true ∧
    v3 (.vsub false ⟨.v 3, .n16, 0, false, .v 1, .v 2⟩) (lanes 0x10000 1) (fun x => x == 0x1FFFF) = true ∧
    v3 (.vmulh ⟨.v 3, .i8, 0, false, .v 1, .v 2⟩) (lanes 0x80 0x80) (fun x => x == 0x40) = true ∧
    v3 (.vneg true ⟨.v 3, .i8, 0, false, .v 1⟩) (lanes 0x80 0) (fun x => x == 0x7F) = true := by decide +kernel

/-- R126: 1 + 1 on BF16; 1.5 × 1.5 − 2 on FP32; −0 is not less than +0. -/
theorem test_lane_floats :
    v3 (.vfadd false false ⟨.v 3, .bf16, 0, false, .v 1, .v 2⟩) (lanes 0x3F80 0x3F80) (fun x => x % 65536 == 0x4000) = true ∧
    v3 (.vfms false false ⟨.v 3, .fp32, 0, false, .v 1, .v 1, .v 2⟩) (lanes 0x3FC00000 0x40000000) (fun x => x % 2 ^ 32 == 0x3E800000) = true ∧
    does (.vcmpLt ⟨3, .fp32, 0, false, .v 1, .v 2⟩) (lanes 0x80000000 0) (fun t => t.here.settle.ex.k[3] == 0) = true := by decide +kernel

/-- R132: FP32 1 + 2^-8 is halfway and goes to even on BF16; the lanes outside the part stay. -/
theorem test_lane_conversions :
    v3 (.vcvt false false .fp32 ⟨.v 3, .bf16, 0, false, .v 1⟩ 1) (lanes 0x3F808000 0) (fun x => x / 2 ^ 1024 % 65536 == 0x3F80 && x % 2 ^ 1024 == 0) = true ∧
    v3 (.vcvt false false .i8 ⟨.v 3, .i16, 0, false, .v 1⟩ 0) (lanes 0x80FF 0) (fun x => x == 0xFF80FFFF) = true := by decide +kernel

/-- R138: two lanes of an N32 row sum to 300 in a scalar register. -/
theorem test_reductions :
    does (.vredAdd ⟨.s 3, .n32, 0, false, .v 1, 6⟩) (lanes (200 * 2 ^ 32 + 100) 0) (fun t => t.landed 3 == 300) = true ∧
    does (.kpopc 3 1) (at0 .ex fun k => { k with ex := { k.ex with k := k.ex.k.set 1 0xF0F } }) (fun t => t.landed 3 == 8) = true := by
  decide +kernel

/-- R164, R155: a window and a shape field that two instructions set. -/
theorem test_shapes_and_windows :
    does (.shset 1 2 3 16) (seq0 .ld fun q => q.setReg 3 0x100) (fun t => (t.here.shape 1)[2] == 0x110) = true ∧
    does (.smap 0 2 0 4 2) (manned .st 0 fun k => k.onSeq .st fun q => q.setReg 2 0x10000)
      (fun t => t.here.wins[0] == some ⟨0x10000, 0, 4, 2⟩) = true ∧
    does (.shget 3 1 0) (mapped .ld 0) (fun t => t.reg 3 == 0x10000) = true := by decide +kernel

/-- R374, R416: what reset gives, and a write that Lovage clips. -/
theorem test_registers :
    does (.mfsr 3 .relpol) (seq0 .ctl fun q => { q with sup := true }) (fun t => t.reg 3 == 0xE0) = true ∧
    does (.hostRegisterWrite .pwcap 6000) (at0 .ctl) (fun t => t.mg.pwcap == 5600) = true ∧
    does .remainingDiesBringup { State.reset with mgst := 2 } (fun t => t.mgst == 3) = true := by decide +kernel


end Sys2Proof.Tests
end

section
/-! SUPPORT. A word is put together again from its fields (R58-R62), an operand field from the operand read from it
(R65-R67), and each part of the decoder (R71, R72) answers only an instruction whose encoding has the fields it was given. -/

namespace Sys2Proof.Laws

open BitVec Sys2Proof.Machine

/-! ## Words from their fields -/

theorem ofBool_getLsbD {l : Nat} (w : BitVec l) (n : Nat) : ofBool (w.getLsbD n) = w.extractLsb' n 1 := by
  ext i hi
  obtain rfl : i = 0 := by omega
  simp

theorem extractLsb'_one_of_getLsbD {l n : Nat} {w : BitVec l} (h : w.getLsbD n = false) : w.extractLsb' n 1 = 0#1 := by
  rw [← ofBool_getLsbD, h]
  rfl

theorem oWord_oFields {w : Word} (h : bit56 w = false) : oWord (majorOf w) (ypOf w) (oFields w) = w := by
  simp only [oWord, oFields, majorOf, ypOf, ofBool_getLsbD, ← extractLsb'_one_of_getLsbD h]
  iterate 14 rw [extractLsb'_append_extractLsb'_eq_extractLsb' (by rfl)]
  exact extractLsb'_eq_self

theorem iWord_iFields {w : Word} (h : bit56 w = false) : iWord (majorOf w) (ypOf w) (iFields w) = w := by
  simp only [iWord, iFields, majorOf, ypOf, ofBool_getLsbD, ← extractLsb'_one_of_getLsbD h]
  iterate 8 rw [extractLsb'_append_extractLsb'_eq_extractLsb' (by rfl)]
  exact extractLsb'_eq_self

theorem bWord_bFields (w : Word) : bWord (majorOf w) (ypOf w) (bFields w) = w := by
  simp only [bWord, bFields, majorOf, ypOf, ofBool_getLsbD]
  iterate 7 rw [extractLsb'_append_extractLsb'_eq_extractLsb' (by rfl)]
  exact extractLsb'_eq_self

theorem mWord_mFields {w : Word} (h : bit56 w = false) : mWord (majorOf w) (ypOf w) (mFields w) = w := by
  simp only [mWord, mFields, majorOf, ypOf, ofBool_getLsbD, ← extractLsb'_one_of_getLsbD h]
  iterate 9 rw [extractLsb'_append_extractLsb'_eq_extractLsb' (by rfl)]
  exact extractLsb'_eq_self

theorem cWord_cFields (w : Word) : cWord (majorOf w) (ypOf w) (cFields w) = w := by
  simp only [cWord, cFields, majorOf, ypOf, ofBool_getLsbD]
  iterate 13 rw [extractLsb'_append_extractLsb'_eq_extractLsb' (by rfl)]
  exact extractLsb'_eq_self

/-- A field of a word from the number that it holds. -/
theorem ofNat_of_toNat {w n : Nat} {x : BitVec w} (h : x.toNat = n) : BitVec.ofNat w n = x := by
  rw [← h, ofNat_toNat, setWidth_eq]

theorem ofNat_toFin {w : Nat} (x : BitVec w) : BitVec.ofNat w x.toFin.val = x := ofNat_of_toNat rfl

/-- A field whose high bits are zero is its low bits. -/
theorem zero_append_low (m k : Nat) {x : BitVec (m + k)} (h : x.extractLsb' k m = 0) : 0#m ++ x.extractLsb' 0 k = x := by
  rw [show 0#m = x.extractLsb' k m from h.symm, extractLsb'_append_extractLsb'_eq_extractLsb' (Nat.zero_add k).symm,
    extractLsb'_eq_self]

theorem ofNat_low (m k : Nat) {x : BitVec (m + k)} (h : x.extractLsb' k m = 0) :
    BitVec.ofNat (m + k) (x.extractLsb' 0 k).toNat = x := by
  refine ofNat_of_toNat ?_
  conv_lhs => rw [← zero_append_low m k h, toNat_append]
  simp

/-! ## Codes from what they stand for -/

theorem sty_ofCode : ∀ c : BitVec 4, ∀ t ∈ STy.ofCode c, t.code = c := by decide
theorem lty_ofCode : ∀ c : BitVec 4, ∀ t ∈ LTy.ofCode c, t.code = c := by decide
theorem elTy_ofCode : ∀ c : BitVec 4, ∀ t ∈ ElTy.ofCode c, t.code = c := by decide
theorem scLay_ofCode : ∀ c : BitVec 4, ∀ l ∈ ScLay.ofCode c, l.code = c := by decide
theorem gran_ofCode : ∀ c : BitVec 2, ∀ g ∈ Gran.ofCode c, g.code = c := by decide
theorem hint_ofCode : ∀ c : BitVec 3, ∀ h ∈ Hint.ofCode c, h.code = c := by decide
theorem drainMode_ofCode : ∀ c : BitVec 3, ∀ m ∈ DrainMode.ofCode c, m.code = c := by decide
theorem scope_ofCode : ∀ c : BitVec 4, ∀ s ∈ Scope.ofCode c, s.code = c := by decide
theorem order_ofCode : ∀ c : BitVec 2, (Order.ofCode c).code = c := by decide
theorem path_ofCode : ∀ c : BitVec 4, ∀ p ∈ Path.ofCode c, p.num = c := by decide

theorem cond_ofCode {n : Nat} {c : Cond} (h : Cond.ofCode n = some c) : c.code = n := by
  unfold Cond.ofCode at h
  split at h <;> simp only [Option.some.injEq, reduceCtorEq] at h <;> subst h <;> rfl

theorem inRange_eq_some {n base count : Nat} {x : Fin count} (h : inRange n base count = some x) : n = base + x.val := by
  unfold inRange at h
  split at h
  · obtain rfl := Option.some.inj h
    exact (Nat.add_sub_cancel' (by omega)).symm
  · cases h

theorem spr_ofNum {n : Nat} {r : Spr} (h : Spr.ofNum n = some r) : r.num = n := by
  unfold Spr.ofNum at h
  split at h
  case h_41 =>
    simp only [Option.orElse_eq_some, Option.map_eq_some_iff] at h
    obtain ⟨m, hm, rfl⟩ | ⟨-, ⟨m, hm, rfl⟩ | ⟨-, ⟨m, hm, rfl⟩ | ⟨-, ⟨m, hm, rfl⟩ | ⟨-, ⟨m, hm, rfl⟩ |
      ⟨-, ⟨m, hm, rfl⟩ | ⟨-, m, hm, rfl⟩⟩⟩⟩⟩⟩ := h
    all_goals exact (inRange_eq_some hm).symm
  all_goals
    obtain rfl := Option.some.inj h
    rfl

/-! ## Operand fields from what they stand for -/

/-- What it takes for a part of the decoder, written as a `do`, to answer: each step in turn has. -/
theorem do_eq_some {α β : Type} {x : Option α} {f : α → Option β} {b : β} :
    (x >>= f) = some b ↔ ∃ a, x = some a ∧ f a = some b :=
  Option.bind_eq_some_iff

theorem return_eq_some {α : Type} {a b : α} : (pure a : Option α) = some b ↔ a = b := Option.some_inj

theorem need_eq_some {b : Bool} {u : Unit} : need b = some u ↔ b = true := by
  cases b <;> simp [need]

theorem zero?_eq {f : Fld} {u : Unit} (h : f.zero? = some u) : Fld.zero = f := by
  obtain ⟨k, i⟩ := f
  simp only [Fld.zero?, Fld.isZero, Option.ite_none_right_eq_some, Bool.and_eq_true, beq_iff_eq] at h
  obtain ⟨⟨rfl, rfl⟩, -⟩ := h
  rfl

theorem sIdx_eq {i : BitVec 8} {n : Fin 32} (h : sIdx i = some n) : BitVec.ofNat 8 n.val = i :=
  ofNat_of_toNat ((inRange_eq_some h).trans (Nat.zero_add _))

theorem lit_eq {f : Fld} {x : BitVec 8} (h : f.lit = some x) : litFld x = f := by
  obtain ⟨k, i⟩ := f
  simp only [Fld.lit, Option.ite_none_right_eq_some, beq_iff_eq, Option.some.injEq] at h
  obtain ⟨rfl, rfl⟩ := h
  rfl

theorem sdst_eq {f : Fld} {n : Fin 32} (h : f.sdst = some n) : sFld n = f := by
  obtain ⟨k, i⟩ := f
  simp only [Fld.sdst, Option.ite_none_right_eq_some, beq_iff_eq] at h
  obtain ⟨rfl, hi⟩ := h
  rw [sFld, sIdx_eq hi]

theorem kmask_eq {f : Fld} {n : Fin 8} (h : f.kmask = some n) : kFld n = f := by
  obtain ⟨x, hx, hn⟩ := Option.bind_eq_some_iff.1 h
  rw [← lit_eq hx, kFld, litFld, ofNat_of_toNat ((inRange_eq_some hn).trans (Nat.zero_add _))]

theorem accum_eq {f : Fld} {n : Fin 64} (h : f.accum = some n) : aFld n = f := by
  obtain ⟨k, i⟩ := f
  simp only [Fld.accum, Option.ite_none_right_eq_some, beq_iff_eq] at h
  obtain ⟨rfl, hi⟩ := h
  rw [aFld, ofNat_of_toNat (inRange_eq_some hi)]

theorem loopCtr_eq {f : Fld} {n : Fin 4} (h : f.loopCtr = some n) : loopFld n = f := by
  obtain ⟨k, i⟩ := f
  simp only [Fld.loopCtr, Option.ite_none_right_eq_some, beq_iff_eq] at h
  obtain ⟨rfl, hi⟩ := h
  rw [loopFld, ofNat_of_toNat ((inRange_eq_some hi).trans (Nat.zero_add _))]

theorem ssrc_eq {f : Fld} {x : SSrc} (h : f.ssrc = some x) : x.fld = f := by
  obtain ⟨k, i⟩ := f
  unfold Fld.ssrc at h
  split at h
  case h_1 hk =>
    obtain ⟨n, hn, rfl⟩ := Option.map_eq_some_iff.1 h
    obtain rfl : 1#2 = k := ofNat_of_toNat hk
    rw [SSrc.fld, sIdx_eq hn]
    rfl
  case h_2 hk =>
    obtain rfl := Option.some.inj h
    obtain rfl : 2#2 = k := ofNat_of_toNat hk
    rfl
  case h_3 hk =>
    obtain rfl := Option.some.inj h
    obtain rfl : 3#2 = k := ofNat_of_toNat hk
    rfl
  case h_4 => cases h

theorem ssrc12_eq {f : Fld} {x : SSrc} (h : f.ssrc12 = some x) : x.fld = f := by
  simp only [Fld.ssrc12, Option.ite_none_left_eq_some] at h
  exact ssrc_eq h.2

theorem vsrc_eq {f : Fld} {x : VSrc} (h : f.vsrc = some x) (hq : f.srcWrong = false) : x.fld = f := by
  obtain ⟨k, i⟩ := f
  simp only [Fld.vsrc, hq] at h
  split at h
  case isTrue hk =>
    obtain rfl : k = 0 := eq_of_beq hk
    simp only [Option.orElse_eq_some, Option.map_eq_some_iff, Bool.false_eq_true, if_false, reduceCtorEq, and_false,
      or_false] at h
    obtain ⟨n, hn, rfl⟩ | ⟨-, ⟨n, hn, rfl⟩ | ⟨-, n, hn, rfl⟩⟩ := h
    · rw [VSrc.fld, ofNat_of_toNat ((inRange_eq_some hn).trans (Nat.zero_add _))]
    · rw [VSrc.fld, ofNat_of_toNat (inRange_eq_some hn)]
    · rw [VSrc.fld, ofNat_of_toNat (inRange_eq_some hn)]
  case isFalse =>
    obtain ⟨x, hx, rfl⟩ := Option.map_eq_some_iff.1 h
    exact ssrc_eq hx

theorem vdst_eq {f : Fld} {x : VDst} (h : f.vdst = some x) (hq : f.dstWrong = false) : x.fld = f := by
  obtain ⟨k, i⟩ := f
  simp only [Fld.vdst, hq, Option.ite_none_right_eq_some, beq_iff_eq, Option.orElse_eq_some, Option.map_eq_some_iff,
    Bool.false_eq_true, if_false, reduceCtorEq, and_false, or_false] at h
  obtain ⟨rfl, ⟨n, hn, rfl⟩ | ⟨-, ⟨n, hn, rfl⟩ | ⟨-, n, hn, rfl⟩⟩⟩ := h
  · rw [VDst.fld, ofNat_of_toNat ((inRange_eq_some hn).trans (Nat.zero_add _))]
  · rw [VDst.fld, ofNat_of_toNat (inRange_eq_some hn)]
  · rw [VDst.fld, ofNat_of_toNat (inRange_eq_some hn)]

theorem rdst_eq {f : Fld} {x : RDst} (h : f.rdst = some x) (hq : f.dstWrong = false) : x.fld = f := by
  obtain ⟨k, i⟩ := f
  unfold Fld.rdst at h
  split at h
  case isTrue hk =>
    obtain ⟨n, hn, rfl⟩ := Option.map_eq_some_iff.1 h
    obtain rfl : k = 1 := eq_of_beq hk
    rw [RDst.fld, sFld, sIdx_eq hn]
  case isFalse =>
    obtain ⟨d, hd, rfl⟩ := Option.map_eq_some_iff.1 h
    exact vdst_eq hd hq

/-! ## Operands and commands from their fields -/

/-- No field of an O word names a queue against its direction (R66). -/
structure Directed (o : OFields) : Prop where
  d : o.d.dstWrong = false
  a : o.a.srcWrong = false
  b : o.b.srcWrong = false
  c : o.c.srcWrong = false

theorem directed_of_rawQueuesOk {m : Nat} {w : Word} (hf : majorFmt m = some .o) (h : rawQueuesOk m w = true) :
    Directed (oFields w) := by
  simp only [rawQueuesOk, hf, rawQueuesOk.q3, Bool.not_eq_true', Bool.or_eq_false_iff] at h
  obtain ⟨⟨⟨hd, ha⟩, hb⟩, hc⟩ := h
  exact ⟨hd, ha, hb, hc⟩

theorem noLanes_eq {o : OFields} {u : Unit} (h : o.noLanes = some u) :
    BitVec.ofNat 3 (0 : Fin 8).val = o.mask ∧ false = o.mz := by
  simp only [OFields.noLanes, need_eq_some, Bool.and_eq_true, beq_iff_eq, Bool.not_eq_true'] at h
  exact ⟨h.1.symm, h.2.symm⟩

section
variable {o : OFields} {fn : Nat} (hfn : o.fn.toNat = fn)
include hfn

theorem oFields_eq {d a b c : Fld} {mask : Fin 8} {mz : Bool} {ty : BitVec 4} (hd : d = o.d) (ha : a = o.a) (hb : b = o.b)
    (hc : c = o.c) (hk : BitVec.ofNat 3 mask.val = o.mask) (hz : mz = o.mz) (ht : ty = o.ty) :
    OFields.of fn d a b c mask mz ty = o := by
  subst hd ha hb hc hz ht
  rw [OFields.of, ofNat_of_toNat hfn, hk]

theorem s1_eq {x : S1} (h : o.s1 = some x) : x.of fn = o := by
  simp only [OFields.s1, do_eq_some, return_eq_some] at h
  obtain ⟨_, hn, _, hb, _, hc, t, ht, d, hd, a, ha, rfl⟩ := h
  obtain ⟨hk, hz⟩ := noLanes_eq hn
  exact oFields_eq hfn (sdst_eq hd) (ssrc_eq ha) (zero?_eq hb) (zero?_eq hc) hk hz (sty_ofCode _ _ ht)

theorem s2_eq {x : S2} (h : o.s2 = some x) : x.of fn = o := by
  simp only [OFields.s2, do_eq_some, return_eq_some] at h
  obtain ⟨_, hn, _, hc, t, ht, d, hd, a, ha, b, hb, rfl⟩ := h
  obtain ⟨hk, hz⟩ := noLanes_eq hn
  exact oFields_eq hfn (sdst_eq hd) (ssrc_eq ha) (ssrc_eq hb) (zero?_eq hc) hk hz (sty_ofCode _ _ ht)

theorem s3_eq {x : S3} (h : o.s3 = some x) : x.of fn = o := by
  simp only [OFields.s3, do_eq_some, return_eq_some] at h
  obtain ⟨_, hn, t, ht, d, hd, a, ha, b, hb, c, hc, rfl⟩ := h
  obtain ⟨hk, hz⟩ := noLanes_eq hn
  exact oFields_eq hfn (sdst_eq hd) (ssrc_eq ha) (ssrc_eq hb) (ssrc_eq hc) hk hz (sty_ofCode _ _ ht)

theorem k3_eq {k : Fin 8 × Fin 8 × Fin 8} (h : o.k3 = some k) :
    OFields.of fn .zero (kFld k.1) (kFld k.2.1) (kFld k.2.2) 0 false 0 = o := by
  simp only [OFields.k3, do_eq_some, return_eq_some, need_eq_some, beq_iff_eq] at h
  obtain ⟨_, hn, _, hd, _, ht, a, ha, b, hb, c, hc, rfl⟩ := h
  obtain ⟨hk, hz⟩ := noLanes_eq hn
  exact oFields_eq hfn (zero?_eq hd) (kmask_eq ha) (kmask_eq hb) (kmask_eq hc) hk hz ht.symm

theorem k2_eq {k : Fin 8 × Fin 8} (h : o.k2 = some k) : OFields.of fn .zero (kFld k.1) (kFld k.2) .zero 0 false 0 = o := by
  simp only [OFields.k2, do_eq_some, return_eq_some, need_eq_some, beq_iff_eq] at h
  obtain ⟨_, hn, _, hd, _, hc, _, ht, a, ha, b, hb, rfl⟩ := h
  obtain ⟨hk, hz⟩ := noLanes_eq hn
  exact oFields_eq hfn (zero?_eq hd) (kmask_eq ha) (kmask_eq hb) (zero?_eq hc) hk hz ht.symm

variable (hq : Directed o)
include hq

theorem v1_eq {x : V1} (h : o.v1 = some x) : x.of fn = o := by
  simp only [OFields.v1, do_eq_some, return_eq_some] at h
  obtain ⟨_, hb, _, hc, d, hd, t, ht, a, ha, rfl⟩ := h
  exact oFields_eq hfn (vdst_eq hd hq.d) (vsrc_eq ha hq.a) (zero?_eq hb) (zero?_eq hc) (ofNat_toFin _) rfl (lty_ofCode _ _ ht)

theorem v2_eq {x : V2} (h : o.v2 = some x) : x.of fn = o := by
  simp only [OFields.v2, do_eq_some, return_eq_some] at h
  obtain ⟨_, hc, d, hd, t, ht, a, ha, b, hb, rfl⟩ := h
  exact oFields_eq hfn (vdst_eq hd hq.d) (vsrc_eq ha hq.a) (vsrc_eq hb hq.b) (zero?_eq hc) (ofNat_toFin _) rfl (lty_ofCode _ _ ht)

theorem v3_eq {x : V3} (h : o.v3 = some x) : x.of fn = o := by
  simp only [OFields.v3, do_eq_some, return_eq_some] at h
  obtain ⟨d, hd, t, ht, a, ha, b, hb, c, hc, rfl⟩ := h
  exact oFields_eq hfn (vdst_eq hd hq.d) (vsrc_eq ha hq.a) (vsrc_eq hb hq.b) (vsrc_eq hc hq.c) (ofNat_toFin _) rfl
    (lty_ofCode _ _ ht)

theorem vcmp_eq {x : VCmp} (h : o.vcmp = some x) : x.of fn = o := by
  simp only [OFields.vcmp, do_eq_some, return_eq_some] at h
  obtain ⟨_, hd, k, hk, t, ht, a, ha, b, hb, rfl⟩ := h
  exact oFields_eq hfn (zero?_eq hd) (kmask_eq hk) (vsrc_eq ha hq.b) (vsrc_eq hb hq.c) (ofNat_toFin _) rfl (lty_ofCode _ _ ht)

theorem vred_eq {x : VRed} (h : o.vred = some x) : x.of fn = o := by
  simp only [OFields.vred, do_eq_some, return_eq_some] at h
  obtain ⟨_, hc, d, hd, t, ht, a, ha, b, hb, rfl⟩ := h
  exact oFields_eq hfn (rdst_eq hd hq.d) (vsrc_eq ha hq.a) (lit_eq hb) (zero?_eq hc) (ofNat_toFin _) rfl (lty_ofCode _ _ ht)

end

/-- fn of VPACK and VUNPK: `sel` in the high bits, the element type in the low four (R136, R137). -/
theorem vpk_eq {o : OFields} {sel : Nat} {x : VPk} (hfn : o.fn.toNat = sel + (o.fn.extractLsb' 0 4).toNat)
    (hq : Directed o) (h : o.vpk = some x) : x.of sel = o := by
  simp only [OFields.vpk, do_eq_some, need_eq_some, Bool.not_eq_true'] at h
  obtain ⟨_, hz, el, he, d, hd, a, ha, t, ht, h⟩ := h
  rw [← elTy_ofCode _ _ he] at hfn
  split at h
  case isTrue =>
    simp only [do_eq_some, return_eq_some] at h
    obtain ⟨_, hb, _, hc, rfl⟩ := h
    exact oFields_eq hfn (vdst_eq hd hq.d) (vsrc_eq ha hq.a) (zero?_eq hb) (zero?_eq hc) (ofNat_toFin _) hz.symm
      (lty_ofCode _ _ ht)
  case isFalse =>
    simp only [do_eq_some, return_eq_some] at h
    obtain ⟨b, hb, c, hc, rfl⟩ := h
    exact oFields_eq hfn (vdst_eq hd hq.d) (vsrc_eq ha hq.a) (vsrc_eq hb hq.b) (lit_eq hc) (ofNat_toFin _) hz.symm
      (lty_ofCode _ _ ht)

theorem iFields_eq {o : IFields} {fn : Nat} {d a : Fld} {imm : BitVec 32} (hfn : o.fn.toNat = fn) (hd : d = o.d) (ha : a = o.a)
    (hi : imm = o.imm) : IFields.of fn d a imm = o := by
  subst hd ha hi
  rw [IFields.of, ofNat_of_toNat hfn]

theorem mFields_eq {o : MFields} {fn : Nat} {q : BitVec 4} {base : Fin 32} {sh : Fin 16} {gran : BitVec 2} {hint : BitVec 3}
    {off : BitVec 32} (hfn : o.fn.toNat = fn) (hq : q = o.q) (hb : BitVec.ofNat 5 base.val = o.base)
    (hs : BitVec.ofNat 4 sh.val = o.sh) (hg : gran = o.gran) (hh : hint = o.hint) (ho : off = o.off) :
    MFields.of fn q base sh gran hint off = o := by
  subst hq hg hh ho
  rw [MFields.of, ofNat_of_toNat hfn, hb, hs]

theorem mop_eq {o : MFields} {fn : Nat} {x : MOp} (hfn : o.fn.toNat = fn) (h : o.mop = some x) : x.of fn = o := by
  simp only [MFields.mop, do_eq_some, return_eq_some] at h
  obtain ⟨g, hg, t, ht, rfl⟩ := h
  exact mFields_eq hfn (ofNat_toFin _) (ofNat_toFin _) (ofNat_toFin _) (gran_ofCode _ _ hg) (hint_ofCode _ _ ht) rfl

theorem pad_eq {o : MFields} {fn : Nat} {x : PadOp} (hfn : o.fn.toNat = fn) (h : o.pad = some x) : x.of fn = o := by
  simp only [MFields.pad, do_eq_some, return_eq_some, need_eq_some, Bool.and_eq_true, beq_iff_eq] at h
  obtain ⟨_, ⟨⟨hg, hs⟩, hh⟩, rfl⟩ := h
  exact mFields_eq hfn (ofNat_toFin _) (ofNat_toFin _) hs.symm hg.symm hh.symm rfl

theorem cmd_eq {o : CFields} {fn : Nat} {x : CCmd} (hfn : o.fn.toNat = fn) (h : o.cmd = some x) : x.of fn = o := by
  simp only [CFields.cmd, do_eq_some, return_eq_some] at h
  obtain ⟨s, hs, rfl⟩ := h
  simp only [CCmd.of, ofNat_of_toNat hfn, ofNat_toFin, scope_ofCode _ _ hs, order_ofCode]

/-! ## Instructions spelled by words -/

/-- An instruction whose encoding is one word, as a function of the yield-point bit. -/
def Spells (word : Bool → Word) (i : Instr) : Prop := ∀ y, encode ⟨y, i⟩ = (word y, 0)

theorem spells_of_eq {F : Type} {o' o : F} {i : Instr} (word : Bool → F → Word) (e : o' = o) (enc : Spells (word · o') i) :
    Spells (word · o) i := e ▸ enc

/-- The shape of most rows of the opcode map (R71): the operands are read from the fields, and the row names the instruction. -/
theorem spells_of_map {α F : Type} {read : Option α} {fields : α → F} {f : α → Instr} {o : F} {i : Instr}
    (word : Bool → F → Word) (h : read.map f = some i) (hr : ∀ {x}, read = some x → fields x = o)
    (enc : ∀ x, Spells (word · (fields x)) (f x)) :
    Spells (word · o) i := by
  obtain ⟨x, hx, rfl⟩ := Option.map_eq_some_iff.1 h
  exact spells_of_eq word (hr hx) (enc x)

theorem oFields_withC_eq {o p : OFields} {c : Fld} (h : p = { o with c := .zero }) (hc : c = o.c) : { p with c := c } = o := by
  subst h hc
  rfl

/-! ### Scalar and control words -/

theorem parse01_spells {o : OFields} {i : Instr} (h : parse01 o = some i) : Spells (oWord 0x01 · o) i := by
  unfold parse01 at h
  split at h
  case h_13 hfn => exact spells_of_map (oWord 0x01) h (s3_eq hfn) fun _ _ => rfl
  case h_14 hfn =>
    simp only [do_eq_some, return_eq_some] at h
    obtain ⟨n, hn, c, hc, x, hx, rfl⟩ := h
    have hlit : litFld (BitVec.ofNat 8 c.code) = o.c := by rw [← lit_eq hn, ofNat_of_toNat (cond_ofCode hc).symm]
    exact spells_of_eq (oWord 0x01) (oFields_withC_eq (s2_eq (o := { o with c := .zero }) hfn hx) hlit) fun _ => rfl
  case h_15 hfn | h_16 hfn => exact spells_of_map (oWord 0x01) h (s1_eq hfn) fun _ _ => rfl
  case h_17 => cases h
  all_goals rename_i hfn; exact spells_of_map (oWord 0x01) h (s2_eq hfn) fun _ _ => rfl

theorem parse02_spells {o : IFields} {i : Instr} (h : parse02 o = some i) : Spells (iWord 0x02 · o) i := by
  simp only [parse02, do_eq_some] at h
  obtain ⟨_, ha, d, hd, h⟩ := h
  split at h
  case h_1 hfn | h_2 hfn =>
    obtain rfl := Option.some.inj h
    exact spells_of_eq (iWord 0x02) (iFields_eq hfn (sdst_eq hd) (zero?_eq ha) rfl) fun _ => rfl
  case h_3 => cases h

theorem parse08_spells {o : BFields} {i : Instr} (h : parse08 o = some i) : Spells (bWord 0x08 · o) i := by
  obtain ⟨cond, a, b, disp⟩ := o
  unfold parse08 at h
  split at h <;> simp only [do_eq_some, return_eq_some] at h
  case isTrue hcond =>
    obtain ⟨_, ha, _, hb, rfl⟩ := h
    obtain rfl : cond = 0 := eq_of_beq hcond
    exact spells_of_eq (bWord 0x08) (by rw [← zero?_eq ha, ← zero?_eq hb]) fun _ => rfl
  case isFalse =>
    obtain ⟨c, hc, x, hx, z, hz, rfl⟩ := h
    exact spells_of_eq (bWord 0x08) (by rw [ofNat_of_toNat (cond_ofCode hc).symm, ssrc_eq hx, ssrc_eq hz]) fun _ => rfl

theorem parse09_spells {o : BFields} {i : Instr} (h : parse09 o = some i) : Spells (bWord 0x09 · o) i := by
  obtain ⟨cond, a, b, disp⟩ := o
  simp only [parse09, do_eq_some, return_eq_some, need_eq_some, beq_iff_eq] at h
  obtain ⟨_, ha, _, hb, _, hc, rfl⟩ := h
  have hcond : 0#4 ++ ofBool (cond.getLsbD 0) = cond := by rw [ofBool_getLsbD]; exact zero_append_low 4 1 hc
  exact spells_of_eq (bWord 0x09) (by rw [hcond, ← zero?_eq ha, ← zero?_eq hb]) fun _ => rfl

theorem parse0A_spells {o : BFields} {i : Instr} (h : parse0A o = some i) : Spells (bWord 0x0A · o) i := by
  obtain ⟨cond, a, b, disp⟩ := o
  simp only [parse0A, do_eq_some, return_eq_some, need_eq_some, beq_iff_eq] at h
  obtain ⟨_, rfl, _, hb, d, hd, rfl⟩ := h
  exact spells_of_eq (bWord 0x0A) (by rw [sdst_eq hd, zero?_eq hb]) fun _ => rfl

theorem parse0B_spells {o : IFields} {i : Instr} (h : parse0B o = some i) : Spells (iWord 0x0B · o) i := by
  unfold parse0B at h
  split at h <;> simp only [do_eq_some, return_eq_some, need_eq_some, beq_iff_eq, reduceCtorEq] at h
  case h_1 hfn =>
    obtain ⟨d, hd, a, ha, rfl⟩ := h
    exact spells_of_eq (iWord 0x0B) (iFields_eq hfn (sdst_eq hd) (ssrc12_eq ha) rfl) fun _ => rfl
  case h_2 hfn =>
    obtain ⟨_, hd, _, hi, a, ha, rfl⟩ := h
    exact spells_of_eq (iWord 0x0B) (iFields_eq hfn (zero?_eq hd) (ssrc12_eq ha) hi.symm) fun _ => rfl
  case h_3 hfn =>
    obtain ⟨d, hd, a, ha, rfl⟩ := h
    exact spells_of_eq (iWord 0x0B) (iFields_eq hfn (loopCtr_eq hd) (ssrc_eq ha) rfl) fun _ => rfl
  case h_4 hfn =>
    obtain ⟨_, ha, d, hd, rfl⟩ := h
    have hi : o.imm.extractLsb' 16 16 ++ o.imm.extractLsb' 0 16 = o.imm :=
      (extractLsb'_append_extractLsb'_eq_extractLsb' rfl).trans extractLsb'_eq_self
    exact spells_of_eq (iWord 0x0B) (iFields_eq hfn (loopCtr_eq hd) (zero?_eq ha) hi) fun _ => rfl
  case h_5 hfn =>
    obtain ⟨_, hd, _, hi, a, ha, rfl⟩ := h
    exact spells_of_eq (iWord 0x0B) (iFields_eq hfn (zero?_eq hd) (ssrc_eq ha) hi.symm) fun _ => rfl

theorem tokImm_eq {imm : BitVec 32} {t : Fin 16 × BitVec 6} (h : tokImm imm = some t) : tokWord t.1 t.2 = imm := by
  simp only [tokImm, do_eq_some, return_eq_some, need_eq_some, Bool.and_eq_true, beq_iff_eq] at h
  obtain ⟨_, ⟨hhi, hlo⟩, rfl⟩ := h
  rw [tokWord, ofNat_toFin, show 0#12 = imm.extractLsb' 20 12 from hhi.symm, show 0#10 = imm.extractLsb' 6 10 from hlo.symm]
  iterate 3 rw [extractLsb'_append_extractLsb'_eq_extractLsb' (by rfl)]
  exact extractLsb'_eq_self

theorem parse0C_spells {o : IFields} {i : Instr} (h : parse0C o = some i) : Spells (iWord 0x0C · o) i := by
  unfold parse0C at h
  split at h <;> simp only [do_eq_some, return_eq_some, need_eq_some, beq_iff_eq, reduceCtorEq] at h
  case h_1 hfn =>
    obtain ⟨_, hd, _, ha, _, hi, rfl⟩ := h
    exact spells_of_eq (iWord 0x0C) (iFields_eq hfn (zero?_eq hd) (zero?_eq ha) hi.symm) fun _ => rfl
  case h_2 hfn | h_3 hfn =>
    obtain ⟨_, hd, _, ha, t, ht, rfl⟩ := h
    exact spells_of_eq (iWord 0x0C) (iFields_eq hfn (zero?_eq hd) (zero?_eq ha) (tokImm_eq ht)) fun _ => rfl
  case h_4 hfn =>
    obtain ⟨_, ha, t, ht, d, hd, rfl⟩ := h
    exact spells_of_eq (iWord 0x0C) (iFields_eq hfn (sdst_eq hd) (zero?_eq ha) (tokImm_eq ht)) fun _ => rfl
  case h_5 hfn =>
    obtain ⟨_, hd, _, hi, a, ha, rfl⟩ := h
    exact spells_of_eq (iWord 0x0C) (iFields_eq hfn (zero?_eq hd) (ssrc_eq ha) (ofNat_low 30 2 hi)) fun _ => rfl

theorem parse0D_spells {o : IFields} {i : Instr} (hfn : o.fn.toNat = 0) (h : parse0D o = some i) :
    Spells (iWord 0x0D · o) i := by
  simp only [parse0D, do_eq_some, return_eq_some, need_eq_some, Bool.and_eq_true, beq_iff_eq] at h
  obtain ⟨_, ⟨hk, hi⟩, a, ha, rfl⟩ := h
  have hd : (⟨2, o.d.i⟩ : Fld) = o.d := by rw [← hk]
  exact spells_of_eq (iWord 0x0D) (iFields_eq hfn hd (ssrc_eq ha) hi.symm) fun _ => rfl

/-! ### Access words -/

theorem ofNat_low3 {q : BitVec 4} (h : q.getLsbD 3 = false) : BitVec.ofNat 4 (q.extractLsb' 0 3).toFin.val = q :=
  ofNat_low 1 3 (extractLsb'_one_of_getLsbD h)

theorem parse10_spells {o : MFields} {i : Instr} (h : parse10 o = some i) : Spells (mWord 0x10 · o) i := by
  unfold parse10 at h
  split at h
  case h_1 hfn | h_2 hfn | h_3 hfn => exact spells_of_map (mWord 0x10) h (mop_eq hfn) fun _ _ => rfl
  case h_4 hfn => exact spells_of_map (mWord 0x10) h (pad_eq hfn) fun _ _ => rfl
  all_goals simp only [do_eq_some, return_eq_some, need_eq_some, Bool.and_eq_true, beq_iff_eq, reduceCtorEq] at h
  case h_5 hfn =>
    obtain ⟨_, hg, t, ht, rfl⟩ := h
    exact spells_of_eq (mWord 0x10)
      (mFields_eq hfn (ofNat_toFin _) (ofNat_toFin _) (ofNat_toFin _) hg.symm (hint_ofCode _ _ ht) rfl) fun _ => rfl
  case h_6 hfn =>
    obtain ⟨_, hq, g, hg, t, ht, rfl⟩ := h
    exact spells_of_eq (mWord 0x10)
      (mFields_eq hfn hq.symm (ofNat_toFin _) (ofNat_toFin _) (gran_ofCode _ _ hg) (hint_ofCode _ _ ht) rfl) fun _ => rfl
  case h_7 hfn =>
    obtain ⟨_, ⟨⟨⟨hg, hs⟩, hh⟩, ho⟩, rfl⟩ := h
    have hoff : 0#24 ++ ofBool (o.off.getLsbD 7) ++ BitVec.ofNat 2 (o.off.extractLsb' 5 2).toFin.val ++
        o.off.extractLsb' 0 5 = o.off := by
      rw [show 0#24 = o.off.extractLsb' 8 24 from ho.symm, ofBool_getLsbD, ofNat_toFin]
      iterate 3 rw [extractLsb'_append_extractLsb'_eq_extractLsb' (by rfl)]
      exact extractLsb'_eq_self
    exact spells_of_eq (mWord 0x10)
      (mFields_eq hfn (ofNat_toFin _) (ofNat_toFin _) hs.symm hg.symm hh.symm hoff) fun _ => rfl
  case h_8 hfn =>
    obtain ⟨_, ⟨⟨hg, hs⟩, hq⟩, m, hm, rfl⟩ := h
    exact spells_of_eq (mWord 0x10)
      (mFields_eq hfn hq.symm (ofNat_toFin _) hs.symm hg.symm (drainMode_ofCode _ _ hm) rfl) fun _ => rfl

theorem parse11_spells {o : MFields} {i : Instr} (h : parse11 o = some i) : Spells (mWord 0x11 · o) i := by
  unfold parse11 at h
  split at h <;>
    simp only [do_eq_some, return_eq_some, need_eq_some, Bool.and_eq_true, Bool.not_eq_true', beq_iff_eq, reduceCtorEq] at h
  case h_1 hfn =>
    obtain ⟨_, ⟨hg, hh⟩, rfl⟩ := h
    have hq : ofBool (o.q.getLsbD 3) ++ BitVec.ofNat 3 (o.q.extractLsb' 0 3).toFin.val = o.q := by
      rw [ofBool_getLsbD, ofNat_toFin, extractLsb'_append_extractLsb'_eq_extractLsb' (by rfl)]
      exact extractLsb'_eq_self
    exact spells_of_eq (mWord 0x11)
      (mFields_eq hfn hq (ofNat_toFin _) (ofNat_toFin _) hg.symm hh.symm rfl) fun _ => rfl
  case h_2 hfn =>
    obtain ⟨_, ⟨hg, hq⟩, rfl⟩ := h
    exact spells_of_eq (mWord 0x11)
      (mFields_eq hfn (ofNat_low3 hq) (ofNat_toFin _) (ofNat_toFin _) hg.symm (ofNat_toFin _) rfl) fun _ => rfl
  case h_3 hfn | h_4 hfn =>
    obtain ⟨_, ⟨⟨⟨⟨hq, hs⟩, hg⟩, hh⟩, ho⟩, rfl⟩ := h
    exact spells_of_eq (mWord 0x11)
      (mFields_eq hfn (ofNat_low3 hq) (ofNat_toFin _) hs.symm hg.symm hh.symm ho.symm) fun _ => rfl

theorem parse12_spells {o : MFields} {i : Instr} (h : parse12 o = some i) : Spells (mWord 0x12 · o) i := by
  unfold parse12 at h
  split at h
  case h_1 hfn | h_2 hfn | h_5 hfn => exact spells_of_map (mWord 0x12) h (mop_eq hfn) fun _ _ => rfl
  case h_3 hfn | h_4 hfn => exact spells_of_map (mWord 0x12) h (pad_eq hfn) fun _ _ => rfl
  case h_6 => cases h

theorem parse13_spells {o : MFields} {i : Instr} (h : parse13 o = some i) : Spells (mWord 0x13 · o) i := by
  unfold parse13 at h
  split at h <;>
    simp only [do_eq_some, return_eq_some, need_eq_some, Bool.and_eq_true, Bool.not_eq_true', beq_iff_eq, reduceCtorEq] at h
  case h_1 hfn =>
    obtain ⟨_, ⟨hg, hh⟩, h⟩ := h
    split at h
    case isTrue hq =>
      obtain rfl := Option.some.inj h
      exact spells_of_eq (mWord 0x13)
        (mFields_eq hfn hq.symm (ofNat_toFin _) (ofNat_toFin _) hg.symm hh.symm rfl) fun _ => rfl
    case isFalse =>
      simp only [do_eq_some, return_eq_some, need_eq_some, Bool.and_eq_true, beq_iff_eq] at h
      obtain ⟨_, ⟨hb, ho⟩, rfl⟩ := h
      exact spells_of_eq (mWord 0x13)
        (mFields_eq hfn (ofNat_toFin _) hb.symm (ofNat_toFin _) hg.symm hh.symm ho.symm) fun _ => rfl
  case h_2 hfn =>
    obtain ⟨_, ⟨⟨hq, hg⟩, hh⟩, rfl⟩ := h
    exact spells_of_eq (mWord 0x13)
      (mFields_eq hfn (ofNat_low3 hq) (ofNat_toFin _) (ofNat_toFin _) hg.symm hh.symm rfl) fun _ => rfl
  case h_3 hfn =>
    obtain ⟨_, ⟨⟨⟨hq, hg⟩, hh⟩, ho⟩, rfl⟩ := h
    exact spells_of_eq (mWord 0x13)
      (mFields_eq hfn (ofNat_low3 hq) (ofNat_toFin _) (ofNat_toFin _) hg.symm hh.symm ho.symm) fun _ => rfl
  case h_4 hfn =>
    obtain ⟨_, ⟨hs, ho⟩, rfl⟩ := h
    have hg : (o.gran ++ o.hint).extractLsb' 3 2 = o.gran := by
      rw [extractLsb'_append_eq_of_le (by decide), extractLsb'_eq_self]
    have hh : (o.gran ++ o.hint).extractLsb' 0 3 = o.hint := by
      rw [extractLsb'_append_eq_of_add_le (by decide), extractLsb'_eq_self]
    have hoff : 0#5 ++ o.off.extractLsb' 16 11 ++ o.off.extractLsb' 0 16 = o.off := by
      rw [show 0#5 = o.off.extractLsb' 27 5 from ho.symm]
      iterate 2 rw [extractLsb'_append_extractLsb'_eq_extractLsb' (by rfl)]
      exact extractLsb'_eq_self
    exact spells_of_eq (mWord 0x13) (mFields_eq hfn (ofNat_toFin _) (ofNat_toFin _) hs.symm hg hh hoff) fun _ => rfl
  case h_5 hfn =>
    obtain ⟨_, ⟨⟨⟨⟨hb, hs⟩, hg⟩, hh⟩, ho⟩, rfl⟩ := h
    exact spells_of_eq (mWord 0x13)
      (mFields_eq hfn (ofNat_toFin _) hb.symm hs.symm hg.symm hh.symm ho.symm) fun _ => rfl

/-! ### Commands, phases, hitches and system words -/

theorem cmdInstr_spells {m fn : Nat} {f : CCmd → Instr} (h : cmdInstr m fn = some f) (c : CCmd) :
    Spells (cWord (BitVec.ofNat 6 m) · (c.of fn)) (f c) := by
  unfold cmdInstr at h
  split at h
  case h_33 => cases h
  all_goals
    obtain rfl := Option.some.inj h
    exact fun _ => rfl

theorem parseC_spells {m : Nat} {o : CFields} {i : Instr} (h : parseC m o = some i) :
    Spells (cWord (BitVec.ofNat 6 m) · o) i := by
  simp only [parseC, do_eq_some, return_eq_some] at h
  obtain ⟨f, hf, c, hc, rfl⟩ := h
  exact spells_of_eq (cWord _) (cmd_eq rfl hc) (cmdInstr_spells hf c)

theorem parse38_spells {o : IFields} {i : Instr} (h : parse38 o = some i) : Spells (iWord 0x38 · o) i := by
  simp only [parse38, do_eq_some] at h
  obtain ⟨_, hd, _, ha, h⟩ := h
  split at h <;> simp only [do_eq_some, return_eq_some, need_eq_some, beq_iff_eq, reduceCtorEq] at h
  case h_1 hfn =>
    obtain ⟨_, hi, rfl⟩ := h
    exact spells_of_eq (iWord 0x38) (iFields_eq hfn (zero?_eq hd) (zero?_eq ha) hi.symm) fun _ => rfl
  case h_2 hfn =>
    obtain ⟨_, hi, rfl⟩ := h
    exact spells_of_eq (iWord 0x38) (iFields_eq hfn (zero?_eq hd) (zero?_eq ha) (ofNat_low 29 3 hi)) fun _ => rfl
  case h_3 hfn =>
    obtain ⟨_, hi, a, hpa, b, hpb, s, hs, rfl⟩ := h
    have himm : 0#20 ++ a.num ++ b.num ++ s.code = o.imm := by
      rw [show 0#20 = o.imm.extractLsb' 12 20 from hi.symm, path_ofCode _ _ hpa, path_ofCode _ _ hpb, scope_ofCode _ _ hs]
      iterate 3 rw [extractLsb'_append_extractLsb'_eq_extractLsb' (by rfl)]
      exact extractLsb'_eq_self
    exact spells_of_eq (iWord 0x38) (iFields_eq hfn (zero?_eq hd) (zero?_eq ha) himm) fun _ => rfl

theorem parse39_spells {o : IFields} {i : Instr} (h : parse39 o = some i) : Spells (iWord 0x39 · o) i := by
  simp only [parse39, do_eq_some] at h
  obtain ⟨n, ha, h⟩ := h
  split at h <;> simp only [do_eq_some, return_eq_some, need_eq_some, beq_iff_eq, reduceCtorEq] at h
  case h_1 hfn | h_2 hfn =>
    obtain ⟨_, hd, _, hi, rfl⟩ := h
    exact spells_of_eq (iWord 0x39) (iFields_eq hfn (zero?_eq hd) (sdst_eq ha) (zero_append_low 16 16 hi)) fun _ => rfl
  case h_3 hfn =>
    obtain ⟨_, hi, d, hd, rfl⟩ := h
    have himm : 0#31 ++ ofBool (o.imm.getLsbD 0) = o.imm := by rw [ofBool_getLsbD]; exact zero_append_low 31 1 hi
    exact spells_of_eq (iWord 0x39) (iFields_eq hfn (sdst_eq hd) (sdst_eq ha) himm) fun _ => rfl

theorem parse3A_spells {o : IFields} {i : Instr} (h : parse3A o = some i) : Spells (iWord 0x3A · o) i := by
  simp only [parse3A, do_eq_some, need_eq_some, beq_iff_eq] at h
  obtain ⟨_, ha, _, hi, d, hd, h⟩ := h
  have himm : 0#26 ++ ofBool (o.imm.getLsbD 5) ++ o.imm.extractLsb' 0 5 = o.imm := by
    rw [show 0#26 = o.imm.extractLsb' 6 26 from hi.symm, ofBool_getLsbD]
    iterate 2 rw [extractLsb'_append_extractLsb'_eq_extractLsb' (by rfl)]
    exact extractLsb'_eq_self
  split at h
  case h_1 hfn | h_2 hfn =>
    obtain rfl := Option.some.inj h
    exact spells_of_eq (iWord 0x3A) (iFields_eq hfn (sdst_eq hd) (zero?_eq ha) himm) fun _ => rfl
  case h_3 => cases h

theorem parse3C_spells {q : Seq} {o : IFields} {i : Instr} (h : parse3C q o = some i) : Spells (iWord 0x3C · o) i := by
  unfold parse3C at h
  split at h <;> simp only [do_eq_some, return_eq_some, need_eq_some, beq_iff_eq, reduceCtorEq] at h
  case h_1 hfn | h_2 hfn =>
    obtain ⟨_, hd, _, ha, _, hi, rfl⟩ := h
    exact spells_of_eq (iWord 0x3C) (iFields_eq hfn (zero?_eq hd) (zero?_eq ha) (zero_append_low 16 16 hi)) fun _ => rfl
  case h_3 hfn | h_4 hfn | h_5 hfn =>
    obtain ⟨_, hd, _, ha, _, hi, rfl⟩ := h
    exact spells_of_eq (iWord 0x3C) (iFields_eq hfn (zero?_eq hd) (zero?_eq ha) hi.symm) fun _ => rfl
  case h_6 hfn =>
    obtain ⟨_, ha, _, hi, r, hr, _, -, d, hd, rfl⟩ := h
    have himm : BitVec.ofNat 32 r.num = o.imm := by rw [spr_ofNum hr]; exact ofNat_low 23 9 hi
    exact spells_of_eq (iWord 0x3C) (iFields_eq hfn (sdst_eq hd) (zero?_eq ha) himm) fun _ => rfl
  case h_7 hfn =>
    obtain ⟨_, hd, _, hi, r, hr, _, -, a, ha, rfl⟩ := h
    have himm : BitVec.ofNat 32 r.num = o.imm := by rw [spr_ofNum hr]; exact ofNat_low 23 9 hi
    exact spells_of_eq (iWord 0x3C) (iFields_eq hfn (zero?_eq hd) (ssrc_eq ha) himm) fun _ => rfl

theorem parse3D_spells {q : Seq} {o : IFields} {i : Instr} (hfn : o.fn.toNat = 0) (h : parse3D q o = some i) :
    Spells (iWord 0x3D · o) i := by
  simp only [parse3D, do_eq_some, return_eq_some, need_eq_some, beq_iff_eq] at h
  obtain ⟨_, hd, _, ha, _, hi, _, -, rfl⟩ := h
  exact spells_of_eq (iWord 0x3D) (iFields_eq hfn (zero?_eq hd) (zero?_eq ha) (zero_append_low 16 16 hi)) fun _ => rfl

/-! ### Words on lanes -/

theorem toNat_low {w : Nat} (k : Nat) (x : BitVec w) : (x.extractLsb' 0 k).toNat = x.toNat % 2 ^ k := by
  rw [extractLsb'_toNat, Nat.shiftRight_zero]

/-- fn of a lane operation from SAT, RZ and the operation (R71). -/
theorem toNat_eq_fnSatRz {fn : BitVec 8} {n : Nat} (h : (fn.extractLsb' 0 6).toNat = n) :
    fn.toNat = fnSatRz (fn.getLsbD 7) (fn.getLsbD 6) n := by
  subst h
  revert fn
  decide

theorem toNat_eq_fnSat {fn : BitVec 8} {n : Nat} (h : (fn.extractLsb' 0 7).toNat = n) :
    fn.toNat = fnSatRz (fn.getLsbD 7) false n := by
  subst h
  revert fn
  decide

theorem oFields_withB_eq {o p : OFields} {b : Fld} (h : p = { o with b := .zero }) (hb : b = o.b) : { p with b := b } = o := by
  subst h hb
  rfl

theorem Directed.withB {o : OFields} (h : Directed o) : Directed { o with b := .zero } := ⟨h.d, h.a, rfl, h.c⟩
theorem Directed.withC {o : OFields} (h : Directed o) : Directed { o with c := .zero } := ⟨h.d, h.a, h.b, rfl⟩

/-- A literal that is 0 or 1 (R142). -/
theorem ite_beq_one {x : BitVec 8} (h : x.toNat < 2) : (if x == 1 then 1 else 0) = x := by
  split
  case isTrue h1 => exact (eq_of_beq h1).symm
  case isFalse h1 =>
    have hne : x.toNat ≠ 1 := fun h2 => h1 (beq_iff_eq.2 (eq_of_toNat_eq h2))
    exact eq_of_toNat_eq (Nat.lt_one_iff.1 (by omega)).symm

section
variable {w : Word} {i : Instr} {reduced : Bool} (hq : Directed (oFields w))
include hq

theorem parse18_spells (hfn : fnAssigned 0x18 w reduced = true) (h : parse18 (oFields w) = some i) :
    Spells (oWord 0x18 · (oFields w)) i := by
  simp only [fnAssigned, Bool.or_eq_true, decide_eq_true_eq, beq_iff_eq] at hfn
  have hlow := toNat_low 7 (oFields w).fn
  unfold parse18 at h
  split at h
  case h_1 hk | h_2 hk | h_3 hk => exact spells_of_map (oWord 0x18) h (v2_eq (toNat_eq_fnSat hk) hq) fun _ _ => rfl
  case h_4 hk | h_5 hk | h_6 hk => exact spells_of_map (oWord 0x18) h (v2_eq (by omega) hq) fun _ _ => rfl
  case h_7 hk | h_8 hk => exact spells_of_map (oWord 0x18) h (v1_eq (toNat_eq_fnSat hk) hq) fun _ _ => rfl
  case h_9 => cases h

theorem parse1A_spells (hfn : fnAssigned 0x1A w reduced = true) (h : parse1A (oFields w) = some i) :
    Spells (oWord 0x1A · (oFields w)) i := by
  simp only [fnAssigned, Bool.or_eq_true, decide_eq_true_eq] at hfn
  have hlow := toNat_low 6 (oFields w).fn
  unfold parse1A at h
  split at h
  case h_1 hk | h_2 hk | h_3 hk => exact spells_of_map (oWord 0x1A) h (v2_eq (toNat_eq_fnSatRz hk) hq) fun _ _ => rfl
  case h_4 hk | h_5 hk => exact spells_of_map (oWord 0x1A) h (v2_eq (by omega) hq) fun _ _ => rfl
  case h_6 hk | h_7 hk => exact spells_of_map (oWord 0x1A) h (v1_eq (by omega) hq) fun _ _ => rfl
  case h_8 => cases h

theorem parse1E_spells (hfn : fnAssigned 0x1E w reduced = true) (h : parse1E (oFields w) = some i) :
    Spells (oWord 0x1E · (oFields w)) i := by
  have hsel : ((oFields w).fn.extractLsb' 4 2).toNat = (oFields w).fn.toNat / 16 % 4 := by
    rw [extractLsb'_toNat, Nat.shiftRight_eq_div_pow]
  have hlow4 := toNat_low 4 (oFields w).fn
  have hlow6 := toNat_low 6 (oFields w).fn
  simp only [fnAssigned, Bool.or_eq_true, decide_eq_true_eq, beq_iff_eq, ← hsel] at hfn
  unfold parse1E at h
  split at h
  case h_1 hk =>
    simp only [do_eq_some, return_eq_some] at h
    obtain ⟨p, hp, t, ht, x, hx, rfl⟩ := h
    have hn : (oFields w).fn.toNat = fnSatRz ((oFields w).fn.getLsbD 7) ((oFields w).fn.getLsbD 6) t.code.toNat :=
      toNat_eq_fnSatRz (by rw [lty_ofCode _ _ ht]; omega)
    exact spells_of_eq (oWord 0x1E)
      (oFields_withB_eq (v1_eq (o := { oFields w with b := .zero }) hn hq.withB hx) (lit_eq hp)) fun _ => rfl
  case h_2 hk | h_3 hk => exact spells_of_map (oWord 0x1E) h (vpk_eq (by omega) hq) fun _ _ => rfl
  case h_4 hne0 hne1 hne2 =>
    simp only [imp_false] at hne0 hne1 hne2
    simp only [do_eq_some, return_eq_some, need_eq_some, Bool.not_eq_true'] at h
    obtain ⟨_, hz, _, hb, _, hc, l, hl, t, ht, d, hd, a, ha, rfl⟩ := h
    have hn : (oFields w).fn.toNat = 0x30 + l.code.toNat := by rw [scLay_ofCode _ _ hl]; omega
    exact spells_of_eq (oWord 0x1E) (oFields_eq hn (vdst_eq hd hq.d) (vsrc_eq ha hq.a) (zero?_eq hb) (zero?_eq hc) (ofNat_toFin _)
      hz.symm (lty_ofCode _ _ ht)) fun _ => rfl

end

section
variable {o : OFields} {i : Instr} (hq : Directed o)
include hq

theorem parse19_spells (h : parse19 o = some i) : Spells (oWord 0x19 · o) i := by
  unfold parse19 at h
  split at h
  case h_4 hfn | h_9 hfn => exact spells_of_map (oWord 0x19) h (v1_eq hfn hq) fun _ _ => rfl
  case h_10 => cases h
  all_goals rename_i hfn; exact spells_of_map (oWord 0x19) h (v2_eq hfn hq) fun _ _ => rfl

theorem parse1B_spells (h : parse1B o = some i) : Spells (oWord 0x1B · o) i := by
  unfold parse1B at h
  split at h
  case h_1 hk | h_2 hk | h_3 hk => exact spells_of_map (oWord 0x1B) h (v3_eq (toNat_eq_fnSatRz hk) hq) fun _ _ => rfl
  case h_4 => cases h

theorem parse1C_spells (h : parse1C o = some i) : Spells (oWord 0x1C · o) i := by
  unfold parse1C at h
  split at h
  case h_8 hfn | h_9 hfn | h_10 hfn => exact spells_of_map (oWord 0x1C) h (k3_eq hfn) fun _ _ => rfl
  case h_11 hfn | h_12 hfn => exact spells_of_map (oWord 0x1C) h (k2_eq hfn) fun _ _ => rfl
  case h_13 hfn =>
    simp only [do_eq_some, return_eq_some, need_eq_some, beq_iff_eq] at h
    obtain ⟨_, hn, _, hb, _, hc, _, ht, d, hd, a, ha, rfl⟩ := h
    obtain ⟨hk, hz⟩ := noLanes_eq hn
    exact spells_of_eq (oWord 0x1C)
      (oFields_eq hfn (sdst_eq hd) (kmask_eq ha) (zero?_eq hb) (zero?_eq hc) hk hz ht.symm) fun _ => rfl
  case h_14 => cases h
  all_goals rename_i hfn; exact spells_of_map (oWord 0x1C) h (vcmp_eq hfn hq) fun _ _ => rfl

theorem parse1D_spells (h : parse1D o = some i) : Spells (oWord 0x1D · o) i := by
  unfold parse1D at h
  split at h
  case h_3 hfn => exact spells_of_map (oWord 0x1D) h (v2_eq hfn hq) fun _ _ => rfl
  case h_6 hfn => exact spells_of_map (oWord 0x1D) h (v1_eq hfn hq) fun _ _ => rfl
  all_goals simp only [do_eq_some, return_eq_some, need_eq_some, beq_iff_eq, reduceCtorEq] at h
  case h_1 hfn =>
    obtain ⟨k, hk, x, hx, rfl⟩ := h
    exact spells_of_eq (oWord 0x1D)
      (oFields_withC_eq (v2_eq (o := { o with c := .zero }) hfn hq.withC hx) (kmask_eq hk)) fun _ => rfl
  case h_2 hfn =>
    obtain ⟨d, hd, t, ht, j, hj, n, hn, h⟩ := h
    split at h <;> simp only [do_eq_some, return_eq_some, reduceCtorEq] at h
    case h_1 hform =>
      obtain ⟨a, ha, rfl⟩ := h
      obtain rfl : 0#8 = n := ofNat_of_toNat hform
      exact spells_of_eq (oWord 0x1D) (oFields_eq hfn (vdst_eq hd hq.d) (vsrc_eq ha hq.a) (lit_eq hj) (lit_eq hn)
        (ofNat_toFin _) rfl (lty_ofCode _ _ ht)) fun _ => rfl
    case h_2 hform =>
      obtain ⟨a, ha, rfl⟩ := h
      obtain rfl : 1#8 = n := ofNat_of_toNat hform
      exact spells_of_eq (oWord 0x1D) (oFields_eq hfn (vdst_eq hd hq.d) (ssrc_eq ha) (lit_eq hj) (lit_eq hn) (ofNat_toFin _) rfl
        (lty_ofCode _ _ ht)) fun _ => rfl
  case h_4 hfn =>
    obtain ⟨n, hn, x, hx, rfl⟩ := h
    exact spells_of_eq (oWord 0x1D)
      (oFields_withB_eq (v1_eq (o := { o with b := .zero }) hfn hq.withB hx) (ssrc_eq hn)) fun _ => rfl
  case h_5 hfn =>
    obtain ⟨_, ht, d, hd, a, ha, b, hb, n, hn, rfl⟩ := h
    exact spells_of_eq (oWord 0x1D) (oFields_eq hfn (vdst_eq hd hq.d) (vsrc_eq ha hq.a) (vsrc_eq hb hq.b) (ssrc_eq hn)
      (ofNat_toFin _) rfl ht.symm) fun _ => rfl

theorem parse1F_spells (h : parse1F o = some i) : Spells (oWord 0x1F · o) i := by
  unfold parse1F at h
  split at h
  case h_11 => cases h
  all_goals rename_i hfn; exact spells_of_map (oWord 0x1F) h (vred_eq hfn hq) fun _ _ => rfl

theorem parse20_spells (h : parse20 o = some i) : Spells (oWord 0x20 · o) i := by
  unfold parse20 at h
  split at h
  case h_5 => cases h
  all_goals rename_i hfn; exact spells_of_map (oWord 0x20) h (v1_eq hfn hq) fun _ _ => rfl

theorem parse21_spells (h : parse21 o = some i) : Spells (oWord 0x21 · o) i := by
  unfold parse21 at h
  split at h
  case h_1 hfn => exact spells_of_map (oWord 0x21) h (v1_eq hfn hq) fun _ _ => rfl
  all_goals simp only [do_eq_some, return_eq_some, need_eq_some, Bool.and_eq_true, Bool.not_eq_true', decide_eq_true_eq,
    beq_iff_eq, reduceCtorEq] at h
  case h_2 hfn =>
    obtain ⟨_, hd, _, hz, n, hn, m, hm, _, hlt, t, ht, a, ha, bq, hbq, rfl⟩ := h
    have hb : litFld (BitVec.ofNat 8 bq.val) = o.b := by
      rw [ofNat_of_toNat ((inRange_eq_some hbq).trans (Nat.zero_add _)), lit_eq hn]
    have hc : litFld (if m == 1 then 1 else 0) = o.c := by rw [ite_beq_one hlt, lit_eq hm]
    exact spells_of_eq (oWord 0x21) (oFields_eq hfn (zero?_eq hd) (vsrc_eq ha hq.a) hb hc (ofNat_toFin _) hz.symm
      (lty_ofCode _ _ ht)) fun _ => rfl
  case h_3 hfn =>
    obtain ⟨_, ⟨hz, ht⟩, d, hd, a, ha, b, hb, c, hc, rfl⟩ := h
    exact spells_of_eq (oWord 0x21) (oFields_eq hfn (sdst_eq hd) (accum_eq ha) (accum_eq hb) (accum_eq hc) (ofNat_toFin _) hz.symm
      ht.symm) fun _ => rfl

theorem parse28_spells (h : parse28 o = some i) : Spells (oWord 0x28 · o) i := by
  unfold parse28 at h
  split at h <;>
    simp only [do_eq_some, return_eq_some, need_eq_some, Bool.and_eq_true, Bool.not_eq_true', beq_iff_eq, reduceCtorEq] at h
  case h_1 hfn =>
    obtain ⟨p, hp, x, hx, rfl⟩ := h
    exact spells_of_eq (oWord 0x28)
      (oFields_withB_eq (v1_eq (o := { o with b := .zero }) hfn hq.withB hx) (lit_eq hp)) fun _ => rfl
  case h_2 hfn =>
    obtain ⟨_, ha, _, hb, _, hc, _, ⟨hz, ht⟩, d, hd, rfl⟩ := h
    exact spells_of_eq (oWord 0x28) (oFields_eq hfn (accum_eq hd) (zero?_eq ha) (zero?_eq hb) (zero?_eq hc)
      (ofNat_toFin _) hz.symm ht.symm) fun _ => rfl
  case h_3 hfn =>
    obtain ⟨_, hc, d, hd, t, ht, a, ha, b, hb, rfl⟩ := h
    exact spells_of_eq (oWord 0x28) (oFields_eq hfn (vdst_eq hd hq.d) (accum_eq ha) (lit_eq hb) (zero?_eq hc) (ofNat_toFin _) rfl
      (lty_ofCode _ _ ht)) fun _ => rfl

end

theorem parse29_spells {o : OFields} {i : Instr} (hfn : o.fn.toNat = 0) (h : parse29 o = some i) :
    Spells (oWord 0x29 · o) i := by
  simp only [parse29, do_eq_some, return_eq_some, need_eq_some, beq_iff_eq] at h
  obtain ⟨_, hd, _, ha, _, hb, _, hc, _, hn, _, ht, rfl⟩ := h
  obtain ⟨hk, hz⟩ := noLanes_eq hn
  exact spells_of_eq (oWord 0x29)
    (oFields_eq hfn (zero?_eq hd) (zero?_eq ha) (zero?_eq hb) (zero?_eq hc) hk hz ht.symm) fun _ => rfl

/-! ## Term bundles (R63, R64) -/

theorem slotWord_eq {x : BitVec 24} {op : BitVec 3} {d : Fin 64} {src : Fin 128} {imm : BitVec 8}
    (hop : (x.extractLsb' 21 3).toNat = op.toNat) (hd : d = (x.extractLsb' 15 6).toFin) (hs : src = (x.extractLsb' 8 7).toFin)
    (hi : imm = x.extractLsb' 0 8) : slotWord op d src imm = x := by
  subst hd hs hi
  rw [slotWord, ← eq_of_toNat_eq hop, ofNat_toFin, ofNat_toFin]
  iterate 3 rw [extractLsb'_append_extractLsb'_eq_extractLsb' (by rfl)]
  exact extractLsb'_eq_self

theorem tpair_imm_eq {imm : BitVec 8} (h : imm.getLsbD 0 = false) :
    BitVec.ofNat 7 (imm.extractLsb' 1 7).toFin.val ++ 0#1 = imm := by
  rw [ofNat_toFin, ← extractLsb'_one_of_getLsbD h, extractLsb'_append_extractLsb'_eq_extractLsb' (by rfl)]
  exact extractLsb'_eq_self

/-- The continuation slot of a TSCL holds the high byte of the scale and nothing else. -/
theorem tscl_continuation_eq {y : BitVec 24} (hop : (y.extractLsb' 21 3).toNat = (7#3).toNat) (hmid : y.extractLsb' 8 5 = 0)
    (hlow : y.extractLsb' 0 8 = 0) : 7#3 ++ y.extractLsb' 13 8 ++ 0#5 ++ 0#8 = y := by
  rw [← eq_of_toNat_eq hop, show 0#5 = y.extractLsb' 8 5 from hmid.symm, show 0#8 = y.extractLsb' 0 8 from hlow.symm]
  iterate 3 rw [extractLsb'_append_extractLsb'_eq_extractLsb' (by rfl)]
  exact extractLsb'_eq_self

/-- What a slot says: it stands for itself alone, or as a TSCL for itself and the slot after it. -/
theorem slotOf_eq_some {x : BitVec 24} {next : Option (BitVec 24)} {s : Slot} {n : Nat} (h : slotOf x next = some (s, n)) :
    (n = 1 ∧ s.words = [x]) ∨ (n = 2 ∧ ∃ y, next = some y ∧ s.words = [x, y]) := by
  unfold slotOf at h
  split at h
  case h_6 hop =>
    cases next with
    | none => cases h
    | some y =>
      simp only [Option.ite_none_right_eq_some, Bool.and_eq_true, beq_iff_eq, Option.map_eq_some_iff, Prod.mk.injEq] at h
      obtain ⟨⟨⟨hy, hmid⟩, hlow⟩, p, hp, rfl, rfl⟩ := h
      refine .inr ⟨rfl, y, rfl, ?_⟩
      have hlo : (y.extractLsb' 13 8 ++ x.extractLsb' 0 8).extractLsb' 0 8 = x.extractLsb' 0 8 := by
        rw [extractLsb'_append_eq_of_add_le (by decide), extractLsb'_eq_self]
      have hhi : (y.extractLsb' 13 8 ++ x.extractLsb' 0 8).extractLsb' 8 8 = y.extractLsb' 13 8 := by
        rw [extractLsb'_append_eq_of_le (by decide), extractLsb'_eq_self]
      have hsrc : (⟨64 + p.val, by omega⟩ : Fin 128) = (x.extractLsb' 8 7).toFin := Fin.ext (inRange_eq_some hp).symm
      rw [Slot.words, slotWord_eq hop rfl hsrc hlo, hhi, tscl_continuation_eq hy hmid hlow]
  all_goals
    simp only [Option.ite_none_right_eq_some, Option.ite_none_left_eq_some, Bool.and_eq_true, Bool.not_eq_true, beq_iff_eq,
      Option.some.injEq, Prod.mk.injEq, reduceCtorEq] at h
  case h_1 =>
    obtain ⟨rfl, rfl, rfl⟩ := h
    exact .inl ⟨rfl, rfl⟩
  case h_2 hop =>
    obtain ⟨rfl, rfl⟩ := h
    exact .inl ⟨rfl, congrArg (· :: []) (slotWord_eq hop rfl rfl rfl)⟩
  case h_3 hop | h_5 hop =>
    obtain ⟨hi, rfl, rfl⟩ := h
    exact .inl ⟨rfl, congrArg (· :: []) (slotWord_eq hop rfl rfl hi.symm)⟩
  case h_4 hop =>
    obtain ⟨hi, rfl, rfl⟩ := h
    exact .inl ⟨rfl, congrArg (· :: []) (slotWord_eq hop rfl rfl (tpair_imm_eq hi))⟩
  case h_7 hop =>
    obtain ⟨⟨hs, hi⟩, rfl, rfl⟩ := h
    exact .inl ⟨rfl, congrArg (· :: []) (slotWord_eq hop rfl hs.symm hi.symm)⟩

theorem slotsOf_words : ∀ {l : List (BitVec 24)} {ss : List Slot}, slotsOf l = some ss → ss.flatMap Slot.words = l
  | [], ss, h => by
    obtain rfl := Option.some.inj h
    rfl
  | [x], ss, h => by
    obtain ⟨⟨s, n⟩, hs, rfl⟩ := Option.map_eq_some_iff.1 h
    obtain ⟨-, hw⟩ | ⟨-, y, hy, -⟩ := slotOf_eq_some hs
    · simp [hw]
    · cases hy
  | x :: y :: t, ss, h => by
    unfold slotsOf at h
    split at h
    case h_1 => cases h
    case h_2 s hs =>
      obtain ⟨ss, hss, rfl⟩ := Option.map_eq_some_iff.1 h
      obtain ⟨-, hw⟩ | ⟨hn, -⟩ := slotOf_eq_some hs
      · rw [List.flatMap_cons, hw, slotsOf_words hss, List.singleton_append]
      · cases hn
    case h_3 s n hne hs =>
      obtain ⟨ss, hss, rfl⟩ := Option.map_eq_some_iff.1 h
      obtain ⟨hn, -⟩ | ⟨-, z, hz, hw⟩ := slotOf_eq_some hs
      · exact absurd hn hne
      · obtain rfl := Option.some.inj hz
        rw [List.flatMap_cons, hw, slotsOf_words hss]
        rfl

/-- The two words of a bundle side by side, from major, yp, tsm and the five slots (R63). -/
theorem bundle_rawSlots {w0 : Word} (w1 : Word) (hm : majorOf w0 = 0x3E) :
    0x3E#6 ++ ofBool (ypOf w0) ++ ofBool (bit56 w0) ++ (w0 ++ w1).extractLsb' 96 24 ++ (w0 ++ w1).extractLsb' 72 24 ++
      (w0 ++ w1).extractLsb' 48 24 ++ (w0 ++ w1).extractLsb' 24 24 ++ (w0 ++ w1).extractLsb' 0 24 = w0 ++ w1 := by
  have hmaj : 0x3E#6 = (w0 ++ w1).extractLsb' 122 6 := by
    rw [extractLsb'_append_eq_of_le (by decide)]
    exact hm.symm
  have hyp : ofBool (ypOf w0) = (w0 ++ w1).extractLsb' 121 1 := by
    rw [extractLsb'_append_eq_of_le (by decide)]
    exact ofBool_getLsbD _ _
  have htsm : ofBool (bit56 w0) = (w0 ++ w1).extractLsb' 120 1 := by
    rw [extractLsb'_append_eq_of_le (by decide)]
    exact ofBool_getLsbD _ _
  rw [hmaj, hyp, htsm]
  iterate 7 rw [extractLsb'_append_extractLsb'_eq_extractLsb' (by rfl)]
  exact extractLsb'_eq_self

theorem tbWords_rawSlots {w0 w1 : Word} {ss : List Slot} (hm : majorOf w0 = 0x3E) (h : ss.flatMap Slot.words = rawSlots w0 w1) :
    tbWords (ypOf w0) (bit56 w0) ss = (w0, w1) := by
  simp only [tbWords, h, rawSlots]
  rw [bundle_rawSlots w1 hm, extractLsb'_append_eq_of_le (by decide), extractLsb'_append_eq_of_add_le (by decide),
    extractLsb'_eq_self, extractLsb'_eq_self]

theorem majorOf_high (b : BitVec 128) : majorOf (b.extractLsb' 64 64) = b.extractLsb' 122 6 := by
  ext i hi
  have hlt : 58 + i < 64 := by omega
  simp [majorOf, hlt, ← Nat.add_assoc]

theorem majorOf_tbWords_of_five {ss : List Slot} {x0 x1 x2 x3 x4 : BitVec 24} (y tsm : Bool)
    (h : ss.flatMap Slot.words = [x0, x1, x2, x3, x4]) : majorOf (tbWords y tsm ss).1 = 0x3E := by
  simp only [tbWords, h]
  rw [majorOf_high]
  iterate 7 rw [extractLsb'_append_eq_of_le (by decide)]
  exact extractLsb'_eq_self

theorem majorOf_tbWords (y tsm : Bool) (ss : List Slot) :
    majorOf (tbWords y tsm ss).1 = 0x3E ∨ majorOf (tbWords y tsm ss).1 = 0 := by
  by_cases h : ∃ x0 x1 x2 x3 x4, ss.flatMap Slot.words = [x0, x1, x2, x3, x4]
  case pos =>
    obtain ⟨x0, x1, x2, x3, x4, h⟩ := h
    exact .inl (majorOf_tbWords_of_five y tsm h)
  case neg =>
    refine .inr ?_
    unfold tbWords
    split
    case h_1 hss => exact absurd ⟨_, _, _, _, _, hss⟩ h
    case h_2 => rfl

/-! ## What the decoder read -/

/-- An instruction and the words that stand for it: they are its encoding, and its major does not hang on yp. -/
structure ReadFrom (w0 w1 : Word) (i : Instr) : Prop where
  first : (encode ⟨ypOf w0, i⟩).1 = w0
  second : majorOf w0 = 0x3E → (encode ⟨ypOf w0, i⟩).2 = w1
  major : majorOf (encode ⟨false, i⟩).1 = majorOf w0

theorem readFrom_of_spells {w0 : Word} (w1 : Word) {i : Instr} {word : Bool → Word} (h : Spells word i)
    (hw : word (ypOf w0) = w0) (hm : majorOf (word false) = majorOf w0) (hne : majorOf w0 ≠ 0x3E) : ReadFrom w0 w1 i where
  first := by rw [h, hw]
  second he := absurd he hne
  major := by rw [h, hm]

section
variable {w0 w1 : Word} {k : BitVec 6} {i : Instr}

theorem readFrom_o (hb : bit56 w0 = false) (h : Spells (oWord k · (oFields w0)) i) (hm : (majorOf w0).toNat = k.toNat)
    (hne : k ≠ 0x3E) : ReadFrom w0 w1 i := by
  obtain rfl := eq_of_toNat_eq hm
  exact readFrom_of_spells w1 h (oWord_oFields hb) (majorOf_oWord _ _ _) hne

theorem readFrom_i (hb : bit56 w0 = false) (h : Spells (iWord k · (iFields w0)) i) (hm : (majorOf w0).toNat = k.toNat)
    (hne : k ≠ 0x3E) : ReadFrom w0 w1 i := by
  obtain rfl := eq_of_toNat_eq hm
  exact readFrom_of_spells w1 h (iWord_iFields hb) (majorOf_iWord _ _ _) hne

theorem readFrom_b (h : Spells (bWord k · (bFields w0)) i) (hm : (majorOf w0).toNat = k.toNat) (hne : k ≠ 0x3E) :
    ReadFrom w0 w1 i := by
  obtain rfl := eq_of_toNat_eq hm
  exact readFrom_of_spells w1 h (bWord_bFields w0) (majorOf_bWord _ _ _) hne

theorem readFrom_m (hb : bit56 w0 = false) (h : Spells (mWord k · (mFields w0)) i) (hm : (majorOf w0).toNat = k.toNat)
    (hne : k ≠ 0x3E) : ReadFrom w0 w1 i := by
  obtain rfl := eq_of_toNat_eq hm
  exact readFrom_of_spells w1 h (mWord_mFields hb) (majorOf_mWord _ _ _) hne

theorem readFrom_c (h : Spells (cWord (majorOf w0) · (cFields w0)) i) (hne : majorOf w0 ≠ 0x3E) : ReadFrom w0 w1 i :=
  readFrom_of_spells w1 h (cWord_cFields w0) (majorOf_cWord _ _ _) hne

theorem readFrom_t {ss : List Slot} (hm : majorOf w0 = 0x3E) (h : slotsOf (rawSlots w0 w1) = some ss) :
    ReadFrom w0 w1 (.tb (bit56 w0) ss) := by
  have hw := tbWords_rawSlots hm (slotsOf_words h)
  exact ⟨congrArg Prod.fst hw, fun _ => congrArg Prod.snd hw, (majorOf_tbWords_of_five _ _ (slotsOf_words h)).trans hm.symm⟩

end

theorem majorFmt_eq_t {m : Nat} (h : majorFmt m = some .t) : m = 0x3E := by
  unfold majorFmt at h
  split at h <;> simp only [Option.some.injEq, reduceCtorEq] at h
  rfl

section
variable {q : Seq} {m : Nat} {w0 w1 : Word} {i : Instr} {reduced : Bool} (hm : (majorOf w0).toNat = m)
  (h : parse q m w0 w1 = some i)
include hm h

theorem parse_o_readFrom (hf : majorFmt m = some .o) (hfn : fnAssigned m w0 reduced = true) (hraw : rawQueuesOk m w0 = true) :
    ReadFrom w0 w1 i := by
  have hq := directed_of_rawQueuesOk hf hraw
  simp only [parse, hf, Option.ite_none_left_eq_some, Bool.not_eq_true] at h
  obtain ⟨hb, h⟩ := h
  split at h
  case h_1 => exact readFrom_o hb (parse01_spells h) hm (by decide)
  case h_2 => exact readFrom_o hb (parse18_spells hq hfn h) hm (by decide)
  case h_3 => exact readFrom_o hb (parse19_spells hq h) hm (by decide)
  case h_4 => exact readFrom_o hb (parse1A_spells hq hfn h) hm (by decide)
  case h_5 => exact readFrom_o hb (parse1B_spells hq h) hm (by decide)
  case h_6 => exact readFrom_o hb (parse1C_spells hq h) hm (by decide)
  case h_7 => exact readFrom_o hb (parse1D_spells hq h) hm (by decide)
  case h_8 => exact readFrom_o hb (parse1E_spells hq hfn h) hm (by decide)
  case h_9 => exact readFrom_o hb (parse1F_spells hq h) hm (by decide)
  case h_10 => exact readFrom_o hb (parse20_spells hq h) hm (by decide)
  case h_11 => exact readFrom_o hb (parse21_spells hq h) hm (by decide)
  case h_12 => exact readFrom_o hb (parse28_spells hq h) hm (by decide)
  case h_13 => exact readFrom_o hb (parse29_spells (eq_of_beq hfn) h) hm (by decide)
  case h_14 => cases h

theorem parse_i_readFrom (hf : majorFmt m = some .i) (hfn : fnAssigned m w0 reduced = true) : ReadFrom w0 w1 i := by
  simp only [parse, hf, Option.ite_none_left_eq_some, Bool.not_eq_true] at h
  obtain ⟨hb, h⟩ := h
  split at h
  case h_1 => exact readFrom_i hb (parse02_spells h) hm (by decide)
  case h_2 => exact readFrom_i hb (parse0B_spells h) hm (by decide)
  case h_3 => exact readFrom_i hb (parse0C_spells h) hm (by decide)
  case h_4 => exact readFrom_i hb (parse0D_spells (eq_of_beq hfn) h) hm (by decide)
  case h_5 => exact readFrom_i hb (parse38_spells h) hm (by decide)
  case h_6 => exact readFrom_i hb (parse39_spells h) hm (by decide)
  case h_7 => exact readFrom_i hb (parse3A_spells h) hm (by decide)
  case h_8 => exact readFrom_i hb (parse3C_spells h) hm (by decide)
  case h_9 => exact readFrom_i hb (parse3D_spells (eq_of_beq hfn) h) hm (by decide)
  case h_10 => cases h

theorem parse_b_readFrom (hf : majorFmt m = some .b) : ReadFrom w0 w1 i := by
  simp only [parse, hf] at h
  split at h
  case h_1 => exact readFrom_b (parse08_spells h) hm (by decide)
  case h_2 => exact readFrom_b (parse09_spells h) hm (by decide)
  case h_3 => exact readFrom_b (parse0A_spells h) hm (by decide)
  case h_4 => cases h

theorem parse_m_readFrom (hf : majorFmt m = some .m) : ReadFrom w0 w1 i := by
  simp only [parse, hf, Option.ite_none_left_eq_some, Bool.not_eq_true] at h
  obtain ⟨hb, h⟩ := h
  split at h
  case h_1 => exact readFrom_m hb (parse10_spells h) hm (by decide)
  case h_2 => exact readFrom_m hb (parse11_spells h) hm (by decide)
  case h_3 => exact readFrom_m hb (parse12_spells h) hm (by decide)
  case h_4 => exact readFrom_m hb (parse13_spells h) hm (by decide)
  case h_5 => cases h

theorem parse_c_readFrom (hf : majorFmt m = some .c) : ReadFrom w0 w1 i := by
  simp only [parse, hf] at h
  have hs := parseC_spells h
  rw [ofNat_of_toNat hm] at hs
  refine readFrom_c hs fun he => ?_
  rw [← hm, he] at hf
  cases hf

theorem parse_t_readFrom (hf : majorFmt m = some .t) : ReadFrom w0 w1 i := by
  have h3E := majorFmt_eq_t hf
  simp only [parse, hf, Option.map_eq_some_iff] at h
  obtain ⟨ss, hss, rfl⟩ := h
  exact readFrom_t (eq_of_toNat_eq (hm.trans h3E)) hss

theorem parse_readFrom (hfn : fnAssigned m w0 reduced = true) (hraw : rawQueuesOk m w0 = true) : ReadFrom w0 w1 i := by
  cases hf : majorFmt m with
  | none => simp [parse, hf] at h
  | some fmt =>
    cases fmt with
    | o => exact parse_o_readFrom hm h hf hfn hraw
    | i => exact parse_i_readFrom hm h hf hfn
    | b => exact parse_b_readFrom hm h hf
    | m => exact parse_m_readFrom hm h hf
    | c => exact parse_c_readFrom hm h hf
    | t => exact parse_t_readFrom hm h hf

end

/-! ## The decoder -/

/-- What a word passes when it decodes: the checks of R69. -/
structure Decodes (q : Seq) (addr w0 w1 : Word) (reduced : Bool) (f : Fetched) : Prop where
  served : (majorFmt (majorOf w0).toNat == none || (reduced && reducedAway (majorOf w0).toNat)) = false
  aligned : ((majorOf w0).toNat == 0x3E && addr.getLsbD 3) = false
  major : majorOn (majorOf w0).toNat q = true
  assigned : fnAssigned (majorOf w0).toNat w0 reduced = true
  yp : f.yp = ypOf w0
  parsed : parse q (majorOf w0).toNat w0 w1 = some f.instr
  wf : f.wf = true
  raw : rawQueuesOk (majorOf w0).toNat w0 = true
  queues : f.instr.queuesOn q = true

theorem ite_error_eq_ok {c : Bool} {e : Cause} {x : Except Cause Fetched} {f : Fetched} :
    (if c = true then .error e else x) = .ok f ↔ c = false ∧ x = .ok f := by
  cases c <;> simp

theorem decode_eq_ok {q : Seq} {addr w0 w1 : Word} {reduced : Bool} {f : Fetched} (h : decode q addr w0 w1 reduced = .ok f) :
    Decodes q addr w0 w1 reduced f := by
  simp only [decode, ite_error_eq_ok, Bool.not_eq_false'] at h
  obtain ⟨hserved, haligned, hmajor, hassigned, -, h⟩ := h
  split at h
  case h_1 => cases h
  case h_2 i hi =>
    simp only [ite_error_eq_ok, Bool.or_eq_false_iff, Bool.not_eq_false', bne_eq_false_iff_eq, Except.ok.injEq] at h
    obtain ⟨⟨hfields, hwf⟩, ⟨⟨hqueues, hraw⟩, hon⟩, rfl⟩ := h
    have hok : i.wf = true := by
      rw [Instr.wf, hfields, hqueues]
      rfl
    exact ⟨hserved, haligned, hmajor, hassigned, rfl, hi, hwf.trans hok, hraw, hon⟩

theorem legalOn_of_parse3C {q : Seq} {o : IFields} {i : Instr} {r : Spr} (h : parse3C q o = some i)
    (hi : (∃ d, i = .mfsr d r) ∨ ∃ x, i = .mtsr x r) : r.legalOn q = true := by
  unfold parse3C at h
  split at h <;> simp only [do_eq_some, return_eq_some, need_eq_some, reduceCtorEq] at h
  case h_6 =>
    obtain ⟨_, -, _, -, r', -, _, hr, d, -, rfl⟩ := h
    obtain ⟨d', hd⟩ | ⟨x, hx⟩ := hi
    · obtain ⟨-, rfl⟩ := Instr.mfsr.inj hd
      exact hr
    · cases hx
  case h_7 =>
    obtain ⟨_, -, _, -, r', -, _, hr, x, -, rfl⟩ := h
    obtain ⟨d, hd⟩ | ⟨x', hx⟩ := hi
    · cases hd
    · obtain ⟨-, rfl⟩ := Instr.mtsr.inj hx
      exact hr
  all_goals
    exfalso
    obtain ⟨_, -, _, -, _, -, rfl⟩ := h
    obtain ⟨d, hd⟩ | ⟨x, hx⟩ := hi
    · cases hd
    · cases hx

theorem gviLenOk_of_parse3D {q : Seq} {o : IFields} {n : BitVec 16} (h : parse3D q o = some (.gvi n)) : gviLenOk q n = true := by
  simp only [parse3D, do_eq_some, return_eq_some, need_eq_some, Instr.gvi.injEq] at h
  obtain ⟨_, -, _, -, _, -, _, hn, rfl⟩ := h
  exact hn

namespace Decodes

variable {q : Seq} {addr w0 w1 : Word} {reduced : Bool} {f : Fetched} (h : Decodes q addr w0 w1 reduced f)
include h

theorem readFrom : ReadFrom w0 w1 f.instr := parse_readFrom rfl h.parsed h.assigned h.raw

theorem majorOf_ne_zero : majorOf w0 ≠ 0 := fun h0 => by
  have hserved := h.served
  rw [h0] at hserved
  cases hserved

/-- A major that reduced service takes away has decoded in full service (R413). -/
theorem full_of_reducedAway (haway : reducedAway (majorOf w0).toNat = true) : reduced = false := by
  simpa [haway] using (Bool.or_eq_false_iff.1 h.served).2

theorem isWord : f.instr.isWord = true := by
  rw [Instr.isWord, bne_iff_ne]
  intro h0
  have hmajor := h.readFrom.major
  rw [h0] at hmajor
  exact h.majorOf_ne_zero hmajor.symm

/-- MFSR and MTSR name a special register that their sequencer has (R91): `parse3C` has looked at it. -/
theorem spr_legalOn {r : Spr} (hi : (∃ d, f.instr = .mfsr d r) ∨ ∃ x, f.instr = .mtsr x r) : r.legalOn q = true := by
  have hmajor : majorOf w0 = 0x3C := by
    rw [← h.readFrom.major]
    obtain ⟨d, hd⟩ | ⟨x, hx⟩ := hi
    · rw [hd]; exact majorOf_iWord _ _ _
    · rw [hx]; exact majorOf_iWord _ _ _
  have hparsed := h.parsed
  rw [hmajor] at hparsed
  exact legalOn_of_parse3C (Option.ite_none_left_eq_some.1 hparsed).2 hi

theorem legalOn : f.instr.legalOn q = true := by
  unfold Instr.legalOn
  rw [h.readFrom.major, h.major, h.queues]
  split
  case h_1 d r hi => exact h.spr_legalOn (.inl ⟨d, hi⟩)
  case h_2 x r hi => exact h.spr_legalOn (.inr ⟨x, hi⟩)
  case h_3 => rfl

/-- A bundle has major 0x3E, and its address and service have been looked at (checks 1 and 2 of R69). -/
theorem aligned_and_full_of_tb {tsm : Bool} {ss : List Slot} (hi : f.instr = .tb tsm ss) :
    addr.getLsbD 3 = false ∧ reduced = false := by
  have hmajor := h.readFrom.major
  rw [hi] at hmajor
  have h3E : majorOf w0 = 0x3E := by
    obtain h1 | h1 := majorOf_tbWords false tsm ss
    · exact hmajor.symm.trans h1
    · exact absurd (hmajor.symm.trans h1) h.majorOf_ne_zero
  have haligned := h.aligned
  rw [h3E] at haligned
  exact ⟨haligned, h.full_of_reducedAway (by rw [h3E]; rfl)⟩

theorem full_of_splc (hi : f.instr = .splc) : reduced = false := by
  have hmajor := h.readFrom.major
  rw [hi] at hmajor
  have h29 : majorOf w0 = 0x29 := by
    rw [← hmajor]
    exact majorOf_oWord _ _ _
  exact h.full_of_reducedAway (by rw [h29]; rfl)

/-- CGEN is fn 0 of its major, which is not assigned in reduced service (R413). -/
theorem full_of_cgen {c : CCmd} (hi : f.instr = .cgen c) : reduced = false := by
  have hfirst := h.readFrom.first
  rw [hi] at hfirst
  have hfn : (mFields w0).fn = 0 := by
    rw [← hfirst]
    exact congrArg CFields.fn (cFields_cWord 0x34 (ypOf w0) (c.of 0))
  have hmajor : majorOf w0 = 0x34 := by
    rw [← hfirst]
    exact majorOf_cWord _ _ _
  have hassigned := h.assigned
  rw [hmajor] at hassigned
  simpa [fnAssigned, hfn] using hassigned

theorem gviLenOk_of_gvi {n : BitVec 16} (hi : f.instr = .gvi n) : gviLenOk q n = true := by
  have hmajor := h.readFrom.major
  rw [hi] at hmajor
  have h3D : majorOf w0 = 0x3D := by
    rw [← hmajor]
    exact majorOf_iWord _ _ _
  have hparsed := h.parsed
  rw [h3D, hi] at hparsed
  exact gviLenOk_of_parse3D (Option.ite_none_left_eq_some.1 hparsed).2

theorem encodable : Encodable q addr reduced f := by
  refine ⟨h.wf, h.isWord, h.legalOn, ?_⟩
  split
  case h_1 hi => exact h.aligned_and_full_of_tb hi
  case h_2 hi => exact h.full_of_splc hi
  case h_3 hi => exact h.full_of_cgen hi
  case h_4 hi => exact h.gviLenOk_of_gvi hi
  case h_5 => trivial

end Decodes

/-- Settles O4: each part of the decoder answers only what the encoder writes back to the fields that it was given, and the
fields of a word make the word. -/
theorem decodeThenEncode : Obligations.DecodeThenEncode := by
  unfold Obligations.DecodeThenEncode
  intro q addr w0 w1 reduced f h
  have hd := decode_eq_ok h
  obtain ⟨hfirst, hsecond, -⟩ := hd.readFrom
  rw [← hd.yp] at hfirst hsecond
  exact ⟨hd.encodable, hfirst, hsecond⟩

end Sys2Proof.Laws
end

section
/-! SUPPORT. The fields of packed numbers, of entries of queues and of registers of lanes after a write (R76, R134). -/

namespace Sys2Proof.Laws

open Sys2Proof.Machine

/-! ## Fields of packed numbers -/

theorem laneOf_lt (x w l : Nat) : laneOf x w l < 2 ^ w := Nat.mod_lt _ (Nat.two_pow_pos w)

theorem testBit_laneOf (x w l i : Nat) : (laneOf x w l).testBit i = (decide (i < w) && x.testBit (w * l + i)) := by
  rw [laneOf, Nat.testBit_mod_two_pow, Nat.testBit_shiftRight]

theorem pack_lt (w : Nat) (f : Nat → Nat) (n : Nat) : pack w f n < 2 ^ (w * n) := by
  induction n with
  | zero => simp [pack]
  | succ n ih =>
    have hf : f n % 2 ^ w + 1 ≤ 2 ^ w := Nat.mod_lt _ (Nat.two_pow_pos w)
    calc pack w f (n + 1) < 2 ^ (w * n) + f n % 2 ^ w * 2 ^ (w * n) := Nat.add_lt_add_right ih _
      _ = (f n % 2 ^ w + 1) * 2 ^ (w * n) := by ring
      _ ≤ 2 ^ w * 2 ^ (w * n) := Nat.mul_le_mul_right _ hf
      _ = 2 ^ (w * (n + 1)) := by ring

/-- A field of a packed number is what was packed there. -/
theorem laneOf_pack {w : Nat} {f : Nat → Nat} {n l : Nat} (h : l < n) : laneOf (pack w f n) w l = f l % 2 ^ w := by
  induction n with
  | zero => exact absurd h (Nat.not_lt_zero l)
  | succ n ih =>
    have hlow := pack_lt w f n
    rw [pack, laneOf, Nat.shiftRight_eq_div_pow]
    obtain rfl | hl := Nat.eq_or_lt_of_le (Nat.le_of_lt_succ h)
    · rw [Nat.add_mul_div_right _ _ (Nat.two_pow_pos _), Nat.div_eq_of_lt hlow, Nat.zero_add, Nat.mod_mod]
    · rw [← ih hl, laneOf, Nat.shiftRight_eq_div_pow]
      obtain ⟨d, rfl⟩ := Nat.exists_eq_add_of_lt hl
      have hsplit : f (l + d + 1) % 2 ^ w * 2 ^ (w * (l + d + 1)) =
          2 ^ w * (f (l + d + 1) % 2 ^ w * 2 ^ (w * d)) * 2 ^ (w * l) := by ring
      rw [hsplit, Nat.add_mul_div_right _ _ (Nat.two_pow_pos _), Nat.add_mul_mod_self_left]

theorem testBit_pack {w : Nat} {f : Nat → Nat} {n l i : Nat} (hl : l < n) (hi : i < w) :
    (pack w f n).testBit (w * l + i) = (f l).testBit i := by
  have h := testBit_laneOf (pack w f n) w l i
  rw [laneOf_pack hl, Nat.testBit_mod_two_pow] at h
  simpa [hi] using h.symm

/-- The fields of a word that holds a packed number, where they fit in it. -/
theorem laneOf_ofNat_pack {N w n l : Nat} {f : Nat → Nat} (hfit : w * n ≤ N) (hl : l < n) :
    laneOf (BitVec.ofNat N (pack w f n)).toNat w l = f l % 2 ^ w := by
  have hlt : pack w f n < 2 ^ N := (pack_lt w f n).trans_le (Nat.pow_le_pow_right Nat.two_pos hfit)
  rw [BitVec.toNat_ofNat, Nat.mod_eq_of_lt hlt, laneOf_pack hl]

theorem getLsbD_mergeBits {N : Nat} (old en data : BitVec N) (i : Nat) :
    (mergeBits old en data).getLsbD i = if en.getLsbD i then data.getLsbD i else old.getLsbD i := by
  by_cases hi : i < N
  · cases h : en.getLsbD i <;> simp_all [mergeBits]
  · simp [BitVec.getLsbD_of_ge _ _ (Nat.le_of_not_lt hi)]

/-- WriteLanes (R76) on a register that the fields fit in. -/
theorem lanesWritten_mergeBits {N : Nat} {o : LaneOut} (hfit : o.w * o.n ≤ N) (old : BitVec N) :
    LanesWritten o.w o.n o.en o.data old.toNat
      (mergeBits old (BitVec.ofNat N o.enBits) (BitVec.ofNat N o.bits)).toNat := by
  intro l hl
  refine Nat.eq_of_testBit_eq fun i => ?_
  by_cases hi : i < o.w
  · have hin : o.w * l + i < N :=
      calc o.w * l + i < o.w * (l + 1) := by rw [Nat.mul_succ]; exact Nat.add_lt_add_left hi _
        _ ≤ o.w * o.n := Nat.mul_le_mul_left _ hl
        _ ≤ N := hfit
    have hen : (BitVec.ofNat N o.enBits).getLsbD (o.w * l + i) = o.en l := by
      rw [BitVec.getLsbD_ofNat, LaneOut.enBits, testBit_pack hl hi]
      cases o.en l <;> simp [hi, hin]
    have hdata : (BitVec.ofNat N o.bits).getLsbD (o.w * l + i) = (o.data l).testBit i := by
      rw [BitVec.getLsbD_ofNat, LaneOut.bits, testBit_pack hl hi, decide_eq_true hin, Bool.true_and]
    rw [testBit_laneOf, decide_eq_true hi, Bool.true_and, BitVec.testBit_toNat, getLsbD_mergeBits, hen, hdata]
    cases o.en l <;> simp [testBit_laneOf, hi, BitVec.testBit_toNat]
  · cases o.en l <;> simp [testBit_laneOf, hi]

end Sys2Proof.Laws
end

section
/-! SUPPORT. How an instruction of EX completes: what lands changes the registers it reaches alone (R95), the frame of an
instruction with one result, and the results on lanes and in scalar registers (R76, R119, R121). -/

namespace Sys2Proof.Laws

open Sys2Proof.Machine

/-! ## Results of EX on their way (R95) -/

/-- What results change as they land, and with them the count of slots: the registers that they reach. -/
structure OnlyLands (k k' : Core) : Prop where
  core : k' = { k with seqs := k'.seqs,
                       ex := { k.ex with v := k'.ex.v, a := k'.ex.a, k := k'.ex.k, slot := k'.ex.slot, pend := k'.ex.pend } }
  others : ∀ q, q ≠ .ex → k'.seq q = k.seq q
  mine : k'.seq .ex = { k.seq .ex with regs := (k'.seq .ex).regs }

theorem OnlyLands.trans {k₁ k₂ k₃ : Core} (h : OnlyLands k₁ k₂) (h' : OnlyLands k₂ k₃) : OnlyLands k₁ k₃ where
  core := by rw [h'.core, h.core]
  others q hq := (h'.others q hq).trans (h.others q hq)
  mine := by rw [h'.mine, h.mine]

/-- A change of EX's lanes, accumulators, masks, slot count and results in flight. -/
theorem onlyLands_ex (k : Core) (v : Vector Row 64) (a : Vector Acc 64) (m : Vector Mask 8) (n : Nat) (p : List Pending) :
    OnlyLands k { k with ex := { k.ex with v := v, a := a, k := m, slot := n, pend := p } } :=
  ⟨rfl, fun _ _ => rfl, rfl⟩

theorem setReg_frame (q : SeqSt) (n : Fin 32) (x : Word) : q.setReg n x = { q with regs := (q.setReg n x).regs } := by
  unfold SeqSt.setReg
  split <;> rfl

theorem onlyLands_apply (k : Core) (w : ExWrite) : OnlyLands k (k.apply w) := by
  cases w with
  | s n x =>
    refine ⟨rfl, fun q hq => Core.seq_onSeq_ne _ _ _ _ hq, ?_⟩
    rw [Core.apply, Core.seq_onSeq]
    exact setReg_frame _ _ _
  | v n en d => exact onlyLands_ex k _ _ _ _ _
  | a n en d => exact onlyLands_ex k _ _ _ _ _
  | aAdd n d => exact onlyLands_ex k _ _ _ _ _
  | aScale f p c d => exact onlyLands_ex k _ _ _ _ _
  | k n en d =>
    rw [Core.apply]
    split
    · exact onlyLands_ex k _ _ _ _ _
    · exact onlyLands_ex k _ _ _ _ _

theorem onlyLands_foldl (ps : List Pending) (k : Core) : OnlyLands k (ps.foldl (fun k p => k.apply p.w) k) := by
  induction ps generalizing k with
  | nil => exact onlyLands_ex k _ _ _ _ _
  | cons p ps ih => exact (onlyLands_apply k p.w).trans (ih _)

theorem onlyLands_nextSlot (k : Core) : OnlyLands k k.nextSlot :=
  (onlyLands_ex k _ _ _ _ _).trans (onlyLands_foldl _ _)

theorem landAt_of_pend_nil {k : Core} (h : k.ex.pend = []) (slot : Nat) : k.landAt slot = k := by
  have : ({ k with ex := { k.ex with pend := [] } } : Core) = k := by rw [← h]
  simp [Core.landAt, h, this]

theorem landAll_of_pend_nil {k : Core} (h : k.ex.pend = []) (n slot : Nat) : k.landAll slot n = k := by
  induction n generalizing slot with
  | zero => rfl
  | succ n ih => rw [Core.landAll, landAt_of_pend_nil h, ih]

theorem settle_of_pend_nil {k : Core} (h : k.ex.pend = []) : k.settle = k := landAll_of_pend_nil h _ _

/-- The core with no result in flight. -/
def cleared (k : Core) : Core := { k with ex := { k.ex with pend := [] } }

theorem apply_pend (k : Core) (w : ExWrite) : (k.apply w).ex.pend = k.ex.pend := by
  cases w with
  | k n en d => rw [Core.apply]; split <;> rfl
  | _ => rfl

theorem apply_slot (k : Core) (w : ExWrite) : (k.apply w).ex.slot = k.ex.slot := by
  cases w with
  | k n en d => rw [Core.apply]; split <;> rfl
  | _ => rfl

section
variable {k : Core} {d : Nat} {w : ExWrite} (h : k.ex.pend = [⟨d, w⟩])
include h

theorem landAt_due : k.landAt d = (cleared k).apply w := by
  simp [Core.landAt, h, cleared]

theorem landAt_of_ne {slot : Nat} (hne : slot ≠ d) : k.landAt slot = k := by
  have : ({ k with ex := { k.ex with pend := [⟨d, w⟩] } } : Core) = k := by rw [← h]
  simp [Core.landAt, h, this, hne.symm]

/-- The one result in flight lands by its slot. -/
theorem landAll_single {n slot : Nat} (hle : slot ≤ d) (hlt : d < slot + n) : k.landAll slot n = (cleared k).apply w := by
  induction n generalizing slot with
  | zero => omega
  | succ n ih =>
    rw [Core.landAll]
    obtain rfl | hne := eq_or_ne slot d
    · rw [landAt_due h]
      exact landAll_of_pend_nil (apply_pend _ _) _ _
    · rw [landAt_of_ne h hne]
      exact ih (by omega) (by omega)

theorem settle_single (hle : k.ex.slot ≤ d) : k.settle = (cleared k).apply w := by
  have hh : k.ex.horizon = d + 1 - k.ex.slot := by simp [ExSt.horizon, h]
  rw [Core.settle, hh]
  exact landAll_single h hle (by omega)

end

/-- The core with its slot counted. -/
def counted (k : Core) : Core := { k with ex := { k.ex with slot := k.ex.slot + 1 } }

theorem nextSlot_of_pend_nil {k : Core} (h : k.ex.pend = []) : k.nextSlot = counted k :=
  landAt_of_pend_nil (k := counted k) h _

section
variable {k : Core} {lat : Nat} {w : ExWrite} (h : k.ex.pend = [⟨k.ex.slot + lat, w⟩]) (hlat : 1 ≤ lat)
include h hlat

/-- The one result in flight, issued `lat` slots before it is due, stands once landed in its register. -/
theorem settle_nextSlot_single : k.nextSlot.settle = (cleared (counted k)).apply w := by
  obtain rfl | hlt := Nat.eq_or_lt_of_le hlat
  · have hn : k.nextSlot = (cleared (counted k)).apply w := landAt_due (k := counted k) h
    rw [hn]
    exact settle_of_pend_nil (apply_pend _ _)
  · have hn : k.nextSlot = counted k := landAt_of_ne (k := counted k) h (by omega)
    rw [hn]
    exact settle_single (k := counted k) h (Nat.add_le_add_left hlat _)

theorem nextSlot_dues : k.nextSlot.ex.pend.map (·.due) = if lat = 1 then [] else [k.ex.slot + lat] := by
  obtain rfl | hlt := Nat.eq_or_lt_of_le hlat
  · have hn : k.nextSlot = (cleared (counted k)).apply w := landAt_due (k := counted k) h
    rw [hn, apply_pend, if_pos rfl]
    rfl
  · have hn : k.nextSlot = counted k := landAt_of_ne (k := counted k) h (by omega)
    rw [hn, if_neg (by omega), show (counted k).ex.pend = _ from h]
    rfl

end

theorem foldl_apply_slot (ps : List Pending) (k : Core) : (ps.foldl (fun k p => k.apply p.w) k).ex.slot = k.ex.slot := by
  induction ps generalizing k with
  | nil => rfl
  | cons p ps ih => rw [List.foldl_cons, ih, apply_slot]

theorem nextSlot_slot (k : Core) : k.nextSlot.ex.slot = k.ex.slot + 1 := foldl_apply_slot _ _

/-! ## An instruction of EX completes (R94-R96, R121) -/

theorem mod_mod (s : State) (f g : Core → Core) : (s.mod f).mod g = s.mod fun k => g (f k) := by
  simp [State.mod, State.onCore]

theorem onlyCore_mod (s : State) (f : Core → Core) : OnlyCore s.cur.1 s (s.mod f) :=
  ⟨rfl, fun _ hd => State.core_onCore_ne _ _ _ _ hd⟩

theorem sameBytes_mod (s : State) (f : Core → Core) : SameBytes s (s.mod f) := fun _ => rfl

/-- The core as an instruction of EX completes, before its slot is counted and what is due lands. -/
def passed (k : Core) (yp : Bool) (clk : Nat) : Core :=
  ((k.onSeq .ex fun q => { q.goto (q.pc + 8) with wait := .none }).countSlot yp).holdEx clk 1

theorem retire_ex {s : State} (hq : s.cur.2 = .ex) (k : Core) :
    (s.mod fun _ => k).retire 8 = s.mod fun _ => (passed k s.curYp s.clk).nextSlot := by
  have hme : ∀ f g : SeqSt → SeqSt, (k.onSeq .ex f).onSeq .ex g = k.onSeq .ex fun q => g (f q) := by
    intro f g
    simp [Core.onSeq]
  rw [State.retire, State.issue, State.modMe, mod_mod, mod_mod]
  simp only [State.mod_cur, hq, if_true, hme]
  rfl

/-- Completing changes the sequencers, and EX's counts of slots and clk. -/
theorem passed_frame (k : Core) (yp : Bool) (clk : Nat) :
    ∃ seqs ycnt free, passed k yp clk = { k with seqs := seqs, ex := { k.ex with ycnt := ycnt, free := free } } := by
  unfold passed Core.countSlot
  split
  · exact ⟨_, _, _, rfl⟩
  · exact ⟨_, _, _, rfl⟩

theorem passed_seqs (k : Core) (yp : Bool) (clk : Nat) :
    (passed k yp clk).seqs = (k.onSeq .ex fun q => { q.goto (q.pc + 8) with wait := .none }).seqs := by
  unfold passed Core.countSlot
  split <;> rfl

/-! ### The frame of what completes -/

theorem passed_seq_ex (k : Core) (yp : Bool) (clk : Nat) :
    (passed k yp clk).seq .ex = { (k.seq .ex).goto ((k.seq .ex).pc + 8) with wait := .none } := by
  have h := Core.seq_onSeq k .ex fun q => { q.goto (q.pc + 8) with wait := .none }
  rwa [Core.seq, ← passed_seqs k yp clk] at h

theorem passed_seq_ne (k : Core) (yp : Bool) (clk : Nat) {q : Seq} (hq : q ≠ .ex) : (passed k yp clk).seq q = k.seq q := by
  have h := Core.seq_onSeq_ne k .ex q (fun q => { q.goto (q.pc + 8) with wait := .none }) hq
  rwa [Core.seq, ← passed_seqs k yp clk] at h

/-- The registers as they stand when the next slot begins, with nothing in flight. -/
def standing (k : Core) (yp : Bool) (clk : Nat) : Core := cleared (counted (passed k yp clk))

@[simp] theorem standing_v (k : Core) (yp : Bool) (clk : Nat) : (standing k yp clk).ex.v = k.ex.v := by
  obtain ⟨_, _, _, h⟩ := passed_frame k yp clk
  simp [standing, cleared, counted, h]
@[simp] theorem standing_a (k : Core) (yp : Bool) (clk : Nat) : (standing k yp clk).ex.a = k.ex.a := by
  obtain ⟨_, _, _, h⟩ := passed_frame k yp clk
  simp [standing, cleared, counted, h]
@[simp] theorem standing_k (k : Core) (yp : Bool) (clk : Nat) : (standing k yp clk).ex.k = k.ex.k := by
  obtain ⟨_, _, _, h⟩ := passed_frame k yp clk
  simp [standing, cleared, counted, h]

@[simp] theorem standing_reg (k : Core) (yp : Bool) (clk : Nat) (n : Fin 32) :
    ((standing k yp clk).seq .ex).reg n = (k.seq .ex).reg n := by
  have h : (standing k yp clk).seq .ex = { (k.seq .ex).goto ((k.seq .ex).pc + 8) with wait := .none } := passed_seq_ex k yp clk
  rw [h, SeqSt.goto_frame]
  rfl

/-- An instruction of EX has completed that leaves the core `k` when it issues. -/
structure Completed (s u : State) (k : Core) : Prop where
  frame : EXFrame s u
  passes : Passes s u
  core : u.here = { k with seqs := u.here.seqs, ex := u.here.ex }
  slot : u.here.ex.slot = k.ex.slot + 1
  pushes : u.here.ex.pushes = k.ex.pushes
  splret : u.here.ex.splret = k.ex.splret
  tsa : u.here.ex.tsa = k.ex.tsa

section
variable {s : State} (hq : s.cur.2 = .ex) {k : Core}
include hq

theorem here_retire_ex : ((s.mod fun _ => k).retire 8).here = (passed k s.curYp s.clk).nextSlot := by
  rw [retire_ex hq, State.here_mod]

theorem me_retire_ex (hseqs : k.seqs = s.here.seqs) : ∃ regs, ((s.mod fun _ => k).retire 8).me =
    { s.me.goto (s.me.pc + 8) with regs := regs, wait := .none } := by
  have hs : k.seq .ex = s.me := by rw [State.me, hq, Core.seq, hseqs, Core.seq]
  refine ⟨((passed k s.curYp s.clk).nextSlot.seq .ex).regs, ?_⟩
  rw [State.me, State.retire_cur, State.mod_cur, hq, here_retire_ex hq, (onlyLands_nextSlot _).mine, passed_seq_ex, hs]

theorem passes_retire_ex (hseqs : k.seqs = s.here.seqs) : Passes s ((s.mod fun _ => k).retire 8) := by
  obtain ⟨regs, hme⟩ := me_retire_ex hq hseqs
  unfold Passes Goes
  rw [hme]
  refine ⟨rfl, rfl, rfl, fun hno => ?_⟩
  rw [SeqSt.goto_of_depth_zero _ _ hno]
  exact ⟨rfl, rfl, rfl⟩

theorem exFrame_retire_ex (hseqs : k.seqs = s.here.seqs) : EXFrame s ((s.mod fun _ => k).retire 8) := by
  refine ⟨?_, ?_, fun q hne => ?_, ?_⟩
  · rw [retire_ex hq]
    exact onlyCore_mod _ _
  · rw [retire_ex hq]
    exact sameBytes_mod _ _
  · rw [hq] at hne
    rw [here_retire_ex hq, (onlyLands_nextSlot _).others q hne, passed_seq_ne _ _ _ hne, Core.seq, hseqs, Core.seq]
  · obtain ⟨regs, hme⟩ := me_retire_ex hq hseqs
    unfold SeqFrame
    rw [hme, SeqSt.goto_frame]

theorem completed_retire_ex (hseqs : k.seqs = s.here.seqs) : Completed s ((s.mod fun _ => k).retire 8) k := by
  obtain ⟨_, _, _, hp⟩ := passed_frame k s.curYp s.clk
  have hl := (onlyLands_nextSlot (passed k s.curYp s.clk)).core
  have hslot := nextSlot_slot (passed k s.curYp s.clk)
  refine ⟨exFrame_retire_ex hq hseqs, passes_retire_ex hq hseqs, ?_, ?_, ?_, ?_, ?_⟩ <;> rw [here_retire_ex hq]
  · rw [hl, hp]
  · rw [hslot, hp]
  all_goals rw [hl, hp]

/-- With one result in flight, its registers once landed. -/
theorem settle_retire_ex {lat : Nat} {w : ExWrite} (hpend : k.ex.pend = [⟨k.ex.slot + lat, w⟩]) (hlat : 1 ≤ lat) :
    ((s.mod fun _ => k).retire 8).here.settle = (standing k s.curYp s.clk).apply w ∧
      ((s.mod fun _ => k).retire 8).here.ex.pend.map (·.due) = if lat = 1 then [] else [k.ex.slot + lat] := by
  obtain ⟨_, _, _, hp⟩ := passed_frame k s.curYp s.clk
  have hslot : (passed k s.curYp s.clk).ex.slot = k.ex.slot := by rw [hp]
  have hpend' : (passed k s.curYp s.clk).ex.pend = [⟨(passed k s.curYp s.clk).ex.slot + lat, w⟩] := by
    rw [hslot, ← hpend, hp]
  rw [here_retire_ex hq, ← hslot]
  exact ⟨settle_nextSlot_single hpend' hlat, nextSlot_dues hpend' hlat⟩

/-- With none in flight, they stand. -/
theorem settle_retire_ex_of_pend_nil (hpend : k.ex.pend = []) :
    ((s.mod fun _ => k).retire 8).here.settle = standing k s.curYp s.clk := by
  have hp : (passed k s.curYp s.clk).ex.pend = [] := by
    obtain ⟨_, _, _, hp⟩ := passed_frame k s.curYp s.clk
    rw [hp, hpend]
  have hc : standing k s.curYp s.clk = counted (passed k s.curYp s.clk) := by
    rw [standing, cleared, ← show (counted (passed k s.curYp s.clk)).ex.pend = [] from hp]
  rw [here_retire_ex hq, nextSlot_of_pend_nil hp, hc]
  exact settle_of_pend_nil hp

end

/-! ### The results of an instruction on lanes -/

/-- Reading the sources changes the queues alone. -/
theorem readV_queues {k k' : Core} {x : VSrc} {v : VVal} (h : k.readV x = some (v, k')) : k' = { k with queues := k'.queues } := by
  unfold Core.readV at h
  split at h
  case h_5 n =>
    dsimp only at h
    split at h
    · cases h
    · cases h
      rfl
  all_goals cases h; rfl

theorem readAll_queues {k k' : Core} {xs : List VSrc} {vs : List VVal} (h : k.readAll xs = some (vs, k')) :
    k' = { k with queues := k'.queues } := by
  induction xs generalizing k vs with
  | nil => cases h; rfl
  | cons x xs ih =>
    rw [Core.readAll] at h
    split at h
    · cases h
    next v k₁ hv =>
      split at h
      · cases h
      next ws k₂ hvs =>
        cases h
        rw [ih hvs, readV_queues hv]

theorem wideHold_frame (k : Core) (wide : Bool) (clk : Nat) :
    ∃ free, k.wideHold wide clk = { k with ex := { k.ex with free := free } } := by
  cases wide <;> exact ⟨_, rfl⟩

/-- An instruction on lanes with its sources there, its tags right and room for its result issues. -/
theorem vecOp_issues {srcs : List VSrc} {t : Option LTy} {d : Option (Fin 16)} {out : Core → List VVal → Core} {s : State}
    {vs : List VVal} {k : Core} (hread : s.here.readAll srcs = some (vs, k)) (hroom : ∀ n ∈ d, s.here.room n = true)
    (htags : tagsOk t vs = true) : vecOp srcs t d out s = (s.mod fun _ => out k vs).retire 8 := by
  have hd : d.filter (fun n => !s.here.room n) = none := by
    rw [Option.filter_eq_none_iff]
    intro n hn
    simp [hroom n hn]
  rw [vecOp, hread]
  dsimp only
  rw [hd, htags]
  rfl

theorem room_of_dstRoom {k : Core} {d : VDst} (h : k.dstRoom d = true) : ∀ n ∈ dstQ d, k.room n = true := by
  intro n hn
  cases d with
  | q m =>
    cases hn
    exact h
  | v m => cases hn
  | a m => cases hn

/-- The fields that an instruction writes fit in a register of its destination's kind. -/
def Fits (d : VDst) (o : LaneOut) : Prop :=
  match d with
  | .a _ => o.w * o.n ≤ 8192
  | _ => o.w * o.n ≤ 2048

/-- The registers of EX in the core `b` are those of the state. -/
structure Stands (s : State) (b : Core) : Prop where
  v : b.ex.v = s.here.ex.v
  a : b.ex.a = s.here.ex.a
  k : b.ex.k = s.here.ex.k
  reg : ∀ n, (b.seq .ex).reg n = s.me.reg n

theorem stands_standing {s : State} (hq : s.cur.2 = .ex) {k : Core} (hseqs : k.seqs = s.here.seqs) (hv : k.ex.v = s.here.ex.v)
    (ha : k.ex.a = s.here.ex.a) (hm : k.ex.k = s.here.ex.k) (yp : Bool) (clk : Nat) : Stands s (standing k yp clk) where
  v := (standing_v k yp clk).trans hv
  a := (standing_a k yp clk).trans ha
  k := (standing_k k yp clk).trans hm
  reg n := by rw [standing_reg, State.me, hq, Core.seq, hseqs, Core.seq]

/-- An instruction of EX has completed whose one result goes to a register: `k` is the core after its queue pops. -/
structure ResultDone (s u : State) (k : Core) (lat : Nat) (w : ExWrite) : Prop where
  frame : EXFrame s u
  passes : Passes s u
  core : u.here = { k with seqs := u.here.seqs, ex := u.here.ex }
  pushes : u.here.ex.pushes = s.here.ex.pushes
  splret : u.here.ex.splret = s.here.ex.splret
  tsa : u.here.ex.tsa = s.here.ex.tsa
  lands : Lands s u lat
  settles : s.here.ex.pend = [] → ∃ b, Stands s b ∧ u.here.settle = b.apply w

section
variable {s : State} (hq : s.cur.2 = .ex) {k : Core} (hk : k = { s.here with queues := k.queues }) (wide : Bool) {lat : Nat}
include hq hk

theorem resultDone_later (hlat : 1 ≤ lat) (w : ExWrite) :
    ResultDone s ((s.mod fun _ => (k.wideHold wide s.clk).later lat w).retire 8) k lat w := by
  obtain ⟨free, hhold⟩ := wideHold_frame k wide s.clk
  have hex : k.ex = s.here.ex := by rw [hk]
  have hseqs : k.seqs = s.here.seqs := by rw [hk]
  generalize hk₁ : (k.wideHold wide s.clk).later lat w = k₁
  have hex₁ : k₁.ex = { s.here.ex with free := free, pend := s.here.ex.pend ++ [⟨s.here.ex.slot + lat, w⟩] } := by
    rw [← hk₁, hhold, ← hex]
    rfl
  have hcore : k₁ = { k with ex := k₁.ex } := by rw [← hk₁, hhold]; rfl
  have hseqs₁ : k₁.seqs = s.here.seqs := by rw [hcore, hseqs]
  have hdone := completed_retire_ex hq hseqs₁
  have hpend : s.here.ex.pend = [] → k₁.ex.pend = [⟨k₁.ex.slot + lat, w⟩] := fun hnil => by rw [hex₁, hnil]; rfl
  have hslot : k₁.ex.slot = s.here.ex.slot := by rw [hex₁]
  have hstands := stands_standing hq hseqs₁ (by rw [hex₁]) (by rw [hex₁]) (by rw [hex₁]) s.curYp s.clk
  refine ⟨hdone.frame, hdone.passes, ?_, ?_, ?_, ?_, ⟨?_, fun hnil => ?_⟩, fun hnil => ?_⟩
  · rw [hdone.core, hcore]
  · rw [hdone.pushes, hex₁]
  · rw [hdone.splret, hex₁]
  · rw [hdone.tsa, hex₁]
  · rw [hdone.slot, hslot]
  · rw [(settle_retire_ex hq (hpend hnil) hlat).2, hslot]
  · exact ⟨_, hstands, (settle_retire_ex hq (hpend hnil) hlat).1⟩

end

section
variable {s u : State} (hq : s.cur.2 = .ex) {k : Core} {lat : Nat}
include hq

/-- A scalar result (R95). -/
theorem scalarDone_of_resultDone {d : Fin 32} {x : Word} (h : ResultDone s u k lat (.s d x)) (hcur : u.cur.2 = .ex) :
    ScalarDone s u k d lat x := by
  refine ⟨h.frame, fun hno => ?_, h.passes,
    ⟨fun hne => absurd hq hne, fun _ => ⟨h.pushes, h.splret, h.tsa, fun hnil => ?_⟩⟩, h.lands, h.core⟩
  · obtain ⟨b, hb, hs⟩ := h.settles (hno hq)
    have hreg : ∀ n, u.landed n = ((b.seq .ex).setReg d x).reg n := by
      intro n
      rw [State.landed, hs, hcur, Core.apply, Core.seq_onSeq]
    refine ⟨by rw [hreg, SeqSt.reg_setReg], fun n hn => ?_⟩
    rw [hreg, SeqSt.reg_setReg_ne _ _ _ _ hn, hb.reg]
  · obtain ⟨b, hb, hs⟩ := h.settles hnil
    rw [hs]
    exact ⟨hb.v, hb.a, hb.k⟩

end

/-- WriteLanes (R76) on one register of a file. -/
theorem lanesWritten_set {N : Nat} {o : LaneOut} (hfit : o.w * o.n ≤ N) (regs : Vector (BitVec N) 64) (n : Fin 64)
    {new : Vector (BitVec N) 64} (hnew : new = regs.set n (mergeBits regs[n] (BitVec.ofNat N o.enBits) (BitVec.ofNat N o.bits))) :
    LanesWritten o.w o.n o.en o.data regs[n].toNat new[n].toNat ∧ ∀ m : Fin 64, m ≠ n → new[m] = regs[m] := by
  subst hnew
  refine ⟨?_, fun m hm => Vector.getElem_set_ne _ _ fun e => hm (Fin.ext e.symm)⟩
  simp only [Fin.getElem_fin, Vector.getElem_set_self]
  exact lanesWritten_mergeBits hfit _

section
variable {s u : State} (hq : s.cur.2 = .ex) {k : Core} {lat : Nat} {o : LaneOut}
include hq

/-- A result of lanes reaches no scalar register. -/
theorem writesNone_of_settle {w : ExWrite} (hcur : u.cur.2 = .ex) (hseqs : ∀ b : Core, (b.apply w).seqs = b.seqs)
    (h : s.here.ex.pend = [] → ∃ b, Stands s b ∧ u.here.settle = b.apply w) : WritesNone s u := by
  intro hno n
  obtain ⟨b, hb, hs⟩ := h (hno hq)
  rw [State.landed, hs, hcur, Core.seq, hseqs]
  exact hb.reg n

/-- Lanes of a vector register (R76). -/
theorem laneDone_of_resultDone_v {n : Fin 64} (hfit : o.w * o.n ≤ 2048) (hcur : u.cur.2 = .ex)
    (h : ResultDone s u k lat (.v n (BitVec.ofNat 2048 o.enBits) (BitVec.ofNat 2048 o.bits))) : LaneDone s u k (.v n) lat o := by
  refine ⟨h.frame, writesNone_of_settle hq hcur (fun _ => rfl) h.settles, h.passes, h.splret, h.tsa, h.core, h.pushes, h.lands,
    fun hnil => ?_⟩
  obtain ⟨b, hb, hs⟩ := h.settles hnil
  obtain ⟨hmine, hrest⟩ := lanesWritten_set hfit s.here.ex.v n (new := u.here.settle.ex.v) (by rw [hs, Core.apply, hb.v])
  refine ⟨hmine, hrest, ?_, ?_⟩ <;> rw [hs]
  · exact hb.a
  · exact hb.k

/-- Lanes of an accumulator (R76, R115). -/
theorem laneDone_of_resultDone_a {n : Fin 64} (hfit : o.w * o.n ≤ 8192) (hcur : u.cur.2 = .ex)
    (h : ResultDone s u k lat (.a n (BitVec.ofNat 8192 o.enBits) (BitVec.ofNat 8192 o.bits))) : LaneDone s u k (.a n) lat o := by
  refine ⟨h.frame, writesNone_of_settle hq hcur (fun _ => rfl) h.settles, h.passes, h.splret, h.tsa, h.core, h.pushes, h.lands,
    fun hnil => ?_⟩
  obtain ⟨b, hb, hs⟩ := h.settles hnil
  obtain ⟨hmine, hrest⟩ := lanesWritten_set hfit s.here.ex.a n (new := u.here.settle.ex.a) (by rw [hs, Core.apply, hb.a])
  refine ⟨hmine, hrest, ?_, ?_⟩ <;> rw [hs]
  · exact hb.v
  · exact hb.k

end

section
variable {s : State} (hq : s.cur.2 = .ex) {k : Core} (hk : k = { s.here with queues := k.queues }) (wide : Bool) {lat : Nat}
include hq hk

/-- Lanes on their way to a queue (R119, R134). -/
theorem laneDone_pushLater {n : Fin 4} {o : LaneOut} (hfit : o.w * o.n ≤ 2048) :
    LaneDone s ((s.mod fun _ => ((k.wideHold wide s.clk).claim (dstQueue n)).pushLater s.clk lat (.data n o.entry)).retire 8)
      k (.q n) lat o := by
  obtain ⟨free, hhold⟩ := wideHold_frame k wide s.clk
  have hex : k.ex = s.here.ex := by rw [hk]
  have hseqs : k.seqs = s.here.seqs := by rw [hk]
  generalize hk₁ : ((k.wideHold wide s.clk).claim (dstQueue n)).pushLater s.clk lat (.data n o.entry) = k₁
  have hex₁ : k₁.ex = { s.here.ex with free := free, pushes := s.here.ex.pushes ++ [⟨s.clk + lat, .data n o.entry⟩] } := by
    rw [← hk₁, hhold, ← hex]
    rfl
  have hcore : k₁ = { k.claim (dstQueue n) with ex := k₁.ex } := by rw [← hk₁, hhold]; rfl
  have hseqs₁ : k₁.seqs = s.here.seqs := by rw [hcore, ← hseqs]; rfl
  have hdone := completed_retire_ex hq hseqs₁
  have hstands := stands_standing hq hseqs₁ (by rw [hex₁]) (by rw [hex₁]) (by rw [hex₁]) s.curYp s.clk
  have hsettle : s.here.ex.pend = [] → ((s.mod fun _ => k₁).retire 8).here.settle = standing k₁ s.curYp s.clk :=
    fun hnil => settle_retire_ex_of_pend_nil hq (by rw [hex₁, hnil])
  refine ⟨hdone.frame, fun hno m => ?_, hdone.passes, ?_, ?_, ?_,
    ⟨o.entry, rfl, fun l hl => laneOf_ofNat_pack hfit hl, ?_⟩, fun hnil => ?_⟩
  · rw [State.landed, hsettle (hno hq), State.retire_cur, State.mod_cur, hq]
    exact hstands.reg m
  · rw [hdone.splret, hex₁]
  · rw [hdone.tsa, hex₁]
  · rw [hdone.core, hcore]
  · rw [hdone.pushes, hex₁]
  · rw [hsettle hnil]
    exact ⟨hstands.v, hstands.a, hstands.k⟩

/-- An instruction on lanes has completed that writes lanes to its destination (R76, R95, R119). -/
theorem laneDone_writeV (hlat : 1 ≤ lat) (d : VDst) {o : LaneOut} (hfit : Fits d o) :
    LaneDone s ((s.mod fun _ => (k.wideHold wide s.clk).writeV s.clk d lat o).retire 8) k d lat o := by
  cases d with
  | v n => exact laneDone_of_resultDone_v hq hfit hq (resultDone_later hq hk wide hlat _)
  | a n => exact laneDone_of_resultDone_a hq hfit hq (resultDone_later hq hk wide hlat _)
  | q n => exact laneDone_pushLater hq hk wide hfit

theorem scalarDone_later (hlat : 1 ≤ lat) (d : Fin 32) (x : Word) :
    ScalarDone s ((s.mod fun _ => (k.wideHold wide s.clk).later lat (.s d x)).retire 8) k d lat x :=
  scalarDone_of_resultDone hq (resultDone_later hq hk wide hlat _) hq

end

/-- Two instructions write the same lanes of one view. -/
structure LanesAgree (o o' : LaneOut) : Prop where
  w : o'.w = o.w
  n : o'.n = o.n
  tag : o'.tag = o.tag
  en : ∀ l, l < o.n → o'.en l = o.en l
  data : ∀ l, l < o.n → o'.data l = o.data l
  qdata : ∀ l, l < o.n → o'.qdata l = o.qdata l

theorem lanesAgree_writeLanes {n : Nat} {res res' : Nat → Nat} (hres : ∀ l, l < n → res l = res' l) (w : Nat) (active : Nat → Bool)
    (mz : Bool) (s1 : Nat → Nat) (tag : BitVec 8) :
    LanesAgree (writeLanes w n active mz res s1 tag) (writeLanes w n active mz res' s1 tag) where
  w := rfl
  n := rfl
  tag := rfl
  en _ _ := rfl
  data l hl := by simp only [writeLanes, hres l hl]
  qdata l hl := by simp only [writeLanes, hres l hl]

theorem LanesAgree.written {o o' : LaneOut} (h : LanesAgree o o') {old new : Nat} (hw : LanesWritten o.w o.n o.en o.data old new) :
    LanesWritten o'.w o'.n o'.en o'.data old new := by
  intro l hl
  rw [h.n] at hl
  rw [h.w, h.en l hl, h.data l hl, hw l hl]

/-- Only the lanes of the view count. -/
theorem laneDone_congr {s u : State} {k : Core} {d : VDst} {lat : Nat} {o o' : LaneOut} (hagree : LanesAgree o o')
    (h : LaneDone s u k d lat o) : LaneDone s u k d lat o' := by
  obtain ⟨hframe, hnone, hpass, hsplret, htsa, hdst⟩ := h
  refine ⟨hframe, hnone, hpass, hsplret, htsa, ?_⟩
  cases d with
  | v m =>
    obtain ⟨hcore, hpushes, hlands, hreg⟩ := hdst
    exact ⟨hcore, hpushes, hlands, fun hnil => (hreg hnil).imp_left hagree.written⟩
  | a m =>
    obtain ⟨hcore, hpushes, hlands, hreg⟩ := hdst
    exact ⟨hcore, hpushes, hlands, fun hnil => (hreg hnil).imp_left hagree.written⟩
  | q m =>
    obtain ⟨hcore, ⟨e, htag, hlanes, hpushes⟩, hreg⟩ := hdst
    refine ⟨hcore, ⟨e, htag.trans hagree.tag.symm, fun l hl => ?_, hpushes⟩, hreg⟩
    rw [hagree.n] at hl
    rw [hagree.w, hagree.qdata l hl, hlanes l hl]

end Sys2Proof.Laws
end

section
/-! SUPPORT. Reductions: the pairwise tree taken level by level is the tree over each segment (R44, R138). -/

namespace Sys2Proof.Laws

open Sys2Proof.Machine

/-! ## The pairwise tree (R44) -/

theorem treeLevel_map_range {α : Type} (f : α → α → α) (x : Nat → Option α) (m : Nat) :
    treeLevel f ((List.range (2 * m)).map x) = (List.range m).map fun j => combine f (x (2 * j)) (x (2 * j + 1)) := by
  induction m generalizing x with
  | zero => rfl
  | succ m ih =>
    have htwo : (List.range (2 * (m + 1))).map x = x 0 :: x 1 :: (List.range (2 * m)).map fun j => x (j + 2) := by
      rw [show 2 * (m + 1) = 2 * m + 1 + 1 by omega, List.range_succ_eq_map, List.range_succ_eq_map]
      simp [Function.comp_def]
    rw [htwo, treeLevel, ih, List.range_succ_eq_map]
    simp [Function.comp_def, Nat.mul_add]

theorem redTree_succ (f : Nat → Nat → Nat) (x : Nat → Option Nat) (n base : Nat) :
    redTree f x (n + 1) base = combine f (redTree f x n base) (redTree f x n (base + 2 ^ n)) := by
  rw [redTree]
  cases redTree f x n base <;> cases redTree f x n (base + 2 ^ n) <;> rfl

/-- The first level of the tree over pairs. -/
theorem redTree_pairs (f : Nat → Nat → Nat) (x : Nat → Option Nat) (n base : Nat) :
    redTree f (fun j => combine f (x (2 * j)) (x (2 * j + 1))) n base = redTree f x (n + 1) (2 * base) := by
  induction n generalizing base with
  | zero => rw [redTree_succ]; rfl
  | succ n ih => rw [redTree_succ, ih, ih, redTree_succ f x (n + 1), Nat.mul_add, ← Nat.pow_succ']

/-- Level by level over all lanes, each segment gives the tree over its own. -/
theorem tree_getD (f : Nat → Nat → Nat) (x : Nat → Option Nat) (n : Nat) {m g : Nat} (hg : g < m) :
    (tree f n ((List.range (2 ^ n * m)).map x)).getD g none = redTree f x n (g * 2 ^ n) := by
  induction n generalizing x with
  | zero => simp [tree, redTree, hg]
  | succ n ih =>
    have hlen : 2 ^ (n + 1) * m = 2 * (2 ^ n * m) := by rw [Nat.pow_succ', Nat.mul_assoc]
    have hbase : g * 2 ^ (n + 1) = 2 * (g * 2 ^ n) := by rw [Nat.pow_succ', Nat.mul_left_comm]
    rw [tree, hlen, treeLevel_map_range, ih, redTree_pairs, hbase]

/-! ## Codes of lanes (R31, R114) -/

theorem ival_eq_laneNum (t : LTy) (x : Nat) : ival t.width t.isSigned x = laneNum t x := by
  unfold ival laneNum sval
  split <;> rfl

theorem wrap_add (w a b : Nat) : wrap w ((a : Int) + b) = (a + b) % 2 ^ w := by
  rw [wrap]
  norm_cast

/-- The NaNs of the formats of float arithmetic have the exponent of infinity (R30, R31). -/
theorem isNan_decodeF {t : Flt} (h : t = .fp16 ∨ t = .bf16 ∨ t = .fp32) (x : Nat) :
    (decodeF t x).isNan = true ↔ x / 2 ^ t.mbits % 2 ^ t.ebits = 2 ^ t.ebits - 1 ∧ x % 2 ^ t.mbits ≠ 0 := by
  by_cases he : x / 2 ^ t.mbits % 2 ^ t.ebits = 2 ^ t.ebits - 1
  · obtain rfl | rfl | rfl := h <;> simp only [decodeF, if_pos he] <;> split <;> simp_all [FV.isNan]
  · obtain rfl | rfl | rfl := h <;> simp only [decodeF, if_neg he] <;> split <;> simp [he, FV.isNan]

/-- The codes that a reduction takes: of integers, or of float arithmetic. -/
theorem quietCode_eq_quieted {t : LTy} (h : (t.isInt || t.isArith) = true) (x : Nat) : quietCode t x = quieted t x := by
  cases t
  case e4m3 => cases h
  case e5m2 => cases h
  case fp16 => simp [quietCode, quieted, LTy.isInt, fval, fmtOf, ltyFlt, isNan_decodeF, Flt.mbits, Flt.ebits]
  case bf16 => simp [quietCode, quieted, LTy.isInt, fval, fmtOf, ltyFlt, isNan_decodeF, Flt.mbits, Flt.ebits]
  case fp32 => simp [quietCode, quieted, LTy.isInt, fval, fmtOf, ltyFlt, isNan_decodeF, Flt.mbits, Flt.ebits]
  all_goals rfl

/-! ## Reductions (R138) -/

/-- Each reduction is the tree with its combine. -/
theorem exec_of_redCombine {i : Instr} {o : VRed} {f : Nat → Nat → Nat} {empty : Nat}
    (h : redCombine i = some (o, f, empty)) (s : State) : exec i s = .next (vred o f empty s) := by
  unfold redCombine at h
  split at h <;> simp only [Option.some.injEq, Prod.mk.injEq, reduceCtorEq] at h <;> obtain ⟨rfl, rfl, rfl⟩ := h
  case h_1 o => simp only [wrap_add]; rfl
  case h_2 o => simp only [← ival_eq_laneNum]; rfl
  case h_3 o => simp only [← ival_eq_laneNum]; rfl
  all_goals rfl

theorem fields_of_redCombine {i : Instr} {o : VRed} {f : Nat → Nat → Nat} {empty : Nat} (h : redCombine i = some (o, f, empty))
    (hwf : i.wf = true) : (o.ty.isInt || o.ty.isArith) = true ∧ o.ok = true := by
  have hfields : i.fieldsOk = true := (Bool.and_eq_true_iff.1 hwf).1
  unfold redCombine at h
  split at h <;> simp only [Option.some.injEq, Prod.mk.injEq, reduceCtorEq] at h <;> obtain ⟨rfl, -, -⟩ := h
  all_goals
    obtain ⟨hty, hok⟩ := Bool.and_eq_true_iff.1 hfields
    exact ⟨by simp [hty], hok⟩

theorem redLanes_eq (o : VRed) : redLanes o = 2 ^ o.log2N := by
  unfold redLanes VRed.log2N
  cases o.wide <;> rfl

/-- The segments of a well-formed reduction divide its lanes (R138). -/
theorem seg_le_log2N {o : VRed} (h : o.ok = true) : o.seg.toNat ≤ o.log2N := by
  simp only [VRed.ok, Bool.and_eq_true, decide_eq_true_eq] at h
  obtain ⟨⟨-, hseg⟩, -⟩ := h
  exact hseg

theorem width_mul_lanes (t : LTy) : t.width * t.lanes = 2048 := by cases t <;> rfl

/-- A reduction to a register or queue of 256 bytes is not wide (R115). -/
theorem wide_of_other {o : VRed} {d : VDst} (hd : o.dst = .lanes d) (hother : d.k00 = .other) (h : o.ok = true) :
    o.wide = false := by
  simp only [VRed.ok, wideOk, VRed.k00s, hd, hother, Bool.and_eq_true] at h
  have hwide : o.wide = wideOf [.other, o.a.k00] := by simp only [VRed.wide, VRed.k00s, hd, hother]
  obtain ⟨⟨hnot, -⟩, -⟩ := h
  rw [hwide]
  simpa using hnot

/-- The lanes of a well-formed reduction fit in a register of its destination. -/
theorem fits_of_ok {o : VRed} {d : VDst} (hd : o.dst = .lanes d) (h : o.ok = true) (active : Nat → Bool) (res s1 : Nat → Nat) :
    Fits d (writeLanes o.ty.width (redLanes o) active o.mz res s1 (ltyTag o.ty)) := by
  have hnarrow : d.k00 = .other → o.ty.width * redLanes o ≤ 2048 := by
    intro hother
    rw [redLanes, wide_of_other hd hother h]
    exact (width_mul_lanes o.ty).le
  have hall : o.ty.width * redLanes o ≤ 8192 := by
    unfold redLanes
    cases o.wide <;> cases o.ty <;> decide
  cases d with
  | v n => exact hnarrow rfl
  | a n => exact hall
  | q n => exact hnarrow rfl

theorem nth_zero (vs : List VVal) : nth vs 0 = vs.headD (.word 0) := by cases vs <;> rfl

/-- The result of the segment of lane l, as the levels of the tree give it. -/
def treeResult (o : VRed) (f : Nat → Nat → Nat) (empty : Nat) (k : Core) (vs : List VVal) (l : Nat) : Nat :=
  ((tree f o.seg.toNat ((List.range (redLanes o)).map fun j =>
    if (k.mask o.mask).getLsbD j then some (quietCode o.ty ((nth vs 0).lane o.ty j)) else none)).getD
      (l / 2 ^ o.seg.toNat) none).getD empty

/-- Level by level or segment by segment, the pairwise tree of R44 gives one result. -/
theorem treeResult_eq_redResult {o : VRed} (hty : (o.ty.isInt || o.ty.isArith) = true) (hok : o.ok = true) (f : Nat → Nat → Nat)
    (empty : Nat) (k : Core) (vs : List VVal) {l : Nat} (hl : l < redLanes o) :
    treeResult o f empty k vs l = redResult o f empty k vs l := by
  have hlanes : redLanes o = 2 ^ o.seg.toNat * 2 ^ (o.log2N - o.seg.toNat) := by
    rw [redLanes_eq, ← Nat.pow_add, Nat.add_sub_cancel' (seg_le_log2N hok)]
  have hg : l / 2 ^ o.seg.toNat < 2 ^ (o.log2N - o.seg.toNat) := Nat.div_lt_of_lt_mul (hlanes ▸ hl)
  simp only [treeResult, redResult, nth_zero, hlanes, tree_getD _ _ _ hg, quietCode_eq_quieted hty]

section
variable {o : VRed} (f : Nat → Nat → Nat) (empty : Nat) {s : State} {vs : List VVal} {k : Core}
  (hread : s.here.readAll [o.a] = some (vs, k)) (htags : tagsOk (some o.ty) vs = true)
include hread htags

/-- A reduction to lanes issues. -/
theorem vred_lanes {d : VDst} (hd : o.dst = .lanes d) (hroom : s.here.dstRoom d = true) :
    vred o f empty s = (s.mod fun _ => (k.wideHold o.wide s.clk).writeV s.clk d (if o.wide then 7 else 6)
      (writeLanes o.ty.width (redLanes o) (s.here.mask o.mask).getLsbD o.mz (treeResult o f empty s.here vs)
        ((nth vs 0).lane o.ty) (ltyTag o.ty))).retire 8 := by
  have hq : ∀ n ∈ redQ o.dst, s.here.room n = true := by
    rw [hd]
    exact room_of_dstRoom hroom
  rw [vred, vecOp_issues hread hq htags]
  simp only [hd]
  rfl

/-- A reduction to a scalar register issues. -/
theorem vred_scalar {d : Fin 32} (hd : o.dst = .s d) :
    vred o f empty s = (s.mod fun _ => (k.wideHold o.wide s.clk).later (if o.wide then 7 else 6) (.s d
      (if o.ty.isSigned then BitVec.ofInt 64 (laneNum o.ty (treeResult o f empty s.here vs 0))
        else BitVec.ofNat 64 (treeResult o f empty s.here vs 0)))).retire 8 := by
  have hq : ∀ n ∈ redQ o.dst, s.here.room n = true := by
    rw [hd]
    exact fun n hn => nomatch hn
  rw [vred, vecOp_issues hread hq htags]
  simp only [hd, ← ival_eq_laneNum, ival]
  split <;> rfl

end

/-- Settles O26: the instruction issues with the results of the tree taken level by level, and these are those of the
segments. -/
theorem reductions : Obligations.Reductions := by
  unfold Obligations.Reductions
  intro i o f empty s vs k hi hq hwf hread htags
  obtain ⟨hty, hok⟩ := fields_of_redCombine hi hwf
  have hk := readAll_queues hread
  have hlat : 1 ≤ if o.wide then 7 else 6 := by split <;> decide
  refine ⟨fun d hd hroom => ⟨_, exec_of_redCombine hi s, ?_⟩, fun d hd => ⟨_, exec_of_redCombine hi s, ?_⟩⟩
  · rw [vred_lanes f empty hread htags hd hroom, nth_zero]
    exact laneDone_congr (lanesAgree_writeLanes (fun l hl => treeResult_eq_redResult hty hok f empty s.here vs hl) _ _ _ _ _)
      (laneDone_writeV hq hk o.wide hlat d (fits_of_ok hd hok _ _ _))
  · have hzero : 0 < redLanes o := by rw [redLanes_eq]; exact Nat.two_pow_pos _
    rw [vred_scalar f empty hread htags hd, treeResult_eq_redResult hty hok f empty s.here vs hzero]
    exact scalarDone_later hq hk o.wide hlat d _

end Sys2Proof.Laws
end

section
/-! SUPPORT. Each part of the decoder (R71, R72) reads back the fields that the encoder writes, and what it reads passes the
checks of R69: the encoder's words decode to their instruction. -/

namespace Sys2Proof.Laws

open BitVec Sys2Proof.Machine

/-! ## Operand fields and codes read back -/

theorem loopFld_loopCtr (n : Fin 4) : (loopFld n).loopCtr = some n := by revert n; decide

theorem inRange_add {base count : Nat} (n : Fin count) : inRange (base + n.val) base count = some n := by
  rw [inRange, dif_pos (by omega)]
  simp

theorem ssrc12_fld {x : SSrc} (h : ∀ i, x ≠ .lit i) : x.fld.ssrc12 = some x := by
  cases x with
  | s n => exact ssrc_fld (.s n)
  | c n => exact ssrc_fld (.c n)
  | lit i => exact absurd rfl (h i)

theorem spr_num (r : Spr) : Spr.ofNum r.num = some r := by
  cases r
  case lc n | lbeg n | lend n | qst n | lkl n | afc n | rld n => revert n; decide
  all_goals rfl

/-- The low bits of a field whose high bits are zero (R68). -/
theorem low_zero_append (m : Nat) {k : Nat} (x : BitVec k) : (0#m ++ x).extractLsb' 0 k = x := by
  rw [extractLsb'_append_eq_of_add_le (by omega), extractLsb'_eq_self]

theorem high_zero_append {m k : Nat} (x : BitVec k) : (0#m ++ x).extractLsb' k m = 0#m := by
  rw [extractLsb'_append_eq_of_le (by omega), Nat.sub_self, extractLsb'_eq_self]

theorem ssrc_srcWrong (x : SSrc) : x.fld.srcWrong = false := by cases x <;> rfl

theorem vsrc_srcWrong (x : VSrc) : x.fld.srcWrong = false := by
  cases x with
  | v n | a n | q n => revert n; decide
  | sc x => exact ssrc_srcWrong x

theorem vdst_dstWrong (x : VDst) : x.fld.dstWrong = false := by
  cases x with
  | v n | a n | q n => revert n; decide

theorem rdst_dstWrong (x : RDst) : x.fld.dstWrong = false := by
  cases x with
  | lanes d => exact vdst_dstWrong d
  | s n => rfl

theorem aFld_srcWrong (n : Fin 64) : (aFld n).srcWrong = false := vsrc_srcWrong (.a n)
theorem aFld_dstWrong (n : Fin 64) : (aFld n).dstWrong = false := vdst_dstWrong (.a n)

/-! ## Operands read back from their fields -/

theorem s1_of (n : Nat) (x : S1) : (x.of n).s1 = some x := by
  simp [S1.of, OFields.of, OFields.s1, OFields.noLanes, need, sty_code, sFld_sdst, ssrc_fld, fld_zero]

theorem s2_of (n : Nat) (x : S2) : (x.of n).s2 = some x := by
  simp [S2.of, OFields.of, OFields.s2, OFields.noLanes, need, sty_code, sFld_sdst, ssrc_fld, fld_zero]

theorem s3_of (n : Nat) (x : S3) : (x.of n).s3 = some x := by
  simp [S3.of, OFields.of, OFields.s3, OFields.noLanes, need, sty_code, sFld_sdst, ssrc_fld]

theorem v1_of (n : Nat) (x : V1) : (x.of n).v1 = some x := by
  simp [V1.of, OFields.of, OFields.v1, lty_code, vsrc_fld, vdst_fld, fld_zero]

theorem v2_of (n : Nat) (x : V2) : (x.of n).v2 = some x := by
  simp [V2.of, OFields.of, OFields.v2, lty_code, vsrc_fld, vdst_fld, fld_zero]

theorem v3_of (n : Nat) (x : V3) : (x.of n).v3 = some x := by
  simp [V3.of, OFields.of, OFields.v3, lty_code, vsrc_fld, vdst_fld]

theorem vcmp_of (n : Nat) (x : VCmp) : (x.of n).vcmp = some x := by
  simp [VCmp.of, OFields.of, OFields.vcmp, lty_code, vsrc_fld, kFld_kmask, fld_zero]

theorem vred_of (n : Nat) (x : VRed) : (x.of n).vred = some x := by
  simp [VRed.of, OFields.of, OFields.vred, lty_code, vsrc_fld, rdst_fld, litFld_lit, fld_zero]

theorem k3_of (n : Nat) (d a b : Fin 8) : (OFields.of n .zero (kFld d) (kFld a) (kFld b) 0 false 0).k3 = some (d, a, b) := by
  simp [OFields.of, OFields.k3, OFields.noLanes, need, kFld_kmask, fld_zero]

theorem k2_of (n : Nat) (d a : Fin 8) : (OFields.of n .zero (kFld d) (kFld a) .zero 0 false 0).k2 = some (d, a) := by
  simp [OFields.of, OFields.k2, OFields.noLanes, need, kFld_kmask, fld_zero]

theorem mop_of (n : Nat) (x : MOp) : (x.of n).mop = some x := by
  simp [MOp.of, MFields.of, MFields.mop, gran_code, hint_code]

theorem pad_of (n : Nat) (x : PadOp) : (x.of n).pad = some x := by
  simp [PadOp.of, MFields.of, MFields.pad, need]

theorem cmd_of (n : Nat) (x : CCmd) : (x.of n).cmd = some x := by
  simp [CCmd.of, CFields.cmd, scope_code, order_code]

/-- An element type in the low four bits of fn, under bits that are zero there (R136, R137). -/
theorem elTy_low (sel : Nat) (hsel : sel = 0x10 ∨ sel = 0x20) (t : ElTy) :
    (BitVec.ofNat 8 (sel + t.code.toNat)).extractLsb' 0 4 = t.code := by
  obtain rfl | rfl := hsel <;> cases t <;> rfl

/-- I4 has neither scale nor block literal, the other element types have both (R136, R137). -/
theorem vpk_of {x : VPk} (hok : x.ok = true) {sel : Nat} (hsel : sel = 0x10 ∨ sel = 0x20) : (x.of sel).vpk = some x := by
  have hel := elTy_low sel hsel x.el
  obtain ⟨el, ty, mask, d, a, scale, blk⟩ := x
  cases scale with
  | none =>
    obtain ⟨rfl, rfl⟩ : el = .i4 ∧ blk = 0 := by
      cases el <;> simp_all [VPk.ok, VPk.ok.scaleOk]
    simp [VPk.of, OFields.of, OFields.vpk, need, hel, elTy_code, lty_code, vsrc_fld, vdst_fld, fld_zero]
  | some x =>
    have hne : el ≠ .i4 := by
      rintro rfl
      simp [VPk.ok] at hok
    simp [VPk.of, OFields.of, OFields.vpk, need, hel, hne, elTy_code, lty_code, vsrc_fld, vdst_fld, litFld_lit]

/-! ## The encoder names queues in their direction (R66) -/

theorem directed_s1 (n : Nat) (x : S1) : Directed (x.of n) := ⟨rfl, ssrc_srcWrong _, rfl, rfl⟩
theorem directed_s2 (n : Nat) (x : S2) : Directed (x.of n) := ⟨rfl, ssrc_srcWrong _, ssrc_srcWrong _, rfl⟩
theorem directed_s3 (n : Nat) (x : S3) : Directed (x.of n) := ⟨rfl, ssrc_srcWrong _, ssrc_srcWrong _, ssrc_srcWrong _⟩
theorem directed_v1 (n : Nat) (x : V1) : Directed (x.of n) := ⟨vdst_dstWrong _, vsrc_srcWrong _, rfl, rfl⟩
theorem directed_v2 (n : Nat) (x : V2) : Directed (x.of n) := ⟨vdst_dstWrong _, vsrc_srcWrong _, vsrc_srcWrong _, rfl⟩
theorem directed_v3 (n : Nat) (x : V3) : Directed (x.of n) :=
  ⟨vdst_dstWrong _, vsrc_srcWrong _, vsrc_srcWrong _, vsrc_srcWrong _⟩
theorem directed_vcmp (n : Nat) (x : VCmp) : Directed (x.of n) := ⟨rfl, rfl, vsrc_srcWrong _, vsrc_srcWrong _⟩
theorem directed_vred (n : Nat) (x : VRed) : Directed (x.of n) := ⟨rdst_dstWrong _, vsrc_srcWrong _, rfl, rfl⟩
theorem directed_vpk (n : Nat) (x : VPk) : Directed (x.of n) := by
  unfold VPk.of
  split
  · exact ⟨vdst_dstWrong _, vsrc_srcWrong _, vsrc_srcWrong _, rfl⟩
  · exact ⟨vdst_dstWrong _, vsrc_srcWrong _, rfl, rfl⟩

/-! ## What the decoder finds in a word -/

/-- Checks 4 and 5 of R69: fn is assigned, and no operand that the word uses has kind 00 where only EX has it. -/
structure Checked (reduced : Bool) (m : Nat) (w : Word) : Prop where
  assigned : fnAssigned m w reduced = true
  kinds : (usedKinds m w).any (· == 0) = false

/-- A first word in which the decoder finds a fetched instruction: its yp bit, its fields, and what checks 4, 5 and 7 look at. -/
structure Reads (q : Seq) (reduced : Bool) (w : Word) (f : Fetched) : Prop where
  yp : ypOf w = f.yp
  parsed : parse q (majorOf w).toNat w (encode f).2 = some f.instr
  checked : Checked reduced (majorOf w).toNat w
  directed : rawQueuesOk (majorOf w).toNat w = true

theorem decode_of_decodes {q : Seq} {addr w0 w1 : Word} {reduced : Bool} {f : Fetched} (h : Decodes q addr w0 w1 reduced f)
    (hk : (usedKinds (majorOf w0).toNat w0).any (· == 0) = false) : decode q addr w0 w1 reduced = .ok f := by
  have hwf : f.instr.wf = true := (Bool.and_eq_true_iff.1 h.wf).1
  obtain ⟨hfields, hqueues⟩ := Bool.and_eq_true_iff.1 hwf
  have hf : (⟨ypOf w0, f.instr⟩ : Fetched) = f := by rw [← h.yp]
  simp only [decode, ite_error_eq_ok, h.served, h.aligned, h.major, h.assigned, hk, h.parsed, hf, hfields, hqueues, h.wf, hwf,
    h.raw, h.queues, Bool.not_true, Bool.and_false, Bool.or_false, bne_self_eq_false, true_and]

theorem parse_bundle {q : Seq} {w0 w1 : Word} {i : Instr} (h : parse q 0x3E w0 w1 = some i) : ∃ tsm ss, i = .tb tsm ss := by
  obtain ⟨ss, -, rfl⟩ := Option.map_eq_some_iff.1 (show (slotsOf (rawSlots w0 w1)).map (.tb (bit56 w0)) = some i from h)
  exact ⟨_, ss, rfl⟩

theorem parse_splc {q : Seq} {w0 w1 : Word} {i : Instr} (h : parse q 0x29 w0 w1 = some i) : i = .splc := by
  have h29 : parse29 (oFields w0) = some i := (Option.ite_none_left_eq_some.1 h).2
  simp only [parse29, do_eq_some, return_eq_some] at h29
  obtain ⟨_, -, _, -, _, -, _, -, _, -, _, -, rfl⟩ := h29
  rfl

section
variable {q : Seq} {addr w : Word} {reduced : Bool} {f : Fetched}

/-- Checks 1 and 2 of R69 on what is encodable. -/
theorem served_and_aligned (hp : parse q (majorOf w).toNat w (encode f).2 = some f.instr) (hE : Encodable q addr reduced f) :
    (majorFmt (majorOf w).toNat == none || (reduced && reducedAway (majorOf w).toNat)) = false ∧
      ((majorOf w).toNat == 0x3E && addr.getLsbD 3) = false := by
  obtain ⟨-, -, -, hplace⟩ := hE
  have hfmt : (majorFmt (majorOf w).toNat == none) = false := by
    rw [beq_eq_false_iff_ne]
    intro hnone
    simp [parse, hnone] at hp
  rw [hfmt, Bool.false_or]
  by_cases h3E : (majorOf w).toNat = 0x3E
  · rw [h3E] at hp ⊢
    obtain ⟨tsm, ss, hi⟩ := parse_bundle hp
    rw [hi] at hplace
    obtain ⟨haddr, hfull⟩ := hplace
    rw [haddr, hfull]
    exact ⟨rfl, rfl⟩
  by_cases h29 : (majorOf w).toNat = 0x29
  · rw [h29] at hp ⊢
    rw [parse_splc hp] at hplace
    obtain rfl : reduced = false := hplace
    simp
  · simp [reducedAway, h3E, h29]

theorem Reads.decodes (h : Reads q reduced w f) (hE : Encodable q addr reduced f) : Decodes q addr w (encode f).2 reduced f := by
  have hmajor := (parse_readFrom rfl h.parsed h.checked.assigned h.directed).major
  obtain ⟨hserved, haligned⟩ := served_and_aligned h.parsed hE
  obtain ⟨hwf, -, hlegal, -⟩ := hE
  simp only [Instr.legalOn, hmajor, Bool.and_eq_true] at hlegal
  obtain ⟨⟨hon, hqueues⟩, -⟩ := hlegal
  exact ⟨hserved, haligned, hon, h.checked.assigned, h.yp.symm, h.parsed, hwf, h.directed, hqueues⟩

/-- Where the decoder finds the instruction in a word, that word is the encoder's, and decodes. -/
theorem Reads.decode (h : Reads q reduced w f) (hE : Encodable q addr reduced f) :
    decode q addr (encode f).1 (encode f).2 reduced = .ok f := by
  have hd := h.decodes hE
  have hw : (encode f).1 = w := by
    have hfirst := hd.readFrom.first
    rwa [h.yp] at hfirst
  rw [hw]
  exact decode_of_decodes hd h.checked.kinds

end

/-! ## Checks that a word passes once its fields are read (R69, R71) -/

theorem sdst_kind {f : Fld} {n : Fin 32} (h : f.sdst = some n) : f.k ≠ 0 := by
  rw [← sdst_eq h]
  exact (by decide : (1#2) ≠ 0)

theorem ssrc_fld_kind (x : SSrc) : x.fld.k ≠ 0 := by
  cases x
  · exact (by decide : (1#2) ≠ 0)
  · exact (by decide : (2#2) ≠ 0)
  · exact (by decide : (3#2) ≠ 0)

theorem ssrc_kind {f : Fld} {x : SSrc} (h : f.ssrc = some x) : f.k ≠ 0 := ssrc_eq h ▸ ssrc_fld_kind x
theorem ssrc12_kind {f : Fld} {x : SSrc} (h : f.ssrc12 = some x) : f.k ≠ 0 := ssrc12_eq h ▸ ssrc_fld_kind x

theorem lit_kind {f : Fld} {x : BitVec 8} (h : f.lit = some x) : f.k ≠ 0 := by
  rw [← lit_eq h]
  exact (by decide : (3#2) ≠ 0)

section
variable {o : OFields}

theorem s1_kinds {x : S1} (h : o.s1 = some x) : o.d.k ≠ 0 ∧ o.a.k ≠ 0 := by
  simp only [OFields.s1, do_eq_some] at h
  obtain ⟨_, -, _, -, _, -, _, -, _, hd, _, ha, -⟩ := h
  exact ⟨sdst_kind hd, ssrc_kind ha⟩

theorem s2_kinds {x : S2} (h : o.s2 = some x) : o.d.k ≠ 0 ∧ o.a.k ≠ 0 ∧ o.b.k ≠ 0 := by
  simp only [OFields.s2, do_eq_some] at h
  obtain ⟨_, -, _, -, _, -, _, hd, _, ha, _, hb, -⟩ := h
  exact ⟨sdst_kind hd, ssrc_kind ha, ssrc_kind hb⟩

theorem s3_kinds {x : S3} (h : o.s3 = some x) : o.d.k ≠ 0 ∧ o.a.k ≠ 0 ∧ o.b.k ≠ 0 ∧ o.c.k ≠ 0 := by
  simp only [OFields.s3, do_eq_some] at h
  obtain ⟨_, -, _, -, _, hd, _, ha, _, hb, _, hc, -⟩ := h
  exact ⟨sdst_kind hd, ssrc_kind ha, ssrc_kind hb, ssrc_kind hc⟩

end

section
variable {w : Word} {i : Instr} {reduced : Bool}

theorem checked_parse01 (h : parse01 (oFields w) = some i) : Checked reduced 0x01 w := by
  suffices hs : (oFields w).fn.toNat ≤ 0x0F ∧ (usedKinds 0x01 w).any (· == 0) = false from ⟨by simp [fnAssigned, hs.1], hs.2⟩
  unfold parse01 at h
  split at h
  case h_13 hfn =>
    obtain ⟨x, hx, -⟩ := Option.map_eq_some_iff.1 h
    obtain ⟨hd, ha, hb, hc⟩ := s3_kinds hx
    exact ⟨by omega, by simpa [usedKinds, ← ofNat_of_toNat hfn] using ⟨hd, ha, hb, hc⟩⟩
  case h_14 hfn =>
    simp only [do_eq_some] at h
    obtain ⟨n, hn, c, -, x, hx, -⟩ := h
    obtain ⟨hd, ha, hb⟩ := s2_kinds hx
    exact ⟨by omega, by simpa [usedKinds, ← ofNat_of_toNat hfn] using ⟨hd, ha, hb, lit_kind hn⟩⟩
  case h_15 hfn | h_16 hfn =>
    obtain ⟨x, hx, -⟩ := Option.map_eq_some_iff.1 h
    obtain ⟨hd, ha⟩ := s1_kinds hx
    exact ⟨by omega, by simpa [usedKinds, ← ofNat_of_toNat hfn] using ⟨hd, ha⟩⟩
  case h_17 => cases h
  all_goals
    rename_i hfn
    obtain ⟨x, hx, -⟩ := Option.map_eq_some_iff.1 h
    obtain ⟨hd, ha, hb⟩ := s2_kinds hx
    exact ⟨by omega, by simpa [usedKinds, ← ofNat_of_toNat hfn] using ⟨hd, ha, hb⟩⟩

theorem checked_parse02 (h : parse02 (iFields w) = some i) : Checked reduced 0x02 w := by
  simp only [parse02, do_eq_some] at h
  obtain ⟨_, -, d, hd, h⟩ := h
  refine ⟨?_, by simpa [usedKinds] using sdst_kind hd⟩
  split at h
  case h_1 hfn | h_2 hfn => simp [fnAssigned, hfn]
  case h_3 => cases h

theorem checked_parse08 (h : parse08 (bFields w) = some i) : Checked reduced 0x08 w := by
  refine ⟨rfl, ?_⟩
  unfold parse08 at h
  split at h
  case isTrue hc => rw [show usedKinds 0x08 w = [] from if_pos hc, List.any_nil]
  case isFalse hc =>
    simp only [do_eq_some] at h
    obtain ⟨c, -, x, hx, z, hz, -⟩ := h
    rw [show usedKinds 0x08 w = [(bFields w).a.k, (bFields w).b.k] from if_neg hc]
    simpa using ⟨ssrc_kind hx, ssrc_kind hz⟩

theorem checked_09 : Checked reduced 0x09 w := ⟨rfl, rfl⟩

theorem checked_parse0A (h : parse0A (bFields w) = some i) : Checked reduced 0x0A w := by
  simp only [parse0A, do_eq_some] at h
  obtain ⟨_, -, _, -, d, hd, -⟩ := h
  exact ⟨rfl, by simpa [usedKinds] using sdst_kind hd⟩

theorem checked_parse0B (h : parse0B (iFields w) = some i) : Checked reduced 0x0B w := by
  unfold parse0B at h
  split at h <;> simp only [do_eq_some, reduceCtorEq] at h
  case h_1 hfn =>
    obtain ⟨d, hd, a, ha, -⟩ := h
    exact ⟨by simp [fnAssigned, hfn], by simpa [usedKinds, ← ofNat_of_toNat hfn] using ⟨sdst_kind hd, ssrc12_kind ha⟩⟩
  case h_2 hfn =>
    obtain ⟨_, -, _, -, a, ha, -⟩ := h
    exact ⟨by simp [fnAssigned, hfn], by simpa [usedKinds, ← ofNat_of_toNat hfn] using ssrc12_kind ha⟩
  case h_3 hfn =>
    obtain ⟨d, -, a, ha, -⟩ := h
    exact ⟨by simp [fnAssigned, hfn], by simpa [usedKinds, ← ofNat_of_toNat hfn] using ssrc_kind ha⟩
  case h_4 hfn => exact ⟨by simp [fnAssigned, hfn], by simp [usedKinds, ← ofNat_of_toNat hfn]⟩
  case h_5 hfn =>
    obtain ⟨_, -, _, -, a, ha, -⟩ := h
    exact ⟨by simp [fnAssigned, hfn], by simpa [usedKinds, ← ofNat_of_toNat hfn] using ssrc_kind ha⟩

theorem checked_parse0C (h : parse0C (iFields w) = some i) : Checked reduced 0x0C w := by
  unfold parse0C at h
  split at h <;> simp only [do_eq_some, reduceCtorEq] at h
  case h_1 hfn | h_2 hfn | h_3 hfn => exact ⟨by simp [fnAssigned, hfn], by simp [usedKinds, ← ofNat_of_toNat hfn]⟩
  case h_4 hfn =>
    obtain ⟨_, -, t, -, d, hd, -⟩ := h
    exact ⟨by simp [fnAssigned, hfn], by simpa [usedKinds, ← ofNat_of_toNat hfn] using sdst_kind hd⟩
  case h_5 hfn =>
    obtain ⟨_, -, _, -, a, ha, -⟩ := h
    exact ⟨by simp [fnAssigned, hfn], by simpa [usedKinds, ← ofNat_of_toNat hfn] using ssrc_kind ha⟩

theorem checked_parse0D (hfn : (iFields w).fn = 0) (h : parse0D (iFields w) = some i) : Checked reduced 0x0D w := by
  simp only [parse0D, do_eq_some, need_eq_some, Bool.and_eq_true, beq_iff_eq] at h
  obtain ⟨_, ⟨hk, -⟩, a, ha, -⟩ := h
  exact ⟨by simp [fnAssigned, hfn], by simpa [usedKinds, hk] using ssrc_kind ha⟩

theorem checked_parse38 (h : parse38 (iFields w) = some i) : Checked reduced 0x38 w := by
  simp only [parse38, do_eq_some] at h
  obtain ⟨_, -, _, -, h⟩ := h
  refine ⟨?_, rfl⟩
  split at h
  case h_1 hfn | h_2 hfn | h_3 hfn => simp [fnAssigned, hfn]
  case h_4 => cases h

theorem checked_parse39 (h : parse39 (iFields w) = some i) : Checked reduced 0x39 w := by
  simp only [parse39, do_eq_some] at h
  obtain ⟨n, hn, h⟩ := h
  split at h <;> simp only [do_eq_some, reduceCtorEq] at h
  case h_1 hfn | h_2 hfn =>
    exact ⟨by simp [fnAssigned, hfn], by simpa [usedKinds, ← ofNat_of_toNat hfn] using sdst_kind hn⟩
  case h_3 hfn =>
    obtain ⟨_, -, d, hd, -⟩ := h
    exact ⟨by simp [fnAssigned, hfn], by simpa [usedKinds, ← ofNat_of_toNat hfn] using ⟨sdst_kind hd, sdst_kind hn⟩⟩

theorem checked_parse3A (h : parse3A (iFields w) = some i) : Checked reduced 0x3A w := by
  simp only [parse3A, do_eq_some] at h
  obtain ⟨_, -, _, -, d, hd, h⟩ := h
  refine ⟨?_, by simpa [usedKinds] using sdst_kind hd⟩
  split at h
  case h_1 hfn | h_2 hfn => simp [fnAssigned, hfn]
  case h_3 => cases h

theorem checked_parse3C {q : Seq} (h : parse3C q (iFields w) = some i) : Checked reduced 0x3C w := by
  unfold parse3C at h
  split at h <;> simp only [do_eq_some, reduceCtorEq] at h
  case h_6 hfn =>
    obtain ⟨_, -, _, -, r, -, _, -, d, hd, -⟩ := h
    exact ⟨by simp [fnAssigned, hfn], by simpa [usedKinds, ← ofNat_of_toNat hfn] using sdst_kind hd⟩
  case h_7 hfn =>
    obtain ⟨_, -, _, -, r, -, _, -, a, ha, -⟩ := h
    exact ⟨by simp [fnAssigned, hfn], by simpa [usedKinds, ← ofNat_of_toNat hfn] using ssrc_kind ha⟩
  all_goals
    rename_i hfn
    exact ⟨by simp [fnAssigned, hfn], by simp [usedKinds, ← ofNat_of_toNat hfn]⟩

theorem checked_3D (hfn : (iFields w).fn = 0) : Checked reduced 0x3D w := ⟨by simp [fnAssigned, hfn], rfl⟩

/-! ### Access words, words on lanes, commands: no operand is refused for its kind here -/

theorem checked_parse10 (h : parse10 (mFields w) = some i) : Checked reduced 0x10 w := by
  refine ⟨?_, rfl⟩
  unfold parse10 at h
  split at h
  case h_9 => cases h
  all_goals rename_i hfn; simp [fnAssigned, hfn]

theorem checked_parse11 (h : parse11 (mFields w) = some i) : Checked reduced 0x11 w := by
  refine ⟨?_, rfl⟩
  unfold parse11 at h
  split at h
  case h_5 => cases h
  all_goals rename_i hfn; simp [fnAssigned, hfn]

theorem checked_parse12 (h : parse12 (mFields w) = some i) : Checked reduced 0x12 w := by
  refine ⟨?_, rfl⟩
  unfold parse12 at h
  split at h
  case h_6 => cases h
  all_goals rename_i hfn; simp [fnAssigned, hfn]

theorem checked_parse13 (h : parse13 (mFields w) = some i) : Checked reduced 0x13 w := by
  refine ⟨?_, rfl⟩
  unfold parse13 at h
  split at h
  case h_6 => cases h
  all_goals rename_i hfn; simp [fnAssigned, hfn]

theorem checked_parse19 (h : parse19 (oFields w) = some i) : Checked reduced 0x19 w := by
  refine ⟨?_, rfl⟩
  unfold parse19 at h
  split at h
  case h_10 => cases h
  all_goals rename_i hfn; simp [fnAssigned, hfn]

theorem checked_parse1C (h : parse1C (oFields w) = some i) : Checked reduced 0x1C w := by
  refine ⟨?_, rfl⟩
  unfold parse1C at h
  split at h
  case h_14 => cases h
  all_goals rename_i hfn; simp [fnAssigned, hfn]

theorem checked_parse1D (h : parse1D (oFields w) = some i) : Checked reduced 0x1D w := by
  refine ⟨?_, rfl⟩
  unfold parse1D at h
  split at h
  case h_7 => cases h
  all_goals rename_i hfn; simp [fnAssigned, hfn]

theorem checked_parse1F (h : parse1F (oFields w) = some i) : Checked reduced 0x1F w := by
  refine ⟨?_, rfl⟩
  unfold parse1F at h
  split at h
  case h_11 => cases h
  all_goals rename_i hfn; simp [fnAssigned, hfn]

theorem checked_parse20 (h : parse20 (oFields w) = some i) : Checked reduced 0x20 w := by
  refine ⟨?_, rfl⟩
  unfold parse20 at h
  split at h
  case h_5 => cases h
  all_goals rename_i hfn; simp [fnAssigned, hfn]

theorem checked_parse21 (h : parse21 (oFields w) = some i) : Checked reduced 0x21 w := by
  refine ⟨?_, rfl⟩
  unfold parse21 at h
  split at h
  case h_4 => cases h
  all_goals rename_i hfn; simp [fnAssigned, hfn]

theorem checked_parse28 (h : parse28 (oFields w) = some i) : Checked reduced 0x28 w := by
  refine ⟨?_, rfl⟩
  unfold parse28 at h
  split at h
  case h_4 => cases h
  all_goals rename_i hfn; simp [fnAssigned, hfn]

theorem checked_parse1B (h : parse1B (oFields w) = some i) : Checked reduced 0x1B w := by
  refine ⟨?_, rfl⟩
  have hlow := toNat_low 6 (oFields w).fn
  unfold parse1B at h
  split at h
  case h_4 => cases h
  all_goals rename_i hfn; simp only [fnAssigned, decide_eq_true_eq]; omega

theorem checked_29 (hfn : (oFields w).fn = 0) : Checked reduced 0x29 w := ⟨by simp [fnAssigned, hfn], rfl⟩

/-- A command's fn is assigned; that of CGEN not in reduced service (R413). -/
theorem checked_parseC {m : Nat} (h : parseC m (cFields w) = some i) (hgen : ∀ c, i = .cgen c → reduced = false) :
    Checked reduced m w := by
  simp only [parseC, do_eq_some, return_eq_some] at h
  obtain ⟨f, hf, c, -, rfl⟩ := h
  generalize hfn : (cFields w).fn.toNat = fn at hf
  have hx : (mFields w).fn.toNat = fn := hfn
  unfold cmdInstr at hf
  split at hf
  case h_33 => cases hf
  case h_25 =>
    cases hf
    exact ⟨by simp [fnAssigned, hx, hgen c rfl], rfl⟩
  all_goals exact ⟨by simp [fnAssigned, hx], rfl⟩

end

/-! ## Where the parts of the decoder answer, the decoder does -/

/-- Some word has the decoder find a fetched instruction in it. -/
def Readable (q : Seq) (reduced : Bool) (f : Fetched) : Prop := ∃ w, Reads q reduced w f

section
variable {q : Seq} {reduced : Bool} {y : Bool} {i : Instr}

theorem readable_o (k : BitVec 6) (o : OFields) (hp : ∀ w w1, bit56 w = false → oFields w = o → parse q k.toNat w w1 = some i)
    (hc : ∀ w, oFields w = o → Checked reduced k.toNat w) (hd : Directed o) : Readable q reduced ⟨y, i⟩ := by
  refine ⟨oWord k y o, ypOf_oWord _ _ _, ?_, ?_, ?_⟩ <;> rw [majorOf_oWord]
  · exact hp _ _ (bit56_oWord _ _ _) (oFields_oWord _ _ _)
  · exact hc _ (oFields_oWord _ _ _)
  · unfold rawQueuesOk
    split
    · simp [rawQueuesOk.q3, oFields_oWord, hd.d, hd.a, hd.b, hd.c]
    · rfl

theorem readable_i (k : BitVec 6) (o : IFields) (hf : majorFmt k.toNat = some .i)
    (hp : ∀ w w1, bit56 w = false → iFields w = o → parse q k.toNat w w1 = some i)
    (hc : ∀ w, iFields w = o → Checked reduced k.toNat w) : Readable q reduced ⟨y, i⟩ := by
  refine ⟨iWord k y o, ypOf_iWord _ _ _, ?_, ?_, ?_⟩ <;> rw [majorOf_iWord]
  · exact hp _ _ (bit56_iWord _ _ _) (iFields_iWord _ _ _)
  · exact hc _ (iFields_iWord _ _ _)
  · rw [rawQueuesOk, hf]

theorem readable_b (k : BitVec 6) (o : BFields) (hf : majorFmt k.toNat = some .b)
    (hp : ∀ w w1, bFields w = o → parse q k.toNat w w1 = some i)
    (hc : ∀ w, bFields w = o → Checked reduced k.toNat w) : Readable q reduced ⟨y, i⟩ := by
  refine ⟨bWord k y o, ypOf_bWord _ _ _, ?_, ?_, ?_⟩ <;> rw [majorOf_bWord]
  · exact hp _ _ (bFields_bWord _ _ _)
  · exact hc _ (bFields_bWord _ _ _)
  · rw [rawQueuesOk, hf]

theorem readable_m (k : BitVec 6) (o : MFields) (hf : majorFmt k.toNat = some .m)
    (hp : ∀ w w1, bit56 w = false → mFields w = o → parse q k.toNat w w1 = some i)
    (hc : ∀ w, mFields w = o → Checked reduced k.toNat w) : Readable q reduced ⟨y, i⟩ := by
  refine ⟨mWord k y o, ypOf_mWord _ _ _, ?_, ?_, ?_⟩ <;> rw [majorOf_mWord]
  · exact hp _ _ (bit56_mWord _ _ _) (mFields_mWord _ _ _)
  · exact hc _ (mFields_mWord _ _ _)
  · rw [rawQueuesOk, hf]

/-- A command (R62). -/
theorem readable_c (k : BitVec 6) {fn : Nat} {f : CCmd → Instr} {c : CCmd} (hf : majorFmt k.toNat = some .c)
    (hcmd : cmdInstr k.toNat (BitVec.ofNat 6 fn).toNat = some f) (hgen : ∀ c', f c = .cgen c' → reduced = false) :
    Readable q reduced ⟨y, f c⟩ := by
  have hp : parseC k.toNat (c.of fn) = some (f c) := by
    rw [parseC, show (c.of fn).fn.toNat = (BitVec.ofNat 6 fn).toNat from rfl, hcmd, cmd_of]
    rfl
  refine ⟨cWord k y (c.of fn), ypOf_cWord _ _ _, ?_, ?_, ?_⟩ <;> rw [majorOf_cWord]
  · simpa only [parse, hf, cFields_cWord] using hp
  · exact checked_parseC (by rw [cFields_cWord]; exact hp) hgen
  · rw [rawQueuesOk, hf]

theorem readable_01 (o : OFields) (h : parse01 o = some i) (hd : Directed o) : Readable q reduced ⟨y, i⟩ :=
  readable_o 0x01 o (fun w _ hb ho => by simp [parse, majorFmt, hb, ho, h]) (fun w ho => checked_parse01 (by rwa [ho])) hd

theorem readable_19 (o : OFields) (h : parse19 o = some i) (hd : Directed o) : Readable q reduced ⟨y, i⟩ :=
  readable_o 0x19 o (fun w _ hb ho => by simp [parse, majorFmt, hb, ho, h]) (fun w ho => checked_parse19 (by rwa [ho])) hd

theorem readable_1B (o : OFields) (h : parse1B o = some i) (hd : Directed o) : Readable q reduced ⟨y, i⟩ :=
  readable_o 0x1B o (fun w _ hb ho => by simp [parse, majorFmt, hb, ho, h]) (fun w ho => checked_parse1B (by rwa [ho])) hd

theorem readable_1C (o : OFields) (h : parse1C o = some i) (hd : Directed o) : Readable q reduced ⟨y, i⟩ :=
  readable_o 0x1C o (fun w _ hb ho => by simp [parse, majorFmt, hb, ho, h]) (fun w ho => checked_parse1C (by rwa [ho])) hd

theorem readable_1D (o : OFields) (h : parse1D o = some i) (hd : Directed o) : Readable q reduced ⟨y, i⟩ :=
  readable_o 0x1D o (fun w _ hb ho => by simp [parse, majorFmt, hb, ho, h]) (fun w ho => checked_parse1D (by rwa [ho])) hd

theorem readable_1F (o : OFields) (h : parse1F o = some i) (hd : Directed o) : Readable q reduced ⟨y, i⟩ :=
  readable_o 0x1F o (fun w _ hb ho => by simp [parse, majorFmt, hb, ho, h]) (fun w ho => checked_parse1F (by rwa [ho])) hd

theorem readable_20 (o : OFields) (h : parse20 o = some i) (hd : Directed o) : Readable q reduced ⟨y, i⟩ :=
  readable_o 0x20 o (fun w _ hb ho => by simp [parse, majorFmt, hb, ho, h]) (fun w ho => checked_parse20 (by rwa [ho])) hd

theorem readable_21 (o : OFields) (h : parse21 o = some i) (hd : Directed o) : Readable q reduced ⟨y, i⟩ :=
  readable_o 0x21 o (fun w _ hb ho => by simp [parse, majorFmt, hb, ho, h]) (fun w ho => checked_parse21 (by rwa [ho])) hd

theorem readable_28 (o : OFields) (h : parse28 o = some i) (hd : Directed o) : Readable q reduced ⟨y, i⟩ :=
  readable_o 0x28 o (fun w _ hb ho => by simp [parse, majorFmt, hb, ho, h]) (fun w ho => checked_parse28 (by rwa [ho])) hd

/-- The fn that R71 assigns in major 0x18. -/
def assigned18 (fn : BitVec 8) : Bool :=
  decide (fn.toNat ≤ 7) || fn.toNat == 0x80 || fn.toNat == 0x81 || fn.toNat == 0x82 || fn.toNat == 0x86 || fn.toNat == 0x87

/-- The fn that R71 assigns in major 0x1A. -/
def assigned1A (fn : BitVec 8) : Bool := decide (fn.toNat ≤ 6) || decide (fn.toNat % 64 ≤ 2)

/-- The fn that R71 assigns in major 0x1E; bits 5 and 4 choose the function (R132, R135-R137). -/
def assigned1E (fn : BitVec 8) : Bool := fn.toNat / 16 % 4 == 0 || decide (fn.toNat < 64)

theorem readable_18 (o : OFields) (h : parse18 o = some i) (hfn : assigned18 o.fn = true) (hd : Directed o) :
    Readable q reduced ⟨y, i⟩ :=
  readable_o 0x18 o (fun w _ hb ho => by simp [parse, majorFmt, hb, ho, h]) (fun w ho => ⟨by subst ho; exact hfn, rfl⟩) hd

theorem readable_1A (o : OFields) (h : parse1A o = some i) (hfn : assigned1A o.fn = true) (hd : Directed o) :
    Readable q reduced ⟨y, i⟩ :=
  readable_o 0x1A o (fun w _ hb ho => by simp [parse, majorFmt, hb, ho, h]) (fun w ho => ⟨by subst ho; exact hfn, rfl⟩) hd

theorem readable_1E (o : OFields) (h : parse1E o = some i) (hfn : assigned1E o.fn = true) (hd : Directed o) :
    Readable q reduced ⟨y, i⟩ :=
  readable_o 0x1E o (fun w _ hb ho => by simp [parse, majorFmt, hb, ho, h]) (fun w ho => ⟨by subst ho; exact hfn, rfl⟩) hd

theorem readable_02 (o : IFields) (h : parse02 o = some i) : Readable q reduced ⟨y, i⟩ :=
  readable_i 0x02 o rfl (fun w _ hb ho => by simp [parse, majorFmt, hb, ho, h]) (fun w ho => checked_parse02 (by rwa [ho]))

theorem readable_0B (o : IFields) (h : parse0B o = some i) : Readable q reduced ⟨y, i⟩ :=
  readable_i 0x0B o rfl (fun w _ hb ho => by simp [parse, majorFmt, hb, ho, h]) (fun w ho => checked_parse0B (by rwa [ho]))

theorem readable_0C (o : IFields) (h : parse0C o = some i) : Readable q reduced ⟨y, i⟩ :=
  readable_i 0x0C o rfl (fun w _ hb ho => by simp [parse, majorFmt, hb, ho, h]) (fun w ho => checked_parse0C (by rwa [ho]))

theorem readable_38 (o : IFields) (h : parse38 o = some i) : Readable q reduced ⟨y, i⟩ :=
  readable_i 0x38 o rfl (fun w _ hb ho => by simp [parse, majorFmt, hb, ho, h]) (fun w ho => checked_parse38 (by rwa [ho]))

theorem readable_39 (o : IFields) (h : parse39 o = some i) : Readable q reduced ⟨y, i⟩ :=
  readable_i 0x39 o rfl (fun w _ hb ho => by simp [parse, majorFmt, hb, ho, h]) (fun w ho => checked_parse39 (by rwa [ho]))

theorem readable_3A (o : IFields) (h : parse3A o = some i) : Readable q reduced ⟨y, i⟩ :=
  readable_i 0x3A o rfl (fun w _ hb ho => by simp [parse, majorFmt, hb, ho, h]) (fun w ho => checked_parse3A (by rwa [ho]))

theorem readable_3C (o : IFields) (h : parse3C q o = some i) : Readable q reduced ⟨y, i⟩ :=
  readable_i 0x3C o rfl (fun w _ hb ho => by simp [parse, majorFmt, hb, ho, h]) (fun w ho => checked_parse3C (by rwa [ho]))

theorem readable_08 (o : BFields) (h : parse08 o = some i) : Readable q reduced ⟨y, i⟩ :=
  readable_b 0x08 o rfl (fun w _ ho => by simp [parse, majorFmt, ho, h]) (fun w ho => checked_parse08 (by rwa [ho]))

theorem readable_0A (o : BFields) (h : parse0A o = some i) : Readable q reduced ⟨y, i⟩ :=
  readable_b 0x0A o rfl (fun w _ ho => by simp [parse, majorFmt, ho, h]) (fun w ho => checked_parse0A (by rwa [ho]))

theorem readable_10 (o : MFields) (h : parse10 o = some i) : Readable q reduced ⟨y, i⟩ :=
  readable_m 0x10 o rfl (fun w _ hb ho => by simp [parse, majorFmt, hb, ho, h]) (fun w ho => checked_parse10 (by rwa [ho]))

theorem readable_11 (o : MFields) (h : parse11 o = some i) : Readable q reduced ⟨y, i⟩ :=
  readable_m 0x11 o rfl (fun w _ hb ho => by simp [parse, majorFmt, hb, ho, h]) (fun w ho => checked_parse11 (by rwa [ho]))

theorem readable_12 (o : MFields) (h : parse12 o = some i) : Readable q reduced ⟨y, i⟩ :=
  readable_m 0x12 o rfl (fun w _ hb ho => by simp [parse, majorFmt, hb, ho, h]) (fun w ho => checked_parse12 (by rwa [ho]))

theorem readable_13 (o : MFields) (h : parse13 o = some i) : Readable q reduced ⟨y, i⟩ :=
  readable_m 0x13 o rfl (fun w _ hb ho => by simp [parse, majorFmt, hb, ho, h]) (fun w ho => checked_parse13 (by rwa [ho]))

end

/-! ## Term bundles read back (R63, R64) -/

section
variable (op : BitVec 3) (d : Fin 64) (src : Fin 128) (imm : BitVec 8)

theorem slotWord_op : (slotWord op d src imm).extractLsb' 21 3 = op := by
  rw [slotWord]
  iterate 3 rw [extractLsb'_append_eq_of_le (by decide)]
  exact extractLsb'_eq_self

theorem slotWord_d : ((slotWord op d src imm).extractLsb' 15 6).toFin = d := by
  rw [slotWord]
  iterate 2 rw [extractLsb'_append_eq_of_le (by decide)]
  rw [extractLsb'_append_eq_of_add_le (by decide), extractLsb'_eq_self]
  simp

theorem slotWord_src : ((slotWord op d src imm).extractLsb' 8 7).toFin = src := by
  rw [slotWord, extractLsb'_append_eq_of_le (by decide), extractLsb'_append_eq_of_add_le (by decide), extractLsb'_eq_self]
  simp

theorem slotWord_imm : (slotWord op d src imm).extractLsb' 0 8 = imm := by
  rw [slotWord, extractLsb'_append_eq_of_add_le (by decide), extractLsb'_eq_self]

end

theorem tpair_imm_even (src : Fin 128) : (BitVec.ofNat 7 src.val ++ 0#1).getLsbD 0 = false := by
  rw [getLsbD_append, if_pos (by decide)]
  rfl

theorem tpair_imm_src (src : Fin 128) : ((BitVec.ofNat 7 src.val ++ 0#1).extractLsb' 1 7).toFin = src := by
  rw [extractLsb'_append_eq_of_le (by decide), extractLsb'_eq_self]
  simp

/-- A written slot of one place is read from its word, whatever stands after it. -/
theorem slotOf_words_single {s : Slot} {x : BitVec 24} (h : s.words = [x]) (next : Option (BitVec 24)) :
    slotOf x next = some (s, 1) := by
  cases s <;> simp only [Slot.words, List.cons.injEq, and_true, reduceCtorEq, and_false] at h <;> subst h
  case nop => rfl
  all_goals simp only [slotOf, slotWord_op, slotWord_d, slotWord_src, slotWord_imm, tpair_imm_even, tpair_imm_src]
  all_goals rfl

/-- A TSCL is read from its word and the continuation after it. -/
theorem slotOf_words_tscl {f p : Fin 64} {sc : BitVec 16} {x y : BitVec 24} (h : (Slot.tscl f p sc).words = [x, y]) :
    slotOf x (some y) = some (.tscl f p sc, 2) := by
  simp only [Slot.words, List.cons.injEq, and_true] at h
  obtain ⟨rfl, rfl⟩ := h
  have hop : (7#3 ++ sc.extractLsb' 8 8 ++ 0#5 ++ 0#8).extractLsb' 21 3 = 7#3 := by
    iterate 3 rw [extractLsb'_append_eq_of_le (by decide)]
    exact extractLsb'_eq_self
  have hhi : (7#3 ++ sc.extractLsb' 8 8 ++ 0#5 ++ 0#8).extractLsb' 13 8 = sc.extractLsb' 8 8 := by
    iterate 2 rw [extractLsb'_append_eq_of_le (by decide)]
    rw [extractLsb'_append_eq_of_add_le (by decide), extractLsb'_eq_self]
  have hmid : (7#3 ++ sc.extractLsb' 8 8 ++ 0#5 ++ 0#8).extractLsb' 8 5 = 0#5 := by
    rw [extractLsb'_append_eq_of_le (by decide), extractLsb'_append_eq_of_add_le (by decide), extractLsb'_eq_self]
  have hlow : (7#3 ++ sc.extractLsb' 8 8 ++ 0#5 ++ 0#8).extractLsb' 0 8 = 0#8 := by
    rw [extractLsb'_append_eq_of_add_le (by decide), extractLsb'_eq_self]
  have hsrc : inRange (⟨64 + p.val, by omega⟩ : Fin 128).val 64 64 = some p := by
    exact inRange_add p
  have hsc : sc.extractLsb' 8 8 ++ sc.extractLsb' 0 8 = sc :=
    (extractLsb'_append_extractLsb'_eq_extractLsb' rfl).trans extractLsb'_eq_self
  simp only [slotOf, slotWord_op, slotWord_d, slotWord_src, slotWord_imm, hop, hhi, hmid, hlow, hsrc, hsc]
  rfl

theorem words_single_or_tscl (s : Slot) : (∃ x, s.words = [x]) ∨ ∃ f p sc x y, s = .tscl f p sc ∧ s.words = [x, y] := by
  cases s
  case tscl f p sc => exact .inr ⟨f, p, sc, _, _, rfl, rfl⟩
  all_goals exact .inl ⟨_, rfl⟩

theorem slotsOf_flatMap_words (ss : List Slot) : slotsOf (ss.flatMap Slot.words) = some ss := by
  induction ss with
  | nil => rfl
  | cons s ss ih =>
    rw [List.flatMap_cons]
    obtain ⟨x, hx⟩ | ⟨f, p, sc, x, y, rfl, hxy⟩ := words_single_or_tscl s
    · rw [hx, List.singleton_append]
      cases hrest : ss.flatMap Slot.words with
      | nil =>
        rw [hrest] at ih
        obtain rfl := Option.some.inj ih
        rw [slotsOf, slotOf_words_single hx]
        rfl
      | cons z zs => rw [slotsOf, slotOf_words_single hx, ← hrest, ih]; rfl
    · rw [hxy, List.cons_append, List.singleton_append, slotsOf, slotOf_words_tscl hxy]
      simp [ih]

theorem length_words (s : Slot) : s.words.length = s.size := by cases s <;> rfl

/-- The slots of a well-formed bundle fill its five places (R63). -/
theorem five_words {ss : List Slot} (h : slotsOk ss = true) : ∃ x0 x1 x2 x3 x4, ss.flatMap Slot.words = [x0, x1, x2, x3, x4] := by
  have hlen : (ss.flatMap Slot.words).length = 5 := by
    rw [List.length_flatMap, funext length_words]
    exact eq_of_beq h
  match hw : ss.flatMap Slot.words, hlen with
  | [x0, x1, x2, x3, x4], _ => exact ⟨x0, x1, x2, x3, x4, rfl⟩

section
variable (y tsm : Bool) (x0 x1 x2 x3 x4 : BitVec 24)

/-- A bundle of five slots as one number (R63). -/
def bundle : BitVec 128 := 0x3E#6 ++ ofBool y ++ ofBool tsm ++ x0 ++ x1 ++ x2 ++ x3 ++ x4

theorem bundle_slots : [(bundle y tsm x0 x1 x2 x3 x4).extractLsb' 96 24, (bundle y tsm x0 x1 x2 x3 x4).extractLsb' 72 24,
    (bundle y tsm x0 x1 x2 x3 x4).extractLsb' 48 24, (bundle y tsm x0 x1 x2 x3 x4).extractLsb' 24 24,
    (bundle y tsm x0 x1 x2 x3 x4).extractLsb' 0 24] = [x0, x1, x2, x3, x4] := by
  simp only [bundle, List.cons.injEq, and_true]
  refine ⟨?_, ?_, ?_, ?_, ?_⟩ <;> repeat rw [extractLsb'_append_eq_of_le (by decide)]
  all_goals rw [extractLsb'_append_eq_of_add_le (by decide), extractLsb'_eq_self]

theorem ypOf_bundle : ypOf ((bundle y tsm x0 x1 x2 x3 x4).extractLsb' 64 64) = y := by
  rw [ypOf, getLsbD_extractLsb', bundle]
  iterate 6 rw [getLsbD_append, if_neg (by decide)]
  rw [getLsbD_append, if_pos (by decide)]
  cases y <;> rfl

theorem bit56_bundle : bit56 ((bundle y tsm x0 x1 x2 x3 x4).extractLsb' 64 64) = tsm := by
  rw [bit56, getLsbD_extractLsb', bundle]
  iterate 5 rw [getLsbD_append, if_neg (by decide)]
  rw [getLsbD_append, if_pos (by decide)]
  cases tsm <;> rfl

end

theorem readable_tb {q : Seq} {reduced y tsm : Bool} {ss : List Slot} (h : slotsOk ss = true) :
    Readable q reduced ⟨y, .tb tsm ss⟩ := by
  obtain ⟨x0, x1, x2, x3, x4, hw⟩ := five_words h
  have hmajor := majorOf_tbWords_of_five y tsm hw
  have hwords : tbWords y tsm ss =
      ((bundle y tsm x0 x1 x2 x3 x4).extractLsb' 64 64, (bundle y tsm x0 x1 x2 x3 x4).extractLsb' 0 64) := by
    rw [tbWords, hw]
    rfl
  have hjoin : (tbWords y tsm ss).1 ++ (tbWords y tsm ss).2 = bundle y tsm x0 x1 x2 x3 x4 := by
    rw [hwords, extractLsb'_append_extractLsb'_eq_extractLsb' (by rfl)]
    exact extractLsb'_eq_self
  have hslots : slotsOf (rawSlots (tbWords y tsm ss).1 (tbWords y tsm ss).2) = some ss := by
    rw [rawSlots, hjoin, bundle_slots, ← hw, slotsOf_flatMap_words]
  have htsm : bit56 (tbWords y tsm ss).1 = tsm := by rw [hwords, bit56_bundle]
  refine ⟨(tbWords y tsm ss).1, ?_, ?_, ?_, ?_⟩
  · rw [hwords, ypOf_bundle]
  · rw [hmajor]
    exact (congrArg (Option.map (Instr.tb _)) hslots).trans (by rw [htsm]; rfl)
  · rw [hmajor]
    exact ⟨rfl, rfl⟩
  · rw [hmajor]
    rfl

/-! ## Every instruction that is a word is read from its fields -/

theorem map_read {α : Type} {read : Option α} {x : α} (h : read = some x) (f : α → Instr) : read.map f = some (f x) := by
  rw [h]
  rfl

theorem tokImm_tokWord (t : Fin 16) (n : BitVec 6) : tokImm (tokWord t n) = some (t, n) := by
  have hhi : (tokWord t n).extractLsb' 20 12 = 0#12 := by
    rw [tokWord]
    iterate 3 rw [extractLsb'_append_eq_of_le (by decide)]
    exact extractLsb'_eq_self
  have hlo : (tokWord t n).extractLsb' 6 10 = 0#10 := by
    rw [tokWord, extractLsb'_append_eq_of_le (by decide), extractLsb'_append_eq_of_add_le (by decide), extractLsb'_eq_self]
  have ht : (tokWord t n).extractLsb' 16 4 = BitVec.ofNat 4 t.val := by
    rw [tokWord]
    iterate 2 rw [extractLsb'_append_eq_of_le (by decide)]
    rw [extractLsb'_append_eq_of_add_le (by decide), extractLsb'_eq_self]
  have hn : (tokWord t n).extractLsb' 0 6 = n := by
    rw [tokWord, extractLsb'_append_eq_of_add_le (by decide), extractLsb'_eq_self]
  simp [tokImm, need, hhi, hlo, ht, hn]

/-! ### Scalar and control words -/

theorem parse01_cmp (o : S2) (c : Cond) :
    parse01 { o.of 0x0D with c := litFld (BitVec.ofNat 8 c.code) } = some (.cmp o c) := by
  have hread : OFields.s2 { o.of 0x0D with c := .zero } = some o := s2_of 0x0D o
  have hcond : Cond.ofCode (BitVec.ofNat 8 c.code).toNat = some c := by cases c <;> rfl
  exact do_eq_some.2 ⟨_, litFld_lit _, do_eq_some.2 ⟨_, hcond, do_eq_some.2 ⟨_, hread, rfl⟩⟩⟩

theorem parse08_bc (c : BCond) (disp : BitVec 32) :
    parse08 (match c with
      | .al => ⟨0, .zero, .zero, disp⟩
      | .cmp c a b => ⟨BitVec.ofNat 5 c.code, a.fld, b.fld, disp⟩) = some (.bc c disp) := by
  cases c with
  | al => simp [parse08, fld_zero]
  | cmp c a b => cases c <;> simp [parse08, Cond.code, Cond.ofCode, ssrc_fld]

theorem parse09_bq (t : Bool) (disp : BitVec 32) : parse09 ⟨0#4 ++ ofBool t, .zero, .zero, disp⟩ = some (.bq t disp) := by
  cases t <;> simp [parse09, need, fld_zero]

theorem parse0A_call (l : Fin 32) (disp : BitVec 32) : parse0A ⟨0, sFld l, .zero, disp⟩ = some (.call l disp) := by
  simp [parse0A, need, sFld_sdst, fld_zero]

theorem parse0B_loopi (n : Fin 4) (c e : BitVec 16) : parse0B (.of 3 (loopFld n) .zero (c ++ e)) = some (.loopi n c e) := by
  have hc : (c ++ e).extractLsb' 16 16 = c := by rw [extractLsb'_append_eq_of_le (by decide), extractLsb'_eq_self]
  have he : (c ++ e).extractLsb' 0 16 = e := by rw [extractLsb'_append_eq_of_add_le (by decide), extractLsb'_eq_self]
  simp [parse0B, IFields.of, loopFld_loopCtr, fld_zero, hc, he]

theorem parse0C_bqp (src : SSrc) (n : Fin 4) :
    parse0C (.of 4 .zero src.fld (BitVec.ofNat 32 n.val)) = some (.bqp src n) := by
  have hhi : (BitVec.ofNat 32 n.val).extractLsb' 2 30 = 0#30 := by revert n; decide
  have hlo : (BitVec.ofNat 32 n.val).extractLsb' 0 2 = BitVec.ofNat 2 n.val := by revert n; decide
  simp [parse0C, IFields.of, need, ssrc_fld, fld_zero, hhi, hlo]

/-! ### Access words -/

theorem parse10_trd (q : Fin 16) (t : Fin 4) (b : Fin 32) (r : BitVec 5) (rel : Bool) :
    parse10 (.of 6 (BitVec.ofNat 4 q.val) b 0 2 0 (0#24 ++ ofBool rel ++ BitVec.ofNat 2 t.val ++ r)) = some (.trd q t b r rel) := by
  have hhi : (0#24 ++ ofBool rel ++ BitVec.ofNat 2 t.val ++ r).extractLsb' 8 24 = 0#24 := by
    iterate 3 rw [extractLsb'_append_eq_of_le (by decide)]
    exact extractLsb'_eq_self
  have hrel : (0#24 ++ ofBool rel ++ BitVec.ofNat 2 t.val ++ r).getLsbD 7 = rel := by
    iterate 2 rw [getLsbD_append, if_neg (by decide)]
    rw [getLsbD_append, if_pos (by decide)]
    cases rel <;> rfl
  have ht : (0#24 ++ ofBool rel ++ BitVec.ofNat 2 t.val ++ r).extractLsb' 5 2 = BitVec.ofNat 2 t.val := by
    rw [extractLsb'_append_eq_of_le (by decide), extractLsb'_append_eq_of_add_le (by decide), extractLsb'_eq_self]
  have hr : (0#24 ++ ofBool rel ++ BitVec.ofNat 2 t.val ++ r).extractLsb' 0 5 = r := by
    rw [extractLsb'_append_eq_of_add_le (by decide), extractLsb'_eq_self]
  generalize 0#24 ++ ofBool rel ++ BitVec.ofNat 2 t.val ++ r = off at *
  simpa [parse10, MFields.of, need, hhi, ht, hr] using hrel

theorem parse11_tcut (hold : Bool) (b : Fin 8) (base : Fin 32) (sh : Fin 16) (off : BitVec 32) :
    parse11 (.of 0 (ofBool hold ++ BitVec.ofNat 3 b.val) base sh 2 0 off) = some (.tcut hold b base sh off) := by
  have hhold : (ofBool hold ++ BitVec.ofNat 3 b.val).getLsbD 3 = hold := by revert hold b; decide
  have hb : (ofBool hold ++ BitVec.ofNat 3 b.val).extractLsb' 0 3 = BitVec.ofNat 3 b.val := by revert hold b; decide
  generalize ofBool hold ++ BitVec.ofNat 3 b.val = x at *
  simpa [parse11, MFields.of, need, hb] using hhold

/-- An index below 8 in a field of four bits. -/
theorem ofNat4_bit3 (n : Fin 8) : (BitVec.ofNat 4 n.val).getLsbD 3 = false := by revert n; decide
theorem ofNat4_low3 (n : Fin 8) : (BitVec.ofNat 4 n.val).extractLsb' 0 3 = BitVec.ofNat 3 n.val := by revert n; decide

theorem parse11_tfol (b : Fin 8) (base : Fin 32) (sh : Fin 16) (ring : Fin 8) (off : BitVec 32) :
    parse11 (.of 1 (BitVec.ofNat 4 b.val) base sh 2 (BitVec.ofNat 3 ring.val) off) = some (.tfol b base sh ring off) := by
  have h3 := ofNat4_bit3 b
  have hlow := ofNat4_low3 b
  generalize BitVec.ofNat 4 b.val = x at *
  simp [parse11, MFields.of, need, -getLsbD_eq_getElem, h3, hlow]

theorem parse11_bget (d : Fin 32) (b : Fin 8) : parse11 (.of 2 (BitVec.ofNat 4 b.val) d 0 0 0 0) = some (.bget d b) := by
  have h3 := ofNat4_bit3 b
  have hlow := ofNat4_low3 b
  generalize BitVec.ofNat 4 b.val = x at *
  simp [parse11, MFields.of, need, -getLsbD_eq_getElem, h3, hlow]

theorem parse11_bset (b : Fin 8) (src : Fin 32) : parse11 (.of 3 (BitVec.ofNat 4 b.val) src 0 0 0 0) = some (.bset b src) := by
  have h3 := ofNat4_bit3 b
  have hlow := ofNat4_low3 b
  generalize BitVec.ofNat 4 b.val = x at *
  simp [parse11, MFields.of, need, -getLsbD_eq_getElem, h3, hlow]

theorem parse13_shset (sh : Fin 16) (k : Fin 8) (b : Fin 32) (off : BitVec 32) :
    parse13 (.of 1 (BitVec.ofNat 4 k.val) b sh 0 0 off) = some (.shset sh k b off) := by
  have h3 := ofNat4_bit3 k
  have hlow := ofNat4_low3 k
  generalize BitVec.ofNat 4 k.val = x at *
  simp [parse13, MFields.of, need, -getLsbD_eq_getElem, h3, hlow]

theorem parse13_shget (d : Fin 32) (sh : Fin 16) (k : Fin 8) :
    parse13 (.of 2 (BitVec.ofNat 4 k.val) d sh 0 0 0) = some (.shget d sh k) := by
  have h3 := ofNat4_bit3 k
  have hlow := ofNat4_low3 k
  generalize BitVec.ofNat 4 k.val = x at *
  simp [parse13, MFields.of, need, -getLsbD_eq_getElem, h3, hlow]

theorem parse13_shld_queue (sh q : Fin 16) (hq : q ≠ 0) :
    parse13 (.of 0 (BitVec.ofNat 4 q.val) 0 sh 0 0 0) = some (.shld sh (.queue q)) := by
  have hne : BitVec.ofNat 4 q.val ≠ 0#4 := by revert q; decide
  have hqq : (BitVec.ofNat 4 q.val).toFin = q := by simp
  generalize BitVec.ofNat 4 q.val = x at *
  simp [parse13, MFields.of, need, hne, hqq]

theorem parse13_smap (w : Fin 16) (b : Fin 32) (lsz : BitVec 5) (row : BitVec 11) (count : BitVec 16) :
    parse13 (.of 3 (BitVec.ofNat 4 w.val) b 0 (lsz.extractLsb' 3 2) (lsz.extractLsb' 0 3) (0#5 ++ row ++ count)) =
      some (.smap w b lsz row count) := by
  have hhi : (0#5 ++ row ++ count).extractLsb' 27 5 = 0#5 := by
    iterate 2 rw [extractLsb'_append_eq_of_le (by decide)]
    exact extractLsb'_eq_self
  have hrow : (0#5 ++ row ++ count).extractLsb' 16 11 = row := by
    rw [extractLsb'_append_eq_of_le (by decide), extractLsb'_append_eq_of_add_le (by decide), extractLsb'_eq_self]
  have hcount : (0#5 ++ row ++ count).extractLsb' 0 16 = count := by
    rw [extractLsb'_append_eq_of_add_le (by decide), extractLsb'_eq_self]
  have hlsz : lsz.extractLsb' 3 2 ++ lsz.extractLsb' 0 3 = lsz :=
    (extractLsb'_append_extractLsb'_eq_extractLsb' rfl).trans extractLsb'_eq_self
  generalize 0#5 ++ row ++ count = off at *
  simp [parse13, MFields.of, need, hhi, hrow, hcount, hlsz]

/-! ### Words on lanes -/

theorem v1_fn (n : Nat) (o : V1) : (o.of n).fn = BitVec.ofNat 8 n := rfl
theorem v2_fn (n : Nat) (o : V2) : (o.of n).fn = BitVec.ofNat 8 n := rfl
theorem v3_fn (n : Nat) (o : V3) : (o.of n).fn = BitVec.ofNat 8 n := rfl

theorem directed_withC {o : OFields} (h : Directed o) {c : Fld} (hc : c.srcWrong = false) : Directed { o with c := c } :=
  ⟨h.d, h.a, h.b, hc⟩

theorem directed_withB {o : OFields} (h : Directed o) {b : Fld} (hb : b.srcWrong = false) : Directed { o with b := b } :=
  ⟨h.d, h.a, hb, h.c⟩

theorem parse1D_vsel (o : V2) (k : Fin 8) : parse1D { o.of 0 with c := kFld k } = some (.vsel o k) :=
  do_eq_some.2 ⟨_, kFld_kmask k, do_eq_some.2 ⟨_, v2_of 0 o, rfl⟩⟩

theorem parse1D_vbcast (d : VDst) (ty : LTy) (m : Fin 8) (z : Bool) (f : BcastForm) :
    parse1D (match f with
      | .lane a j => .of 1 d.fld a.fld (litFld j) (litFld 0) m z ty.code
      | .index b st => .of 1 d.fld b.fld (litFld st) (litFld 1) m z ty.code) = some (.vbcast d ty m z f) := by
  cases f <;> simp [parse1D, OFields.of, vdst_fld, lty_code, litFld_lit, vsrc_fld, ssrc_fld]

theorem parse1D_vrot (o : V1) (n : SSrc) : parse1D { o.of 3 with b := n.fld } = some (.vrot o n) :=
  do_eq_some.2 ⟨_, ssrc_fld n, do_eq_some.2 ⟨_, v1_of 3 o, rfl⟩⟩

/-- fn of VCVT: SAT, RZ, 0, and the source type (R132). -/
theorem vcvt_fn (s z : Bool) (sty : LTy) :
    (BitVec.ofNat 8 (fnSatRz s z sty.code.toNat)).getLsbD 7 = s ∧ (BitVec.ofNat 8 (fnSatRz s z sty.code.toNat)).getLsbD 6 = z ∧
      ((BitVec.ofNat 8 (fnSatRz s z sty.code.toNat)).extractLsb' 4 2).toNat = 0 ∧
      (BitVec.ofNat 8 (fnSatRz s z sty.code.toNat)).extractLsb' 0 4 = sty.code := by
  cases sty <;> revert s z <;> decide

theorem parse1E_vcvt (s z : Bool) (sty : LTy) (o : V1) (p : BitVec 8) :
    parse1E { o.of (fnSatRz s z sty.code.toNat) with b := litFld p } = some (.vcvt s z sty o p) := by
  have hread := v1_of (fnSatRz s z sty.code.toNat) o
  obtain ⟨hs, hz, hsel, hty⟩ := vcvt_fn s z sty
  simp only [V1.of, OFields.of] at hread ⊢
  simp only [parse1E, hs, hz, hsel, hty]
  exact do_eq_some.2 ⟨_, litFld_lit p, do_eq_some.2 ⟨_, lty_code _, do_eq_some.2 ⟨_, hread, rfl⟩⟩⟩

theorem parse1E_vbsc (l : ScLay) (ty : LTy) (m : Fin 8) (d : VDst) (a : VSrc) :
    parse1E (.of (0x30 + l.code.toNat) d.fld a.fld .zero .zero m false ty.code) = some (.vbsc l ty m d a) := by
  cases l <;> simp [parse1E, OFields.of, ScLay.code, ScLay.ofCode, need, vdst_fld, vsrc_fld, lty_code, fld_zero]

theorem vpk_fn (sel : Nat) (o : VPk) : (o.of sel).fn = BitVec.ofNat 8 (sel + o.el.code.toNat) := by
  unfold VPk.of
  split <;> rfl

theorem parse1E_vpack {o : VPk} (hok : o.ok = true) : parse1E (o.of 0x10) = some (.vpack o) := by
  have hsel : ((BitVec.ofNat 8 (0x10 + o.el.code.toNat)).extractLsb' 4 2).toNat = 1 := by cases o.el <;> rfl
  rw [parse1E, vpk_fn, hsel]
  exact map_read (vpk_of hok (.inl rfl)) .vpack

theorem parse1E_vunpk {o : VPk} (hok : o.ok = true) : parse1E (o.of 0x20) = some (.vunpk o) := by
  have hsel : ((BitVec.ofNat 8 (0x20 + o.el.code.toNat)).extractLsb' 4 2).toNat = 2 := by cases o.el <;> rfl
  rw [parse1E, vpk_fn, hsel]
  exact map_read (vpk_of hok (.inr rfl)) .vunpk

theorem parse21_vbq (ty : LTy) (m : Fin 8) (a : VSrc) (n : Fin 4) (all : Bool) :
    parse21 (.of 1 .zero a.fld (litFld (BitVec.ofNat 8 n.val)) (litFld (if all then 1 else 0)) m false ty.code) =
      some (.vbq ty m a n all) := by
  have hn : inRange (BitVec.ofNat 8 n.val).toNat 0 4 = some n := by revert n; decide
  cases all <;> simp [parse21, OFields.of, need, litFld_lit, fld_zero, lty_code, vsrc_fld, -toNat_ofNat, hn]

theorem parse28_amov (o : V1) (p : BitVec 8) : parse28 { o.of 0 with b := litFld p } = some (.amov o p) :=
  do_eq_some.2 ⟨_, litFld_lit p, do_eq_some.2 ⟨_, v1_of 0 o, rfl⟩⟩

/-! ### Commands and system words -/

/-- The numbers of special registers have nine bits (R91). -/
theorem sprNum_field (r : Spr) :
    (BitVec.ofNat 32 r.num).extractLsb' 9 23 = 0#23 ∧ ((BitVec.ofNat 32 r.num).extractLsb' 0 9).toNat = r.num := by
  cases r
  case lc n | lbeg n | lend n | qst n | lkl n | afc n | rld n => revert n; decide
  all_goals exact ⟨rfl, rfl⟩

theorem parse3C_mfsr {q : Seq} {r : Spr} (hr : r.legalOn q = true) (d : Fin 32) :
    parse3C q (.of 5 (sFld d) .zero (BitVec.ofNat 32 r.num)) = some (.mfsr d r) := by
  obtain ⟨hhi, hnum⟩ := sprNum_field r
  generalize BitVec.ofNat 32 r.num = imm at *
  simp [parse3C, IFields.of, need, sFld_sdst, fld_zero, hhi, -extractLsb'_toNat, hnum, spr_num, hr]

theorem parse3C_mtsr {q : Seq} {r : Spr} (hr : r.legalOn q = true) (x : SSrc) :
    parse3C q (.of 6 .zero x.fld (BitVec.ofNat 32 r.num)) = some (.mtsr x r) := by
  obtain ⟨hhi, hnum⟩ := sprNum_field r
  generalize BitVec.ofNat 32 r.num = imm at *
  simp [parse3C, IFields.of, need, ssrc_fld, fld_zero, hhi, -extractLsb'_toNat, hnum, spr_num, hr]

theorem parse38_sync (l : Fin 8) : parse38 (.of 1 .zero .zero (BitVec.ofNat 32 l.val)) = some (.sync l) := by
  have hhi : (BitVec.ofNat 32 l.val).extractLsb' 3 29 = 0#29 := by revert l; decide
  have hlo : (BitVec.ofNat 32 l.val).extractLsb' 0 3 = BitVec.ofNat 3 l.val := by revert l; decide
  generalize BitVec.ofNat 32 l.val = imm at *
  simp [parse38, IFields.of, need, fld_zero, hhi, hlo]

theorem parse38_xfence (a b : Path) (s : Scope) :
    parse38 (.of 2 .zero .zero (0#20 ++ a.num ++ b.num ++ s.code)) = some (.xfence a b s) := by
  have hhi : (0#20 ++ a.num ++ b.num ++ s.code).extractLsb' 12 20 = 0#20 := by
    iterate 3 rw [extractLsb'_append_eq_of_le (by decide)]
    exact extractLsb'_eq_self
  have ha : (0#20 ++ a.num ++ b.num ++ s.code).extractLsb' 8 4 = a.num := by
    iterate 2 rw [extractLsb'_append_eq_of_le (by decide)]
    rw [extractLsb'_append_eq_of_add_le (by decide), extractLsb'_eq_self]
  have hb : (0#20 ++ a.num ++ b.num ++ s.code).extractLsb' 4 4 = b.num := by
    rw [extractLsb'_append_eq_of_le (by decide), extractLsb'_append_eq_of_add_le (by decide), extractLsb'_eq_self]
  have hs : (0#20 ++ a.num ++ b.num ++ s.code).extractLsb' 0 4 = s.code := by
    rw [extractLsb'_append_eq_of_add_le (by decide), extractLsb'_eq_self]
  generalize 0#20 ++ a.num ++ b.num ++ s.code = imm at *
  simp [parse38, IFields.of, need, fld_zero, hhi, ha, hb, hs, path_code, scope_code]

theorem parse39_hwait (d h : Fin 32) (p : Bool) :
    parse39 (.of 2 (sFld d) (sFld h) (0#31 ++ ofBool p)) = some (.hwait d h p) := by
  cases p <;> simp [parse39, IFields.of, need, sFld_sdst]

/-- The tag and the any bit of RPOP and RTRY (R211). -/
theorem replyImm_fields (tag : BitVec 5) (any : Bool) :
    (0#26 ++ ofBool any ++ tag).extractLsb' 6 26 = 0#26 ∧ (0#26 ++ ofBool any ++ tag).extractLsb' 0 5 = tag ∧
      (0#26 ++ ofBool any ++ tag).getLsbD 5 = any := by
  refine ⟨?_, ?_, ?_⟩
  · iterate 2 rw [extractLsb'_append_eq_of_le (by decide)]
    exact extractLsb'_eq_self
  · rw [extractLsb'_append_eq_of_add_le (by decide), extractLsb'_eq_self]
  · rw [getLsbD_append, if_neg (by decide), getLsbD_append, if_pos (by decide)]
    cases any <;> rfl

theorem parse3A_reply (d : Fin 32) (tag : BitVec 5) (any : Bool) :
    parse3A (.of 0 (sFld d) .zero (0#26 ++ ofBool any ++ tag)) = some (.rpop d tag any) ∧
      parse3A (.of 1 (sFld d) .zero (0#26 ++ ofBool any ++ tag)) = some (.rtry d tag any) := by
  obtain ⟨hhi, htag, hany⟩ := replyImm_fields tag any
  generalize 0#26 ++ ofBool any ++ tag = imm at *
  constructor
  · simpa [parse3A, IFields.of, need, sFld_sdst, fld_zero, hhi, htag] using hany
  · simpa [parse3A, IFields.of, need, sFld_sdst, fld_zero, hhi, htag] using hany

section
variable {q : Seq} {addr : Word} {reduced : Bool} {y : Bool}

theorem readable_09 (t : Bool) (disp : BitVec 32) : Readable q reduced ⟨y, .bq t disp⟩ :=
  readable_b 0x09 ⟨0#4 ++ ofBool t, .zero, .zero, disp⟩ rfl (fun w _ ho => by simp [parse, majorFmt, ho, parse09_bq t disp]) (fun _ _ => checked_09)

theorem assigned1A_fnSatRz : ∀ (s z : Bool) (n : Fin 3), assigned1A (BitVec.ofNat 8 (fnSatRz s z n)) = true := by decide

theorem assigned1E_fnSatRz (s z : Bool) (t : LTy) : assigned1E (BitVec.ofNat 8 (fnSatRz s z t.code.toNat)) = true := by
  cases t <;> revert s z <;> decide

theorem assigned1E_scLay (l : ScLay) : assigned1E (BitVec.ofNat 8 (48 + l.code.toNat)) = true := by
  cases l <;> decide

theorem readable_0D (c : Fin 256) (src : SSrc) : Readable q reduced ⟨y, .cbw c src⟩ := by
  have hp : parse0D (.of 0 ⟨2, BitVec.ofFin c⟩ src.fld 0) = some (.cbw c src) := by
    simp [parse0D, IFields.of, need, ssrc_fld]
  exact readable_i 0x0D (.of 0 ⟨2, BitVec.ofFin c⟩ src.fld 0) rfl (fun w _ hb ho => by simpa [parse, majorFmt, hb, ho] using hp)
    (fun w ho => checked_parse0D (by rw [ho]; rfl) (by rw [ho]; exact hp))

theorem readable_3D {n : BitVec 16} (hn : gviLenOk q n = true) : Readable q reduced ⟨y, .gvi n⟩ := by
  have hp : parse3D q (.of 0 .zero .zero (0#16 ++ n)) = some (.gvi n) := by
    simp [parse3D, IFields.of, need, fld_zero, high_zero_append n, low_zero_append 16 n, hn]
  exact readable_i 0x3D (.of 0 .zero .zero (0#16 ++ n)) rfl (fun w _ hb ho => by simp [parse, majorFmt, hb, ho, hp]) (fun w ho => checked_3D (by rw [ho]; rfl))

theorem readable_29 : Readable q reduced ⟨y, .splc⟩ :=
  readable_o 0x29 (.of 0 .zero .zero .zero .zero 0 false 0)
    (fun w _ hb ho => by simp [parse, majorFmt, hb, ho, parse29, OFields.of, OFields.noLanes, need, fld_zero])
    (fun w ho => checked_29 (by rw [ho]; rfl)) ⟨rfl, rfl, rfl, rfl⟩

theorem fieldsOk_of_encodable {f : Fetched} (hE : Encodable q addr reduced f) : f.instr.fieldsOk = true :=
  (Bool.and_eq_true_iff.1 (Bool.and_eq_true_iff.1 hE.1).1).1

theorem queuesOk_of_encodable {f : Fetched} (hE : Encodable q addr reduced f) : f.instr.queuesOk = true :=
  (Bool.and_eq_true_iff.1 (Bool.and_eq_true_iff.1 hE.1).1).2

theorem sprLegal_of_encodable {r : Spr} {i : Instr} (hE : Encodable q addr reduced ⟨y, i⟩)
    (hi : (∃ d, i = .mfsr d r) ∨ ∃ x, i = .mtsr x r) : r.legalOn q = true := by
  obtain ⟨-, -, hlegal, -⟩ := hE
  obtain ⟨d, rfl⟩ | ⟨x, rfl⟩ := hi
  · exact (Bool.and_eq_true_iff.1 hlegal).2
  · exact (Bool.and_eq_true_iff.1 hlegal).2

/-- The opcode map (R71) from the encoder's side: the fields that the encoder writes are read as the instruction they stand for. -/
theorem readable_of_encodable (i : Instr) (hE : Encodable q addr reduced ⟨y, i⟩) : Readable q reduced ⟨y, i⟩ := by
  cases i with
  | add o => exact readable_01 (o.of 0x00) (map_read (s2_of 0x00 o) .add) (directed_s2 0x00 o)
  | sub o => exact readable_01 (o.of 0x01) (map_read (s2_of 0x01 o) .sub) (directed_s2 0x01 o)
  | mul o => exact readable_01 (o.of 0x02) (map_read (s2_of 0x02 o) .mul) (directed_s2 0x02 o)
  | mulh o => exact readable_01 (o.of 0x03) (map_read (s2_of 0x03 o) .mulh) (directed_s2 0x03 o)
  | and o => exact readable_01 (o.of 0x04) (map_read (s2_of 0x04 o) .and) (directed_s2 0x04 o)
  | or o => exact readable_01 (o.of 0x05) (map_read (s2_of 0x05 o) .or) (directed_s2 0x05 o)
  | xor o => exact readable_01 (o.of 0x06) (map_read (s2_of 0x06 o) .xor) (directed_s2 0x06 o)
  | shl o => exact readable_01 (o.of 0x07) (map_read (s2_of 0x07 o) .shl) (directed_s2 0x07 o)
  | shr o => exact readable_01 (o.of 0x08) (map_read (s2_of 0x08 o) .shr) (directed_s2 0x08 o)
  | sra o => exact readable_01 (o.of 0x09) (map_read (s2_of 0x09 o) .sra) (directed_s2 0x09 o)
  | min o => exact readable_01 (o.of 0x0A) (map_read (s2_of 0x0A o) .min) (directed_s2 0x0A o)
  | max o => exact readable_01 (o.of 0x0B) (map_read (s2_of 0x0B o) .max) (directed_s2 0x0B o)
  | sel o => exact readable_01 (o.of 0x0C) (map_read (s3_of 0x0C o) .sel) (directed_s3 0x0C o)
  | popc o => exact readable_01 (o.of 0x0E) (map_read (s1_of 0x0E o) .popc) (directed_s1 0x0E o)
  | clz o => exact readable_01 (o.of 0x0F) (map_read (s1_of 0x0F o) .clz) (directed_s1 0x0F o)
  | vand o => exact readable_19 (o.of 0x00) (map_read (v2_of 0x00 o) .vand) (directed_v2 0x00 o)
  | vor o => exact readable_19 (o.of 0x01) (map_read (v2_of 0x01 o) .vor) (directed_v2 0x01 o)
  | vxor o => exact readable_19 (o.of 0x02) (map_read (v2_of 0x02 o) .vxor) (directed_v2 0x02 o)
  | vshl o => exact readable_19 (o.of 0x04) (map_read (v2_of 0x04 o) .vshl) (directed_v2 0x04 o)
  | vshlSat o => exact readable_19 (o.of 0x84) (map_read (v2_of 0x84 o) .vshlSat) (directed_v2 0x84 o)
  | vshr o => exact readable_19 (o.of 0x05) (map_read (v2_of 0x05 o) .vshr) (directed_v2 0x05 o)
  | vsra o => exact readable_19 (o.of 0x06) (map_read (v2_of 0x06 o) .vsra) (directed_v2 0x06 o)
  | vnot o => exact readable_19 (o.of 0x03) (map_read (v1_of 0x03 o) .vnot) (directed_v1 0x03 o)
  | vpopc o => exact readable_19 (o.of 0x07) (map_read (v1_of 0x07 o) .vpopc) (directed_v1 0x07 o)
  | vcmpEq o => exact readable_1C (o.of 0x00) (map_read (vcmp_of 0x00 o) .vcmpEq) (directed_vcmp 0x00 o)
  | vcmpNe o => exact readable_1C (o.of 0x01) (map_read (vcmp_of 0x01 o) .vcmpNe) (directed_vcmp 0x01 o)
  | vcmpLt o => exact readable_1C (o.of 0x02) (map_read (vcmp_of 0x02 o) .vcmpLt) (directed_vcmp 0x02 o)
  | vcmpLe o => exact readable_1C (o.of 0x03) (map_read (vcmp_of 0x03 o) .vcmpLe) (directed_vcmp 0x03 o)
  | vcmpGt o => exact readable_1C (o.of 0x04) (map_read (vcmp_of 0x04 o) .vcmpGt) (directed_vcmp 0x04 o)
  | vcmpGe o => exact readable_1C (o.of 0x05) (map_read (vcmp_of 0x05 o) .vcmpGe) (directed_vcmp 0x05 o)
  | vcmpUn o => exact readable_1C (o.of 0x06) (map_read (vcmp_of 0x06 o) .vcmpUn) (directed_vcmp 0x06 o)
  | vredAdd o => exact readable_1F (o.of 0x00) (map_read (vred_of 0x00 o) .vredAdd) (directed_vred 0x00 o)
  | vredMin o => exact readable_1F (o.of 0x01) (map_read (vred_of 0x01 o) .vredMin) (directed_vred 0x01 o)
  | vredMax o => exact readable_1F (o.of 0x02) (map_read (vred_of 0x02 o) .vredMax) (directed_vred 0x02 o)
  | vredAnd o => exact readable_1F (o.of 0x03) (map_read (vred_of 0x03 o) .vredAnd) (directed_vred 0x03 o)
  | vredOr o => exact readable_1F (o.of 0x04) (map_read (vred_of 0x04 o) .vredOr) (directed_vred 0x04 o)
  | vredXor o => exact readable_1F (o.of 0x05) (map_read (vred_of 0x05 o) .vredXor) (directed_vred 0x05 o)
  | vredFadd o => exact readable_1F (o.of 0x06) (map_read (vred_of 0x06 o) .vredFadd) (directed_vred 0x06 o)
  | vredFmin o => exact readable_1F (o.of 0x07) (map_read (vred_of 0x07 o) .vredFmin) (directed_vred 0x07 o)
  | vredFmax o => exact readable_1F (o.of 0x08) (map_read (vred_of 0x08 o) .vredFmax) (directed_vred 0x08 o)
  | vmaxi o => exact readable_1F (o.of 0x10) (map_read (vred_of 0x10 o) .vmaxi) (directed_vred 0x10 o)
  | vexp2 o => exact readable_20 (o.of 0) (map_read (v1_of 0 o) .vexp2) (directed_v1 0 o)
  | vlog2 o => exact readable_20 (o.of 1) (map_read (v1_of 1 o) .vlog2) (directed_v1 1 o)
  | vrcp o => exact readable_20 (o.of 2) (map_read (v1_of 2 o) .vrcp) (directed_v1 2 o)
  | vrsq o => exact readable_20 (o.of 3) (map_read (v1_of 3 o) .vrsq) (directed_v1 3 o)
  | vperm o => exact readable_1D (o.of 2) (map_read (v2_of 2 o) .vperm) (directed_v2 2 o)
  | vmov o => exact readable_1D (o.of 5) (map_read (v1_of 5 o) .vmov) (directed_v1 5 o)
  | vcls o => exact readable_21 (o.of 0) (map_read (v1_of 0 o) .vcls) (directed_v1 0 o)
  | ldr o => exact readable_10 (o.of 0) (map_read (mop_of 0 o) .ldr)
  | ldl o => exact readable_10 (o.of 1) (map_read (mop_of 1 o) .ldl)
  | lds o => exact readable_10 (o.of 2) (map_read (mop_of 2 o) .lds)
  | spr o => exact readable_10 (o.of 3) (map_read (pad_of 3 o) .spr)
  | str o => exact readable_12 (o.of 0) (map_read (mop_of 0 o) .str)
  | stl o => exact readable_12 (o.of 1) (map_read (mop_of 1 o) .stl)
  | strm o => exact readable_12 (o.of 4) (map_read (mop_of 4 o) .strm)
  | spw o => exact readable_12 (o.of 2) (map_read (pad_of 2 o) .spw)
  | snd o => exact readable_12 (o.of 3) (map_read (pad_of 3 o) .snd)
  | rcfg c => exact readable_c 0x2C (f := .rcfg) (fn := 0) rfl rfl nofun
  | tcfg c => exact readable_c 0x2C (f := .tcfg) (fn := 1) rfl rfl nofun
  | tgo c => exact readable_c 0x2C (f := .tgo) (fn := 2) rfl rfl nofun
  | twait c => exact readable_c 0x2C (f := .twait) (fn := 3) rfl rfl nofun
  | tstat c => exact readable_c 0x2C (f := .tstat) (fn := 4) rfl rfl nofun
  | tdisc c => exact readable_c 0x2C (f := .tdisc) (fn := 5) rfl rfl nofun
  | gather c => exact readable_c 0x30 (f := .gather) (fn := 0) rfl rfl nofun
  | scatter c => exact readable_c 0x30 (f := .scatter) (fn := 1) rfl rfl nofun
  | pool c => exact readable_c 0x30 (f := .pool) (fn := 2) rfl rfl nofun
  | copy c => exact readable_c 0x30 (f := .copy) (fn := 3) rfl rfl nofun
  | fill c => exact readable_c 0x30 (f := .fill) (fn := 4) rfl rfl nofun
  | aowAddi32 c => exact readable_c 0x31 (f := .aowAddi32) (fn := 0) rfl rfl nofun
  | aowAddi64 c => exact readable_c 0x31 (f := .aowAddi64) (fn := 1) rfl rfl nofun
  | aowAddf32 c => exact readable_c 0x31 (f := .aowAddf32) (fn := 2) rfl rfl nofun
  | aowMax c => exact readable_c 0x31 (f := .aowMax) (fn := 3) rfl rfl nofun
  | aowMin c => exact readable_c 0x31 (f := .aowMin) (fn := 4) rfl rfl nofun
  | aowAnd c => exact readable_c 0x31 (f := .aowAnd) (fn := 5) rfl rfl nofun
  | aowOr c => exact readable_c 0x31 (f := .aowOr) (fn := 6) rfl rfl nofun
  | aowXor c => exact readable_c 0x31 (f := .aowXor) (fn := 7) rfl rfl nofun
  | aowSwap c => exact readable_c 0x31 (f := .aowSwap) (fn := 8) rfl rfl nofun
  | selk c => exact readable_c 0x32 (f := .selk) (fn := 0) rfl rfl nofun
  | nbt c => exact readable_c 0x32 (f := .nbt) (fn := 1) rfl rfl nofun
  | coll c => exact readable_c 0x33 (f := .coll) (fn := 0) rfl rfl nofun
  | clock c => exact readable_c 0x34 (f := .clock) (fn := 1) rfl rfl nofun
  | cunlk c => exact readable_c 0x34 (f := .cunlk) (fn := 2) rfl rfl nofun
  | cpref c => exact readable_c 0x34 (f := .cpref) (fn := 3) rfl rfl nofun
  | cswap c => exact readable_c 0x34 (f := .cswap) (fn := 4) rfl rfl nofun
  | dflush c => exact readable_c 0x35 (f := .dflush) (fn := 0) rfl rfl nofun
  | lenq c => exact readable_c 0x35 (f := .lenq) (fn := 1) rfl rfl nofun
  | stgq c => exact readable_c 0x35 (f := .stgq) (fn := 2) rfl rfl nofun
  | cas c => exact readable_c 0x31 (f := .cas) (fn := 0x10) rfl rfl nofun
  | cgen c => exact readable_c 0x34 (f := .cgen) (fn := 0) rfl rfl fun _ _ => hE.2.2.2
  | cmp o c => exact readable_01 _ (parse01_cmp o c) (directed_withC (directed_s2 0x0D o) rfl)
  | li d imm => exact readable_02 (.of 0 (sFld d) .zero imm) (by simp [parse02, IFields.of, sFld_sdst, fld_zero])
  | lih d imm => exact readable_02 (.of 1 (sFld d) .zero imm) (by simp [parse02, IFields.of, sFld_sdst, fld_zero])
  | bc c disp => exact readable_08 _ (parse08_bc c disp)
  | bq t disp => exact readable_09 t disp
  | call l disp => exact readable_0A _ (parse0A_call l disp)
  | jr l b off =>
    have hb : ∀ x, b ≠ .lit x := by
      rintro x rfl
      exact Bool.noConfusion (fieldsOk_of_encodable hE)
    exact readable_0B (.of 0 (sFld l) b.fld off) (by simp [parse0B, IFields.of, sFld_sdst, ssrc12_fld hb])
  | ret b =>
    have hb : ∀ x, b ≠ .lit x := by
      rintro x rfl
      exact Bool.noConfusion (fieldsOk_of_encodable hE)
    exact readable_0B (.of 1 .zero b.fld 0) (by simp [parse0B, IFields.of, need, fld_zero, ssrc12_fld hb])
  | loop n src e => exact readable_0B (.of 2 (loopFld n) src.fld e) (by simp [parse0B, IFields.of, loopFld_loopCtr, ssrc_fld])
  | loopi n c e => exact readable_0B _ (parse0B_loopi n c e)
  | lexit src => exact readable_0B (.of 4 .zero src.fld 0) (by simp [parse0B, IFields.of, need, ssrc_fld, fld_zero])
  | nop => exact readable_0C (.of 0 .zero .zero 0) (by simp [parse0C, IFields.of, need, fld_zero])
  | toks t n => exact readable_0C (.of 1 .zero .zero (tokWord t n)) (by simp [parse0C, IFields.of, fld_zero, tokImm_tokWord])
  | tokw t n => exact readable_0C (.of 2 .zero .zero (tokWord t n)) (by simp [parse0C, IFields.of, fld_zero, tokImm_tokWord])
  | tokt d t n => exact readable_0C (.of 3 (sFld d) .zero (tokWord t n)) (by simp [parse0C, IFields.of, sFld_sdst, fld_zero, tokImm_tokWord])
  | bqp src n => exact readable_0C _ (parse0C_bqp src n)
  | cbw c src => exact readable_0D c src
  | mfsr d r => exact readable_3C _ (parse3C_mfsr (sprLegal_of_encodable hE (.inl ⟨d, rfl⟩)) d)
  | mtsr x r => exact readable_3C _ (parse3C_mtsr (sprLegal_of_encodable hE (.inr ⟨x, rfl⟩)) x)
  | ldt dl b sh h off => exact readable_10 (.of 4 (BitVec.ofNat 4 dl.val) b sh 2 h.code off) (by simp [parse10, MFields.of, need, hint_code])
  | pref b sh g h off => exact readable_10 (.of 5 0 b sh g.code h.code off) (by simp [parse10, MFields.of, need, gran_code, hint_code])
  | trd q t b r rel => exact readable_10 _ (parse10_trd q t b r rel)
  | drain d m off => exact readable_10 (.of 7 0 d 0 2 m.code off) (by simp [parse10, MFields.of, need, drainMode_code])
  | tcut hold b base sh off => exact readable_11 _ (parse11_tcut hold b base sh off)
  | tfol b base sh ring off => exact readable_11 _ (parse11_tfol b base sh ring off)
  | bget d b => exact readable_11 _ (parse11_bget d b)
  | bset b src => exact readable_11 _ (parse11_bset b src)
  | shld sh src =>
    cases src with
    | mem b off => exact readable_13 (.of 0 0 b sh 0 0 off) (by simp [parse13, MFields.of, need])
    | queue q =>
      refine readable_13 _ (parse13_shld_queue sh q ?_)
      rintro rfl
      exact Bool.noConfusion (queuesOk_of_encodable hE)
  | shset sh k b off => exact readable_13 _ (parse13_shset sh k b off)
  | shget d sh k => exact readable_13 _ (parse13_shget d sh k)
  | smap w b lsz row count => exact readable_13 _ (parse13_smap w b lsz row count)
  | sunmap w => exact readable_13 (.of 4 (BitVec.ofNat 4 w.val) 0 0 0 0 0) (by simp [parse13, MFields.of, need])
  | vadd s o =>
    exact readable_18 (o.of (fnSatRz s false 0))
      (by cases s <;> simp [parse18, v2_fn, v2_of, fnSatRz]) (by cases s <;> rfl) (directed_v2 _ o)
  | vsub s o =>
    exact readable_18 (o.of (fnSatRz s false 1))
      (by cases s <;> simp [parse18, v2_fn, v2_of, fnSatRz]) (by cases s <;> rfl) (directed_v2 _ o)
  | vmul s o =>
    exact readable_18 (o.of (fnSatRz s false 2))
      (by cases s <;> simp [parse18, v2_fn, v2_of, fnSatRz]) (by cases s <;> rfl) (directed_v2 _ o)
  | vmulh o => exact readable_18 (o.of 3) (by simp [parse18, v2_fn, v2_of]) rfl (directed_v2 _ o)
  | vmin o => exact readable_18 (o.of 4) (by simp [parse18, v2_fn, v2_of]) rfl (directed_v2 _ o)
  | vmax o => exact readable_18 (o.of 5) (by simp [parse18, v2_fn, v2_of]) rfl (directed_v2 _ o)
  | vabs s o =>
    exact readable_18 (o.of (fnSatRz s false 6))
      (by cases s <;> simp [parse18, v1_fn, v1_of, fnSatRz]) (by cases s <;> rfl) (directed_v1 _ o)
  | vneg s o =>
    exact readable_18 (o.of (fnSatRz s false 7))
      (by cases s <;> simp [parse18, v1_fn, v1_of, fnSatRz]) (by cases s <;> rfl) (directed_v1 _ o)
  | vfadd s z o =>
    exact readable_1A (o.of (fnSatRz s z 0))
      (by cases s <;> cases z <;> simp [parse1A, v2_fn, v2_of, fnSatRz]) (assigned1A_fnSatRz s z 0) (directed_v2 _ o)
  | vfsub s z o =>
    exact readable_1A (o.of (fnSatRz s z 1))
      (by cases s <;> cases z <;> simp [parse1A, v2_fn, v2_of, fnSatRz]) (assigned1A_fnSatRz s z 1) (directed_v2 _ o)
  | vfmul s z o =>
    exact readable_1A (o.of (fnSatRz s z 2))
      (by cases s <;> cases z <;> simp [parse1A, v2_fn, v2_of, fnSatRz]) (assigned1A_fnSatRz s z 2) (directed_v2 _ o)
  | vfmin o => exact readable_1A (o.of 3) (by simp [parse1A, v2_fn, v2_of]) rfl (directed_v2 _ o)
  | vfmax o => exact readable_1A (o.of 4) (by simp [parse1A, v2_fn, v2_of]) rfl (directed_v2 _ o)
  | vfabs o => exact readable_1A (o.of 5) (by simp [parse1A, v1_fn, v1_of]) rfl (directed_v1 _ o)
  | vfneg o => exact readable_1A (o.of 6) (by simp [parse1A, v1_fn, v1_of]) rfl (directed_v1 _ o)
  | vfma s z o =>
    exact readable_1B (o.of (fnSatRz s z 0))
      (by cases s <;> cases z <;> simp [parse1B, v3_fn, v3_of, fnSatRz]) (directed_v3 _ o)
  | vfms s z o =>
    exact readable_1B (o.of (fnSatRz s z 1))
      (by cases s <;> cases z <;> simp [parse1B, v3_fn, v3_of, fnSatRz]) (directed_v3 _ o)
  | vfnma s z o =>
    exact readable_1B (o.of (fnSatRz s z 2))
      (by cases s <;> cases z <;> simp [parse1B, v3_fn, v3_of, fnSatRz]) (directed_v3 _ o)
  | kand d a b =>
    exact readable_1C (.of 0x10 .zero (kFld d) (kFld a) (kFld b) 0 false 0)
      (map_read (k3_of 0x10 d a b) fun k => .kand k.1 k.2.1 k.2.2) ⟨rfl, rfl, rfl, rfl⟩
  | kor d a b =>
    exact readable_1C (.of 0x11 .zero (kFld d) (kFld a) (kFld b) 0 false 0)
      (map_read (k3_of 0x11 d a b) fun k => .kor k.1 k.2.1 k.2.2) ⟨rfl, rfl, rfl, rfl⟩
  | kxor d a b =>
    exact readable_1C (.of 0x12 .zero (kFld d) (kFld a) (kFld b) 0 false 0)
      (map_read (k3_of 0x12 d a b) fun k => .kxor k.1 k.2.1 k.2.2) ⟨rfl, rfl, rfl, rfl⟩
  | knot d a =>
    exact readable_1C (.of 0x13 .zero (kFld d) (kFld a) .zero 0 false 0)
      (map_read (k2_of 0x13 d a) fun k => .knot k.1 k.2) ⟨rfl, rfl, rfl, rfl⟩
  | kmov d a =>
    exact readable_1C (.of 0x14 .zero (kFld d) (kFld a) .zero 0 false 0)
      (map_read (k2_of 0x14 d a) fun k => .kmov k.1 k.2) ⟨rfl, rfl, rfl, rfl⟩
  | kpopc d a =>
    exact readable_1C (.of 0x15 (sFld d) (kFld a) .zero .zero 0 false 0)
      (by simp [parse1C, OFields.of, OFields.noLanes, need, sFld_sdst, kFld_kmask, fld_zero]) ⟨rfl, rfl, rfl, rfl⟩
  | vsel o k => exact readable_1D _ (parse1D_vsel o k) (directed_withC (directed_v2 0 o) rfl)
  | vbcast d ty m z f =>
    refine readable_1D _ (parse1D_vbcast d ty m z f) ?_
    cases f with
    | lane a j => exact ⟨vdst_dstWrong d, vsrc_srcWrong a, rfl, rfl⟩
    | index b st => exact ⟨vdst_dstWrong d, ssrc_srcWrong b, rfl, rfl⟩
  | vrot o n => exact readable_1D _ (parse1D_vrot o n) (directed_withB (directed_v1 3 o) (ssrc_srcWrong n))
  | vrmg d m z a b n =>
    exact readable_1D (.of 4 d.fld a.fld b.fld n.fld m z 2)
      (by simp [parse1D, OFields.of, need, vdst_fld, vsrc_fld, ssrc_fld])
      ⟨vdst_dstWrong d, vsrc_srcWrong a, vsrc_srcWrong b, ssrc_srcWrong n⟩
  | vcvt s z sty o p =>
    exact readable_1E _ (parse1E_vcvt s z sty o p)
      (assigned1E_fnSatRz s z sty) (directed_withB (directed_v1 _ o) rfl)
  | vpack o => exact readable_1E _ (parse1E_vpack (fieldsOk_of_encodable hE)) (by rw [vpk_fn]; cases o.el <;> rfl) (directed_vpk _ o)
  | vunpk o => exact readable_1E _ (parse1E_vunpk (fieldsOk_of_encodable hE)) (by rw [vpk_fn]; cases o.el <;> rfl) (directed_vpk _ o)
  | vbsc l ty m d a => exact readable_1E _ (parse1E_vbsc l ty m d a) (assigned1E_scLay l) ⟨vdst_dstWrong d, vsrc_srcWrong a, rfl, rfl⟩
  | vbq ty m a n all => exact readable_21 _ (parse21_vbq ty m a n all) ⟨rfl, vsrc_srcWrong a, rfl, rfl⟩
  | defer m st t a g =>
    exact readable_21 (.of 2 (sFld st) (aFld t) (aFld a) (aFld g) m false 0)
      (by simp [parse21, OFields.of, need, sFld_sdst, aFld_accum]) ⟨rfl, aFld_srcWrong t, aFld_srcWrong a, aFld_srcWrong g⟩
  | amov o p => exact readable_28 _ (parse28_amov o p) (directed_withB (directed_v1 0 o) rfl)
  | aclr m d =>
    exact readable_28 (.of 1 (aFld d) .zero .zero .zero m false 0)
      (by simp [parse28, OFields.of, need, aFld_accum, fld_zero]) ⟨aFld_dstWrong d, rfl, rfl, rfl⟩
  | acvt d ty m z a ctl =>
    exact readable_28 (.of 2 d.fld (aFld a) (litFld ctl) .zero m z ty.code)
      (by simp [parse28, OFields.of, vdst_fld, lty_code, aFld_accum, litFld_lit, fld_zero])
      ⟨vdst_dstWrong d, aFld_srcWrong a, rfl, rfl⟩
  | splc => exact readable_29
  | tb tsm ss => exact readable_tb (fieldsOk_of_encodable hE)
  | pend => exact readable_38 (.of 0 .zero .zero 0) (by simp [parse38, IFields.of, need, fld_zero])
  | sync l => exact readable_38 _ (parse38_sync l)
  | xfence a b s => exact readable_38 _ (parse38_xfence a b s)
  | hinit h n =>
    exact readable_39 (.of 0 .zero (sFld h) (0#16 ++ n))
      (by simp [parse39, IFields.of, need, sFld_sdst, fld_zero, high_zero_append n, low_zero_append 16 n])
  | harv h n =>
    exact readable_39 (.of 1 .zero (sFld h) (0#16 ++ n))
      (by simp [parse39, IFields.of, need, sFld_sdst, fld_zero, high_zero_append n, low_zero_append 16 n])
  | hwait d h p => exact readable_39 _ (parse39_hwait d h p)
  | rpop d tag any => exact readable_3A _ (parse3A_reply d tag any).1
  | rtry d tag any => exact readable_3A _ (parse3A_reply d tag any).2
  | trap n =>
    exact readable_3C (.of 0 .zero .zero (0#16 ++ n))
      (by simp [parse3C, IFields.of, need, fld_zero, high_zero_append n, low_zero_append 16 n])
  | sys n =>
    exact readable_3C (.of 1 .zero .zero (0#16 ++ n))
      (by simp [parse3C, IFields.of, need, fld_zero, high_zero_append n, low_zero_append 16 n])
  | eret => exact readable_3C (.of 2 .zero .zero 0) (by simp [parse3C, IFields.of, need, fld_zero])
  | yield => exact readable_3C (.of 3 .zero .zero 0) (by simp [parse3C, IFields.of, need, fld_zero])
  | halt => exact readable_3C (.of 4 .zero .zero 0) (by simp [parse3C, IFields.of, need, fld_zero])
  | gvi n => exact readable_3D hE.2.2.2
  | _ => exact absurd hE.2.1 Bool.false_ne_true

end

/-- Settles O3: in the encoder's word the decoder finds the instruction that was encoded, and the word passes every check. -/
theorem encodeThenDecode : Obligations.EncodeThenDecode := by
  unfold Obligations.EncodeThenDecode
  intro q addr reduced ⟨y, i⟩ hE
  obtain ⟨w, hw⟩ := readable_of_encodable i hE
  exact hw.decode hE

end Sys2Proof.Laws
end

section
/-! SUPPORT. Words that the manual works out decode, and what an instruction that waits leaves alone. -/

namespace Sys2Proof.Laws

open BitVec Sys2Proof.Machine

/-- Settles O1: the decoder run on each word. -/
theorem workedWordsDecode : Obligations.WorkedWordsDecode := by
  unfold Obligations.WorkedWordsDecode
  refine ⟨?_, ?_, ?_, ?_, ?_, ?_, ?_, ?_, ?_, ?_, ?_, ?_, ?_⟩ <;> decide

/-! ## Waiting (R66, R108-R110) -/

/-- A wait touches nothing but what the sequencer waits for. -/
theorem waits_block (s : State) (w : Wait) : Waits s (s.block w) w := by
  refine ⟨onlyCore_mod s fun k => k.onSeq s.cur.2 _, ?_, ?_, ?_⟩
  · rw [State.block, State.here_modMe]
    rfl
  · intro q hq
    rw [State.block, State.here_modMe, Core.seq_onSeq_ne _ _ _ _ hq]
  · rw [State.block, State.me_modMe]

theorem runs_waits {i : Instr} {s : State} {w : Wait} (h : exec i s = .next (s.block w)) : Runs i s fun u => Waits s u w :=
  ⟨_, h, waits_block s w⟩

/-- Settles O14: each of them answers the state with the wait alone. -/
theorem waitsLeaveAll : Obligations.WaitsLeaveAll := by
  unfold Obligations.WaitsLeaveAll
  refine ⟨?_, ?_, ?_, ?_, ?_, ?_⟩
  · intro t disp s hempty
    exact runs_waits (show execBq t disp s = _ by simp [execBq, hempty])
  · intro t n s hless hother
    exact runs_waits (show execTokw t n s = _ by rw [execTokw, if_pos hless, hother]; rfl)
  · intro t n s hover hother
    exact runs_waits (show execToks t n s = _ by rw [execToks, if_pos hover, hother]; rfl)
  · intro t n s hroom hheld
    have hwait : (!s.here.performed s.cur.2 || decide (63 < s.here.toks[t].toNat + n.toNat + s.here.heldTokens t)) = true := by
      simpa using hheld
    exact runs_waits (show execToks t n s = _ by rw [execToks, if_neg (by omega), if_pos hwait])
  · intro src n s
    refine ⟨fun hfly => ?_, fun hnone hfull hother => ?_⟩
    · exact runs_waits (show execBqp src n s = _ by rw [execBqp, if_pos hfly])
    · exact runs_waits (show execBqp src n s = _ by simp [execBqp, hnone, hfull, hother])
  · intro d tag any s hempty
    exact runs_waits (show execRpop d tag any s = _ by simp [execRpop, hempty])

end Sys2Proof.Laws
end

section
/-! SUPPORT. A scalar result on every sequencer (R90, R94, R95): CTL, LD and ST take it at once, EX when it lands. -/

namespace Sys2Proof.Laws

open BitVec Sys2Proof.Machine

/-! ## Completing on CTL, LD and ST -/

section
variable {s : State} (hne : s.cur.2 ≠ .ex)
include hne

/-- Issuing ends the wait, and CTL's replay log may grow (R378). -/
theorem here_issue_ne : ∃ chk, s.issue.here = { s.here.onSeq s.cur.2 fun q => { q with wait := .none } with chk := chk } := by
  rw [State.issue, State.here_mod, if_neg hne]
  split
  · unfold State.noteLog Core.logFull
    split <;> split <;> exact ⟨_, rfl⟩
  · exact ⟨_, rfl⟩

theorem here_retire_ne (n : Word) : ∃ chk, (s.retire n).here =
    { s.here.onSeq s.cur.2 fun q => { q.goto (q.pc + n) with wait := .none } with chk := chk } := by
  obtain ⟨chk, h⟩ := here_issue_ne (s := s.modMe fun q => q.goto (q.pc + n)) hne
  refine ⟨chk, ?_⟩
  rw [State.retire, h, State.here_modMe, State.modMe_cur]
  simp [Core.onSeq]

theorem core_retire_ne (n : Word) : ∃ seqs chk, (s.retire n).here = { s.here with seqs := seqs, chk := chk } := by
  obtain ⟨chk, h⟩ := here_retire_ne hne n
  exact ⟨_, chk, h⟩

theorem me_retire_ne (n : Word) : (s.retire n).me = { s.me.goto (s.me.pc + n) with wait := .none } := by
  obtain ⟨chk, h⟩ := here_retire_ne hne n
  have hseq := Core.seq_onSeq s.here s.cur.2 fun q => { q.goto (q.pc + n) with wait := .none }
  rwa [Core.seq, ← show (s.retire n).here.seqs = _ from congrArg Core.seqs h] at hseq

theorem others_retire_ne (n : Word) {q : Seq} (hq : q ≠ s.cur.2) : (s.retire n).here.seq q = s.here.seq q := by
  obtain ⟨chk, h⟩ := here_retire_ne hne n
  have hseq := Core.seq_onSeq_ne s.here s.cur.2 q (fun q => { q.goto (q.pc + n) with wait := .none }) hq
  rwa [Core.seq, ← show (s.retire n).here.seqs = _ from congrArg Core.seqs h] at hseq

end

/-- The end test does not look at the scalar registers (R105). -/
theorem endTest_regs (n : Nat) (q : SeqSt) (r : Vector Word 32) :
    SeqSt.endTest { q with regs := r } n = { q.endTest n with regs := r } := by
  induction n generalizing q with
  | zero => rfl
  | succ n ih =>
    simp only [SeqSt.endTest, show SeqSt.depth { q with regs := r } = q.depth from rfl,
      show SeqSt.top { q with regs := r } = q.top from rfl]
    split_ifs
    · rfl
    · rfl
    · rfl
    · exact ih (q.setLc q.top 0).popLoop

theorem goto_regs (q : SeqSt) (r : Vector Word 32) (a : Word) : SeqSt.goto { q with regs := r } a = { q.goto a with regs := r } :=
  endTest_regs 4 { q with pc := a } r

/-- What lands on EX changes no other sequencer. -/
theorem onlyLands_landAll (n : Nat) : ∀ (k : Core) (slot : Nat), OnlyLands k (k.landAll slot n) := by
  induction n with
  | zero => exact fun k _ => onlyLands_ex k _ _ _ _ _
  | succ n ih => exact fun k slot => ((onlyLands_ex k _ _ _ _ _).trans (onlyLands_foldl _ _)).trans (ih (k.landAt slot) _)

theorem seq_settle_ne (k : Core) {q : Seq} (hq : q ≠ .ex) : k.settle.seq q = k.seq q := (onlyLands_landAll _ k _).others q hq

/-! ## A scalar result -/

/-- An instruction has completed that writes one scalar register. -/
structure Scalar (s u : State) (d : Fin 32) (x : Word) : Prop where
  frame : Frame s u id
  passes : Passes s u
  writes : Writes s u d x

theorem mod_writeS_retire (s : State) (d : Fin 32) (x : Word) (lat : Nat) : ∃ g, (s.writeS d x lat).retire 8 = s.mod g := by
  rw [State.retire, State.issue, State.modMe, State.writeS, mod_mod, mod_mod]
  exact ⟨_, rfl⟩

/-- On EX the result lands `lat` slots later (R95). -/
theorem scalar_writeS_ex {s : State} (hq : s.cur.2 = .ex) (d : Fin 32) (x : Word) {lat : Nat} (hlat : 1 ≤ lat) :
    Scalar s ((s.writeS d x lat).retire 8) d x := by
  have hw : s.writeS d x lat = s.mod fun _ => (s.here.wideHold false s.clk).later lat (.s d x) := by
    simp [State.writeS, State.mod, State.onCore, State.here, State.core, Core.wideHold, hq]
  obtain ⟨⟨honly, hbytes, hothers, hseq⟩, hwrites, hpasses, hkept, -, hcore⟩ := scalarDone_later (k := s.here) hq rfl false hlat d x
  rw [hw]
  refine ⟨⟨honly, ?_, hothers, hseq, hkept, hbytes⟩, hpasses, hwrites⟩
  rw [hcore]
  rfl

/-- On CTL, LD and ST the register takes it at once (R94). -/
theorem scalar_writeS_ne {s : State} (hne : s.cur.2 ≠ .ex) (d : Fin 32) (x : Word) (lat : Nat) :
    Scalar s ((s.writeS d x lat).retire 8) d x := by
  have hw : (s.writeS d x lat).here = s.here.onSeq s.cur.2 fun q => q.setReg d x := by rw [State.writeS, State.here_mod, if_neg hne]
  have hwme : (s.writeS d x lat).me = { s.me with regs := (s.me.setReg d x).regs } := by
    rw [State.me, hw, State.writeS_cur, Core.seq_onSeq, setReg_frame]
    rfl
  obtain ⟨seqs, chk, hcore⟩ := core_retire_ne (s := s.writeS d x lat) hne 8
  have hme := me_retire_ne (s := s.writeS d x lat) hne 8
  have hothers : ∀ q, q ≠ s.cur.2 → ((s.writeS d x lat).retire 8).here.seq q = s.here.seq q := fun q hq => by
    rw [others_retire_ne (s := s.writeS d x lat) hne 8 hq, hw, Core.seq_onSeq_ne _ _ _ _ hq]
  obtain ⟨g, hmod⟩ := mod_writeS_retire s d x lat
  rw [hwme, goto_regs] at hme
  have hlanded : ∀ n, ((s.writeS d x lat).retire 8).landed n = (s.me.setReg d x).reg n := fun n => by
    rw [State.landed, State.retire_cur, State.writeS_cur, seq_settle_ne _ hne]
    change ((s.writeS d x lat).retire 8).me.reg n = _
    rw [hme]
    rfl
  refine ⟨⟨?_, ?_, hothers, ?_, ⟨fun _ => ?_, fun h => absurd h hne⟩, ?_⟩, ?_, fun _ => ⟨?_, fun n hn => ?_⟩⟩
  · rw [hmod]
    exact onlyCore_mod s g
  · rw [hcore, hw]
    rfl
  · unfold SeqFrame
    rw [hme, SeqSt.goto_frame]
  · rw [hcore, hw]
    rfl
  · rw [hmod]
    exact sameBytes_mod s g
  · unfold Passes Goes
    rw [hme]
    refine ⟨rfl, rfl, rfl, fun hno => ?_⟩
    rw [SeqSt.goto_of_depth_zero _ _ hno]
    exact ⟨rfl, rfl, rfl⟩
  · rw [hlanded, SeqSt.reg_setReg]
  · rw [hlanded, SeqSt.reg_setReg_ne _ _ _ _ hn]

theorem scalar_writeS (s : State) (d : Fin 32) (x : Word) {lat : Nat} (hlat : 1 ≤ lat) : Scalar s ((s.writeS d x lat).retire 8) d x := by
  by_cases hq : s.cur.2 = .ex
  · exact scalar_writeS_ex hq d x hlat
  · exact scalar_writeS_ne hq d x lat

/-! ## CMP, LI and LIH (R60, R99, R100) -/

theorem runs_scalar {i : Instr} {s : State} {d : Fin 32} {x : Word} {lat : Nat} (hlat : 1 ≤ lat)
    (h : exec i s = .next ((s.writeS d x lat).retire 8)) : Runs i s fun u => Scalar s u d x :=
  ⟨_, h, scalar_writeS s d x hlat⟩

theorem tyBits_eq_styWidth (t : STy) : tyBits t = styWidth t := by cases t <;> rfl

theorem tyNat_eq_styBits (t : STy) (x : Word) : tyNat t x = styBits t x := by rw [tyNat, styBits, tyBits_eq_styWidth]

theorem sval_toNat {w : Nat} (x : BitVec w) : sval w x.toNat = x.toInt := by
  rw [sval, BitVec.toInt_eq_toNat_cond]
  norm_cast

theorem tyInt_eq_sval (t : STy) (x : Word) : tyInt t x = sval (styWidth t) (styBits t x) := by
  have h64 : x.toNat % 2 ^ 64 = x.toNat := Nat.mod_eq_of_lt x.isLt
  cases t <;> simp only [tyInt, tyBits, styWidth, styBits, h64, ← sval_toNat, BitVec.toNat_setWidth] <;> rfl

/-- The conditions of R60 on the w bits of the sources. -/
theorem condHolds_iff (c : Cond) (t : STy) (x y : Word) :
    condHolds c (styWidth t) (styBits t x) (styBits t y) = true ↔ condTrue c (tyInt t x) (tyInt t y) (tyNat t x) (tyNat t y) := by
  simp only [tyNat_eq_styBits, tyInt_eq_sval]
  cases c <;> simp [condHolds, condTrue]

theorem styResult_one (t : STy) : styResult t 1 = 1 := by cases t <;> decide
theorem styResult_zero (t : STy) : styResult t 0 = 0 := by cases t <;> decide

theorem execCmp_eq (o : S2) (c : Cond) (s : State) : execCmp o c s = .next ((s.writeS o.dst
    (if condHolds c (styWidth o.ty) (styBits o.ty (s.src o.a)) (styBits o.ty (s.src o.b)) then 1 else 0) 1).retire 8) := by
  rw [execCmp, scalar2]
  split
  · rw [styResult_one]
  · rw [styResult_zero]

theorem append_low_half (imm : BitVec 32) (x : Word) :
    imm ++ x.extractLsb' 0 32 = BitVec.ofNat 64 (imm.toNat * 2 ^ 32 + x.toNat % 2 ^ 32) := by
  apply BitVec.eq_of_toNat_eq
  have himm := imm.isLt
  have hlow : x.toNat % 2 ^ 32 < 2 ^ 32 := Nat.mod_lt _ (by decide)
  have hfits : imm.toNat * 2 ^ 32 + x.toNat % 2 ^ 32 < 2 ^ 64 := by omega
  rw [toNat_append, BitVec.extractLsb'_toNat, Nat.shiftRight_zero, ← Nat.shiftLeft_add_eq_or_of_lt hlow, Nat.shiftLeft_eq,
    toNat_ofNat, Nat.mod_eq_of_lt hfits]

/-- Settles O8: each of them writes one scalar register; CMP's value is the condition, LIH's two halves. -/
theorem compareAndConstants : Obligations.CompareAndConstants := by
  unfold Obligations.CompareAndConstants
  refine ⟨fun o c s => ?_, fun d imm s => ?_, fun d imm s => ?_⟩
  · obtain ⟨u, hu, h⟩ := runs_scalar (i := .cmp o c) le_rfl (execCmp_eq o c s)
    refine ⟨u, hu, h.frame, h.passes, fun x hx => ?_⟩
    rw [← condHolds_iff] at hx
    obtain ⟨rfl, htrue⟩ | ⟨rfl, hfalse⟩ := hx
    · simpa [htrue] using h.writes
    · simpa [hfalse] using h.writes
  · obtain ⟨u, hu, h⟩ := runs_scalar (i := .li d imm) le_rfl (show execLi d imm s = _ from rfl)
    exact ⟨u, hu, h.frame, h.passes, h.writes⟩
  · obtain ⟨u, hu, h⟩ := runs_scalar (i := .lih d imm) le_rfl (show execLih d imm s = _ from rfl)
    rw [append_low_half] at h
    exact ⟨u, hu, h.frame, h.passes, h.writes⟩

end Sys2Proof.Laws
end

section
/-! SUPPORT. The integer, logic and shift instructions on lanes (R123, R124): their results on codes, and how an instruction of one
or two sources issues. -/

namespace Sys2Proof.Laws

open Sys2Proof.Machine

/-! ## Codes of integer lanes (R76, R114) -/

/-- What a lane code of an integer type is known to be: it fits the type's width. -/
def IsCode (t : LTy) (x : Nat) : Prop := t.isInt = true → x < 2 ^ t.width

theorem wrap_lt (w : Nat) (r : Int) : wrap w r < 2 ^ w := by
  have hpos : (0 : Int) < 2 ^ w := by positivity
  have hlt := Int.emod_lt_of_pos r hpos
  have hnonneg := Int.emod_nonneg r hpos.ne'
  rw [wrap, Int.toNat_lt hnonneg]
  exact_mod_cast hlt

theorem isCode_lane (v : VVal) (t : LTy) (l : Nat) : IsCode t (v.lane t l) := by
  intro hint
  cases v with
  | bits b tag => exact laneOf_lt _ _ _
  | word x => exact Nat.mod_lt _ (Nat.two_pow_pos _)
  | lit i =>
    have hnone : ltyFlt t = none := by revert hint; cases t <;> decide
    simp only [VVal.lane, litCode, hnone]
    exact wrap_lt _ _

theorem wrap_of_nat (w n : Nat) : wrap w (n : Int) = n % 2 ^ w := by
  rw [wrap]
  norm_cast

theorem wrap_add_pow (w : Nat) (r : Int) : wrap w (r - 2 ^ w) = wrap w r := by rw [wrap, wrap, Int.sub_emod_right]

/-- A code is the low bits of its number. -/
theorem wrap_laneNum {t : LTy} {x : Nat} (hx : x < 2 ^ t.width) : wrap t.width (laneNum t x) = x := by
  unfold laneNum
  split_ifs
  · rw [wrap_of_nat, Nat.mod_eq_of_lt hx]
  · rw [wrap_add_pow, wrap_of_nat, Nat.mod_eq_of_lt hx]
  · rw [wrap_of_nat, Nat.mod_eq_of_lt hx]

theorem wrap_min {t : LTy} {x y : Nat} (hx : x < 2 ^ t.width) (hy : y < 2 ^ t.width) :
    wrap t.width (min (laneNum t x) (laneNum t y)) = if laneNum t y < laneNum t x then y else x := by
  split_ifs with h
  · rw [min_eq_right h.le, wrap_laneNum hy]
  · rw [min_eq_left (not_lt.1 h), wrap_laneNum hx]

theorem wrap_max {t : LTy} {x y : Nat} (hx : x < 2 ^ t.width) (hy : y < 2 ^ t.width) :
    wrap t.width (max (laneNum t x) (laneNum t y)) = if laneNum t x < laneNum t y then y else x := by
  split_ifs with h
  · rw [max_eq_right h.le, wrap_laneNum hy]
  · rw [max_eq_left (not_lt.1 h), wrap_laneNum hx]

/-! ## Shifts and counts (R123, R124) -/

theorem shlLane_eq (w a n : Nat) : shlLane w a n = if w ≤ n then 0 else wrap w ((a : Int) * 2 ^ n) := by
  rw [shlLane, ← wrap_of_nat]
  norm_cast

theorem sval_div_pow {w a : Nat} (ha : a < 2 ^ w) : sval w a / (2 : Int) ^ w = if 2 * a < 2 ^ w then 0 else -1 := by
  have hlt : (a : Int) < 2 ^ w := by exact_mod_cast ha
  have hzero : (a : Int) / 2 ^ w = 0 := Int.ediv_eq_zero_of_lt (by positivity) hlt
  rw [sval]
  split
  · exact hzero
  · rw [Int.sub_ediv_of_dvd _ dvd_rfl, hzero, Int.ediv_self (by positivity)]
    rfl

theorem wrap_neg_one (w : Nat) : wrap w (-1) = 2 ^ w - 1 := by
  have hpos := Nat.two_pow_pos w
  have hcode : (-1 : Int) = ((2 ^ w - 1 : Nat) : Int) - 2 ^ w := by
    rw [Nat.cast_sub hpos]
    push_cast
    ring
  rw [hcode, wrap_add_pow, wrap_of_nat, Nat.mod_eq_of_lt (by omega)]

/-- A shift by w or more gives the sign alone. -/
theorem sraLane_eq {w a : Nat} (ha : a < 2 ^ w) (n : Nat) :
    sraLane w a n = if w ≤ n then (if 2 * a < 2 ^ w then 0 else 2 ^ w - 1) else wrap w (sval w a / 2 ^ n) := by
  rw [sraLane]
  split
  · rw [sval_div_pow ha]
    split
    · exact wrap_of_nat w 0
    · exact wrap_neg_one w
  · rfl

theorem laneNum_eq_zero {t : LTy} {a : Nat} (ha : a < 2 ^ t.width) : laneNum t a = 0 ↔ a = 0 := by
  have hlt : (a : Int) < 2 ^ t.width := by exact_mod_cast ha
  unfold laneNum
  split_ifs with hs hpos
  · omega
  · omega
  · omega

/-- 2^64 is beyond every integer type. -/
theorem satCode_large (t : LTy) : satCode t.width t.isSigned (2 ^ 64) =
    if t.isSigned then 2 ^ (t.width - 1) - 1 else 2 ^ t.width - 1 := by
  cases t <;> decide

theorem satCode_small {t : LTy} (hs : t.isSigned = true) : satCode t.width t.isSigned (-2 ^ 64) = 2 ^ (t.width - 1) := by
  revert hs
  cases t <;> decide

theorem shlSatLane_eq {t : LTy} {a : Nat} (ha : a < 2 ^ t.width) (n : Nat) : shlSatLane t a n =
    if t.width ≤ n then
      (if a = 0 then 0 else if laneNum t a < 0 then 2 ^ (t.width - 1)
        else if t.isSigned then 2 ^ (t.width - 1) - 1 else 2 ^ t.width - 1)
    else satCode t.width t.isSigned (laneNum t a * 2 ^ n) := by
  simp only [shlSatLane, laneVal, ival_eq_laneNum, laneNum_eq_zero ha]
  split_ifs with hw hzero hneg hs
  · rfl
  · refine satCode_small ?_
    by_contra hs
    simp [laneNum, hs] at hneg
    omega
  · rw [satCode_large, if_pos hs]
  · rw [satCode_large, if_neg hs]
  · rfl

theorem popCount_eq (x w : Nat) : popCount x w = (List.range w).countP fun b => x.testBit b := by
  induction w with
  | zero => rfl
  | succ w ih =>
    rw [popCount, ih, List.range_succ, List.countP_append, List.countP_singleton]
    congr 1
    rw [Nat.testBit_eq_decide_div_mod_eq, Nat.shiftRight_eq_div_pow]
    obtain h | h := Nat.mod_two_eq_zero_or_one (x / 2 ^ w) <;> simp [h]

/-! ## Instructions of one and two sources issue (R76, R115, R121) -/

/-- The lanes of a view fit in a register of the destination's kind (R115). -/
theorem fits_view {t : LTy} {ks : List Kind00} {d : VDst} (hd : d.k00 ∈ ks) (hok : wideOk t ks = true) (active : Nat → Bool)
    (mz : Bool) (res s1 : Nat → Nat) :
    Fits d (writeLanes t.width (viewLanes (wideOf ks) t) active mz res s1 (ltyTag t)) := by
  have hnarrow : d.k00 = .other → t.width * viewLanes (wideOf ks) t ≤ 2048 := by
    intro hother
    have hwide : wideOf ks = false := by
      by_contra hw
      simp only [wideOk, Bool.not_eq_false] at hok hw
      simp only [hw, Bool.not_true, Bool.false_or, Bool.and_eq_true, List.all_eq_true] at hok
      simpa [hother] using hok.1 _ hd
    rw [viewLanes, hwide]
    exact (width_mul_lanes t).le
  have hall : t.width * viewLanes (wideOf ks) t ≤ 8192 := by
    unfold viewLanes
    cases wideOf ks <;> cases t <;> decide
  cases d with
  | v n => exact hnarrow rfl
  | a n => exact hall
  | q n => exact hnarrow rfl

theorem one_le_viewLat (wide : Bool) {lat : Nat} (h : 1 ≤ lat) : 1 ≤ viewLat wide lat := by
  unfold viewLat
  split <;> omega

theorem length_readAll {k k' : Core} {xs : List VSrc} {vs : List VVal} (h : k.readAll xs = some (vs, k')) :
    vs.length = xs.length := by
  induction xs generalizing k vs with
  | nil => cases h; rfl
  | cons x xs ih =>
    rw [Core.readAll] at h
    split at h
    · cases h
    next v k₁ hv =>
      split at h
      · cases h
      next ws k₂ hvs =>
        cases h
        exact congrArg (· + 1) (ih hvs)

section
variable {s : State} {vs : List VVal} {k : Core} (hq : s.cur.2 = .ex) {lat : Nat} (hlat : 1 ≤ lat) {bits : Bool}
include hq hlat

/-- An instruction of one source completes with a result that agrees on codes. -/
theorem laneDone_lane1 {o : V1} {f g : Nat → Nat} (hok : o.wideOk = true) (hread : s.here.readAll [o.a] = some (vs, k))
    (htags : tagsOk (form1 o lat bits g).tag vs = true) (hroom : s.here.dstRoom o.dst = true)
    (hfg : ∀ x, IsCode o.ty x → f x = g x) :
    LaneDone s (lane1 o lat bits f s) k o.dst (form1 o lat bits g).lat ((form1 o lat bits g).out s.here vs) := by
  have hissue : lane1 o lat bits f s = (s.mod fun _ => (k.wideHold false s.clk).writeV s.clk o.dst (viewLat o.wide lat)
      (writeLanes o.ty.width (viewLanes o.wide o.ty) (s.here.mask o.mask).getLsbD o.mz
        (fun l => f ((nth vs 0).lane o.ty l)) ((nth vs 0).lane o.ty) (ltyTag o.ty))).retire 8 :=
    vecOp_issues hread (room_of_dstRoom hroom) htags
  obtain ⟨x, rfl⟩ : ∃ x, vs = [x] := List.length_eq_one_iff.1 (length_readAll hread)
  rw [hissue, funext fun l => hfg _ (isCode_lane (nth [x] 0) o.ty l)]
  exact laneDone_writeV hq (readAll_queues hread) false (one_le_viewLat _ hlat) o.dst (fits_view (by simp) hok _ _ _ _)

/-- An instruction of two sources completes with a result that agrees on codes. -/
theorem laneDone_lane2 {o : V2} {f g : Nat → Nat → Nat} (hok : o.wideOk = true) (hread : s.here.readAll [o.a, o.b] = some (vs, k))
    (htags : tagsOk (form2 o lat bits g).tag vs = true) (hroom : s.here.dstRoom o.dst = true)
    (hfg : ∀ x y, IsCode o.ty x → IsCode o.ty y → f x y = g x y) :
    LaneDone s (lane2 o lat bits f s) k o.dst (form2 o lat bits g).lat ((form2 o lat bits g).out s.here vs) := by
  have hissue : lane2 o lat bits f s = (s.mod fun _ => (k.wideHold false s.clk).writeV s.clk o.dst (viewLat o.wide lat)
      (writeLanes o.ty.width (viewLanes o.wide o.ty) (s.here.mask o.mask).getLsbD o.mz
        (fun l => f ((nth vs 0).lane o.ty l) ((nth vs 1).lane o.ty l)) ((nth vs 0).lane o.ty) (ltyTag o.ty))).retire 8 :=
    vecOp_issues hread (room_of_dstRoom hroom) htags
  obtain ⟨x, y, rfl⟩ : ∃ x y, vs = [x, y] := List.length_eq_two.1 (length_readAll hread)
  rw [hissue, funext fun l => hfg _ _ (isCode_lane (nth [x, y] 0) o.ty l) (isCode_lane (nth [x, y] 1) o.ty l)]
  exact laneDone_writeV hq (readAll_queues hread) false (one_le_viewLat _ hlat) o.dst (fits_view (by simp) hok _ _ _ _)

end

/-- Settles O21: each instruction is the lane form of its table row, with results that agree on codes. -/
theorem laneIntegers : Obligations.LaneIntegers := by
  unfold Obligations.LaneIntegers
  intro i op s vs k hi hq hwf hread htags hroom
  have hfields : i.fieldsOk = true := (Bool.and_eq_true_iff.1 hwf).1
  unfold laneInts at hi
  split at hi <;> simp only [Option.some.injEq, reduceCtorEq] at hi <;> subst hi
  case h_1 sat o | h_2 sat o | h_3 sat o =>
    obtain ⟨-, hok⟩ := Bool.and_eq_true_iff.1 hfields
    refine ⟨_, rfl, laneDone_lane2 hq (by decide) hok hread htags hroom fun x y _ _ => ?_⟩
    simp only [laneVal, ival_eq_laneNum]
    rfl
  case h_4 o =>
    obtain ⟨-, hok⟩ := Bool.and_eq_true_iff.1 hfields
    refine ⟨_, rfl, laneDone_lane2 hq (by decide) hok hread htags hroom fun x y _ _ => ?_⟩
    simp only [laneVal, ival_eq_laneNum]
  case h_5 o =>
    obtain ⟨hint, hok⟩ := Bool.and_eq_true_iff.1 hfields
    refine ⟨_, rfl, laneDone_lane2 hq le_rfl hok hread htags hroom fun x y hx hy => ?_⟩
    simp only [laneVal, ival_eq_laneNum, wrap_min (hx hint) (hy hint)]
  case h_6 o =>
    obtain ⟨hint, hok⟩ := Bool.and_eq_true_iff.1 hfields
    refine ⟨_, rfl, laneDone_lane2 hq le_rfl hok hread htags hroom fun x y hx hy => ?_⟩
    simp only [laneVal, ival_eq_laneNum, wrap_max (hx hint) (hy hint)]
  case h_7 sat o =>
    obtain ⟨-, hok⟩ := Bool.and_eq_true_iff.1 hfields
    refine ⟨_, rfl, laneDone_lane1 hq le_rfl hok hread htags hroom fun x _ => ?_⟩
    simp only [laneVal, ival_eq_laneNum, Int.natCast_natAbs]
    rfl
  case h_8 sat o =>
    obtain ⟨-, hok⟩ := Bool.and_eq_true_iff.1 hfields
    refine ⟨_, rfl, laneDone_lane1 hq le_rfl hok hread htags hroom fun x _ => ?_⟩
    simp only [laneVal, ival_eq_laneNum]
    rfl
  case h_9 o | h_10 o | h_11 o => exact ⟨_, rfl, laneDone_lane2 hq le_rfl hfields hread htags hroom fun _ _ _ _ => rfl⟩
  case h_12 o => exact ⟨_, rfl, laneDone_lane1 hq le_rfl hfields hread htags hroom fun _ _ => rfl⟩
  case h_13 o =>
    obtain ⟨-, hok⟩ := Bool.and_eq_true_iff.1 hfields
    exact ⟨_, rfl, laneDone_lane2 hq le_rfl hok hread htags hroom fun x n _ _ => shlLane_eq _ x n⟩
  case h_14 o =>
    obtain ⟨hint, hok⟩ := Bool.and_eq_true_iff.1 hfields
    exact ⟨_, rfl, laneDone_lane2 hq le_rfl hok hread htags hroom fun x n hx _ => shlSatLane_eq (hx hint) n⟩
  case h_15 o =>
    obtain ⟨-, hok⟩ := Bool.and_eq_true_iff.1 hfields
    refine ⟨_, rfl, laneDone_lane2 hq le_rfl hok hread htags hroom fun x n _ _ => ?_⟩
    rw [shrLane, Nat.shiftRight_eq_div_pow]
  case h_16 o =>
    obtain ⟨hint, hok⟩ := Bool.and_eq_true_iff.1 hfields
    exact ⟨_, rfl, laneDone_lane2 hq le_rfl hok hread htags hroom fun x n hx _ => sraLane_eq (hx hint) n⟩
  case h_17 o =>
    obtain ⟨-, hok⟩ := Bool.and_eq_true_iff.1 hfields
    exact ⟨_, rfl, laneDone_lane1 hq le_rfl hok hread htags hroom fun x _ => popCount_eq x _⟩

end Sys2Proof.Laws
end

section
/-! SUPPORT. When an instruction on lanes does not complete: it waits with nothing popped, traps on another layout, or finds EX
held (R66, R120, R121). -/

namespace Sys2Proof.Laws

open Sys2Proof.Machine

/-! ## EX issues one instruction per clk (R121) -/

theorem nextSlot_free (k : Core) : k.nextSlot.ex.free = k.ex.free := by rw [(onlyLands_nextSlot k).core]

theorem countSlot_free (k : Core) (yp : Bool) : (k.countSlot yp).ex.free = k.ex.free := by
  unfold Core.countSlot
  split <;> rfl

theorem passed_free (k : Core) (yp : Bool) (clk : Nat) : (passed k yp clk).ex.free = max k.ex.free (clk + 1) :=
  congrArg (max · (clk + 1)) (countSlot_free _ yp)

theorem issue_free {s : State} (hq : s.cur.2 = .ex) : s.issue.here.ex.free = max s.here.ex.free (s.clk + 1) := by
  rw [State.issue, State.here_mod, if_pos hq, nextSlot_free]
  exact congrArg (max · (s.clk + 1)) (countSlot_free _ _)

theorem writeV_free (k : Core) (clk : Nat) (d : VDst) (lat : Nat) (o : LaneOut) : (k.writeV clk d lat o).ex.free = k.ex.free := by
  cases d <;> rfl

theorem wideHold_free (k : Core) (wide : Bool) (clk : Nat) :
    (k.wideHold wide clk).ex.free = if wide then max k.ex.free (clk + 4) else k.ex.free := by
  cases wide <;> rfl

/-- A form of one source that holds EX where it is wide. -/
theorem free_lane1_slow {o : V1} {lat : Nat} {f : Nat → Nat} {s : State} {vs : List VVal} {k : Core} (hq : s.cur.2 = .ex)
    (hread : s.here.readAll [o.a] = some (vs, k)) (htags : tagsOk (some o.ty) vs = true) (hroom : s.here.dstRoom o.dst = true) :
    (lane1 o lat false f s (slow := true)).here.ex.free = max s.here.ex.free (s.clk + if o.wide then 4 else 1) := by
  have hk : k.ex.free = s.here.ex.free := by rw [readAll_queues hread]
  have hissue := vecOp_issues (out := fun k vs => (k.wideHold (true && o.wide) s.clk).writeV s.clk o.dst (viewLat o.wide lat)
      (writeLanes o.ty.width (viewLanes o.wide o.ty) (s.here.mask o.mask).getLsbD o.mz
        (fun l => f ((nth vs 0).lane o.ty l)) ((nth vs 0).lane o.ty) (ltyTag o.ty))) hread (room_of_dstRoom hroom) htags
  rw [show lane1 o lat false f s (slow := true) = _ from hissue, here_retire_ex hq, nextSlot_free, passed_free, writeV_free,
    wideHold_free, hk]
  cases o.wide
  · rfl
  · simp only [Bool.true_and, if_true]
    omega

/-- While EX is held nothing issues, and time passes. -/
theorem turn_of_held {s : State} (hq : s.cur.2 = .ex) (hheld : s.clk < s.here.ex.free) (hdiv : s.diverts s.cur.1 = false) :
    s.turn = (s, none) := by
  have hex : s.exHeld = true := by simp [State.exHeld, hq, hheld]
  simp [State.turn, hq, hdiv, hex]

theorem step_of_held {s : State} (hq : s.cur.2 = .ex) (hheld : s.clk < s.here.ex.free) (hagenda : s.agenda = []) :
    step s = .next (s.elapse 1) := by
  have hex : s.exHeld = true := by simp [State.exHeld, hq, hheld]
  simp [step, hagenda, hex]

/-! ## An execution trap of EX (R96, R348, R352) -/

theorem onlyLands_settle (k : Core) : OnlyLands k k.settle := onlyLands_landAll _ k _

theorem execTrap_ex {s : State} (hq : s.cur.2 = .ex) (hin : s.me.inTrap = false) (c : Cause) :
    s.execTrap c = s.mod fun k => k.settle.onSeq .ex fun q => q.enterTrap c s.me.pc 0 := by
  have hst : ((s.core s.cur.1).seq .ex).inTrap = false := by rwa [State.me, hq] at hin
  simp only [State.execTrap, State.takeTrap, State.trapAt, hq, hst, if_true, reduceCtorEq, if_false, Bool.false_eq_true]
  exact mod_mod s _ _

theorem traps_execTrap_ex {s : State} (hq : s.cur.2 = .ex) (hin : s.me.inTrap = false) (c : Cause) :
    Traps s (s.execTrap c) c s.me.pc 0 := by
  have hlands := onlyLands_settle s.here
  have hhere : (s.execTrap c).here = s.here.settle.onSeq .ex fun q => q.enterTrap c s.me.pc 0 := by
    rw [execTrap_ex hq hin, State.here_mod]
  have hme : (s.execTrap c).me = (s.here.settle.seq .ex).enterTrap c s.me.pc 0 := by
    rw [State.me, hhere, execTrap_ex hq hin, State.mod_cur, hq, Core.seq_onSeq]
  have hregs : (s.execTrap c).me.regs = (s.here.settle.seq .ex).regs := by rw [hme, SeqSt.enterTrap_regs]
  refine ⟨?_, fun q hne => ?_, ?_, ?_, ?_, fun hne => absurd hq hne, fun _ => ⟨hregs, ?_⟩⟩
  · rw [execTrap_ex hq hin]
    exact onlyCore_mod _ _
  · rw [hq] at hne
    rw [hhere, Core.seq_onSeq_ne _ _ _ _ hne, hlands.others q hne]
  · rw [execTrap_ex hq hin]
    exact sameBytes_mod _ _
  · rw [hhere, Core.onSeq, hlands.core]
  · rw [hregs, hme, SeqSt.enterTrap_goto, hlands.mine, State.me, hq]
    rfl
  · rw [hhere, Core.onSeq_ex]

/-! ## Waiting and trapping (R66, R120) -/

section
variable {srcs : List VSrc} {t : Option LTy} {d : VDst} {out : Core → List VVal → Core} {s : State}

theorem vecOp_of_empty (h : s.here.readAll srcs = none) : vecOp srcs t (dstQ d) out s = s.block (.queueEmpty (popsOf srcs)) := by
  rw [vecOp, h]

theorem vecOp_of_full {vs : List VVal} {k : Core} {n : Fin 4} (hread : s.here.readAll srcs = some (vs, k)) (hd : d = .q n)
    (hfull : s.here.room (dstQueue n) = false) : vecOp srcs t (dstQ d) out s = s.block (.destFull (dstQueue n)) := by
  have hd' : (dstQ d).filter (fun n => !s.here.room n) = some (dstQueue n) := by simp [hd, dstQ, Option.filter, hfull]
  rw [vecOp, hread]
  dsimp only
  rw [hd']

theorem vecOp_of_layout {vs : List VVal} {k : Core} (hread : s.here.readAll srcs = some (vs, k)) (hroom : s.here.dstRoom d = true)
    (htags : tagsOk t vs = false) : vecOp srcs t (dstQ d) out s = s.execTrap .layoutMismatch := by
  have hd : (dstQ d).filter (fun n => !s.here.room n) = none := by
    rw [Option.filter_eq_none_iff]
    intro n hn
    simp [room_of_dstRoom hroom n hn]
  simp [vecOp, hread, hd, htags]

end

/-! ## The tables are instructions on lanes -/

/-- An instruction that runs as `vecOp` with the sources, the tag and the destination of a table row. -/
def RunsLanes (i : Instr) (op : LaneOp) (s : State) : Prop :=
  ∃ out, exec i s = .next (vecOp op.srcs op.tag (dstQ op.dst) out s)

section
variable {i : Instr} {op : LaneOp} {s : State}

theorem runsLanes_laneInts (h : laneInts i = some op) : RunsLanes i op s := by
  unfold laneInts at h
  split at h <;> simp only [Option.some.injEq, reduceCtorEq] at h <;> subst h <;> exact ⟨_, rfl⟩

theorem runsLanes_laneFloats (h : laneFloats i = some op) : RunsLanes i op s := by
  unfold laneFloats at h
  split at h <;> simp only [Option.some.injEq, reduceCtorEq] at h <;> subst h <;> exact ⟨_, rfl⟩

theorem runsLanes_laneMoves (h : laneMoves i s = some op) : RunsLanes i op s := by
  unfold laneMoves at h
  split at h <;> simp only [Option.some.injEq, reduceCtorEq] at h <;> subst h <;> exact ⟨_, rfl⟩

theorem mod_here (s : State) (f : Core → Core) : (s.mod fun _ => f s.here) = s.mod f := by
  simp [State.mod, State.onCore, State.here, State.core]

/-- ACLR reads no source. -/
theorem execAclr_eq_vecOp (m : Fin 8) (d : Fin 64) (s : State) : ∃ out, execAclr m d s = .next (vecOp [] none none out s) := by
  refine ⟨fun k _ => k.writeV s.clk (.a d) 1 (writeLanes 32 256 (s.here.mask m).getLsbD false (fun _ => 0) (fun _ => 0) 0), ?_⟩
  rw [vecOp_issues (t := none) (d := none) (vs := []) (k := s.here) rfl nofun rfl]
  exact congrArg (fun u => Host.Outcome.next (State.retire u 8)) (mod_here s _).symm

theorem runsLanes_laneAccs (h : laneAccs i = some op) : RunsLanes i op s := by
  unfold laneAccs at h
  split at h <;> simp only [Option.some.injEq, reduceCtorEq] at h <;> subst h
  case h_1 o p => exact ⟨_, rfl⟩
  case h_2 m d => exact execAclr_eq_vecOp m d s
  case h_3 d t m z a ctl => exact ⟨_, rfl⟩

theorem runsLanes_laneBlocks (h : laneBlocks i = some op) : RunsLanes i op s := by
  unfold laneBlocks at h
  split at h <;> simp only [Option.some.injEq, reduceCtorEq] at h <;> subst h <;> exact ⟨_, rfl⟩

theorem RunsLanes.waits_of_empty (h : RunsLanes i op s) (hread : s.here.readAll op.srcs = none) :
    Runs i s fun u => Waits s u (.queueEmpty (popsOf op.srcs)) := by
  obtain ⟨out, hexec⟩ := h
  rw [vecOp_of_empty hread] at hexec
  exact runs_waits hexec

theorem RunsLanes.waits_of_full (h : RunsLanes i op s) {vs : List VVal} {k : Core} {n : Fin 4}
    (hread : s.here.readAll op.srcs = some (vs, k)) (hd : op.dst = .q n) (hfull : s.here.room (dstQueue n) = false) :
    Runs i s fun u => Waits s u (.destFull (dstQueue n)) := by
  obtain ⟨out, hexec⟩ := h
  rw [vecOp_of_full hread hd hfull] at hexec
  exact runs_waits hexec

theorem RunsLanes.traps_of_layout (h : RunsLanes i op s) (hq : s.cur.2 = .ex) {vs : List VVal} {k : Core}
    (hread : s.here.readAll op.srcs = some (vs, k)) (hroom : s.here.dstRoom op.dst = true) (htags : tagsOk op.tag vs = false)
    (hin : s.me.inTrap = false) : Runs i s fun u => Traps s u .layoutMismatch s.me.pc 0 := by
  obtain ⟨out, hexec⟩ := h
  rw [vecOp_of_layout hread hroom htags] at hexec
  exact ⟨_, hexec, traps_execTrap_ex hq hin _⟩

end

/-- Settles O30: every row of the tables runs as `vecOp`, which waits or traps before it pops. -/
theorem laneWaits : Obligations.LaneWaits := by
  unfold Obligations.LaneWaits
  refine ⟨fun s hq => issue_free hq, ?_, fun s hq hheld hdiv => ⟨turn_of_held hq hheld hdiv, step_of_held hq hheld⟩, ?_⟩
  · intro i o s vs k hi hq hread htags hroom
    obtain rfl | rfl | rfl | rfl := hi <;> exact ⟨_, rfl, free_lane1_slow hq hread htags hroom⟩
  · intro i op s hi hq hwf
    have hruns : RunsLanes i op s := by
      obtain h | h | h | h | h := hi
      · exact runsLanes_laneInts h
      · exact runsLanes_laneFloats h
      · exact runsLanes_laneMoves h
      · exact runsLanes_laneAccs h
      · exact runsLanes_laneBlocks h
    exact ⟨hruns.waits_of_empty, fun vs k n => hruns.waits_of_full, fun vs k => hruns.traps_of_layout hq⟩

end Sys2Proof.Laws
end

section
/-! SUPPORT. What an instruction does leaves the list of flips noted from outside alone (R378): one lemma for each
operation of the state, in the order of the operations, so that a step has none to settle when it is done. -/

namespace Sys2Proof.Laws

open BitVec Sys2Proof.Machine

theorem foldl_outside {α : Type} {f : State → α → State} (h : ∀ s x, (f s x).outside = s.outside)
    (l : List α) (s : State) : (l.foldl f s).outside = s.outside := by
  induction l generalizing s with
  | nil => rfl
  | cons x l ih => rw [List.foldl_cons, ih, h]

theorem foldl_fst_outside {α β : Type} {f : State × β → α → State × β}
    (h : ∀ s x, (f s x).1.outside = s.1.outside) (l : List α) (s : State × β) :
    (l.foldl f s).1.outside = s.1.outside := by
  induction l generalizing s with
  | nil => rfl
  | cons x l ih => rw [List.foldl_cons, ih, h]

theorem ite_outside (c : Prop) [Decidable c] (s t : State) :
    (if c then s else t).outside = if c then s.outside else t.outside :=
  apply_ite _ _ _ _

theorem outside_of_eq {α : Type} {p : State × α} {t : State} {x : α} {l : List (Bool × Nat)}
    (h : p = (t, x)) (hp : p.1.outside = l) : t.outside = l := by
  rw [h] at hp
  exact hp

@[simp] theorem State.onCore_outside (s : State) (c f) : (s.onCore c f).outside = s.outside := rfl
@[simp] theorem State.mod_outside (s : State) (f) : (s.mod f).outside = s.outside := rfl
@[simp] theorem State.issue_outside (s : State) : s.issue.outside = s.outside := rfl
@[simp] theorem State.modMe_outside (s : State) (f) : (s.modMe f).outside = s.outside := rfl
@[simp] theorem State.retire_outside (s : State) (size) : (s.retire size).outside = s.outside := rfl
@[simp] theorem State.writeS_outside (s : State) (n x lat) : (s.writeS n x lat).outside = s.outside := rfl
@[simp] theorem State.block_outside (s : State) (w) : (s.block w).outside = s.outside := rfl
@[simp] theorem State.free_outside (s : State) : s.free.2.outside = s.outside := rfl

@[simp] theorem State.examine_outside (s : State) (k hbm flips data) :
    (s.examine k hbm flips data).1.outside = s.outside := by
  unfold State.examine
  grind [State.free_outside]

@[simp] theorem State.writeSector_outside (s : State) (sector data w) :
    (s.writeSector sector data w).outside = s.outside := by
  simp [State.writeSector]

@[simp] theorem State.log_outside (s : State) (cls p inj fl ctx pc) :
    (s.log cls p inj fl ctx pc).outside = s.outside := rfl

@[simp] theorem State.logCorrected_outside (s : State) (l i pc) :
    (s.logCorrected l i pc).outside = s.outside := rfl

@[simp] theorem State.writeBack_outside (s : State) (l i pc) :
    (s.writeBack l i pc).1.outside = s.outside := by
  unfold State.writeBack
  grind [State.logCorrected_outside, State.log_outside, State.writeSector_outside, State.examine_outside]

@[simp] theorem State.writeBackAll_outside (s : State) (l pc) :
    (s.writeBackAll l pc).1.outside = s.outside := by
  unfold State.writeBackAll
  refine (foldl_fst_outside (fun x y => ?_) _ _).trans ?_ <;> grind [State.writeBack_outside]

@[simp] theorem State.dropLine_outside (s : State) (la) : (s.dropLine la).outside = s.outside := rfl

@[simp] theorem State.quarantine_outside (s : State) (w) : (s.quarantine w).outside = s.outside := by
  unfold State.quarantine
  split <;> rfl

@[simp] theorem State.evict_outside (s : State) (l pc) : (s.evict l pc).1.outside = s.outside := by
  simp [State.evict, ite_outside]

@[simp] theorem State.setWord_outside (s : State) (sector w) : (s.setWord sector w).outside = s.outside := rfl

@[simp] theorem State.sense_outside (s : State) (sector want) :
    (s.sense sector want).1.outside = s.outside := by
  unfold State.sense
  grind [State.setWord_outside, State.examine_outside]

@[simp] theorem State.noteHbm_outside (s : State) (sector f pc) :
    (s.noteHbm sector f pc).outside = s.outside := by
  unfold State.noteHbm
  split <;> rfl

@[simp] theorem State.retireFrame_outside (s : State) (pa) : (s.retireFrame pa).outside = s.outside := by
  simp [State.retireFrame, ite_outside]

@[simp] theorem State.loseUnowned_outside (s : State) (sector pc) :
    (s.loseUnowned sector pc).outside = s.outside := by
  simp [State.loseUnowned]

@[simp] theorem State.readForMerge_outside (s : State) (sector) :
    (s.readForMerge sector).1.outside = s.outside := by
  unfold State.readForMerge
  grind [State.sense_outside, State.noteHbm_outside, State.loseUnowned_outside]

@[simp] theorem State.hdmSector_outside (s : State) (stamp sector lo hi x) :
    (s.hdmSector stamp sector lo hi x).outside = s.outside := by
  unfold State.hdmSector
  grind [State.readForMerge_outside, State.writeSector_outside]

@[simp] theorem State.hdmWrite_outside (s : State) (stamp pa x n lost fuel) :
    (s.hdmWrite stamp pa x n lost fuel).1.outside = s.outside := by
  fun_induction State.hdmWrite s stamp pa x n lost fuel <;> grind [State.hdmSector_outside,
    State.evict_outside]

theorem State.punish_outside {act : State → Ctx → State} (h : ∀ s ctx, (act s ctx).outside = s.outside)
    (s : State) (l : L2Line) : (s.punish l act).outside = s.outside := by
  rw [State.punish, State.retireFrame_outside, h]
  split <;> simp

@[simp] theorem State.logLost_outside (s : State) (l pc i) : (s.logLost l pc i).outside = s.outside := rfl
@[simp] theorem State.terminate_outside (s : State) (ctx) : (s.terminate ctx).outside = s.outside := rfl

@[simp] theorem State.postEvent_outside (s : State) (vf type code ctx status detail) :
    (s.postEvent vf type code ctx status detail).outside = s.outside := by
  simp [State.postEvent, ite_outside]

@[simp] theorem State.postBare_outside (s : State) (vf type status) :
    (s.postBare vf type status).outside = s.outside := by
  simp [State.postBare]

@[simp] theorem State.resetVf_outside (s : State) (vf) : (s.resetVf vf).1.outside = s.outside := by
  unfold State.resetVf
  dsimp only
  split <;> simp [foldl_outside State.terminate_outside]

@[simp] theorem State.chargeIn_outside (n : Nat) (s : State) (ctx : Ctx) :
    (State.chargeIn n s ctx).outside = s.outside := by
  induction n generalizing s ctx with
  | zero => exact State.terminate_outside s ctx
  | succ n ih =>
    rw [State.chargeIn]
    split
    · refine (foldl_outside (fun s x => ?_) _ _).trans (State.resetVf_outside s _)
      rw [State.punish_outside ih, foldl_outside fun s i => State.logLost_outside s x.1 0 i]
    · exact State.terminate_outside s ctx

@[simp] theorem State.charge_outside (s : State) (ctx) : (s.charge ctx).outside = s.outside := by
  simp [State.charge]

@[simp] theorem State.lostOut_outside (s : State) (l pc lost) :
    (s.lostOut l pc lost).outside = s.outside := by
  unfold State.lostOut
  split
  · rfl
  · rw [State.punish_outside State.charge_outside, foldl_outside fun s i => State.logLost_outside s l pc i]

@[simp] theorem State.lostAll_outside (s : State) (lost) : (s.lostAll lost).outside = s.outside := by
  simp [State.lostAll, foldl_outside]

@[simp] theorem State.hdmPut_outside (s : State) (stamp pa x n fuel) :
    (s.hdmPut stamp pa x n fuel).outside = s.outside := by
  simp [State.hdmPut]

@[simp] theorem State.putRecord_outside (s : State) (pa x n) : (s.putRecord pa x n).outside = s.outside := by
  unfold State.putRecord
  split <;> simp

@[simp] theorem State.record_outside (s : State) (v) : (s.record v).outside = s.outside := by
  simp [State.record]

@[simp] theorem State.violateAt_outside (s : State) (c q kind pc target) :
    (s.violateAt c q kind pc target).outside = s.outside := by
  simp [State.violateAt]

@[simp] theorem State.checkpoint_outside (s : State) (c) : (s.checkpoint c).outside = s.outside := by
  unfold State.checkpoint
  split <;> rfl

@[simp] theorem State.trapAt_outside (s : State) (c q cause epc tval) :
    (s.trapAt c q cause epc tval).outside = s.outside := by
  simp [State.trapAt, ite_outside]

@[simp] theorem State.takeTrap_outside (s : State) (cause epc tval) :
    (s.takeTrap cause epc tval).outside = s.outside := by
  simp [State.takeTrap]

@[simp] theorem State.execTrap_outside (s : State) (cause tval) :
    (s.execTrap cause tval).outside = s.outside := by
  simp [State.execTrap]

@[simp] theorem vecOp_outside (srcs tagTy dst out) (s : State) :
    (vecOp srcs tagTy dst out s).outside = s.outside := by
  unfold vecOp
  grind [State.retire_outside, State.execTrap_outside, State.mod_outside, State.block_outside]

@[simp] theorem lane2_outside (o lat bits f) (s : State) : (lane2 o lat bits f s).outside = s.outside := by
  unfold lane2
  split <;> simp

@[simp] theorem lane1_outside (o lat bits f) (s : State) (slow) :
    (lane1 o lat bits f s slow).outside = s.outside := by
  unfold lane1
  split <;> simp

@[simp] theorem vcmp_outside (o c) (s : State) : (vcmp o c s).outside = s.outside := by
  unfold vcmp
  split <;> simp

@[simp] theorem vred_outside (o f empty) (s : State) : (vred o f empty s).outside = s.outside := by
  unfold vred
  split <;> simp

@[simp] theorem State.onCluster_outside (s : State) (u f) : (s.onCluster u f).outside = s.outside := rfl

@[simp] theorem State.translate_outside (s : State) (va) : (s.translate va).1.outside = s.outside := by
  unfold State.translate
  grind [State.onCluster_outside, State.mod_outside, State.modMe_outside]

@[simp] theorem State.resolve_outside (s : State) (va) : (s.resolve va).1.outside = s.outside := by
  unfold State.resolve
  grind [State.translate_outside]

@[simp] theorem State.resolveRows_outside (s : State) (need stash code rest acc) :
    (s.resolveRows need stash code rest acc).1.outside = s.outside := by
  fun_induction State.resolveRows s need stash code rest acc <;> grind [State.resolve_outside]

@[simp] theorem State.plan_outside (s : State) (kind base sh gran off gw) :
    (s.plan kind base sh gran off gw).1.outside = s.outside := by
  unfold State.plan
  extract_lets
  split
  · rfl
  split
  · rfl

  split
  next s₁ e h₁ => exact outside_of_eq h₁ (State.resolve_outside s _)
  next s₁ p _ h₁ =>
    rw [← outside_of_eq h₁ (State.resolve_outside s _)]
    extract_lets
    split
    next s₂ e h₂ => exact outside_of_eq h₂ (State.resolve_outside s₁ _)
    next s₂ p pa h₂ =>
      rw [← outside_of_eq h₂ (State.resolve_outside s₁ _)]
      split
      · rfl
      split
      · rfl
      split
      · rfl
      split
      · rfl
      split
      · rfl
      split
      next s₃ e h₃ => exact outside_of_eq h₃ (State.resolveRows_outside s₂ _ _ _ _ _)
      next s₃ ts h₃ =>
        rw [← outside_of_eq h₃ (State.resolveRows_outside s₂ _ _ _ _ _)]
        split <;> rfl

@[simp] theorem State.violate_outside (s : State) (kind target) :
    (s.violate kind target).outside = s.outside := by
  simp [State.violate]

@[simp] theorem State.stop_outside (s : State) (r) : (s.stop r).outside = s.outside := by
  unfold State.stop
  split <;> simp

@[simp] theorem State.setPad_outside (s : State) (c r p) : (s.setPad c r p).outside = s.outside := rfl

@[simp] theorem State.setErr_outside (s : State) (c u flips) : (s.setErr c u flips).outside = s.outside := by
  unfold State.setErr
  split <;> rfl

@[simp] theorem State.writePad_outside (s : State) (c r tag mark d) :
    (s.writePad c r tag mark d).outside = s.outside := by
  simp [State.writePad]

@[simp] theorem State.onSlice_outside (s : State) (n f) : (s.onSlice n f).outside = s.outside := rfl

@[simp] theorem State.askSlices_outside (s : State) (rs) : (s.askSlices rs).outside = s.outside := by
  unfold State.askSlices
  refine foldl_outside (fun s x => ?_) _ _
  grind [State.onSlice_outside]

@[simp] theorem State.examineWord_outside (s : State) (flips) :
    (s.examineWord flips).1.outside = s.outside := by
  unfold State.examineWord
  split <;> rfl

@[simp] theorem State.flushOut_outside (s : State) (l pc) : (s.flushOut l pc).outside = s.outside := by
  simp [State.flushOut]

@[simp] theorem State.setLine_outside (s : State) (l) : (s.setLine l).outside = s.outside := rfl

@[simp] theorem State.loseTags_outside (s : State) (l pc) : (s.loseTags l pc).outside = s.outside := by
  simp [State.loseTags, foldl_outside, ite_outside]

@[simp] theorem State.checkTags_outside (s : State) (la pc) : (s.checkTags la pc).outside = s.outside := by
  unfold State.checkTags
  grind [State.examineWord_outside, State.setLine_outside, State.loseTags_outside, State.log_outside,
    State.flushOut_outside, State.setErr_outside, State.dropLine_outside]

@[simp] theorem State.loseSector_outside (s : State) (who sector inj) :
    (s.loseSector who sector inj).outside = s.outside := by
  unfold State.loseSector
  split <;> simp

@[simp] theorem State.readHbm_outside (s : State) (who sector code) :
    (s.readHbm who sector code).1.outside = s.outside := by
  unfold State.readHbm
  grind [State.sense_outside, State.noteHbm_outside, State.loseSector_outside]

@[simp] theorem State.readHbmSectors_outside (s : State) (who la mask code rest raw flips d cls) :
    (s.readHbmSectors who la mask code rest raw flips d cls).1.outside = s.outside := by
  fun_induction State.readHbmSectors s who la mask code rest raw flips d cls <;> grind [State.readHbm_outside]

@[simp] theorem State.loseEmbc_outside (s : State) (who la) : (s.loseEmbc who la).outside = s.outside := by
  simp [State.loseEmbc]

@[simp] theorem State.readEmbc_outside (s : State) (who la mask code) :
    (s.readEmbc who la mask code).1.outside = s.outside := by
  unfold State.readEmbc
  grind [State.readHbmSectors_outside, State.loseEmbc_outside]

@[simp] theorem State.sideSector_outside (s : State) (sector code) :
    (s.sideSector sector code).1.outside = s.outside := by
  unfold State.sideSector
  grind [State.setWord_outside]

@[simp] theorem State.fillRest_outside (s : State) (la code mask data) :
    (s.fillRest la code mask data).1.outside = s.outside := by
  unfold State.fillRest
  refine (foldl_fst_outside (fun x y => ?_) _ _).trans ?_ <;> grind [State.sideSector_outside]

@[simp] theorem State.touchLine_outside (s : State) (l lu) : (s.touchLine l lu).outside = s.outside := rfl

@[simp] theorem State.allocateIn_outside (s : State) (l lu n) :
    (s.allocateIn l lu n).outside = s.outside := by
  fun_induction State.allocateIn s l lu n <;> grind [State.touchLine_outside, State.flushOut_outside]

@[simp] theorem State.allocate_outside (s : State) (l lu) : (s.allocate l lu).outside = s.outside := by
  simp [State.allocate]

@[simp] theorem State.fillLine_outside (s : State) (who la mask code hint) :
    (s.fillLine who la mask code hint).1.outside = s.outside := by
  unfold State.fillLine
  grind [State.readHbmSectors_outside, State.fillRest_outside, State.allocate_outside]

@[simp] theorem State.correctLine_outside (s : State) (l i left pc) :
    (s.correctLine l i left pc).outside = s.outside := by
  simp [State.correctLine, ite_outside]

@[simp] theorem State.postFar_outside (s : State) (ctx) : (s.postFar ctx).outside = s.outside := by
  simp [State.postFar]

@[simp] theorem State.unreachable_outside (s : State) (who pa mask) :
    (s.unreachable who pa mask).outside = s.outside := by
  simp [State.unreachable, foldl_outside, ite_outside]

@[simp] theorem State.putOuter_outside (s : State) (pa d) : (s.putOuter pa d).outside = s.outside := by
  simp [State.putOuter]

@[simp] theorem State.drainLine_outside (s : State) (pa) : (s.drainLine pa).outside = s.outside := by
  simp [State.drainLine, foldl_outside]

@[simp] theorem State.readCxl_outside (s : State) (who pa mask) :
    (s.readCxl who pa mask).1.outside = s.outside := by
  unfold State.readCxl
  grind [State.unreachable_outside, State.drainLine_outside]

@[simp] theorem State.noteSev_outside (s : State) (c q cls) : (s.noteSev c q cls).outside = s.outside := by
  unfold State.noteSev
  split <;> rfl

@[simp] theorem State.settleFill_outside (s : State) (c r) : (s.settleFill c r).outside = s.outside := by
  unfold State.settleFill
  split <;> simp

@[simp] theorem State.deliverPart_outside (s : State) (r id st) :
    (s.deliverPart r id st).outside = s.outside := by
  unfold State.deliverPart
  grind [State.settleFill_outside, State.onCore_outside]

@[simp] theorem State.freeRow_outside (s : State) (c row) : (s.freeRow c row).outside = s.outside := by
  unfold State.freeRow
  split <;> rfl

@[simp] theorem State.keepEmbc_outside (s : State) (who la mask code) :
    (s.keepEmbc who la mask code).outside = s.outside := by
  unfold State.keepEmbc
  refine foldl_outside (fun s x => ?_) _ _
  grind [State.setWord_outside, State.readEmbc_outside]

@[simp] theorem State.writeEmbc_outside (s : State) (who la mask data code) :
    (s.writeEmbc who la mask data code).outside = s.outside := by
  simp [State.writeEmbc, foldl_outside, ite_outside]

@[simp] theorem State.putOuters_outside (s : State) (pa mask data) :
    (s.putOuters pa mask data).outside = s.outside := by
  simp [State.putOuters, foldl_outside, ite_outside]

@[simp] theorem State.writeCxl_outside (s : State) (who pa mask data) :
    (s.writeCxl who pa mask data).outside = s.outside := by
  simp [State.writeCxl, ite_outside]

@[simp] theorem State.acceptCxl_outside (s : State) (r row data) :
    (s.acceptCxl r row data).outside = s.outside := by
  unfold State.acceptCxl
  split <;> simp

@[simp] theorem State.farAnswer_outside (s : State) (pa) : (s.farAnswer pa).1.outside = s.outside := by
  unfold State.farAnswer
  split <;> rfl

@[simp] theorem State.postRefused_outside (s : State) (ctx) : (s.postRefused ctx).outside = s.outside := by
  simp [State.postRefused]

@[simp] theorem State.lostFar_outside (s : State) (who pa mask) :
    (s.lostFar who pa mask).outside = s.outside := by
  simp [State.lostFar, foldl_outside, ite_outside]

@[simp] theorem State.farRead_outside (s : State) (who pa mask) :
    (s.farRead who pa mask).1.outside = s.outside := by
  unfold State.farRead
  grind [State.unreachable_outside, State.postRefused_outside, State.lostFar_outside, State.drainLine_outside,
    State.farAnswer_outside]

@[simp] theorem State.shapeOp_outside (s : State) (n o) : (s.shapeOp n o).outside = s.outside := rfl

@[simp] theorem State.advance_outside (s : State) (sh f) : (s.advance sh f).outside = s.outside := by
  unfold State.advance
  split <;> rfl

@[simp] theorem State.addLoad_outside (s : State) (l) : (s.addLoad l).outside = s.outside := rfl

@[simp] theorem loadPad_outside (q addr own) (s : State) : (loadPad q addr own s).outside = s.outside := by
  unfold loadPad
  grind [State.retire_outside, State.execTrap_outside, State.free_outside, State.addLoad_outside,
    State.stop_outside, State.block_outside]

@[simp] theorem State.addStore_outside (s : State) (x) : (s.addStore x).outside = s.outside := rfl

@[simp] theorem storePad_outside (q addr send) (s : State) :
    (storePad q addr send s).outside = s.outside := by
  unfold storePad
  grind [State.retire_outside, State.execTrap_outside, State.free_outside, State.addStore_outside,
    State.stop_outside, State.block_outside]

@[simp] theorem finishAct_outside (o) (s : State) : (finishAct o s).outside = s.outside := by
  unfold finishAct
  split <;> simp

@[simp] theorem issueCmd_outside (i o depth get put) (s : State) :
    (issueCmd i o depth get put s).outside = s.outside := by
  simp [issueCmd, ite_outside]

@[simp] theorem tensIssue_outside (i o) (s : State) : (tensIssue i o s).outside = s.outside := by
  simp [tensIssue]

@[simp] theorem State.onTensor_outside (s : State) (c f) : (s.onTensor c f).outside = s.outside := rfl

@[simp] theorem State.tensorReplay_outside (s : State) (c) : (s.tensorReplay c).outside = s.outside := by
  unfold State.tensorReplay
  grind [State.log_outside, State.onTensor_outside, State.charge_outside]

@[simp] theorem State.putRows_outside (s : State) (row rest) : (s.putRows row rest).outside = s.outside := by
  fun_induction State.putRows s row rest <;> grind [State.writePad_outside]

@[simp] theorem State.spill_outside (s : State) (row mask) : (s.spill row mask).outside = s.outside := by
  simp [State.spill]

@[simp] theorem State.loseUnit_outside (s : State) (c u pc) : (s.loseUnit c u pc).outside = s.outside := by
  unfold State.loseUnit
  grind [State.log_outside, State.charge_outside]

@[simp] theorem State.checkWord_outside (s : State) (c u pc) :
    (s.checkWord c u pc).1.outside = s.outside := by
  unfold State.checkWord
  grind [State.examineWord_outside, State.log_outside, State.setErr_outside, State.loseUnit_outside,
    State.onCore_outside]

@[simp] theorem State.sensePad_outside (s : State) (c r i pc) :
    (s.sensePad c r i pc).1.outside = s.outside := by
  unfold State.sensePad
  grind [State.setPad_outside, State.log_outside, State.charge_outside, State.examine_outside]

@[simp] theorem State.readPadFrom_outside (s : State) (c r pc rest d cls) :
    (s.readPadFrom c r pc rest d cls).1.outside = s.outside := by
  fun_induction State.readPadFrom s c r pc rest d cls <;> grind [State.sensePad_outside]

@[simp] theorem State.readPad_outside (s : State) (c r pc) : (s.readPad c r pc).1.outside = s.outside := by
  unfold State.readPad
  grind [State.readPadFrom_outside, State.checkWord_outside]

@[simp] theorem State.getRows_outside (s : State) (row n) : (s.getRows row n).1.outside = s.outside := by
  fun_induction State.getRows s row n <;> grind [State.readPad_outside]

@[simp] theorem State.refill_outside (s : State) (row mask) : (s.refill row mask).1.outside = s.outside := by
  unfold State.refill
  grind [State.mod_outside, State.getRows_outside]

@[simp] theorem gathIssue_outside (i o) (s : State) : (gathIssue i o s).outside = s.outside := by
  simp [gathIssue]

@[simp] theorem codeIssue_outside (i o) (s : State) : (codeIssue i o s).outside = s.outside := by
  simp [codeIssue]

@[simp] theorem stageIssue_outside (i o) (s : State) : (stageIssue i o s).outside = s.outside := by
  simp [stageIssue]

@[simp] theorem State.take_outside (s : State) (target) : (s.take target).outside = s.outside := rfl
@[simp] theorem State.jump_outside (s : State) (target) : (s.jump target).outside = s.outside := rfl

@[simp] theorem enterLoop_outside (n count stop) (s : State) :
    (enterLoop n count stop s).outside = s.outside := by
  simp [enterLoop, ite_outside]

@[simp] theorem State.takeTokens_outside (s : State) (t n) : (s.takeTokens t n).outside = s.outside := rfl

@[simp] theorem State.readOpen_outside (s : State) (r) : (s.readOpen r).2.outside = s.outside := by
  unfold State.readOpen
  split <;> rfl

@[simp] theorem State.relUnmap_outside (s : State) (v) : (s.relUnmap v).outside = s.outside := rfl
@[simp] theorem State.tlbinv_outside (s : State) (v) : (s.tlbinv v).outside = s.outside := rfl

@[simp] theorem State.cleanLine_outside (s : State) (l pc) : (s.cleanLine l pc).outside = s.outside := by
  simp [State.cleanLine, ite_outside]

@[simp] theorem State.flushL2_outside (s : State) (remove) : (s.flushL2 remove).outside = s.outside := by
  unfold State.flushL2
  refine foldl_outside (fun s x => ?_) _ _
  grind [State.cleanLine_outside, State.flushOut_outside]

@[simp] theorem State.relPurge_outside (s : State) (v) : (s.relPurge v).outside = s.outside := rfl

@[simp] theorem State.frameRelease_outside (s : State) (v) : (s.frameRelease v).outside = s.outside := by
  simp [State.frameRelease, ite_outside]

@[simp] theorem State.efGoOn_outside (s : State) (c) : (s.efGoOn c).outside = s.outside := rfl
@[simp] theorem State.setHitch_outside (s : State) (u n h) : (s.setHitch u n h).outside = s.outside := rfl
@[simp] theorem State.arriveHitch_outside (s : State) (u n) : (s.arriveHitch u n).outside = s.outside := rfl

@[simp] theorem State.arriveAs_outside (s : State) (c master ctx pc handle) :
    (s.arriveAs c master ctx pc handle).outside = s.outside := by
  simp [State.arriveAs, ite_outside]

@[simp] theorem State.arriveCmd_outside (s : State) (c m) : (s.arriveCmd c m).outside = s.outside := by
  simp [State.arriveCmd]

@[simp] theorem State.payReply_outside (s : State) (c m) : (s.payReply c m).outside = s.outside := by
  unfold State.payReply
  grind [State.free_outside, State.onCore_outside]

@[simp] theorem State.engineComplete_outside (s : State) (c) : (s.engineComplete c).outside = s.outside := by
  unfold State.engineComplete
  grind [State.payReply_outside, State.arriveCmd_outside, State.onCore_outside]

@[simp] theorem State.completeAll_outside (s : State) (c n) : (s.completeAll c n).outside = s.outside := by
  fun_induction State.completeAll s c n <;> grind [State.engineComplete_outside]

@[simp] theorem State.efDropAll_outside (s : State) (c) : (s.efDropAll c).outside = s.outside := by
  simp [State.efDropAll]

@[simp] theorem State.efDropHead_outside (s : State) (c) : (s.efDropHead c).outside = s.outside := by
  unfold State.efDropHead
  split <;> simp

@[simp] theorem State.flipSector_outside (s : State) (array target ps) :
    (s.flipSector array target ps).1.outside = s.outside := by
  unfold State.flipSector
  grind [State.setPad_outside, State.setLine_outside, State.setWord_outside]

@[simp] theorem State.inject_outside (s : State) (v target) : (s.inject v target).1.outside = s.outside := by
  unfold State.inject
  split <;> simp

@[simp] theorem State.errorInject_outside (s : State) (v) : (s.errorInject v).outside = s.outside := by
  simp [State.errorInject]

@[simp] theorem State.writeSpr_outside (s : State) (r x) : (s.writeSpr r x).outside = s.outside := by
  unfold State.writeSpr
  grind [State.tlbinv_outside, State.frameRelease_outside, State.flushL2_outside, State.efDropHead_outside,
    State.efDropAll_outside, State.errorInject_outside, State.mod_outside, State.modMe_outside,
    State.efGoOn_outside]

@[simp] theorem State.resolveSub_outside (s : State) (ea page rest acc) :
    (s.resolveSub ea page rest acc).1.outside = s.outside := by
  fun_induction State.resolveSub s ea page rest acc <;> grind [State.resolve_outside]

@[simp] theorem State.onLaunch_outside (s : State) (u gid f) : (s.onLaunch u gid f).outside = s.outside := rfl

@[simp] theorem State.onStage_outside (s : State) (c n f) : (s.onStage c n f).outside = s.outside := by
  unfold State.onStage
  split <;> rfl

@[simp] theorem State.drainInto_outside (s : State) (c row x) :
    (s.drainInto c row x).outside = s.outside := by
  simp [State.drainInto, foldl_outside]

theorem State.asRequester_outside {act : State → State} (h : ∀ s, (act s).outside = s.outside) (s : State)
    (r : Option Requester) : (s.asRequester r act).outside = s.outside := by
  unfold State.asRequester
  dsimp only
  split
  · exact h s
  · split
    · rfl
    · rfl
    · exact h _

@[simp] theorem State.settlePad_outside (s : State) (c r pc i) :
    (s.settlePad c r pc i).1.outside = s.outside := by
  unfold State.settlePad
  grind [State.setPad_outside, State.sensePad_outside]

@[simp] theorem State.onRing_outside (s : State) (c n f) : (s.onRing c n f).outside = s.outside := rfl
@[simp] theorem State.setBound_outside (s : State) (c n w) : (s.setBound c n w).outside = s.outside := rfl

@[simp] theorem State.putIndex_outside (s : State) (c r slot lo reg coords) :
    (s.putIndex c r slot lo reg coords).outside = s.outside := by
  simp [State.putIndex]

@[simp] theorem State.cutEnd_outside (s : State) (u o r slot reg hold a) :
    (s.cutEnd u o r slot reg hold a).outside = s.outside := by
  unfold State.cutEnd
  split <;> simp

@[simp] theorem State.indexBits_outside (s : State) (u r slot) :
    (s.indexBits u r slot).1.outside = s.outside := by
  unfold State.indexBits
  grind [State.readPad_outside]

@[simp] theorem State.cutStart_outside (s : State) (u o slot reg k) :
    (s.cutStart u o slot reg k).outside = s.outside := rfl

@[simp] theorem State.getIndex_outside (s : State) (u r slot) :
    (s.getIndex u r slot).1.outside = s.outside := by
  unfold State.getIndex
  grind [State.indexBits_outside]

@[simp] theorem State.readRows_outside (s : State) (c pc first rest) :
    (s.readRows c pc first rest).1.outside = s.outside := by
  fun_induction State.readRows s c pc first rest <;> grind [State.readPad_outside]

@[simp] theorem State.readSubs_outside (s : State) (u r slot rest) :
    (s.readSubs u r slot rest).1.outside = s.outside := by
  fun_induction State.readSubs s u r slot rest <;> grind [State.readRows_outside]

@[simp] theorem lane3_outside (o lat f) (s : State) : (lane3 o lat f s).outside = s.outside := by simp [lane3]

@[simp] theorem State.setSplret_outside (s : State) (x) : (s.setSplret x).outside = s.outside := rfl

@[simp] theorem State.phaseCheck_outside (s : State) (c) : (s.phaseCheck c).outside = s.outside := by
  simp [State.phaseCheck, foldl_outside, ite_outside]

@[simp] theorem State.arrivePhase_outside (s : State) (fn imm) :
    (s.arrivePhase fn imm).outside = s.outside := by
  unfold State.arrivePhase
  grind [State.phaseCheck_outside, State.mod_outside, State.modMe_outside]

@[simp] theorem State.putHitch_outside (s : State) (n h) : (s.putHitch n h).outside = s.outside := rfl

@[simp] theorem State.callTrap_outside (s : State) (cause n) : (s.callTrap cause n).outside = s.outside := by
  unfold State.callTrap
  split <;> simp

@[simp] theorem State.loseLine_outside (s : State) (l i pc) : (s.loseLine l i pc).outside = s.outside := by
  simp [State.loseLine, State.punish_outside, foldl_outside fun s j => State.logLost_outside s l pc j]

@[simp] theorem State.scanLine_outside (s : State) (who la mask rest d cls) :
    (s.scanLine who la mask rest d cls).1.outside = s.outside := by
  fun_induction State.scanLine s who la mask rest d cls <;> grind [State.readHbm_outside, State.log_outside,
    State.correctLine_outside, State.loseLine_outside, State.setLine_outside, State.examine_outside,
    State.dropLine_outside]

@[simp] theorem State.deviceSector_outside (s : State) (who sector) :
    (s.deviceSector who sector).1.outside = s.outside := by
  unfold State.deviceSector
  grind [State.sense_outside, State.noteHbm_outside, State.loseSector_outside, State.checkTags_outside,
    State.scanLine_outside]

@[simp] theorem State.checkTile_outside (s : State) (c t rows pc) :
    (s.checkTile c t rows pc).1.outside = s.outside := by
  unfold State.checkTile
  extract_lets hit
  generalize hfold : List.foldl _ _ _ = p
  have hp : p.1.outside = s.outside := by
    rw [← hfold]
    refine foldl_fst_outside (fun x e => ?_) _ _
    obtain ⟨s, bad⟩ := x
    dsimp only
    split
    · grind [State.examine_outside, State.setErr_outside, State.log_outside, State.onTensor_outside]
    · rfl
  grind [State.tensorReplay_outside]

@[simp] theorem State.readL2_outside (s : State) (who la mask code hint fuel) :
    (s.readL2 who la mask code hint fuel).1.outside = s.outside := by
  fun_induction State.readL2 s who la mask code hint fuel <;> grind [State.scanLine_outside,
    State.fillLine_outside, State.touchLine_outside]

@[simp] theorem State.homeRead_outside (s : State) (who pa mask code hint) :
    (s.homeRead who pa mask code hint).1.outside = s.outside := by
  unfold State.homeRead
  grind [State.readCxl_outside, State.readL2_outside, State.checkTags_outside, State.readEmbc_outside]

@[simp] theorem State.writeL2_outside (s : State) (who la mask data code hint filled) :
    (s.writeL2 who la mask data code hint filled).1.outside = s.outside := by
  unfold State.writeL2
  extract_lets sm
  split
  · extract_lets
    split
    · rfl
    · exact State.touchLine_outside _ _ _
  · split
    · rfl
    · split
      · exact foldl_outside (fun s i => by split <;> simp) _ _
      · simp

@[simp] theorem State.homeWrite_outside (s : State) (who pa mask data code hint filled) :
    (s.homeWrite who pa mask data code hint filled).1.outside = s.outside := by
  unfold State.homeWrite
  grind [State.writeEmbc_outside, State.writeCxl_outside, State.checkTags_outside, State.writeL2_outside]

@[simp] theorem State.serve_outside (s : State) (r) : (s.serve r).outside = s.outside := by
  unfold State.serve
  grind [State.acceptCxl_outside, State.homeRead_outside, State.homeWrite_outside, State.freeRow_outside,
    State.deliverPart_outside]

@[simp] theorem State.settleSlice_outside (s : State) (n k) : (s.settleSlice n k).outside = s.outside := by
  fun_induction State.settleSlice s n k <;> simp_all

@[simp] theorem State.homeTurn_outside (s : State) (pa) : (s.homeTurn pa).outside = s.outside := by
  unfold State.homeTurn
  dsimp only
  split <;> simp

@[simp] theorem State.spanTurn_outside (s : State) (pa n) : (s.spanTurn pa n).outside = s.outside := by
  simp [State.spanTurn, foldl_outside, ite_outside]

@[simp] theorem State.checkSpan_outside (s : State) (who pa n) :
    (s.checkSpan who pa n).1.outside = s.outside := by
  unfold State.checkSpan
  rw [← State.spanTurn_outside s pa n]
  refine foldl_fst_outside (fun x j => ?_) _ (_, _)
  exact State.deviceSector_outside x.1 who j

@[simp] theorem State.memRead_outside (s : State) (who pa mask code hint) :
    (s.memRead who pa mask code hint).1.outside = s.outside := by
  unfold State.memRead
  split <;> simp

@[simp] theorem State.readEntry_outside (s : State) (who pa) :
    (s.readEntry who pa).1.outside = s.outside := by
  unfold State.readEntry
  grind [State.homeRead_outside, State.homeTurn_outside]

@[simp] theorem State.mergePad_outside (s : State) (c r data mask pc) :
    (s.mergePad c r data mask pc).outside = s.outside := by
  unfold State.mergePad
  generalize hfold : List.foldl _ _ _ = p
  have hp : p.1.outside = s.outside := by
    rw [← hfold]
    refine foldl_fst_outside (fun x i => ?_) _ _
    obtain ⟨s, m⟩ := x
    grind [State.settlePad_outside]
  simpa using hp

@[simp] theorem State.readRow_outside (s : State) (who pa code hint) :
    (s.readRow who pa code hint).1.outside = s.outside := by
  unfold State.readRow
  grind [State.memRead_outside]

@[simp] theorem State.beginFill_outside (s : State) (c q pc t row hint) :
    (s.beginFill c q pc t row hint).1.outside = s.outside := by
  unfold State.beginFill
  grind [State.askSlices_outside, State.readRow_outside, State.noteSev_outside, State.free_outside,
    State.writePad_outside, State.onCore_outside]

@[simp] theorem State.touch_outside (s : State) (c q pc t fill hint) :
    (s.touch c q pc t fill hint).1.outside = s.outside := by
  unfold State.touch
  grind [State.beginFill_outside, State.onCore_outside]

@[simp] theorem State.touchEach_outside (s : State) (c q pc fill hint ts) :
    (s.touchEach c q pc fill hint ts).1.outside = s.outside := by
  fun_induction State.touchEach s c q pc fill hint ts <;> grind [State.touch_outside]

@[simp] theorem State.touchAll_outside (s : State) (c q pc fill hint ts) :
    (s.touchAll c q pc fill hint ts).1.outside = s.outside := by
  unfold State.touchAll
  grind [State.touchEach_outside]

@[simp] theorem State.touchPlan_outside (s : State) (fill hint a) :
    (s.touchPlan fill hint a).1.outside = s.outside := by
  unfold State.touchPlan
  split <;> simp

@[simp] theorem load_outside (kind o) (s : State) : (load kind o s).outside = s.outside := by
  unfold load
  grind [State.retire_outside, State.askSlices_outside, State.touchPlan_outside, State.free_outside,
    State.addLoad_outside, State.plan_outside, State.stop_outside, State.advance_outside, State.block_outside]

@[simp] theorem State.checkCtx_outside (s : State) (ctx pc) : (s.checkCtx ctx pc).1.outside = s.outside := by
  simp [State.checkCtx]

@[simp] theorem State.walkFrom_outside (s : State) (who va table level n) :
    (s.walkFrom who va table level n).1.outside = s.outside := by
  fun_induction State.walkFrom s who va table level n <;> grind [State.readEntry_outside]

@[simp] theorem State.walk_outside (s : State) (who va) : (s.walk who va).1.outside = s.outside := by
  unfold State.walk
  grind [State.checkCtx_outside, State.walkFrom_outside]

@[simp] theorem State.readLines_outside (s : State) (who va code hint pa n fuel) :
    (s.readLines who va code hint pa n fuel).1.outside = s.outside := by
  fun_induction State.readLines s who va code hint pa n fuel <;> grind [State.memRead_outside]

@[simp] theorem State.mergeRows_outside (s : State) (c row bits mask tag pc n) :
    (s.mergeRows c row bits mask tag pc n).outside = s.outside := by
  fun_induction State.mergeRows s c row bits mask tag pc n <;> grind [State.setPad_outside,
    State.mergePad_outside]

@[simp] theorem State.putEntry_outside (s : State) (c pc r slot n x) :
    (s.putEntry c pc r slot n x).outside = s.outside := by
  simp [State.putEntry]

@[simp] theorem State.putColumns_outside (s : State) (c pc r slot sub lv first cols) :
    (s.putColumns c pc r slot sub lv first cols).outside = s.outside := by
  unfold State.putColumns
  split
  simp

@[simp] theorem State.putAll_outside (s : State) (c pc r slot lv cols) :
    (s.putAll c pc r slot lv cols).outside = s.outside := by
  simp [State.putAll, foldl_outside]

@[simp] theorem State.trim_outside (s : State) (u r slot list kept lo reg) :
    (s.trim u r slot list kept lo reg).1.outside = s.outside := by
  unfold State.trim
  grind [State.putIndex_outside, State.readSubs_outside, State.putAll_outside]

@[simp] theorem store_outside (kind o) (s : State) : (store kind o s).outside = s.outside := by
  unfold store
  split
  · simp
  split
  · simp
  split
  next s₁ x h₁ => rw [State.stop_outside, outside_of_eq h₁ (State.plan_outside s _ _ _ _ _ _)]
  next s₁ a h₁ =>
    rw [← outside_of_eq h₁ (State.plan_outside s _ _ _ _ _ _)]
    extract_lets
    split
    · simp
    split
    · simp
    split
    · simp
    split
    next s₂ x h₂ => rw [State.stop_outside, outside_of_eq h₂ (State.touchPlan_outside s₁ _ _ _)]
    next s₂ h₂ =>
      rw [← outside_of_eq h₂ (State.touchPlan_outside s₁ _ _ _)]
      dsimp only
      split
      · split
        · simp
        split
        · simp
        split <;> simp
      · simp

@[simp] theorem State.endWalk_outside (s : State) (u w) : (s.endWalk u w).1.outside = s.outside := by
  unfold State.endWalk
  split
  case h_2 s₁ cause h =>
    rw [← outside_of_eq h (State.walk_outside s _ _)]
    simp [foldl_outside fun s (v : Walk) => State.onCore_outside s v.core _]
  all_goals
    next h =>
      have hwalk := outside_of_eq h (State.walk_outside s _ _)
      exact hwalk

@[simp] theorem State.walkOne_outside (s : State) (u) : (s.walkOne u).outside = s.outside := by
  unfold State.walkOne
  split <;> simp

@[simp] theorem State.walkerFree_outside (s : State) (u) : (s.walkerFree u).outside = s.outside := by
  unfold State.walkerFree
  split <;> simp

@[simp] theorem State.translateNow_outside (s : State) (u who va) :
    (s.translateNow u who va).1.outside = s.outside := by
  unfold State.translateNow
  grind [State.onCluster_outside, State.endWalk_outside, State.walkerFree_outside, State.walk_outside]

@[simp] theorem State.reachVa_outside (s : State) (c who sup need va) :
    (s.reachVa c who sup need va).1.outside = s.outside := by
  unfold State.reachVa
  grind [State.translateNow_outside]

@[simp] theorem State.cutKind_outside (s : State) (u o m) : (s.cutKind u o m).1.outside = s.outside := by
  unfold State.cutKind
  grind [State.reachVa_outside]

@[simp] theorem State.readAt_outside (s : State) (c who sup va n hint) :
    (s.readAt c who sup va n hint).1.outside = s.outside := by
  unfold State.readAt
  grind [State.reachVa_outside, State.readLines_outside]

@[simp] theorem State.cutRead_outside (s : State) (u va n) : (s.cutRead u va n).1.outside = s.outside := by
  unfold State.cutRead
  grind [State.readAt_outside, State.noteSev_outside]

@[simp] theorem State.kvHeader_outside (s : State) (u o m p) :
    (s.kvHeader u o m p).1.outside = s.outside := by
  unfold State.kvHeader
  grind [State.cutRead_outside]

@[simp] theorem State.runsTo_outside (s : State) (u o k fuel m) :
    (s.runsTo u o k fuel m).1.outside = s.outside := by
  fun_induction State.runsTo s u o k fuel m <;> grind [State.cutRead_outside]

@[simp] theorem State.mapBlock_outside (s : State) (u va) : (s.mapBlock u va).1.outside = s.outside := by
  unfold State.mapBlock
  grind [State.cutRead_outside]

@[simp] theorem State.bmvHeader_outside (s : State) (u o m b) :
    (s.bmvHeader u o m b).1.outside = s.outside := by
  unfold State.bmvHeader
  grind [State.mapBlock_outside]

@[simp] theorem State.cutLive_outside (s : State) (u o m k) : (s.cutLive u o m k).1.outside = s.outside := by
  unfold State.cutLive
  grind [State.cutKind_outside, State.runsTo_outside, State.bmvHeader_outside, State.kvHeader_outside]

@[simp] theorem State.cutRow_outside (s : State) (u o m k) : (s.cutRow u o m k).1.outside = s.outside := by
  unfold State.cutRow
  grind [State.cutRead_outside]

@[simp] theorem State.cutLoop_outside (s : State) (u o r slot reg fuel m a) :
    (s.cutLoop u o r slot reg fuel m a).1.outside = s.outside := by
  fun_induction State.cutLoop s u o r slot reg fuel m a <;> grind [State.cutLive_outside,
    State.putEntry_outside, State.onRing_outside, State.putColumns_outside, State.setBound_outside,
    State.cutRow_outside]

@[simp] theorem State.cutRun_outside (s : State) (u o slot reg hold a) :
    (s.cutRun u o slot reg hold a).outside = s.outside := by
  unfold State.cutRun
  grind [State.retire_outside, State.cutLoop_outside, State.stop_outside, State.cutEnd_outside]

@[simp] theorem State.tcut_outside (s : State) (hold b base sh off) :
    (s.tcut hold b base sh off).outside = s.outside := by
  unfold State.tcut
  grind [State.execTrap_outside, State.cutRun_outside, State.indexBits_outside, State.cutStart_outside,
    State.mod_outside, State.stop_outside, State.block_outside]

@[simp] theorem State.follow_outside (s : State) (u o m rest) :
    (s.follow u o m rest).1.outside = s.outside := by
  fun_induction State.follow s u o m rest <;> grind [State.cutLive_outside]

@[simp] theorem State.followRows_outside (s : State) (u o m rest) :
    (s.followRows u o m rest).1.outside = s.outside := by
  fun_induction State.followRows s u o m rest <;> grind [State.cutLive_outside, State.cutRow_outside]

@[simp] theorem State.followRun_outside (s : State) (u o lead ds slot reg undo) :
    (s.followRun u o lead ds slot reg undo).outside = s.outside := by
  unfold State.followRun
  grind [State.retire_outside, State.followRows_outside, State.trim_outside, State.onRing_outside,
    State.putIndex_outside, State.follow_outside, State.setBound_outside, State.stop_outside,
    State.putAll_outside, State.getIndex_outside]

@[simp] theorem State.tfol_outside (s : State) (b base sh ring off) :
    (s.tfol b base sh ring off).outside = s.outside := by
  unfold State.tfol
  grind [State.execTrap_outside, State.followRun_outside, State.mod_outside, State.stop_outside,
    State.block_outside]

theorem execTdisc_outside {o : CCmd} {s t : State} (h : execTdisc o s = .next t) : t.outside = s.outside := by
  unfold execTdisc at h
  extract_lets at h
  split at h
  · cases h
    simp
  split at h
  · cases h
    simp
  generalize hfold : List.foldl (α := State × Bool) _ _ _ = p at h
  have hchecked : p.1.outside = s.outside := by
    rw [← hfold]
    refine foldl_fst_outside (fun x n => ?_) _ (_, _)
    exact State.checkTile_outside x.1 _ n _ _
  grind [State.spill_outside, State.refill_outside, finishAct_outside, State.mod_outside]

end Sys2Proof.Laws
end

section
/-! SUPPORT. No instruction's meaning notes a flip from outside: the instructions with branches one by one, then `exec`. -/

namespace Sys2Proof.Laws

open BitVec Sys2Proof.Machine

theorem execBc_outside {c disp} {s t : State} (h : execBc c disp s = .next t) : t.outside = s.outside := by
  unfold execBc at h
  grind [State.retire_outside, State.take_outside]

theorem execLexit_outside {src} {s t : State} (h : execLexit src s = .next t) : t.outside = s.outside := by
  unfold execLexit at h
  grind [State.modMe_outside, State.retire_outside, State.execTrap_outside, State.jump_outside]

theorem execTokt_outside {d t n} {s s' : State} (h : execTokt d t n s = .next s') :
    s'.outside = s.outside := by
  unfold execTokt at h
  grind [State.retire_outside, State.writeS_outside, State.takeTokens_outside]

theorem execBqp_outside {src n} {s t : State} (h : execBqp src n s = .next t) : t.outside = s.outside := by
  unfold execBqp at h
  grind [State.mod_outside, State.retire_outside, State.block_outside, State.execTrap_outside]

theorem execMfsr_outside {dst r} {s t : State} (h : execMfsr dst r s = .next t) :
    t.outside = s.outside := by
  unfold execMfsr at h
  grind [State.retire_outside, State.writeS_outside, State.execTrap_outside, State.violate_outside,
    State.readOpen_outside]

theorem execMtsr_outside {src r} {s t : State} (h : execMtsr src r s = .next t) :
    t.outside = s.outside := by
  unfold execMtsr at h
  grind [State.retire_outside, State.block_outside, State.execTrap_outside, State.violate_outside,
    State.relUnmap_outside, State.writeSpr_outside]

theorem execLdt_outside {delta base sh hint off} {s t : State}
    (h : execLdt delta base sh hint off s = .next t) : t.outside = s.outside := by
  unfold execLdt at h
  extract_lets at h
  iterate 3
    split at h
    · cases h
      simp
  split at h
  next s₁ _ hres =>
    cases h
    simpa using outside_of_eq hres (State.resolve_outside s _)
  next s₁ _ _ hres =>
    rw [← outside_of_eq hres (State.resolve_outside s _)]
    extract_lets at h
    iterate 6
      split at h
      · cases h
        simp
    grind [State.mod_outside, State.retire_outside, State.free_outside, State.stop_outside,
      State.shapeOp_outside, State.addLoad_outside, State.resolveSub_outside]

theorem execPref_outside {base sh gran hint off} {s t : State}
    (h : execPref base sh gran hint off s = .next t) : t.outside = s.outside := by
  unfold execPref at h
  grind [State.retire_outside, State.block_outside, State.free_outside, State.plan_outside,
    State.stop_outside, State.askSlices_outside, State.advance_outside, State.touchAll_outside]

theorem execDrain_outside {dst mode off} {s t : State} (h : execDrain dst mode off s = .next t) :
    t.outside = s.outside := by
  unfold execDrain at h
  grind [State.retire_outside, State.writeS_outside, State.block_outside, State.execTrap_outside,
    State.take_outside, State.onStage_outside, State.drainInto_outside]

theorem execBset_outside {b src} {s t : State} (h : execBset b src s = .next t) :
    t.outside = s.outside := by
  unfold execBset at h
  grind [State.retire_outside, State.block_outside, State.setBound_outside]

theorem execSpw_outside {o} {s t : State} (h : execSpw o s = .next t) : t.outside = s.outside := by
  unfold execSpw at h
  grind [loadPad_outside, storePad_outside]

theorem execShld_outside {sh src} {s t : State} (h : execShld sh src s = .next t) :
    t.outside = s.outside := by
  unfold execShld at h
  grind [State.mod_outside, State.retire_outside, State.block_outside, State.free_outside,
    State.resolve_outside, State.stop_outside, State.askSlices_outside, State.shapeOp_outside,
    State.addLoad_outside, State.touchAll_outside]

theorem execShset_outside {sh k base off} {s t : State} (h : execShset sh k base off s = .next t) :
    t.outside = s.outside := by
  unfold execShset at h
  grind [State.retire_outside, State.block_outside, State.shapeOp_outside]

theorem execShget_outside {dst sh k} {s t : State} (h : execShget dst sh k s = .next t) :
    t.outside = s.outside := by
  unfold execShget at h
  grind [State.retire_outside, State.writeS_outside, State.block_outside]

theorem execSunmap_outside {w} {s t : State} (h : execSunmap w s = .next t) : t.outside = s.outside := by
  unfold execSunmap at h
  grind [State.mod_outside, State.retire_outside, State.block_outside]

theorem execVbcast_outside {d t mask mz f} {s s' : State} (h : execVbcast d t mask mz f s = .next s') :
    s'.outside = s.outside := by
  unfold execVbcast at h
  grind [vecOp_outside]

theorem execTstat_outside {o} {s t : State} (h : execTstat o s = .next t) : t.outside = s.outside := by
  unfold execTstat at h
  grind [State.mod_outside, State.block_outside, finishAct_outside]

theorem execCswap_outside {o} {s t : State} (h : execCswap o s = .next t) : t.outside = s.outside := by
  unfold execCswap at h
  grind [State.mod_outside, State.execTrap_outside, codeIssue_outside]

theorem execDflush_outside {o} {s t : State} (h : execDflush o s = .next t) : t.outside = s.outside := by
  unfold execDflush at h
  grind [State.execTrap_outside, stageIssue_outside]

theorem execStgq_outside {o} {s t : State} (h : execStgq o s = .next t) : t.outside = s.outside := by
  unfold execStgq at h
  grind [State.execTrap_outside, stageIssue_outside]

theorem execSync_outside {lvl} {s t : State} (h : execSync lvl s = .next t) : t.outside = s.outside := by
  unfold execSync at h
  grind [State.execTrap_outside, State.arrivePhase_outside]

theorem execXfence_outside {src dst scope} {s t : State} (h : execXfence src dst scope s = .next t) :
    t.outside = s.outside := by
  unfold execXfence at h
  grind [State.retire_outside, State.block_outside, State.execTrap_outside, State.arrivePhase_outside]

theorem execHinit_outside {h n} {s t : State} (h : execHinit h n s = .next t) : t.outside = s.outside := by
  unfold execHinit at h
  grind [State.retire_outside, State.execTrap_outside, State.stop_outside, State.putHitch_outside]

theorem execHarv_outside {h n} {s t : State} (h : execHarv h n s = .next t) : t.outside = s.outside := by
  unfold execHarv at h
  grind [State.retire_outside, State.execTrap_outside, State.stop_outside, State.putHitch_outside]

theorem execHwait_outside {dst h poll} {s t : State} (h : execHwait dst h poll s = .next t) :
    t.outside = s.outside := by
  unfold execHwait at h
  grind [State.retire_outside, State.writeS_outside, State.block_outside, State.execTrap_outside,
    State.stop_outside]

theorem execRpop_outside {dst tag any} {s t : State} (h : execRpop dst tag any s = .next t) :
    t.outside = s.outside := by
  unfold execRpop at h
  grind [State.mod_outside, State.retire_outside, State.writeS_outside, State.block_outside,
    State.execTrap_outside]

theorem execRtry_outside {dst tag any} {s t : State} (h : execRtry dst tag any s = .next t) :
    t.outside = s.outside := by
  unfold execRtry at h
  grind [State.mod_outside, State.retire_outside, State.writeS_outside, State.execTrap_outside]

theorem execEret_outside {s t : State} (h : execEret s = .next t) : t.outside = s.outside := by
  unfold execEret at h
  grind [State.issue_outside, State.modMe_outside, State.checkpoint_outside, State.execTrap_outside,
    State.violate_outside]

/-- No instruction's meaning notes a flip from outside: only an event does. -/
theorem exec_outside {i : Instr} (hw : i.isWord = true) {s t : State} (h : exec i s = .next t) :
    t.outside = s.outside := by
  cases i with
  | add | sub | mul | mulh | and | or | xor | shl | shr | sra | min | max | sel | cmp | popc | clz | li
  | lih | call | nop | cbw | bget | kand | kor | kxor | knot | kmov | kpopc | aclr | tb =>
    cases h
    rfl
  | loop | loopi | ldr | ldl | lds | spr | str | stl | snd | strm | vadd | vsub | vmul | vmulh | vmin | vmax
  | vabs | vneg | vand | vor | vxor | vnot | vshl | vshlSat | vshr | vsra | vpopc | vfadd | vfsub | vfmul
  | vfmin | vfmax | vfabs | vfneg | vfma | vfms | vfnma | vcmpEq | vcmpNe | vcmpLt | vcmpLe | vcmpGt
  | vcmpGe | vcmpUn | vsel | vperm | vrot | vrmg | vmov | vcvt | vpack | vunpk | vbsc | vredAdd | vredMin
  | vredMax | vredAnd | vredOr | vredXor | vredFadd | vredFmin | vredFmax | vmaxi | vexp2 | vlog2 | vrcp
  | vrsq | vcls | amov | acvt | rcfg | tcfg | tgo | gather | scatter | pool | copy | fill | aowAddi32
  | aowAddi64 | aowAddf32 | aowMax | aowMin | aowAnd | aowOr | aowXor | aowSwap | cas | selk | nbt | coll
  | cgen | clock | cunlk | cpref | lenq | pend | trap | sys =>
    cases h
    simp
  | bc => exact execBc_outside h
  | lexit => exact execLexit_outside h
  | tokt => exact execTokt_outside h
  | bqp => exact execBqp_outside h
  | mfsr => exact execMfsr_outside h
  | mtsr => exact execMtsr_outside h
  | ldt => exact execLdt_outside h
  | pref => exact execPref_outside h
  | drain => exact execDrain_outside h
  | bset => exact execBset_outside h
  | spw => exact execSpw_outside h
  | shld => exact execShld_outside h
  | shset => exact execShset_outside h
  | shget => exact execShget_outside h
  | sunmap => exact execSunmap_outside h
  | vbcast => exact execVbcast_outside h
  | tstat => exact execTstat_outside h
  | cswap => exact execCswap_outside h
  | dflush => exact execDflush_outside h
  | stgq => exact execStgq_outside h
  | sync => exact execSync_outside h
  | xfence => exact execXfence_outside h
  | hinit => exact execHinit_outside h
  | harv => exact execHarv_outside h
  | hwait => exact execHwait_outside h
  | rpop => exact execRpop_outside h
  | rtry => exact execRtry_outside h
  | eret => exact execEret_outside h
  | bq | jr | ret | toks | tokw | trd | tcut | tfol | smap | vbq | defer | splc | twait | yield | halt
  | gvi =>
    dsimp only [exec, execBq, execJr, execRet, execToks, execTokw, execTrd, execTcut, execTfol, execSmap,
      execVbq, execDefer, execSplc, execTwait, execYield, execHalt, execGvi] at h
    grind [State.execTrap_outside, finishAct_outside, State.block_outside, State.retire_outside,
      State.take_outside, State.mod_outside, State.writeS_outside, State.jump_outside,
      State.takeTokens_outside, State.free_outside, State.addLoad_outside, State.checkTile_outside,
      State.tcut_outside, State.asRequester_outside, State.tfol_outside, vecOp_outside,
      State.onStage_outside, State.setSplret_outside, State.issue_outside, State.phaseCheck_outside,
      State.modMe_outside]
  | tdisc => exact execTdisc_outside h
  | _ => exact absurd hw Bool.false_ne_true

end Sys2Proof.Laws
end

section
/-! SUPPORT. A ready sequencer's step is its decoded instruction (R57, R69, R223, R349, R378). -/

namespace Sys2Proof.Laws

open BitVec Sys2Proof.Machine

theorem checkLine_of_errs_nil {s : State} (h : s.errs = []) (c : CoreId) (ctx : Ctx) (addr : Word) :
    s.checkLine c ctx addr = s := by
  simp [State.checkLine, State.flipsAt, h]

theorem reading_of_errs_nil {s : State} (h : s.errs = []) (i : Instr) : s.reading i = (s, some i) := by
  simp [State.reading, h]

theorem finish_of_clean {s t : State} (herrs : s.errs = []) (hapart : s.apart = []) (hout : t.outside = [])
    (i : Option Instr) : s.finish t i = t := by
  simp [State.finish, herrs, hapart, hout]

theorem exHeld_of_free {s : State} (hfree : s.cur.2 = .ex → s.here.ex.free ≤ s.clk) : s.exHeld = false := by
  by_cases hq : s.cur.2 = .ex
  · simp [State.exHeld, hq, hfree hq]
  · simp [State.exHeld, hq]

theorem touchCode_chk (k : Core) (ctx : Ctx) (addr : Word) : (k.touchCode ctx addr).chk = k.chk := by
  unfold Core.touchCode
  split <;> rfl

/-- With no window to run again, CTL logs the constants as they stand. -/
theorem logOf_of_again_nil {s : State} (h : s.here.chk.again = []) (w0 : Word) (i : Instr) :
    s.logOf w0 i = .word w0 :: ((i.uses.c.map fun n => .value s.here.consts[n]) ++ (s.logged i).toList) := by
  have hconst : ∀ n, s.here.constant .ctl n = s.here.consts[n] := fun n => if_neg fun hne => hne.2 h
  simp only [State.logOf, constantsOf, hconst]
  rfl

/-- The state in which the decoded instruction runs: the code line is used, and the word's yp bit and what CTL
logs are noted. -/
def noted (s : State) (f : Fetched) (w0 : Word) : State :=
  let t := s.mod fun k => k.touchCode k.ctx s.me.pc
  { t with curYp := f.yp, curAgain := 0, curLog := if s.cur.2 = .ctl then t.logOf w0 f.instr else [] }

/-- `turn` asks in order whether a window runs again, a fault is due, the context is diverted, the sequencer runs,
its errors are severe, it copies, runs ahead, yields or stands at a bound: a ready sequencer meets none of these. -/
theorem turn_of_ready {s : State} {f : Fetched} (h : Ready s f) :
    ∃ w0 w1, s.here.fetch s.here.ctx s.me.pc = some (w0, w1) ∧
      decode s.cur.2 s.me.pc w0 w1 s.reduced = .ok f ∧ s.turn = (noted s f w0, some f.instr) := by
  obtain ⟨-, herrs, -, -, hrun, hcopy, hgvi, hsev, hctl, hdiv, hfree, hahead, ⟨w0, w1, hfetch, hdec⟩, hyp,
    hbound⟩ := h
  refine ⟨w0, w1, hfetch, hdec, ?_⟩
  have hend : s.here.inEnd s.cur.2 = false := by
    rw [Core.inEnd, show (s.here.seq s.cur.2).copy = none from hcopy]
    rfl
  have hheld := exHeld_of_free hfree
  rcases hcur : s.cur with ⟨c, q⟩
  rw [hcur] at hctl hdiv hfree hdec hyp hbound hend
  have hagain : ¬(decide (q = .ctl) && s.me.run == .running && !s.here.chk.again.isEmpty) = true := by
    intro htrue
    simp only [Bool.and_eq_true, decide_eq_true_eq] at htrue
    simp [(hctl htrue.1.1).2] at htrue
  have hfault : ¬(decide (q = .ctl) && s.here.faultDue) = true := by
    intro htrue
    simp only [Bool.and_eq_true, decide_eq_true_eq] at htrue
    simp [(hctl htrue.1).1] at htrue
  have hlive : ¬(f.yp && s.here.divert.isNone && s.here.tokensLeft q) = true := by
    intro htrue
    simp only [Bool.and_eq_true, Option.isNone_iff_eq_none] at htrue
    obtain ⟨⟨hy, hd⟩, hleft⟩ := htrue
    simp [(hyp hy hd).1] at hleft
  have hdrain : ¬(f.yp && s.here.divert.isNone && s.here.req.isSome && !s.me.inTrap &&
      (s.drainAt s.here.ctx q s.me.pc).isSome) = true := by
    intro htrue
    simp only [Bool.and_eq_true, Option.isNone_iff_eq_none] at htrue
    obtain ⟨⟨⟨⟨hy, hd⟩, hreq⟩, hin⟩, hsome⟩ := htrue
    obtain hnone | htrap | hnone := (hyp hy hd).2
    · simp [hnone] at hreq
    · simp [htrap] at hin
    · simp [hnone] at hsome
  have hdrainAt : (s.mod fun k => k.touchCode k.ctx s.me.pc).drainAt s.here.ctx q s.me.pc =
      s.drainAt s.here.ctx q s.me.pc := rfl
  simp only [State.turn, hcur, checkLine_of_errs_nil herrs, hfetch]
  rw [if_neg hagain, if_neg hfault, if_neg (by simp [hdiv]), if_neg (by simp [hrun, hend, hheld]),
    if_neg (by simp [hsev]), if_neg (by simp [hcopy, hgvi]), if_neg (by simp [hahead])]
  rw [show (s.mod fun k => k.touchCode k.ctx s.me.pc).reduced = s.reduced from rfl, hdec]
  simp only
  rw [hdrainAt, if_neg hlive, if_neg hdrain, if_neg (by simp [hbound])]
  refine Eq.trans ?_ (reading_of_errs_nil (s := noted s f w0) herrs f.instr)
  rw [noted, hcur]

/-- The step of a ready sequencer is the instruction's own: nothing is added when it is done. -/
theorem step_of_ready {s : State} {f : Fetched} (h : Ready s f) :
    ∃ w0 w1, s.here.fetch s.here.ctx s.me.pc = some (w0, w1) ∧ step s = exec f.instr (noted s f w0) := by
  obtain ⟨w0, w1, hfetch, hdec, hturn⟩ := turn_of_ready h
  obtain ⟨hagenda, herrs, hout, hapart, -, -, -, -, -, -, hfree, -⟩ := h
  have hheld := exHeld_of_free hfree
  obtain ⟨-, hword, -⟩ := (decode_eq_ok hdec).encodable
  refine ⟨w0, w1, hfetch, ?_⟩
  rw [step, hagenda]
  simp only [hheld, Bool.false_eq_true, if_false, State.runTurn, hturn]
  cases hexec : exec f.instr (noted s f w0) with
  | next u =>
    have hclean : u.outside = [] := (exec_outside hword hexec).trans hout
    exact congrArg Host.Outcome.next (finish_of_clean (s := noted s f w0) herrs hapart hclean _)
  | _ => rfl

/-- Settles O2: the turn comes to the decoded instruction, whose meaning notes no flip from outside, so nothing is
left to settle when it is done. -/
theorem stepRunsDecoded : Obligations.StepRunsDecoded := by
  unfold Obligations.StepRunsDecoded
  intro s f h
  obtain ⟨w0, w1, hfetch, hstep⟩ := step_of_ready h
  obtain ⟨-, -, -, -, -, -, -, -, hctl, -⟩ := h
  refine ⟨w0, w1, hfetch, fun t ht => ?_⟩
  rw [hstep, noted, ← ht]
  have hcur : t.cur = s.cur := by rw [ht, State.mod_cur]
  rw [hcur]
  split
  next hq =>
    rw [logOf_of_again_nil]
    rw [ht, State.here_mod, touchCode_chk]
    exact (hctl hq).2
  · rfl

end Sys2Proof.Laws
end

section
/-! SUPPORT. Writes of the device itself in device memory (R360, R398): what they change, which bytes they leave, and that no
line without errors is lost on the way. -/

namespace Sys2Proof.Laws

open Sys2Proof.Machine

/-! ## Bytes of memory -/

theorem get_putBytes_in {n i : Nat} (hi : i < n) :
    ∀ {m : Memory} {a x : Nat}, m.wf → (m.putBytes a x n).get (a + i) = BitVec.ofNat 8 (x / 256 ^ i) := by
  induction n generalizing i with
  | zero => omega
  | succ n ih =>
    intro m a x h
    rw [Memory.putBytes]
    cases i with
    | zero => rw [Memory.get_putBytes_out (.inl (by omega)), Nat.add_zero, Memory.get_put_same h, Nat.pow_zero, Nat.div_one]
    | succ i =>
      rw [show a + (i + 1) = a + 1 + i by omega, ih (by omega) (Memory.put_wf h), Nat.div_div_eq_div_mul, Nat.pow_succ']

theorem bytes_congr {m m' : Memory} {n a : Nat} (h : ∀ i, i < n → m.get (a + i) = m'.get (a + i)) :
    m.bytes a n = m'.bytes a n := by
  induction n generalizing a with
  | zero => rfl
  | succ n ih =>
    have h0 := h 0 (by omega)
    rw [Nat.add_zero] at h0
    rw [Memory.bytes, Memory.bytes, h0, ih fun i hi => ?_]
    have := h (i + 1) (by omega)
    rwa [show a + (i + 1) = a + 1 + i by omega] at this

/-- Bytes `lo` to `hi - 1` of a merged sector are those of the number. -/
theorem byte_mergeSector {old : BitVec 256} {lo hi x i : Nat} (hi' : lo + i < hi) (hhi : hi ≤ 32) :
    (mergeSector old lo hi x).extractLsb' (8 * (lo + i)) 8 = BitVec.ofNat 8 (x / 256 ^ i) := by
  apply BitVec.eq_of_getLsbD_eq
  intro b hb
  have hin : 8 * (lo + i) + b < 256 := by omega
  have hmask : 8 * (lo + i) + b - 8 * lo < 8 * (hi - lo) := by omega
  have hpow : 256 ^ i = 2 ^ (8 * i) := by rw [Nat.pow_mul]
  simp only [hpow, mergeSector, BitVec.getLsbD_extractLsb', hb, decide_true, Bool.true_and, BitVec.getLsbD_or, BitVec.getLsbD_and,
    BitVec.getLsbD_not, BitVec.getLsbD_ofNat, hin, Nat.testBit_mul_two_pow, Nat.testBit_two_pow_sub_one, hmask,
    Nat.testBit_div_two_pow, show 8 * lo ≤ 8 * (lo + i) + b by omega]
  simp [show 8 * (lo + i) + b - 8 * lo = b + 8 * i by omega]

/-! ## Steps on sectors of local memory -/

/-- Sectors of local memory have changed, all among those that `p` holds of; beside them the log, counts and lists of errors, and the
free values used. -/
structure OnSectors (p : Nat → Prop) (s t : State) : Prop where
  frame : t = { s with mem := t.mem, marks := t.marks, rel := t.rel, fresh := t.fresh }
  mem : ∀ a, ¬p (a / 32) → Memory.get t.mem a = Memory.get s.mem a
  word : ∀ j, ¬p j → t.word j = s.word j
  canon : s.Canon → t.Canon

theorem OnSectors.refl (p : Nat → Prop) (s : State) : OnSectors p s s := ⟨rfl, fun _ _ => rfl, fun _ _ => rfl, id⟩

theorem OnSectors.trans {p : Nat → Prop} {s t u : State} (h : OnSectors p s t) (h' : OnSectors p t u) : OnSectors p s u where
  frame := by rw [h'.frame, h.frame]
  mem a ha := (h'.mem a ha).trans (h.mem a ha)
  word j hj := (h'.word j hj).trans (h.word j hj)
  canon := h'.canon ∘ h.canon

theorem OnSectors.mono {p q : Nat → Prop} {s t : State} (h : OnSectors p s t) (hpq : ∀ j, p j → q j) : OnSectors q s t :=
  ⟨h.frame, fun a ha => h.mem a (mt (hpq _) ha), fun j hj => h.word j (mt (hpq _) hj), h.canon⟩

/-- The log, the lists of errors and the free values are no memory. -/
theorem onSectors_rel (p : Nat → Prop) (s : State) (rel : RelSt) (fresh : Nat) :
    OnSectors p s { s with rel := rel, fresh := fresh } := ⟨rfl, fun _ _ => rfl, fun _ _ => rfl, id⟩

theorem OnSectors.l2 {p : Nat → Prop} {s t : State} (h : OnSectors p s t) : t.l2 = s.l2 := by rw [h.frame]

theorem OnSectors.rawSector {p : Nat → Prop} {s t : State} (h : OnSectors p s t) {j : Nat} (hj : ¬p j) :
    t.rawSector j = s.rawSector j := by
  refine congrArg (BitVec.ofNat 256) (bytes_congr fun i hi => h.mem _ ?_)
  rwa [show (32 * j + i) / 32 = j by omega]

/-- The bytes of every other sector stand. -/
theorem OnSectors.peek {p : Nat → Prop} {s t : State} (h : OnSectors p s t) {a : Nat} (ha : ¬p (a / 32)) : t.peek a = s.peek a := by
  have hline : t.lineAt (a / 32 / 4) = s.lineAt (a / 32 / 4) := by rw [State.lineAt, h.l2, State.lineAt]
  simp only [State.peek, State.peekSector, hline, h.rawSector ha, h.word _ ha, h.mem a ha]

theorem onSectors_writeSector (s : State) (j : Nat) (d : BitVec 256) (w : SectorWord) : OnSectors (· = j) s (s.writeSector j d w) where
  frame := by simp only [State.writeSector]
  mem a ha := by
    have hout : Memory.get (Memory.putBytes s.mem (32 * j) d.toNat 32) a = Memory.get s.mem a :=
      Memory.get_putBytes_out (by omega)
    simpa only [State.writeSector] using hout
  word _ hi := cellGet_put_ne hi
  canon h := by
    have hmem : Memory.wf (Memory.putBytes s.mem (32 * j) d.toNat 32) := Memory.putBytes_wf h.1
    simp only [State.writeSector, State.Canon]
    exact ⟨hmem, cellPut_wf h.2⟩

theorem onSectors_setWord (s : State) (j : Nat) (w : SectorWord) : OnSectors (· = j) s (s.setWord j w) where
  frame := rfl
  mem _ _ := rfl
  word _ hi := cellGet_put_ne hi
  canon h := ⟨h.1, cellPut_wf h.2⟩

theorem onSectors_log (p : Nat → Prop) (s : State) (cls : Nat) (pl : Place) (inj : Bool) (fl : LogFlags) (ctx : Ctx) (pc : Word) :
    OnSectors p s (s.log cls pl inj fl ctx pc) := onSectors_rel p s _ _

theorem onSectors_logCorrected (p : Nat → Prop) (s : State) (l : L2Line) (i : Nat) (pc : Word) :
    OnSectors p s (s.logCorrected l i pc) := onSectors_rel p s _ _

theorem onSectors_examine (p : Nat → Prop) (s : State) (k : SecKind) (hbm : Bool) (flips : List Nat) (data : BitVec 256) :
    OnSectors p s (s.examine k hbm flips data).1 := by
  unfold State.examine State.free
  dsimp only
  split
  · split
    · exact onSectors_rel p s _ _
    · exact onSectors_rel p s _ _
  · exact OnSectors.refl p s

theorem onSectors_quarantine (p : Nat → Prop) (s : State) (w : WayId) : OnSectors p s (s.quarantine w) := by
  unfold State.quarantine
  split
  · exact onSectors_rel p s _ _
  · exact OnSectors.refl p s

theorem onSectors_retireFrame (p : Nat → Prop) (s : State) (pa : Nat) : OnSectors p s (s.retireFrame pa) := by
  unfold State.retireFrame
  dsimp only
  split
  · exact onSectors_rel p s _ _
  · exact OnSectors.refl p s

/-! ## A line leaves the L2 (R180) -/

theorem onSectors_writeBack (s : State) (l : L2Line) (i : Nat) (pc : Word) : OnSectors (· = 4 * l.la + i) s (s.writeBack l i pc).1 := by
  unfold State.writeBack
  have hex := onSectors_examine (· = 4 * l.la + i) s (secKind l.tag (l.mark i) (4 * l.la + i)) false (flipsOf l.flips i)
    (lineSector l.data i)
  obtain ⟨u, f, d⟩ := s.examine (secKind l.tag (l.mark i) (4 * l.la + i)) false (flipsOf l.flips i) (lineSector l.data i)
  refine hex.trans ?_
  dsimp only
  split
  · exact onSectors_writeSector _ _ _ _
  · exact (onSectors_log _ _ _ _ _ _ _ _).trans (onSectors_writeSector _ _ _ _)
  · exact (onSectors_log _ _ _ _ _ _ _ _).trans (onSectors_writeSector _ _ _ _)
  · exact (onSectors_logCorrected _ _ _ _ _).trans (onSectors_writeSector _ _ _ _)
  · exact onSectors_writeSector _ _ _ _

/-- A line without errors is never lost. -/
theorem writeBack_lost_of_clean (s : State) {l : L2Line} (h : l.flips = []) (i : Nat) (pc : Word) : (s.writeBack l i pc).2 = false := by
  simp [State.writeBack, State.examine, h, flipsOf, check, checkBits]

/-- The step of `writeBackAll` for one sector. -/
theorem writeBackAll_foldl (l : L2Line) (pc : Word) (is : List Nat) (his : ∀ i ∈ is, i < 4) (s : State) (n : List Nat) :
    OnSectors (fun j => j / 4 = l.la) s (is.foldl (fun (r : State × List Nat) i =>
      if l.dirty.getLsbD i then
        let (s, lost) := r.1.writeBack l i pc
        (s, if lost then r.2 ++ [i] else r.2)
      else (r.1, r.2)) (s, n)).1 ∧
    (l.flips = [] → (is.foldl (fun (r : State × List Nat) i =>
      if l.dirty.getLsbD i then
        let (s, lost) := r.1.writeBack l i pc
        (s, if lost then r.2 ++ [i] else r.2)
      else (r.1, r.2)) (s, n)).2 = n) := by
  induction is generalizing s n with
  | nil => exact ⟨OnSectors.refl _ s, fun _ => rfl⟩
  | cons i is ih =>
    have hi : i < 4 := his i (by simp)
    rw [List.foldl_cons]
    split
    · have hstep := (onSectors_writeBack s l i pc).mono (q := fun j => j / 4 = l.la) (by omega)
      obtain ⟨hrest, hlost⟩ := ih (fun j hj => his j (by simp [hj])) (s.writeBack l i pc).1
        (if (s.writeBack l i pc).2 then n ++ [i] else n)
      refine ⟨hstep.trans hrest, fun h => (hlost h).trans ?_⟩
      rw [writeBack_lost_of_clean s h]
      rfl
    · exact ih (fun j hj => his j (by simp [hj])) s n

theorem onSectors_writeBackAll (s : State) (l : L2Line) (pc : Word) :
    OnSectors (fun j => j / 4 = l.la) s (s.writeBackAll l pc).1 :=
  (writeBackAll_foldl l pc (List.range 4) (by simp) s []).1

theorem writeBackAll_lost_of_clean (s : State) {l : L2Line} (h : l.flips = []) (pc : Word) : (s.writeBackAll l pc).2 = [] :=
  (writeBackAll_foldl l pc (List.range 4) (by simp) s []).2 h

/-- The lines of an address have left the L2: what else has changed are sectors of that line. -/
structure Evicted (la : Nat) (s t : State) : Prop where
  frame : t = { s with mem := t.mem, marks := t.marks, l2 := s.l2.filter (fun m => m.la != la), rel := t.rel, fresh := t.fresh }
  peek : ∀ a, a / 128 ≠ la → t.peek a = s.peek a
  canon : s.Canon → t.Canon

theorem lineAt_filter_ne {l2 : List L2Line} {la la' : Nat} (h : la' ≠ la) :
    (l2.filter fun m => m.la != la).find? (fun l => l.la == la') = l2.find? fun l => l.la == la' := by
  rw [List.find?_filter]
  congr 1
  funext m
  by_cases hm : m.la = la' <;> simp [hm, h]

theorem peek_dropLine (s : State) {la a : Nat} (ha : a / 128 ≠ la) : (s.dropLine la).peek a = s.peek a := by
  have hline : (s.dropLine la).lineAt (a / 32 / 4) = s.lineAt (a / 32 / 4) := lineAt_filter_ne (by omega)
  simp only [State.peek, State.peekSector, hline]
  rfl

theorem evicted_evict (s : State) (l : L2Line) (pc : Word) : Evicted l.la s (s.evict l pc).1 := by
  have hback := onSectors_writeBackAll s l pc
  have hquar : OnSectors (fun _ => False) ((s.writeBackAll l pc).1.dropLine l.la) (s.evict l pc).1 := by
    unfold State.evict
    dsimp only
    split
    · exact onSectors_quarantine _ _ _
    · exact OnSectors.refl _ _
  refine ⟨?_, fun a ha => ?_, fun h => hquar.canon (hback.canon h)⟩
  · rw [hquar.frame, State.dropLine, hback.frame]
  · rw [hquar.peek (by simp), peek_dropLine _ ha, hback.peek (by omega)]

theorem evict_lost_of_clean (s : State) {l : L2Line} (h : l.flips = []) (pc : Word) : (s.evict l pc).2 = [] :=
  writeBackAll_lost_of_clean s h pc

/-! ## A sector is written through the host's view (R398) -/

theorem onSectors_sense (s : State) (j : Nat) (want : Option Layout) : OnSectors (· = j) s (s.sense j want).1 := by
  unfold State.sense
  dsimp only
  generalize (if (s.word j).mends j = true then (s.word j).stamp else (s.word j).seen) = seen
  split
  · exact OnSectors.refl _ s
  split
  · exact OnSectors.refl _ s
  split
  · exact OnSectors.refl _ s
  split
  · exact OnSectors.refl _ s
  split
  · exact onSectors_setWord s j _
  split
  · exact OnSectors.refl _ s
  have hexamined := onSectors_examine (· = j) s (secKind (s.word j).stamp (s.word j).mark j) true (s.word j).flips (s.rawSector j)
  split
  · exact hexamined
  · exact hexamined

theorem onSectors_noteHbm (s : State) (j : Nat) (f : Finding) (pc : Word) : OnSectors (· = j) s (s.noteHbm j f pc) := by
  unfold State.noteHbm
  split
  · exact (onSectors_setWord s j _).trans (onSectors_log _ _ _ _ _ _ _ _)
  · exact onSectors_log _ _ _ _ _ _ _ _
  · exact onSectors_log _ _ _ _ _ _ _ _
  · exact OnSectors.refl _ s

theorem onSectors_loseUnowned (s : State) (j : Nat) (pc : Word) : OnSectors (· = j) s (s.loseUnowned j pc) :=
  ((onSectors_log _ s _ _ _ _ _ _).trans (onSectors_setWord _ j _)).trans (onSectors_retireFrame _ _ _)

theorem onSectors_readForMerge (s : State) (j : Nat) : OnSectors (· = j) s (s.readForMerge j).1 := by
  have hsense := onSectors_sense s j none
  unfold State.readForMerge
  split
  next u f d h =>
    rw [h] at hsense
    exact hsense.trans (onSectors_noteHbm u j f 0)
  next u h =>
    rw [h] at hsense
    exact hsense.trans (onSectors_loseUnowned u j 0)
  next u x _ _ h =>
    rw [h] at hsense
    exact hsense

/-- A write of a part of a sector reads it where it has to, and writes it whole with a stamp that is not the blank one. -/
theorem hdmSector_eq (s : State) (j lo hi x : Nat) : ∃ u old w, OnSectors (· = j) s u ∧ w.flips = [] ∧ w.stamp ≠ 0x3F ∧
    s.hdmSector none j lo hi x = u.writeSector j (mergeSector old lo hi x) w := by
  have hread : OnSectors (· = j) s (if lo = 0 ∧ hi = 32 then (s, 0) else s.readForMerge j).1 := by
    split
    · exact OnSectors.refl _ s
    · exact onSectors_readForMerge s j
  unfold State.hdmSector
  generalize (if lo = 0 ∧ hi = 32 then (s, (0 : BitVec 256)) else s.readForMerge j) = r at hread
  refine ⟨r.1, _, _, hread, rfl, ?_, rfl⟩
  dsimp only
  split
  · decide
  next hvoid =>
    intro hblank
    simp [hblank] at hvoid

theorem onSectors_hdmSector (s : State) (j lo hi x : Nat) : OnSectors (· = j) s (s.hdmSector none j lo hi x) := by
  obtain ⟨u, old, w, hu, -, -, heq⟩ := hdmSector_eq s j lo hi x
  rw [heq]
  exact hu.trans (onSectors_writeSector u j _ w)

theorem rawSector_writeSector {s : State} (h : s.Canon) (j : Nat) (d : BitVec 256) (w : SectorWord) :
    (s.writeSector j d w).rawSector j = d := by
  have hbytes : Memory.bytes (Memory.putBytes s.mem (32 * j) d.toNat 32) (32 * j) 32 = d.toNat % 256 ^ 32 :=
    Memory.bytes_putBytes h.1
  simp only [State.rawSector, State.writeSector, hbytes]
  apply BitVec.eq_of_toNat_eq
  rw [BitVec.toNat_ofNat, show (256 : Nat) ^ 32 = 2 ^ 256 by decide, Nat.mod_mod, Nat.mod_eq_of_lt d.isLt]

/-- A sector that no line holds reads as it was written, flipped nowhere. -/
theorem peekSector_writeSector {s : State} (h : s.Canon) {j : Nat} (hline : s.lineAt (j / 4) = none) (d : BitVec 256)
    {w : SectorWord} (hflips : w.flips = []) (hstamp : w.stamp ≠ 0x3F) : (s.writeSector j d w).peekSector j = d := by
  have hword : (s.writeSector j d w).word j = w := by
    rw [State.word, State.writeSector]
    exact cellGet_put_same h.2
  have hline' : (s.writeSector j d w).lineAt (j / 4) = none := by rwa [State.lineAt, State.writeSector]
  rw [State.peekSector, hline']
  dsimp only
  rw [hword, if_neg hstamp, hflips, rawSector_writeSector h]
  exact BitVec.xor_zero

theorem peek_hdmSector {s : State} (h : s.Canon) {j lo hi x i : Nat} (hline : s.lineAt (j / 4) = none) (hj : j < 2 ^ 35)
    (hi' : lo + i < hi) (hhi : hi ≤ 32) :
    (s.hdmSector none j lo hi x).peek (32 * j + (lo + i)) = BitVec.ofNat 8 (x / 256 ^ i) := by
  obtain ⟨u, old, w, hu, hflips, hstamp, heq⟩ := hdmSector_eq s j lo hi x
  have hlineU : u.lineAt (j / 4) = none := by rwa [State.lineAt, hu.l2]
  have hhbm : inHbm (32 * j + (lo + i)) = true := by
    rw [inHbm, decide_eq_true_eq]
    omega
  rw [heq, State.peek, if_pos hhbm, show (32 * j + (lo + i)) / 32 = j by omega, show (32 * j + (lo + i)) % 32 = lo + i by omega,
    peekSector_writeSector (hu.canon h) hlineU _ hflips hstamp, byte_mergeSector hi' hhi]

/-! ## Bytes are written through the host's view, sector by sector (R398) -/

/-- The line of the next sector leaves the L2 where it holds it. -/
def afterLine (s : State) (la : Nat) : State :=
  match s.lineAt la with
  | some l => (s.evict l 0).1
  | none => s

theorem lineAt_la {s : State} {la : Nat} {l : L2Line} (h : s.lineAt la = some l) : l.la = la ∧ l ∈ s.l2 := by
  have hfound := List.find?_some h
  exact ⟨by simpa using hfound, List.mem_of_find?_eq_some h⟩

theorem filter_la_of_lineAt_none {s : State} {la : Nat} (h : s.lineAt la = none) : s.l2.filter (fun m => m.la != la) = s.l2 := by
  rw [List.filter_eq_self]
  intro m hm
  simpa using List.find?_eq_none.1 h m hm

theorem evicted_afterLine (s : State) (la : Nat) : Evicted la s (afterLine s la) := by
  unfold afterLine
  split
  next l hl =>
    obtain ⟨rfl, -⟩ := lineAt_la hl
    exact evicted_evict s l 0
  next hl => exact ⟨by rw [filter_la_of_lineAt_none hl], fun _ _ => rfl, id⟩

theorem Evicted.lineAt {la : Nat} {s t : State} (h : Evicted la s t) : t.lineAt la = none := by
  rw [State.lineAt, h.frame, List.find?_eq_none]
  intro m hm
  simpa using (List.mem_filter.1 hm).2

/-- What a write of n bytes may change: memory and the lines that leave the L2 for it, with the log and the free values. -/
def OnlyMemory (s t : State) : Prop :=
  t = { s with mem := t.mem, marks := t.marks, l2 := t.l2, rel := t.rel, fresh := t.fresh }

theorem OnlyMemory.trans {s t u : State} (h : OnlyMemory s t) (h' : OnlyMemory t u) : OnlyMemory s u := by
  unfold OnlyMemory at *
  rw [h', h]

/-- `t` holds the n bytes of x at an address, and of the lines that they lie in nothing else is said. -/
structure Written (s t : State) (pa x n : Nat) : Prop where
  only : OnlyMemory s t
  lines : ∀ l ∈ t.l2, l ∈ s.l2
  canon : s.Canon → t.Canon
  peek : ∀ a, (∀ i, i < n → a / 32 ≠ (pa + i) / 32) → (s.lineAt (a / 128) = none ∨ ∀ i, i < n → a / 128 ≠ (pa + i) / 128) →
    t.peek a = s.peek a
  byte : s.Canon → ∀ i, i < n → t.peek (pa + i) = BitVec.ofNat 8 (x / 256 ^ i)

theorem written_zero (s : State) (pa x : Nat) : Written s s pa x 0 :=
  ⟨rfl, fun _ h => h, id, fun _ _ _ => rfl, fun _ i hi => by omega⟩

/-- Bytes outside local memory have no check words and no lines. -/
theorem written_outside {s : State} {pa x n : Nat} (h : inHbm pa = false) :
    Written s { s with mem := Memory.putBytes s.mem pa x n } pa x n where
  only := rfl
  lines _ hl := hl
  canon hs := ⟨Memory.putBytes_wf hs.1, hs.2⟩
  peek a ha _ := by
    have hbelow : 2 ^ 40 ≤ pa := by simpa [inHbm] using h
    have hout : ∀ c, (c < pa ∨ pa + n ≤ c) → Memory.get (Memory.putBytes s.mem pa x n) c = Memory.get s.mem c :=
      fun c hc => Memory.get_putBytes_out hc
    by_cases hhbm : inHbm a = true
    · have ha' : a < 2 ^ 40 := by simpa [inHbm] using hhbm
      have hraw : State.rawSector { s with mem := Memory.putBytes s.mem pa x n } (a / 32) = s.rawSector (a / 32) :=
        congrArg (BitVec.ofNat 256) (bytes_congr fun i hi => hout _ (.inl (by omega)))
      simp only [State.peek, hhbm, if_true, State.peekSector, hraw]
      rfl
    · simp only [State.peek, if_neg hhbm]
      refine hout a ?_
      by_contra hin
      exact ha (a - pa) (by omega) (by rw [show pa + (a - pa) = a by omega])
  byte hs i hi := by
    have hbelow : 2 ^ 40 ≤ pa := by simpa [inHbm] using h
    have hhbm : ¬inHbm (pa + i) = true := by
      rw [inHbm, decide_eq_true_eq]
      omega
    rw [State.peek, if_neg hhbm]
    exact get_putBytes_in hi hs.1

/-- A sector's part is written once its line has left, and then the rest. -/
theorem byte_mod (x : Nat) {i k : Nat} (hik : i < k) : BitVec.ofNat 8 (x % 256 ^ k / 256 ^ i) = BitVec.ofNat 8 (x / 256 ^ i) := by
  apply BitVec.eq_of_toNat_eq
  have hk : 256 ^ k = 256 ^ i * (256 * 256 ^ (k - i - 1)) := by
    rw [← Nat.pow_succ', ← Nat.pow_add]
    congr 1
    omega
  rw [BitVec.toNat_ofNat, BitVec.toNat_ofNat, hk, Nat.mod_mul_right_div_self]
  exact Nat.mod_mul_right_mod _ 256 _

theorem written_sector {s t u : State} {pa x n k : Nat} (hpa : inHbm pa = true) (hn : 0 < n) (hk : k = min n (32 - pa % 32))
    (ht : t = (afterLine s (pa / 128)).hdmSector none (pa / 32) (pa % 32) (pa % 32 + k) (x % 2 ^ (8 * k)))
    (hu : Written t u (pa + k) (x / 2 ^ (8 * k)) (n - k)) : Written s u pa x n := by
  have hpa' : pa < 2 ^ 40 := by simpa [inHbm] using hpa
  have hev := evicted_afterLine s (pa / 128)
  have hsec := onSectors_hdmSector (afterLine s (pa / 128)) (pa / 32) (pa % 32) (pa % 32 + k) (x % 2 ^ (8 * k))
  rw [← ht] at hsec
  have hl2 : t.l2 = s.l2.filter fun m => m.la != pa / 128 := by rw [hsec.l2, hev.frame]
  have hlines : ∀ l ∈ t.l2, l ∈ s.l2 := fun l hl => (List.mem_filter.1 (hl2 ▸ hl)).1
  have hheld : ∀ la, (s.lineAt la = none ∨ la = pa / 128) → t.lineAt la = none := by
    intro la hla
    rw [State.lineAt, hl2, List.find?_eq_none]
    intro m hm
    obtain ⟨hms, hne⟩ := List.mem_filter.1 hm
    obtain hnone | rfl := hla
    · exact List.find?_eq_none.1 hnone m hms
    · simpa using hne
  have hpow : 2 ^ (8 * k) = 256 ^ k := by rw [Nat.pow_mul]
  refine ⟨?_, fun l hl => hlines l (hu.lines l hl), fun h => hu.canon (hsec.canon (hev.canon h)), fun a ha hla => ?_, fun hs i hi => ?_⟩
  · refine OnlyMemory.trans ?_ hu.only
    unfold OnlyMemory
    rw [hsec.frame, hev.frame]
  · have hfirst : a / 32 ≠ pa / 32 := ha 0 hn
    have hrest : ∀ i, i < n - k → a / 32 ≠ (pa + k + i) / 32 := fun i hi => by
      have := ha (k + i) (by omega)
      rwa [← Nat.add_assoc] at this
    have hrestLines : t.lineAt (a / 128) = none ∨ ∀ i, i < n - k → a / 128 ≠ (pa + k + i) / 128 := by
      refine hla.imp (fun h => hheld _ (.inl h)) fun h i hi => ?_
      have := h (k + i) (by omega)
      rwa [← Nat.add_assoc] at this
    rw [hu.peek a hrest hrestLines, hsec.peek hfirst]
    obtain hnone | hne := hla
    · by_cases hsame : a / 128 = pa / 128
      · rw [afterLine, ← hsame, hnone]
      · exact hev.peek a hsame
    · exact hev.peek a (hne 0 hn)
  · by_cases hik : i < k
    · have hbyte := peek_hdmSector (hev.canon hs) (x := x % 2 ^ (8 * k)) (i := i)
        (by rw [show pa / 32 / 4 = pa / 128 by omega]; exact hev.lineAt) (by omega : pa / 32 < 2 ^ 35)
        (by omega : pa % 32 + i < pa % 32 + k) (by omega)
      rw [← ht, show 32 * (pa / 32) + (pa % 32 + i) = pa + i by omega] at hbyte
      have hkeep : u.peek (pa + i) = t.peek (pa + i) :=
        hu.peek _ (fun i' hi' => by omega) (.inl (hheld _ (.inr (by omega))))
      rw [hkeep, hbyte, hpow, byte_mod x hik]
    · have hbyte := hu.byte (hsec.canon (hev.canon hs)) (i - k) (by omega)
      rw [show pa + k + (i - k) = pa + i by omega, hpow, Nat.div_div_eq_div_mul, ← Nat.pow_add, show k + (i - k) = i by omega] at hbyte
      exact hbyte

/-- One sector's part of a write, and what is handed on as lost. -/
theorem hdmWrite_sector (fuel : Nat) (s : State) {pa n : Nat} (x : Nat) (lost : List (L2Line × List Nat)) (hn : 0 < n)
    (hpa : inHbm pa = true) : ∃ lost', ((∀ l ∈ s.l2, l.la = pa / 128 → l.flips = []) → lost' = lost) ∧
      s.hdmWrite none pa x n lost (fuel + 1) =
        ((afterLine s (pa / 128)).hdmSector none (pa / 32) (pa % 32) (pa % 32 + min n (32 - pa % 32))
          (x % 2 ^ (8 * min n (32 - pa % 32)))).hdmWrite none (pa + min n (32 - pa % 32)) (x / 2 ^ (8 * min n (32 - pa % 32)))
          (n - min n (32 - pa % 32)) lost' fuel := by
  rw [State.hdmWrite, if_neg (by omega), if_pos hpa]
  unfold afterLine
  cases hl : s.lineAt (pa / 128) with
  | none => exact ⟨lost, fun _ => rfl, rfl⟩
  | some l =>
    obtain ⟨hla, hmem⟩ := lineAt_la hl
    refine ⟨if (s.evict l 0).2.isEmpty then lost else lost ++ [(l, (s.evict l 0).2)], fun hclean => ?_, rfl⟩
    rw [evict_lost_of_clean s (hclean l hmem hla)]
    rfl

/-- A write with fuel for all its sectors (R398). -/
theorem written_hdmWrite (fuel : Nat) (s : State) (pa x n : Nat) (lost : List (L2Line × List Nat)) (hfuel : 0 < n → n + pa % 32 ≤ 32 * fuel) :
    Written s (s.hdmWrite none pa x n lost fuel).1 pa x n := by
  induction fuel generalizing s pa x n lost with
  | zero =>
    obtain rfl : n = 0 := by omega
    exact written_zero s pa x
  | succ fuel ih =>
    by_cases hn : n = 0
    · rw [State.hdmWrite, if_pos hn, hn]
      exact written_zero s pa x
    · by_cases hpa : inHbm pa = true
      · obtain ⟨lost', -, heq⟩ := hdmWrite_sector fuel s x lost (Nat.pos_of_ne_zero hn) hpa
        rw [heq]
        exact written_sector hpa (Nat.pos_of_ne_zero hn) rfl rfl (ih _ _ _ _ _ (by omega))
      · rw [State.hdmWrite, if_neg hn, if_neg hpa]
        exact written_outside (by simpa using hpa)

/-- Lines without errors are not lost as they leave the L2 for a write. -/
theorem hdmWrite_lost_of_clean (fuel : Nat) (s : State) (pa x n : Nat) (lost : List (L2Line × List Nat))
    (hclean : ∀ l ∈ s.l2, ∀ i, i < n → l.la = (pa + i) / 128 → l.flips = []) : (s.hdmWrite none pa x n lost fuel).2 = lost := by
  induction fuel generalizing s pa x n lost with
  | zero => rfl
  | succ fuel ih =>
    by_cases hn : n = 0
    · rw [State.hdmWrite, if_pos hn]
    · by_cases hpa : inHbm pa = true
      · obtain ⟨lost', hlost, heq⟩ := hdmWrite_sector fuel s x lost (Nat.pos_of_ne_zero hn) hpa
        rw [heq, ih, hlost fun l hl hla => hclean l hl 0 (Nat.pos_of_ne_zero hn) hla]
        intro l hl i hi hla
        rw [(onSectors_hdmSector _ _ _ _ _).l2, (evicted_afterLine s _).frame] at hl
        refine hclean l (List.mem_filter.1 hl).1 (min n (32 - pa % 32) + i) (by omega) ?_
        rwa [← Nat.add_assoc]
      · rw [State.hdmWrite, if_neg hn, if_neg hpa]

/-- A record of the device, on dies in service and over lines without errors, is written and ends no context (R360, R371). -/
theorem putRecord_eq {s : State} {pa x n : Nat} (hout : s.spanOut pa n = false)
    (hclean : ∀ l ∈ s.l2, ∀ i, i < n → l.la = (pa + i) / 128 → l.flips = []) :
    s.putRecord pa x n = (s.hdmWrite none pa x n [] (n / 32 + 2)).1 := by
  rw [State.putRecord, hout, if_neg Bool.false_ne_true, State.hdmPut]
  dsimp only
  rw [hdmWrite_lost_of_clean _ s pa x n [] hclean]
  rfl

theorem written_putRecord {s : State} {pa x n : Nat} (hout : s.spanOut pa n = false)
    (hclean : ∀ l ∈ s.l2, ∀ i, i < n → l.la = (pa + i) / 128 → l.flips = []) : Written s (s.putRecord pa x n) pa x n := by
  rw [putRecord_eq hout hclean]
  exact written_hdmWrite _ s pa x n [] (by omega)

end Sys2Proof.Laws
end

section
/-! SUPPORT. Traps, and what comes of one inside a handler (R348, R352, R360). -/

namespace Sys2Proof.Laws

open Sys2Proof.Machine

/-! ## Taking a trap (R348) -/

/-- What is in flight on EX lands before a trap of EX (R96). -/
def landedOn (k : Core) (q : Seq) : Core := if q = .ex then k.settle else k

theorem onlyLands_landedOn (k : Core) (q : Seq) : OnlyLands k (landedOn k q) := by
  unfold landedOn
  split
  · exact onlyLands_settle k
  · exact onlyLands_ex k _ _ _ _ _

theorem seq_landedOn_ne (k : Core) {q r : Seq} (hr : r ≠ q) : (landedOn k q).seq r = k.seq r := by
  unfold landedOn
  split
  next hq => exact seq_settle_ne k (hq ▸ hr)
  · rfl

theorem seq_landedOn (k : Core) (q : Seq) : (landedOn k q).seq q = { k.seq q with regs := ((landedOn k q).seq q).regs } := by
  by_cases hq : q = .ex
  · rw [hq]
    exact (onlyLands_landedOn k .ex).mine
  · rw [(onlyLands_landedOn k q).others q hq]

/-- Outside a handler the trap is taken; a trap of CTL starts a window of its checker (R378). -/
theorem takeTrap_eq {s : State} (hin : s.me.inTrap = false) (c : Cause) (epc tval : Word) : ∃ f : Core → Core,
    s.takeTrap c epc tval = s.mod (fun k => f ((landedOn k s.cur.2).onSeq s.cur.2 fun q => q.enterTrap c epc tval)) ∧
    ∀ k, ∃ chk, f k = { k with chk := chk } := by
  have hst : ((s.core s.cur.1).seq s.cur.2).inTrap = false := hin
  unfold State.takeTrap State.trapAt landedOn
  dsimp only
  rw [if_neg (by simp [hst])]
  by_cases hctl : s.cur.2 = .ctl
  · have hex : s.cur.2 ≠ .ex := by simp [hctl]
    rw [if_pos hctl, if_neg hex, State.checkpoint]
    simp only [if_neg hex]
    split
    · exact ⟨Core.checkpoint, mod_mod s _ _, fun k => ⟨_, rfl⟩⟩
    · exact ⟨id, rfl, fun k => ⟨k.chk, rfl⟩⟩
  · rw [if_neg hctl]
    refine ⟨id, ?_, fun k => ⟨k.chk, rfl⟩⟩
    by_cases hex : s.cur.2 = .ex
    · simp only [if_pos hex]
      exact mod_mod s _ _
    · simp only [if_neg hex]
      rfl

/-- The current sequencer takes a trap outside a handler. -/
theorem traps_takeTrap {s : State} (hin : s.me.inTrap = false) (c : Cause) (epc tval : Word) :
    Traps s (s.takeTrap c epc tval) c epc tval := by
  obtain ⟨f, heq, hf⟩ := takeTrap_eq hin c epc tval
  obtain ⟨chk, hchk⟩ := hf ((landedOn s.here s.cur.2).onSeq s.cur.2 fun q => q.enterTrap c epc tval)
  have hhere : (s.takeTrap c epc tval).here =
      { (landedOn s.here s.cur.2).onSeq s.cur.2 fun q => q.enterTrap c epc tval with chk := chk } := by
    rw [heq, State.here_mod, hchk]
  have hseq : ∀ q, (s.takeTrap c epc tval).here.seq q =
      ((landedOn s.here s.cur.2).onSeq s.cur.2 fun q => q.enterTrap c epc tval).seq q := by
    intro q
    rw [hhere]
    rfl
  have hme : (s.takeTrap c epc tval).me = ((landedOn s.here s.cur.2).seq s.cur.2).enterTrap c epc tval := by
    rw [State.me, show (s.takeTrap c epc tval).cur = s.cur by rw [heq, State.mod_cur], hseq, Core.seq_onSeq]
  have hregs : (s.takeTrap c epc tval).me.regs = ((landedOn s.here s.cur.2).seq s.cur.2).regs := by
    rw [hme, SeqSt.enterTrap_regs]
  refine ⟨?_, fun q hne => ?_, ?_, ?_, ?_, fun hne => ?_, fun hex => ?_⟩
  · rw [heq]
    exact onlyCore_mod _ _
  · rw [hseq, Core.seq_onSeq_ne _ _ _ _ hne, seq_landedOn_ne _ hne]
  · rw [heq]
    exact sameBytes_mod _ _
  · rw [hhere, Core.onSeq, (onlyLands_landedOn _ _).core]
  · rw [hregs, hme, SeqSt.enterTrap_goto, seq_landedOn]
    rfl
  · rw [hregs, hhere, landedOn, if_neg hne]
    exact ⟨rfl, rfl⟩
  · rw [hregs, hhere, landedOn, if_pos hex, hex]
    exact ⟨rfl, rfl⟩

/-! ## A violation freezes the sequencer (R360) -/

theorem core_of_onlyMemory {s t : State} (h : OnlyMemory s t) (c : CoreId) : t.core c = s.core c := by
  rw [h]
  rfl

/-- A sequencer is frozen, and the record of its violation is written over lines without errors. -/
theorem freezes_violate (s : State) (kind : VKind) (target : Word) : Freezes s (s.violate kind target) kind target := by
  rintro ⟨hout, hclean⟩
  generalize hv : s.offence kind target = v
  generalize hr : State.modMe { s with vlhead := s.vlhead + 1, vpend := s.vpend ++ [(s.vlhead, v)] }
    (fun q => { q with run := .frozen v }) = r
  have hrec : s.violate kind target = r.putRecord s.recordAt v.record 32 := by
    rw [← hr, ← hv]
    rfl
  have hw : Written r (s.violate kind target) s.recordAt v.record 32 := by
    rw [hrec]
    refine written_putRecord ?_ ?_
    · rw [← hr]
      exact hout
    · rw [← hr]
      exact fun l hl i hi => hclean l hl i hi
  have hcur : (s.violate kind target).cur = s.cur := by
    rw [hw.only, ← hr]
    rfl
  have hhere : (s.violate kind target).here = s.here.onSeq s.cur.2 fun q => { q with run := .frozen v } := by
    rw [State.here, hcur, core_of_onlyMemory hw.only, ← hr]
    exact State.core_onCore _ _ _
  have hpeek : ∀ a, r.peek a = s.peek a := fun a => by rw [← hr]; rfl
  refine ⟨?_, fun q hne => ?_, ?_, fun d hd => ?_, ?_, ?_, fun hs => ⟨fun i hi => ?_, fun a ha => ?_⟩⟩
  · rw [State.me, hcur, hhere, Core.seq_onSeq]
    rfl
  · rw [hhere, Core.seq_onSeq_ne _ _ _ _ hne]
  · rw [hhere]
    rfl
  · rw [core_of_onlyMemory hw.only, ← hr]
    exact State.core_onCore_ne _ _ _ _ hd
  · rw [hw.only, ← hr]
    rfl
  · rw [hw.only, ← hr]
    rfl
  · exact hw.byte (by rw [← hr]; exact hs) i hi
  · rw [hw.peek a (fun i hi => ?_) (.inr ha), hpeek]
    have := ha i hi
    omega

/-- Inside a handler no trap is taken: the sequencer is frozen for a double trap (R348). -/
theorem freezes_takeTrap {s : State} (hin : s.me.inTrap = true) (c : Cause) (epc tval : Word) :
    Freezes s (s.takeTrap c epc tval) .doubleTrap 0 := by
  have hst : ((s.core s.cur.1).seq s.cur.2).inTrap = true := hin
  have heq : s.takeTrap c epc tval = s.violate .doubleTrap 0 := by
    unfold State.takeTrap State.trapAt
    dsimp only
    rw [if_pos hst]
    rfl
  rw [heq]
  exact freezes_violate s _ _

/-! ## Traps that come before an instruction (R69, R81, R308, R349, R375) -/

theorem exec_decodeTrap (c : Cause) (w : Word) (s : State) : exec (.decodeTrap c w) s = .next (s.takeTrap c s.me.pc w) := rfl

theorem exec_yieldBoundExceeded (s : State) : exec .yieldBoundExceeded s =
    .next ((s.mod fun k => { k with ex := { k.ex with ycnt := 0 } }).takeTrap .yieldBoundExceeded s.me.pc s.here.ex.ycnt) := rfl

theorem modMe_modMe (s : State) (f g : SeqSt → SeqSt) : (s.modMe f).modMe g = s.modMe fun q => g (f q) := by
  rw [State.modMe, State.modMe, mod_mod, State.modMe]
  congr 1
  funext k
  simp [Core.onSeq]

theorem exec_severityTrap {c : Cause} {va : Word} {s : State} (h : s.me.sevTrap = some (c, va)) : exec .severityTrap s =
    .next ((s.modMe fun q => { q with sevTrap := none, copy := none, gvi := none }).takeTrap c s.me.pc va) := by
  have hexec : exec .severityTrap s = execSeverityTrap s := rfl
  rw [hexec, execSeverityTrap, h]
  dsimp only
  rw [State.leaveWait, modMe_modMe]

theorem exec_engineFaultDelivery {c : Cause} {m : EngCmd} {s : State} (hh : s.here.gath.halted = some c)
    (hm : s.here.gath.cur = some m) : exec .engineFaultDelivery s =
      .next (((s.mod fun k => { k with engFault := false }).modMe fun q => { q with copy := none, gvi := none }).takeTrap c s.me.pc m.pc) := by
  have hexec : exec .engineFaultDelivery s = execEngineFaultDelivery s := rfl
  rw [hexec, execEngineFaultDelivery, hh, hm]
  rfl

theorem onlyLands_ycnt {k k' : Core} (h : OnlyLands k k') : k'.ex.ycnt = k.ex.ycnt := by rw [h.core]

/-- Settles O20: each of them takes a trap of the current sequencer, which inside a handler is the violation "double trap". -/
theorem trapsBeforeInstructions : Obligations.TrapsBeforeInstructions := by
  unfold Obligations.TrapsBeforeInstructions
  refine ⟨fun c w s hin => ⟨_, exec_decodeTrap c w s, traps_takeTrap hin _ _ _⟩,
    fun c w s hin => ⟨_, exec_decodeTrap c w s, freezes_takeTrap hin _ _ _⟩, fun s hq hin => ?_, fun c va s hin h => ?_,
    fun c m s _ hin hh hm => ?_, fun c va s hin h => ?_, fun c m s _ hin hh hm => ?_⟩
  · have hin' : (s.mod fun k => { k with ex := { k.ex with ycnt := 0 } }).me.inTrap = false := by
      rwa [State.me, State.here_mod]
    have htraps := traps_takeTrap hin' .yieldBoundExceeded s.me.pc s.here.ex.ycnt
    refine ⟨_, exec_yieldBoundExceeded s, ?_, htraps⟩
    obtain ⟨-, -, -, -, -, -, hex⟩ := htraps
    rw [(hex hq).2, onlyLands_ycnt (onlyLands_settle _), State.here_mod]
  · exact ⟨_, exec_severityTrap h, traps_takeTrap (by rwa [State.me_modMe]) _ _ _⟩
  · refine ⟨_, exec_engineFaultDelivery hh hm, traps_takeTrap ?_ _ _ _⟩
    rw [State.me_modMe, State.me, State.here_mod]
    exact hin
  · exact ⟨_, exec_severityTrap h, freezes_takeTrap (by rwa [State.me_modMe]) _ _ _⟩
  · refine ⟨_, exec_engineFaultDelivery hh hm, freezes_takeTrap ?_ _ _ _⟩
    rw [State.me_modMe, State.me, State.here_mod]
    exact hin

end Sys2Proof.Laws
end

section
/-! SUPPORT. Decisions on violations (R360, R361): what a master that goes on is at. -/

namespace Sys2Proof.Laws

open Sys2Proof.Machine

/-! ## The decision (R360, R404) -/

theorem exec_vdecRetry (i : Byte) (s : State) : exec (.vdecRetry i) s = .next (s.decide i fun v s => s.thaw v false) := rfl

theorem exec_vdecSkip (i : Byte) (s : State) : exec (.vdecSkip i) s = .next (s.decide i fun v s => s.thaw v true) := rfl

theorem exec_vdecTerminate (i : Byte) (s : State) :
    exec (.vdecTerminate i) s = .next (s.decide i fun v s => s.terminate v.ctx) := rfl

theorem decide_of_none {i : Byte} {s : State} (h : s.mgst < 2 ∨ ∀ p ∈ s.vpend, p.1 % 256 ≠ i.toNat)
    (f : Violation → State → State) : s.decide i f = s := by
  have hnone : (if s.pfUp then s.pendingAt i else none) = none := by
    split
    next hup =>
      obtain hlow | hall := h
      · simp only [State.pfUp, decide_eq_true_eq] at hup
        omega
      · exact List.find?_eq_none.2 fun p hp => by simpa using hall p hp
    · rfl
  rw [State.decide, hnone]

/-- The violations without the one that a decision takes. -/
def decided (s : State) (n : Nat) : State := { s with vpend := s.vpend.filter fun p => p.1 != n }

theorem decide_of_found {i : Byte} {s : State} {pre post : List (Nat × Violation)} {n : Nat} {v : Violation}
    (hsplit : s.vpend = pre ++ (n, v) :: post) (hpre : ∀ p ∈ pre, p.1 % 256 ≠ i.toNat) (hn : n % 256 = i.toNat) (hup : 2 ≤ s.mgst)
    (f : Violation → State → State) : s.decide i f = f v (decided s n) := by
  have hfound : s.pendingAt i = some (n, v) := by
    rw [State.pendingAt, hsplit, List.find?_append, List.find?_eq_none.2 fun p hp => by simpa using hpre p hp]
    simp [hn]
  rw [State.decide, State.pfUp, if_pos (by simpa using hup), hfound]
  rfl

theorem onCore_congr {s : State} {c : CoreId} {f g : Core → Core} (h : f (s.core c) = g (s.core c)) : s.onCore c f = s.onCore c g := by
  rw [State.onCore, State.onCore, show f s.cores[c] = g s.cores[c] from h]

theorem onCore_onCore (s : State) (c : CoreId) (f g : Core → Core) : (s.onCore c f).onCore c g = s.onCore c fun k => g (f k) := by
  simp [State.onCore]

theorem freezePub_of_nil {k : Core} (h : k.heldPubs = []) : k.freezePub = k := by
  unfold Core.freezePub
  rw [h]
  split
  · rfl
  · rfl
  next heq _ => cases heq

/-! ## A sequencer goes on -/

/-- A sequencer past the instruction that it was at (R360, R385). -/
def pastInstr (w : Word) (st : SeqSt) : SeqSt := SeqSt.goto { st with run := .running, wait := .none } (st.pc + passedBy w)

/-- A core whose instruction of EX has been passed over: its slot and its clk are taken (R81; log 73). -/
def pastOnEx (k : Core) (w : Word) (clk : Nat) : Core := (((k.onSeq .ex (pastInstr w)).countSlot (ypOf w)).holdEx clk 1).nextSlot

/-- A core whose instruction of CTL has been passed over, which its checker's log holds (R378). -/
def pastOnCtl (k : Core) (w : Word) (checking : Bool) : Core :=
  if checking then ((k.onSeq .ctl (pastInstr w)).addLog [.word w, .skipped] 0).logFull else k.onSeq .ctl (pastInstr w)

section
variable {s : State} {v : Violation} (hv : v.master = 0)
include hv

/-- A publication write that the violation holds is decided (R360). -/
theorem thaw_of_held {a b : List HeldPub} {h : HeldPub} (hsplit : (s.core v.core).heldPubs = a ++ h :: b) (ha : ∀ x ∈ a, x.viol ≠ v)
    (hh : h.viol = v) (skip : Bool) : s.thaw v skip = s.decidePub h skip := by
  have h0 : v.master.toNat = 0 := by rw [hv]; rfl
  have hfind : (s.core v.core).heldPubs.find? (fun h => h.viol == v) = some h := by
    rw [hsplit, List.find?_append, List.find?_eq_none.2 fun x hx => by simpa using ha x hx]
    simp [hh]
  rw [State.thaw, h0]
  dsimp only
  rw [hfind]
  rfl

variable {q : Seq} (hq : q = Seq.ofNum (v.unit.extractLsb' 0 2).toFin) (hheld : ∀ h ∈ (s.core v.core).heldPubs, h.viol ≠ v)
include hq hheld

theorem thaw_of_not_frozen (hrun : ((s.core v.core).seq q).run ≠ .frozen v) (skip : Bool) : s.thaw v skip = s := by
  have h0 : v.master.toNat = 0 := by rw [hv]; rfl
  have hfind : (s.core v.core).heldPubs.find? (fun h => h.viol == v) = none :=
    List.find?_eq_none.2 fun x hx => by simpa using hheld x hx
  rw [State.thaw, h0]
  dsimp only
  rw [hfind, ← hq]
  dsimp only
  rw [if_pos hrun]
  rfl

variable (hrun : ((s.core v.core).seq q).run = .frozen v) (hst : q = .st → (s.core v.core).heldPubs = [])
include hrun hst

theorem thaw_retry : s.thaw v false = s.onCore v.core fun k => k.onSeq q fun st => { st with run := .running } := by
  have h0 : v.master.toNat = 0 := by rw [hv]; rfl
  have hfind : (s.core v.core).heldPubs.find? (fun h => h.viol == v) = none :=
    List.find?_eq_none.2 fun x hx => by simpa using hheld x hx
  have hfreeze : ∀ f, (if q = .st then ((s.core v.core).onSeq q f).freezePub else (s.core v.core).onSeq q f) =
      (s.core v.core).onSeq q f := by
    intro f
    split
    next h => exact freezePub_of_nil (hst h)
    · rfl
  rw [State.thaw, h0]
  dsimp only
  rw [hfind, ← hq]
  dsimp only
  rw [if_neg (by simp [hrun])]
  exact onCore_congr (hfreeze _)

theorem thaw_skip {w0 w1 : Word} (hfetch : (s.core v.core).fetch (s.core v.core).ctx ((s.core v.core).seq q).pc = some (w0, w1)) :
    s.thaw v true = s.onCore v.core fun k =>
      if q = .ex then pastOnEx k w0 (s.clkOf v.core)
      else if q = .ctl then pastOnCtl k w0 s.checking
      else k.onSeq q (pastInstr w0) := by
  have h0 : v.master.toNat = 0 := by rw [hv]; rfl
  have hfind : (s.core v.core).heldPubs.find? (fun h => h.viol == v) = none :=
    List.find?_eq_none.2 fun x hx => by simpa using hheld x hx
  have hfreeze : ∀ f, (if q = .st then ((s.core v.core).onSeq q f).freezePub else (s.core v.core).onSeq q f) =
      (s.core v.core).onSeq q f := by
    intro f
    split
    next h => exact freezePub_of_nil (hst h)
    · rfl
  rw [State.thaw, h0]
  dsimp only
  rw [hfind, ← hq]
  dsimp only
  rw [if_neg (by simp [hrun])]
  refine onCore_congr ?_
  simp only [hfetch, hfreeze, Option.map_some, Option.getD_some, Bool.not_true, Bool.false_eq_true, if_false, if_true]
  by_cases hex : q = .ex
  · rw [if_pos hex, if_pos hex, pastOnEx, hex]
    rfl
  · rw [if_neg hex, if_neg hex]
    by_cases hctl : q = .ctl
    · rw [if_pos hctl, pastOnCtl, hctl]
      cases s.checking <;> rfl
    · rw [if_neg hctl, if_neg (by simp [hctl])]
      rfl

end

/-! ### An instruction that is passed over -/

theorem pastOnCtl_eq (k : Core) (w : Word) (checking : Bool) :
    pastOnCtl k w checking = { k.onSeq .ctl (pastInstr w) with chk := (pastOnCtl k w checking).chk } := by
  unfold pastOnCtl Core.logFull
  split
  · split <;> rfl
  · rfl

/-- The core as the instruction of EX is passed over, before its slot is counted and what is due lands. -/
def passingEx (k : Core) (w : Word) (clk : Nat) : Core := ((k.onSeq .ex (pastInstr w)).countSlot (ypOf w)).holdEx clk 1

theorem passingEx_eq (k : Core) (w : Word) (clk : Nat) : passingEx k w clk = { k.onSeq .ex (pastInstr w) with
    ex := { k.ex with
      free := max k.ex.free (clk + 1)
      ycnt := if (k.seq .ex).inTrap = true ∨ k.divert ≠ none then k.ex.ycnt else if ypOf w = true then 1 else k.ex.ycnt + 1 } } := by
  have hin : (pastInstr w (k.seq .ex)).inTrap = (k.seq .ex).inTrap := by rw [pastInstr, SeqSt.goto_frame]
  rw [passingEx, Core.countSlot, Core.seq_onSeq, hin, show (k.onSeq .ex (pastInstr w)).divert = k.divert from rfl]
  by_cases h : (k.seq .ex).inTrap = true ∨ k.divert ≠ none
  · rw [if_pos (by simpa [Option.isSome_iff_ne_none] using h), if_pos h]
    rfl
  · rw [if_neg (by simpa [Option.isSome_iff_ne_none] using h), if_neg h]
    rfl

/-- What passing over an instruction of EX changes. -/
theorem pastOnEx_spec (k : Core) (w : Word) (clk : Nat) :
    pastOnEx k w clk = { k with seqs := (pastOnEx k w clk).seqs, ex := (pastOnEx k w clk).ex } ∧
    (∀ x, x ≠ .ex → (pastOnEx k w clk).seq x = k.seq x) ∧
    (pastOnEx k w clk).seq .ex = { pastInstr w (k.seq .ex) with regs := ((pastOnEx k w clk).seq .ex).regs } ∧
    (pastOnEx k w clk).ex.slot = k.ex.slot + 1 ∧ (pastOnEx k w clk).ex.free = max k.ex.free (clk + 1) ∧
    (pastOnEx k w clk).ex.ycnt = if (k.seq .ex).inTrap = true ∨ k.divert ≠ none then k.ex.ycnt
      else if ypOf w = true then 1 else k.ex.ycnt + 1 := by
  have hlands : OnlyLands (passingEx k w clk) (pastOnEx k w clk) := onlyLands_nextSlot _
  have hpassing := passingEx_eq k w clk
  have hseq : ∀ x, (passingEx k w clk).seq x = (k.onSeq .ex (pastInstr w)).seq x := fun x => by
    rw [hpassing]
    rfl
  refine ⟨?_, fun x hx => ?_, ?_, ?_, ?_, ?_⟩
  · rw [hlands.core, hpassing]
    rfl
  · rw [hlands.others x hx, hseq, Core.seq_onSeq_ne _ _ _ _ hx]
  · rw [hlands.mine, hseq, Core.seq_onSeq]
  · rw [pastOnEx, nextSlot_slot, ← passingEx, hpassing]
  · rw [hlands.core, hpassing]
  · rw [hlands.core, hpassing]

/-! ## An engine or a host function goes on -/

/-- The number of an engine among masters (R360). -/
def masterOf : Engine → BitVec 8
  | .tensor => 1
  | .gather => 2
  | .code => 3
  | .stage => 4

theorem onEngine_masterOf (k : Core) (e : Engine) (f : EngQ → EngQ) : k.onEngine (masterOf e) f = k.setEngine e (f (k.engine e)) := by
  cases e <;> rfl

theorem setEngine_setEngine (k : Core) (e : Engine) (x y : EngQ) : (k.setEngine e x).setEngine e y = k.setEngine e y := by
  cases e <;> rfl

theorem engine_setEngine (k : Core) (e : Engine) (x : EngQ) : (k.setEngine e x).engine e = x := by
  cases e <;> rfl

/-- A queue that its violation no longer freezes. -/
def thawedQ (v : Violation) (x : EngQ) : EngQ := if x.frozen = some v then { x with frozen := none } else x

theorem thawedQ_cmds (v : Violation) (x : EngQ) : (thawedQ v x).cmds = x.cmds := by
  unfold thawedQ
  split <;> rfl

/-- The command that a queue stands at is the first that has not ended. -/
theorem onCur_of_split {x : EngQ} {a b : List EngCmd} {m : EngCmd} (hsplit : x.cmds = a ++ m :: b) (ha : ∀ y ∈ a, y.ended = true)
    (hm : m.ended = false) (f : EngCmd → EngCmd) : x.onCur f = { x with cmds := a ++ f m :: b } := by
  have hspan : x.cmds.span (fun m => m.ended) = (a, m :: b) := by
    rw [List.span_eq_takeWhile_dropWhile, hsplit, List.takeWhile_append_of_pos ha, List.dropWhile_append_of_pos ha]
    simp [hm]
  rw [EngQ.onCur, hspan]

section
variable {s : State} {v : Violation} {e : Engine} (hv : v.master = masterOf e)
include hv

theorem thaw_engine (skip : Bool) : s.thaw v skip =
    (let t := s.onCore v.core fun k => k.setEngine e (thawedQ v (k.engine e))
    if v.kind = .foreignHitch then (if skip then t else t.arriveAs v.core v.master v.ctx v.pc v.target)
    else t.onCore v.core fun k => k.onEngine v.master fun x => x.onCur fun m =>
      let m := m.waitsFrom t.gtb.toNat
      if skip then m.passed else m) := by
  have hon : ∀ k : Core, k.onEngine v.master (thawedQ v) = k.setEngine e (thawedQ v (k.engine e)) := fun k => by
    rw [hv, onEngine_masterOf]
  simp only [← hon]
  have hnat : v.master.toNat = 1 ∨ v.master.toNat = 2 ∨ v.master.toNat = 3 ∨ v.master.toNat = 4 := by
    rw [hv]
    cases e <;> simp [masterOf]
  unfold State.thaw
  dsimp only
  split
  · omega
  · omega
  · rfl

/-- An arrival on another's hitch is made again, or not (R210, R360). -/
theorem thaw_engine_hitch (hk : v.kind = .foreignHitch) :
    s.thaw v true = s.onCore v.core (fun k => k.setEngine e (thawedQ v (k.engine e))) ∧
    s.thaw v false = (s.onCore v.core fun k => k.setEngine e (thawedQ v (k.engine e))).arriveAs v.core v.master v.ctx v.pc v.target := by
  rw [thaw_engine hv, thaw_engine hv]
  exact ⟨by simp [hk], by simp [hk]⟩

/-- The engine goes on at its command, which takes up anew or is passed over. -/
theorem thaw_engine_cmd (hk : v.kind ≠ .foreignHitch) {a b : List EngCmd} {m : EngCmd}
    (hsplit : ((s.core v.core).engine e).cmds = a ++ m :: b) (ha : ∀ y ∈ a, y.ended = true) (hm : m.ended = false) (skip : Bool) :
    s.thaw v skip = s.onCore v.core fun k => k.setEngine e { thawedQ v (k.engine e) with
      cmds := a ++ (if skip then (m.waitsFrom s.gtb.toNat).passed else m.waitsFrom s.gtb.toNat) :: b } := by
  rw [thaw_engine hv]
  dsimp only
  rw [if_neg hk, onCore_onCore]
  refine onCore_congr ?_
  rw [hv, onEngine_masterOf, setEngine_setEngine, engine_setEngine,
    onCur_of_split ((thawedQ_cmds v _).trans hsplit) ha hm]
  rfl

end

theorem thaw_vf {s : State} {v : Violation} (hv : v.master = 5) {vf : Fin 64} (hvf : vf.val = v.place.toNat % 64) (skip : Bool) :
    s.thaw v skip = { s with vfs := s.vfs.set vf { s.vfs[vf] with frozen := none } } := by
  obtain rfl : vf = ⟨v.place.toNat % 64, Nat.mod_lt _ (by decide)⟩ := Fin.ext hvf
  have h5 : v.master.toNat = 5 := by rw [hv]; rfl
  rw [State.thaw, h5]
  rfl

/-! ### A command that is passed over (R308, R360) -/

theorem waitsFrom_of_coll {m : EngCmd} {o : CCmd} (h : m.op = .coll o) (now : Nat) : m.waitsFrom now = { m with since := now } := by
  rw [EngCmd.waitsFrom, h]

theorem waitsFrom_of_ne {m : EngCmd} (h : ∀ o, m.op ≠ .coll o) (now : Nat) : m.waitsFrom now = m := by
  unfold EngCmd.waitsFrom
  split
  next o ho => exact absurd ho (h o)
  · rfl

theorem passed_of_coll {m : EngCmd} {o : CCmd} (h : m.op = .coll o) : m.passed = { m with ended := true } := by
  rw [EngCmd.passed, h]
  rfl

theorem passed_of_pool {m : EngCmd} {o : CCmd} (h : m.op = .pool o) : m.passed =
    if m.pool.full = true then { m with pool := ⟨m.pool.bag + 1, 0, false, []⟩ }
    else { m with pool := { m.pool with n := m.pool.n + 1 }, done := m.done + 1 } := by
  have hpassed : m.passed = { m with pool := m.pool.passed, done := if m.pool.full then m.done else m.done + 1 } := by
    rw [EngCmd.passed, h]
    rfl
  rw [hpassed, PoolAt.passed]
  by_cases hfull : m.pool.full = true
  · rw [if_pos hfull, if_pos hfull, if_pos hfull]
  · rw [if_neg hfull, if_neg hfull, if_neg hfull]

theorem passed_of_elements {m : EngCmd} (hq : queueOf m.op = some 2) (hcoll : ∀ o, m.op ≠ .coll o) (hpool : ∀ o, m.op ≠ .pool o) :
    m.passed = { m with done := m.done + 1 } := by
  unfold EngCmd.passed
  rw [hq]
  split
  next o _ ho => exact absurd ho (hcoll o)
  next o _ ho => exact absurd ho (hpool o)
  · rfl
  next hno _ _ => exact absurd rfl hno

theorem passed_of_other {m : EngCmd} (hq : queueOf m.op ≠ some 2) : m.passed = { m with ended := true } := by
  unfold EngCmd.passed
  split
  next h _ => exact absurd h hq
  next h _ => exact absurd h hq
  next h _ _ => exact absurd h hq
  · rfl

/-- A command of an engine that has been passed over: the gather engine's go by elements, but for a COLL (R308, R326, R360). -/
def passedOver (e : Engine) (m : EngCmd) (now : Nat) : EngCmd :=
  match e, m.op with
  | .gather, .coll _ => { m with since := now, ended := true }
  | .gather, .pool _ => if m.pool.full = true then { m with pool := ⟨m.pool.bag + 1, 0, false, []⟩ }
    else { m with pool := { m.pool with n := m.pool.n + 1 }, done := m.done + 1 }
  | .gather, _ => { m with done := m.done + 1 }
  | _, _ => { m with ended := true }

theorem passed_waitsFrom {m : EngCmd} {e : Engine} (hq : queueOf m.op = some (masterOf e)) (now : Nat) :
    (m.waitsFrom now).passed = passedOver e m now := by
  unfold passedOver
  by_cases he : e = .gather
  · subst he
    replace hq : queueOf m.op = some 2 := hq
    split
    next o ho => rw [waitsFrom_of_coll ho, passed_of_coll (by exact ho)]
    next o ho => rw [waitsFrom_of_ne (by simp [ho]), passed_of_pool ho]
    next hc hp => rw [waitsFrom_of_ne hc, passed_of_elements hq hc hp]
    next hne _ _ => exact absurd rfl hne
  · have hne : queueOf m.op ≠ some 2 := by
      rw [hq]
      cases e <;> simp_all [masterOf]
    have hcoll : ∀ o, m.op ≠ .coll o := by
      intro o ho
      rw [ho] at hne
      exact hne rfl
    rw [waitsFrom_of_ne hcoll, passed_of_other hne]
    cases e with
    | gather => exact absurd rfl he
    | _ => rfl

end Sys2Proof.Laws
end

section
/-! SUPPORT. Termination of a context (R361) and VF reset (R362, R403): what goes with a context and what stays. -/

namespace Sys2Proof.Laws

open Sys2Proof.Machine

/-! ## A core, a cluster and a slice without a context (R361) -/

theorem core_terminate (s : State) (ctx : Ctx) (c : CoreId) : (s.terminate ctx).core c = (s.core c).terminate ctx := by
  simp [State.core, State.terminate]

theorem terminate_frame (s : State) (ctx : Ctx) : s.terminate ctx = { s with
    cores := (s.terminate ctx).cores
    clusters := (s.terminate ctx).clusters
    swaps := (s.terminate ctx).swaps
    slices := (s.terminate ctx).slices
    vfs := (s.terminate ctx).vfs
    vpend := (s.terminate ctx).vpend } := rfl

/-- A core whose strand is of the context is set free. -/
theorem terminate_of_own {k : Core} {ctx : Ctx} {st : Strand} (hst : k.strand = some st) (hctx : st.ctx = ctx) :
    (k.terminate ctx).strand = none ∧ (∀ q, ((k.terminate ctx).seq q).run = .idle) ∧
      (k.terminate ctx).wins = .replicate 16 none ∧ (k.terminate ctx).rq = [] := by
  have hany : (k.forget ctx).strand.any (fun st => st.ctx == ctx) = true := by simp [Core.forget, hst, hctx]
  unfold Core.terminate
  dsimp only
  rw [if_pos hany]
  refine ⟨rfl, fun q => ?_, rfl, rfl⟩
  simp [Core.seq, Core.vacate, SeqSt.idle]

/-- A core whose strand is of another context loses what the context has on it, and nothing of its strand. -/
theorem terminate_of_other {k : Core} {ctx : Ctx} (h : ∀ st, k.strand = some st → st.ctx ≠ ctx) :
    (k.terminate ctx).strand = k.strand ∧ (k.terminate ctx).seqs = k.seqs ∧ (k.terminate ctx).ex = k.ex ∧
      (k.terminate ctx).queues = k.queues := by
  have hany : ¬(k.forget ctx).strand.any (fun st => st.ctx == ctx) = true := by
    rw [Option.any_eq_true]
    rintro ⟨st, hst, hctx⟩
    exact h st hst (by simpa using hctx)
  unfold Core.terminate
  dsimp only
  rw [if_neg hany]
  exact ⟨rfl, rfl, rfl, rfl⟩

/-- What a terminated context leaves of the parts of a core that outlive strands. -/
theorem terminate_kept (k : Core) (ctx : Ctx) : (k.terminate ctx).pad = k.pad ∧
    (k.terminate ctx).tlb = k.tlb.filter (fun e => e.ctx != ctx) ∧
    (k.terminate ctx).codeL1 = k.codeL1.filter (fun e => e.ctx != ctx) ∧
    (k.terminate ctx).engines = [k.gath.stop ctx, k.code.stop ctx, k.stg.stop ctx, k.tens.q.stop ctx] := by
  have htens : (k.tens.stop ctx).q = k.tens.q.stop ctx := by
    unfold Tensor.stop
    dsimp only
    split <;> rfl
  unfold Core.terminate
  dsimp only
  split
  all_goals
    refine ⟨rfl, rfl, rfl, ?_⟩
    rw [← htens]
    rfl

theorem stop_cmds {x : EngQ} {ctx : Ctx} {m : EngCmd} (h : m ∈ (x.stop ctx).cmds) : m.ctx ≠ ctx := by
  have := (List.mem_filter.1 (show m ∈ x.cmds.filter fun m => m.ctx != ctx from h)).2
  simpa using this

theorem terminate_cmds {k : Core} {ctx : Ctx} {e : EngQ} (he : e ∈ (k.terminate ctx).engines) {m : EngCmd} (hm : m ∈ e.cmds) :
    m.ctx ≠ ctx := by
  rw [(terminate_kept k ctx).2.2.2] at he
  simp only [List.mem_cons, List.not_mem_nil, or_false] at he
  obtain rfl | rfl | rfl | rfl := he <;> exact stop_cmds hm

theorem mem_slice_terminate (rs : List SliceReq) (ctx : Ctx) (r : SliceReq) :
    (r ∈ rs.filter fun r => r.ctx != ctx || (match r.op with
      | .read _ _ => false
      | .write _ _ _ => true)) ↔ r ∈ rs ∧ (r.ctx ≠ ctx ∨ ∃ row d f, r.op = .write row d f) := by
  rw [List.mem_filter]
  refine and_congr_right fun _ => ?_
  cases r.op <;> simp

theorem clusters_terminate (s : State) (ctx : Ctx) (u : ClusterId) : (s.terminate ctx).clusters[u] = s.clusters[u].terminate ctx := by
  simp [State.terminate]

theorem slices_terminate (s : State) (ctx : Ctx) (n : Fin 128) : (s.terminate ctx).slices[n] = s.slices[n].terminate ctx := by
  simp [State.terminate]

/-- The entry of a key in a list of rising keys without the entries that a test drops. -/
theorem cellGet_filter {α : Type} [DecidableEq α] {d : α} {m : List (Nat × α)} (h : cellsWf d m) (drops : α → Bool) (x : Nat) :
    cellGet d (m.filter fun e => !drops e.2) x = if drops (cellGet d m x) then d else cellGet d m x := by
  induction m with
  | nil => exact (ite_self d).symm
  | cons c r ih =>
    obtain ⟨hp, hd⟩ := h
    have hr : cellsWf d r := ⟨hp.of_cons, fun e he => hd e (by simp [he])⟩
    have hc : ∀ e ∈ r, c.1 < e.1 := fun e he => (List.pairwise_cons.1 hp).1 e he
    rw [List.filter_cons]
    by_cases hx : c.1 = x
    · have hbelow : cellGet d (r.filter fun e => !drops e.2) x = d :=
        cellGet_below fun e he => hx ▸ hc e (List.mem_filter.1 he).1
      by_cases hdrop : drops c.2 = true
      · simp [cellGet, hx, hdrop, hbelow]
      · simp [cellGet, hx, hdrop]
    · by_cases hdrop : drops c.2 = true
      · simpa [cellGet, hx, hdrop] using ih hr
      · simpa [cellGet, hx, hdrop] using ih hr

/-- The hitches that a context owned are complete and unowned. -/
theorem hitch_terminate (s : State) (ctx : Ctx) {u : ClusterId} (h : cellsWf freeHitch s.clusters[u].hitches) (n : Nat) :
    (s.terminate ctx).hitch u n = if (s.hitch u n).owner = some ctx then freeHitch else s.hitch u n := by
  have hfilter : (s.terminate ctx).hitch u n = if (s.hitch u n).owner == some ctx then freeHitch else s.hitch u n := by
    rw [State.hitch, clusters_terminate]
    exact cellGet_filter h (fun x => x.owner == some ctx) n
  by_cases howner : (s.hitch u n).owner = some ctx
  · rw [hfilter, if_pos howner, if_pos (by simp [howner])]
  · rw [hfilter, if_neg howner, if_neg (by simp [howner])]

/-- The VF of the context holds what its engines had under way; no host function is frozen for the context. -/
theorem vfs_terminate (s : State) (ctx : Ctx) (vf : Fin 64) : ∃ ents, (s.terminate ctx).vfs[vf] = { s.vfs[vf] with
    ents := ents, frozen := s.vfs[vf].frozen.filter fun x => x.ctx != ctx || vf != vfOf ctx } ∧
    (vf ≠ vfOf ctx → (s.terminate ctx).vfs[vf] = s.vfs[vf]) := by
  by_cases hvf : vf = vfOf ctx
  · subst hvf
    refine ⟨s.vfs[vfOf ctx].ents ++ ((List.finRange 2048).flatMap fun c => ((s.core c).active ctx).map fun m => m.entry c),
      ?_, fun h => absurd rfl h⟩
    simp [State.terminate]
  · have hsame : (s.terminate ctx).vfs[vf] = s.vfs[vf] := 
      Vector.getElem_set_ne (vfOf ctx).isLt vf.isLt fun e => hvf (Fin.ext e.symm)
    refine ⟨s.vfs[vf].ents, ?_, fun _ => hsame⟩
    have hfrozen : s.vfs[vf].frozen.filter (fun x => x.ctx != ctx || vf != vfOf ctx) = s.vfs[vf].frozen := by
      cases s.vfs[vf].frozen <;> simp [hvf]
    rw [hsame, hfrozen]

theorem mem_vpend_terminate (s : State) (ctx : Ctx) (p : Nat × Violation) :
    p ∈ (s.terminate ctx).vpend ↔ p ∈ s.vpend ∧ p.2.ctx ≠ ctx := by
  rw [State.terminate, List.mem_filter]
  simp

/-! ## Every context of a VF is terminated (R362) -/

theorem mem_ctxsOf (vf : Fin 64) (ctx : Ctx) : ctx ∈ ctxsOf vf ↔ vfOf ctx = vf := by
  have hval : (vfOf ctx).val = ctx.toNat / 16 % 64 := by simp [vfOf, Nat.shiftRight_eq_div_pow]
  have hlt := ctx.isLt
  rw [ctxsOf, List.mem_map, Fin.ext_iff, hval]
  refine ⟨?_, fun h => ⟨ctx.toNat % 16, by simp [Nat.mod_lt], ?_⟩⟩
  · rintro ⟨i, hi, rfl⟩
    rw [List.mem_range] at hi
    rw [BitVec.toNat_ofNat]
    omega
  · apply BitVec.eq_of_toNat_eq
    rw [BitVec.toNat_ofNat]
    omega

/-- Contexts of one VF have been terminated. -/
structure Ended (vf : Fin 64) (ctxs : List Ctx) (s t : State) : Prop where
  frame : t = { s with cores := t.cores, clusters := t.clusters, swaps := t.swaps, slices := t.slices, vfs := t.vfs, vpend := t.vpend }
  own : ∃ ents frozen, t.vfs[vf] = { s.vfs[vf] with ents := ents, frozen := frozen }
  others : ∀ v : Fin 64, v ≠ vf → t.vfs[v] = s.vfs[v]
  gone : ∀ c st, (s.core c).strand = some st → st.ctx ∈ ctxs → (t.core c).strand = none
  kept : ∀ c, (∀ st, (s.core c).strand = some st → st.ctx ∉ ctxs) → (t.core c).strand = (s.core c).strand

theorem ended_foldl (vf : Fin 64) (ctxs : List Ctx) (h : ∀ ctx ∈ ctxs, vfOf ctx = vf) (s : State) :
    Ended vf ctxs s (ctxs.foldl State.terminate s) := by
  induction ctxs generalizing s with
  | nil => exact ⟨rfl, ⟨_, _, rfl⟩, fun _ _ => rfl, fun _ _ _ h => absurd h List.not_mem_nil, fun _ _ => rfl⟩
  | cons ctx ctxs ih =>
    have hvf : vfOf ctx = vf := h ctx (by simp)
    have hrest := ih (fun x hx => h x (by simp [hx])) (s.terminate ctx)
    rw [List.foldl_cons]
    refine ⟨?_, ?_, fun v hv => ?_, fun c st hst hmem => ?_, fun c hall => ?_⟩
    · rw [hrest.frame]
      rfl
    · obtain ⟨ents, frozen, heq⟩ := hrest.own
      obtain ⟨ents', heq', -⟩ := vfs_terminate s ctx vf
      exact ⟨ents, frozen, by rw [heq, heq']⟩
    · obtain ⟨-, -, hsame⟩ := vfs_terminate s ctx v
      rw [hrest.others v hv, hsame (by rwa [hvf])]
    · by_cases hctx : st.ctx = ctx
      · have hnone : ((s.terminate ctx).core c).strand = none := by
          rw [core_terminate]
          exact (terminate_of_own hst hctx).1
        rw [hrest.kept c fun x hx => by simp [hnone] at hx, hnone]
      · refine hrest.gone c st ?_ ((List.mem_cons.1 hmem).resolve_left hctx)
        rw [core_terminate, (terminate_of_other fun x hx => ?_).1, hst]
        rw [hst] at hx
        obtain rfl := Option.some.inj hx
        exact hctx
    · have hsame : ((s.terminate ctx).core c).strand = (s.core c).strand := by
        rw [core_terminate]
        exact (terminate_of_other fun x hx hctx => hall x hx (by simp [hctx])).1
      rw [hrest.kept c fun x hx => ?_, hsame]
      rw [hsame] at hx
      exact fun hmem => hall x hx (by simp [hmem])

/-! ## The record of a VF reset (R403) -/

/-- Whether a span of bytes reaches a die that is not in service: a longer one does too. -/
theorem spanOut_mono {s : State} {pa n m : Nat} (hnm : n ≤ m) (h : s.spanOut pa n = true) : s.spanOut pa m = true := by
  simp only [State.spanOut, List.any_eq_true, List.mem_range, Bool.and_eq_true, decide_eq_true_eq] at h ⊢
  obtain ⟨i, hi, hin, hdie⟩ := h
  exact ⟨i, by omega, by omega, hdie⟩

/-- The entries of a reset record, 16 bytes each from byte 16 on. -/
def recordBody (ents : List Nat) : Nat := (ents.take 255).zipIdx.foldl (fun x e => x + e.1 * 2 ^ (128 * (e.2 + 1))) 0

/-- The record: how many entries, how many resets, and the entries. -/
def resetRecord (ents : List Nat) (resets : BitVec 32) : Nat := ents.length % 2 ^ 32 + resets.toNat * 2 ^ 32 + recordBody ents

def resetRecordBytes (ents : List Nat) : Nat := 16 * (min ents.length 255 + 1)

/-- Sums of multiples are multiples. -/
theorem dvd_foldl_add {α : Type} {d : Nat} (f : α → Nat) (l : List α) (h : ∀ e ∈ l, d ∣ f e) (x : Nat) (hx : d ∣ x) :
    d ∣ l.foldl (fun x e => x + f e) x := by
  induction l generalizing x with
  | nil => exact hx
  | cons e l ih => exact ih (fun y hy => h y (by simp [hy])) _ (hx.add (h e (by simp)))

theorem dvd_recordBody (ents : List Nat) : 2 ^ 128 ∣ recordBody ents :=
  dvd_foldl_add (fun e : Nat × Nat => e.1 * 2 ^ (128 * (e.2 + 1))) _
    (fun e _ => Dvd.dvd.mul_left (pow_dvd_pow 2 (by omega)) e.1) 0 (dvd_zero _)

theorem resetRecord_count (ents : List Nat) (resets : BitVec 32) : resetRecord ents resets / 2 ^ 32 % 2 ^ 32 = resets.toNat := by
  obtain ⟨b, hb⟩ := dvd_recordBody ents
  have hlt := resets.isLt
  rw [resetRecord, hb]
  norm_num at hlt ⊢
  omega

theorem resetRecord_reserved (ents : List Nat) (resets : BitVec 32) : resetRecord ents resets / 2 ^ 64 % 2 ^ 64 = 0 := by
  obtain ⟨b, hb⟩ := dvd_recordBody ents
  have hlt := resets.isLt
  rw [resetRecord, hb]
  norm_num at hlt ⊢
  omega

theorem peekBytes_of_bytes {s : State} {pa n x : Nat} (h : ∀ i, i < n → s.peek (pa + i) = BitVec.ofNat 8 (x / 256 ^ i)) :
    s.peekBytes pa n = x % 256 ^ n := by
  induction n generalizing pa x with
  | zero => simp [State.peekBytes, Nat.mod_one]
  | succ n ih =>
    have h0 := h 0 (by omega)
    rw [Nat.add_zero, Nat.pow_zero, Nat.div_one] at h0
    have hrest : s.peekBytes (pa + 1) n = x / 256 % 256 ^ n := by
      refine ih fun i hi => ?_
      have := h (i + 1) (by omega)
      rwa [show pa + (i + 1) = pa + 1 + i by omega, Nat.pow_succ', ← Nat.div_div_eq_div_mul] at this
    rw [State.peekBytes, h0, hrest, BitVec.toNat_ofNat, Nat.pow_succ' (m := 256)]
    exact (Nat.mod_mul (x := x) (a := 256)).symm

/-! ### Events go to host memory (R402) -/

/-- An event changes host memory and the tail of its VF's ring. -/
structure EventMade (vf : Fin 64) (s t : State) : Prop where
  frame : t = { s with mem := t.mem, vfs := t.vfs, fresh := t.fresh }
  own : ∃ tail, t.vfs[vf] = { s.vfs[vf] with evtail := tail }
  others : ∀ v : Fin 64, v ≠ vf → t.vfs[v] = s.vfs[v]
  peek : ∀ a, a < 2 ^ 40 → t.peek a = s.peek a

theorem eventMade_postEvent (s : State) (vf : Fin 64) (type code : Nat) (ctx : Ctx) (status : Nat) (detail : Word) :
    EventMade vf s (s.postEvent vf type code ctx status detail) := by
  unfold State.postEvent
  dsimp only
  split
  · exact ⟨rfl, ⟨_, rfl⟩, fun _ _ => rfl, fun _ _ => rfl⟩
  · refine ⟨rfl, ⟨s.vfs[vf].evtail + 1, by simp⟩,
      fun v hv => Vector.getElem_set_ne vf.isLt v.isLt fun e => hv (Fin.ext e.symm), fun a ha => ?_⟩
    generalize hat : hostAddr _ = place
    have hplace : 2 ^ 64 ≤ place := by
      rw [← hat]
      exact Nat.le_add_right _ _
    have hout : inHbm place = false := by
      rw [inHbm, decide_eq_false_iff_not]
      omega
    exact (written_outside (s := s) hout).peek a (fun i hi => by omega) (.inr fun i hi => by omega)

theorem eventMade_postBare (s : State) (vf : Fin 64) (type status : Nat) : EventMade vf s (s.postBare vf type status) := by
  have h := eventMade_postEvent { s with fresh := s.fresh + 1 } vf type
    ((Config.freeValue s.fresh).extractLsb' 64 16).toNat ((Config.freeValue s.fresh).extractLsb' 80 10) status
    ((Config.freeValue s.fresh).setWidth 64)
  exact ⟨h.frame, h.own, h.others, h.peek⟩

/-! ### The reset (R362) -/

/-- A VF without its contexts, before its record is written. -/
def vfEmptied (s : State) (vf : Fin 64) : State :=
  let t := (ctxsOf vf).foldl State.terminate s
  { t with
    vfs := t.vfs.set vf { t.vfs[vf] with
      sqs := t.vfs[vf].sqs.map fun q => { q with head := 0, tail := 0, stamp := 1, stalled := false, rereads := none }
      resets := t.vfs[vf].resets + 1, ents := [], frozen := none }
    vpend := t.vpend.filter fun p => vfOf p.2.ctx != vf
    prq := t.prq.filter fun r => vfOf r.ctx != vf }

/-- The entries of the record: what the VF's contexts had under way. -/
def vfEntries (s : State) (vf : Fin 64) : List Nat := ((ctxsOf vf).foldl State.terminate s).vfs[vf].ents

theorem ended_ctxsOf (s : State) (vf : Fin 64) : Ended vf (ctxsOf vf) s ((ctxsOf vf).foldl State.terminate s) :=
  ended_foldl vf _ (fun ctx h => (mem_ctxsOf vf ctx).1 h) s

theorem vfEmptied_frame (s : State) (vf : Fin 64) : vfEmptied s vf = { s with
    cores := (vfEmptied s vf).cores
    clusters := (vfEmptied s vf).clusters
    swaps := (vfEmptied s vf).swaps
    slices := (vfEmptied s vf).slices
    vfs := (vfEmptied s vf).vfs
    vpend := (vfEmptied s vf).vpend
    prq := s.prq.filter fun r => vfOf r.ctx != vf } := by
  have hframe := (ended_ctxsOf s vf).frame
  have hprq : ((ctxsOf vf).foldl State.terminate s).prq = s.prq := by rw [hframe]
  rw [vfEmptied]
  dsimp only
  rw [hprq]
  generalize (ctxsOf vf).foldl State.terminate s = t at hframe ⊢
  rw [hframe]

theorem vfEmptied_vfs (s : State) (vf : Fin 64) : (vfEmptied s vf).vfs[vf] = { s.vfs[vf] with
      sqs := s.vfs[vf].sqs.map fun q => { q with head := 0, tail := 0, stamp := 1, stalled := false, rereads := none }
      resets := s.vfs[vf].resets + 1, ents := [], frozen := none } ∧
    ∀ v : Fin 64, v ≠ vf → (vfEmptied s vf).vfs[v] = s.vfs[v] := by
  have hended := ended_ctxsOf s vf
  obtain ⟨ents, frozen, hown⟩ := hended.own
  refine ⟨?_, fun v hv => ?_⟩
  · have hself : (vfEmptied s vf).vfs[vf] = { ((ctxsOf vf).foldl State.terminate s).vfs[vf] with
        sqs := ((ctxsOf vf).foldl State.terminate s).vfs[vf].sqs.map fun q =>
          { q with head := 0, tail := 0, stamp := 1, stalled := false, rereads := none }
        resets := ((ctxsOf vf).foldl State.terminate s).vfs[vf].resets + 1, ents := [], frozen := none } :=
      Vector.getElem_set_self vf.isLt
    rw [hself, hown]
  · rw [← hended.others v hv]
    exact Vector.getElem_set_ne vf.isLt v.isLt fun e => hv (Fin.ext e.symm)

end Sys2Proof.Laws
end

section
/-! SUPPORT. What a VF reset does to the VF, and its record (R362, R403, R412). -/

namespace Sys2Proof.Laws

open Sys2Proof.Machine

theorem exec_vfReset (vf : Fin 64) (s : State) : exec (.vfReset vf) s = .next (if s.vfUp then s.vfReset vf else s) := rfl

/-- The record of this reset. -/
def vfRecord (s : State) (vf : Fin 64) : Nat := resetRecord (vfEntries s vf) (s.vfs[vf].resets + 1)

theorem resetVf_eq (s : State) (vf : Fin 64) : s.resetVf vf =
    if s.spanOut s.vfs[vf].rrec.toNat (resetRecordBytes (vfEntries s vf)) then
      ({ vfEmptied s vf with
        owed := s.owed ++ [⟨s.vfs[vf].rrec.toNat, vfRecord s vf, resetRecordBytes (vfEntries s vf), some vf⟩] }, [])
    else
      let r := (vfEmptied s vf).hdmWrite none s.vfs[vf].rrec.toNat (vfRecord s vf) (resetRecordBytes (vfEntries s vf)) []
        (resetRecordBytes (vfEntries s vf) / 32 + 2)
      (r.1.postBare vf 5 0, r.2) := by
  obtain ⟨ents, frozen, hown⟩ := (ended_ctxsOf s vf).own
  have hrrec : ((ctxsOf vf).foldl State.terminate s).vfs[vf].rrec = s.vfs[vf].rrec := by rw [hown]
  have hresets : ((ctxsOf vf).foldl State.terminate s).vfs[vf].resets = s.vfs[vf].resets := by rw [hown]
  have howed : (vfEmptied s vf).owed = s.owed := by rw [vfEmptied_frame]
  have hspan : ∀ n, (vfEmptied s vf).spanOut s.vfs[vf].rrec.toNat n = s.spanOut s.vfs[vf].rrec.toNat n := by
    intro n
    rw [vfEmptied_frame]
    rfl
  rw [← hspan, ← howed]
  unfold State.resetVf vfRecord vfEntries vfEmptied resetRecord resetRecordBytes recordBody
  generalize (ctxsOf vf).foldl State.terminate s = t at hrrec hresets
  dsimp only
  rw [hrrec, hresets]
  rfl

theorem resetRecordBytes_pos (ents : List Nat) : 16 ≤ resetRecordBytes ents := by
  rw [resetRecordBytes]
  omega

theorem resetRecordBytes_le (ents : List Nat) : resetRecordBytes ents ≤ 4096 := by
  rw [resetRecordBytes]
  omega

/-- A record on a die that is not in service is owed, with the event (R413). -/
theorem vfReset_owed {s : State} {vf : Fin 64} (hout : s.spanOut s.vfs[vf].rrec.toNat 16 = true) : s.vfReset vf =
    { vfEmptied s vf with
      owed := s.owed ++ [⟨s.vfs[vf].rrec.toNat, vfRecord s vf, resetRecordBytes (vfEntries s vf), some vf⟩] } := by
  rw [State.vfReset, resetVf_eq, if_pos (spanOut_mono (resetRecordBytes_pos _) hout)]
  rfl

/-- The VF after its reset, on dies in service and over lines without errors. -/
def vfRecorded (s : State) (vf : Fin 64) : State :=
  ((vfEmptied s vf).hdmWrite none s.vfs[vf].rrec.toNat (vfRecord s vf) (resetRecordBytes (vfEntries s vf)) []
    (resetRecordBytes (vfEntries s vf) / 32 + 2)).1

theorem vfReset_recorded {s : State} {vf : Fin 64} (hout : s.spanOut s.vfs[vf].rrec.toNat 4096 = false)
    (hclean : ∀ l ∈ s.l2, s.vfs[vf].rrec.toNat / 128 ≤ l.la → l.la ≤ (s.vfs[vf].rrec.toNat + 4096) / 128 → l.flips = []) :
    s.vfReset vf = (vfRecorded s vf).postBare vf 5 0 := by
  have hle := resetRecordBytes_le (vfEntries s vf)
  have hin : ¬s.spanOut s.vfs[vf].rrec.toNat (resetRecordBytes (vfEntries s vf)) = true := fun h => by
    rw [spanOut_mono hle h] at hout
    exact Bool.noConfusion hout
  have hl2 : (vfEmptied s vf).l2 = s.l2 := by rw [vfEmptied_frame]
  rw [State.vfReset, resetVf_eq, if_neg hin]
  dsimp only
  rw [hdmWrite_lost_of_clean]
  · rfl
  · intro l hl i hi hla
    exact hclean l (hl2 ▸ hl) (by omega) (by omega)

/-- The record holds the count of resets in its first word's high half, and zero in the second (R403). -/
theorem peek_vfRecorded {s : State} (vf : Fin 64) (hs : s.Canon) :
    (vfRecorded s vf).peekBytes (s.vfs[vf].rrec.toNat + 4) 4 = (s.vfs[vf].resets + 1).toNat ∧
      (vfRecorded s vf).peekBytes (s.vfs[vf].rrec.toNat + 8) 8 = 0 := by
  have hpos := resetRecordBytes_pos (vfEntries s vf)
  have hcanon : (vfEmptied s vf).Canon := by
    rw [vfEmptied_frame]
    exact hs
  have hbyte : ∀ i, i < 16 → (vfRecorded s vf).peek (s.vfs[vf].rrec.toNat + i) = BitVec.ofNat 8 (vfRecord s vf / 256 ^ i) :=
    fun i hi => (written_hdmWrite _ (vfEmptied s vf) s.vfs[vf].rrec.toNat (vfRecord s vf) _ [] (by omega)).byte hcanon i (by omega)
  have hfrom : ∀ k i, k + i < 16 →
      (vfRecorded s vf).peek (s.vfs[vf].rrec.toNat + k + i) = BitVec.ofNat 8 (vfRecord s vf / 256 ^ k / 256 ^ i) := by
    intro k i hki
    rw [Nat.add_assoc, hbyte _ hki, Nat.div_div_eq_div_mul, Nat.pow_add]
  constructor
  · rw [peekBytes_of_bytes fun i hi => hfrom 4 i (by omega)]
    exact resetRecord_count (vfEntries s vf) (s.vfs[vf].resets + 1)
  · rw [peekBytes_of_bytes fun i hi => hfrom 8 i (by omega)]
    exact resetRecord_reserved (vfEntries s vf) (s.vfs[vf].resets + 1)

theorem peekBytes_congr {s t : State} {a n : Nat} (h : ∀ i, i < n → t.peek (a + i) = s.peek (a + i)) :
    t.peekBytes a n = s.peekBytes a n := by
  induction n generalizing a with
  | zero => rfl
  | succ n ih =>
    have h0 := h 0 (by omega)
    rw [Nat.add_zero] at h0
    rw [State.peekBytes, State.peekBytes, h0, ih fun i hi => ?_]
    have := h (i + 1) (by omega)
    rwa [show a + (i + 1) = a + 1 + i by omega] at this

/-- What a reset changes where its record is written, and that all of the VF's contexts are gone (R362). -/
theorem vfReset_spec {s : State} {vf : Fin 64} (hout : s.spanOut s.vfs[vf].rrec.toNat 4096 = false)
    (hclean : ∀ l ∈ s.l2, s.vfs[vf].rrec.toNat / 128 ≤ l.la → l.la ≤ (s.vfs[vf].rrec.toNat + 4096) / 128 → l.flips = []) :
    (s.vfReset vf).cores = (vfEmptied s vf).cores ∧ (s.vfReset vf).vpend = (vfEmptied s vf).vpend ∧
    (s.vfReset vf).prq = (vfEmptied s vf).prq ∧
    (∃ tail, (s.vfReset vf).vfs[vf] = { (vfEmptied s vf).vfs[vf] with evtail := tail }) ∧
    (∀ v : Fin 64, v ≠ vf → (s.vfReset vf).vfs[v] = s.vfs[v]) ∧
    ∀ a, a < 2 ^ 40 → (s.vfReset vf).peek a = (vfRecorded s vf).peek a := by
  have hevent := eventMade_postBare (vfRecorded s vf) vf 5 0
  have honly : OnlyMemory (vfEmptied s vf) (vfRecorded s vf) := (written_hdmWrite _ (vfEmptied s vf) _ _ _ [] (by omega)).only
  have hvfs : (vfRecorded s vf).vfs = (vfEmptied s vf).vfs := by rw [honly]
  obtain ⟨tail, htail⟩ := hevent.own
  rw [vfReset_recorded hout hclean]
  refine ⟨?_, ?_, ?_, ⟨tail, by rw [htail, hvfs]⟩, fun v hv => ?_, hevent.peek⟩
  · rw [hevent.frame, honly]
  · rw [hevent.frame, honly]
  · rw [hevent.frame, honly]
  · rw [hevent.others v hv, hvfs, (vfEmptied_vfs s vf).2 v hv]

theorem core_vfEmptied (s : State) (vf : Fin 64) (c : CoreId) :
    (vfEmptied s vf).core c = ((ctxsOf vf).foldl State.terminate s).core c := by
  simp only [vfEmptied, State.core]

/-- The cores of an emptied VF: those of its contexts are free, the others' strands stand. -/
theorem vfEmptied_cores (s : State) (vf : Fin 64) :
    (∀ c st, (s.core c).strand = some st → vfOf st.ctx = vf → ((vfEmptied s vf).core c).strand = none) ∧
    ∀ c, (∀ st, (s.core c).strand = some st → vfOf st.ctx ≠ vf) → ((vfEmptied s vf).core c).strand = (s.core c).strand := by
  have hended := ended_ctxsOf s vf
  simp only [core_vfEmptied]
  exact ⟨fun c st hst hvf => hended.gone c st hst ((mem_ctxsOf vf st.ctx).2 hvf),
    fun c h => hended.kept c fun st hst hmem => h st hst ((mem_ctxsOf vf st.ctx).1 hmem)⟩

theorem mem_vfEmptied_vpend {s : State} {vf : Fin 64} {p : Nat × Violation} (h : p ∈ (vfEmptied s vf).vpend) : vfOf p.2.ctx ≠ vf := by
  simpa using (List.mem_filter.1 (show p ∈ List.filter (fun p => vfOf p.2.ctx != vf) _ from h)).2

theorem mem_vfEmptied_prq (s : State) (vf : Fin 64) (r : PReq) :
    r ∈ (vfEmptied s vf).prq ↔ r ∈ s.prq ∧ vfOf r.ctx ≠ vf := by
  rw [vfEmptied_frame]
  simp

end Sys2Proof.Laws
end

section
/-! SUPPORT. An interval of a cluster (R341, R343, R334, R347, R418, R419): what its parts change, and how many cores they move. -/

namespace Sys2Proof.Laws

open Sys2Proof.Machine

/-! ## Clusters and their cores -/

theorem clusters_onCluster (s : State) (u : ClusterId) (f : Cluster → Cluster) : (s.onCluster u f).clusters[u] = f s.clusters[u] :=
  Vector.getElem_set_self u.isLt

theorem clusters_onCluster_ne (s : State) {u v : ClusterId} (f : Cluster → Cluster) (h : v ≠ u) :
    (s.onCluster u f).clusters[v] = s.clusters[v] :=
  Vector.getElem_set_ne u.isLt v.isLt fun e => h (Fin.ext e.symm)

theorem clusterOf_of_mem_coresOf {u : ClusterId} {c : CoreId} (h : c ∈ coresOf u) : clusterOf c = u := by
  obtain ⟨i, hi, rfl⟩ := List.mem_map.1 h
  rw [List.mem_range] at hi
  have hu := u.isLt
  apply Fin.ext
  show (u.val * 128 + i) % 2048 / 128 = u.val
  omega

theorem nodup_coresOf (u : ClusterId) : (coresOf u).Nodup := by
  refine List.Nodup.map_on (fun i hi j hj hij => ?_) List.nodup_range
  rw [List.mem_range] at hi hj
  have hu := u.isLt
  have hval : (u.val * 128 + i) % 2048 = (u.val * 128 + j) % 2048 := congrArg Fin.val hij
  omega

/-! ## Moves of cores -/

/-- At most `n` cores, all of cluster `u`, are committed to something or told where to start; of clusters only the launches change. -/
structure Moved (u : ClusterId) (n : Nat) (s t : State) : Prop where
  frame : t = { s with cores := t.cores, clusters := t.clusters }
  clusters : ∀ v : ClusterId, t.clusters[v] = { s.clusters[v] with launches := t.clusters[v].launches }
  core : ∀ c, t.core c = { s.core c with commit := (t.core c).commit, req := (t.core c).req, startTo := (t.core c).startTo }
  few : ∃ cs : List CoreId, cs.length ≤ n ∧ (∀ c ∈ cs, clusterOf c = u) ∧ ∀ c, c ∉ cs → t.core c = s.core c

theorem Moved.refl (u : ClusterId) (n : Nat) (s : State) : Moved u n s s :=
  ⟨rfl, fun _ => rfl, fun _ => rfl, [], Nat.zero_le n, by simp, fun _ _ => rfl⟩

theorem Moved.trans {u : ClusterId} {n m k : Nat} {s t r : State} (h : Moved u n s t) (h' : Moved u m t r) (hk : n + m ≤ k) :
    Moved u k s r where
  frame := by rw [h'.frame, h.frame]
  clusters v := by rw [h'.clusters v, h.clusters v]
  core c := by rw [h'.core c, h.core c]
  few := by
    obtain ⟨cs, hlen, hin, hout⟩ := h.few
    obtain ⟨cs', hlen', hin', hout'⟩ := h'.few
    refine ⟨cs ++ cs', by rw [List.length_append]; omega, fun c hc => ?_, fun c hc => ?_⟩
    · exact (List.mem_append.1 hc).elim (hin c) (hin' c)
    · rw [List.mem_append, not_or] at hc
      rw [hout' c hc.2, hout c hc.1]

theorem Moved.mono {u : ClusterId} {n m : Nat} {s t : State} (h : Moved u n s t) (hnm : n ≤ m) : Moved u m s t :=
  h.trans (Moved.refl u 0 t) hnm

/-- Cores outside the cluster stand. -/
theorem Moved.core_other {u : ClusterId} {n : Nat} {s t : State} (h : Moved u n s t) {c : CoreId} (hc : clusterOf c ≠ u) :
    t.core c = s.core c := by
  obtain ⟨cs, -, hin, hout⟩ := h.few
  exact hout c fun hmem => hc (hin c hmem)

theorem Moved.changed_le {u : ClusterId} {n : Nat} {s t : State} (h : Moved u n s t) :
    ((coresOf u).filter fun c => t.core c != s.core c).length ≤ n := by
  obtain ⟨cs, hlen, -, hout⟩ := h.few
  have hsub : (coresOf u).filter (fun c => t.core c != s.core c) ⊆ cs := by
    intro c hc
    by_contra hnot
    have := (List.mem_filter.1 hc).2
    rw [hout c hnot] at this
    simp at this
  exact (List.subperm_of_subset ((nodup_coresOf u).filter _) hsub).length_le.trans hlen

theorem moved_onCore {u : ClusterId} (s : State) {c : CoreId} (hc : clusterOf c = u) (f : Core → Core)
    (hf : ∀ k, f k = { k with commit := (f k).commit, req := (f k).req, startTo := (f k).startTo }) : Moved u 1 s (s.onCore c f) where
  frame := rfl
  clusters _ := rfl
  core d := by
    by_cases hd : d = c
    · rw [hd, State.core_onCore]
      exact hf _
    · rw [State.core_onCore_ne _ _ _ _ hd]
  few := ⟨[c], by simp, by simp [hc], fun d hd => State.core_onCore_ne _ _ _ _ (by simpa using hd)⟩

theorem moved_commitCore {u : ClusterId} (s : State) {c : CoreId} (hc : clusterOf c = u) (what : Commit) (why : Reason) :
    Moved u 1 s (s.commitCore c what why) := moved_onCore s hc _ fun _ => rfl

theorem moved_sendIdle {u : ClusterId} (s : State) {c : CoreId} (hc : clusterOf c = u) (x : Seen) :
    Moved u 1 s (s.sendIdle c x) := moved_onCore s hc _ fun _ => rfl

theorem moved_onLaunch (u : ClusterId) (s : State) (gid : Nat) (f : Launch → Launch) : Moved u 0 s (s.onLaunch u gid f) where
  frame := rfl
  clusters v := by
    by_cases hv : v = u
    · rw [hv, State.onLaunch, clusters_onCluster]
    · rw [State.onLaunch, clusters_onCluster_ne _ _ hv]
  core _ := rfl
  few := ⟨[], Nat.le_refl 0, by simp, fun _ _ => rfl⟩

theorem moved_setStarve (u : ClusterId) (s : State) (x : Seen) (n : Nat) : Moved u 0 s (s.setStarve u x n) :=
  moved_onLaunch u s _ _

theorem clusterOf_idleCore {s : State} {u : ClusterId} {c : CoreId} {cs : List CoreId} (h : s.idleCores u = c :: cs) :
    clusterOf c = u := by
  have hmem : c ∈ s.idleCores u := by rw [h]; exact List.mem_cons_self
  exact clusterOf_of_mem_coresOf (List.mem_filter.1 hmem).1

theorem clusterOf_donorCore {s : State} {u : ClusterId} {x : Seen} {c : CoreId} (h : s.donorCore u x = some c) : clusterOf c = u :=
  clusterOf_of_mem_coresOf (List.mem_filter.1 (List.mem_of_getLast? h)).1

/-! ### The starvation guard (R343) -/

theorem moved_countStarve (u : ClusterId) (all : List Seen) (s : State) :
    Moved u 0 s (all.foldl (fun s x => s.countStarve u x) s) := by
  induction all generalizing s with
  | nil => exact Moved.refl u 0 s
  | cons x all ih => exact (moved_setStarve u s x _).trans (ih _) (Nat.le_refl 0)

/-- A part of the interval moves as many cores as it takes of the budget. -/
def Spends (u : ClusterId) (budget : Nat) (s : State) (r : State × Nat) : Prop := r.2 ≤ budget ∧ Moved u (budget - r.2) s r.1

theorem Spends.refl (u : ClusterId) (budget : Nat) (s : State) : Spends u budget s (s, budget) := ⟨Nat.le_refl _, Moved.refl u _ s⟩

theorem Spends.trans {u : ClusterId} {budget : Nat} {s : State} {r q : State × Nat} (h : Spends u budget s r)
    (h' : Spends u r.2 r.1 q) : Spends u budget s q := by
  obtain ⟨hle, hmoved⟩ := h
  obtain ⟨hle', hmoved'⟩ := h'
  exact ⟨hle'.trans hle, hmoved.trans hmoved' (by omega)⟩

theorem spends_guardStage (u : ClusterId) (all : List Seen) (s : State) (x : Seen) (budget : Nat) :
    Spends u budget s (s.guardStage u all x budget) := by
  unfold State.guardStage
  split
  · exact Spends.refl u budget s
  next hgo =>
    have hpos : budget ≠ 0 := fun h => hgo (by simp [h])
    have hone : ∀ t, Moved u 1 s t → Spends u budget s (t.setStarve u x 0, budget - 1) := fun t ht =>
      ⟨Nat.sub_le budget 1, ht.trans (moved_setStarve u t x 0) (by show 1 + 0 ≤ budget - (budget - 1); omega)⟩
    split
    next hidle => exact hone _ (moved_sendIdle s (clusterOf_idleCore hidle) x)
    · split
      · exact Spends.refl u budget s
      · split
        · exact Spends.refl u budget s
        next hdonor => exact hone _ (moved_commitCore s (clusterOf_donorCore hdonor) _ _)

theorem spends_guard (u : ClusterId) (all xs : List Seen) (r : State × Nat) :
    Spends u r.2 r.1 (xs.foldl (fun r x => r.1.guardStage u all x r.2) r) := by
  induction xs generalizing r with
  | nil => exact Spends.refl u r.2 r.1
  | cons x xs ih => exact (spends_guardStage u all r.1 x r.2).trans (ih _)

/-! ### Draws (R334) and moves (R341) -/

theorem spends_draw (u : ClusterId) (all : List Seen) (l : Launch) (budget : Nat) (s : State) :
    Spends u budget s (s.draw u all l budget) := by
  induction budget generalizing s with
  | zero => exact Spends.refl u 0 s
  | succ budget ih =>
    rw [State.draw]
    split
    · exact Spends.refl u _ s
    · split
      · exact Spends.refl u _ s
      · split
        · exact Spends.refl u _ s
        next hdonor =>
          obtain ⟨hle, hmoved⟩ := ih (s.commitCore _ (.draw l.gid) .release)
          exact ⟨by omega, (moved_commitCore s (clusterOf_donorCore hdonor) _ _).trans hmoved (by omega)⟩

theorem moved_moves (u : ClusterId) (all : List Seen) (drawing : Bool) (budget : Nat) (s : State) :
    Moved u budget s (s.moves u all drawing budget) := by
  induction budget generalizing s with
  | zero => exact Moved.refl u 0 s
  | succ budget ih =>
    have hone : ∀ t, Moved u 1 s t → Moved u (budget + 1) s (t.moves u all drawing budget) := fun t ht => ht.trans (ih t) (by omega)
    rw [State.moves]
    split
    · exact Moved.refl u _ s
    next r hr =>
      split
      next c cs hsend =>
        refine hone _ (moved_sendIdle s ?_ r)
        split at hsend
        · exact absurd hsend (by simp)
        · exact clusterOf_idleCore hsend
      · split
        · exact Moved.refl u _ s
        · split
          · exact Moved.refl u _ s
          · split
            · exact Moved.refl u _ s
            next hdonor => exact hone _ (moved_commitCore s (clusterOf_donorCore hdonor) _ _)

/-! ## The level (R347, R418) -/

/-- Changes that may be made twice are made in each of the clusters named, and in no other. -/
theorem clusters_foldl_onCluster (us : List ClusterId) (f : Cluster → Cluster) (hf : ∀ k, f (f k) = f k) (s : State) (v : ClusterId) :
    (us.foldl (fun s v => s.onCluster v f) s).clusters[v] = if v ∈ us then f s.clusters[v] else s.clusters[v] := by
  induction us generalizing s with
  | nil => simp
  | cons u us ih =>
    rw [List.foldl_cons, ih]
    by_cases hv : v = u
    · subst hv
      rw [clusters_onCluster, hf]
      simp
    · rw [clusters_onCluster_ne _ _ hv]
      simp [hv]

theorem foldl_onCluster_frame (us : List ClusterId) (f : Cluster → Cluster) (s : State) :
    us.foldl (fun s v => s.onCluster v f) s = { s with clusters := (us.foldl (fun s v => s.onCluster v f) s).clusters } := by
  induction us generalizing s with
  | nil => rfl
  | cons u us ih =>
    rw [List.foldl_cons, ih]
    rfl

/-- The level that takes effect in the clusters that change together. -/
def groupLevel (s : State) (u : ClusterId) : Fin 4 := (s.levelGroup u).foldl (fun x v => max x (s.chosen v)) 0

def withLevel (level took : Fin 4) (k : Cluster) : Cluster := { k with level := level, took := took }

theorem throttle_eq (s : State) (u : ClusterId) :
    s.throttle u = (s.levelGroup u).foldl (fun t v => t.onCluster v (withLevel (groupLevel s u) s.mg.level)) s := by
  have hmg : ∀ (us : List ClusterId) (level : Fin 4) (t : State), t.mg = s.mg →
      us.foldl (fun t v => t.onCluster v fun k => { k with level := level, took := t.mg.level }) t =
        us.foldl (fun t v => t.onCluster v (withLevel level s.mg.level)) t := by
    intro us level
    induction us with
    | nil => exact fun _ _ => rfl
    | cons v us ih =>
      intro t ht
      rw [List.foldl_cons, List.foldl_cons, ht]
      exact ih (t.onCluster v (withLevel level s.mg.level)) ht
  exact hmg _ _ s rfl

theorem throttle_frame (s : State) (u : ClusterId) : s.throttle u = { s with clusters := (s.throttle u).clusters } := by
  rw [throttle_eq]
  exact foldl_onCluster_frame _ _ s

theorem clusters_throttle (s : State) (u v : ClusterId) : (s.throttle u).clusters[v] =
    if v ∈ s.levelGroup u then withLevel (groupLevel s u) s.mg.level s.clusters[v] else s.clusters[v] := by
  rw [throttle_eq]
  exact clusters_foldl_onCluster _ (withLevel (groupLevel s u) s.mg.level) (fun _ => rfl) s v

/-- The clusters that change together follow from the mode and the launches. -/
theorem levelGroup_congr {s t : State} (hmode : t.pwmode = s.pwmode) (h : ∀ v : ClusterId, t.clusters[v].launches = s.clusters[v].launches)
    (u : ClusterId) : t.levelGroup u = s.levelGroup u := by
  have hjoins : t.gangJoins = s.gangJoins := by
    funext a b
    simp only [State.gangJoins, State.launch, h]
  rw [State.levelGroup, State.levelGroup, hmode, hjoins]

theorem groupLevel_eq_map (s : State) (u : ClusterId) : groupLevel s u = ((s.levelGroup u).map s.chosen).foldl max 0 := by
  rw [groupLevel, List.foldl_map]

theorem chosen_eq (s : State) (x : ClusterId) : s.chosen x =
    if s.mg.thot = true then 3
    else if s.pwmode.getLsbD 0 = true ∨ s.mg.level ≠ s.clusters[x].took then s.mg.level
    else Config.clusterLevel s.afc[x] s.mg.pwnow := by
  simp only [State.chosen, Bool.or_eq_true, bne_iff_ne]

/-! ## The interval -/

theorem exec_schedInterval (u : ClusterId) (s : State) : exec (.schedInterval u) s = .next (s.interval u) := rfl

/-- The next interval is set, and the forecast outside gang mode. -/
def forecasted (s : State) (u : ClusterId) : State :=
  let t := s.onCluster u fun k => { k with nextInt := k.nextInt + 2100 }
  if s.pwmode.getLsbD 0 then t else { t with afc := s.afc.set u (s.forecast u (s.snapshot u)) }

theorem forecasted_frame (s : State) (u : ClusterId) :
    forecasted s u = { s with clusters := (forecasted s u).clusters, afc := (forecasted s u).afc } := by
  rw [forecasted]
  split <;> rfl

theorem forecasted_clusters (s : State) (u : ClusterId) :
    (forecasted s u).clusters = (s.onCluster u fun k => { k with nextInt := k.nextInt + 2100 }).clusters := by
  rw [forecasted]
  split <;> rfl

theorem forecasted_nextInt (s : State) (u : ClusterId) : (forecasted s u).clusters[u].nextInt = s.clusters[u].nextInt + 2100 := by
  rw [forecasted_clusters, clusters_onCluster]

/-- The next interval apart, the clusters stand. -/
theorem forecasted_cluster (s : State) (u v : ClusterId) : (forecasted s u).clusters[v].level = s.clusters[v].level ∧
    (forecasted s u).clusters[v].took = s.clusters[v].took ∧ (forecasted s u).clusters[v].launches = s.clusters[v].launches := by
  rw [forecasted_clusters]
  by_cases hv : v = u
  · rw [hv, clusters_onCluster]
    exact ⟨rfl, rfl, rfl⟩
  · rw [clusters_onCluster_ne _ _ hv]
    exact ⟨rfl, rfl, rfl⟩

theorem forecasted_afc (s : State) (u : ClusterId) :
    (s.pwmode.getLsbD 0 = false → (forecasted s u).afc[u] = s.forecast u (s.snapshot u)) ∧
    (s.pwmode.getLsbD 0 = true → (forecasted s u).afc = s.afc) ∧ ∀ v : ClusterId, v ≠ u → (forecasted s u).afc[v] = s.afc[v] := by
  rw [forecasted]
  cases hmode : s.pwmode.getLsbD 0 with
  | true => exact ⟨fun h => Bool.noConfusion h, fun _ => rfl, fun _ _ => rfl⟩
  | false =>
    refine ⟨fun _ => ?_, fun h => Bool.noConfusion h, fun v hv => ?_⟩
    · exact Vector.getElem_set_self u.isLt
    · exact Vector.getElem_set_ne u.isLt v.isLt fun e => hv (Fin.ext e.symm)

/-- What an interval does once the level has taken effect: the starvation guard, draws for a waiting launch, and moves. -/
def intervalMoves (s : State) (u : ClusterId) (all : List Seen) (budget : Nat) : State :=
  let r := all.foldl (fun r x => r.1.guardStage u all x r.2) (all.foldl (fun s x => s.countStarve u x) s, budget)
  match r.1.drawing u with
  | some l => (r.1.draw u all l r.2).1.moves u all true (r.1.draw u all l r.2).2
  | none => r.1.moves u all false r.2

theorem moved_intervalMoves (s : State) (u : ClusterId) (all : List Seen) (budget : Nat) :
    Moved u budget s (intervalMoves s u all budget) := by
  have hcount := moved_countStarve u all s
  have hguard := spends_guard u all all (all.foldl (fun s x => s.countStarve u x) s, budget)
  rw [intervalMoves]
  generalize all.foldl (fun r x => r.1.guardStage u all x r.2) (all.foldl (fun s x => s.countStarve u x) s, budget) = r at hguard
  obtain ⟨hle, hmoved⟩ := hguard
  dsimp only at hle hmoved
  have hfirst : Moved u (budget - r.2) s r.1 := hcount.trans hmoved (by omega)
  split
  next l _ =>
    obtain ⟨hle', hdraw⟩ := spends_draw u all l r.2 r.1
    exact hfirst.trans (hdraw.trans (moved_moves u all true _ _) (Nat.le_refl _)) (by omega)
  · exact hfirst.trans (moved_moves u all false _ _) (by omega)

theorem interval_eq {s : State} {u : ClusterId} (h : s.clusters[u].nextInt ≤ s.clusters[u].clk) :
    s.interval u = intervalMoves ((forecasted s u).throttle u) u (s.snapshot u) (8 - s.waitingMoves u) := by
  have hsnap : (s.onCluster u fun k => { k with nextInt := k.nextInt + 2100 }).snapshot u = s.snapshot u := by
    rw [State.snapshot, clusters_onCluster, State.snapshot]
  have hwait : ((forecasted s u).throttle u).waitingMoves u = s.waitingMoves u := by
    rw [throttle_frame, forecasted_frame]
    rfl
  rw [State.interval, if_neg (by omega)]
  dsimp only
  rw [hsnap, ← hwait]
  rfl

theorem moved_interval {s : State} {u : ClusterId} (h : s.clusters[u].nextInt ≤ s.clusters[u].clk) :
    Moved u (8 - s.waitingMoves u) ((forecasted s u).throttle u) (s.interval u) := by
  rw [interval_eq h]
  exact moved_intervalMoves _ u _ _

/-- Outside gang mode a cluster changes its level alone (R347). -/
theorem levelGroup_alone {s : State} (u : ClusterId) (h : s.pwmode.getLsbD 0 = false) : s.levelGroup u = [u] := by
  rw [State.levelGroup, h, if_neg Bool.false_ne_true]

/-- The next interval and the levels after an interval. -/
theorem levels_interval {s : State} {u : ClusterId} (h : s.clusters[u].nextInt ≤ s.clusters[u].clk) :
    (s.interval u).clusters[u].nextInt = s.clusters[u].nextInt + 2100 ∧
    ∀ v : ClusterId, (v ∉ s.levelGroup u → (s.interval u).clusters[v].level = s.clusters[v].level) ∧
      (v ∈ s.levelGroup u → (s.interval u).clusters[v].level = ((s.levelGroup u).map fun x =>
        if s.mg.thot = true then 3
        else if s.pwmode.getLsbD 0 = true ∨ s.mg.level ≠ s.clusters[x].took then s.mg.level
        else Config.clusterLevel (forecasted s u).afc[x] s.mg.pwnow).foldl max 0 ∧ (s.interval u).clusters[v].took = s.mg.level) := by
  have hmoved := moved_interval h
  have hmg : (forecasted s u).mg = s.mg := by rw [forecasted_frame]
  have hmode : (forecasted s u).pwmode = s.pwmode := by rw [forecasted_frame]
  have hgroup : (forecasted s u).levelGroup u = s.levelGroup u :=
    levelGroup_congr hmode (fun v => (forecasted_cluster s u v).2.2) u
  have hchosen : (forecasted s u).chosen = fun x => if s.mg.thot = true then 3
      else if s.pwmode.getLsbD 0 = true ∨ s.mg.level ≠ s.clusters[x].took then s.mg.level
      else Config.clusterLevel (forecasted s u).afc[x] s.mg.pwnow := by
    funext x
    rw [chosen_eq, hmg, hmode, (forecasted_cluster s u x).2.1]
  have hcluster := fun v => clusters_throttle (forecasted s u) u v
  rw [hgroup, groupLevel_eq_map, hgroup, hchosen, hmg] at hcluster
  refine ⟨?_, fun v => ⟨fun hv => ?_, fun hv => ?_⟩⟩
  · rw [hmoved.clusters u, ← forecasted_nextInt, hcluster]
    split <;> rfl
  · rw [hmoved.clusters v, hcluster, if_neg hv]
    exact (forecasted_cluster s u v).1
  · rw [hmoved.clusters v, hcluster, if_pos hv]
    exact ⟨rfl, rfl⟩

end Sys2Proof.Laws
end

section
/-! SUPPORT. The starts of strands and of launches (R334, R341, R342, R362): the read of the context's entry, the core's start values, the
placement. -/

namespace Sys2Proof.Laws

open Sys2Proof.Machine

/-! ## The device's read of a context's entry, where nothing is in its way -/

theorem foldl_self {α β : Type} {f : β → α → β} {x : β} {l : List α} (h : ∀ a ∈ l, f x a = x) : l.foldl f x = x := by
  induction l with
  | nil => rfl
  | cons a l ih => rw [List.foldl_cons, h a (by simp), ih fun b hb => h b (by simp [hb])]

theorem homeTurn_of_empty {s : State} {pa la : Nat} (hla : pa / 128 = la) (hbarred : s.barred = [])
    (hqueue : s.slices[sliceOf la].queue = []) (hmiss : s.slices[sliceOf la].miss = []) : s.homeTurn pa = s := by
  subst hla
  simp only [State.homeTurn, hbarred, List.contains_nil, Bool.false_eq_true, if_false, hqueue, hmiss]
  rfl

/-- A line of a span holds one of the span's own bytes: its first, or the span's first. -/
theorem span_byte {g pa n i : Nat} (hg : 0 < g) (hn : 0 < n) (hi : g * (pa / g + i) < pa + n) :
    ∃ k, k < n ∧ (pa + k) / g = pa / g + i ∧ (pa + k = g * (pa / g + i) ∨ k = 0) := by
  have hdiv := Nat.div_add_mod pa g
  have hmod := Nat.mod_lt pa hg
  cases i with
  | zero => exact ⟨0, hn, rfl, .inr rfl⟩
  | succ i =>
    have hle : pa ≤ g * (pa / g + (i + 1)) := by
      have : g * (pa / g + (i + 1)) = g * (pa / g) + g + g * i := by ring
      omega
    refine ⟨g * (pa / g + (i + 1)) - pa, by omega, ?_, .inl (by omega)⟩
    rw [Nat.add_sub_cancel' hle, Nat.mul_div_cancel_left _ hg]

theorem spanTurn_of_empty {s : State} {pa n : Nat} (hn : 0 < n) (hbarred : s.barred = [])
    (h : ∀ k, k < n → inHbm (pa + k) = true →
      s.slices[sliceOf ((pa + k) / 128)].queue = [] ∧ s.slices[sliceOf ((pa + k) / 128)].miss = []) : s.spanTurn pa n = s := by
  refine foldl_self fun i _ => ?_
  dsimp only
  split
  next hin =>
    obtain ⟨hlt, hhbm⟩ := hin
    obtain ⟨k, hk, hline, hplace⟩ := span_byte (by omega) hn hlt
    have hlow : 128 * (pa / 128 + i) < 2 ^ 40 := by simpa [inHbm] using hhbm
    obtain ⟨hqueue, hmiss⟩ := h k hk (decide_eq_true (by omega))
    exact homeTurn_of_empty (by omega) hbarred hqueue hmiss
  · rfl

theorem troubled_of_span {s : State} {pa n : Nat} (hn : 0 < n) (h : ∀ k, k < n → inHbm (pa + k) = true → s.troubled ((pa + k) / 32) = false) :
    (spanSectors pa n).filter s.troubled = [] := by
  refine List.filter_eq_nil_iff.2 fun j hj => ?_
  obtain ⟨hmem, hin⟩ := List.mem_filter.1 hj
  obtain ⟨i, -, rfl⟩ := List.mem_map.1 hmem
  rw [Bool.and_eq_true, decide_eq_true_eq] at hin
  obtain ⟨hlt, hhbm⟩ := hin
  obtain ⟨k, hk, hline, hplace⟩ := span_byte (by omega) hn hlt
  have hlow : 32 * (pa / 32 + i) < 2 ^ 40 := by simpa [inHbm] using hhbm
  rw [← hline, h k hk (decide_eq_true (by omega))]
  exact Bool.false_ne_true

theorem checkSpan_of_calm {s : State} {pa n : Nat} (hn : 0 < n) (h : s.Calm pa n) (who : Asker) : s.checkSpan who pa n = (s, false) := by
  obtain ⟨⟨hbarred, -, hslices⟩, hsound⟩ := h
  rw [State.checkSpan, spanTurn_of_empty hn hbarred hslices]
  dsimp only
  rw [troubled_of_span hn hsound]
  rfl

theorem checkCtx_of_calm {s : State} {ctx : Ctx} (h : s.Calm (s.ctxPlace ctx) 64) (pc : Word) : s.checkCtx ctx pc = (s, false) :=
  checkSpan_of_calm (by omega) h _

/-! ## A core with its start values (R342) -/

theorem exec_strandStart (c : CoreId) (s : State) : exec (.strandStart c) s = .next (s.strandStart c) := rfl

/-- Only cores and clusters differ. -/
def SameElsewhere (s t : State) : Prop := t = { s with cores := t.cores, clusters := t.clusters }

theorem SameElsewhere.trans {s t u : State} (h : SameElsewhere s t) (h' : SameElsewhere t u) : SameElsewhere s u := by
  unfold SameElsewhere at *
  rw [h', h]

theorem SameElsewhere.calm {s t : State} (h : SameElsewhere s t) {ctx : Ctx} (hs : s.Calm (s.ctxPlace ctx) 64) :
    t.Calm (t.ctxPlace ctx) 64 := by
  rw [h]
  exact hs

/-- The core as a strand of stage `n` of a launch begins on it. -/
def startedCore (s : State) (c : CoreId) (l : Launch) (n : Nat) : Core :=
  let st : Strand := ⟨l.ctx, l.bound, l.rows, 0, l.gid, n, (l.stage n).fixed, l.lockq, l.levels⟩
  let k := (s.core c).start st (l.stage n).pcs (ctxTvec (s.ctxEntry l.ctx)) (ctxSscr (s.ctxEntry l.ctx))
    (s.strandConsts l.ctx (l.stage n).pcs[0] (s.core c).consts)
  let k := if s.prq.any fun r => r.core == c && !r.restore && r.ctx == l.ctx then { k with req := some .preempt } else k
  if s.checking then k.checkpoint else k

/-- A request that waits for the context that the core now runs is raised (R355, R358). -/
theorem raise_onCore (s : State) (c : CoreId) {k : Core} {st : Strand} (hst : k.strand = some st) (hcommit : k.commit = none) :
    (s.onCore c fun _ => k).raise c = s.onCore c fun _ =>
      if s.prq.any fun r => r.core == c && !r.restore && r.ctx == st.ctx then { k with req := some .preempt } else k := by
  have hany : (s.prq.any fun r => r.core == c && !r.restore && k.strand.any fun st => st.ctx == r.ctx) =
      s.prq.any fun r => r.core == c && !r.restore && r.ctx == st.ctx := by
    congr 1
    funext r
    rw [hst, Option.any_some, BEq.comm (a := st.ctx)]
  have hfree : ({ k with req := some .preempt, commit := none } : Core) = { k with req := some .preempt } := by rw [← hcommit]
  rw [← hany, State.raise, onCore_onCore, ← hfree]
  rfl

theorem checkpoint_onCore (s : State) (c : CoreId) (k : Core) :
    (s.onCore c fun _ => k).checkpoint c = s.onCore c fun _ => if s.checking then k.checkpoint else k := by
  have hsame : (s.onCore c fun _ => k).checking = s.checking := rfl
  rw [State.checkpoint, hsame, onCore_onCore]
  split <;> rfl

theorem startStrand_of_calm {s : State} {l : Launch} (h : s.Calm (s.ctxPlace l.ctx) 64) (c : CoreId) (n : Nat) :
    s.startStrand c l n = s.onCore c fun _ => startedCore s c l n := by
  rw [State.startStrand, checkCtx_of_calm h]
  dsimp only
  rw [if_neg Bool.false_ne_true, raise_onCore s c rfl rfl, checkpoint_onCore]
  rfl

/-! ### The constants that CONST names (R89) -/

theorem foldl_set_of_not_mem {l : List ConstEntry} {v : Vector Word 256} {i : Fin 256} (h : ∀ e ∈ l, e.c ≠ i) :
    (l.foldl (fun v e => v.set e.c e.value) v)[i] = v[i] := by
  induction l generalizing v with
  | nil => rfl
  | cons e l ih =>
    rw [List.foldl_cons, ih fun x hx => h x (by simp [hx])]
    exact Vector.getElem_set_ne e.c.isLt i.isLt fun hei => h e (by simp) (Fin.ext hei)

theorem strandConsts_of_none {s : State} {ctx : Ctx} {entry : Word} {old : Vector Word 256} {i : Fin 256}
    (h : ∀ e ∈ s.consts, e.ctx = ctx → e.entry = entry → e.c ≠ i) : (s.strandConsts ctx entry old)[i] = old[i] := by
  refine foldl_set_of_not_mem fun e he => ?_
  obtain ⟨hmem, hmine⟩ := List.mem_filter.1 he
  rw [Bool.and_eq_true, beq_iff_eq, beq_iff_eq] at hmine
  exact h e hmem hmine.1 hmine.2

/-- The last entry of a constant counts. -/
theorem strandConsts_of_last {s : State} {ctx : Ctx} {entry : Word} {old : Vector Word 256} {pre post : List ConstEntry} {e : ConstEntry}
    (hs : s.consts = pre ++ e :: post) (hctx : e.ctx = ctx) (hentry : e.entry = entry)
    (h : ∀ x ∈ post, x.ctx = ctx → x.entry = entry → x.c ≠ e.c) : (s.strandConsts ctx entry old)[e.c] = e.value := by
  have hmine : (e.ctx == ctx && e.entry == entry) = true := by simp [hctx, hentry]
  rw [State.strandConsts, hs, List.filter_append, List.filter_cons, if_pos hmine, List.foldl_append, List.foldl_cons,
    foldl_set_of_not_mem fun x hx => ?_]
  · exact Vector.getElem_set_self e.c.isLt
  · obtain ⟨hmem, hmine⟩ := List.mem_filter.1 hx
    rw [Bool.and_eq_true, beq_iff_eq, beq_iff_eq] at hmine
    exact h x hmem hmine.1 hmine.2

/-- What a strand's start leaves of the core, whether or not a request waits for it and a checkpoint is taken. -/
theorem startedCore_eq (s : State) (c : CoreId) (l : Launch) (n : Nat) : ∃ chk, startedCore s c l n =
    { (s.core c).start ⟨l.ctx, l.bound, l.rows, 0, l.gid, n, (l.stage n).fixed, l.lockq, l.levels⟩ (l.stage n).pcs
        (ctxTvec (s.ctxEntry l.ctx)) (ctxSscr (s.ctxEntry l.ctx)) (s.strandConsts l.ctx (l.stage n).pcs[0] (s.core c).consts) with
      req := if s.prq.any fun r => r.core == c && !r.restore && r.ctx == l.ctx then some .preempt else none
      chk := chk } := by
  unfold startedCore
  dsimp only
  split <;> split <;> exact ⟨_, rfl⟩

theorem strandStarts_of_core {s u : State} {c : CoreId} {l : Launch} {n : Nat} (h : u.core c = startedCore s c l n) :
    StrandStarts s u c l n := by
  obtain ⟨chk, hchk⟩ := startedCore_eq s c l n
  unfold StrandStarts
  rw [h, hchk]
  refine ⟨rfl, fun q => ?_, rfl, rfl, rfl, rfl, rfl, fun q => ?_, rfl, rfl, rfl, rfl, rfl, fun i hi => strandConsts_of_none hi,
    fun pre post e hs hctx hentry hlast => strandConsts_of_last hs hctx hentry hlast⟩
  · simp [Core.seq, Core.start, SeqSt.start, SeqSt.reset, alignPc]
  · simp [Core.start, Core.vacate, DQueue.reset]

end Sys2Proof.Laws
end

section
/-! SUPPORT. The start of a launch in every cluster that places it (R334): its placement names each core once, and the starts in one
cluster leave the others as they are. -/

namespace Sys2Proof.Laws

open Sys2Proof.Machine

theorem strandStart_of_calm {s : State} {c : CoreId} {gid n : Nat} {l : Launch} (hto : (s.core c).startTo = some (gid, n))
    (hl : s.launch (clusterOf c) gid = some l) (hcalm : s.Calm (s.ctxPlace l.ctx) 64) :
    s.strandStart c = s.onCore c fun _ => startedCore s c l n := by
  rw [State.strandStart, hto]
  dsimp only
  rw [hl]
  exact startStrand_of_calm hcalm c n

/-! ## The placement (R334) -/

/-- Dealing hands the cores out in their order. -/
theorem map_deal (l : List (Nat × Nat)) (cs : List CoreId) : (deal l cs).map (·.2) = cs.take (wanted l) := by
  induction l generalizing cs with
  | nil => simp [deal, wanted]
  | cons x l ih =>
    obtain ⟨n, want⟩ := x
    have hsum : wanted ((n, want) :: l) = want + wanted l := by simp [wanted]
    have htake : ((cs.take want).map fun c => (n, c)).map (·.2) = cs.take want := by
      rw [List.map_map]
      exact List.map_id _
    rw [deal, List.map_append, ih, hsum, List.take_add, htake]

theorem map_flatMap_deal (share : List (Nat × Nat)) (insts : List (List CoreId)) :
    ((insts.flatMap fun cs => deal share cs).map (·.2)).Sublist insts.flatten := by
  induction insts with
  | nil => exact List.Sublist.refl _
  | cons cs insts ih =>
    rw [List.flatMap_cons, List.map_append, List.flatten_cons, map_deal]
    exact (List.take_sublist _ cs).append ih

/-- The instances of D share no core. -/
theorem nodup_instances (l : Launch) (u : ClusterId) {free : List CoreId} (h : free.Nodup) : (l.instances u free).1.flatten.Nodup := by
  unfold Launch.instances
  split
  · refine List.nodup_flatten.2 ⟨fun cs hcs => ?_, ?_⟩
    · obtain ⟨i, -, rfl⟩ := List.mem_map.1 hcs
      exact h.filter _
    · refine List.Pairwise.map _ (fun i j hij => ?_) List.nodup_range
      refine List.disjoint_left.2 fun c hi hj => hij ?_
      have hi' := (List.mem_filter.1 hi).2
      have hj' := (List.mem_filter.1 hj).2
      rw [beq_iff_eq] at hi' hj'
      omega
  · simpa using h

theorem mem_instances {l : Launch} {u : ClusterId} {free : List CoreId} {c : CoreId} (h : c ∈ (l.instances u free).1.flatten) :
    c ∈ free := by
  obtain ⟨cs, hcs, hc⟩ := List.mem_flatten.1 h
  unfold Launch.instances at hcs
  split at hcs
  · obtain ⟨i, -, rfl⟩ := List.mem_map.1 hcs
    exact (List.mem_filter.1 hc).1
  · obtain rfl := List.mem_singleton.1 hcs
    exact hc

/-- The instances of D that take the launch's fixed stages, where it has some. -/
def fixedInsts (l : Launch) (u : ClusterId) (free : List CoreId) (share : List (Nat × Nat)) : List (List CoreId) :=
  if (l.numbered.filter fun x => x.1.fixed).isEmpty then []
  else ((l.instances u free).1.filter fun cs => decide (wanted share ≤ cs.length)).take (l.instances u free).2

theorem fixedInsts_sublist (l : Launch) (u : ClusterId) (free : List CoreId) (share : List (Nat × Nat)) :
    (fixedInsts l u free share).Sublist (l.instances u free).1 := by
  unfold fixedInsts
  split
  · exact List.nil_sublist _
  · exact (List.take_sublist _ _).trans List.filter_sublist

/-- Cores for the fixed stages, and of the free cores left, others for the rest. -/
def placedOn (first : List (Nat × CoreId)) (others : List (Nat × Nat)) (free : List CoreId) : List (Nat × CoreId) :=
  first ++ deal others (free.filter fun c => !(first.any fun x => x.2 == c))

theorem eq_of_guarded {α : Type} {x y : α} {a b : Prop} [Decidable a] [Decidable b]
    (h : (if a then none else if b then none else some x) = some y) : x = y := by
  split at h
  · exact absurd h (by simp)
  · split at h
    · exact absurd h (by simp)
    · exact Option.some.inj h

theorem place_split {l : Launch} {u : ClusterId} {free : List CoreId} {on : List (Nat × CoreId)} (h : l.place u free = some on) :
    ∃ share others, placedOn ((fixedInsts l u free share).flatMap fun cs => deal share cs) others free = on :=
  ⟨_, _, eq_of_guarded h⟩

/-- A placement is of free cores, each named once. -/
theorem place_cores {l : Launch} {u : ClusterId} {free : List CoreId} {on : List (Nat × CoreId)} (hfree : free.Nodup)
    (h : l.place u free = some on) : (on.map (·.2)).Nodup ∧ ∀ p ∈ on, p.2 ∈ free := by
  obtain ⟨share, others, rfl⟩ := place_split h
  have hfirst := (map_flatMap_deal share (fixedInsts l u free share)).trans (fixedInsts_sublist l u free share).flatten
  generalize (fixedInsts l u free share).flatMap (fun cs => deal share cs) = first at hfirst
  generalize hrest : (free.filter fun c => !(first.any fun x => x.2 == c)) = rest
  have hothers : ((deal others rest).map (·.2)).Sublist rest := by
    rw [map_deal]
    exact List.take_sublist _ rest
  have hmap : (placedOn first others free).map (·.2) = first.map (·.2) ++ (deal others rest).map (·.2) := by
    rw [placedOn, hrest, List.map_append]
  have hmem : ∀ c ∈ rest, c ∈ free ∧ c ∉ first.map (·.2) := by
    intro c hc
    rw [← hrest] at hc
    obtain ⟨hin, hout⟩ := List.mem_filter.1 hc
    refine ⟨hin, fun hmem => ?_⟩
    obtain ⟨p, hp, rfl⟩ := List.mem_map.1 hmem
    have hany : (first.any fun x => x.2 == p.2) = true := List.any_eq_true.2 ⟨p, hp, beq_self_eq_true p.2⟩
    rw [hany] at hout
    exact Bool.noConfusion hout
  constructor
  · rw [hmap]
    refine List.nodup_append'.2 ⟨(nodup_instances l u hfree).sublist hfirst, ?_, ?_⟩
    · exact List.Nodup.sublist hothers (hrest ▸ hfree.filter _)
    · exact List.disjoint_left.2 fun c hc hc' => (hmem c (hothers.subset hc')).2 hc
  · intro p hp
    have hp' : p.2 ∈ first.map (·.2) ++ (deal others rest).map (·.2) := by
      rw [← hmap]
      exact List.mem_map_of_mem hp
    obtain hin | hin := List.mem_append.1 hp'
    · exact mem_instances (hfirst.subset hin)
    · exact (hmem _ (hothers.subset hin)).1

/-- Where a launch can start, its placement names idle cores of the cluster, each once. -/
theorem canStart_cores {s : State} {u : ClusterId} {gid : Nat} {on : List (Nat × CoreId)} (h : s.canStart u gid = some on) :
    (on.map (·.2)).Nodup ∧ ∀ p ∈ on, clusterOf p.2 = u := by
  unfold State.canStart at h
  split at h
  · split at h
    · obtain ⟨hnodup, hmem⟩ := place_cores ((nodup_coresOf u).filter _) h
      exact ⟨hnodup, fun p hp => clusterOf_of_mem_coresOf (List.mem_filter.1 (hmem p hp)).1⟩
    · exact absurd h (by simp)
  · exact absurd h (by simp)

/-- A placement depends on the cluster and its cores alone. -/
theorem canStart_congr {s t : State} {u : ClusterId} (hcluster : t.clusters[u] = s.clusters[u])
    (hcores : ∀ c, clusterOf c = u → t.core c = s.core c) (gid : Nat) : t.canStart u gid = s.canStart u gid := by
  have hidle : t.idleCores u = s.idleCores u := List.filter_congr fun c hc => by rw [hcores c (clusterOf_of_mem_coresOf hc)]
  rw [State.canStart, State.canStart, hcluster, hidle]

/-! ## The start of a launch -/

theorem launch_onLaunch (s : State) (u : ClusterId) (gid : Nat) {f : Launch → Launch} (hf : ∀ l, (f l).gid = l.gid) :
    (s.onLaunch u gid f).launch u gid = (s.launch u gid).map f := by
  rw [State.launch, State.onLaunch, clusters_onCluster, State.launch, List.find?_map]
  generalize s.clusters[u].launches = ls
  induction ls with
  | nil => rfl
  | cons l ls ih =>
    have hkeep : (if (l.gid == gid) = true then f l else l).gid = l.gid := by
      split
      · exact hf l
      · rfl
    rw [List.find?_cons, List.find?_cons]
    dsimp only [Function.comp]
    rw [hkeep]
    cases hl : l.gid == gid with
    | true => exact congrArg some (if_pos hl)
    | false => exact ih

theorem clusters_onLaunch_ne (s : State) {u v : ClusterId} (gid : Nat) (f : Launch → Launch) (h : v ≠ u) :
    (s.onLaunch u gid f).clusters[v] = s.clusters[v] := by
  rw [State.onLaunch, clusters_onCluster_ne _ _ h]

theorem SameElsewhere.shownBytes {s t : State} (h : SameElsewhere s t) (pa n : Nat) : t.shownBytes pa n = s.shownBytes pa n := by
  induction n generalizing pa with
  | zero => rfl
  | succ n ih =>
    have hbyte : t.shownByte pa = s.shownByte pa := by
      rw [h]
      rfl
    rw [State.shownBytes, State.shownBytes, hbyte, ih]

theorem startedCore_congr {s t : State} (h : SameElsewhere s t) {c : CoreId} (hc : t.core c = s.core c) (l : Launch) (n : Nat) :
    startedCore t c l n = startedCore s c l n := by
  have hpf : t.pf = s.pf := by rw [h]
  have hentry : t.ctxEntry l.ctx = s.ctxEntry l.ctx := by
    rw [State.ctxEntry, h.shownBytes, State.ctxPlace, hpf, State.ctxEntry, State.ctxPlace]
  have hconsts : t.consts = s.consts := by rw [h]
  have hprq : t.prq = s.prq := by rw [h]
  have hrel : t.rel = s.rel := by rw [h]
  unfold startedCore State.strandConsts State.checking
  rw [hc, hentry, hconsts, hprq, hrel]

/-- Strands start on distinct cores, each as if it were alone. -/
theorem startStrands {s : State} {l : Launch} (hcalm : s.Calm (s.ctxPlace l.ctx) 64) (on : List (Nat × CoreId)) :
    ∀ t, SameElsewhere s t → (on.map (·.2)).Nodup → (∀ p ∈ on, t.core p.2 = s.core p.2) →
      ∃ r, on.foldl (fun t x => t.startStrand x.2 l x.1) t = r ∧ r = { t with cores := r.cores } ∧
        (∀ p ∈ on, r.core p.2 = startedCore s p.2 l p.1) ∧ ∀ c, c ∉ on.map (·.2) → r.core c = t.core c := by
  induction on with
  | nil => exact fun t _ _ _ => ⟨t, rfl, rfl, by simp, fun _ _ => rfl⟩
  | cons p on ih =>
    intro t hsame hnodup hcores
    obtain ⟨hp, hon⟩ := List.nodup_cons.1 hnodup
    have hstart : t.startStrand p.2 l p.1 = t.onCore p.2 fun _ => startedCore s p.2 l p.1 := by
      rw [startStrand_of_calm (hsame.calm hcalm), startedCore_congr hsame (hcores p (by simp))]
    have hne : ∀ q ∈ on, q.2 ≠ p.2 := fun q hq heq => hp (List.mem_map.2 ⟨q, hq, heq⟩)
    obtain ⟨r, hr, hframe, hstarted, hrest⟩ := ih (t.onCore p.2 fun _ => startedCore s p.2 l p.1) (hsame.trans rfl) hon
      fun q hq => by rw [State.core_onCore_ne _ _ _ _ (hne q hq), hcores q (by simp [hq])]
    refine ⟨r, by rw [List.foldl_cons, hstart, hr], hframe, fun q hq => ?_, fun c hc => ?_⟩
    · obtain rfl | hq := List.mem_cons.1 hq
      · rw [hrest _ hp, State.core_onCore]
      · exact hstarted q hq
    · rw [List.map_cons, List.mem_cons, not_or] at hc
      rw [hrest c hc.2, State.core_onCore_ne _ _ _ _ hc.1]

/-- The launch runs in the cluster, and its strands have started on the cores placed for them. -/
def RunsIn (s : State) (gid : Nat) (v : ClusterId) (t : State) : Prop :=
  ∃ x on, s.launch v gid = some x ∧ t.launch v gid = some { x with running := true } ∧ s.canStart v gid = some on ∧
    ∀ p ∈ on, t.core p.2 = startedCore s p.2 x p.1

theorem RunsIn.congr {s t r : State} {gid : Nat} {v : ClusterId} (h : RunsIn s gid v t) (hcluster : r.clusters[v] = t.clusters[v])
    (hcores : ∀ c, clusterOf c = v → r.core c = t.core c) : RunsIn s gid v r := by
  obtain ⟨x, on, hx, hrun, hon, hstarted⟩ := h
  refine ⟨x, on, hx, ?_, hon, fun p hp => ?_⟩
  · rw [State.launch, hcluster]
    exact hrun
  · rw [hcores _ ((canStart_cores hon).2 p hp), hstarted p hp]

/-- One cluster's part of the start, the cluster being as it was when the launch was found to start. -/
theorem startOn_spec {s t : State} {v : ClusterId} {gid : Nat} {x : Launch} {on : List (Nat × CoreId)} (hsame : SameElsewhere s t)
    (hcluster : t.clusters[v] = s.clusters[v]) (hcores : ∀ c, clusterOf c = v → t.core c = s.core c)
    (hx : s.launch v gid = some x) (hon : s.canStart v gid = some on) (hcalm : s.Calm (s.ctxPlace x.ctx) 64) :
    ∃ r, t.startOn v gid on = r ∧ SameElsewhere t r ∧ RunsIn s gid v r ∧
      (∀ w : ClusterId, w ≠ v → r.clusters[w] = t.clusters[w]) ∧ ∀ c, clusterOf c ≠ v → r.core c = t.core c := by
  obtain ⟨hnodup, hmine⟩ := canStart_cores hon
  have hlaunch : (t.onLaunch v gid fun l => { l with running := true }).launch v gid = some { x with running := true } := by
    have hx' : t.launch v gid = some x := by rw [State.launch, hcluster]; exact hx
    rw [launch_onLaunch t v gid (f := fun l => { l with running := true }) fun _ => rfl, hx']
    rfl
  obtain ⟨r, hr, hframe, hstarted, hrest⟩ := startStrands (l := { x with running := true }) hcalm on
    (t.onLaunch v gid fun l => { l with running := true }) (hsame.trans rfl) hnodup fun p hp => hcores p.2 (hmine p hp)
  refine ⟨r, ?_, ?_, ⟨x, on, hx, ?_, hon, hstarted⟩, fun w hw => ?_, fun c hc => ?_⟩
  · rw [State.startOn, hlaunch]
    exact hr
  · unfold SameElsewhere
    rw [hframe]
    rfl
  · rw [hframe]
    exact hlaunch
  · rw [hframe]
    exact clusters_onLaunch_ne t gid _ hw
  · refine hrest c fun hmem => hc ?_
    obtain ⟨p, hp, rfl⟩ := List.mem_map.1 hmem
    exact hmine p hp

/-- A launch starts in each of its clusters (R334, log 19). -/
theorem startAll {s : State} {gid : Nat} (us : List ClusterId) (hstart : ∀ v ∈ us, s.canStart v gid ≠ none)
    (hlaunch : ∀ v ∈ us, ∃ x, s.launch v gid = some x ∧ s.Calm (s.ctxPlace x.ctx) 64) (hnodup : us.Nodup) :
    ∀ t, SameElsewhere s t → (∀ v ∈ us, t.clusters[v] = s.clusters[v]) → (∀ c, clusterOf c ∈ us → t.core c = s.core c) →
      ∃ r, us.foldl (fun t v => t.startOn v gid ((t.canStart v gid).getD [])) t = r ∧ SameElsewhere t r ∧
        (∀ v ∈ us, RunsIn s gid v r) ∧ (∀ w : ClusterId, w ∉ us → r.clusters[w] = t.clusters[w]) ∧
        ∀ c, clusterOf c ∉ us → r.core c = t.core c := by
  induction us with
  | nil => exact fun t _ _ _ => ⟨t, rfl, rfl, by simp, fun _ _ => rfl, fun _ _ => rfl⟩
  | cons v us ih =>
    intro t hsame hclusters hcores
    obtain ⟨hv, hus⟩ := List.nodup_cons.1 hnodup
    obtain ⟨x, hx, hcalm⟩ := hlaunch v (by simp)
    obtain ⟨on, hon⟩ := Option.ne_none_iff_exists'.1 (hstart v (by simp))
    have hmine : ∀ c, clusterOf c = v → t.core c = s.core c := fun c hc => hcores c (by simp [hc])
    have honT : t.canStart v gid = some on := by rw [canStart_congr (hclusters v (by simp)) hmine, hon]
    obtain ⟨q, hq, hsameQ, hruns, hclustersQ, hcoresQ⟩ := startOn_spec hsame (hclusters v (by simp)) hmine hx hon hcalm
    have hne : ∀ w ∈ us, w ≠ v := fun w hw heq => hv (heq ▸ hw)
    obtain ⟨r, hr, hsameR, hrunsR, hclustersR, hcoresR⟩ := ih (fun w hw => hstart w (by simp [hw]))
      (fun w hw => hlaunch w (by simp [hw])) hus q (hsame.trans hsameQ)
      (fun w hw => by rw [hclustersQ w (hne w hw), hclusters w (by simp [hw])])
      (fun c hc => by rw [hcoresQ c (hne _ hc), hcores c (by simp [hc])])
    refine ⟨r, ?_, hsameQ.trans hsameR, fun w hw => ?_, fun w hw => ?_, fun c hc => ?_⟩
    · rw [List.foldl_cons, honT, Option.getD_some, hq, hr]
    · obtain rfl | hw := List.mem_cons.1 hw
      · exact hruns.congr (hclustersR w hv) fun c hc => hcoresR c (by rwa [hc])
      · exact hrunsR w hw
    · rw [List.mem_cons, not_or] at hw
      rw [hclustersR w hw.2, hclustersQ w hw.1]
    · rw [List.mem_cons, not_or] at hc
      rw [hcoresR c hc.2, hcoresQ c hc.1]

theorem exec_launchStart (u : ClusterId) (s : State) : exec (.launchStart u) s = .next (s.launchStart u) := rfl

/-- The head waits while some cluster cannot place it, and before its service's state. -/
theorem launchStart_waits {s : State} {u : ClusterId} {l : Launch} (hl : s.clusters[u].head = some l)
    (h : s.mgst < 3 ∨ ∃ v ∈ s.clustersOf l.gid, s.canStart v l.gid = none) : s.launchStart u = s := by
  have hwait : (decide (s.mgst < 3) || (s.clustersOf l.gid).any fun v => (s.canStart v l.gid).isNone) = true := by
    simpa using h
  rw [State.launchStart, hl]
  dsimp only
  rw [if_pos hwait]

theorem launchStart_starts {s : State} {u : ClusterId} {l : Launch} (hl : s.clusters[u].head = some l) (hup : 3 ≤ s.mgst)
    (hstart : ∀ v ∈ s.clustersOf l.gid, s.canStart v l.gid ≠ none)
    (hcalm : ∀ v x, s.launch v l.gid = some x → s.Calm (s.ctxPlace x.ctx) 64) :
    SameElsewhere s (s.launchStart u) ∧ ∀ v ∈ s.clustersOf l.gid, RunsIn s l.gid v (s.launchStart u) := by
  have hgo : ¬(decide (s.mgst < 3) || (s.clustersOf l.gid).any fun v => (s.canStart v l.gid).isNone) = true := by
    simpa [hup] using hstart
  have hlaunch : ∀ v ∈ s.clustersOf l.gid, ∃ x, s.launch v l.gid = some x ∧ s.Calm (s.ctxPlace x.ctx) 64 := by
    intro v hv
    obtain ⟨x, hx⟩ := Option.isSome_iff_exists.1 (List.mem_filter.1 hv).2
    exact ⟨x, hx, hcalm v x hx⟩
  obtain ⟨r, hr, hsame, hruns, -, -⟩ := startAll (s.clustersOf l.gid) hstart hlaunch ((List.nodup_finRange 16).filter _) s rfl
    (fun _ _ => rfl) fun _ _ => rfl
  rw [State.launchStart, hl]
  dsimp only
  rw [if_neg hgo, hr]
  exact ⟨hsame, hruns⟩

end Sys2Proof.Laws
end

section
/-! THEOREM. Decisions, VF resets, intervals and launches (O57). -/

namespace Sys2Proof.Laws

open Sys2Proof.Machine

/-! ## An instruction passed over (R360, R378) -/

section
variable {i : Byte} {s : State} {n : Nat} {c : CoreId} {q : Seq} {w : Word}
  (hskip : exec (.vdecSkip i) s = .next ((decided s n).onCore c fun k =>
    if q = .ex then pastOnEx k w (s.clkOf c) else if q = .ctl then pastOnCtl k w s.checking else k.onSeq q (pastInstr w)))
include hskip

/-- On a sequencer other than EX its state goes past the instruction; on CTL the checker's log may hold it too. -/
theorem runs_skip_other (hne : q ≠ .ex) : Runs (.vdecSkip i) s fun u => (q ≠ .ctl → (u.core c).chk = (s.core c).chk) ∧
    u = (decided s n).onCore c fun k => { k.onSeq q (pastInstr w) with chk := (u.core c).chk } := by
  refine ⟨_, hskip, ?_⟩
  beta_reduce
  rw [State.core_onCore]
  simp only [if_neg hne]
  by_cases hctl : q = .ctl
  · refine ⟨fun h => absurd hctl h, onCore_congr ?_⟩
    simp only [if_pos hctl]
    rw [hctl]
    exact pastOnCtl_eq _ _ _
  · simp only [if_neg hctl]
    exact ⟨fun _ => rfl, rfl⟩

/-- On EX the instruction takes its slot and its clk, and results land there (R81, R95). -/
theorem runs_skip_ex (hex : q = .ex) : Runs (.vdecSkip i) s fun u =>
    u = (decided s n).onCore c (fun k => { k with seqs := (u.core c).seqs, ex := (u.core c).ex }) ∧
    (∀ x, x ≠ .ex → (u.core c).seq x = (s.core c).seq x) ∧
    (u.core c).seq .ex = { pastInstr w ((s.core c).seq .ex) with regs := ((u.core c).seq .ex).regs } ∧
    (u.core c).ex.slot = (s.core c).ex.slot + 1 ∧
    (u.core c).ex.free = max (s.core c).ex.free (s.clkOf c + 1) ∧
    (u.core c).ex.ycnt = if ((s.core c).seq .ex).inTrap = true ∨ (s.core c).divert ≠ none then (s.core c).ex.ycnt
      else if ypOf w = true then 1 else (s.core c).ex.ycnt + 1 := by
  refine ⟨_, hskip, ?_⟩
  beta_reduce
  simp only [if_pos hex]
  rw [State.core_onCore]
  obtain ⟨hcore, hothers, hmine, hslot, hfree, hycnt⟩ := pastOnEx_spec (s.core c) w (s.clkOf c)
  exact ⟨onCore_congr hcore, hothers, hmine, hslot, hfree, hycnt⟩

end

/-! ## O57 -/

/-- Settles O57: a decision by the frozen master, a termination and a reset by what they leave of the VF and its record, an interval by
the cores that each unit of its budget moves, a launch by its starts one cluster and one core at a time. -/
theorem decisionsAndStarts : Obligations.DecisionsAndStarts := by
  unfold Obligations.DecisionsAndStarts
  refine ⟨?_, ?_, ?_, ?_, ?_, ?_, ?_, ?_, ?_, ?_, ?_, ?_⟩
  · intro i s h
    rw [exec_vdecRetry, exec_vdecSkip, exec_vdecTerminate, decide_of_none h, decide_of_none h, decide_of_none h]
    exact ⟨rfl, rfl, rfl⟩
  · intro i s pre post n v hsplit hpre hn hup
    have hretry : exec (.vdecRetry i) s = .next ((decided s n).thaw v false) := by
      rw [exec_vdecRetry, decide_of_found hsplit hpre hn hup]
    have hskip : exec (.vdecSkip i) s = .next ((decided s n).thaw v true) := by
      rw [exec_vdecSkip, decide_of_found hsplit hpre hn hup]
    have hterm : exec (.vdecTerminate i) s = .next ((decided s n).terminate v.ctx) := by
      rw [exec_vdecTerminate, decide_of_found hsplit hpre hn hup]
    refine ⟨hterm, ?_, ?_, ?_, ?_⟩
    · rintro c hv rfl a h b hheld ha hh
      rw [hretry, hskip, thaw_of_held (s := decided s n) hv hheld ha hh, thaw_of_held (s := decided s n) hv hheld ha hh]
      exact ⟨rfl, rfl⟩
    · rintro c q hv rfl hq hheld
      refine ⟨fun hrun hst => ⟨?_, fun w0 w1 hfetch past hpast => ?_⟩, fun hrun => ?_⟩
      · rw [hretry, thaw_retry (s := decided s n) hv hq hheld hrun hst]
        rfl
      · obtain rfl : past = pastInstr w0 := funext hpast
        rw [thaw_skip (s := decided s n) hv hq hheld hrun hst hfetch] at hskip
        exact ⟨runs_skip_other hskip, runs_skip_ex hskip⟩
      · rw [hretry, hskip, thaw_of_not_frozen (s := decided s n) hv hq hheld hrun, thaw_of_not_frozen (s := decided s n) hv hq hheld hrun]
        exact ⟨rfl, rfl⟩
    · intro e hv
      have hv' : v.master = masterOf e := by rw [hv]; cases e <;> rfl
      refine ⟨fun hk => ?_, fun hk a m b hcmds ha hm hq => ?_⟩
      · obtain ⟨hs, hr⟩ := thaw_engine_hitch (s := decided s n) hv' hk
        rw [hretry, hskip, hs, hr]
        exact ⟨rfl, rfl⟩
      · rw [hretry, hskip, thaw_engine_cmd (s := decided s n) hv' hk hcmds ha hm, thaw_engine_cmd (s := decided s n) hv' hk hcmds ha hm]
        refine ⟨?_, ?_⟩
        · unfold EngCmd.waitsFrom
          rfl
        · rw [if_pos rfl, passed_waitsFrom (hq.trans (congrArg some hv'))]
          rfl
    · intro hv vf hvf
      rw [hretry, hskip, thaw_vf (s := decided s n) hv hvf, thaw_vf (s := decided s n) hv hvf]
      exact ⟨rfl, rfl⟩
  · rintro ctx s t rfl
    refine ⟨terminate_frame s ctx, fun n r => ?_, fun vf => ?_, fun c => ?_, fun u => ⟨fun e => ?_, fun l => ?_, hitch_terminate s ctx⟩,
      mem_vpend_terminate s ctx⟩
    · rw [slices_terminate]
      exact ⟨mem_slice_terminate _ ctx r, mem_slice_terminate _ ctx r⟩
    · obtain ⟨ents, heq, -⟩ := vfs_terminate s ctx vf
      rw [heq]
    · obtain ⟨hpad, htlb, hcode, -⟩ := terminate_kept (s.core c) ctx
      rw [core_terminate, hpad, htlb, hcode]
      exact ⟨fun st hst hctx => terminate_of_own hst hctx, terminate_of_other, rfl, fun e => by simp, fun e => by simp,
        fun e he m hm => terminate_cmds he hm⟩
    · rw [clusters_terminate, Cluster.terminate, List.mem_filter]
      simp
    · rw [clusters_terminate, Cluster.terminate, List.mem_filter]
      simp
  · intro vf s h
    rw [exec_vfReset, State.vfUp, decide_eq_false (by omega), if_neg Bool.false_ne_true]
  · intro vf s h hout
    refine ⟨s.vfReset vf, by rw [exec_vfReset, State.vfUp, decide_eq_true h, if_pos rfl], ?_⟩
    rw [vfReset_owed hout]
    refine ⟨?_, _, _, rfl, resetRecord_count _ _⟩
    rw [vfEmptied_frame]
  · intro vf s h _ hout hclean
    refine ⟨s.vfReset vf, by rw [exec_vfReset, State.vfUp, decide_eq_true h, if_pos rfl], ?_⟩
    obtain ⟨hcores, hvpend, hprq, ⟨tail, hvf⟩, hothers, hpeek⟩ := vfReset_spec hout hclean
    obtain ⟨hgone, hkept⟩ := vfEmptied_cores s vf
    have hcore : ∀ c, (s.vfReset vf).core c = (vfEmptied s vf).core c := fun c => by rw [State.core, hcores, State.core]
    rw [hvpend, hprq, hvf, (vfEmptied_vfs s vf).1]
    refine ⟨fun c st hst hctx => ?_, fun c hall => ?_, fun p hp => mem_vfEmptied_vpend hp, mem_vfEmptied_prq s vf, rfl, rfl, rfl,
      fun q => ?_, hothers, fun hs halign hlow => ?_⟩
    · rw [hcore, hgone c st hst hctx]
    · rw [hcore, hkept c hall]
    · simp
    · obtain ⟨hcount, hzero⟩ := peek_vfRecorded vf hs
      rw [peekBytes_congr fun i hi => hpeek _ (by omega), peekBytes_congr fun i hi => hpeek _ (by omega)]
      exact ⟨hcount, hzero⟩
  · intro u s h
    rw [exec_schedInterval, State.interval, if_pos h]
  · intro u s h
    refine ⟨s.interval u, exec_schedInterval u s, ?_⟩
    have hmoved := moved_interval h
    obtain ⟨hafc, hgang, hothers⟩ := forecasted_afc s u
    have hafc' : (s.interval u).afc = (forecasted s u).afc := by rw [hmoved.frame, throttle_frame]
    have hcore : ∀ c, ((forecasted s u).throttle u).core c = s.core c := fun c => by
      rw [throttle_frame, forecasted_frame]
      rfl
    have hlevel := levels_interval h
    rw [← hafc'] at hlevel hafc hgang hothers
    refine ⟨?_, hlevel.1, hlevel.2, levelGroup_alone u, hafc, hgang, hothers, fun c => ?_, fun c hc => ?_, ?_⟩
    · rw [hmoved.frame, throttle_frame, forecasted_frame]
    · have := hmoved.core c
      rwa [hcore] at this
    · rw [hmoved.core_other hc, hcore]
    · have := hmoved.changed_le
      simpa only [hcore] using this
  · intro u s h
    rw [exec_launchStart, State.launchStart, h]
  · intro u l s hl
    refine ⟨fun hwaits => by rw [exec_launchStart, launchStart_waits hl hwaits], fun hup hstart hcalm => ?_⟩
    obtain ⟨hsame, hruns⟩ := launchStart_starts hl hup hstart hcalm
    refine ⟨_, exec_launchStart u s, hsame, fun v hv => ?_⟩
    obtain ⟨x, on, hx, hrun, hon, hstarted⟩ := hruns v hv
    exact ⟨x, on, hx, hrun, hon, fun p hp => strandStarts_of_core (hstarted p hp)⟩
  · intro c s h
    rw [exec_strandStart, State.strandStart, h]
  · intro c gid n s hto
    refine ⟨fun hl => ?_, fun l t hl hlost => ?_, fun l hl hcalm => ?_⟩
    · rw [exec_strandStart, State.strandStart, hto]
      dsimp only
      rw [hl]
    · rw [exec_strandStart, State.strandStart, hto]
      dsimp only
      rw [hl]
      dsimp only
      rw [State.startStrand, hlost]
      rfl
    · rw [Runs, exec_strandStart, strandStart_of_calm hto hl hcalm]
      exact ⟨_, rfl, rfl, fun d hd => State.core_onCore_ne _ _ _ _ hd, strandStarts_of_core (State.core_onCore _ _ _)⟩

end Sys2Proof.Laws
end

section
/-! SUPPORT. Violations and execution traps of control and special-register instructions: each finds its fault before it changes
anything (R91, R103-R112, R352-R354, R360). -/

namespace Sys2Proof.Laws

open BitVec Sys2Proof.Machine

/-! ## Privilege violations (R91, R354, R360) -/

/-- Settles O17: each is a violation before anything else of the instruction. -/
theorem privilegeViolations : Obligations.PrivilegeViolations := by
  unfold Obligations.PrivilegeViolations
  refine ⟨fun d r s hsup huser => ⟨_, ?_, freezes_violate s _ _⟩, fun src r s hsup huser => ⟨_, ?_, freezes_violate s _ _⟩,
    fun s huser => ⟨_, ?_, freezes_violate s _ _⟩⟩
  · exact show execMfsr d r s = _ by simp [execMfsr, hsup, huser]
  · exact show execMtsr src r s = _ by simp [execMtsr, hsup, huser]
  · exact show execEret s = _ by simp [execEret, huser]

/-! ## Execution traps (R352) -/

theorem runs_traps {i : Instr} {s : State} (hin : s.me.inTrap = false) {c : Cause} (h : exec i s = .next (s.execTrap c)) :
    Runs i s fun u => Traps s u c s.me.pc 0 :=
  ⟨_, h, traps_takeTrap hin _ _ _⟩

/-- The low three bits of a target (R103). -/
theorem extractLsb'_three_eq_zero_iff (x : Word) : x.extractLsb' 0 3 = 0 ↔ x.toNat % 8 = 0 := by
  rw [← BitVec.toNat_inj, BitVec.extractLsb'_toNat, Nat.shiftRight_zero]
  rfl

theorem signExtend_eq_ofInt (off : BitVec 32) : off.signExtend 64 = BitVec.ofInt 64 off.toInt := by
  rw [BitVec.signExtend]

/-- An access in a mode that may make it is no privilege violation (R91). -/
theorem privilege_of_mode {r : Spr} {s : State} (h : sprSup r = true → s.me.sup = true) : (sprSup r && !s.me.sup) = false := by
  cases hs : sprSup r
  · rfl
  · rw [h hs]
    rfl

theorem enterLoop_of_deep {s : State} (h : s.me.depth = 4) (n : Fin 4) (count : BitVec 32) (stop : Word) :
    enterLoop n count stop s = s.execTrap .loopDepth := by
  rw [enterLoop, if_pos h]

theorem enterLoop_of_busy {s : State} {n : Fin 4} (h : s.me.depth ≠ 4) (hbusy : loopBusy s.me n = true)
    (count : BitVec 32) (stop : Word) :
    enterLoop n count stop s = s.execTrap .loopCounterBusy := by
  rw [enterLoop, if_neg h, if_pos hbusy]

/-- Settles O19: each finds its fault before it changes anything. -/
theorem executionTraps : Obligations.ExecutionTraps := by
  unfold Obligations.ExecutionTraps
  intro s hin
  refine ⟨fun l b off hodd => runs_traps hin ?_, fun b hodd => runs_traps hin ?_, fun n src e hdeep => runs_traps hin ?_,
    fun n src e hroom hbusy => runs_traps hin ?_, fun n c e hdeep => runs_traps hin ?_, fun n c e hroom hbusy => runs_traps hin ?_,
    fun src hnone => runs_traps hin ?_, fun t n hself hover => runs_traps hin ?_, fun t n hself hless => runs_traps hin ?_,
    fun src hfly hfull => runs_traps hin ?_, fun hsup => runs_traps hin ?_, fun d tag r rest hrq htag => runs_traps hin ?_,
    fun src r hmode hbad => runs_traps hin ?_⟩
  · rw [← signExtend_eq_ofInt, Ne, ← extractLsb'_three_eq_zero_iff] at hodd
    exact show execJr l b off s = _ by rw [execJr, if_pos hodd]
  · rw [Ne, ← extractLsb'_three_eq_zero_iff] at hodd
    exact show execRet b s = _ by rw [execRet, if_pos hodd]
  · exact congrArg Host.Outcome.next (enterLoop_of_deep hdeep _ _ _)
  · exact congrArg Host.Outcome.next (enterLoop_of_busy hroom hbusy _ _)
  · exact congrArg Host.Outcome.next (enterLoop_of_deep hdeep _ _ _)
  · exact congrArg Host.Outcome.next (enterLoop_of_busy hroom hbusy _ _)
  · exact show execLexit src s = _ by rw [execLexit, if_pos hnone]
  · exact show execToks t n s = _ by rw [execToks, if_pos hover, if_pos hself]
  · exact show execTokw t n s = _ by rw [execTokw, if_pos hless, if_pos hself]
  · exact show execBqp src s.cur.2.num s = _ by simp [execBqp, hfly, hfull]
  · exact show execEret s = _ by simp [execEret, hsup, hin]
  · exact show execRpop d tag false s = _ by simp [execRpop, hrq, htag]
  · have hpriv := privilege_of_mode hmode
    have hrefused : (!sprWrites s.me.sup r || !s.sprOk r (s.src src)) = true := by simpa using hbad
    exact show execMtsr src r s = _ by simp [execMtsr, hpriv, hrefused]

end Sys2Proof.Laws
end

section
/-! SUPPORT. The scalar table (R98-R100): the exact results agree with R99's in the low w bits, and the register value is R99's. -/

namespace Sys2Proof.Laws

open BitVec Sys2Proof.Machine

/-! ## The scalar table (R98-R100) -/

theorem wrap_eq_toNat_ofInt (w : Nat) (r : Int) : wrap w r = (BitVec.ofInt w r).toNat := by
  rw [BitVec.toNat_ofInt, wrap]
  norm_cast

/-- The register value of an exact result is the one of R99's table. -/
theorem styResult_eq_tyFit (t : STy) (r : Int) : styResult t r = tyFit t r := by
  cases t <;> simp only [styResult, tyFit, styWidth, stySigned, wrap_eq_toNat_ofInt, sval_toNat, if_true, if_false, Bool.false_eq_true]
  · exact BitVec.ofInt_toInt
  · exact (BitVec.ofNat_toNat 64 _).trans (BitVec.setWidth_eq _)
  · rfl
  · exact BitVec.ofNat_toNat 64 _

/-- Only the low w bits of an exact result count. -/
theorem styResult_congr {t : STy} {r r' : Int} (h : r ≡ r' [ZMOD 2 ^ styWidth t]) : styResult t r = styResult t r' := by
  rw [styResult, wrap, h]
  rfl

theorem styBits_lt (t : STy) (x : Word) : styBits t x < 2 ^ styWidth t := Nat.mod_lt _ (Nat.two_pow_pos _)

theorem tyVal_eq_styVal (t : STy) (x : Word) : tyVal t x = styVal t (styBits t x) := by
  have h64 : x.toNat % 2 ^ 64 = x.toNat := Nat.mod_eq_of_lt x.isLt
  cases t <;> simp only [tyVal, styVal, ival, stySigned, styWidth, styBits, h64, ← sval_toNat, BitVec.toNat_setWidth, if_true, if_false,
    Bool.false_eq_true]

/-- A source's value and its w bits differ by a multiple of 2^w. -/
theorem sval_modEq (w x : Nat) : sval w x ≡ x [ZMOD 2 ^ w] := by
  unfold sval
  split
  · rfl
  · simp [Int.ModEq]

theorem tyVal_modEq (t : STy) (x : Word) : tyVal t x ≡ styBits t x [ZMOD 2 ^ styWidth t] := by
  rw [tyVal_eq_styVal, styVal, ival]
  split
  · exact sval_modEq _ _
  · rfl

theorem natCast_modEq_mod (n w : Nat) : (n : Int) ≡ ((n % 2 ^ w : Nat) : Int) [ZMOD 2 ^ w] := by
  exact_mod_cast (Int.natCast_modEq_iff.2 (Nat.mod_modEq n (2 ^ w)).symm)

/-- The value is zero where the bits are. -/
theorem tyVal_eq_zero_iff (t : STy) (x : Word) : tyVal t x = 0 ↔ styBits t x = 0 := by
  rw [tyVal_eq_styVal, styVal, ival, sval]
  have hlt : (styBits t x : Int) < (2 : Int) ^ styWidth t := by exact_mod_cast styBits_lt t x
  split_ifs
  · exact Int.natCast_eq_zero
  · have hpos := Nat.two_pow_pos (styWidth t)
    constructor <;> omega
  · exact Int.natCast_eq_zero

theorem shiftAmount_styBits (t : STy) (x : Word) : shiftAmount t (styBits t x) = x.toNat % tyBits t := by
  cases t <;> simp only [shiftAmount, styBits, styWidth, tyBits] <;> omega

theorem countP_testBit_mod (x w : Nat) :
    ((List.range w).countP fun b => (x % 2 ^ w).testBit b) = (List.range w).countP fun b => x.testBit b := by
  refine List.countP_congr fun b hb => ?_
  simp [Nat.testBit_mod_two_pow, List.mem_range.1 hb]

theorem leadZeros_eq {w x : Nat} (h : x < 2 ^ w) : leadZeros x w = if x = 0 then w else w - 1 - Nat.log2 x := by
  induction w with
  | zero =>
    obtain rfl : x = 0 := by simpa using h
    rfl
  | succ w ih =>
    rw [leadZeros, Nat.shiftRight_eq_div_pow]
    by_cases hx : x < 2 ^ w
    · rw [Nat.div_eq_of_lt hx, if_neg (by decide), ih hx]
      split_ifs with h0
      · omega
      · have := (Nat.log2_lt h0).2 hx
        omega
    · have hdiv : x / 2 ^ w = 1 := by
        rw [Nat.div_eq_iff (Nat.two_pow_pos w)]
        omega
      have h0 : x ≠ 0 := by
        have := Nat.two_pow_pos w
        omega
      have hlog : w ≤ Nat.log2 x := (Nat.le_log2 h0).2 (not_lt.1 hx)
      rw [hdiv, if_pos rfl, if_neg h0]
      omega

/-- A scalar instruction of two sources completes with a result that agrees with its own in the low w bits. -/
theorem runs_scalar2 {i : Instr} {o : S2} {s : State} {lat : Nat} {f : STy → Nat → Nat → Int} {r : Int} (hlat : 1 ≤ lat)
    (h : exec i s = .next (scalar2 o lat f s))
    (hr : r ≡ f o.ty (styBits o.ty (s.src o.a)) (styBits o.ty (s.src o.b)) [ZMOD 2 ^ styWidth o.ty]) :
    Runs i s fun u => Scalar s u o.dst (tyFit o.ty r) := by
  rw [← styResult_eq_tyFit, styResult_congr hr]
  exact runs_scalar hlat h

theorem runs_scalar1 {i : Instr} {o : S1} {s : State} {f : STy → Nat → Int} {r : Int}
    (h : exec i s = .next (scalar1 o f s)) (hr : r = f o.ty (styBits o.ty (s.src o.a))) :
    Runs i s fun u => Scalar s u o.dst (tyFit o.ty r) := by
  rw [hr, ← styResult_eq_tyFit]
  exact runs_scalar le_rfl h

theorem runs_sel (o : S3) (s : State) : Runs (.sel o) s fun u => Scalar s u o.dst
    (tyFit o.ty (if tyVal o.ty (s.src o.a) ≠ 0 then tyVal o.ty (s.src o.b) else tyVal o.ty (s.src o.c))) := by
  refine runs_scalar le_rfl (show execSel o s = _ from ?_)
  rw [execSel, ← styResult_eq_tyFit]
  simp only [Ne, tyVal_eq_zero_iff]
  congr 3
  split
  · exact styResult_congr (tyVal_modEq _ _).symm
  · exact styResult_congr (tyVal_modEq _ _).symm

theorem scalarTable_runs {i : Instr} {s : State} {d : Fin 32} {t : STy} {r : Int} (h : scalarExact i s = some (d, t, r)) :
    Runs i s fun u => Scalar s u d (tyFit t r) := by
  unfold scalarExact at h
  split at h <;> simp only [Option.some.injEq, Prod.mk.injEq, reduceCtorEq] at h <;> obtain ⟨rfl, rfl, rfl⟩ := h
  case h_1 o => exact runs_scalar2 le_rfl rfl ((tyVal_modEq _ _).add (tyVal_modEq _ _))
  case h_2 o => exact runs_scalar2 le_rfl rfl ((tyVal_modEq _ _).sub (tyVal_modEq _ _))
  case h_3 o => exact runs_scalar2 (by decide : 1 ≤ 3) rfl ((tyVal_modEq _ _).mul (tyVal_modEq _ _))
  case h_4 o => exact runs_scalar2 (by decide : 1 ≤ 3) rfl (by rw [tyVal_eq_styVal, tyVal_eq_styVal, tyBits_eq_styWidth])
  case h_5 o =>
    refine runs_scalar2 le_rfl rfl ?_
    rw [styBits, styBits, ← Nat.and_mod_two_pow, ← BitVec.toNat_and]
    exact natCast_modEq_mod _ _
  case h_6 o =>
    refine runs_scalar2 le_rfl rfl ?_
    rw [styBits, styBits, ← Nat.or_mod_two_pow, ← BitVec.toNat_or]
    exact natCast_modEq_mod _ _
  case h_7 o =>
    refine runs_scalar2 le_rfl rfl ?_
    rw [styBits, styBits, ← Nat.xor_mod_two_pow, ← BitVec.toNat_xor]
    exact natCast_modEq_mod _ _
  case h_8 o =>
    refine runs_scalar2 le_rfl rfl ?_
    rw [shiftAmount_styBits]
    exact (tyVal_modEq _ _).mul_right _
  case h_9 o =>
    refine runs_scalar2 le_rfl rfl ?_
    rw [shiftAmount_styBits, tyNat_eq_styBits, Nat.shiftRight_eq_div_pow]
  case h_10 o =>
    refine runs_scalar2 le_rfl rfl ?_
    rw [shiftAmount_styBits, tyInt_eq_sval]
  case h_11 o => exact runs_scalar2 le_rfl rfl (by rw [tyVal_eq_styVal, tyVal_eq_styVal])
  case h_12 o => exact runs_scalar2 le_rfl rfl (by rw [tyVal_eq_styVal, tyVal_eq_styVal])
  case h_13 o => exact runs_sel o s
  case h_14 o =>
    refine runs_scalar1 rfl ?_
    rw [popCount_eq, styBits, countP_testBit_mod, tyBits_eq_styWidth]
    rfl
  case h_15 o =>
    refine runs_scalar1 rfl ?_
    rw [leadZeros_eq (styBits_lt _ _), tyNat_eq_styBits, tyBits_eq_styWidth]

/-- Settles O7: each writes one scalar register, whose value agrees with R99's table in the low w bits. -/
theorem scalarResults : Obligations.ScalarResults := by
  unfold Obligations.ScalarResults
  intro i s d t r h
  obtain ⟨u, hu, hdone⟩ := scalarTable_runs h
  exact ⟨u, hu, hdone.frame, hdone.writes, hdone.passes⟩

end Sys2Proof.Laws
end

section
/-! SUPPORT. The loop stack, the end test and the loops that a branch leaves (R104-R106). -/

namespace Sys2Proof.Laws

open BitVec Sys2Proof.Machine

/-! ## The loop stack (R104-R106) -/

theorem depth_setDepth (q : SeqSt) (d : Nat) : (q.setDepth d).depth = d % 8 := by
  have hlow : (q.setDepth d).lstk.extractLsb' 0 3 = BitVec.ofNat 3 d := by
    ext i hi
    have hbit : (d % 8).testBit i = d.testBit i := by
      rw [show 8 = 2 ^ 3 from rfl, Nat.testBit_mod_two_pow, decide_eq_true hi, Bool.true_and]
    simpa [SeqSt.setDepth, show i < 4 by omega, show i < 12 by omega, hi, ← BitVec.getLsbD_eq_getElem, BitVec.getLsbD_ofNat] using hbit
  rw [SeqSt.depth, hlow, BitVec.toNat_ofNat]

/-- The entries that stay keep their counters. -/
theorem lstkIdx_setDepth (q : SeqSt) {d j : Nat} (hd : d ≤ 4) (hj : j < d) : lstkIdx (q.setDepth d).lstk j = lstkIdx q.lstk j := by
  unfold lstkIdx SeqSt.setDepth
  congr 1
  ext i hi
  interval_cases d <;> interval_cases j <;> interval_cases i <;> simp

theorem depth_popLoop {q : SeqSt} (h : q.depth ≤ 4) : q.popLoop.depth = q.depth - 1 := by
  rw [SeqSt.popLoop, depth_setDepth]
  omega

theorem lstkIdx_popLoop {q : SeqSt} (h : q.depth ≤ 4) {j : Nat} (hj : j < q.depth - 1) :
    lstkIdx q.popLoop.lstk j = lstkIdx q.lstk j :=
  lstkIdx_setDepth q (by omega) hj

section
variable {q : SeqSt} (h : q.depth < 4) (n : Fin 4)
include h

theorem depth_pushLoop : (q.pushLoop n).depth = q.depth + 1 := by
  rw [SeqSt.pushLoop, depth_setDepth]
  omega

theorem lstkIdx_pushLoop {j : Nat} (hj : j < q.depth) : lstkIdx (q.pushLoop n).lstk j = lstkIdx q.lstk j := by
  rw [SeqSt.pushLoop, lstkIdx_setDepth _ (by omega) (by omega)]
  generalize q.depth = d at h hj
  unfold lstkIdx
  congr 1
  ext i hi
  interval_cases d <;> interval_cases j <;> interval_cases i <;> simp

theorem top_pushLoop : (q.pushLoop n).top = n := by
  rw [SeqSt.top, depth_pushLoop h, SeqSt.pushLoop, lstkIdx_setDepth _ (by omega) (by omega), Nat.add_sub_cancel]
  generalize q.depth = d at h
  have hbits : ∀ i, i < 2 → (BitVec.ofNat 12 n.val).getLsbD i = (BitVec.ofNat 2 n.val).getLsbD i := by
    intro i hi
    simp only [BitVec.getLsbD_ofNat, hi, show i < 12 by omega]
  have hn : lstkIdx ((q.lstk &&& ~~~(3#12 <<< (4 + 2 * d))) ||| (BitVec.ofNat 12 n.val <<< (4 + 2 * d))) d =
      (BitVec.ofNat 2 n.val).toFin := by
    unfold lstkIdx
    congr 1
    ext i hi
    have := hbits i hi
    interval_cases d <;> interval_cases i <;> simp_all
  rw [hn]
  exact Fin.ext (Nat.mod_eq_of_lt n.isLt)

end

/-! ## The end test (R105) -/

/-- A loop at whose end the pc stands is left with its counter 0 (R105). -/
def leaveTop (q : SeqSt) : SeqSt := (q.setLc q.top 0).popLoop

theorem depth_leaveTop {q : SeqSt} (h : q.depth ≤ 4) : (leaveTop q).depth = q.depth - 1 := depth_popLoop (q := q.setLc q.top 0) h

theorem endTest_of_elsewhere {q : SeqSt} (h : q.depth = 0 ∨ q.loops[q.top].lend ≠ q.pc) (n : Nat) : q.endTest n = q := by
  cases n with
  | zero => rfl
  | succ n =>
    rw [SeqSt.endTest]
    obtain h | h := h
    · rw [if_pos h]
    · dsimp only
      rw [if_pos h, ite_self]

section
variable {q : SeqSt} (h : 0 < q.depth) (hend : q.loops[q.top].lend = q.pc)
include h hend

theorem endTest_of_more (hmore : 2 ≤ q.loops[q.top].lc.toNat) (n : Nat) : q.endTest (n + 1) =
    { q.setLc q.top (q.loops[q.top].lc - 1) with pc := alignPc q.loops[q.top].lbeg } := by
  rw [SeqSt.endTest, if_neg h.ne']
  dsimp only
  rw [if_neg (not_not.2 hend), if_pos hmore]

theorem endTest_of_last (hlast : q.loops[q.top].lc.toNat < 2) (n : Nat) : q.endTest (n + 1) = (leaveTop q).endTest n := by
  rw [SeqSt.endTest, if_neg h.ne']
  dsimp only
  rw [if_neg (not_not.2 hend), if_neg (not_le.2 hlast)]
  rfl

end

/-- More steps than open loops change nothing. -/
theorem endTest_of_depth_le {n : Nat} : ∀ {q : SeqSt} {m : Nat}, q.depth ≤ n → q.depth ≤ m → q.depth ≤ 4 →
    q.endTest n = q.endTest m := by
  induction n with
  | zero =>
    intro q m hn _ _
    rw [endTest_of_elsewhere (.inl (by omega)), endTest_of_elsewhere (.inl (by omega))]
  | succ n ih =>
    intro q m hn hm h4
    by_cases hstop : q.depth = 0 ∨ q.loops[q.top].lend ≠ q.pc
    · rw [endTest_of_elsewhere hstop, endTest_of_elsewhere hstop]
    obtain ⟨hopen, hend⟩ := not_or.1 hstop
    have hend := not_not.1 hend
    obtain ⟨m, rfl⟩ : ∃ m', m = m' + 1 := ⟨m - 1, by omega⟩
    obtain hmore | hlast := Nat.lt_or_ge q.loops[q.top].lc.toNat 2 |>.symm
    · rw [endTest_of_more (by omega) hend hmore, endTest_of_more (by omega) hend hmore]
    · have hd := depth_leaveTop h4
      rw [endTest_of_last (by omega) hend hlast, endTest_of_last (by omega) hend hlast]
      exact ih (by omega) (by omega) (by omega)

theorem goto_of_elsewhere {q : SeqSt} {a : Word} (h : q.depth = 0 ∨ q.loops[q.top].lend ≠ a) : q.goto a = { q with pc := a } :=
  endTest_of_elsewhere (q := { q with pc := a }) h 4

section
variable {q : SeqSt} {a : Word} (h : 0 < q.depth) (hend : q.loops[q.top].lend = a)
include h hend

theorem goto_of_more (hmore : 2 ≤ q.loops[q.top].lc.toNat) : q.goto a =
    { q with pc := q.loops[q.top].lbeg &&& ~~~7, loops := q.loops.set q.top { q.loops[q.top] with lc := q.loops[q.top].lc - 1 } } :=
  endTest_of_more (q := { q with pc := a }) h hend hmore 3

theorem goto_of_last (h4 : q.depth ≤ 4) (hlast : q.loops[q.top].lc.toNat < 2) : q.goto a = (leaveTop q).goto a := by
  have hd : SeqSt.depth { leaveTop q with pc := a } = q.depth - 1 := depth_leaveTop h4
  have hleft : q.goto a = SeqSt.endTest { leaveTop q with pc := a } 3 := endTest_of_last (q := { q with pc := a }) h hend hlast 3
  rw [hleft, endTest_of_depth_le (m := 4) (by omega) (by omega) (by omega), SeqSt.goto]

end

/-- Settles O12: the three cases of the test at the top loop. -/
theorem endTest : Obligations.EndTest := by
  unfold Obligations.EndTest
  exact ⟨fun q a => goto_of_elsewhere, fun q a => goto_of_more,
    fun q a hopen h4 hend hlast => ⟨goto_of_last hopen hend h4 hlast, depth_leaveTop h4⟩⟩

/-! ## Loops that a branch leaves (R106) -/

/-- From the top on the loops that do not hold a target are left, and nothing else (R106). -/
structure Leaves (q r : SeqSt) (a : Word) : Prop where
  frame : r = { q with lstk := r.lstk }
  depth_le : r.depth ≤ q.depth
  left : ∀ j, r.depth ≤ j → j < q.depth → ¬q.bodyHolds j a
  stays : 0 < r.depth → q.bodyHolds (r.depth - 1) a
  entries : ∀ j, j < r.depth → lstkIdx r.lstk j = lstkIdx q.lstk j
  same : r.depth = q.depth → r.lstk = q.lstk

theorem leaves_refl {q : SeqSt} {a : Word} (h : q.depth = 0 ∨ q.bodyHolds (q.depth - 1) a) : Leaves q q a :=
  ⟨rfl, le_rfl, fun j hj hlt => by omega, fun hpos => h.resolve_left hpos.ne', fun _ _ => rfl, fun _ => rfl⟩

theorem bodyHolds_popLoop {q : SeqSt} (h : q.depth ≤ 4) {j : Nat} (hj : j < q.depth - 1) (a : Word) :
    q.popLoop.bodyHolds j a ↔ q.bodyHolds j a := by
  simp only [SeqSt.bodyHolds, lstkIdx_popLoop h hj, SeqSt.popLoop_loops]

/-- A loop that does not hold the target is left, and then those that the rest leave. -/
theorem leaves_of_popLoop {q r : SeqSt} {a : Word} (h0 : 0 < q.depth) (h4 : q.depth ≤ 4) (hout : ¬q.bodyHolds (q.depth - 1) a)
    (h : Leaves q.popLoop r a) : Leaves q r a := by
  have hd := depth_popLoop h4
  obtain ⟨hframe, hle, hleft, hstays, hentries, -⟩ := h
  refine ⟨?_, by omega, fun j hj hlt => ?_, fun hpos => ?_, fun j hj => ?_, fun heq => by omega⟩
  · rw [hframe]
    rfl
  · obtain hlast | hbelow : j = q.depth - 1 ∨ j < q.depth - 1 := by omega
    · rwa [hlast]
    · exact fun h => hleft j hj (by omega) ((bodyHolds_popLoop h4 hbelow a).2 h)
  · exact (bodyHolds_popLoop h4 (by omega) a).1 (hstays hpos)
  · rw [hentries j hj, lstkIdx_popLoop h4 (by omega)]

theorem leaves_leaveLoops (a : Word) (n : Nat) : ∀ q : SeqSt, q.depth ≤ n → q.depth ≤ 4 → Leaves q (q.leaveLoops a n) a := by
  induction n with
  | zero => exact fun q hn _ => leaves_refl (.inl (by omega))
  | succ n ih =>
    intro q hn h4
    rw [SeqSt.leaveLoops]
    dsimp only
    split_ifs with h0 hholds
    · exact leaves_refl (.inl h0)
    · exact leaves_refl (.inr hholds)
    · have hd := depth_popLoop h4
      exact leaves_of_popLoop (by omega) h4 hholds (ih _ (by omega) (by omega))

end Sys2Proof.Laws
end

section
/-! SUPPORT. How an instruction completes that moves its sequencer's pc and loops: what issuing changes, what lands on EX, the
frame, and the one scalar result (R94-R96, R121). -/

namespace Sys2Proof.Laws

open Sys2Proof.Machine

/-! ## Issuing (R94-R96, R121, R378) -/

/-- The core as an instruction of EX issues, before its slot is counted and what is due lands. -/
def ticked (k : Core) (yp : Bool) (clk : Nat) : Core :=
  ((k.onSeq .ex fun q => { q with wait := .none }).countSlot yp).holdEx clk 1

theorem here_issue_ex {s : State} (hq : s.cur.2 = .ex) : s.issue.here = (ticked s.here s.curYp s.clk).nextSlot := by
  rw [State.issue, State.here_mod, if_pos hq, hq]
  rfl

theorem ticked_frame (k : Core) (yp : Bool) (clk : Nat) : ∃ ycnt free,
    ticked k yp clk = { k.onSeq .ex fun q => { q with wait := .none } with ex := { k.ex with ycnt := ycnt, free := free } } := by
  unfold ticked Core.countSlot
  split <;> exact ⟨_, _, rfl⟩

theorem ticked_seq (k : Core) (yp : Bool) (clk : Nat) (q : Seq) :
    (ticked k yp clk).seq q = (k.onSeq .ex fun q => { q with wait := .none }).seq q := by
  obtain ⟨_, _, h⟩ := ticked_frame k yp clk
  rw [h]
  rfl

/-- What issuing changes: the wait ends, and on EX a slot passes (R94, R95). -/
structure Issued (s u : State) : Prop where
  core : u.here = { s.here with seqs := u.here.seqs, ex := u.here.ex, chk := u.here.chk }
  others : OthersFrame s u
  me : u.me = { s.me with regs := u.me.regs, wait := .none }
  apart : s.cur.2 ≠ .ex → u.me.regs = s.me.regs ∧ u.here.ex = s.here.ex
  outs : u.here.ex.pushes = s.here.ex.pushes ∧ u.here.ex.splret = s.here.ex.splret ∧ u.here.ex.tsa = s.here.ex.tsa

theorem issued_ne {s : State} (hne : s.cur.2 ≠ .ex) : Issued s s.issue := by
  obtain ⟨chk, h⟩ := here_issue_ne hne
  have hseq : ∀ q, s.issue.here.seq q = (s.here.onSeq s.cur.2 fun q => { q with wait := .none }).seq q := fun q => by rw [h]; rfl
  have hme : s.issue.me = { s.me with wait := .none } := (hseq s.cur.2).trans (Core.seq_onSeq _ _ _)
  refine ⟨?_, fun q hq => ?_, ?_, fun _ => ⟨?_, ?_⟩, ?_⟩
  · rw [h]
    rfl
  · rw [hseq, Core.seq_onSeq_ne _ _ _ _ hq]
  · rw [hme]
  · rw [hme]
  · rw [h]
    rfl
  · rw [h]
    exact ⟨rfl, rfl, rfl⟩

theorem issued_ex {s : State} (hq : s.cur.2 = .ex) : Issued s s.issue := by
  have h := here_issue_ex hq
  obtain ⟨ycnt, free, ht⟩ := ticked_frame s.here s.curYp s.clk
  have hlands := onlyLands_nextSlot (ticked s.here s.curYp s.clk)
  refine ⟨?_, fun q hne => ?_, ?_, fun hne => absurd hq hne, ?_⟩
  · rw [h, hlands.core, ht]
    rfl
  · rw [hq] at hne
    rw [h, hlands.others q hne, ticked_seq, Core.seq_onSeq_ne _ _ _ _ hne]
  · have hme : s.issue.me = (ticked s.here s.curYp s.clk).nextSlot.seq .ex := by rw [State.me, State.issue_cur, hq, h]
    rw [hme, hlands.mine, ticked_seq, Core.seq_onSeq, State.me, hq]
  · rw [h, hlands.core, ht]
    exact ⟨rfl, rfl, rfl⟩

theorem issued_issue (s : State) : Issued s s.issue := by
  by_cases hq : s.cur.2 = .ex
  · exact issued_ex hq
  · exact issued_ne hq

/-! ### Results in flight -/

/-- The registers of EX as they stand when the slot after an issue begins, with nothing in flight. -/
def settled (s : State) : Core := cleared (counted (ticked s.here s.curYp s.clk))

theorem seq_settled {s : State} (hq : s.cur.2 = .ex) : (settled s).seq .ex = { s.me with wait := .none } := by
  have hseqs : (settled s).seqs = (ticked s.here s.curYp s.clk).seqs := rfl
  rw [Core.seq, hseqs, ← Core.seq, ticked_seq, Core.seq_onSeq, State.me, hq]

theorem stands_settled {s : State} (hq : s.cur.2 = .ex) : Stands s (settled s) := by
  obtain ⟨_, _, h⟩ := ticked_frame s.here s.curYp s.clk
  refine ⟨?_, ?_, ?_, fun n => ?_⟩
  · rw [settled, h]; rfl
  · rw [settled, h]; rfl
  · rw [settled, h]; rfl
  · rw [seq_settled hq]
    rfl

section
variable {s : State} (hq : s.cur.2 = .ex)
include hq

theorem settle_issue_of_pend_nil (h : s.here.ex.pend = []) : s.issue.here.settle = settled s := by
  have hp : (ticked s.here s.curYp s.clk).ex.pend = [] := by
    obtain ⟨_, _, ht⟩ := ticked_frame s.here s.curYp s.clk
    rw [ht, ← h]
  have hc : settled s = counted (ticked s.here s.curYp s.clk) := by
    rw [settled, cleared, ← show (counted (ticked s.here s.curYp s.clk)).ex.pend = [] from hp]
  rw [here_issue_ex hq, nextSlot_of_pend_nil hp, hc]
  exact settle_of_pend_nil hp

theorem settle_issue_single {lat : Nat} {w : ExWrite} (h : s.here.ex.pend = [⟨s.here.ex.slot + lat, w⟩]) (hlat : 1 ≤ lat) :
    s.issue.here.settle = (settled s).apply w := by
  have hp : (ticked s.here s.curYp s.clk).ex.pend = [⟨(ticked s.here s.curYp s.clk).ex.slot + lat, w⟩] := by
    obtain ⟨_, _, ht⟩ := ticked_frame s.here s.curYp s.clk
    rw [ht, ← h]
  rw [here_issue_ex hq, settle_nextSlot_single hp hlat, settled]

/-! ### A scalar register once landed -/

theorem landed_issue_of_pend_nil (h : s.here.ex.pend = []) (n : Fin 32) : s.issue.landed n = s.me.reg n := by
  rw [State.landed, State.issue_cur, hq, settle_issue_of_pend_nil hq h, (stands_settled hq).reg]

theorem landed_issue_single {lat : Nat} {d : Fin 32} {x : Word} (h : s.here.ex.pend = [⟨s.here.ex.slot + lat, .s d x⟩])
    (hlat : 1 ≤ lat) (n : Fin 32) : s.issue.landed n = if n = d then (if d = 0 then 0 else x) else s.me.reg n := by
  rw [State.landed, State.issue_cur, hq, settle_issue_single hq h hlat, Core.apply, Core.seq_onSeq]
  split_ifs with hn h0
  · rw [hn, SeqSt.reg_setReg, if_pos h0]
  · rw [hn, SeqSt.reg_setReg, if_neg h0]
  · rw [SeqSt.reg_setReg_ne _ _ _ _ hn, (stands_settled hq).reg]

end

theorem landed_issue_ne {s : State} (hne : s.cur.2 ≠ .ex) (n : Fin 32) : s.issue.landed n = s.me.reg n := by
  have hme : s.issue.me = s.issue.here.seq s.cur.2 := by rw [State.me, State.issue_cur]
  rw [State.landed, State.issue_cur, seq_settle_ne _ hne, ← hme, SeqSt.reg, ((issued_issue s).apart hne).1, SeqSt.reg]

/-! ## An instruction that moves the pc completes (R94, R95, R101-R106) -/

/-- A move of a sequencer's pc and loops, which looks at no scalar register. -/
structure Moves (g : SeqSt → SeqSt) : Prop where
  frame : ∀ q, g q = { q with pc := (g q).pc, loops := (g q).loops, lstk := (g q).lstk }
  regs : ∀ q r, g { q with regs := r } = { g q with regs := r }

/-- An instruction has completed that leaves the core `k` but for what its sequencer and EX hold, and moves its sequencer by `g`. -/
structure Completes (s u : State) (k : Core) (g : SeqSt → SeqSt) : Prop where
  cur : u.cur = s.cur
  only : OnlyCore s.cur.1 s u
  bytes : SameBytes s u
  core : u.here = { k with seqs := u.here.seqs, ex := u.here.ex, chk := u.here.chk }
  others : OthersFrame s u
  me : u.me = { g s.me with regs := u.me.regs, wait := .none }
  kept : ExKept s u

theorem Completes.frame {s u : State} {f : Core → Core} {g : SeqSt → SeqSt} (hg : Moves g) (h : Completes s u (f s.here) g) :
    Frame s u f := by
  refine ⟨h.only, h.core, h.others, ?_, h.kept, h.bytes⟩
  unfold SeqFrame
  rw [h.me, hg.frame]

/-- What stands before an instruction issues that leaves the core `k` and has moved its sequencer by `g`. -/
structure Prepared (s v : State) (k : Core) (g : SeqSt → SeqSt) : Prop where
  mod : ∃ f, v = s.mod f
  core : v.here = { k with seqs := v.here.seqs, ex := { s.here.ex with pend := v.here.ex.pend } }
  others : OthersFrame s v
  me : v.me = { g s.me with regs := v.me.regs }
  apart : s.cur.2 ≠ .ex → v.here.ex = s.here.ex

theorem completes_issue {s v : State} {k : Core} {g : SeqSt → SeqSt} (h : Prepared s v k g)
    (hlanes : s.cur.2 = .ex → s.here.ex.pend = [] →
      v.issue.here.settle.ex.v = v.here.ex.v ∧ v.issue.here.settle.ex.a = v.here.ex.a ∧ v.issue.here.settle.ex.k = v.here.ex.k) :
    Completes s v.issue k g := by
  obtain ⟨f, hv⟩ := h.mod
  have hcur : v.cur = s.cur := by rw [hv, State.mod_cur]
  have hi := issued_issue v
  have hex : v.here.ex = { s.here.ex with pend := v.here.ex.pend } := congrArg Core.ex h.core
  obtain ⟨hpushes, hsplret, htsa⟩ := hi.outs
  refine ⟨hcur, ?_, ?_, ?_, fun q hq => ?_, ?_, fun hne => ?_, fun hq => ⟨?_, ?_, ?_, fun hnil => ?_⟩⟩
  · rw [hv, State.issue, mod_mod]
    exact onlyCore_mod s _
  · rw [hv, State.issue, mod_mod]
    exact sameBytes_mod s _
  · rw [hi.core, h.core]
  · rw [hi.others q (by rwa [hcur]), h.others q hq]
  · rw [hi.me, h.me]
  · rw [(hi.apart (by rwa [hcur])).2, h.apart hne]
  · rw [hpushes, hex]
  · rw [hsplret, hex]
  · rw [htsa, hex]
  · obtain ⟨hlv, hla, hlk⟩ := hlanes hq hnil
    rw [hlv, hla, hlk, hex]
    exact ⟨rfl, rfl, rfl⟩

theorem prepared_mod {s : State} {f : Core → Core} (hseqs : (f s.here).seqs = s.here.seqs) (hex : (f s.here).ex = s.here.ex) :
    Prepared s (s.mod f) (f s.here) id := by
  have hseq : ∀ q, (f s.here).seq q = s.here.seq q := fun q => by rw [Core.seq, hseqs, Core.seq]
  refine ⟨⟨_, rfl⟩, ?_, fun q _ => ?_, ?_, fun _ => ?_⟩
  · rw [State.here_mod, ← hex]
  · rw [State.here_mod, hseq]
  · rw [State.me, State.mod_cur, State.here_mod, hseq]
    rfl
  · rw [State.here_mod, hex]

section
variable {s v : State} {k : Core}

theorem Prepared.cur {g : SeqSt → SeqSt} (h : Prepared s v k g) : v.cur = s.cur := by
  obtain ⟨f, hv⟩ := h.mod
  rw [hv, State.mod_cur]

theorem here_writeS_ne (hne : s.cur.2 ≠ .ex) (d : Fin 32) (x : Word) (lat : Nat) :
    (s.writeS d x lat).here = s.here.onSeq s.cur.2 fun q => q.setReg d x := by rw [State.writeS, State.here_mod, if_neg hne]

theorem here_writeS_ex (hq : s.cur.2 = .ex) (d : Fin 32) (x : Word) (lat : Nat) :
    (s.writeS d x lat).here = s.here.later lat (.s d x) := by rw [State.writeS, State.here_mod, if_pos hq]

theorem me_writeS_ne (hne : s.cur.2 ≠ .ex) (d : Fin 32) (x : Word) (lat : Nat) : (s.writeS d x lat).me = s.me.setReg d x := by
  rw [State.me, here_writeS_ne hne, State.writeS_cur, Core.seq_onSeq]
  rfl

theorem Prepared.writeS (h : Prepared s v k id) (d : Fin 32) (x : Word) (lat : Nat) : Prepared s (v.writeS d x lat) k id := by
  obtain ⟨f, hv⟩ := h.mod
  have hcur := h.cur
  have hmod : ∃ f, v.writeS d x lat = s.mod f := ⟨_, by rw [State.writeS, hv, mod_mod]⟩
  by_cases hq : v.cur.2 = .ex
  · have hhere := here_writeS_ex hq d x lat
    refine ⟨hmod, ?_, fun q hne => ?_, ?_, fun hne => absurd hq (hcur ▸ hne)⟩
    · rw [hhere, Core.later, h.core]
    · rw [hhere]
      exact h.others q hne
    · rw [State.me, hhere]
      exact h.me
  · have hhere := here_writeS_ne hq d x lat
    refine ⟨hmod, ?_, fun q hne => ?_, ?_, fun hne => ?_⟩
    · rw [hhere, Core.onSeq, h.core]
    · rw [hhere, Core.seq_onSeq_ne _ _ _ _ (by rwa [hcur]), h.others q hne]
    · rw [me_writeS_ne hq, setReg_frame, h.me]
    · rw [hhere, Core.onSeq_ex, h.apart hne]

theorem Prepared.modMe (h : Prepared s v k id) {g : SeqSt → SeqSt} (hg : Moves g) : Prepared s (v.modMe g) k g := by
  obtain ⟨f, hv⟩ := h.mod
  have hcur := h.cur
  refine ⟨⟨_, by rw [State.modMe, hv, mod_mod]⟩, ?_, fun q hne => ?_, ?_, fun hne => ?_⟩
  · rw [State.here_modMe, Core.onSeq, h.core]
  · rw [State.here_modMe, Core.seq_onSeq_ne _ _ _ _ (by rwa [hcur]), h.others q hne]
  · rw [State.me_modMe, h.me, hg.regs]
    rfl
  · rw [State.here_modMe, Core.onSeq_ex, h.apart hne]

end

/-- A move looks at no register, and changes none. -/
theorem reg_modMe {g : SeqSt → SeqSt} (hg : Moves g) (v : State) (n : Fin 32) : (v.modMe g).me.reg n = v.me.reg n := by
  rw [State.me_modMe, hg.frame]
  rfl

theorem pend_modMe (v : State) (g : SeqSt → SeqSt) : (v.modMe g).here.ex.pend = v.here.ex.pend := by
  rw [State.here_modMe, Core.onSeq_ex]

section
variable {s : State} {f : Core → Core} (hseqs : (f s.here).seqs = s.here.seqs) (hex : (f s.here).ex = s.here.ex)
  {g : SeqSt → SeqSt} (hg : Moves g)
include hseqs hex hg

/-- An instruction without a result. -/
theorem completes_modMe : Completes s ((s.mod f).modMe g).issue (f s.here) g ∧ WritesNone s ((s.mod f).modMe g).issue := by
  have hprep := (prepared_mod hseqs hex).modMe hg
  generalize hw : (s.mod f) = w at hprep
  have hcur := hprep.cur
  have hpend : (w.modMe g).here.ex.pend = s.here.ex.pend := by rw [pend_modMe, ← hw, State.here_mod, hex]
  have hreg : ∀ n, (w.modMe g).me.reg n = s.me.reg n := fun n => by
    rw [reg_modMe hg, ← hw, State.me, State.here_mod, Core.seq, hseqs]
    rfl
  refine ⟨completes_issue hprep fun hq hnil => ?_, fun hno n => ?_⟩
  · rw [← hcur] at hq
    rw [settle_issue_of_pend_nil hq (hpend.trans hnil)]
    exact ⟨(stands_settled hq).v, (stands_settled hq).a, (stands_settled hq).k⟩
  · rw [← hreg]
    by_cases hq : s.cur.2 = .ex
    · exact landed_issue_of_pend_nil (by rwa [hcur]) (hpend.trans (hno hq)) n
    · exact landed_issue_ne (by rwa [hcur]) n

/-- An instruction with a scalar result. -/
theorem completes_writeS (d : Fin 32) (x : Word) {lat : Nat} (hlat : 1 ≤ lat) :
    Completes s (((s.mod f).writeS d x lat).modMe g).issue (f s.here) g ∧
      Writes s (((s.mod f).writeS d x lat).modMe g).issue d x := by
  have hprep := ((prepared_mod hseqs hex).writeS d x lat).modMe hg
  generalize hw : (s.mod f) = w at hprep
  have hwcur : w.cur = s.cur := by rw [← hw, State.mod_cur]
  have hwex : w.here.ex = s.here.ex := by rw [← hw, State.here_mod, hex]
  have hwreg : ∀ n, w.me.reg n = s.me.reg n := fun n => by
    rw [← hw, State.me, State.here_mod, Core.seq, hseqs]
    rfl
  generalize hv : (w.writeS d x lat).modMe g = v at hprep
  have hcur := hprep.cur
  by_cases hq : s.cur.2 = .ex
  · have hhere := here_writeS_ex (s := w) (by rwa [hwcur]) d x lat
    have hpend : s.here.ex.pend = [] → v.here.ex.pend = [⟨v.here.ex.slot + lat, .s d x⟩] := fun hnil => by
      rw [← hv, State.here_modMe, Core.onSeq_ex, hhere, Core.later, hwex, hnil]
      rfl
    have hreg : ∀ n, v.me.reg n = s.me.reg n := fun n => by
      rw [← hv, reg_modMe hg, State.me, hhere, ← hwreg]
      rfl
    rw [← hcur] at hq
    refine ⟨completes_issue hprep fun _ hnil => ?_, fun hno => ?_⟩
    · rw [settle_issue_single hq (hpend hnil) hlat]
      exact ⟨(stands_settled hq).v, (stands_settled hq).a, (stands_settled hq).k⟩
    · have hland := landed_issue_single hq (hpend (hno (by rwa [← hcur]))) hlat
      refine ⟨?_, fun n hn => ?_⟩
      · rw [hland, if_pos rfl]
      · rw [hland, if_neg hn, hreg]
  · have hreg : ∀ n, v.me.reg n = (w.me.setReg d x).reg n := fun n => by
      rw [← hv, reg_modMe hg, me_writeS_ne (by rwa [hwcur])]
    refine ⟨completes_issue hprep fun h => absurd h hq, fun _ => ?_⟩
    have hland := landed_issue_ne (s := v) (by rwa [hcur])
    refine ⟨?_, fun n hn => ?_⟩
    · rw [hland, hreg, SeqSt.reg_setReg]
    · rw [hland, hreg, SeqSt.reg_setReg_ne _ _ _ _ hn, hwreg]

end

end Sys2Proof.Laws
end

section
/-! SUPPORT. Branches and hardware loops (R101-R106, R110). -/

namespace Sys2Proof.Laws

open BitVec Sys2Proof.Machine

/-! ## Moves of the pc -/

theorem moves_goto (a : Word) : Moves (·.goto a) := ⟨fun q => SeqSt.goto_frame q a, fun q r => goto_regs q r a⟩

theorem moves_pass (n : Word) : Moves fun q => q.goto (q.pc + n) := ⟨fun q => SeqSt.goto_frame q _, fun q r => goto_regs q r _⟩

theorem leaveLoops_frame (a : Word) (n : Nat) (q : SeqSt) : q.leaveLoops a n = { q with lstk := (q.leaveLoops a n).lstk } := by
  induction n generalizing q with
  | zero => rfl
  | succ n ih =>
    rw [SeqSt.leaveLoops]
    dsimp only
    split_ifs
    · rfl
    · rfl
    · rw [ih]
      rfl

theorem leaveLoops_regs (a : Word) (n : Nat) (q : SeqSt) (r : Vector Word 32) :
    SeqSt.leaveLoops { q with regs := r } a n = { q.leaveLoops a n with regs := r } := by
  induction n generalizing q with
  | zero => rfl
  | succ n ih =>
    simp only [SeqSt.leaveLoops, show SeqSt.depth { q with regs := r } = q.depth from rfl,
      show SeqSt.top { q with regs := r } = q.top from rfl]
    split_ifs
    · rfl
    · rfl
    · exact ih q.popLoop

theorem moves_branch (a : Word) : Moves (·.branch a) where
  frame q := by rw [SeqSt.branch, leaveLoops_frame]
  regs q r := by rw [SeqSt.branch, leaveLoops_regs]; rfl

section
variable {s u : State} {k : Core} {g : SeqSt → SeqSt} (h : Completes s u k g)
include h

theorem Completes.goes {a : Word} (hg : g s.me = s.me.goto a) : Goes s u a := by
  unfold Goes
  rw [h.me, hg]
  refine ⟨rfl, rfl, rfl, fun hno => ?_⟩
  rw [SeqSt.goto_of_depth_zero _ _ hno]
  exact ⟨rfl, rfl, rfl⟩

theorem Completes.branchesTo {a : Word} (hg : g s.me = s.me.branch a) : BranchesTo s u a := by
  intro h4
  obtain ⟨hframe, hle, hleft, hstays, hentries, hsame⟩ := leaves_leaveLoops a 4 s.me h4 h4
  have hlstk : u.me.lstk = (s.me.leaveLoops a 4).lstk := by rw [h.me, hg, SeqSt.branch]
  have hdepth : u.me.depth = (s.me.leaveLoops a 4).depth := by rw [SeqSt.depth, hlstk, SeqSt.depth]
  rw [hdepth, hlstk]
  refine ⟨by rw [h.me, hg, SeqSt.branch], ?_, hle, hleft, hstays, hentries, hsame⟩
  rw [h.me, hg, SeqSt.branch, hframe]

end

theorem mod_id (s : State) : s.mod id = s := by simp [State.mod, State.onCore]

section
variable {s : State} {g : SeqSt → SeqSt} (hg : Moves g)
include hg

theorem completes_move : Completes s (s.modMe g).issue s.here g ∧ WritesNone s (s.modMe g).issue := by
  have h := completes_modMe (s := s) (f := id) rfl rfl hg
  rwa [mod_id] at h

theorem completes_writeS_move (d : Fin 32) (x : Word) {lat : Nat} (hlat : 1 ≤ lat) :
    Completes s ((s.writeS d x lat).modMe g).issue s.here g ∧ Writes s ((s.writeS d x lat).modMe g).issue d x := by
  have h := completes_writeS (s := s) (f := id) rfl rfl hg d x hlat
  rwa [mod_id] at h

end

/-! ## Changes that a late fault takes back (R174, R176) -/

theorem noteChange_frame (k : Core) (u : Undone) : k.noteChange u = { k with undo := (k.noteChange u).undo } := by
  unfold Core.noteChange
  split <;> rfl

theorem noteChange_seqs (k : Core) (u : Undone) : (k.noteChange u).seqs = k.seqs := by rw [noteChange_frame]
theorem noteChange_ex (k : Core) (u : Undone) : (k.noteChange u).ex = k.ex := by rw [noteChange_frame]

theorem noteChange_undo (k : Core) (u : Undone) : (k.noteChange u).undo = k.undo ++ if k.mayUndo u then [u] else [] := by
  unfold Core.noteChange
  split
  · rfl
  · rw [List.append_nil]

/-- What may be taken back is a matter of the accesses in flight. -/
theorem mayUndo_congr {k k' : Core} (hl : k'.loads = k.loads) (hs : k'.stores = k.stores) (v : Undone) : k'.mayUndo v = k.mayUndo v := by
  rw [Core.mayUndo, hl, hs, Core.mayUndo]

theorem frameNoting_of_completes {s u : State} {f : Core → Core} {x : Change} {g : SeqSt → SeqSt} (hg : Moves g)
    (hundo : (f s.here).undo = s.here.undo) (h : Completes s u ((f s.here).noteChange (s.change x)) g) : FrameNoting s u f [x] := by
  have hcore : u.here.undo = ((f s.here).noteChange (s.change x)).undo := by rw [h.core]
  have hmay : u.here.mayUndo (s.change x) = (f s.here).mayUndo (s.change x) := by
    refine mayUndo_congr ?_ ?_ _
    · rw [h.core, noteChange_frame]
    · rw [h.core, noteChange_frame]
  have hu : u.here.undo = s.here.undo ++ if u.here.mayUndo (s.change x) then [s.change x] else [] := by
    rw [hcore, noteChange_undo, hmay, hundo]
  refine ⟨?_, ?_, fun v hv _ => ?_, fun v hv => ?_⟩
  · refine Completes.frame hg (f := fun k => { f k with undo := u.here.undo }) ?_
    rw [hcore, ← noteChange_frame]
    exact h
  · simp only [List.mem_singleton, forall_eq]
    intro hx
    rw [hu, if_pos (show u.here.mayUndo (s.change x) = true from hx)]
    exact List.mem_append_right _ (List.mem_singleton_self _)
  · rw [hu]
    exact List.mem_append_left _ hv
  · rw [hu, List.mem_append] at hv
    refine hv.imp_right fun hv => ⟨x, List.mem_singleton_self _, ?_⟩
    split at hv
    · exact List.mem_singleton.1 hv
    · cases hv

/-! ## Branches (R101-R103, R106, R110) -/

theorem dispBytes_eq (disp : BitVec 32) : dispBytes disp = BitVec.ofInt 64 (8 * disp.toInt) := by
  rw [dispBytes, BitVec.signExtend, BitVec.shiftLeft_eq_mul_twoPow, BitVec.ofInt_mul, BitVec.mul_comm]
  rfl

theorem condTrue_words (c : Cond) (x y : Word) : condHolds c 64 x.toNat y.toNat = true ↔ condTrue c x.toInt y.toInt x.toNat y.toNat := by
  simp only [← sval_toNat]
  cases c <;> simp [condHolds, condTrue]

theorem runs_mono {i : Instr} {s : State} {P Q : State → Prop} (h : Runs i s P) (hPQ : ∀ u, P u → Q u) : Runs i s Q := by
  obtain ⟨u, hu, hP⟩ := h
  exact ⟨u, hu, hPQ u hP⟩

theorem runs_move {i : Instr} {s : State} {g : SeqSt → SeqSt} (hg : Moves g) (h : exec i s = .next (s.modMe g).issue) :
    Runs i s fun u => Completes s u s.here g ∧ WritesNone s u :=
  ⟨_, h, completes_move hg⟩

theorem runs_writeS_move {i : Instr} {s : State} {d : Fin 32} {x : Word} {lat : Nat} {g : SeqSt → SeqSt} (hg : Moves g) (hlat : 1 ≤ lat)
    (h : exec i s = .next ((s.writeS d x lat).modMe g).issue) : Runs i s fun u => Completes s u s.here g ∧ Writes s u d x :=
  ⟨_, h, completes_writeS_move hg d x hlat⟩

theorem runs_mod_move {i : Instr} {s : State} {f : Core → Core} {g : SeqSt → SeqSt} (hg : Moves g)
    (hseqs : (f s.here).seqs = s.here.seqs) (hex : (f s.here).ex = s.here.ex) (h : exec i s = .next ((s.mod f).modMe g).issue) :
    Runs i s fun u => Completes s u (f s.here) g ∧ WritesNone s u :=
  ⟨_, h, completes_modMe hseqs hex hg⟩

theorem runs_bc_take {c : BCond} {disp : BitVec 32} {s : State} {a : Word} (h : exec (.bc c disp) s = .next (s.take a)) :
    Runs (.bc c disp) s fun u => Frame s u id ∧ WritesNone s u ∧ BranchesTo s u a :=
  runs_mono (runs_move (moves_branch a) h) fun _ ⟨hdone, hnone⟩ =>
    ⟨hdone.frame (moves_branch a) (f := id), hnone, hdone.branchesTo rfl⟩

theorem runs_pass {i : Instr} {s : State} (h : exec i s = .next (s.retire 8)) :
    Runs i s fun u => Frame s u id ∧ WritesNone s u ∧ Passes s u :=
  runs_mono (runs_move (moves_pass 8) h) fun _ ⟨hdone, hnone⟩ => ⟨hdone.frame (moves_pass 8) (f := id), hnone, hdone.goes rfl⟩

theorem runs_bc_cmp (c : Cond) (a b : SSrc) (disp : BitVec 32) (s : State) : Runs (.bc (.cmp c a b) disp) s fun u =>
    Frame s u id ∧ WritesNone s u ∧
      (condTrue c (s.src a).toInt (s.src b).toInt (s.src a).toNat (s.src b).toNat →
        BranchesTo s u (s.me.pc + BitVec.ofInt 64 (8 * disp.toInt))) ∧
      (¬condTrue c (s.src a).toInt (s.src b).toInt (s.src a).toNat (s.src b).toNat → Passes s u) := by
  have hexec : exec (.bc (.cmp c a b) disp) s = execBc (.cmp c a b) disp s := rfl
  rw [execBc, dispBytes_eq] at hexec
  by_cases hc : condHolds c 64 (s.src a).toNat (s.src b).toNat = true
  · rw [if_pos hc] at hexec
    rw [condTrue_words] at hc
    exact runs_mono (runs_bc_take hexec) fun _ ⟨hframe, hnone, hgo⟩ => ⟨hframe, hnone, fun _ => hgo, fun hnot => absurd hc hnot⟩
  · rw [if_neg hc] at hexec
    rw [condTrue_words] at hc
    exact runs_mono (runs_pass hexec) fun _ ⟨hframe, hnone, hgo⟩ => ⟨hframe, hnone, fun htrue => absurd htrue hc, fun _ => hgo⟩

/-- A branch-outcome queue is left with its rest (R110). -/
def leaveBq (n : Fin 4) (rest : List Bool) (k : Core) : Core := { k with bqs := k.bqs.set n rest }

theorem execBq_of_cons {s : State} {b : Bool} {rest : List Bool} (h : s.here.bqs[s.cur.2.num] = b :: rest) (t : Bool) (disp : BitVec 32) :
    execBq t disp s =
      let v := s.mod fun k => (leaveBq s.cur.2.num rest k).noteChange (s.change (.outcome s.cur.2.num b))
      .next (if b = t then v.take (s.me.pc + dispBytes disp) else v.retire 8) := by
  rw [execBq]
  dsimp only
  rw [h]
  rfl

theorem runs_bq (t b : Bool) (rest : List Bool) (disp : BitVec 32) (s : State) (hbq : s.here.bqs[s.cur.2.num] = b :: rest) :
    Runs (.bq t disp) s fun u =>
      FrameNoting s u (leaveBq s.cur.2.num rest) [.outcome s.cur.2.num b] ∧ WritesNone s u ∧
      (b = t → BranchesTo s u (s.me.pc + BitVec.ofInt 64 (8 * disp.toInt))) ∧ (b ≠ t → Passes s u) := by
  have hexec : exec (.bq t disp) s = _ := execBq_of_cons hbq t disp
  rw [dispBytes_eq] at hexec
  dsimp only at hexec
  have hseqs := noteChange_seqs (leaveBq s.cur.2.num rest s.here) (s.change (.outcome s.cur.2.num b))
  have hex := noteChange_ex (leaveBq s.cur.2.num rest s.here) (s.change (.outcome s.cur.2.num b))
  by_cases hbt : b = t
  · rw [if_pos hbt] at hexec
    exact runs_mono (runs_mod_move (moves_branch _) hseqs hex hexec) fun _ ⟨hdone, hnone⟩ =>
      ⟨frameNoting_of_completes (moves_branch _) rfl hdone, hnone, fun _ => hdone.branchesTo rfl, fun hne => absurd hbt hne⟩
  · rw [if_neg hbt] at hexec
    exact runs_mono (runs_mod_move (moves_pass 8) hseqs hex hexec) fun _ ⟨hdone, hnone⟩ =>
      ⟨frameNoting_of_completes (moves_pass 8) rfl hdone, hnone, fun heq => absurd heq hbt, fun _ => hdone.goes rfl⟩

/-- Settles O10: each moves the pc by a taken branch or by the end test, and BQ notes what it pops. -/
theorem branches : Obligations.Branches := by
  unfold Obligations.Branches
  refine ⟨fun disp s => ?_, runs_bc_cmp, runs_bq, fun l disp s => ?_, fun l b off s heven => ?_, fun b s heven => ?_⟩
  · rw [← dispBytes_eq]
    exact runs_bc_take rfl
  · rw [← dispBytes_eq]
    exact runs_mono (runs_writeS_move (moves_goto _) le_rfl rfl) fun _ ⟨hdone, hwrites⟩ =>
      ⟨hdone.frame (moves_goto _) (f := id), hwrites, hdone.goes rfl⟩
  · rw [← signExtend_eq_ofInt] at heven ⊢
    rw [← extractLsb'_three_eq_zero_iff] at heven
    have hexec : exec (.jr l b off) s = execJr l b off s := rfl
    rw [execJr, if_neg (not_not.2 heven)] at hexec
    exact runs_mono (runs_writeS_move (moves_goto _) le_rfl hexec) fun _ ⟨hdone, hwrites⟩ =>
      ⟨hdone.frame (moves_goto _) (f := id), hwrites, hdone.goes rfl⟩
  · rw [← extractLsb'_three_eq_zero_iff] at heven
    have hexec : exec (.ret b) s = execRet b s := rfl
    rw [execRet, if_neg (not_not.2 heven)] at hexec
    exact runs_mono (runs_move (moves_goto _) hexec) fun _ ⟨hdone, hnone⟩ =>
      ⟨hdone.frame (moves_goto _) (f := id), hnone, hdone.goes rfl⟩

/-! ## LOOP, LOOPI and LEXIT (R104-R106) -/

theorem Moves.comp {g h : SeqSt → SeqSt} (hg : Moves g) (hh : Moves h) : Moves fun q => g (h q) where
  frame q := by
    rw [hg.frame, hh.frame]
  regs q r := by rw [hh.regs, hg.regs]

theorem moves_setLc (n : Fin 4) (x : BitVec 32) : Moves (·.setLc n x) := ⟨fun _ => rfl, fun _ _ => rfl⟩

theorem moves_leaveTop : Moves leaveTop := ⟨fun _ => rfl, fun _ _ => rfl⟩

/-- A loop is opened, its body between the next word and `stop` (R104). -/
def openLoop (n : Fin 4) (count : BitVec 32) (stop : Word) (q : SeqSt) : SeqSt :=
  SeqSt.pushLoop { q with loops := q.loops.set n ⟨count, q.pc + 8, stop⟩ } n

theorem moves_openLoop (n : Fin 4) (count : BitVec 32) (stop : Word) : Moves (openLoop n count stop) :=
  ⟨fun _ => rfl, fun _ _ => rfl⟩

section
variable {s : State} {n : Fin 4} (h : s.me.depth < 4) (hbusy : loopBusy s.me n = false)
include h hbusy

theorem enterLoop_of_zero (stop : Word) : enterLoop n 0 stop s = (s.modMe fun q => (q.setLc n 0).goto stop).issue := by
  rw [enterLoop, if_neg (by omega), hbusy, if_neg (by decide), if_pos rfl, State.jump, modMe_modMe]

theorem enterLoop_of_ne {count : BitVec 32} (hc : count ≠ 0) (stop : Word) :
    enterLoop n count stop s = (s.modMe fun q => (openLoop n count stop q).goto ((openLoop n count stop q).pc + 8)).issue := by
  rw [enterLoop, if_neg (by omega), hbusy, if_neg (by decide), if_neg hc, State.retire, modMe_modMe]
  rfl

end

/-- The pc after LOOP is not its end where that lies two words on or more (R104). -/
theorem goto_openLoop {q : SeqSt} (h : q.depth < 4) (n : Fin 4) (count : BitVec 32) {stop : Word} (hstop : stop ≠ q.pc + 8) :
    (openLoop n count stop q).goto ((openLoop n count stop q).pc + 8) = { openLoop n count stop q with pc := q.pc + 8 } := by
  refine goto_of_elsewhere (.inr ?_)
  have htop : (openLoop n count stop q).top = n := top_pushLoop h n
  have hend : (openLoop n count stop q).loops[n].lend = stop := by simp [openLoop]
  rw [show (openLoop n count stop q).loops[(openLoop n count stop q).top].lend = stop by simp only [htop, hend]]
  exact hstop

theorem offWords_eq (off : BitVec 32) : offWords off = BitVec.ofNat 64 (8 * off.toNat) := by
  apply BitVec.eq_of_toNat_eq
  have := off.isLt
  simp [offWords, BitVec.toNat_shiftLeft, Nat.shiftLeft_eq]
  omega

theorem execLoop_eq (n : Fin 4) (src : SSrc) (e : BitVec 32) (s : State) : execLoop n src e s =
    .next (enterLoop n ((s.src src).setWidth 32) (s.me.pc + BitVec.ofNat 64 (8 * e.toNat)) s) := by
  rw [execLoop, offWords_eq, ← BitVec.setWidth_eq_extractLsb' (by decide)]

theorem execLoopi_eq (n : Fin 4) (c e : BitVec 16) (s : State) : execLoopi n c e s =
    .next (enterLoop n (c.setWidth 32) (s.me.pc + BitVec.ofNat 64 (8 * e.toNat)) s) := by
  have he := e.isLt
  rw [execLoopi, offWords_eq, BitVec.toNat_setWidth, Nat.mod_eq_of_lt (by omega)]

/-- The end of a body of two words or more is not its begin. -/
theorem stop_ne_begin (pc : Word) {off : Nat} (h2 : 2 ≤ off) (hoff : off < 2 ^ 32) : pc + BitVec.ofNat 64 (8 * off) ≠ pc + 8 := by
  intro h
  rw [BitVec.add_right_inj] at h
  have := congrArg BitVec.toNat h
  rw [BitVec.toNat_ofNat, Nat.mod_eq_of_lt (by omega)] at this
  change 8 * off = 8 at this
  omega

section
variable {i : Instr} {s : State} {n : Fin 4} (h : s.me.depth < 4) (hbusy : loopBusy s.me n = false)
include h hbusy

/-- A count of 0 skips the body (R104). -/
theorem runs_skipLoop {stop : Word} (hexec : exec i s = .next (enterLoop n 0 stop s)) : Runs i s fun u =>
    Frame s u id ∧ WritesNone s u ∧ u.me = { SeqSt.goto (s.me.setLc n 0) stop with regs := u.me.regs, wait := .none } ∧
    (NoLoop s → u.me.pc = stop ∧ u.me.lstk = s.me.lstk ∧ u.me.loops = s.me.loops.set n { s.me.loops[n] with lc := 0 }) := by
  have hg : Moves fun q => (q.setLc n 0).goto stop := (moves_goto stop).comp (moves_setLc n 0)
  rw [enterLoop_of_zero h hbusy] at hexec
  refine runs_mono (runs_move hg hexec) fun u ⟨hdone, hnone⟩ => ⟨hdone.frame hg (f := id), hnone, hdone.me, fun hno => ?_⟩
  rw [hdone.me, SeqSt.goto_of_depth_zero (s.me.setLc n 0) stop hno]
  exact ⟨rfl, rfl, rfl⟩

/-- Any other count opens the loop (R104). -/
theorem runs_openLoop {count : BitVec 32} (hc : count ≠ 0) {stop : Word} (hstop : stop ≠ s.me.pc + 8)
    (hexec : exec i s = .next (enterLoop n count stop s)) : Runs i s fun u => Frame s u id ∧ WritesNone s u ∧
      u.me.pc = s.me.pc + 8 ∧ u.me.depth = s.me.depth + 1 ∧ u.me.top = n ∧
      (∀ j, j < s.me.depth → lstkIdx u.me.lstk j = lstkIdx s.me.lstk j) ∧
      u.me.loops = s.me.loops.set n ⟨count, s.me.pc + 8, stop⟩ := by
  have hg := (moves_pass 8).comp (moves_openLoop n count stop)
  rw [enterLoop_of_ne h hbusy hc] at hexec
  refine runs_mono (runs_move hg hexec) fun u ⟨hdone, hnone⟩ => ⟨hdone.frame hg (f := id), hnone, ?_⟩
  have hme : u.me = { openLoop n count stop s.me with pc := s.me.pc + 8, regs := u.me.regs, wait := .none } := by
    rw [hdone.me, goto_openLoop h n count hstop]
  rw [hme]
  exact ⟨rfl, depth_pushLoop h n, top_pushLoop h n, fun j hj => lstkIdx_pushLoop h n hj, rfl⟩

end

theorem runs_lexit {src : SSrc} {s : State} (h : 0 < s.me.depth) (h4 : s.me.depth ≤ 4) (hsrc : s.src src ≠ 0) :
    Runs (.lexit src) s fun u => Frame s u id ∧ WritesNone s u ∧
      u.me = { SeqSt.goto (leaveTop s.me) (s.me.loops[s.me.top].lend &&& ~~~7) with regs := u.me.regs, wait := .none } ∧
      (s.me.depth = 1 → u.me.pc = s.me.loops[s.me.top].lend &&& ~~~7 ∧ u.me.depth = 0 ∧
        u.me.loops = s.me.loops.set s.me.top { s.me.loops[s.me.top] with lc := 0 }) := by
  have hg : Moves fun q => ((q.setLc s.me.top 0).popLoop).goto (alignPc s.me.loops[s.me.top].lend) :=
    (moves_goto _).comp ⟨fun _ => rfl, fun _ _ => rfl⟩
  have hexec : exec (.lexit src) s = execLexit src s := rfl
  rw [execLexit, if_neg h.ne', if_neg hsrc] at hexec
  dsimp only at hexec
  rw [State.jump, modMe_modMe] at hexec
  refine runs_mono (runs_move hg hexec) fun u ⟨hdone, hnone⟩ => ⟨hdone.frame hg (f := id), hnone, hdone.me, fun h1 => ?_⟩
  have hd : (leaveTop s.me).depth = 0 := by rw [depth_leaveTop h4, h1]
  rw [hdone.me]
  dsimp only
  rw [show (s.me.setLc s.me.top 0).popLoop = leaveTop s.me from rfl, SeqSt.goto_of_depth_zero _ _ hd]
  exact ⟨rfl, hd, rfl⟩

/-- Settles O11: LOOP and LOOPI are one operation, which opens the loop or skips it; LEXIT leaves the top loop. -/
theorem loops : Obligations.Loops := by
  unfold Obligations.Loops
  refine ⟨fun i n count off s hi h2 hdepth hbusy => ?_, fun src s hopen h4 => ?_⟩
  · have hexec : exec i s = .next (enterLoop n count (s.me.pc + BitVec.ofNat 64 (8 * off)) s) := by
      obtain ⟨src, e, rfl, rfl, rfl⟩ | ⟨c, e, rfl, rfl, rfl⟩ := hi
      · exact execLoop_eq n src e s
      · exact execLoopi_eq n c e s
    have hoff : off < 2 ^ 32 := by
      obtain ⟨src, e, -, -, rfl⟩ | ⟨c, e, -, -, rfl⟩ := hi <;> omega
    by_cases hc : count = 0
    · subst hc
      exact runs_mono (runs_skipLoop hdepth hbusy hexec) fun u ⟨hframe, hnone, hme, hno⟩ =>
        ⟨hframe, hnone, fun hne => absurd rfl hne, fun _ => hme, fun _ => hno⟩
    · exact runs_mono (runs_openLoop hdepth hbusy hc (stop_ne_begin _ h2 hoff) hexec) fun u ⟨hframe, hnone, hopens⟩ =>
        ⟨hframe, hnone, fun _ => hopens, fun h => absurd h hc, fun h => absurd h hc⟩
  · by_cases hsrc : s.src src = 0
    · have hexec : exec (.lexit src) s = .next (s.retire 8) := by
        change execLexit src s = _
        rw [execLexit, if_neg hopen.ne', if_pos hsrc]
      exact runs_mono (runs_move (moves_pass 8) hexec) fun u ⟨hdone, hnone⟩ =>
        ⟨hdone.frame (moves_pass 8) (f := id), hnone, fun hne => absurd hsrc hne, fun hne => absurd hsrc hne, fun _ => hdone.me⟩
    · exact runs_mono (runs_lexit hopen h4 hsrc) fun u ⟨hframe, hnone, hme, hlast⟩ =>
        ⟨hframe, hnone, fun _ => hme, fun _ => hlast, fun h => absurd h hsrc⟩

end Sys2Proof.Laws
end

section
/-! SUPPORT. Tokens, branch outcomes, the constant bank, and reads of special registers (R91, R107-R113). -/

namespace Sys2Proof.Laws

open BitVec Sys2Proof.Machine

/-! ## Tokens, branch outcomes, constants (R107-R113) -/

theorem toNat_add_of_le {x n : BitVec 6} (h : x.toNat + n.toNat ≤ 63) : (x + n).toNat = x.toNat + n.toNat := by
  rw [BitVec.toNat_add, Nat.mod_eq_of_lt (by omega)]

theorem toNat_sub_add_of_le {x n : BitVec 6} (h : n.toNat ≤ x.toNat) : (x - n).toNat + n.toNat = x.toNat := by
  rw [BitVec.toNat_sub_of_le h, Nat.sub_add_cancel h]

/-- Units come to a token queue (R108). -/
def addTokens (t : Fin 16) (n : BitVec 6) (k : Core) : Core := { k with toks := k.toks.set t (k.toks[t] + n) }

/-- Units go from it. -/
def dropTokens (t : Fin 16) (n : BitVec 6) (k : Core) : Core := { k with toks := k.toks.set t (k.toks[t] - n) }

theorem takeTokens_eq (s : State) (t : Fin 16) (n : BitVec 6) :
    s.takeTokens t n = s.mod fun k => (dropTokens t n k).noteChange (s.change (.tokens t n)) := rfl

section
variable {i : Instr} {s : State} {f : Core → Core} (hseqs : (f s.here).seqs = s.here.seqs) (hex : (f s.here).ex = s.here.ex)
include hseqs hex

/-- An instruction that changes its core beside the sequencers and EX, and passes. -/
theorem runs_mod_pass (h : exec i s = .next ((s.mod f).retire 8)) :
    Runs i s fun u => Completes s u (f s.here) (fun q => q.goto (q.pc + 8)) ∧ Frame s u f ∧ WritesNone s u ∧ Passes s u :=
  runs_mono (runs_mod_move (moves_pass 8) hseqs hex h) fun _ ⟨hdone, hnone⟩ =>
    ⟨hdone, hdone.frame (moves_pass 8), hnone, hdone.goes rfl⟩

end

theorem runs_toks {t : Fin 16} {n : BitVec 6} {s : State} (hroom : s.here.toks[t].toNat + n.toNat + s.here.heldTokens t ≤ 63)
    (hperf : s.here.performed s.cur.2 = true) : Runs (.toks t n) s fun u => Frame s u (addTokens t n) ∧ WritesNone s u ∧ Passes s u ∧
      u.here.toks[t].toNat = s.here.toks[t].toNat + n.toNat := by
  have hfits : s.here.toks[t].toNat + n.toNat ≤ 63 := by omega
  have hexec : exec (.toks t n) s = .next ((s.mod (addTokens t n)).retire 8) := by
    change execToks t n s = _
    rw [execToks, if_neg (by omega), hperf, decide_eq_false (by omega), if_neg (by decide)]
    rfl
  refine runs_mono (runs_mod_pass rfl rfl hexec) fun u ⟨hdone, hframe, hnone, hpass⟩ => ⟨hframe, hnone, hpass, ?_⟩
  rw [hdone.core]
  simp only [addTokens, Fin.getElem_fin, Vector.getElem_set_self]
  exact toNat_add_of_le hfits

section
variable {t : Fin 16} {n : BitVec 6} {s : State} (h : n.toNat ≤ s.here.toks[t].toNat)
include h

theorem runs_tokw : Runs (.tokw t n) s fun u => FrameNoting s u (dropTokens t n) [.tokens t n] ∧ WritesNone s u ∧ Passes s u ∧
    u.here.toks[t].toNat + n.toNat = s.here.toks[t].toNat := by
  have hexec : exec (.tokw t n) s = .next ((s.takeTokens t n).retire 8) := by
    change execTokw t n s = _
    rw [execTokw, if_neg (not_lt.2 h)]
  rw [takeTokens_eq] at hexec
  have hseqs := noteChange_seqs (dropTokens t n s.here) (s.change (.tokens t n))
  have hex := noteChange_ex (dropTokens t n s.here) (s.change (.tokens t n))
  refine runs_mono (runs_mod_pass hseqs hex hexec) fun u ⟨hdone, _, hnone, hpass⟩ =>
    ⟨frameNoting_of_completes (moves_pass 8) rfl hdone, hnone, hpass, ?_⟩
  rw [hdone.core, noteChange_frame]
  simp only [dropTokens, Fin.getElem_fin, Vector.getElem_set_self]
  exact toNat_sub_add_of_le h

theorem runs_tokt_taken (d : Fin 32) : Runs (.tokt d t n) s fun u =>
    FrameNoting s u (dropTokens t n) [.tokens t n] ∧ Writes s u d 1 ∧ Passes s u := by
  have hexec : exec (.tokt d t n) s = .next (((s.takeTokens t n).writeS d 1 1).retire 8) := by
    change execTokt d t n s = _
    rw [execTokt, if_pos h]
  obtain ⟨hdone, hwrites⟩ := completes_writeS (s := s) (f := fun k => (dropTokens t n k).noteChange (s.change (.tokens t n)))
    (noteChange_seqs _ _) (noteChange_ex _ _) (moves_pass 8) d 1 le_rfl
  exact ⟨_, hexec, frameNoting_of_completes (moves_pass 8) rfl hdone, hwrites, hdone.goes rfl⟩

end

/-- Settles O13: each changes one thing of its core, or none, and passes. -/
theorem tokensAndConstants : Obligations.TokensAndConstants := by
  unfold Obligations.TokensAndConstants
  refine ⟨fun s => runs_pass rfl, fun t n s => runs_toks, fun t n s => runs_tokw, fun d t n s h => runs_tokt_taken h d,
    fun d t n s hless => ?_, fun src n s hfly hroom => ?_, fun c src s => ?_⟩
  · have hexec : exec (.tokt d t n) s = .next ((s.writeS d 0 1).retire 8) := by
      change execTokt d t n s = _
      rw [execTokt, if_neg (not_le.2 hless)]
    exact runs_mono (runs_scalar le_rfl hexec) fun u hdone => ⟨hdone.frame, hdone.writes, hdone.passes⟩
  · have hexec : exec (.bqp src n) s = .next ((s.mod fun k => k.pushBq n (decide (s.src src ≠ 0))).retire 8) := by
      change execBqp src n s = _
      rw [execBqp, if_neg (not_not.2 hfly), hroom]
      rfl
    exact runs_mono (runs_mod_pass rfl rfl hexec) fun u ⟨_, hrest⟩ => hrest
  · exact runs_mono (runs_mod_pass (i := .cbw c src) (f := fun k => { k with consts := k.consts.set c (s.src src) }) rfl rfl rfl)
      fun u ⟨_, hrest⟩ => hrest

/-! ## MFSR (R91, R112) -/

theorem execMfsr_of_readable {r : Spr} {s : State} (hr : sprReads r = true) (hmode : sprSup r = true → s.me.sup = true) (d : Fin 32) :
    execMfsr d r s = .next (((s.readOpen r).2.writeS d (s.readOpen r).1 (mfsrLat r)).retire 8) := by
  have hpriv := privilege_of_mode hmode
  simp [execMfsr, hpriv, hr]

theorem one_le_mfsrLat (r : Spr) : 1 ≤ mfsrLat r := by
  unfold mfsrLat
  split <;> decide

/-- Settles O15: MFSR writes what the register reads, or a free value. -/
theorem specialReads : Obligations.SpecialReads := by
  unfold Obligations.SpecialReads
  refine ⟨fun d r x s hr hmode hread => ?_, fun d r s hr hmode hread => ?_⟩
  · have hexec : exec (.mfsr d r) s = _ := execMfsr_of_readable hr hmode d
    rw [State.readOpen, hread] at hexec
    exact runs_mono (runs_scalar (one_le_mfsrLat r) hexec) fun u hdone => ⟨hdone.frame, hdone.writes, hdone.passes⟩
  · have hexec : exec (.mfsr d r) s = _ := execMfsr_of_readable hr hmode d
    rw [State.readOpen, hread] at hexec
    have hdone := scalar_writeS { s with fresh := s.fresh + 1 } d ((Config.freeValue s.fresh).setWidth 64) (one_le_mfsrLat r)
    exact ⟨_, hexec, rfl, hdone.frame, ⟨_, hdone.writes⟩, hdone.passes⟩

end Sys2Proof.Laws
end

section
/-! SUPPORT. Writes of special registers: what each register shows, and that no other shows a change (R91, R112). -/

namespace Sys2Proof.Laws

open BitVec Sys2Proof.Machine

/-! ## What special registers show (R91, R112) -/

/-- What a register shows that the sequencer holds itself; none for the others. -/
def ownShows (q : SeqSt) (r : Spr) : Option Word :=
  match r with
  | .pc => some q.pc
  | .cause => some (q.cause.setWidth 64)
  | .epc => some q.epc
  | .tval => some q.tval
  | .lc n => some (q.loops[n].lc.setWidth 64)
  | .lbeg n => some q.loops[n].lbeg
  | .lend n => some q.loops[n].lend
  | .lstk => some (q.lstk.setWidth 64)
  | .dpc => some q.dpc
  | .dres => some (q.dres.setWidth 64)
  | .tvec => some q.tvec
  | .tstat => some (b2w q.psup 0)
  | .sscr => some q.sscr
  | .l2flo => some q.sr.l2flo
  | .l2fhi => some q.sr.l2fhi
  | .rlsel => some (q.sr.rlsel.setWidth 64)
  | .errinj => some q.sr.errinj
  | .errinja => some q.sr.errinja
  | _ => none

theorem readSpr_of_ownShows {s : State} {r : Spr} {x : Word} (h : ownShows s.me r = some x) : s.readSpr r = some x := by
  cases r <;> simp_all [ownShows, State.readSpr]

/-- Outside the sequencer's own registers all that registers show stands, but for ycnt. -/
structure ShowsRest (s t : State) : Prop where
  cur : t.cur = s.cur
  rest : t = { s with cores := t.cores }
  core : t.here = { s.here with seqs := t.here.seqs, ex := t.here.ex, chk := t.here.chk }
  splret : t.here.ex.splret = s.here.ex.splret
  tsa : t.here.ex.tsa = s.here.ex.tsa
  sup : t.me.sup = s.me.sup
  inTrap : t.me.inTrap = s.me.inTrap

theorem readSpr_of_showsRest {s t : State} (h : ShowsRest s t) {r : Spr} (hown : ownShows t.me r = ownShows s.me r) (hycnt : r ≠ .ycnt)
    (hsel : ∀ n, r = .rld n → t.me.sr.rlsel = s.me.sr.rlsel) : t.readSpr r = s.readSpr r := by
  have hgtb : t.gtb = s.gtb := by rw [h.rest]; rfl
  have hafc : t.afc = s.afc := by rw [h.rest]
  have hpw : t.pwmode = s.pwmode := by rw [h.rest]
  have hrel : t.rel = s.rel := by rw [h.rest]
  have hstrand : t.here.strand = s.here.strand := by rw [h.core]
  have hctx : t.here.ctx = s.here.ctx := by rw [Core.ctx, hstrand, Core.ctx]
  have hreq : t.here.req = s.here.req := by rw [h.core]
  have hgvs : t.here.gvs = s.here.gvs := by rw [h.core]
  have hcflt : t.here.cflt = s.here.cflt := by rw [h.core]
  have hqueues : t.here.queues = s.here.queues := by rw [h.core]
  have hlocks : t.here.locks = s.here.locks := by rw [h.core]
  have hlkres : t.here.lkres = s.here.lkres := by rw [h.core]
  have hgath : t.here.gath = s.here.gath := by rw [h.core]
  cases hx : ownShows s.me r with
  | some x => rw [readSpr_of_ownShows hx, readSpr_of_ownShows (hown.trans hx)]
  | none =>
    cases r
    case ycnt => exact absurd rfl hycnt
    case rld n => simp only [State.readSpr, hrel, hsel n rfl]
    all_goals simp_all only [ownShows, reduceCtorEq, State.readSpr, State.statusWord, h.cur, h.splret, h.tsa, h.sup, h.inTrap]

/-- What a write of a special register leaves alone before the MTSR passes. -/
structure Quiet (s w : State) : Prop where
  cur : w.cur = s.cur
  bytes : SameBytes s w
  others : OthersFrame s w
  regs : w.me.regs = s.me.regs
  pc : w.me.pc = s.me.pc
  closed : NoLoop w
  pend : w.here.ex.pend = s.here.ex.pend

theorem completes_retire (s : State) : Completes s (s.retire 8) s.here (fun q => q.goto (q.pc + 8)) ∧ WritesNone s (s.retire 8) :=
  completes_move (moves_pass 8)

section
variable {w : State} (hno : NoLoop w)
include hno

theorem me_retire_of_noLoop : (w.retire 8).me =
    { w.me with pc := w.me.pc + 8, regs := (w.retire 8).me.regs, wait := .none } := by
  have hme := (completes_retire w).1.me
  rwa [SeqSt.goto_of_depth_zero _ _ hno] at hme

theorem showsRest_retire : ShowsRest w (w.retire 8) := by
  obtain ⟨hdone, -⟩ := completes_retire w
  have hme := me_retire_of_noLoop hno
  obtain ⟨hrest, -⟩ := hdone.only
  obtain ⟨hne, hex⟩ := hdone.kept
  refine ⟨hdone.cur, hrest, hdone.core, ?_, ?_, by rw [hme], by rw [hme]⟩
  · by_cases hq : w.cur.2 = .ex
    · exact (hex hq).2.1
    · rw [hne hq]
  · by_cases hq : w.cur.2 = .ex
    · exact (hex hq).2.2.1
    · rw [hne hq]

/-- Passing shows in no special register but pc and ycnt. -/
theorem readSpr_retire {r : Spr} (hpc : r ≠ .pc) (hycnt : r ≠ .ycnt) : (w.retire 8).readSpr r = w.readSpr r := by
  have hme := me_retire_of_noLoop hno
  refine readSpr_of_showsRest (showsRest_retire hno) ?_ hycnt fun _ _ => by rw [hme]
  rw [hme]
  cases r <;> simp_all only [ownShows, ne_eq, reduceCtorEq, not_true_eq_false]

end

theorem Quiet.retire {s w : State} (h : Quiet s w) : WritesNone s (w.retire 8) ∧ SameBytes s (w.retire 8) ∧
    OthersFrame s (w.retire 8) ∧ (w.retire 8).me.pc = s.me.pc + 8 := by
  obtain ⟨hdone, hnone⟩ := completes_retire w
  refine ⟨fun hno n => ?_, fun a => (hdone.bytes a).trans (h.bytes a), fun q hq => ?_, ?_⟩
  · rw [hnone (fun hq => by rw [h.pend, hno (by rwa [← h.cur])]) n, SeqSt.reg, h.regs, SeqSt.reg]
  · rw [hdone.others q (by rwa [h.cur]), h.others q hq]
  · rw [me_retire_of_noLoop h.closed, h.pc]

/-- A special register holds a value, and no other has changed but those that the statement leaves out. -/
structure SprWritten (s w : State) (r : Spr) (x : Word) : Prop where
  quiet : Quiet s w
  shows : w.readSpr r = some (sprKeeps r x)
  apart : ∀ r', sprApart r r' = true → w.readSpr r' = s.readSpr r'

theorem ne_of_sprApart {r r' : Spr} (h : sprApart r r' = true) : r' ≠ r ∧ r' ≠ .pc ∧ r' ≠ .ycnt := by
  simp only [sprApart, Bool.and_eq_true, bne_iff_ne] at h
  exact ⟨h.1.1.1, h.1.1.2, h.1.2⟩

theorem SprWritten.retire {s w : State} {r : Spr} {x : Word} (h : SprWritten s w r x) (hpc : r ≠ .pc) (hycnt : r ≠ .ycnt) :
    (w.retire 8).readSpr r = some (sprKeeps r x) ∧ ∀ r', sprApart r r' = true → (w.retire 8).readSpr r' = s.readSpr r' := by
  refine ⟨?_, fun r' hr' => ?_⟩
  · rw [readSpr_retire h.quiet.closed hpc hycnt, h.shows]
  · obtain ⟨-, hpc', hycnt'⟩ := ne_of_sprApart hr'
    rw [readSpr_retire h.quiet.closed hpc' hycnt', h.apart r' hr']

/-! ### The three places that hold a register -/

theorem quiet_modMe {s : State} {f : SeqSt → SeqSt} (hregs : ∀ q, (f q).regs = q.regs) (hpc : ∀ q, (f q).pc = q.pc)
    (hclosed : (f s.me).depth = 0) : Quiet s (s.modMe f) where
  cur := rfl
  bytes _ := rfl
  others q hq := by rw [State.here_modMe, Core.seq_onSeq_ne _ _ _ _ hq]
  regs := by rw [State.me_modMe, hregs]
  pc := by rw [State.me_modMe, hpc]
  closed := by rw [NoLoop, State.me_modMe, hclosed]
  pend := pend_modMe s f

/-- A change of a sequencer that puts a value into a register that it holds itself, and shows nowhere else. -/
structure PutsOwn (f : SeqSt → SeqSt) (r : Spr) (x : Word) : Prop where
  regs : ∀ q, (f q).regs = q.regs := by intro; rfl
  pc : ∀ q, (f q).pc = q.pc := by intro; rfl
  sup : ∀ q, (f q).sup = q.sup := by intro; rfl
  inTrap : ∀ q, (f q).inTrap = q.inTrap := by intro; rfl
  rlsel : r ≠ .rlsel → ∀ q, (f q).sr.rlsel = q.sr.rlsel := by intros; rfl
  lstk : r ≠ .lstk → ∀ q, (f q).lstk = q.lstk := by intros; rfl
  shows : ∀ q, ownShows (f q) r = some (sprKeeps r x) := by intro; rfl
  apart : ∀ q r', r' ≠ r → ownShows (f q) r' = ownShows q r'

theorem sprWritten_modMe {s : State} {f : SeqSt → SeqSt} {r : Spr} {x : Word} (h : PutsOwn f r x) (hclosed : (f s.me).depth = 0) :
    SprWritten s (s.modMe f) r x := by
  refine ⟨quiet_modMe h.regs h.pc hclosed, readSpr_of_ownShows (by rw [State.me_modMe, h.shows]), fun r' hr' => ?_⟩
  obtain ⟨hne, hpc', hycnt'⟩ := ne_of_sprApart hr'
  have hrest : s.modMe f = { s with cores := (s.modMe f).cores } := rfl
  refine readSpr_of_showsRest (s := s) (t := s.modMe f) ⟨rfl, hrest, ?_, ?_, ?_, ?_, ?_⟩ ?_ hycnt' fun n hn => ?_
  · rw [State.here_modMe]
    rfl
  · rw [State.here_modMe, Core.onSeq_ex]
  · rw [State.here_modMe, Core.onSeq_ex]
  · rw [State.me_modMe, h.sup]
  · rw [State.me_modMe, h.inTrap]
  · rw [State.me_modMe, h.apart _ r' hne]
  · rw [State.me_modMe]
    refine h.rlsel ?_ _
    rintro rfl
    subst hn
    cases hr'

/-- Any register of these but lstk opens no loop. -/
theorem sprWritten_of_noLoop {s : State} (hno : NoLoop s) {f : SeqSt → SeqSt} {r : Spr} {x : Word} (h : PutsOwn f r x)
    (hr : r ≠ .lstk) : SprWritten s (s.modMe f) r x := by
  refine sprWritten_modMe h ?_
  rw [SeqSt.depth, h.lstk hr]
  exact hno

theorem me_mod_of_seqs {s : State} {f : Core → Core} (h : (f s.here).seqs = s.here.seqs) : (s.mod f).me = s.me := by
  rw [State.me, State.here_mod, Core.seq, h, State.me, Core.seq, State.mod_cur]

theorem quiet_mod {s : State} (hno : NoLoop s) {f : Core → Core} (hseqs : (f s.here).seqs = s.here.seqs)
    (hpend : (f s.here).ex.pend = s.here.ex.pend) : Quiet s (s.mod f) where
  cur := rfl
  bytes _ := rfl
  others q _ := by rw [State.here_mod, Core.seq, hseqs, Core.seq]
  regs := by rw [me_mod_of_seqs hseqs]
  pc := by rw [me_mod_of_seqs hseqs]
  closed := by rwa [NoLoop, me_mod_of_seqs hseqs]
  pend := by rw [State.here_mod, hpend]

theorem getElem_set_fin_ne {α : Type} {m : Nat} (v : Vector α m) {n n' : Fin m} (h : n' ≠ n) (x : α) : (v.set n x)[n'] = v[n'] :=
  Vector.getElem_set_ne _ _ fun e => h (Fin.ext e.symm)

theorem getElem_set_fin_self {α : Type} {m : Nat} (v : Vector α m) (n : Fin m) (x : α) : (v.set n x)[n] = x :=
  Vector.getElem_set_self _

/-- Where the new entry agrees with the old one, every entry does. -/
theorem map_getElem_set {α β : Type} {m : Nat} (p : α → β) (v : Vector α m) {n : Fin m} {x : α} (h : p x = p v[n]) (n' : Fin m) :
    p (v.set n x)[n'] = p v[n'] := by
  by_cases hn : n' = n
  · rw [hn, getElem_set_fin_self, h]
  · rw [getElem_set_fin_ne v hn]

/-- What a register shows, or has a part in, that the core or EX holds; none for the others. -/
def coreShows (k : Core) (r : Spr) : Option Word :=
  match r with
  | .vfid => some (BitVec.ofNat 64 (vfOf k.ctx).val)
  | .ctxid => some (k.ctx.setWidth 64)
  | .phase => some ((k.strand.map (·.phase)).getD 0)
  | .status => some (b2w k.req.isSome 2)
  | .splret => some k.ex.splret
  | .tsa => some k.ex.tsa
  | .gvs => some k.gvs
  | .cflt => some (k.cflt.setWidth 64)
  | .qst n => some k.queues[n].status
  | .lkl n => some k.locks[n]
  | .lkres => some (k.lkres.setWidth 64)
  | .efva => some k.gath.fva
  | .efdone => k.gath.cur.map fun m => BitVec.ofNat 64 m.done
  | .efpc => k.gath.cur.map (·.pc)
  | _ => none

theorem readSpr_mod_of_coreShows {s : State} {f : Core → Core} {r : Spr} (hseqs : (f s.here).seqs = s.here.seqs) (hycnt : r ≠ .ycnt)
    (h : coreShows (f s.here) r = coreShows s.here r) : (s.mod f).readSpr r = s.readSpr r := by
  have hme := me_mod_of_seqs hseqs
  cases r
  case ycnt => exact absurd rfl hycnt
  all_goals simp_all only [coreShows, Option.some.injEq, State.readSpr, State.statusWord, State.here_mod, State.mod_cur, State.mod_rel,
    State.mod_afc, State.mod_pwmode] <;> rfl

/-- A change of a core that puts a value into a register that it holds, and shows nowhere else. -/
structure PutsCore (f : Core → Core) (r : Spr) (x : Word) : Prop where
  seqs : ∀ k, (f k).seqs = k.seqs := by intro; rfl
  pend : ∀ k, (f k).ex.pend = k.ex.pend := by intro; rfl
  shows : ∀ s : State, (s.mod f).readSpr r = some (sprKeeps r x)
  apart : ∀ k r', r' ≠ r → coreShows (f k) r' = coreShows k r'

theorem sprWritten_mod {s : State} (hno : NoLoop s) {f : Core → Core} {r : Spr} {x : Word} (h : PutsCore f r x) :
    SprWritten s (s.mod f) r x := by
  refine ⟨quiet_mod hno (h.seqs _) (h.pend _), h.shows s, fun r' hr' => ?_⟩
  obtain ⟨hne, -, hycnt⟩ := ne_of_sprApart hr'
  exact readSpr_mod_of_coreShows (h.seqs _) hycnt (h.apart _ r' hne)

/-! ### Values that a register takes (R112) -/

/-- A value with no bit of n or above is its low n bits. -/
theorem toNat_lt_of_and_not_mask {x : Word} {n : Nat} (h : x &&& ~~~(BitVec.ofNat 64 (2 ^ n - 1)) = 0) : x.toNat < 2 ^ n := by
  refine Nat.lt_pow_two_of_testBit _ fun i hi => ?_
  by_cases h64 : i < 64
  · have hbit : (x &&& ~~~(BitVec.ofNat 64 (2 ^ n - 1))).getLsbD i = false := by
      rw [h]
      exact BitVec.getLsbD_zero
    change x.getLsbD i = false
    simpa only [BitVec.getLsbD_and, BitVec.getLsbD_not, BitVec.getLsbD_ofNat, Nat.testBit_two_pow_sub_one, not_lt.2 hi, h64,
      decide_true, decide_false, Bool.and_false, Bool.not_false, Bool.and_true] using hbit
  · exact BitVec.getLsbD_of_ge x i (not_lt.1 h64)

theorem setWidth_setWidth_of_lt {x : Word} {n : Nat} (h : x.toNat < 2 ^ n) : (x.setWidth n).setWidth 64 = x := by
  apply BitVec.eq_of_toNat_eq
  rw [BitVec.toNat_setWidth, BitVec.toNat_setWidth, Nat.mod_eq_of_lt h, Nat.mod_eq_of_lt x.isLt]

theorem b2w_getLsbD_zero {x : Word} (h : x.toNat < 2) : b2w (x.getLsbD 0) 0 = x := by
  apply BitVec.eq_of_toNat_eq
  obtain h0 | h1 : x.toNat = 0 ∨ x.toNat = 1 := by omega
  · simp [b2w, bit, BitVec.getLsbD, h0]
  · simp [b2w, bit, BitVec.getLsbD, h1]

theorem lstk_fits {q : SeqSt} {x : Word} (h : q.lstkOk x = true) : x.toNat < 2 ^ 12 := by
  simp only [SeqSt.lstkOk, Bool.and_eq_true, beq_iff_eq] at h
  have hzero := congrArg BitVec.toNat h.1.1.1.1
  rw [BitVec.extractLsb'_toNat, Nat.shiftRight_eq_div_pow] at hzero
  have := x.isLt
  simp at hzero
  omega

/-! ### Each register that only holds its value -/

theorem mask_of_sprOk {s : State} {r : Spr} {x : Word} (h : s.sprOk r x = true) : x &&& sprReserved r = 0 := by
  unfold State.sprOk at h
  rw [Bool.and_eq_true, beq_iff_eq] at h
  exact h.1

theorem lstkOk_of_sprOk {s : State} {x : Word} (h : s.sprOk .lstk x = true) : s.me.lstkOk x = true := by
  unfold State.sprOk at h
  rw [Bool.and_eq_true] at h
  exact h.2

theorem putsOwn_cause {x : Word} (h : x.toNat < 2 ^ 9) : PutsOwn (fun q => { q with cause := x.setWidth 9 }) .cause x where
  shows _ := congrArg some (setWidth_setWidth_of_lt h)
  apart q r' hne := by
    cases r'
    case cause => exact absurd rfl hne
    all_goals rfl

theorem putsOwn_epc (x : Word) : PutsOwn (fun q => { q with epc := x }) .epc x where
  apart q r' hne := by
    cases r'
    case epc => exact absurd rfl hne
    all_goals rfl

theorem putsOwn_tval (x : Word) : PutsOwn (fun q => { q with tval := x }) .tval x where
  apart q r' hne := by
    cases r'
    case tval => exact absurd rfl hne
    all_goals rfl

theorem putsOwn_lc (n : Fin 4) (x : Word) : PutsOwn (fun q => q.setLc n (x.setWidth 32)) (.lc n) x where
  shows q := congrArg some (congrArg (·.lc.setWidth 64) (getElem_set_fin_self q.loops n { q.loops[n] with lc := x.setWidth 32 }))
  apart q r' hne := by
    cases r'
    case lc m =>
      have hm : m ≠ n := fun h => hne (congrArg Spr.lc h)
      exact congrArg some (congrArg (·.lc.setWidth 64) (getElem_set_fin_ne q.loops hm { q.loops[n] with lc := x.setWidth 32 }))
    case lbeg m => exact congrArg some (map_getElem_set (·.lbeg) q.loops (x := { q.loops[n] with lc := x.setWidth 32 }) rfl m)
    case lend m => exact congrArg some (map_getElem_set (·.lend) q.loops (x := { q.loops[n] with lc := x.setWidth 32 }) rfl m)
    all_goals rfl

theorem putsOwn_lbeg (n : Fin 4) (x : Word) :
    PutsOwn (fun q => { q with loops := q.loops.set n { q.loops[n] with lbeg := x } }) (.lbeg n) x where
  shows q := congrArg some (congrArg (·.lbeg) (getElem_set_fin_self q.loops n { q.loops[n] with lbeg := x }))
  apart q r' hne := by
    cases r'
    case lbeg m =>
      have hm : m ≠ n := fun h => hne (congrArg Spr.lbeg h)
      exact congrArg some (congrArg (·.lbeg) (getElem_set_fin_ne q.loops hm { q.loops[n] with lbeg := x }))
    case lc m => exact congrArg some (map_getElem_set (·.lc.setWidth 64) q.loops (x := { q.loops[n] with lbeg := x }) rfl m)
    case lend m => exact congrArg some (map_getElem_set (·.lend) q.loops (x := { q.loops[n] with lbeg := x }) rfl m)
    all_goals rfl

theorem putsOwn_lend (n : Fin 4) (x : Word) :
    PutsOwn (fun q => { q with loops := q.loops.set n { q.loops[n] with lend := x } }) (.lend n) x where
  shows q := congrArg some (congrArg (·.lend) (getElem_set_fin_self q.loops n { q.loops[n] with lend := x }))
  apart q r' hne := by
    cases r'
    case lend m =>
      have hm : m ≠ n := fun h => hne (congrArg Spr.lend h)
      exact congrArg some (congrArg (·.lend) (getElem_set_fin_ne q.loops hm { q.loops[n] with lend := x }))
    case lc m => exact congrArg some (map_getElem_set (·.lc.setWidth 64) q.loops (x := { q.loops[n] with lend := x }) rfl m)
    case lbeg m => exact congrArg some (map_getElem_set (·.lbeg) q.loops (x := { q.loops[n] with lend := x }) rfl m)
    all_goals rfl

theorem putsOwn_lstk {x : Word} (h : x.toNat < 2 ^ 12) : PutsOwn (fun q => { q with lstk := x.setWidth 12 }) .lstk x where
  lstk hne := absurd rfl hne
  shows _ := congrArg some (setWidth_setWidth_of_lt h)
  apart q r' hne := by
    cases r'
    case lstk => exact absurd rfl hne
    all_goals rfl

theorem putsOwn_dpc (x : Word) : PutsOwn (fun q => { q with dpc := x }) .dpc x where
  apart q r' hne := by
    cases r'
    case dpc => exact absurd rfl hne
    all_goals rfl

theorem putsOwn_dres {x : Word} (h : x.toNat < 2 ^ 3) : PutsOwn (fun q => { q with dres := x.setWidth 3 }) .dres x where
  shows _ := congrArg some (setWidth_setWidth_of_lt h)
  apart q r' hne := by
    cases r'
    case dres => exact absurd rfl hne
    all_goals rfl

theorem putsOwn_tvec (x : Word) : PutsOwn (fun q => { q with tvec := x }) .tvec x where
  apart q r' hne := by
    cases r'
    case tvec => exact absurd rfl hne
    all_goals rfl

theorem putsOwn_tstat {x : Word} (h : x.toNat < 2) : PutsOwn (fun q => { q with psup := x.getLsbD 0 }) .tstat x where
  shows _ := congrArg some (b2w_getLsbD_zero h)
  apart q r' hne := by
    cases r'
    case tstat => exact absurd rfl hne
    all_goals rfl

theorem putsOwn_sscr (x : Word) : PutsOwn (fun q => { q with sscr := x }) .sscr x where
  apart q r' hne := by
    cases r'
    case sscr => exact absurd rfl hne
    all_goals rfl

theorem putsOwn_l2flo (x : Word) : PutsOwn (fun q => { q with sr := { q.sr with l2flo := x } }) .l2flo x where
  apart q r' hne := by
    cases r'
    case l2flo => exact absurd rfl hne
    all_goals rfl

theorem putsOwn_l2fhi (x : Word) : PutsOwn (fun q => { q with sr := { q.sr with l2fhi := x } }) .l2fhi x where
  apart q r' hne := by
    cases r'
    case l2fhi => exact absurd rfl hne
    all_goals rfl

theorem putsOwn_rlsel {x : Word} (h : x.toNat < 2 ^ 6) :
    PutsOwn (fun q => { q with sr := { q.sr with rlsel := x.setWidth 6 } }) .rlsel x where
  rlsel hne := absurd rfl hne
  shows _ := congrArg some (setWidth_setWidth_of_lt h)
  apart q r' hne := by
    cases r'
    case rlsel => exact absurd rfl hne
    all_goals rfl

theorem putsOwn_errinja (x : Word) : PutsOwn (fun q => { q with sr := { q.sr with errinja := x } }) .errinja x where
  apart q r' hne := by
    cases r'
    case errinja => exact absurd rfl hne
    all_goals rfl

theorem putsCore_splret (x : Word) : PutsCore (fun k => { k with ex := { k.ex with splret := x } }) .splret x where
  shows s := by
    rw [State.readSpr, State.here_mod]
    rfl
  apart k r' hne := by
    cases r'
    case splret => exact absurd rfl hne
    all_goals rfl

theorem putsCore_tsa (x : Word) : PutsCore (fun k => { k with ex := { k.ex with tsa := x } }) .tsa x where
  shows s := by
    rw [State.readSpr, State.here_mod]
    rfl
  apart k r' hne := by
    cases r'
    case tsa => exact absurd rfl hne
    all_goals rfl

theorem putsCore_gvs (x : Word) : PutsCore (fun k => { k with gvs := x }) .gvs x where
  shows s := by
    rw [State.readSpr, State.here_mod]
    rfl
  apart k r' hne := by
    cases r'
    case gvs => exact absurd rfl hne
    all_goals rfl

theorem putsCore_cflt {x : Word} (h : x.toNat < 2 ^ 10) : PutsCore (fun k => { k with cflt := x.setWidth 10 }) .cflt x where
  shows s := by
    rw [State.readSpr, State.here_mod]
    exact congrArg some (setWidth_setWidth_of_lt h)
  apart k r' hne := by
    cases r'
    case cflt => exact absurd rfl hne
    all_goals rfl

theorem putsCore_lkl (n : Fin 16) (x : Word) : PutsCore (fun k => { k with locks := k.locks.set n x }) (.lkl n) x where
  shows s := by
    rw [State.readSpr, State.here_mod]
    exact congrArg some (getElem_set_fin_self s.here.locks n x)
  apart k r' hne := by
    cases r'
    case lkl m =>
      have hm : m ≠ n := fun h => hne (congrArg Spr.lkl h)
      exact congrArg some (getElem_set_fin_ne k.locks hm x)
    all_goals rfl

theorem sprWritten_pwmode {s : State} (hno : NoLoop s) (x : Word) : SprWritten s { s with pwmode := x } .pwmode x := by
  refine ⟨⟨rfl, fun _ => rfl, fun _ _ => rfl, rfl, rfl, hno, rfl⟩, rfl, fun r' hr' => ?_⟩
  obtain ⟨hne, -⟩ := ne_of_sprApart hr'
  cases r'
  case pwmode => exact absurd rfl hne
  all_goals rfl

theorem sprWritten_relpol {s : State} (hno : NoLoop s) (x : Word) :
    SprWritten s { s with rel := { s.rel with relpol := x } } .relpol x := by
  refine ⟨⟨rfl, fun _ => rfl, fun _ _ => rfl, rfl, rfl, hno, rfl⟩, rfl, fun r' hr' => ?_⟩
  obtain ⟨hne, -⟩ := ne_of_sprApart hr'
  cases r'
  case relpol => exact absurd rfl hne
  all_goals rfl

theorem depth_setWidth_lstk {x : Word} (h : x.toNat % 8 = 0) (q : SeqSt) : SeqSt.depth { q with lstk := x.setWidth 12 } = 0 := by
  rw [SeqSt.depth, BitVec.extractLsb'_toNat, BitVec.toNat_setWidth, Nat.shiftRight_zero]
  omega

/-- MTSR writes a register that only holds its value (R112). -/
theorem sprWritten_writeSpr {s : State} (hno : NoLoop s) {r : Spr} {x : Word} (hplain : sprPlain r = true) (hok : s.sprOk r x = true)
    (hlstk : r = .lstk → x.toNat % 8 = 0) : SprWritten s (s.writeSpr r x) r x := by
  have hmask := mask_of_sprOk hok
  cases r <;> simp only [sprPlain, Bool.false_eq_true] at hplain <;> dsimp only [State.writeSpr]
  case cause => exact sprWritten_of_noLoop hno (putsOwn_cause (toNat_lt_of_and_not_mask hmask)) nofun
  case epc => exact sprWritten_of_noLoop hno (putsOwn_epc x) nofun
  case tval => exact sprWritten_of_noLoop hno (putsOwn_tval x) nofun
  case lc n => exact sprWritten_of_noLoop hno (putsOwn_lc n x) nofun
  case lbeg n => exact sprWritten_of_noLoop hno (putsOwn_lbeg n x) nofun
  case lend n => exact sprWritten_of_noLoop hno (putsOwn_lend n x) nofun
  case lstk => exact sprWritten_modMe (putsOwn_lstk (lstk_fits (lstkOk_of_sprOk hok))) (depth_setWidth_lstk (hlstk rfl) _)
  case dpc => exact sprWritten_of_noLoop hno (putsOwn_dpc x) nofun
  case dres => exact sprWritten_of_noLoop hno (putsOwn_dres (toNat_lt_of_and_not_mask hmask)) nofun
  case tvec => exact sprWritten_of_noLoop hno (putsOwn_tvec x) nofun
  case tstat => exact sprWritten_of_noLoop hno (putsOwn_tstat (toNat_lt_of_and_not_mask (n := 1) hmask)) nofun
  case sscr => exact sprWritten_of_noLoop hno (putsOwn_sscr x) nofun
  case l2flo => exact sprWritten_of_noLoop hno (putsOwn_l2flo x) nofun
  case l2fhi => exact sprWritten_of_noLoop hno (putsOwn_l2fhi x) nofun
  case rlsel => exact sprWritten_of_noLoop hno (putsOwn_rlsel (toNat_lt_of_and_not_mask hmask)) nofun
  case errinja => exact sprWritten_of_noLoop hno (putsOwn_errinja x) nofun
  case splret => exact sprWritten_mod hno (putsCore_splret x)
  case tsa => exact sprWritten_mod hno (putsCore_tsa x)
  case gvs => exact sprWritten_mod hno (putsCore_gvs x)
  case cflt => exact sprWritten_mod hno (putsCore_cflt (toNat_lt_of_and_not_mask hmask))
  case lkl n => exact sprWritten_mod hno (putsCore_lkl n x)
  case pwmode => exact sprWritten_pwmode hno x
  case relpol => exact sprWritten_relpol hno x

theorem exec_mtsr {src : SSrc} {r : Spr} {s : State} (hmode : sprSup r = true → s.me.sup = true) (hw : sprWrites s.me.sup r = true)
    (hok : s.sprOk r (s.src src) = true) (hr : r ≠ .frel) :
    exec (.mtsr src r) s = .next ((s.writeSpr r (s.src src)).retire 8) := by
  have hpriv := privilege_of_mode hmode
  change execMtsr src r s = _
  simp [execMtsr, hpriv, hw, hok, hr]

/-! ### status and ycnt -/

theorem runs_mtsr_status {src : SSrc} {s : State} (hsup : s.me.sup = true) (hx : s.src src &&& ~~~7 = 0) (hno : NoLoop s) :
    Runs (.mtsr src .status) s fun u => u.me.inTrap = (s.src src).getLsbD 1 ∧ u.me.sup = s.me.sup ∧ u.here.req = s.here.req ∧
      WritesNone s u ∧ SameBytes s u ∧ OthersFrame s u ∧ u.me.pc = s.me.pc + 8 := by
  have hok : s.sprOk .status (s.src src) = true := by
    unfold State.sprOk
    rw [Bool.and_true, beq_iff_eq]
    exact hx
  have hquiet : Quiet s (s.writeSpr .status (s.src src)) := quiet_modMe (fun _ => rfl) (fun _ => rfl) hno
  have hme := me_retire_of_noLoop hquiet.closed
  have hw : (s.writeSpr .status (s.src src)).me = { s.me with inTrap := (s.src src).getLsbD 1 } := State.me_modMe s _
  refine ⟨_, exec_mtsr (fun _ => hsup) (by rw [sprWrites, hsup]) hok (by decide), ?_, ?_, ?_, hquiet.retire⟩
  · rw [hme, hw]
  · rw [hme, hw]
  · have hreq : (s.writeSpr .status (s.src src)).here.req = s.here.req := by
      rw [State.writeSpr, State.here_modMe]
      rfl
    rw [(completes_retire _).1.core]
    exact hreq

/-- Outside a handler and a diversion an issue slot of EX is counted (R81, R350). -/
theorem ticked_ycnt {k : Core} (hin : (k.seq .ex).inTrap = false) (hdiv : k.divert = none) (yp : Bool) (clk : Nat) :
    (ticked k yp clk).ex.ycnt = if yp then 1 else k.ex.ycnt + 1 := by
  have hseq := Core.seq_onSeq k .ex fun q => { q with wait := .none }
  have hcount : (((k.onSeq .ex fun q => { q with wait := .none }).seq .ex).inTrap ||
      (k.onSeq .ex fun q => { q with wait := .none }).divert.isSome) = false := by
    rw [hseq, Core.onSeq_divert, hdiv]
    exact (Bool.or_false _).trans hin
  rw [ticked, Core.countSlot, hcount]
  rfl

theorem ycnt_issue {s : State} (hq : s.cur.2 = .ex) (hin : s.me.inTrap = false) (hdiv : s.here.divert = none) :
    s.issue.here.ex.ycnt = if s.curYp then 1 else s.here.ex.ycnt + 1 := by
  rw [here_issue_ex hq, onlyLands_ycnt (onlyLands_nextSlot _), ticked_ycnt ?_ hdiv]
  rwa [State.me, hq] at hin

theorem runs_mtsr_ycnt {src : SSrc} {s : State} (hq : s.cur.2 = .ex) (hsup : s.me.sup = true) (hin : s.me.inTrap = false)
    (hdiv : s.here.divert = none) (hno : NoLoop s) :
    Runs (.mtsr src .ycnt) s fun u => u.here.ex.ycnt = (if s.curYp then 1 else s.src src + 1) ∧ WritesNone s u ∧ SameBytes s u ∧
      OthersFrame s u ∧ u.me.pc = s.me.pc + 8 := by
  have hok : s.sprOk .ycnt (s.src src) = true := by
    unfold State.sprOk
    rw [Bool.and_true, beq_iff_eq]
    exact BitVec.and_zero
  have hquiet : Quiet s (s.writeSpr .ycnt (s.src src)) := quiet_mod hno rfl rfl
  refine ⟨_, exec_mtsr nofun (by rw [sprWrites, hsup]) hok (by decide), ?_, hquiet.retire⟩
  have hme : (s.writeSpr .ycnt (s.src src)).me = s.me := me_mod_of_seqs rfl
  have hhere : (s.writeSpr .ycnt (s.src src)).here = { s.here with ex := { s.here.ex with ycnt := s.src src } } := State.here_mod s _
  rw [State.retire, ycnt_issue (s := (s.writeSpr .ycnt (s.src src)).modMe fun q => q.goto (q.pc + 8)) hq ?_ ?_]
  · rw [State.here_modMe, Core.onSeq_ex, hhere]
    rfl
  · rw [State.me_modMe, hme, SeqSt.goto_frame]
    exact hin
  · rw [State.here_modMe, Core.onSeq_divert, hhere]
    exact hdiv

/-- Settles O16: the write shows in its register alone, and passing shows in pc and ycnt alone. -/
theorem specialWrites : Obligations.SpecialWrites := by
  unfold Obligations.SpecialWrites
  refine ⟨fun src r s hplain hw hmode hok hno hlstk => ?_, fun src s => runs_mtsr_status, fun src s => runs_mtsr_ycnt⟩
  have hwritten := sprWritten_writeSpr hno hplain hok hlstk
  have hne : r ≠ .pc ∧ r ≠ .ycnt ∧ r ≠ .frel := by
    refine ⟨?_, ?_, ?_⟩ <;> rintro rfl <;> cases hplain
  obtain ⟨hpc, hycnt, hfrel⟩ := hne
  obtain ⟨hshows, hapart⟩ := hwritten.retire hpc hycnt
  exact ⟨_, exec_mtsr hmode hw hok hfrel, hshows, hapart, hwritten.quiet.retire⟩

end Sys2Proof.Laws
end

section
/-! SUPPORT. The exposed pipeline of EX: what a register holds after some slots is what landed last (R95). -/

namespace Sys2Proof.Laws

open Sys2Proof.Machine

/-! ## The exposed pipeline (R95) -/

theorem foldl_apply_pend (ps : List Pending) (k : Core) : (ps.foldl (fun k p => k.apply p.w) k).ex.pend = k.ex.pend := by
  induction ps generalizing k with
  | nil => rfl
  | cons p ps ih => rw [List.foldl_cons, ih, apply_pend]

theorem nextSlot_pend (k : Core) : k.nextSlot.ex.pend = k.ex.pend.filter fun p => p.due != k.ex.slot + 1 := foldl_apply_pend _ _

theorem filter_append_cons {α : Type} {f : α → Bool} {p : α} (hp : f p = true) (pre post : List α) :
    (pre ++ p :: post).filter f = pre.filter f ++ p :: post.filter f := by
  rw [List.filter_append, List.filter_cons_of_pos hp]

/-- A part of EX's registers that only writes which hit it change, among those that `ok` allows. -/
structure Place {α : Type} (obs : Core → α) (ok hits : ExWrite → Prop) : Prop where
  stands : ∀ (k : Core) (n : Nat) (ps : List Pending), obs { k with ex := { k.ex with slot := n, pend := ps } } = obs k
  misses : ∀ (k : Core) (w : ExWrite), ok w → ¬hits w → obs (k.apply w) = obs k

section
variable {α : Type} {obs : Core → α} {ok hits : ExWrite → Prop} (hplace : Place obs ok hits)
include hplace

theorem obs_foldl_of_misses {ps : List Pending} (hok : ∀ r ∈ ps, ok r.w) (hmiss : ∀ r ∈ ps, ¬hits r.w) (k : Core) :
    obs (ps.foldl (fun k p => k.apply p.w) k) = obs k := by
  induction ps generalizing k with
  | nil => rfl
  | cons p ps ih =>
    rw [List.forall_mem_cons] at hok hmiss
    rw [List.foldl_cons, ih hok.2 hmiss.2, hplace.misses _ _ hok.1 hmiss.1]

/-- A slot in which nothing hits. -/
theorem obs_nextSlot_of_misses {k : Core} (hok : ∀ r ∈ k.ex.pend, ok r.w)
    (hmiss : ∀ r ∈ k.ex.pend, r.due = k.ex.slot + 1 → ¬hits r.w) :
    obs k.nextSlot = obs k := by
  refine (obs_foldl_of_misses hplace (fun r hr => ?_) (fun r hr => ?_) _).trans (hplace.stands k _ _)
  · exact hok r (List.mem_of_mem_filter hr)
  · obtain ⟨hmem, hdue⟩ := List.mem_filter.1 hr
    exact hmiss r hmem (beq_iff_eq.1 hdue)

/-- A slot in which a write lands after which, in that slot, nothing hits. -/
theorem obs_nextSlot_of_lands {k : Core} {pre post : List Pending} {p : Pending} (hpend : k.ex.pend = pre ++ p :: post)
    (hdue : p.due = k.ex.slot + 1) (hok : ∀ r ∈ post, ok r.w) (hmiss : ∀ r ∈ post, r.due = k.ex.slot + 1 → ¬hits r.w) :
    ∃ c : Core, obs k.nextSlot = obs (c.apply p.w) := by
  have hnow : (k.ex.pend.filter fun r => r.due == k.ex.slot + 1) =
      (pre.filter fun r => r.due == k.ex.slot + 1) ++ p :: post.filter fun r => r.due == k.ex.slot + 1 := by
    rw [hpend]
    refine filter_append_cons ?_ _ _
    exact beq_iff_eq.2 hdue
  refine ⟨(pre.filter fun r => r.due == k.ex.slot + 1).foldl (fun k r => k.apply r.w)
    { k with ex := { k.ex with slot := k.ex.slot + 1, pend := k.ex.pend.filter fun r => r.due != k.ex.slot + 1 } }, ?_⟩
  rw [Core.nextSlot, Core.landAt]
  dsimp only
  rw [hnow, List.foldl_append, List.foldl_cons]
  refine obs_foldl_of_misses hplace (fun r hr => ?_) (fun r hr => ?_) _
  · exact hok r (List.mem_of_mem_filter hr)
  · obtain ⟨hmem, hdue⟩ := List.mem_filter.1 hr
    exact hmiss r hmem (beq_iff_eq.1 hdue)

end

section
variable {k : Core} (hdue : ∀ r ∈ k.ex.pend, k.ex.slot < r.due)
include hdue

/-- After some slots the results due later are still in flight, in issue order. -/
theorem iterate_nextSlot_frame (j : Nat) : (Core.nextSlot^[j] k).ex.slot = k.ex.slot + j ∧
    (Core.nextSlot^[j] k).ex.pend = k.ex.pend.filter fun r => decide (k.ex.slot + j < r.due) := by
  induction j with
  | zero =>
    refine ⟨rfl, (List.filter_eq_self.2 fun r hr => ?_).symm⟩
    exact decide_eq_true (hdue r hr)
  | succ j ih =>
    obtain ⟨hslot, hpend⟩ := ih
    rw [Function.iterate_succ_apply', nextSlot_slot, nextSlot_pend, hslot, hpend, List.filter_filter]
    refine ⟨rfl, List.filter_congr fun r _ => ?_⟩
    rw [Bool.eq_iff_iff]
    simp only [Bool.and_eq_true, bne_iff_ne, decide_eq_true_eq]
    omega

/-- What a part of the registers holds after some slots is what landed on it last (R95). -/
theorem obs_iterate_nextSlot {α : Type} {obs : Core → α} {ok hits : ExWrite → Prop} (hplace : Place obs ok hits)
    (hok : ∀ r ∈ k.ex.pend, ok r.w) (j : Nat) :
    (∀ p, LandsLast k j hits p → ∃ c : Core, obs (Core.nextSlot^[j] k) = obs (c.apply p.w)) ∧
    (LandsNone k j hits → obs (Core.nextSlot^[j] k) = obs k) := by
  induction j with
  | zero =>
    refine ⟨fun p ⟨pre, post, hpend, _, hlands, _⟩ => ?_, fun _ => rfl⟩
    have := hdue p (by simp [hpend])
    omega
  | succ j ih =>
    obtain ⟨hlast, hnone⟩ := ih
    obtain ⟨hslot, hpend⟩ := iterate_nextSlot_frame hdue j
    rw [Function.iterate_succ_apply']
    generalize Core.nextSlot^[j] k = u at *
    have hsub : ∀ r ∈ u.ex.pend, r ∈ k.ex.pend := fun r hr => List.mem_of_mem_filter (hpend ▸ hr)
    have hoku : ∀ r ∈ u.ex.pend, ok r.w := fun r hr => hok r (hsub r hr)
    refine ⟨fun p ⟨pre, post, hsplit, hhits, hlands, hpre, hpost⟩ => ?_, fun hno => ?_⟩
    · by_cases hnow : p.due = u.ex.slot + 1
      · have hsplit' : u.ex.pend = (pre.filter fun r => decide (k.ex.slot + j < r.due)) ++
            p :: post.filter fun r => decide (k.ex.slot + j < r.due) := by
          rw [hpend, hsplit]
          refine filter_append_cons ?_ _ _
          exact decide_eq_true (by omega)
        refine obs_nextSlot_of_lands hplace hsplit' hnow (fun r hr => hoku r ?_) fun r hr hd hh => ?_
        · rw [hsplit']
          exact List.mem_append_right _ (List.mem_cons_of_mem _ hr)
        · have := hpost r (List.mem_of_mem_filter hr) hh (by omega)
          omega
      · rw [obs_nextSlot_of_misses hplace hoku fun r hr hd hh => ?_]
        · exact hlast p ⟨pre, post, hsplit, hhits, by omega, fun r hr hh hle => hpre r hr hh (by omega),
            fun r hr hh hle => hpost r hr hh (by omega)⟩
        · have hr := hsub r hr
          rw [hsplit, List.mem_append, List.mem_cons] at hr
          obtain hr | rfl | hr := hr
          · have := hpre r hr hh (by omega)
            omega
          · omega
          · have := hpost r hr hh (by omega)
            omega
    · rw [obs_nextSlot_of_misses hplace hoku fun r hr hd hh => ?_]
      · exact hnone fun r hr hh => by have := hno r hr hh; omega
      · have := hno r (hsub r hr) hh
        omega

end

/-! ### The registers of EX -/

theorem place_reg (n : Fin 32) : Place (fun k => (k.seq .ex).reg n) (fun _ => True) fun w => ∃ y, w = .s n y where
  stands _ _ _ := rfl
  misses k w _ hmiss := by
    cases w with
    | s m x =>
      have hne : n ≠ m := fun h => hmiss ⟨x, by rw [h]⟩
      rw [Core.apply, Core.seq_onSeq, SeqSt.reg_setReg_ne _ _ _ _ hne]
    | k m en d => rw [Core.apply]; split <;> rfl
    | _ => rfl

theorem reg_apply {n : Fin 32} (hn : n ≠ 0) (x : Word) (k : Core) : ((k.apply (.s n x)).seq .ex).reg n = x := by
  rw [Core.apply, Core.seq_onSeq, SeqSt.reg_setReg, if_neg hn]

section
variable {N m : Nat} (regs : Vector (BitVec N) m) {n : Fin m} {en : BitVec N} (d : BitVec N) {b : Nat}

/-- A bit that a write of lanes does not reach. -/
theorem getLsbD_set_mergeBits_of_miss {n' : Fin m} (h : n' = n → en.getLsbD b = false) :
    (regs.set n (mergeBits regs[n] en d))[n'].getLsbD b = regs[n'].getLsbD b := by
  by_cases hn : n' = n
  · rw [hn, getElem_set_fin_self, getLsbD_mergeBits, h hn, if_neg Bool.false_ne_true]
  · rw [getElem_set_fin_ne regs hn]

/-- A bit that it reaches. -/
theorem getLsbD_set_mergeBits_of_hit (h : en.getLsbD b = true) :
    (regs.set n (mergeBits regs[n] en d))[n].getLsbD b = d.getLsbD b := by
  rw [getElem_set_fin_self, getLsbD_mergeBits, if_pos h]

end

theorem place_v (n : Fin 64) (b : Nat) : Place (fun k => k.ex.v[n].getLsbD b) (fun _ => True)
    fun w => ∃ en d, w = .v n en d ∧ en.getLsbD b = true where
  stands _ _ _ := rfl
  misses k w _ hmiss := by
    cases w with
    | v m en d => exact getLsbD_set_mergeBits_of_miss k.ex.v d fun h => Bool.eq_false_iff.2 fun hen => hmiss ⟨en, d, by rw [h], hen⟩
    | k m en d => rw [Core.apply]; split <;> rfl
    | _ => rfl

/-- Writes that add to an accumulator or fold into it are left out (R122, R252). -/
def Plain (n : Fin 64) (w : ExWrite) : Prop := (∀ d, w ≠ .aAdd n d) ∧ ∀ f q c d, w = .aScale f q c d → f ≠ n ∧ q ≠ n

theorem place_a (n : Fin 64) (b : Nat) : Place (fun k => k.ex.a[n].getLsbD b) (Plain n)
    fun w => ∃ en d, w = .a n en d ∧ en.getLsbD b = true where
  stands _ _ _ := rfl
  misses k w hplain hmiss := by
    obtain ⟨hadd, hscale⟩ := hplain
    cases w with
    | a m en d => exact getLsbD_set_mergeBits_of_miss k.ex.a d fun h => Bool.eq_false_iff.2 fun hen => hmiss ⟨en, d, by rw [h], hen⟩
    | aAdd m d =>
      have hm : n ≠ m := fun h => hadd d (by rw [h])
      exact congrArg (·.getLsbD b) (getElem_set_fin_ne k.ex.a hm _)
    | aScale f p c d =>
      obtain ⟨hf, hp⟩ := hscale f p c d rfl
      exact congrArg (·.getLsbD b) ((getElem_set_fin_ne _ hp.symm _).trans (getElem_set_fin_ne k.ex.a hf.symm _))
    | k m en d => rw [Core.apply]; split <;> rfl
    | _ => rfl

theorem place_k (n : Fin 8) (b : Nat) : Place (fun k => k.ex.k[n].getLsbD b) (fun _ => True)
    fun w => ∃ en d, w = .k n en d ∧ en.getLsbD b = true where
  stands _ _ _ := rfl
  misses k w _ hmiss := by
    cases w with
    | k m en d =>
      rw [Core.apply]
      split
      · rfl
      · exact getLsbD_set_mergeBits_of_miss k.ex.k d fun h => Bool.eq_false_iff.2 fun hen => hmiss ⟨en, d, by rw [h], hen⟩
    | _ => rfl

/-! ### What they hold after some slots -/

section
variable {k : Core} (hdue : ∀ r ∈ k.ex.pend, k.ex.slot < r.due) (j : Nat)
include hdue

theorem reg_iterate_nextSlot {n : Fin 32} (hn : n ≠ 0) :
    (∀ p x, LandsLast k j (fun w => ∃ y, w = .s n y) p → p.w = .s n x → ((Core.nextSlot^[j] k).seq .ex).reg n = x) ∧
      (LandsNone k j (fun w => ∃ y, w = .s n y) → ((Core.nextSlot^[j] k).seq .ex).reg n = (k.seq .ex).reg n) := by
  obtain ⟨hlast, hnone⟩ := obs_iterate_nextSlot hdue (place_reg n) (fun _ _ => trivial) j
  refine ⟨fun p x hp hw => ?_, hnone⟩
  obtain ⟨c, hc⟩ := hlast p hp
  rw [hc, hw, reg_apply hn]

theorem v_iterate_nextSlot (n : Fin 64) (b : Nat) :
    (∀ p en d, LandsLast k j (fun w => ∃ en d, w = .v n en d ∧ en.getLsbD b = true) p → p.w = .v n en d →
        (Core.nextSlot^[j] k).ex.v[n].getLsbD b = d.getLsbD b) ∧
      (LandsNone k j (fun w => ∃ en d, w = .v n en d ∧ en.getLsbD b = true) →
        (Core.nextSlot^[j] k).ex.v[n].getLsbD b = k.ex.v[n].getLsbD b) := by
  obtain ⟨hlast, hnone⟩ := obs_iterate_nextSlot hdue (place_v n b) (fun _ _ => trivial) j
  refine ⟨fun p en d hp hw => ?_, hnone⟩
  obtain ⟨c, hc⟩ := hlast p hp
  obtain ⟨-, -, -, ⟨en', d', hw', hen⟩, -⟩ := hp
  obtain ⟨-, rfl, rfl⟩ := ExWrite.v.inj (hw.symm.trans hw')
  rw [hw] at hc
  exact hc.trans (getLsbD_set_mergeBits_of_hit c.ex.v d hen)

theorem a_iterate_nextSlot (n : Fin 64) (b : Nat) (hplain : ∀ r ∈ k.ex.pend, Plain n r.w) :
    (∀ p en d, LandsLast k j (fun w => ∃ en d, w = .a n en d ∧ en.getLsbD b = true) p → p.w = .a n en d →
        (Core.nextSlot^[j] k).ex.a[n].getLsbD b = d.getLsbD b) ∧
      (LandsNone k j (fun w => ∃ en d, w = .a n en d ∧ en.getLsbD b = true) →
        (Core.nextSlot^[j] k).ex.a[n].getLsbD b = k.ex.a[n].getLsbD b) := by
  obtain ⟨hlast, hnone⟩ := obs_iterate_nextSlot hdue (place_a n b) hplain j
  refine ⟨fun p en d hp hw => ?_, hnone⟩
  obtain ⟨c, hc⟩ := hlast p hp
  obtain ⟨-, -, -, ⟨en', d', hw', hen⟩, -⟩ := hp
  obtain ⟨-, rfl, rfl⟩ := ExWrite.a.inj (hw.symm.trans hw')
  rw [hw] at hc
  exact hc.trans (getLsbD_set_mergeBits_of_hit c.ex.a d hen)

theorem k_iterate_nextSlot {n : Fin 8} (hn : n ≠ 0) (b : Nat) :
    (∀ p en d, LandsLast k j (fun w => ∃ en d, w = .k n en d ∧ en.getLsbD b = true) p → p.w = .k n en d →
        (Core.nextSlot^[j] k).ex.k[n].getLsbD b = d.getLsbD b) ∧
      (LandsNone k j (fun w => ∃ en d, w = .k n en d ∧ en.getLsbD b = true) →
        (Core.nextSlot^[j] k).ex.k[n].getLsbD b = k.ex.k[n].getLsbD b) := by
  obtain ⟨hlast, hnone⟩ := obs_iterate_nextSlot hdue (place_k n b) (fun _ _ => trivial) j
  refine ⟨fun p en d hp hw => ?_, hnone⟩
  obtain ⟨c, hc⟩ := hlast p hp
  obtain ⟨-, -, -, ⟨en', d', hw', hen⟩, -⟩ := hp
  obtain ⟨-, rfl, rfl⟩ := ExWrite.k.inj (hw.symm.trans hw')
  rw [hw, Core.apply, if_neg hn] at hc
  exact hc.trans (getLsbD_set_mergeBits_of_hit c.ex.k d hen)

end

/-- One scalar result of latency L shows from L slots on, and not before. -/
theorem reg_iterate_nextSlot_later (k : Core) {n : Fin 32} (hn : n ≠ 0) (x : Word) {lat : Nat} (hlat : 1 ≤ lat) (hnil : k.ex.pend = [])
    (j : Nat) : ((Core.nextSlot^[j] (k.later lat (.s n x))).seq .ex).reg n = if lat ≤ j then x else (k.seq .ex).reg n := by
  have hpend : (k.later lat (.s n x)).ex.pend = [⟨k.ex.slot + lat, .s n x⟩] := by rw [Core.later, hnil]; rfl
  have hslot : (k.later lat (.s n x)).ex.slot = k.ex.slot := rfl
  have hdue : ∀ r ∈ (k.later lat (.s n x)).ex.pend, (k.later lat (.s n x)).ex.slot < r.due := by
    simp only [hpend, hslot, List.mem_singleton, forall_eq]
    omega
  obtain ⟨hlast, hnone⟩ := reg_iterate_nextSlot hdue j hn
  split_ifs with hj
  · exact hlast ⟨_, _⟩ x ⟨[], [], hpend, ⟨x, rfl⟩, Nat.add_le_add_left hj _, List.forall_mem_nil _,
      List.forall_mem_nil _⟩ rfl
  · refine hnone ?_
    simp only [LandsNone, hpend, hslot, List.mem_singleton, forall_eq]
    omega

theorem slot_issue {s : State} (hq : s.cur.2 = .ex) : s.issue.here.ex.slot = s.here.ex.slot + 1 := by
  obtain ⟨_, _, ht⟩ := ticked_frame s.here s.curYp s.clk
  rw [here_issue_ex hq, nextSlot_slot, ht]

/-- Settles O9: slot by slot, what a register holds is what landed on it last. -/
theorem exposedPipeline : Obligations.ExposedPipeline := by
  unfold Obligations.ExposedPipeline
  refine ⟨fun k n x lat j hn hlat hnil => reg_iterate_nextSlot_later k hn x hlat hnil j, fun _ _ _ => rfl,
    fun s n x lat hq => here_writeS_ex hq n x lat, fun s hq => slot_issue hq, fun s w => ?_, fun k u j hdue hu => ?_⟩
  · rw [State.block, State.here_modMe, Core.onSeq_ex]
  · subst hu
    exact ⟨fun n hn => reg_iterate_nextSlot hdue j hn, fun n b => v_iterate_nextSlot hdue j n b,
      fun n b hplain => a_iterate_nextSlot hdue j n b hplain, fun n b hn => k_iterate_nextSlot hdue j hn b⟩

end Sys2Proof.Laws
end

section
/-! SUPPORT. An instruction on lanes that is a row of a table completes with what the row writes (R76, R95, R119, R121). -/

namespace Sys2Proof.Laws

open Sys2Proof.Machine

/-! ## A row of a table completes -/

/-- What an instruction writes, with nothing in the lanes that it does not change. -/
def masked (o : LaneOut) : LaneOut := { o with data := fun l => if o.en l then o.data l else 0 }

theorem lanesWritten_masked {o : LaneOut} {old new : Nat} (h : LanesWritten o.w o.n o.en (masked o).data old new) :
    LanesWritten o.w o.n o.en o.data old new := by
  intro l hl
  rw [h l hl]
  simp only [masked]
  split <;> rfl

/-- A lane that is not changed may have anything in its place. -/
theorem laneDone_of_masked {s u : State} {k : Core} {d : VDst} {lat : Nat} {o : LaneOut} (h : LaneDone s u k d lat (masked o)) :
    LaneDone s u k d lat o := by
  obtain ⟨hframe, hnone, hpass, hsplret, htsa, hdst⟩ := h
  refine ⟨hframe, hnone, hpass, hsplret, htsa, ?_⟩
  cases d with
  | v m =>
    obtain ⟨hcore, hpushes, hlands, hreg⟩ := hdst
    exact ⟨hcore, hpushes, hlands, fun hnil => (hreg hnil).imp_left lanesWritten_masked⟩
  | a m =>
    obtain ⟨hcore, hpushes, hlands, hreg⟩ := hdst
    exact ⟨hcore, hpushes, hlands, fun hnil => (hreg hnil).imp_left lanesWritten_masked⟩
  | q m => exact hdst

section
variable {i : Instr} {op : LaneOp} {s : State} {vs : List VVal} {k : Core} {wide : Bool} {out : List VVal → LaneOut}
  (hexec : exec i s = .next (vecOp op.srcs op.tag (dstQ op.dst)
    (fun k vs => (k.wideHold wide s.clk).writeV s.clk op.dst op.lat (out vs)) s))
  (hq : s.cur.2 = .ex) (hread : s.here.readAll op.srcs = some (vs, k)) (htags : tagsOk op.tag vs = true)
  (hroom : s.here.dstRoom op.dst = true) (hlat : 1 ≤ op.lat)
include hexec hq hread htags hroom hlat

theorem runs_laneOp_out (hfit : Fits op.dst (out vs)) : Runs i s fun u => LaneDone s u k op.dst op.lat (out vs) := by
  rw [vecOp_issues hread (room_of_dstRoom hroom) htags] at hexec
  exact ⟨_, hexec, laneDone_writeV hq (readAll_queues hread) wide hlat op.dst hfit⟩

/-- An instruction that runs as a row of a table, with the lanes that the row writes. -/
theorem runs_laneOp (hout : out vs = op.out s.here vs) (hfit : Fits op.dst (op.out s.here vs)) :
    Runs i s fun u => LaneDone s u k op.dst op.lat (op.out s.here vs) := by
  rw [← hout] at hfit ⊢
  exact runs_laneOp_out hexec hq hread htags hroom hlat hfit

/-- One that has zeros in the lanes that it does not change. -/
theorem runs_laneOp_masked (hout : out vs = masked (op.out s.here vs)) (hfit : Fits op.dst (op.out s.here vs)) :
    Runs i s fun u => LaneDone s u k op.dst op.lat (op.out s.here vs) := by
  obtain ⟨u, hu, hdone⟩ := runs_laneOp_out hexec hq hread htags hroom hlat (hout ▸ hfit : Fits op.dst (out vs))
  rw [hout] at hdone
  exact ⟨u, hu, laneDone_of_masked hdone⟩

end

/-! ## Forms lane by lane (R76) -/

section
variable {i : Instr} {s : State} {vs : List VVal} {k : Core} (hq : s.cur.2 = .ex) {lat : Nat} (hlat : 1 ≤ lat) {bits : Bool}
include hq hlat

/-- A form of one source whose results agree on what lanes hold. -/
theorem runs_form1 {o : V1} {slow : Bool} {f g : Nat → Nat} (hexec : exec i s = .next (lane1 o lat bits f s slow))
    (hok : o.wideOk = true) (hread : s.here.readAll [o.a] = some (vs, k)) (htags : tagsOk (form1 o lat bits g).tag vs = true)
    (hroom : s.here.dstRoom o.dst = true) (hfg : ∀ (v : VVal) l, f (v.lane o.ty l) = g (v.lane o.ty l)) :
    Runs i s fun u => LaneDone s u k o.dst (form1 o lat bits g).lat ((form1 o lat bits g).out s.here vs) := by
  obtain ⟨x, rfl⟩ : ∃ x, vs = [x] := List.length_eq_one_iff.1 (length_readAll hread)
  refine runs_laneOp (op := form1 o lat bits g) hexec hq hread htags hroom (one_le_viewLat _ hlat) ?_
    (fits_view List.mem_cons_self hok _ _ _ _)
  rw [funext fun l => hfg (nth [x] 0) l]
  rfl

/-- A form of two sources. -/
theorem runs_form2 {o : V2} {f g : Nat → Nat → Nat} (hexec : exec i s = .next (lane2 o lat bits f s)) (hok : o.wideOk = true)
    (hread : s.here.readAll [o.a, o.b] = some (vs, k)) (htags : tagsOk (form2 o lat bits g).tag vs = true)
    (hroom : s.here.dstRoom o.dst = true) (hfg : f = g) :
    Runs i s fun u => LaneDone s u k o.dst (form2 o lat bits g).lat ((form2 o lat bits g).out s.here vs) := by
  subst hfg
  obtain ⟨x, y, rfl⟩ : ∃ x y, vs = [x, y] := List.length_eq_two.1 (length_readAll hread)
  exact runs_laneOp (op := form2 o lat bits f) (wide := false) hexec hq hread htags hroom (one_le_viewLat _ hlat) rfl
    (fits_view List.mem_cons_self hok _ _ _ _)

/-- A form of three sources. -/
theorem runs_form3 {o : V3} {f g : Nat → Nat → Nat → Nat} (hexec : exec i s = .next (lane3 o lat f s)) (hok : o.wideOk = true)
    (hread : s.here.readAll [o.a, o.b, o.c] = some (vs, k)) (htags : tagsOk (form3 o lat g).tag vs = true)
    (hroom : s.here.dstRoom o.dst = true) (hfg : f = g) :
    Runs i s fun u => LaneDone s u k o.dst (form3 o lat g).lat ((form3 o lat g).out s.here vs) := by
  subst hfg
  obtain ⟨x, y, z, rfl⟩ : ∃ x y z, vs = [x, y, z] := List.length_eq_three.1 (length_readAll hread)
  exact runs_laneOp (op := form3 o lat f) (wide := false) hexec hq hread htags hroom (one_le_viewLat _ hlat) rfl
    (fits_view List.mem_cons_self hok _ _ _ _)

end

/-! ## Float lanes (R125, R126, R140, R141) -/

/-- A finite value rounded with saturation is a code of its format. -/
theorem roundF_fin_lt (f : Flt) (rz : Bool) (u : SrcUnit) (sg : Bool) (m : Nat) (e : Int) :
    roundF f rz true u (.fin sg m e) < 2 ^ f.width := by
  have hwidth : 2 ^ f.width = 2 ^ (f.width - 1) + 2 ^ (f.width - 1) := by
    rw [← Nat.two_mul, ← Nat.pow_succ']
    exact congrArg (2 ^ ·) (by rw [Flt.width]; omega)
  have hmax : f.maxFin < 2 ^ (f.width - 1) := by cases f <;> decide
  simp only [roundF, overflowCode, Bool.true_or, if_true]
  split_ifs <;> omega

theorem ltyFlt_of_isArith {t : LTy} (h : t.isArith = true) : ltyFlt t = some (fmtOf t) ∧ (fmtOf t).width = t.width := by
  cases t
  case fp16 | bf16 | fp32 => exact ⟨rfl, rfl⟩
  all_goals cases h

/-- A lane of a type of float arithmetic holds a code of that type. -/
theorem lane_lt_of_isArith {t : LTy} (h : t.isArith = true) (v : VVal) (l : Nat) : v.lane t l < 2 ^ t.width := by
  cases v with
  | bits b tag => exact laneOf_lt _ _ _
  | word x => exact Nat.mod_lt _ (Nat.two_pow_pos _)
  | lit i =>
    obtain ⟨hflt, hwidth⟩ := ltyFlt_of_isArith h
    rw [VVal.lane, litCode, hflt, ← hwidth]
    exact roundF_fin_lt _ _ _ _ _ _

theorem xor_two_pow_of_lt {w a : Nat} (ha : a < 2 ^ w) : a ^^^ 2 ^ w = 2 ^ w + a := by
  refine Nat.eq_of_testBit_eq fun j => ?_
  rw [← Nat.mul_one (2 ^ w), Nat.testBit_two_pow_mul_add _ ha, Nat.mul_one, Nat.testBit_xor, Nat.testBit_two_pow]
  split
  next hj => rw [decide_eq_false (by omega), Bool.xor_false]
  next hj =>
    rw [Nat.testBit_lt_two_pow (ha.trans_le (Nat.pow_le_pow_right Nat.two_pos (by omega))), Bool.false_xor,
      Bool.eq_iff_iff, decide_eq_true_iff, Nat.testBit_one_eq_true_iff_self_eq_zero]
    omega

/-- The greatest bit of a code changed. -/
theorem xor_top_bit {w a : Nat} (ha : a < 2 ^ (w + 1)) : a ^^^ 2 ^ w = if a < 2 ^ w then a + 2 ^ w else a - 2 ^ w := by
  split_ifs with hlow
  · rw [xor_two_pow_of_lt hlow, Nat.add_comm]
  · obtain ⟨b, rfl⟩ := Nat.exists_eq_add_of_le (not_lt.1 hlow)
    have hb : b < 2 ^ w := by omega
    rw [← xor_two_pow_of_lt hb, Nat.xor_assoc, Nat.xor_self, Nat.xor_zero, xor_two_pow_of_lt hb, Nat.add_sub_cancel_left]

theorem width_succ (t : LTy) : t.width = t.width - 1 + 1 := by cases t <;> rfl

theorem quietCode_of_isArith {t : LTy} (h : t.isArith = true) (x : Nat) : quietCode t x = quieted t x :=
  quietCode_eq_quieted (by simp [h]) x

/-- Settles O22: each instruction is the lane form of its table row, and the sign bit is the greatest of a code. -/
theorem laneFloats : Obligations.LaneFloats := by
  unfold Obligations.LaneFloats
  intro i op s vs k hi hq hwf hread htags hroom
  have hfields : i.fieldsOk = true := (Bool.and_eq_true_iff.1 hwf).1
  unfold Machine.laneFloats at hi
  split at hi <;> simp only [Option.some.injEq, reduceCtorEq] at hi <;> subst hi
  case h_1 sat rz o | h_2 sat rz o | h_3 sat rz o | h_4 o | h_5 o =>
    obtain ⟨-, hok⟩ := Bool.and_eq_true_iff.1 hfields
    exact runs_form2 hq (by decide) rfl hok hread htags hroom rfl
  case h_6 o =>
    obtain ⟨hty, hok⟩ := Bool.and_eq_true_iff.1 hfields
    exact runs_form1 hq le_rfl rfl hok hread htags hroom fun v l => quietCode_of_isArith hty _
  case h_7 o =>
    obtain ⟨hty, hok⟩ := Bool.and_eq_true_iff.1 hfields
    refine runs_form1 hq le_rfl rfl hok hread htags hroom fun v l => ?_
    have hlt := lane_lt_of_isArith hty v l
    rw [width_succ] at hlt
    rw [quietCode_of_isArith hty, xor_top_bit hlt]
  case h_8 sat rz o | h_9 sat rz o | h_10 sat rz o =>
    obtain ⟨-, hok⟩ := Bool.and_eq_true_iff.1 hfields
    exact runs_form3 hq (by decide) rfl hok hread htags hroom rfl
  case h_11 o | h_12 o | h_13 o | h_14 o =>
    obtain ⟨-, hok⟩ := Bool.and_eq_true_iff.1 hfields
    exact runs_form1 hq (by decide) rfl hok hread htags hroom fun _ _ => rfl
  case h_15 o => exact runs_form1 hq (by decide) rfl hfields hread htags hroom fun _ _ => rfl

end Sys2Proof.Laws
end

section
/-! SUPPORT. Moves, permutes, accumulator forms, conversions and blocks on lanes (R129-R137, R143-R145). -/

namespace Sys2Proof.Laws

open Sys2Proof.Machine

/-! ## Moves and permutes (R129-R131) -/

/-- The lanes of a register of 256 bytes fit in every register. -/
theorem fits_lanes {d : VDst} {o : LaneOut} (h : o.w * o.n = 2048) : Fits d o := by
  cases d with
  | v n => exact h.le
  | a n => exact h.le.trans (by decide)
  | q n => exact h.le

/-- Settles O23: each instruction is the form of its table row on the lanes of its sources. -/
theorem laneMoves : Obligations.LaneMoves := by
  unfold Obligations.LaneMoves
  intro i op s vs k hi hq hwf hread htags hroom
  have hfields : i.fieldsOk = true := (Bool.and_eq_true_iff.1 hwf).1
  unfold Machine.laneMoves at hi
  split at hi <;> simp only [Option.some.injEq, reduceCtorEq] at hi <;> subst hi
  case h_1 o => exact runs_form1 hq le_rfl rfl hfields hread htags hroom fun _ _ => rfl
  case h_2 o m =>
    obtain ⟨x, y, rfl⟩ : ∃ x y, vs = [x, y] := List.length_eq_two.1 (length_readAll hread)
    exact runs_laneOp (wide := false) rfl hq hread htags hroom (one_le_viewLat _ le_rfl) rfl
      (fits_view List.mem_cons_self hfields _ _ _ _)
  case h_3 d t mask mz a j =>
    obtain ⟨x, rfl⟩ : ∃ x, vs = [x] := List.length_eq_one_iff.1 (length_readAll hread)
    simp only [Instr.fieldsOk, Bool.and_eq_true] at hfields
    obtain ⟨⟨-, hok⟩, -⟩ := hfields
    exact runs_laneOp (wide := false) rfl hq hread htags hroom (one_le_viewLat _ le_rfl) rfl (fits_view List.mem_cons_self hok _ _ _ _)
  case h_4 d t mask mz b step =>
    obtain ⟨x, rfl⟩ : ∃ x, vs = [x] := List.length_eq_one_iff.1 (length_readAll hread)
    obtain ⟨-, hok⟩ := Bool.and_eq_true_iff.1 hfields
    exact runs_laneOp (wide := false) rfl hq hread htags hroom (one_le_viewLat _ le_rfl) rfl (fits_view List.mem_cons_self hok _ _ _ _)
  case h_5 o =>
    obtain ⟨x, y, rfl⟩ : ∃ x y, vs = [x, y] := List.length_eq_two.1 (length_readAll hread)
    exact runs_laneOp (wide := false) rfl hq hread htags hroom (Nat.succ_pos _) rfl (fits_lanes (width_mul_lanes _))
  case h_6 o n =>
    obtain ⟨x, rfl⟩ : ∃ x, vs = [x] := List.length_eq_one_iff.1 (length_readAll hread)
    exact runs_laneOp (wide := false) rfl hq hread htags hroom (Nat.succ_pos _) rfl (fits_lanes (width_mul_lanes _))
  case h_7 d mask mz a b n =>
    obtain ⟨x, y, rfl⟩ : ∃ x y, vs = [x, y] := List.length_eq_two.1 (length_readAll hread)
    exact runs_laneOp (wide := false) rfl hq hread htags hroom (Nat.succ_pos _) rfl (fits_lanes (width_mul_lanes .n8))

/-! ## Accumulators (R143-R145) -/

/-- ACLR has no source, and completes as an instruction on lanes that reads none. -/
theorem laneDone_aclr {s : State} (hq : s.cur.2 = .ex) (m : Fin 8) (d : Fin 64) :
    Runs (.aclr m d) s fun u => LaneDone s u s.here (.a d) 1
      (writeLanes 32 256 (s.here.mask m).getLsbD false (fun _ => 0) (fun _ => 0) 0) := by
  refine ⟨_, rfl, ?_⟩
  rw [← mod_here]
  exact laneDone_writeV hq rfl false le_rfl (.a d) (show 32 * 256 ≤ 8192 from le_rfl)

/-- Settles O24: the lanes of an accumulator, all of them, a quarter from a register or a quarter to one. -/
theorem accumulators : Obligations.Accumulators := by
  unfold Obligations.Accumulators
  intro i op s vs k hi hq hwf hread htags hroom
  unfold laneAccs at hi
  split at hi <;> simp only [Option.some.injEq, reduceCtorEq] at hi <;> subst hi
  case h_1 o p =>
    obtain ⟨x, rfl⟩ : ∃ x, vs = [x] := List.length_eq_one_iff.1 (length_readAll hread)
    obtain ⟨d, t, mask, mz, a⟩ := o
    cases d with
    | v n => exact runs_laneOp (wide := false) rfl hq hread htags hroom (Nat.succ_pos _) rfl (fits_lanes (show 32 * 64 = 2048 from rfl))
    | q n => exact runs_laneOp (wide := false) rfl hq hread htags hroom (Nat.succ_pos _) rfl (fits_lanes (show 32 * 64 = 2048 from rfl))
    | a n =>
      cases a with
      | a m => exact runs_laneOp (wide := false) rfl hq hread htags hroom (Nat.succ_pos _) rfl (show 32 * 256 ≤ 8192 from le_rfl)
      | _ => exact runs_laneOp (wide := false) rfl hq hread htags hroom (Nat.succ_pos _) rfl (show 32 * 256 ≤ 8192 from le_rfl)
  case h_2 m d =>
    cases hread
    exact laneDone_aclr hq m d
  case h_3 d t mask mz a ctl =>
    obtain ⟨x, rfl⟩ : ∃ x, vs = [x] := List.length_eq_one_iff.1 (length_readAll hread)
    exact runs_laneOp (wide := false) rfl hq hread htags hroom (Nat.succ_pos _) rfl (fits_lanes (width_mul_lanes _))

/-! ## Conversions and blocks (R132-R137) -/

theorem fits_bytes {d : VDst} {n : Nat} {byte : Nat → Nat} : Fits d (bytesOut n byte) :=
  fits_lanes (show 8 * 256 = 2048 from rfl)

/-- A lane of a queue entry outside the part is 0 (log 26). -/
theorem part_qdata (j : Option Nat) (active mz : Bool) (res : Nat → Nat) (s1 : Nat) :
    (if j.isSome then (if active then (match j with | some j => res j | none => 0) else if mz then 0 else s1) else 0) =
      match j with
      | some j => if active then res j else if mz then 0 else s1
      | none => 0 := by
  cases j <;> rfl

theorem masked_bytesOut (n : Nat) (byte : Nat → Nat) : masked (bytesOut n byte) =
    { w := 8, n := 256, en := fun b => decide (b < n), data := fun b => if b < n then byte b else 0,
      qdata := fun b => if b < n then byte b else 0, tag := 0 } := by
  simp only [masked, bytesOut, decide_eq_true_eq]

/-- Settles O25: parts, scale bytes and packed elements are those of the table, and zeros stand in the lanes not written. -/
theorem laneConversions : Obligations.LaneConversions := by
  unfold Obligations.LaneConversions
  intro i op s vs k hi hq hwf hread htags hroom
  unfold laneBlocks at hi
  split at hi <;> simp only [Option.some.injEq, reduceCtorEq] at hi <;> subst hi
  case h_1 sat rz sty o p =>
    obtain ⟨x, rfl⟩ : ∃ x, vs = [x] := List.length_eq_one_iff.1 (length_readAll hread)
    refine runs_laneOp (wide := false) rfl hq hread htags hroom (Nat.succ_pos _) ?_ (fits_lanes (width_mul_lanes o.ty))
    exact congrArg (LaneOut.mk _ _ _ _ · _) (funext fun l => part_qdata (cvtFrom sty o.ty p.toNat l)
      ((s.here.mask o.mask).getLsbD l) o.mz (fun j => cvtCode sty o.ty sat rz (x.lane sty j)) (x.lane o.ty l))
  case h_2 lay t mask d a =>
    obtain ⟨x, rfl⟩ : ∃ x, vs = [x] := List.length_eq_one_iff.1 (length_readAll hread)
    exact runs_laneOp_masked (wide := false) rfl hq hread htags hroom (Nat.succ_pos _) (masked_bytesOut _ _).symm fits_bytes
  case h_3 o =>
    obtain ⟨x, ws, rfl⟩ : ∃ x ws, vs = x :: ws := List.exists_cons_of_length_eq_add_one (length_readAll hread)
    obtain ⟨el, t, blk, d, mask, a, scale⟩ := o
    cases el
    all_goals
      exact runs_laneOp_masked (wide := false) rfl hq hread htags hroom (Nat.succ_pos _) (masked_bytesOut _ _).symm fits_bytes
  case h_4 o =>
    obtain ⟨x, ws, rfl⟩ : ∃ x ws, vs = x :: ws := List.exists_cons_of_length_eq_add_one (length_readAll hread)
    refine runs_laneOp (wide := false) rfl hq hread htags hroom (Nat.succ_pos _) ?_ (fits_lanes (width_mul_lanes o.ty))
    obtain ⟨el, t, blk, d, mask, a, scale⟩ := o
    cases el <;> rfl

end Sys2Proof.Laws
end

section
/-! SUPPORT. Results in mask registers (R116, R127, R128), and a result of EX that goes to a queue or a bq (R119). -/

namespace Sys2Proof.Laws

open Sys2Proof.Machine

/-! ## Results in mask registers (R116) -/

theorem mask_eq_of_k {b c : Core} (h : b.ex.k = c.ex.k) (m : Fin 8) : b.mask m = c.mask m := by
  rw [Core.mask, Core.mask, h]

theorem mask_apply_k_ne (b : Core) {d m : Fin 8} (hm : m ≠ d) (en x : Mask) : (b.apply (.k d en x)).mask m = b.mask m := by
  rw [Core.apply]
  split
  · rfl
  · simp only [Core.mask, getElem_set_fin_ne b.ex.k hm]

theorem mask_zero (b : Core) : b.mask 0 = BitVec.allOnes 256 := rfl

theorem mask_apply_k (b : Core) {d : Fin 8} (hd : d ≠ 0) (en x : Mask) (l : Nat) :
    ((b.apply (.k d en x)).mask d).getLsbD l = if en.getLsbD l then x.getLsbD l else (b.mask d).getLsbD l := by
  rw [Core.apply, if_neg hd]
  simp only [Core.mask, if_neg hd, getElem_set_fin_self, getLsbD_mergeBits]

/-- A mask result (R95): of the bits of its mask, `bit` names the new ones. -/
theorem maskDone_of_resultDone {s u : State} (hq : s.cur.2 = .ex) {k : Core} {lat : Nat} {d : Fin 8} {en x : Mask}
    {bit : Nat → Option Bool} (h : ResultDone s u k lat (.k d en x)) (hcur : u.cur.2 = .ex)
    (hbit : ∀ l, l < 256 → bit l = if en.getLsbD l then some (x.getLsbD l) else none) : MaskDone s u k d lat bit := by
  have hseqs : ∀ b : Core, (b.apply (.k d en x)).seqs = b.seqs := by
    intro b
    rw [Core.apply]
    split <;> rfl
  refine ⟨h.frame, writesNone_of_settle hq hcur hseqs h.settles, h.passes, h.lands, h.core, h.pushes, h.splret, h.tsa, fun hnil => ?_⟩
  obtain ⟨b, hb, hs⟩ := h.settles hnil
  rw [hs]
  refine ⟨?_, ?_, fun m hm => ?_, fun l hl => ?_⟩
  · rw [Core.apply]
    split <;> exact hb.v
  · rw [Core.apply]
    split <;> exact hb.a
  · rw [mask_apply_k_ne b hm, mask_eq_of_k hb.k]
  · by_cases hd : d = 0
    · rw [if_pos hd, hd, mask_zero, BitVec.getLsbD_allOnes, decide_eq_true hl]
    · rw [if_neg hd, mask_apply_k b hd, mask_eq_of_k hb.k, hbit l hl]
      split <;> rfl

/-- The mask logic (R128). -/
theorem maskDone_maskOp {s : State} (hq : s.cur.2 = .ex) (d : Fin 8) {x : Mask} {bit : Nat → Bool}
    (hbit : ∀ l, l < 256 → x.getLsbD l = bit l) : MaskDone s (maskOp d x s) s.here d 1 fun l => some (bit l) := by
  have hdone := resultDone_later hq (k := s.here) rfl false le_rfl (.k d (BitVec.allOnes 256) x)
  rw [maskOp, ← mod_here]
  refine maskDone_of_resultDone hq hdone hq fun l hl => ?_
  rw [hbit l hl, BitVec.getLsbD_allOnes, decide_eq_true hl, if_pos rfl]

theorem runs_maskLogic {i : Instr} {s : State} {d : Fin 8} {bit : Nat → Bool} (h : maskLogic i s.here = some (d, bit))
    (hq : s.cur.2 = .ex) : Runs i s fun u => MaskDone s u s.here d 1 fun l => some (bit l) := by
  unfold maskLogic at h
  split at h <;> simp only [Option.some.injEq, Prod.mk.injEq, reduceCtorEq] at h <;> obtain ⟨rfl, rfl⟩ := h <;>
    refine ⟨_, rfl, maskDone_maskOp hq _ fun l hl => ?_⟩
  case h_1 => exact BitVec.getLsbD_and
  case h_2 => exact BitVec.getLsbD_or
  case h_3 => exact BitVec.getLsbD_xor
  case h_4 => simp [hl]
  case h_5 => rfl

/-! ## The order of float values (R127, R139) -/

/-- The number that a finite value is. -/
def finVal (s : Bool) (m : Nat) (e : Int) : ℚ := (if s then -(m : ℚ) else m) * 2 ^ e

/-- A significand at a lower exponent stands for the same number. -/
theorem sigAt_mul_zpow (s : Bool) (m : Nat) {e k : Int} (h : k ≤ e) : (sigAt s m e k : ℚ) * 2 ^ k = finVal s m e := by
  have hshift : ((m <<< (e - k).toNat : Nat) : ℚ) * 2 ^ k = m * 2 ^ e := by
    have hexp : (((e - k).toNat : Nat) : Int) + k = e := by omega
    rw [Nat.shiftLeft_eq, Nat.cast_mul, Nat.cast_pow, Nat.cast_ofNat, mul_assoc, ← zpow_natCast, ← zpow_add₀ two_ne_zero, hexp]
  unfold sigAt finVal
  cases s
  · simpa only [Bool.false_eq_true, if_false, Int.cast_natCast] using hshift
  · simpa only [if_true, Int.cast_neg, Int.cast_natCast, neg_mul, neg_inj] using hshift

theorem sigAt_lt_sigAt (s s' : Bool) (m m' : Nat) {e e' k : Int} (h : k ≤ e) (h' : k ≤ e') :
    sigAt s m e k < sigAt s' m' e' k ↔ finVal s m e < finVal s' m' e' := by
  rw [← sigAt_mul_zpow s m h, ← sigAt_mul_zpow s' m' h', mul_lt_mul_iff_of_pos_right (by positivity), Int.cast_lt]

/-- Finite values compare as the numbers that they are. -/
theorem cmpF_fin (s s' : Bool) (m m' : Nat) (e e' : Int) :
    (cmpF (.fin s m e) (.fin s' m' e') = .lt ↔ finVal s m e < finVal s' m' e') ∧
    (cmpF (.fin s m e) (.fin s' m' e') = .gt ↔ finVal s' m' e' < finVal s m e) := by
  have hk : (if e ≤ e' then e else e') ≤ e := by split <;> omega
  have hk' : (if e ≤ e' then e else e') ≤ e' := by split <;> omega
  simp only [cmpF, Int.compare_eq_lt, Int.compare_eq_gt, sigAt_lt_sigAt _ _ _ _ hk hk', sigAt_lt_sigAt _ _ _ _ hk' hk, and_self]

/-- Floats in ascending order as VMAXI sees them: −∞, the numbers, −0 before +0, +∞, the NaNs (R139). -/
def floatRank (x : FV) : ℕ ×ₗ ℚ ×ₗ ℕ :=
  match x with
  | .nan _ => toLex (3, toLex (0, 0))
  | .inf s => toLex (if s then 0 else 2, toLex (0, 0))
  | .fin s m e => toLex (1, toLex (finVal s m e, if s then 0 else 1))

/-! ## Compares (R127) -/

/-- Ones above the low n bits, beside a number of n bits. -/
theorem getLsbD_ones_above {n x l : Nat} (hn : n ≤ 256) (hx : x < 2 ^ n) (hl : l < 256) :
    (BitVec.ofNat 256 (2 ^ 256 - 2 ^ n + x)).getLsbD l = if l < n then x.testBit l else true := by
  have hsum : 2 ^ 256 - 2 ^ n + x = 2 ^ n * (2 ^ (256 - n) - 1) + x := by
    rw [Nat.mul_sub, ← Nat.pow_add, Nat.add_sub_cancel' hn, Nat.mul_one]
  rw [BitVec.getLsbD_ofNat, hsum, Nat.testBit_two_pow_mul_add _ hx, decide_eq_true hl, Bool.true_and]
  split
  · rfl
  · rw [Nat.testBit_two_pow_sub_one]
    exact decide_eq_true (by omega)

theorem testBit_pack_one {n l : Nat} (hl : l < n) (f : Nat → Bool) :
    (pack 1 (fun l => if f l then 1 else 0) n).testBit l = f l := by
  have h := testBit_pack (f := fun l => if f l then 1 else 0) hl Nat.one_pos
  rw [Nat.one_mul, Nat.add_zero] at h
  rw [h]
  cases f l <;> rfl

/-- What a compare writes, bit by bit. -/
theorem vcmp_bits {n : Nat} (hn : n ≤ 256) (mz : Bool) (m : Mask) (f : Nat → Bool) {l : Nat} (hl : l < 256) :
    (if n ≤ l then some false else if m.getLsbD l then some (f l) else if mz then some false else none) =
      if (BitVec.ofNat 256 (2 ^ 256 - 2 ^ n + if mz then 2 ^ n - 1 else m.toNat % 2 ^ n)).getLsbD l then
        some ((BitVec.ofNat 256 (pack 1 (fun l => if f l then 1 else 0) n &&& m.toNat % 2 ^ n)).getLsbD l) else none := by
  have hpos := Nat.two_pow_pos n
  have hact : m.toNat % 2 ^ n < 2 ^ n := Nat.mod_lt _ hpos
  have hlow : (if mz then 2 ^ n - 1 else m.toNat % 2 ^ n) < 2 ^ n := by split <;> omega
  rw [getLsbD_ones_above hn hlow hl, BitVec.getLsbD_ofNat, decide_eq_true hl, Bool.true_and, Nat.testBit_and,
    Nat.testBit_mod_two_pow, BitVec.testBit_toNat]
  by_cases hln : l < n
  · rw [if_neg (by omega), if_pos hln, testBit_pack_one hln, decide_eq_true hln, Bool.true_and]
    cases hm : m.getLsbD l <;> cases mz <;>
      simp [hln, hm, Nat.testBit_two_pow_sub_one, Nat.testBit_mod_two_pow, BitVec.testBit_toNat]
  · rw [if_pos (by omega), if_neg hln, decide_eq_false hln]
    simp

theorem viewLanes_le (wide : Bool) (t : LTy) : viewLanes wide t ≤ 256 := by
  unfold viewLanes
  cases wide <;> cases t <;> decide

/-- A comparison the other way round. -/
theorem cmpF_gt_iff (x y : FV) : cmpF x y = .gt ↔ cmpF y x = .lt := by
  cases x with
  | nan a => cases y <;> simp [cmpF]
  | inf a =>
    cases y with
    | nan b => simp [cmpF]
    | inf b => cases a <;> cases b <;> simp [cmpF]
    | fin s m e => cases a <;> simp [cmpF]
  | fin s m e =>
    cases y with
    | nan b => simp [cmpF]
    | inf b => cases b <;> simp [cmpF]
    | fin s' m' e' => rw [(cmpF_fin s s' m m' e e').2, (cmpF_fin s' s m' m e' e).1]

theorem cmpLane_gt_iff (t : LTy) (x y : Nat) : cmpLane t x y = some .gt ↔ cmpLane t y x = some .lt := by
  unfold cmpLane
  cases t.isInt with
  | true => simp only [if_true, Option.some.injEq, Int.compare_eq_gt, Int.compare_eq_lt]
  | false =>
    simp only [Bool.false_eq_true, if_false, Bool.or_comm (fval t y).isNan]
    cases (fval t x).isNan || (fval t y).isNan with
    | true => simp
    | false => simpa using cmpF_gt_iff (fval t x) (fval t y)

theorem cmpLane_beq_gt (t : LTy) (x y : Nat) : (cmpLane t x y == some .gt) = (cmpLane t y x == some .lt) := by
  rw [Bool.eq_iff_iff, beq_iff_eq, beq_iff_eq, cmpLane_gt_iff]

/-- What a compare does with a bit of its mask (R127). -/
def cmpBit (o : VCmp) (test : LTy → Nat → Nat → Bool) (k : Core) (vs : List VVal) (l : Nat) : Option Bool :=
  if viewLanes o.wide o.ty ≤ l then some false
  else if (k.mask o.mask).getLsbD l then some (test o.ty ((nth vs 0).lane o.ty l) ((nth vs 1).lane o.ty l))
  else if o.mz then some false else none

/-- A compare completes with its test's bits. -/
theorem runs_vcmp {i : Instr} {o : VCmp} {c : Option Ordering → Bool} {test : LTy → Nat → Nat → Bool} {s : State} {vs : List VVal}
    {k : Core} (hexec : exec i s = .next (vcmp o c s)) (htest : ∀ x y, test o.ty x y = c (cmpLane o.ty x y)) (hq : s.cur.2 = .ex)
    (hread : s.here.readAll [o.x, o.y] = some (vs, k)) (htags : tagsOk (some o.ty) vs = true) :
    Runs i s fun u => MaskDone s u k o.kd (viewLat o.wide 2) (cmpBit o test s.here vs) := by
  simp only [vcmp] at hexec
  rw [vecOp_issues hread (by simp) htags] at hexec
  refine ⟨_, hexec, maskDone_of_resultDone hq (resultDone_later hq (readAll_queues hread) false
    (one_le_viewLat o.wide (Nat.succ_pos _)) _) hq fun l hl => ?_⟩
  simp only [cmpBit, htest]
  exact vcmp_bits (viewLanes_le o.wide o.ty) o.mz (s.here.mask o.mask)
    (fun l => c (cmpLane o.ty ((nth vs 0).lane o.ty l) ((nth vs 1).lane o.ty l))) hl

/-- Each compare is `vcmp` with its test. -/
theorem exec_of_laneCompare {i : Instr} {o : VCmp} {test : LTy → Nat → Nat → Bool} (h : laneCompare i = some (o, test)) (s : State) :
    ∃ c, exec i s = .next (vcmp o c s) ∧ ∀ x y, test o.ty x y = c (cmpLane o.ty x y) := by
  unfold laneCompare at h
  split at h <;> simp only [Option.some.injEq, Prod.mk.injEq, reduceCtorEq] at h <;> obtain ⟨rfl, rfl⟩ := h
  case h_1 o | h_2 o | h_3 o | h_4 o => exact ⟨_, rfl, fun _ _ => rfl⟩
  case h_5 o => exact ⟨_, rfl, fun x y => (cmpLane_beq_gt o.ty x y).symm⟩
  case h_6 o => exact ⟨_, rfl, fun x y => by rw [cmpLane_beq_gt]⟩
  case h_7 o =>
    refine ⟨_, rfl, fun x y => ?_⟩
    dsimp only
    cases cmpLane o.ty x y <;> rfl

/-- KPOPC counts the ones of its mask (R128). -/
theorem runs_kpopc {s : State} (hq : s.cur.2 = .ex) (d : Fin 32) (a : Fin 8) :
    Runs (.kpopc d a) s fun u => ScalarDone s u s.here d 2
      (BitVec.ofNat 64 ((List.range 256).countP fun l => (s.here.mask a).getLsbD l)) := by
  have hcount : popCount (s.here.mask a).toNat 256 = (List.range 256).countP fun l => (s.here.mask a).getLsbD l := by
    simp only [popCount_eq, BitVec.testBit_toNat]
  refine ⟨_, rfl, ?_⟩
  rw [State.writeS, hcount]
  simp only [if_pos hq]
  rw [← mod_here]
  exact scalarDone_later hq rfl false (Nat.succ_pos 1) d _

/-- Settles O28: a compare and the mask logic write their bits, and the count of ones is a scalar result. -/
theorem masks : Obligations.Masks := by
  unfold Obligations.Masks
  refine ⟨fun i o test s vs k hi hq _ hread htags => ?_, fun i d bit s hi hq => runs_maskLogic hi hq, fun d a s hq => runs_kpopc hq d a⟩
  obtain ⟨c, hexec, htest⟩ := exec_of_laneCompare hi s
  exact runs_vcmp hexec htest hq hread htags

end Sys2Proof.Laws
end

section
/-! SUPPORT. The first greatest lane of a segment (R139), and a branch outcome pushed by EX (R119, R142). -/

namespace Sys2Proof.Laws

open Sys2Proof.Machine

/-! ## The order of VMAXI (R139) -/

/-- The place of a lane in VMAXI's order. -/
def maxiRank (t : LTy) (x : Nat) : ℕ ×ₗ ℚ ×ₗ ℕ :=
  if t.isInt then toLex (1, toLex ((ival t.width t.isSigned x : ℚ), 0)) else floatRank (fval t x)

/-- Strictly greater, as VMAXI compares two floats. -/
theorem floatRank_lt_iff (x y : FV) : floatRank y < floatRank x ↔
    (if x.isNan then !y.isNan
      else if y.isNan then false
      else match cmpF x y with
        | .gt => true
        | .lt => false
        | .eq => y.neg && !x.neg) = true := by
  cases x with
  | nan a => cases y with
    | nan b => simp [floatRank, FV.isNan]
    | inf b => cases b <;> simp [floatRank, FV.isNan, Prod.Lex.toLex_lt_toLex]
    | fin s m e => simp [floatRank, FV.isNan, Prod.Lex.toLex_lt_toLex]
  | inf a => cases y with
    | nan b => cases a <;> simp [floatRank, FV.isNan, Prod.Lex.toLex_lt_toLex]
    | inf b => cases a <;> cases b <;> simp [floatRank, FV.isNan, cmpF, FV.neg, Prod.Lex.toLex_lt_toLex]
    | fin s m e => cases a <;> simp [floatRank, FV.isNan, cmpF, Prod.Lex.toLex_lt_toLex]
  | fin s m e => cases y with
    | nan b => simp [floatRank, FV.isNan, Prod.Lex.toLex_lt_toLex]
    | inf b => cases b <;> simp [floatRank, FV.isNan, cmpF, Prod.Lex.toLex_lt_toLex]
    | fin s' m' e' =>
      obtain ⟨hlt, hgt⟩ := cmpF_fin s s' m m' e e'
      simp only [floatRank, FV.isNan, Prod.Lex.toLex_lt_toLex, lt_self_iff_false, false_or, true_and]
      obtain h | h | h := lt_trichotomy (finVal s m e) (finVal s' m' e')
      · rw [hlt.2 h]
        simp [h.not_gt, h.ne']
      · have heq : cmpF (.fin s m e) (.fin s' m' e') = .eq := by
          cases hc : cmpF (.fin s m e) (.fin s' m' e') with
          | eq => rfl
          | lt => exact absurd (hlt.1 hc) h.not_lt
          | gt => exact absurd (hgt.1 hc) h.not_gt
        rw [heq, h]
        cases s <;> cases s' <;> simp [FV.neg]
      · rw [hgt.2 h]
        simp [h]

theorem maxiGt_iff (t : LTy) (x y : Nat) : maxiGt t x y = true ↔ maxiRank t y < maxiRank t x := by
  unfold maxiGt maxiRank
  split
  · simp [Prod.Lex.toLex_lt_toLex]
  · exact (floatRank_lt_iff _ _).symm

/-! ## The first greatest lane -/

/-- What the search over n lanes from `base` on has found: no active lane, or the first greatest. -/
def Finds (t : LTy) (a : Nat → Nat) (act : Nat → Bool) (base n : Nat) (best : Option Nat) : Prop :=
  match best with
  | none => ∀ m, base ≤ m → m < base + n → act m = false
  | some j => base ≤ j ∧ j < base + n ∧ act j = true ∧
      ∀ m, base ≤ m → m < base + n → act m = true → maxiRank t (a m) ≤ maxiRank t (a j) ∧
        (m < j → maxiRank t (a m) < maxiRank t (a j))

/-- The search at one more lane. -/
def maxiStep (t : LTy) (a : Nat → Nat) (act : Nat → Bool) (best : Option Nat) (l : Nat) : Option Nat :=
  if !act l then best
  else match best with
    | none => some l
    | some b => if maxiGt t (a l) (a b) then some l else best

theorem maxiWin_eq_foldl (t : LTy) (a : Nat → Nat) (act : Nat → Bool) (ls : List Nat) :
    maxiWin t a act ls = ls.foldl (maxiStep t a act) none := rfl

section
variable {t : LTy} {a : Nat → Nat} {act : Nat → Bool} {base n : Nat} {best : Option Nat}

theorem finds_succ_of_inactive (h : Finds t a act base n best) (hact : act (base + n) = false) : Finds t a act base (n + 1) best := by
  have hnot : ∀ m, act m = true → m ≠ base + n := by
    rintro m hm rfl
    simp [hact] at hm
  cases best with
  | none =>
    intro m hle hlt
    obtain rfl | hne := eq_or_ne m (base + n)
    · exact hact
    · exact h m hle (by omega)
  | some j =>
    obtain ⟨hle, hlt, hj, hbest⟩ := h
    refine ⟨hle, by omega, hj, fun m hmle hmlt hm => hbest m hmle ?_ hm⟩
    have := hnot m hm
    omega

theorem finds_succ (h : Finds t a act base n best) : Finds t a act base (n + 1) (maxiStep t a act best (base + n)) := by
  cases hact : act (base + n) with
  | false => simpa [maxiStep, hact] using finds_succ_of_inactive h hact
  | true =>
    cases best with
    | none =>
      simp only [maxiStep, hact, Bool.not_true, Bool.false_eq_true, if_false]
      refine ⟨Nat.le_add_right _ _, Nat.lt_succ_self _, hact, fun m hmle hmlt hm => ?_⟩
      obtain rfl | hne := eq_or_ne m (base + n)
      · exact ⟨le_rfl, fun hlt => absurd hlt (lt_irrefl _)⟩
      · simp [h m hmle (by omega)] at hm
    | some j =>
      obtain ⟨hle, hlt, hj, hbest⟩ := h
      simp only [maxiStep, hact, Bool.not_true, Bool.false_eq_true, if_false]
      split
      next hgt =>
        rw [maxiGt_iff] at hgt
        refine ⟨Nat.le_add_right _ _, Nat.lt_succ_self _, hact, fun m hmle hmlt hm => ?_⟩
        obtain rfl | hne := eq_or_ne m (base + n)
        · exact ⟨le_rfl, fun hlt => absurd hlt (lt_irrefl _)⟩
        · have hm' := (hbest m hmle (by omega) hm).1.trans_lt hgt
          exact ⟨hm'.le, fun _ => hm'⟩
      next hgt =>
        rw [maxiGt_iff, not_lt] at hgt
        refine ⟨hle, by omega, hj, fun m hmle hmlt hm => ?_⟩
        obtain rfl | hne := eq_or_ne m (base + n)
        · exact ⟨hgt, fun hlt' => by omega⟩
        · exact hbest m hmle (by omega) hm

end

theorem finds_maxiWin (t : LTy) (a : Nat → Nat) (act : Nat → Bool) (base n : Nat) :
    Finds t a act base n (maxiWin t a act ((List.range n).map (base + ·))) := by
  induction n with
  | zero => exact fun m hm hlt => absurd hm (by omega)
  | succ n ih =>
    rw [maxiWin_eq_foldl, List.range_succ, List.map_append, List.foldl_append, ← maxiWin_eq_foldl]
    exact finds_succ ih

/-! ## VMAXI (R139) -/

theorem div_two_pow_eq_iff {m l seg : Nat} :
    m / 2 ^ seg = l / 2 ^ seg ↔ l / 2 ^ seg * 2 ^ seg ≤ m ∧ m < l / 2 ^ seg * 2 ^ seg + 2 ^ seg := by
  rw [Nat.div_eq_iff (Nat.two_pow_pos seg)]
  have := Nat.two_pow_pos seg
  omega

/-- The winner of the segment of lane l. -/
def winner (o : VRed) (k : Core) (a : Nat → Nat) (l : Nat) : Option Nat :=
  ((List.range (viewLanes o.wide o.ty / 2 ^ o.seg.toNat)).map fun g => maxiWin o.ty a (k.mask o.mask).getLsbD
    ((List.range (2 ^ o.seg.toNat)).map (g * 2 ^ o.seg.toNat + ·))).getD (l / 2 ^ o.seg.toNat) none

theorem winner_eq {o : VRed} (hok : o.ok = true) (k : Core) (a : Nat → Nat) {l : Nat} (hl : l < redLanes o) :
    winner o k a l = maxiWin o.ty a (k.mask o.mask).getLsbD
      ((List.range (2 ^ o.seg.toNat)).map (l / 2 ^ o.seg.toNat * 2 ^ o.seg.toNat + ·)) := by
  have hlanes : viewLanes o.wide o.ty = 2 ^ o.seg.toNat * 2 ^ (o.log2N - o.seg.toNat) := by
    rw [← Nat.pow_add, Nat.add_sub_cancel' (seg_le_log2N hok)]
    exact redLanes_eq o
  have hg : l / 2 ^ o.seg.toNat < viewLanes o.wide o.ty / 2 ^ o.seg.toNat := by
    rw [hlanes, Nat.mul_div_cancel_left _ (Nat.two_pow_pos _)]
    exact Nat.div_lt_of_lt_mul (hlanes ▸ hl)
  simp [winner, hg]

/-- The winner is the first greatest active lane of the segment, where one is active. -/
theorem winner_spec {o : VRed} (hok : o.ok = true) (k : Core) (a : Nat → Nat) {l : Nat} (hl : l < redLanes o) :
    match winner o k a l with
    | some j => IsWinner o k a l j
    | none => ¬∃ j, IsWinner o k a l j := by
  have hfinds := finds_maxiWin o.ty a (k.mask o.mask).getLsbD (l / 2 ^ o.seg.toNat * 2 ^ o.seg.toNat) (2 ^ o.seg.toNat)
  rw [← winner_eq hok k a hl] at hfinds
  cases hw : winner o k a l with
  | none =>
    rw [hw] at hfinds
    rintro ⟨j, hseg, hact, -, -⟩
    obtain ⟨hle, hlt⟩ := div_two_pow_eq_iff.1 hseg
    simp [hfinds j hle hlt] at hact
  | some j =>
    rw [hw] at hfinds
    obtain ⟨hle, hlt, hact, hbest⟩ := hfinds
    refine ⟨div_two_pow_eq_iff.2 ⟨hle, hlt⟩, hact, fun m hm hmact => ?_, fun m hmj hm hmact => ?_⟩
    · obtain ⟨hmle, hmlt⟩ := div_two_pow_eq_iff.1 hm
      rw [Bool.eq_false_iff, ne_eq, maxiGt_iff, not_lt]
      exact (hbest m hmle hmlt hmact).1
    · obtain ⟨hmle, hmlt⟩ := div_two_pow_eq_iff.1 hm
      exact (maxiGt_iff _ _ _).2 ((hbest m hmle hmlt hmact).2 hmj)

/-- The number of the winner, or all ones. -/
theorem winner_getD {o : VRed} (hok : o.ok = true) {k : Core} {a res : Nat → Nat} {l : Nat} (hl : l < redLanes o)
    (hwin : ∀ j, IsWinner o k a l j → res l = j) (hnone : (¬∃ j, IsWinner o k a l j) → res l = 2 ^ o.ty.width - 1) :
    (winner o k a l).getD (2 ^ o.ty.width - 1) = res l := by
  have hspec := winner_spec hok k a hl
  cases hw : winner o k a l with
  | none => exact (hnone (by rwa [hw] at hspec)).symm
  | some j => exact (hwin j (by rwa [hw] at hspec)).symm

section
variable {o : VRed} {s : State} {vs : List VVal} {k : Core} (hread : s.here.readAll [o.a] = some (vs, k))
  (htags : tagsOk (some o.ty) vs = true)
include hread htags

theorem exec_vmaxi_lanes {d : VDst} (hd : o.dst = .lanes d) (hroom : s.here.dstRoom d = true) :
    exec (.vmaxi o) s = .next ((s.mod fun _ => (k.wideHold o.wide s.clk).writeV s.clk d (if o.wide then 8 else 7)
      (writeLanes o.ty.width (redLanes o) (s.here.mask o.mask).getLsbD o.mz
        (fun l => (winner o s.here ((nth vs 0).lane o.ty) l).getD (2 ^ o.ty.width - 1)) ((nth vs 0).lane o.ty)
        (ltyTag o.ty))).retire 8) := by
  have hq : ∀ n ∈ redQ o.dst, s.here.room n = true := by
    rw [hd]
    exact room_of_dstRoom hroom
  change execVmaxi o s = _
  rw [execVmaxi, vecOp_issues hread hq htags]
  simp only [hd]
  rfl

theorem exec_vmaxi_scalar {d : Fin 32} (hd : o.dst = .s d) :
    exec (.vmaxi o) s = .next ((s.mod fun _ => (k.wideHold o.wide s.clk).later (if o.wide then 8 else 7)
      (.s d ((winner o s.here ((nth vs 0).lane o.ty) 0).elim (BitVec.allOnes 64) (BitVec.ofNat 64)))).retire 8) := by
  have hq : ∀ n ∈ redQ o.dst, s.here.room n = true := by
    rw [hd]
    exact fun n hn => nomatch hn
  change execVmaxi o s = _
  rw [execVmaxi, vecOp_issues hread hq htags]
  simp only [hd]
  change _ = Host.Outcome.next ((s.mod fun _ => (k.wideHold o.wide s.clk).later (viewLat o.wide 7)
    (.s d ((winner o s.here ((nth vs 0).lane o.ty) 0).elim (BitVec.allOnes 64) (BitVec.ofNat 64)))).retire 8)
  unfold winner
  cases List.getD _ _ _ <;> rfl

end

/-- Settles O27: the search over a segment finds its first greatest lane. -/
theorem maxWithIndex : Obligations.MaxWithIndex := by
  unfold Obligations.MaxWithIndex
  intro o s vs k res hq hwf hread htags hres
  have hok : o.ok = true := (Bool.and_eq_true_iff.1 (Bool.and_eq_true_iff.1 hwf).1).2
  have hk := readAll_queues hread
  have hlat : 1 ≤ if o.wide then 8 else 7 := by split <;> decide
  have hzero : 0 < redLanes o := by rw [redLanes_eq]; exact Nat.two_pow_pos _
  rw [← nth_zero] at hres ⊢
  have hspec := winner_spec hok s.here ((nth vs 0).lane o.ty) hzero
  refine ⟨fun d hd hroom => ⟨_, exec_vmaxi_lanes hread htags hd hroom, ?_⟩,
    fun d hd => ⟨fun hwin => ⟨_, exec_vmaxi_scalar hread htags hd, ?_⟩, fun hnone => ⟨_, exec_vmaxi_scalar hread htags hd, ?_⟩⟩⟩
  · exact laneDone_congr (lanesAgree_writeLanes (fun l hl => winner_getD hok hl (hres l hl).1 (hres l hl).2) _ _ _ _ _)
      (laneDone_writeV hq hk o.wide hlat d (fits_of_ok hd hok _ _ _))
  · cases hw : winner o s.here ((nth vs 0).lane o.ty) 0 with
    | none => exact absurd hwin (by rwa [hw] at hspec)
    | some j =>
      rw [hw] at hspec
      rw [(hres 0 hzero).1 j hspec]
      exact scalarDone_later hq hk o.wide hlat d _
  · cases hw : winner o s.here ((nth vs 0).lane o.ty) 0 with
    | none => exact scalarDone_later hq hk o.wide hlat d _
    | some j => exact absurd ⟨j, by rwa [hw] at hspec⟩ hnone

/-! ## VBQ (R119, R142) -/

/-- An instruction of EX completes whose one result is performed outside EX, some clk later. -/
theorem retire_pushLater {s : State} (hq : s.cur.2 = .ex) {k : Core} (hk : k = { s.here with queues := k.queues }) (lat : Nat)
    (o : ExOut) {u : State} (hu : u = (s.mod fun _ => k.pushLater s.clk lat o).retire 8) :
    EXFrame s u ∧ WritesNone s u ∧ Passes s u ∧ u.here = { k with seqs := u.here.seqs, ex := u.here.ex } ∧
      (s.here.ex.pend = [] → u.here.settle.ex.v = s.here.ex.v ∧ u.here.settle.ex.a = s.here.ex.a ∧
        u.here.settle.ex.k = s.here.ex.k) ∧
      u.here.ex.pushes = s.here.ex.pushes ++ [⟨s.clk + lat, o⟩] := by
  have hex : k.ex = s.here.ex := by rw [hk]
  have hseqs : (k.pushLater s.clk lat o).seqs = s.here.seqs := by
    change k.seqs = _
    rw [hk]
  have hex₁ : (k.pushLater s.clk lat o).ex = { s.here.ex with pushes := s.here.ex.pushes ++ [⟨s.clk + lat, o⟩] } := by
    rw [Core.pushLater, hex]
  have hdone := completed_retire_ex hq hseqs
  have hstands := stands_standing hq hseqs (by rw [hex₁]) (by rw [hex₁]) (by rw [hex₁]) s.curYp s.clk
  have hsettle : s.here.ex.pend = [] → u.here.settle = standing (k.pushLater s.clk lat o) s.curYp s.clk := fun hnil => by
    rw [hu]
    exact settle_retire_ex_of_pend_nil hq (by rw [hex₁, hnil])
  rw [← hu] at hdone
  refine ⟨hdone.frame, fun hno m => ?_, hdone.passes, hdone.core, fun hnil => ?_, by rw [hdone.pushes, hex₁]⟩
  · rw [State.landed, hsettle (hno hq), hu, State.retire_cur, State.mod_cur, hq]
    exact hstands.reg m
  · rw [hsettle hnil]
    exact ⟨hstands.v, hstands.a, hstands.k⟩

/-- The outcome of VBQ over the active lanes. -/
def outcome (t : LTy) (m : Mask) (n : Nat) (all : Bool) (a : Nat → Nat) : Bool :=
  let act := (List.range n).filter fun l => m.getLsbD l
  if all then act.all fun l => laneNonzero t (a l) else act.any fun l => laneNonzero t (a l)

theorem outcome_all (t : LTy) (m : Mask) (n : Nat) (a : Nat → Nat) : outcome t m n true a = true ↔
    ∀ l, l < n → m.getLsbD l = true → laneNonzero t (a l) = true := by
  simp [outcome, or_iff_not_imp_left]

theorem outcome_any (t : LTy) (m : Mask) (n : Nat) (a : Nat → Nat) : outcome t m n false a = true ↔
    ∃ l, l < n ∧ m.getLsbD l = true ∧ laneNonzero t (a l) = true := by
  simp [outcome]

/-- VBQ issues where its bq has room. -/
theorem exec_vbq {t : LTy} {mask : Fin 8} {x : VSrc} {n : Fin 4} {all : Bool} {s : State} {vs : List VVal} {k : Core}
    (hroom : s.here.bqRoom n = true) (hread : s.here.readAll [x] = some (vs, k)) (htags : tagsOk (some t) vs = true) :
    exec (.vbq t mask x n all) s = .next ((s.mod fun _ => k.pushLater s.clk (viewLat (wideOf [x.k00]) 2)
      (.bit n (outcome t (s.here.mask mask) (viewLanes (wideOf [x.k00]) t) all ((nth vs 0).lane t)))).retire 8) := by
  change execVbq t mask x n all s = _
  rw [execVbq, hroom, vecOp_issues hread (by simp) htags]
  rfl

/-- Settles O29: the outcome over the active lanes is pushed outside EX. -/
theorem branchOutcomes : Obligations.BranchOutcomes := by
  unfold Obligations.BranchOutcomes
  intro t mask x n all s vs k hq _ hroom hread htags
  obtain ⟨hframe, hnone, hpass, hcore, hsettle, hpushes⟩ := retire_pushLater hq (readAll_queues hread)
    (viewLat (wideOf [x.k00]) 2)
    (.bit n (outcome t (s.here.mask mask) (viewLanes (wideOf [x.k00]) t) all ((nth vs 0).lane t))) rfl
  refine ⟨_, exec_vbq hroom hread htags, hframe, hnone, hpass, hcore, hsettle, _, hpushes, ?_, ?_⟩ <;> rintro rfl <;> rw [← nth_zero]
  · exact outcome_all _ _ _ _
  · exact outcome_any _ _ _ _

end Sys2Proof.Laws
end

section
/-! SUPPORT. What an access found at fault takes back: the changes that its sequencer has made since are undone (R153, R174, R176). -/

namespace Sys2Proof.Laws

open Sys2Proof.Machine

/-! ## Changes taken back (R174, R176) -/

/-- A change that a late fault of an access takes back. -/
def goes (q : Seq) (id : Nat) (u : Undone) : Bool := u.seq == q && decide (id < u.id)

/-- A change to a shape register, which is taken back with all that were made after it. -/
def ofShape (u : Undone) : Bool :=
  match u.what with
  | .shape _ _ _ => true
  | _ => false

theorem goes_iff {q : Seq} {id : Nat} {u : Undone} : goes q id u = true ↔ u.after q id := by
  simp [goes, Undone.after]

/-- The changes of a list taken back, the last first. -/
def takenBack (q : Seq) (id : Nat) (us : List Undone) (k : Core) : Core :=
  us.foldr (fun u k => if goes q id u || ofShape u then k.takeBackChange u else k) k

/-- The changes up to the first that goes, and those from it on. -/
def kept (q : Seq) (id : Nat) (us : List Undone) : List Undone := us.takeWhile fun u => !goes q id u
def since (q : Seq) (id : Nat) (us : List Undone) : List Undone := us.dropWhile fun u => !goes q id u

theorem undoFrom_eq (k : Core) (q : Seq) (id : Nat) : k.undoFrom q id =
    ((since q id k.undo).filter fun u => !goes q id u).foldl Core.makeAgain
      { takenBack q id (since q id k.undo) k with undo := kept q id k.undo } := by
  rw [takenBack, ← List.foldr_filter]
  simp only [Core.undoFrom, List.foldl_reverse]
  rfl

/-- A part of a core that changes in one way as a change is taken back, and not as one is made again. -/
structure Observes {α : Type} (obs : Core → α) (act : Undone → α → α) : Prop where
  back : ∀ k u, obs (k.takeBackChange u) = act u (obs k)
  again : ∀ k u, obs (k.makeAgain u) = obs k
  undo : ∀ (k : Core) us, obs { k with undo := us } = obs k
  shape : ∀ u x, ofShape u = true → act u x = x

/-- What is kept takes nothing back. -/
theorem foldr_since {α : Type} {act : Undone → α → α} {q : Seq} {id : Nat} (us : List Undone) (x : α) :
    us.foldr (fun u x => if goes q id u then act u x else x) x =
      (since q id us).foldr (fun u x => if goes q id u then act u x else x) x := by
  induction us with
  | nil => rfl
  | cons u us ih =>
    cases hg : goes q id u with
    | true => simp [since, hg]
    | false => simpa [since, hg] using ih

section
variable {α : Type} {obs : Core → α} {act : Undone → α → α} (h : Observes obs act)
include h

theorem obs_takenBack (q : Seq) (id : Nat) (us : List Undone) (k : Core) :
    obs (takenBack q id us k) = us.foldr (fun u x => if goes q id u then act u x else x) (obs k) := by
  induction us with
  | nil => rfl
  | cons u us ih =>
    rw [takenBack, List.foldr_cons, ← takenBack, List.foldr_cons, ← ih]
    cases hg : goes q id u with
    | true => simpa using h.back _ u
    | false =>
      cases hs : ofShape u with
      | true => simpa using (h.back _ u).trans (h.shape u _ hs)
      | false => rfl

theorem obs_foldl_makeAgain (us : List Undone) (k : Core) : obs (us.foldl Core.makeAgain k) = obs k := by
  induction us generalizing k with
  | nil => rfl
  | cons u us ih => rw [List.foldl_cons, ih, h.again]

theorem obs_undoFrom (k : Core) (q : Seq) (id : Nat) :
    obs (k.undoFrom q id) = k.undo.foldr (fun u x => if goes q id u then act u x else x) (obs k) := by
  rw [undoFrom_eq, obs_foldl_makeAgain h, h.undo, obs_takenBack h, ← foldr_since]

end

/-! ### Tokens, entries and outcomes -/

/-- The tokens that a change took from a queue. -/
def tokensOf (t : Fin 16) (u : Undone) : BitVec 6 :=
  match u.what with
  | .tokens m n => if m = t then n else 0
  | _ => 0

/-- The entry that a change took from a queue, and the outcome that it took from a bq. -/
def entryFrom (n : Fin 16) (u : Undone) : List QEntry :=
  match u.what with
  | .entry m e => if m = n then [e] else []
  | _ => []
def outcomeFrom (n : Fin 4) (u : Undone) : List Bool :=
  match u.what with
  | .outcome m b => if m = n then [b] else []
  | _ => []

theorem observes_toks (t : Fin 16) : Observes (fun k => k.toks[t]) fun u x => x + tokensOf t u where
  back k u := by
    obtain ⟨i, p, w⟩ := u
    cases w with
    | tokens m n =>
      by_cases hm : t = m
      · subst hm
        simp [Core.takeBackChange, tokensOf]
      · have hget : (k.toks.set m (k.toks[m] + n))[t] = k.toks[t] := getElem_set_fin_ne _ hm _
        simpa [Core.takeBackChange, tokensOf, Ne.symm hm] using hget
    | _ => exact (BitVec.add_zero _).symm
  again k u := by
    obtain ⟨i, p, w⟩ := u
    cases w <;> rfl
  undo _ _ := rfl
  shape u x hu := by
    obtain ⟨i, p, w⟩ := u
    cases w with
    | shape => exact BitVec.add_zero _
    | _ => cases hu

theorem observes_entries (n : Fin 16) : Observes (fun k => k.queues[n].entries) fun u x => entryFrom n u ++ x where
  back k u := by
    obtain ⟨i, p, w⟩ := u
    cases w with
    | entry m e =>
      by_cases hm : n = m
      · subst hm
        have hget := congrArg DQueue.entries
          (Core.onQueue_same k n fun d => { d with entries := e :: d.entries, popped := d.popped - 1 })
        simpa [Core.takeBackChange, entryFrom] using hget
      · simp [Core.takeBackChange, entryFrom, Ne.symm hm, Core.onQueue_ne _ _ _ _ hm]
    | _ => rfl
  again k u := by
    obtain ⟨i, p, w⟩ := u
    cases w <;> rfl
  undo _ _ := rfl
  shape u x hu := by
    obtain ⟨i, p, w⟩ := u
    cases w with
    | shape => rfl
    | _ => cases hu

theorem observes_bqs (n : Fin 4) : Observes (fun k => k.bqs[n]) fun u x => outcomeFrom n u ++ x where
  back k u := by
    obtain ⟨i, p, w⟩ := u
    cases w with
    | outcome m b =>
      by_cases hm : n = m
      · subst hm
        simp [Core.takeBackChange, outcomeFrom]
      · have hget : (k.bqs.set m (b :: k.bqs[m]))[n] = k.bqs[n] := getElem_set_fin_ne _ hm _
        simpa [Core.takeBackChange, outcomeFrom, Ne.symm hm] using hget
    | _ => rfl
  again k u := by
    obtain ⟨i, p, w⟩ := u
    cases w <;> rfl
  undo _ _ := rfl
  shape u x hu := by
    obtain ⟨i, p, w⟩ := u
    cases w with
    | shape => rfl
    | _ => cases hu

/-- Tokens taken back, one change after the other, are added up. -/
theorem foldr_add_sum {q : Seq} {id : Nat} (t : Fin 16) (us : List Undone) (x : BitVec 6) :
    us.foldr (fun u x => if goes q id u then x + tokensOf t u else x) x =
      x + (us.map fun w => if goes q id w then tokensOf t w else 0).sum := by
  induction us with
  | nil => simp
  | cons u us ih =>
    rw [List.foldr_cons, ih, List.map_cons, List.sum_cons]
    split
    · ring
    · rw [zero_add]

theorem foldr_append_flatMap {α : Type} {q : Seq} {id : Nat} (f : Undone → List α) (us : List Undone) (x : List α) :
    us.foldr (fun u x => if goes q id u then f u ++ x else x) x = (us.flatMap fun w => if goes q id w then f w else []) ++ x := by
  induction us with
  | nil => rfl
  | cons u us ih =>
    rw [List.foldr_cons, ih, List.flatMap_cons]
    split <;> simp

/-! ### Shape registers -/

/-- A change to another shape register, or to none. -/
def missesShape (n : Fin 16) (u : Undone) : Prop := ∀ o x, u.what ≠ .shape n o x

theorem shape_takeBackChange_of_misses {n : Fin 16} {u : Undone} (h : missesShape n u) (k : Core) :
    (k.takeBackChange u).shape n = k.shape n := by
  obtain ⟨i, p, w⟩ := u
  cases w with
  | shape m o x =>
    have hm : n ≠ m := fun e => h o x (by rw [e])
    exact getElem_set_fin_ne k.shapes hm _
  | _ => rfl

theorem shape_makeAgain_of_misses {n : Fin 16} {u : Undone} (h : missesShape n u) (k : Core) :
    (k.makeAgain u).shape n = k.shape n := by
  obtain ⟨i, p, w⟩ := u
  cases w with
  | shape m o x =>
    have hm : n ≠ m := fun e => h o x (by rw [e])
    exact getElem_set_fin_ne k.shapes hm _
  | _ => rfl

theorem shape_takenBack_of_misses {q : Seq} {id : Nat} {n : Fin 16} {us : List Undone} (h : ∀ u ∈ us, missesShape n u) (k : Core) :
    (takenBack q id us k).shape n = k.shape n := by
  induction us with
  | nil => rfl
  | cons u us ih =>
    rw [List.forall_mem_cons] at h
    rw [takenBack, List.foldr_cons, ← takenBack]
    split
    · rw [shape_takeBackChange_of_misses h.1, ih h.2]
    · exact ih h.2

theorem shape_foldl_makeAgain_of_misses {n : Fin 16} {us : List Undone} (h : ∀ u ∈ us, missesShape n u) (k : Core) :
    (us.foldl Core.makeAgain k).shape n = k.shape n := by
  induction us generalizing k with
  | nil => rfl
  | cons u us ih =>
    rw [List.forall_mem_cons] at h
    rw [List.foldl_cons, ih h.2, shape_makeAgain_of_misses h.1]

/-- A shape register that no change touched stands. -/
theorem shape_undoFrom_of_misses {k : Core} {q : Seq} {id : Nat} {n : Fin 16} (h : ∀ u ∈ k.undo, missesShape n u) :
    (k.undoFrom q id).shape n = k.shape n := by
  have hsince : ∀ u ∈ since q id k.undo, missesShape n u := fun u hu => h u ((List.dropWhile_sublist _).mem hu)
  rw [undoFrom_eq, shape_foldl_makeAgain_of_misses fun u hu => hsince u (List.mem_of_mem_filter hu)]
  exact shape_takenBack_of_misses hsince k

/-- A shape register whose first change goes, and every later one of it, is as it was before that change. -/
theorem shape_undoFrom {k : Core} {q : Seq} {id : Nat} {n : Fin 16} {pre post : List Undone} {w : Undone} {o : ShapeOp} {x : Shape}
    (hundo : k.undo = pre ++ w :: post) (hw : w.what = .shape n o x) (hgoes : goes q id w = true) (hpre : ∀ u ∈ pre, missesShape n u)
    (hpost : ∀ u ∈ post, goes q id u = false → missesShape n u) : (k.undoFrom q id).shape n = x := by
  obtain ⟨pre', hpre', hsince⟩ : ∃ pre', (∀ u ∈ pre', missesShape n u) ∧ since q id k.undo = pre' ++ w :: post := by
    refine ⟨since q id pre, fun u hu => hpre u ((List.dropWhile_sublist _).mem hu), ?_⟩
    rw [since, hundo, List.dropWhile_append]
    split
    next hnil => simp [since, List.isEmpty_iff.1 hnil, hgoes]
    · rfl
  have hagain : ∀ u ∈ (since q id k.undo).filter (fun u => !goes q id u), missesShape n u := by
    intro u hu
    obtain ⟨hmem, hnot⟩ := List.mem_filter.1 hu
    rw [hsince, List.mem_append, List.mem_cons] at hmem
    obtain hmem | rfl | hmem := hmem
    · exact hpre' u hmem
    · simp [hgoes] at hnot
    · exact hpost u hmem (by simpa using hnot)
  have hback : (takenBack q id (w :: post) k).shape n = x := by
    obtain ⟨i, p, what⟩ := w
    cases hw
    rw [takenBack, List.foldr_cons, hgoes]
    exact getElem_set_fin_self _ _ _
  rw [undoFrom_eq, shape_foldl_makeAgain_of_misses hagain, hsince]
  change (takenBack q id (pre' ++ w :: post) k).shape n = x
  rw [takenBack, List.foldr_append]
  exact (shape_takenBack_of_misses hpre' _).trans hback

/-! ### What is still remembered -/

theorem mem_undo_foldl_makeAgain {us : List Undone} {k : Core} {w : Undone} (h : w ∈ (us.foldl Core.makeAgain k).undo) :
    w ∈ k.undo ∨ ∃ u ∈ us, w.seq = u.seq ∧ w.id = u.id := by
  induction us generalizing k with
  | nil => exact .inl h
  | cons u us ih =>
    obtain h | ⟨v, hv, hsame⟩ := ih h
    · have hundo : ∃ v, (k.makeAgain u).undo = k.undo ++ [v] ∧ v.seq = u.seq ∧ v.id = u.id := by
        obtain ⟨i, p, what⟩ := u
        cases what <;> exact ⟨_, rfl, rfl, rfl⟩
      obtain ⟨v, hv, hsame⟩ := hundo
      rw [hv, List.mem_append, List.mem_singleton] at h
      exact h.imp_right fun e => ⟨u, List.mem_cons_self, by rw [e]; exact hsame⟩
    · exact .inr ⟨v, List.mem_cons_of_mem _ hv, hsame⟩

/-- No change that goes is remembered. -/
theorem not_goes_of_mem_undoFrom {k : Core} {q : Seq} {id : Nat} {w : Undone} (h : w ∈ (k.undoFrom q id).undo) :
    goes q id w = false := by
  rw [undoFrom_eq] at h
  obtain h | ⟨u, hu, hseq, hid⟩ := mem_undo_foldl_makeAgain h
  · simpa using List.mem_takeWhile_imp h
  · have := (List.mem_filter.1 hu).2
    rw [goes, hseq, hid]
    exact (Bool.not_eq_true' _).mp this

end Sys2Proof.Laws
end

section
/-! SUPPORT. An access found at fault: it and the later ones of its sequencer are cancelled, and the sequencer traps or is frozen as it
stood before it issued (R148, R174, R176, R360). -/

namespace Sys2Proof.Laws

open Sys2Proof.Machine

/-! ## Accesses cancelled (R174) -/

/-- What cancelling loads and taking changes back may change. -/
def OnlyHeld (k k' : Core) : Prop :=
  k' = { k with queues := k'.queues, toks := k'.toks, bqs := k'.bqs, shapes := k'.shapes, undo := k'.undo, tens := k'.tens }

theorem OnlyHeld.trans {k₁ k₂ k₃ : Core} (h : OnlyHeld k₁ k₂) (h' : OnlyHeld k₂ k₃) : OnlyHeld k₁ k₃ := by
  unfold OnlyHeld at *
  rw [h', h]

theorem onlyHeld_takeBackChange (k : Core) (u : Undone) : OnlyHeld k (k.takeBackChange u) := by
  obtain ⟨i, p, w⟩ := u
  cases w <;> rfl

theorem onlyHeld_makeAgain (k : Core) (u : Undone) : OnlyHeld k (k.makeAgain u) := by
  obtain ⟨i, p, w⟩ := u
  cases w <;> rfl

theorem onlyHeld_takenBack (q : Seq) (id : Nat) (us : List Undone) (k : Core) : OnlyHeld k (takenBack q id us k) := by
  induction us with
  | nil => rfl
  | cons u us ih =>
    rw [takenBack, List.foldr_cons, ← takenBack]
    split
    · exact ih.trans (onlyHeld_takeBackChange _ u)
    · exact ih

theorem onlyHeld_foldl_makeAgain (us : List Undone) (k : Core) : OnlyHeld k (us.foldl Core.makeAgain k) := by
  induction us generalizing k with
  | nil => rfl
  | cons u us ih => exact (onlyHeld_makeAgain k u).trans (ih _)

theorem onlyHeld_undoFrom (k : Core) (q : Seq) (id : Nat) : OnlyHeld k (k.undoFrom q id) := by
  rw [undoFrom_eq]
  have hback := onlyHeld_takenBack q id (since q id k.undo) k
  exact OnlyHeld.trans (k₂ := { takenBack q id (since q id k.undo) k with undo := kept q id k.undo })
    (by unfold OnlyHeld at *; rw [hback]) (onlyHeld_foldl_makeAgain _ _)

/-- A load that is cancelled gives back the room that it claimed. -/
theorem cancelLoad_frame (k : Core) (l : Load) : ∃ qs tens, k.cancelLoad l = { k with queues := qs, tens := tens } ∧
    ∀ n : Fin 16, qs[n].entries = k.queues[n].entries := by
  unfold Core.cancelLoad
  split
  next q _ =>
    refine ⟨_, _, rfl, fun n => ?_⟩
    obtain rfl | hn := eq_or_ne n q
    · have hsame := congrArg DQueue.entries (Core.onQueue_same k n fun d => { d with claimed := d.claimed - 1 })
      exact hsame
    · exact congrArg DQueue.entries (Core.onQueue_ne k q n (fun d => { d with claimed := d.claimed - 1 }) hn)
  · exact ⟨_, _, rfl, fun _ => rfl⟩
  · exact ⟨_, _, rfl, fun _ => rfl⟩

theorem foldl_cancelLoad_frame (ls : List Load) (k : Core) : ∃ qs tens,
    ls.foldl Core.cancelLoad k = { k with queues := qs, tens := tens } ∧ ∀ n : Fin 16, qs[n].entries = k.queues[n].entries := by
  induction ls generalizing k with
  | nil => exact ⟨_, _, rfl, fun _ => rfl⟩
  | cons l ls ih =>
    obtain ⟨qs, tens, hk, hentries⟩ := cancelLoad_frame k l
    obtain ⟨qs', tens', hk', hentries'⟩ := ih (k.cancelLoad l)
    refine ⟨qs', tens', ?_, fun n => (hentries' n).trans ?_⟩
    · rw [List.foldl_cons, hk', hk]
    · rw [hk]
      exact hentries n

/-- A core with its accesses from a number on cancelled, but for the pool rows that they alone needed. -/
structure Cancelled (k j : Core) (q : Seq) (id : Nat) : Prop where
  frame : j = { k with queues := j.queues, toks := j.toks, bqs := j.bqs, shapes := j.shapes, undo := j.undo, tens := j.tens,
                       loads := j.loads, stores := j.stores, stash := j.stash }
  stores : j.stores = k.stores.filter fun x => !(q == .st && decide (id ≤ x.id))
  takenBack : TakenBack k j q id

theorem flatMap_eq_filterMap {α β : Type} {f : α → List β} {g : α → Option β} (h : ∀ x, f x = (g x).toList) (l : List α) :
    l.flatMap f = l.filterMap g := by
  rw [List.filterMap_eq_flatMap_toList, funext h]

theorem takenBack_undoFrom {k : Core} {q : Seq} {id : Nat} {qs : Vector DQueue 16} {tens : Tensor}
    (hqs : ∀ n : Fin 16, qs[n].entries = k.queues[n].entries) {loads : List Load} (hloads : ∀ l ∈ loads, l.seq = q → l.id < id)
    {stores : List Store} {stash : List StashRow} :
    TakenBack k { ({ k with queues := qs, tens := tens } : Core).undoFrom q id with loads := loads, stores := stores, stash := stash }
      q id := by
  refine ⟨hloads, fun w hw hafter => ?_, fun t => ?_, fun n => ?_, fun n => ?_, fun n hmiss => ?_,
    fun n pre post w o x hsplit hw hafter hpre hpost => ?_⟩
  · have := not_goes_of_mem_undoFrom hw
    rw [goes_iff.2 hafter] at this
    cases this
  · refine (obs_undoFrom (observes_toks t) _ q id).trans ((foldr_add_sum t _ _).trans ?_)
    refine congrArg (fun l => k.toks[t] + List.sum l) (List.map_congr_left fun w _ => ?_)
    obtain ⟨i, p, what⟩ := w
    cases what with
    | tokens m n => by_cases hm : m = t <;> simp [goes, tokensOf, hm]
    | _ => exact ite_self _
  · refine (obs_undoFrom (observes_entries n) _ q id).trans ((foldr_append_flatMap _ _ _).trans ?_)
    refine congrArg₂ (· ++ ·) (flatMap_eq_filterMap (fun w => ?_) k.undo) (hqs n)
    obtain ⟨i, p, what⟩ := w
    cases what with
    | entry m e => by_cases hm : m = n <;> by_cases hg : p = q ∧ id < i <;> simp [goes, entryFrom, hm, hg]
    | _ => exact ite_self _
  · refine (obs_undoFrom (observes_bqs n) _ q id).trans ((foldr_append_flatMap _ _ _).trans ?_)
    refine congrArg (· ++ k.bqs[n]) (flatMap_eq_filterMap (fun w => ?_) k.undo)
    obtain ⟨i, p, what⟩ := w
    cases what with
    | outcome m b => by_cases hm : m = n <;> by_cases hg : p = q ∧ id < i <;> simp [goes, outcomeFrom, hm, hg]
    | _ => exact ite_self _
  · exact shape_undoFrom_of_misses hmiss
  · refine shape_undoFrom hsplit hw (goes_iff.2 hafter) (fun u hu => hpre u hu) fun u hu hnot o' x' he => ?_
    rw [goes_iff.2 (hpost u hu o' x' he)] at hnot
    cases hnot

theorem cancelled_cancelFrom (k : Core) (q : Seq) (id : Nat) : Cancelled k (k.cancelFrom q id) q id := by
  obtain ⟨qs, tens, hk, hqs⟩ := foldl_cancelLoad_frame (k.loads.filter fun l => l.seq == q && decide (id ≤ l.id)).reverse k
  have hheld : OnlyHeld _ _ := onlyHeld_undoFrom { k with queues := qs, tens := tens } q id
  have hloads : (({ k with queues := qs, tens := tens } : Core).undoFrom q id).loads = k.loads := by rw [hheld]
  have hstores : (({ k with queues := qs, tens := tens } : Core).undoFrom q id).stores = k.stores := by rw [hheld]
  have heq : ∃ stash, k.cancelFrom q id = { ({ k with queues := qs, tens := tens } : Core).undoFrom q id with
      loads := k.loads.filter fun l => !(l.seq == q && decide (id ≤ l.id))
      stores := k.stores.filter fun x => !(q == .st && decide (id ≤ x.id)), stash := stash } := by
    rw [Core.cancelFrom]
    simp only [hk, hloads, hstores]
    exact ⟨_, rfl⟩
  obtain ⟨stash, heq⟩ := heq
  refine ⟨?_, ?_, ?_⟩ <;> rw [heq]
  · rw [hheld]
  · refine takenBack_undoFrom hqs fun l hl hq => ?_
    have := (List.mem_filter.1 hl).2
    simpa [hq] using this

/-! ## The sequencer of an access at fault (R174, R176) -/

/-- The core whose access is found at fault late, with its sequencer as it was before that. -/
def wentBack (k : Core) (q : Seq) (id : Nat) (b : SeqSt) : Core := (k.cancelFrom q id).onSeq q (·.backTo b)

theorem seq_cancelFrom (k : Core) (q r : Seq) (id : Nat) : (k.cancelFrom q id).seq r = k.seq r := by
  rw [(cancelled_cancelFrom k q id).frame]
  rfl

theorem ctx_cancelFrom (k : Core) (q : Seq) (id : Nat) : (k.cancelFrom q id).ctx = k.ctx := by
  rw [(cancelled_cancelFrom k q id).frame]
  rfl

/-- Outside a handler the sequencer traps; a trap of CTL starts a window of its checker (R378). -/
theorem trapAt_eq {s : State} {c : CoreId} {q : Seq} (hq : q ≠ .ex) (hin : ((s.core c).seq q).inTrap = false) (cause : Cause)
    (epc tval : Word) : ∃ f : Core → Core,
      s.trapAt c q cause epc tval = s.onCore c (fun k => f (k.onSeq q fun st => st.enterTrap cause epc tval)) ∧
      ∀ k, ∃ chk, f k = { k with chk := chk } := by
  rw [State.trapAt]
  dsimp only
  rw [if_neg (by simp [hin]), if_neg hq]
  split
  · rw [State.checkpoint]
    split
    · exact ⟨Core.checkpoint, onCore_onCore _ _ _ _, fun k => ⟨_, rfl⟩⟩
    · exact ⟨id, rfl, fun k => ⟨k.chk, rfl⟩⟩
  · exact ⟨id, rfl, fun k => ⟨k.chk, rfl⟩⟩

theorem takenBack_congr {k j : Core} {q : Seq} {id : Nat} (h : TakenBack k j q id) (seqs : Vector SeqSt 4) (chk : Checker) :
    TakenBack k { j with seqs := seqs, chk := chk } q id := h

/-- The sequencer of an access found at fault has trapped as it stood before that access issued, with what it has done since taken
back. -/
structure FaultedLate (s u : State) (c : CoreId) (q : Seq) (id : Nat) (b : SeqSt) (cause : Cause) (tval : Word) : Prop where
  takenBack : TakenBack (s.core c) (u.core c) q id
  stores : (u.core c).stores = (s.core c).stores.filter fun x => !(q == .st && decide (id ≤ x.id))
  seq : (u.core c).seq q = LateTrap ((s.core c).seq q) b cause tval
  others : ∀ r, r ≠ q → (u.core c).seq r = (s.core c).seq r
  cores : ∀ d, d ≠ c → u.core d = s.core d
  bytes : SameBytes s u

/-- A late fault of an access outside a handler (R174, R176). -/
theorem faultedLate_lateFault {s : State} {c : CoreId} {q : Seq} {b : SeqSt} (hq : q ≠ .ex) (hin : b.inTrap = false) (id : Nat)
    (cause : Cause) (tval : Word) : FaultedLate s (s.lateFault c q id b cause tval) c q id b cause tval := by
  have hback : (wentBack (s.core c) q id b).seq q = ((s.core c).seq q).backTo b := by
    rw [wentBack, Core.seq_onSeq, seq_cancelFrom]
  obtain ⟨f, heq, hf⟩ := trapAt_eq (s := s.onCore c fun k => wentBack k q id b) (c := c) hq
    (by rw [State.core_onCore, hback]; exact hin) cause b.pc tval
  have hlate : s.lateFault c q id b cause tval =
      s.onCore c fun k => f ((wentBack k q id b).onSeq q fun st => st.enterTrap cause b.pc tval) :=
    heq.trans (onCore_onCore _ _ _ _)
  obtain ⟨chk, hchk⟩ := hf ((wentBack (s.core c) q id b).onSeq q fun st => st.enterTrap cause b.pc tval)
  have hcore : (s.lateFault c q id b cause tval).core c =
      { (wentBack (s.core c) q id b).onSeq q fun st => st.enterTrap cause b.pc tval with chk := chk } := by
    rw [hlate, State.core_onCore, hchk]
  have hcancel := cancelled_cancelFrom (s.core c) q id
  have hseq := fun r => seq_cancelFrom (s.core c) q r id
  unfold wentBack at hback hcore
  generalize (s.core c).cancelFrom q id = j at hback hcore hcancel hseq
  refine ⟨?_, ?_, ?_, fun r hr => ?_, fun d hd => ?_, fun a => ?_⟩
  · rw [hcore]
    exact takenBack_congr hcancel.takenBack _ _
  · rw [hcore]
    exact hcancel.stores
  · rw [hcore]
    change ((j.onSeq q (·.backTo b)).onSeq q fun st => st.enterTrap cause b.pc tval).seq q = _
    rw [Core.seq_onSeq, hback]
    rfl
  · rw [hcore]
    change ((j.onSeq q (·.backTo b)).onSeq q fun st => st.enterTrap cause b.pc tval).seq r = _
    rw [Core.seq_onSeq_ne _ _ _ _ hr, Core.seq_onSeq_ne _ _ _ _ hr, hseq]
  · rw [hlate, State.core_onCore_ne _ _ _ _ hd]
  · rw [hlate]
    rfl

/-- A sequencer is frozen for a violation, and its record is written over lines without errors (R360). -/
theorem violateAt_spec {s : State} (hclean : s.RecordClean) (c : CoreId) (q : Seq) (kind : VKind) (pc target : Word) :
    (s.violateAt c q kind pc target).core c = (s.core c).onSeq q (fun st => { st with
        run := .frozen ⟨kind, 0, BitVec.ofNat 8 q.num.val, BitVec.ofNat 16 c.val, (s.core c).ctx, pc, target⟩ }) ∧
      (s.violateAt c q kind pc target).vlhead = s.vlhead + 1 := by
  obtain ⟨hout, hlines⟩ := hclean
  generalize hv : (⟨kind, 0, BitVec.ofNat 8 q.num.val, BitVec.ofNat 16 c.val, (s.core c).ctx, pc, target⟩ : Violation) = v
  generalize hr : State.onCore { s with vlhead := s.vlhead + 1, vpend := s.vpend ++ [(s.vlhead, v)] } c
    (fun k => k.onSeq q fun st => { st with run := .frozen v }) = r
  have hrec : s.violateAt c q kind pc target = r.putRecord s.recordAt v.record 32 := by
    rw [← hr, ← hv]
    rfl
  have hw : Written r (s.violateAt c q kind pc target) s.recordAt v.record 32 := by
    rw [hrec]
    refine written_putRecord ?_ ?_
    · rw [← hr]
      exact hout
    · rw [← hr]
      exact fun l hl i hi => hlines l hl i hi
  refine ⟨?_, ?_⟩
  · rw [core_of_onlyMemory hw.only, ← hr]
    exact State.core_onCore _ _ _
  · rw [hw.only, ← hr]
    rfl

/-- A violation of an access after issue, with no error in the record's lines (R148, R174, R360). -/
theorem lateViolation_spec {s : State} (hclean : s.RecordClean) (c : CoreId) (l : Load) (kind : VKind) (va : Word) :
    TakenBack (s.core c) ((s.lateViolation c l kind va).core c) l.seq l.id ∧
      ((s.lateViolation c l kind va).core c).seq l.seq = { ((s.core c).seq l.seq).backTo l.before with
        run := .frozen ⟨kind, 0, BitVec.ofNat 8 l.seq.num.val, BitVec.ofNat 16 c.val, (s.core c).ctx, l.pc, va⟩ } ∧
      (s.lateViolation c l kind va).vlhead = s.vlhead + 1 := by
  obtain ⟨hcore, hhead⟩ := violateAt_spec (s := s.onCore c fun k => wentBack k l.seq l.id l.before) hclean c l.seq kind l.pc va
  have hseq := seq_cancelFrom (s.core c) l.seq l.seq l.id
  have hctx := ctx_cancelFrom (s.core c) l.seq l.id
  have hcancel := cancelled_cancelFrom (s.core c) l.seq l.id
  rw [State.core_onCore, wentBack] at hcore
  generalize (s.core c).cancelFrom l.seq l.id = j at hcore hcancel hseq hctx
  refine ⟨?_, ?_, hhead⟩
  · exact hcore ▸ takenBack_congr hcancel.takenBack _ j.chk
  · refine (congrArg (fun k : Core => k.seq l.seq) hcore).trans ?_
    rw [Core.seq_onSeq, Core.seq_onSeq, hseq, ← hctx]
    rfl

end Sys2Proof.Laws
end

section
/-! SUPPORT. What the arrivals of loads and the service of slices come to (R158, R178-R180, R213), and the place of a line in
HBM4E (R183). -/

namespace Sys2Proof.Laws

open Sys2Proof.Machine

/-! ## The place of a line (R183) -/

/-- The address of a line within its die above the lowest seven bits, folded. -/
def upperFold (up : Nat) : Nat := up % 128 ^^^ (up / 2 ^ 7 % 128 ^^^ (up / 2 ^ 14 % 128 ^^^ up / 2 ^ 21))

theorem upperFold_lt {up : Nat} (h : up < 2 ^ 23) : upperFold up < 2 ^ 7 :=
  Nat.xor_lt_two_pow (Nat.mod_lt _ (by decide)) (Nat.xor_lt_two_pow (Nat.mod_lt _ (by decide))
    (Nat.xor_lt_two_pow (Nat.mod_lt _ (by decide)) (by omega)))

theorem channelOf_eq (la : Nat) : channelOf la = la % 2 ^ 30 % 128 ^^^ upperFold (la % 2 ^ 30 / 128) := by
  simp only [channelOf, upperFold, Nat.div_div_eq_div_mul]
  rfl

/-- Every line has a place of its own: it is read back from there. -/
theorem hbmSlot_spec {la : Nat} (h : la < 2 ^ 33) : (hbmSlot la).stack < 16 ∧ (hbmSlot la).pseudo < 64 ∧ (hbmSlot la).line < 2 ^ 23 ∧
    (hbmSlot la).stack / 2 = dieOf la ∧ (hbmSlot la).line = la % 2 ^ 30 / 128 ∧ (hbmSlot la).la = la := by
  have hdie : dieOf la = la / 2 ^ 30 := if_pos h
  have hup : la % 2 ^ 30 / 128 < 2 ^ 23 := by omega
  have hlow : la % 2 ^ 30 % 128 < 2 ^ 7 := Nat.mod_lt _ (by decide)
  have hch : channelOf la < 2 ^ 7 := by
    rw [channelOf_eq]
    exact Nat.xor_lt_two_pow hlow (upperFold_lt hup)
  have hback : channelOf la ^^^ upperFold (la % 2 ^ 30 / 128) = la % 2 ^ 30 % 128 := by
    rw [channelOf_eq, Nat.xor_assoc, Nat.xor_self, Nat.xor_zero]
  refine ⟨?_, Nat.mod_lt _ (by decide), hup, ?_, rfl, ?_⟩
  · simp only [hbmSlot]
    omega
  · simp only [hbmSlot]
    omega
  · have hpos : 64 * ((2 * dieOf la + channelOf la / 64) % 2) + channelOf la % 64 = channelOf la := by omega
    have hla : (hbmSlot la).la = (2 * dieOf la + channelOf la / 64) / 2 * 2 ^ 30 + la % 2 ^ 30 / 128 * 128 +
        ((64 * ((2 * dieOf la + channelOf la / 64) % 2) + channelOf la % 64) ^^^ upperFold (la % 2 ^ 30 / 128)) := rfl
    rw [hla, hpos, hback]
    omega

/-! ## A step of a requester that meets no full slice (R179) -/

theorem asRequester_of_unhindered {s : State} {r : Option Requester} (h : s.Unhindered r) (act : State → State) :
    s.asRequester r act = act s := by
  obtain ⟨-, hfull, hgranted⟩ := h
  simp [State.asRequester, hfull, hgranted]

/-! ## Rows of scratchpads without errors (R364) -/

theorem checkWord_of_clean {s : State} (h : s.errs = []) (c : CoreId) (u : Guarded) (pc : Word) :
    s.checkWord c u pc = (s, false) := by
  simp [State.checkWord, State.flipsAt, h, State.examineWord]

theorem readPad_of_clean {s : State} (h : s.errs = []) {c : CoreId} {r : Fin 2048} (hflips : (s.padRow c r).flips = []) (pc : Word) :
    s.readPad c r pc = (s, some ((s.padRow c r).data, [])) := by
  simp [State.readPad, checkWord_of_clean h, hflips]

theorem writePad_of_clean {s : State} (h : s.errs = []) (c : CoreId) (r : Fin 2048) (tag : Layout) (mark : BitVec 2) (d : Row) :
    s.writePad c r tag mark d = s.setPad c r ⟨tag, mark, d, []⟩ := by
  simp [State.writePad, State.setErr, h]

/-! ## Rows of the stash (R165) -/

theorem rowOf_rowOf (va : Word) : rowOf (rowOf va) = rowOf va := by
  simp [rowOf, BitVec.and_assoc]

theorem rowAt_rowOf (k : Core) (va : Word) : k.rowAt (rowOf va) = k.rowAt va := by rw [Core.rowAt, Core.rowAt, rowOf_rowOf]
theorem stashAt_rowOf (k : Core) (va : Word) : k.stashAt (rowOf va) = k.stashAt va := by rw [Core.stashAt, rowAt_rowOf, ← Core.stashAt]
theorem comingAt_rowOf (k : Core) (va : Word) : k.comingAt (rowOf va) = k.comingAt va := by
  rw [Core.comingAt, rowAt_rowOf, ← Core.comingAt]
theorem refusedAt_rowOf (k : Core) (va : Word) : k.refusedAt (rowOf va) = k.refusedAt va := by
  rw [Core.refusedAt, rowAt_rowOf, ← Core.refusedAt]

theorem stashAt_eq_some {k : Core} {va : Word} {h : StashRow} : k.stashAt va = some h ↔ k.rowAt va = some h ∧ h.ready = true := by
  rw [Core.stashAt, Option.filter_eq_some_iff]

/-- A row with its contents is not on its way. -/
theorem comingAt_of_stashAt {k : Core} {va : Word} {h : StashRow} (hrow : k.stashAt va = some h) : k.comingAt va = false := by
  obtain ⟨hat, hready⟩ := stashAt_eq_some.1 hrow
  rw [Core.comingAt, hat, Option.any_some]
  unfold StashRow.ready at hready
  unfold StashRow.pending
  split <;> simp_all

/-- A refused row has no contents, and is not on its way. -/
theorem stashAt_of_refusedAt {k : Core} {va : Word} (h : k.refusedAt va = true) : k.stashAt va = none ∧ k.comingAt va = false := by
  rw [Core.refusedAt, Option.any_eq_true] at h
  obtain ⟨r, hr, huse⟩ := h
  have huse' : r.use = .refused := beq_iff_eq.1 huse
  constructor
  · simp [Core.stashAt, hr, StashRow.ready, huse']
  · simp [Core.comingAt, hr, StashRow.pending, huse']

/-! ## Loads arrive (R158, R174) -/

theorem bne_eq_decide_ne (a b : Nat) : (a != b) = decide (a ≠ b) := by
  by_cases h : a = b <;> simp [h]

/-- An entry is delivered to its queue. -/
theorem deliverLoad_queue {l : Load} {q : Fin 16} (h : l.dest = .queue q) (s : State) (c : CoreId) (e : QEntry)
    (cls : List (Word × Nat × Bool)) : s.deliverLoad c l e cls = (s.onCore c fun k =>
      { k.arrive q e with loads := k.loads.filter fun x => x.id ≠ l.id }).noteSev c l.seq cls := by
  simp only [State.deliverLoad, h, bne_eq_decide_ne]
  rfl

theorem noteSev_nil (s : State) (c : CoreId) (q : Seq) : s.noteSev c q [] = s := rfl

/-- The same where nothing was classed, with the loads written out. -/
theorem deliverLoad_clean {s : State} {c : CoreId} {l : Load} {rest : List Load} {q : Fin 16} (hloads : (s.core c).loads = l :: rest)
    (h : l.dest = .queue q) (e : QEntry) : s.deliverLoad c l e [] = s.onCore c fun k =>
      { k.arrive q e with loads := (l :: rest).filter fun x => x.id ≠ l.id } := by
  rw [deliverLoad_queue h, noteSev_nil]
  exact onCore_congr (by rw [hloads])

theorem exec_loadDataArrival {s : State} {c : CoreId} (h : s.Unhindered (unitOfCore c)) :
    exec (.loadDataArrival c) s = .next (s.loadArrives c) :=
  congrArg Host.Outcome.next (asRequester_of_unhindered h _)

section
variable {s v : State} {c : CoreId} {l : Load} {rest : List Load} (hloads : (s.core c).loads = l :: rest)
include hloads

theorem loadArrives_of_pending (hg : s.gather c l = (v, .pending)) : s.loadArrives c = v := by
  rw [State.loadArrives, hloads]
  dsimp only
  rw [hg]

theorem loadArrives_of_fault {cause : Cause} (hg : s.gather c l = (v, .fault cause)) :
    s.loadArrives c = v.lateFault c l.seq l.id l.before cause l.va := by
  rw [State.loadArrives, hloads]
  dsimp only
  rw [hg]

theorem loadArrives_of_violation {k : VKind} {va : Word} (hg : s.gather c l = (v, .violation k va)) :
    s.loadArrives c = v.lateViolation c l k va := by
  rw [State.loadArrives, hloads]
  dsimp only
  rw [hg]

theorem loadArrives_of_pad {c' : CoreId} {r : Fin 2048} {x : Nat} {cls : List (Word × Nat × Bool)} (hsrc : l.src = .pad c' r)
    (hg : s.gather c l = (v, .data x cls)) : s.loadArrives c =
      v.deliverLoad c l ⟨(v.padRow c' r).tag.setWidth 8, BitVec.ofNat 2048 x, (v.padRow c' r).mark⟩ cls := by
  rw [State.loadArrives, hloads]
  dsimp only
  rw [hg]
  dsimp only
  rw [hsrc]

/-- Rows of the stash or lines that are not expanded as a block. -/
theorem loadArrives_of_rows {x : Nat} {cls : List (Word × Nat × Bool)} (hsrc : (∃ rows, l.src = .stash rows) ∨ ∃ ps, l.src = .lines ps)
    (hplain : (l.fmt.conv && isBmv l.fmt.page) = false) (hg : s.gather c l = (v, .data x cls)) :
    s.loadArrives c = v.deliverLoad c l { entryOf l x with mark := v.loadMark c l } cls := by
  rw [State.loadArrives, hloads]
  dsimp only
  rw [hg]
  dsimp only
  obtain ⟨rows, hsrc⟩ | ⟨ps, hsrc⟩ := hsrc <;> rw [hsrc, if_neg (by simp [hplain])]

end

/-- What a row of a scratchpad gives. -/
theorem gather_pad {s : State} (herrs : s.errs = []) {c c' : CoreId} {l : Load} {r : Fin 2048} (hsrc : l.src = .pad c' r)
    (hflips : (s.padRow c' r).flips = []) : s.gather c l = (s, .data (s.padRow c' r).data.toNat []) := by
  rw [State.gather, hsrc]
  dsimp only
  rw [readPad_of_clean herrs hflips]
  rfl

/-- What one row of the stash gives, as it stands. -/
theorem gather_stash {s : State} (herrs : s.errs = []) {c : CoreId} {l : Load} {pa : Nat} {h : StashRow}
    (hsrc : l.src = .stash [(rowOf l.va, pa)]) (hconv : l.fmt.conv = false) (hdiscard : l.discard = false)
    (hrow : (s.core c).stashAt l.va = some h) (htag : (s.padRow c h.row).tag = heldCode l.fmt.page)
    (hflips : (s.padRow c h.row).flips = []) : s.gather c l = (s, .data (s.padRow c h.row).data.toNat []) := by
  have hzero : bitsFrom (rowOf l.va) (rowOf l.va) = 0 := by simp [bitsFrom]
  simp [State.gather, hsrc, hdiscard, hconv, State.gatherRows, stashAt_rowOf, hrow, htag, readPad_of_clean herrs hflips, hzero]

/-- A row refused for its layout (R148 check 7). -/
theorem gather_of_refused {s : State} {c : CoreId} {l : Load} {pa : Nat} {rows : List (Word × Nat)}
    (hsrc : l.src = .stash ((rowOf l.va, pa) :: rows)) (hdiscard : l.discard = false) (hrefused : (s.core c).refusedAt l.va = true) :
    s.gather c l = (s, .fault .layoutMismatch) := by
  obtain ⟨hnone, hcoming⟩ := stashAt_of_refusedAt hrefused
  simp [State.gather, hsrc, hdiscard, State.gatherRows, stashAt_rowOf, comingAt_rowOf, refusedAt_rowOf, hnone, hcoming, hrefused]

/-- The mark that goes with a row of the stash as it stands. -/
theorem loadMark_stash {s : State} {c : CoreId} {l : Load} {rows : List (Word × Nat)} {h : StashRow} (hsrc : l.src = .stash rows)
    (hconv : l.fmt.conv = false) (hrow : (s.core c).stashAt l.va = some h) :
    s.loadMark c l = if l.fmt.page = 0x1A then (s.padRow c h.row).mark else 0 := by
  by_cases hp : l.fmt.page = 0x1A <;> simp [State.loadMark, hconv, hsrc, hrow, hp]

/-! ## EX's pushes (R119) -/

theorem mem_of_firstBy {α : Type} {before : α → α → Bool} {xs : List α} {y : α} (h : firstBy before xs = some y) : y ∈ xs := by
  induction xs with
  | nil => cases h
  | cons x xs ih =>
    rw [firstBy] at h
    split at h
    · cases h
      exact List.mem_cons_self
    next z hz =>
      split at h <;> cases h
      · exact List.mem_cons_of_mem _ (ih hz)
      · exact List.mem_cons_self

/-- The least due push, of those due at once the first. -/
theorem firstBy_due {pre post : List ExPush} {p : ExPush} (hpre : ∀ x ∈ pre, p.due < x.due) (hpost : ∀ x ∈ post, p.due ≤ x.due) :
    firstBy (fun a b : ExPush => decide (a.due < b.due)) (pre ++ p :: post) = some p := by
  induction pre with
  | nil =>
    rw [List.nil_append, firstBy]
    split
    · rfl
    next y hy => rw [if_neg (by simpa using hpost y (mem_of_firstBy hy))]
  | cons x pre ih =>
    rw [List.forall_mem_cons] at hpre
    rw [List.cons_append, firstBy, ih hpre.2]
    exact if_pos (decide_eq_true hpre.1)

theorem erase_of_due {pre post : List ExPush} {p : ExPush} (hpre : ∀ x ∈ pre, p.due < x.due) :
    (pre ++ p :: post).erase p = pre ++ post := by
  rw [List.erase_append_right _ fun hp => lt_irrefl _ (hpre p hp), List.erase_cons_head]

section
variable {s : State} {c : CoreId} {pre post : List ExPush} {p : ExPush} (hpushes : (s.core c).ex.pushes = pre ++ p :: post)
  (hpre : ∀ x ∈ pre, p.due < x.due) (hpost : ∀ x ∈ post, p.due ≤ x.due)
include hpushes hpre hpost

theorem nextPush_eq : (s.core c).ex.nextPush = some p := by
  rw [ExSt.nextPush, hpushes, firstBy_due hpre hpost]

theorem exPush_of_early (h : s.clkOf c < p.due) : s.exPush c = s := by
  simp only [State.exPush, nextPush_eq hpushes hpre hpost, if_pos h]

theorem exPush_data (h : p.due ≤ s.clkOf c) {q : Fin 4} {e : QEntry} (hout : p.out = .data q e) :
    s.exPush c = s.onCore c fun k => { k.arrive (dstQueue q) e with ex := { k.ex with pushes := pre ++ post } } := by
  simp only [State.exPush, nextPush_eq hpushes hpre hpost, if_neg (not_lt.2 h), hout]
  refine onCore_congr ?_
  rw [hpushes, erase_of_due hpre]
  rfl

theorem exPush_bit (h : p.due ≤ s.clkOf c) {n : Fin 4} {b : Bool} (hout : p.out = .bit n b) :
    s.exPush c = s.onCore c fun k => { k with bqs := k.bqs.set n (k.bqs[n] ++ [b]), ex := { k.ex with pushes := pre ++ post } } := by
  simp only [State.exPush, nextPush_eq hpushes hpre hpost, if_neg (not_lt.2 h), hout]
  refine onCore_congr ?_
  rw [hpushes, erase_of_due hpre]
  rfl

end

/-! ## Slices (R178-R180, R213) -/

section
variable {s : State} {n : Fin 128} {r : SliceReq} {rest : List SliceReq} (hqueue : s.slices[n].queue = r :: rest)
include hqueue

theorem sliceService_hit (hhit : s.hitsL2 n r = true) (hroom : s.slices[n].miss.length < 32) :
    s.sliceService n = ((s.onSlice n fun x => { x with queue := rest }).serve r).grant n := by
  simp only [State.sliceService, hqueue, if_neg (not_le.2 hroom), hhit, if_true]

theorem sliceService_miss (hhit : s.hitsL2 n r = false) (hroom : s.slices[n].miss.length < 32) :
    s.sliceService n = (s.onSlice n fun x => { x with queue := rest, miss := x.miss ++ [r] }).grant n := by
  simp only [State.sliceService, hqueue, if_neg (not_le.2 hroom), hhit, Bool.false_eq_true, if_false]
  simp [State.onSlice]

theorem sliceService_full (hfull : 32 ≤ s.slices[n].miss.length) : s.sliceService n = s := by
  simp only [State.sliceService, hqueue, if_pos hfull]

end

theorem sliceService_empty {s : State} {n : Fin 128} (hqueue : s.slices[n].queue = []) : s.sliceService n = s.grant n := by
  simp only [State.sliceService, hqueue]

/-- No request goes before an earlier one for its line (R213). -/
theorem hitsL2_of_missing {s : State} {n : Fin 128} {r : SliceReq} (h : ∃ x ∈ s.slices[n].miss, x.pa / 128 = r.pa / 128) :
    s.hitsL2 n r = false := by
  have hany : (s.slices[n].miss.any fun x => x.pa / 128 == r.pa / 128) = true := by
    rw [List.any_eq_true]
    obtain ⟨x, hx, hline⟩ := h
    exact ⟨x, hx, beq_iff_eq.2 hline⟩
  simp only [State.hitsL2, hany, Bool.not_true, Bool.and_false]

theorem missFill_cons {s : State} {n : Fin 128} {r : SliceReq} {rest : List SliceReq} (hmiss : s.slices[n].miss = r :: rest) :
    s.missFill n = (s.onSlice n fun x => { x with miss := rest }).serve r := by
  simp only [State.missFill, hmiss]

section
variable {s v : State} {r : SliceReq}

theorem serve_read {id : Nat} {hint : Hint} (hop : r.op = .read id hint) {d : BitVec 1024} {cls : Classed}
    (h : s.homeRead ⟨r.ctx, r.pc, false⟩ r.pa r.mask r.code hint = (v, .got d cls)) : s.serve r = v.deliverPart r id (.got d cls) := by
  simp only [State.serve, hop, h]

theorem serve_read_refused {id : Nat} {hint : Hint} (hop : r.op = .read id hint)
    (h : s.homeRead ⟨r.ctx, r.pc, false⟩ r.pa r.mask r.code hint = (v, .refused)) : s.serve r = v.deliverPart r id .refused := by
  simp only [State.serve, hop, h]

theorem serve_write {row : Fin 2048} {data : BitVec 1024} {filled : Bool} {o : WriteOut} (hop : r.op = .write row data filled)
    (hhbm : inHbm r.pa = true) (h : s.homeWrite ⟨r.ctx, r.pc, false⟩ r.pa r.mask data r.code .none filled = (v, o)) :
    s.serve r = v.freeRow r.core row := by
  simp only [State.serve, hop, hhbm, if_true, h]

end

end Sys2Proof.Laws
end

section
/-! SUPPORT. Stores are performed: what each writes, waits for and traps on (R158, R160, R165, R172). -/

namespace Sys2Proof.Laws

open Sys2Proof.Machine

/-! ## Writes of rows (R165, R172, R364) -/

/-- A row of which some bytes have been written. -/
def merged (p : PadRow) (data mask : Row) : PadRow := { p with data := (p.data &&& ~~~mask) ||| (data &&& mask), flips := [] }

/-- Some bytes of a row without errors are written. -/
theorem mergePad_of_clean {s : State} {c : CoreId} {r : Fin 2048} (hflips : (s.padRow c r).flips = []) (data mask : Row) (pc : Word) :
    s.mergePad c r data mask pc = s.setPad c r (merged (s.padRow c r) data mask) := by
  rw [State.mergePad, List.foldl_fixed' fun i => by simp [hflips, flipsOf]]
  simp [hflips, merged]

/-- Rows of the stash of which one has been written whole. -/
def stashWhole (k : Core) (row : Fin 2048) : List StashRow :=
  k.stash.map fun y => if y.row = row then
      { y with dirty := 0xFF, filled := false, use := if y.use = .writing then .writing
                                      else if (k.windowOf y.va).isSome then .filled else .held }
    else y

/-- Rows of the stash of which some sectors of one have been written. -/
def stashDirty (k : Core) (row : Fin 2048) (sec : BitVec 8) : List StashRow :=
  k.stash.map fun y => if y.row = row then { y with dirty := y.dirty ||| sec } else y

theorem windowOf_stash (k : Core) (st : List StashRow) (va : Word) : Core.windowOf { k with stash := st } va = k.windowOf va := rfl

theorem ready_stash (k : Core) (row : Fin 2048) : Core.ready { k with stash := k.stash.map fun x =>
      if x.row == row then { x with dirty := 0xFF, filled := false } else x } row = { k with stash := stashWhole k row } := by
  simp only [Core.ready, List.map_map, windowOf_stash]
  refine congrArg (fun st => ({ k with stash := st } : Core)) (List.map_congr_left fun y _ => ?_)
  by_cases hrow : y.row = row
  · by_cases huse : y.use = .writing <;> simp [hrow, huse]
  · simp [hrow]

/-- A row that an STRM has taken, or one whose fill was refused, is written whole. -/
theorem storeWhole_eq {s : State} (herrs : s.errs = []) {c : CoreId} {r : StashRow} (hdrop : r.drop = false) (d : Row) :
    s.storeWhole c r d = s.onCore c fun k => { k with
      pad := k.pad.set r.row ⟨heldCode r.code, s.rowMark r.code r.pa, d, []⟩, stash := stashWhole k r.row } := by
  simp only [State.storeWhole, hdrop, Bool.false_eq_true, if_false, writePad_of_clean herrs, State.setPad]
  rw [onCore_onCore]
  exact onCore_congr (ready_stash { s.core c with pad := _ } r.row)

theorem getLsbD_merged (p : PadRow) (data mask : Row) {b : Nat} (hb : b < 2048) : (merged p (data &&& mask) mask).data.getLsbD b =
    if mask.getLsbD b then data.getLsbD b else p.data.getLsbD b := by
  cases hm : mask[b] <;> simp [merged, hb, hm, BitVec.getLsbD_eq_getElem]

theorem storeRow_eq {s : State} {c : CoreId} {va : Word} {r : StashRow} (hrow : (s.core c).stashAt va = some r) (hdrop : r.drop = false)
    (hflips : (s.padRow c r.row).flips = []) (data mask : Row) (pc : Word) : s.storeRow c va data mask pc = s.onCore c fun k => { k with
      pad := k.pad.set r.row (merged (s.padRow c r.row) data mask)
      stash := stashDirty k r.row (maskSectors mask) } := by
  simp only [State.storeRow, hrow, hdrop, Bool.false_eq_true, if_false, mergePad_of_clean hflips, State.setPad]
  rw [onCore_onCore]
  simp only [beq_iff_eq]
  rfl

/-! ## Stores to discarded pages (R149) -/

theorem use_of_ready {r : StashRow} (h : r.ready = true) : r.use = .filled ∨ r.use = .held := by
  simpa [StashRow.ready] using h

theorem not_pending_of_ready {r : StashRow} (h : r.ready = true) : r.pending = false := by
  obtain h | h := use_of_ready h <;> simp [StashRow.pending, h]

theorem not_taken_of_ready {r : StashRow} (h : r.ready = true) : r.use ≠ .taken := by
  obtain h | h := use_of_ready h <;> simp [h]

/-- Rows that have their contents take nothing from a store that is dropped. -/
theorem dropStore_of_ready {s : State} {c : CoreId} {x : Store}
    (hready : ∀ y ∈ x.rows, ((s.core c).rowAt y.1).all StashRow.ready = true) : s.dropStore c x = s.finishStore c x := by
  have hcome : (x.rows.any fun y => ((s.core c).rowAt y.1).any fun r => r.pending && r.use != .taken) = false := by
    rw [List.any_eq_false]
    intro y hy
    have hall := hready y hy
    cases hrow : (s.core c).rowAt y.1 with
    | none => simp
    | some r => simp [not_pending_of_ready (r := r) (by simpa [hrow] using hall)]
  rw [State.dropStore, hcome, if_neg Bool.false_ne_true]
  refine congrArg (fun t : State => t.finishStore c x) ?_
  generalize x.rows = ys at hready
  induction ys with
  | nil => rfl
  | cons y ys ih =>
    obtain ⟨hy, hys⟩ := List.forall_mem_cons.1 hready
    rw [List.foldl_cons]
    cases hrow : (s.core c).rowAt y.1 with
    | none => exact ih hys
    | some r =>
      dsimp only
      rw [if_neg (not_taken_of_ready (r := r) (by simpa [hrow] using hy))]
      exact ih hys

/-! ## Stores through the stash (R160, R165, R172) -/

/-- No row of the store's address waits for an STRM, or is refused to one. -/
def NotTaken (k : Core) (va : Word) (whole : Bool) : Prop :=
  ∀ h, k.rowAt va = some h → whole = false ∨ h.use ≠ .taken ∧ h.use ≠ .refused

section
variable {s : State} {c : CoreId} {x : Store} {e : QEntry} {whole : Bool}

theorem performStash_of_notTaken (h : NotTaken (s.core c) x.va whole) : s.performStash c x e whole =
    if (x.rows.any fun y => (s.core c).comingAt y.1) then s else s.performRows c x e := by
  rw [State.performStash]
  cases hrow : (s.core c).rowAt x.va with
  | none => rfl
  | some r =>
    dsimp only
    refine if_neg ?_
    obtain hw | ⟨ht, hr⟩ := h r hrow
    · simp [hw]
    · simp [ht, hr]

theorem performStash_of_coming (hcoming : ∃ y ∈ x.rows, (s.core c).comingAt y.1 = true) (h : NotTaken (s.core c) x.va whole) :
    s.performStash c x e whole = s := by
  rw [performStash_of_notTaken h, if_pos (List.any_eq_true.2 hcoming)]

theorem performStash_of_come (hcome : ∀ y ∈ x.rows, (s.core c).comingAt y.1 = false) (h : NotTaken (s.core c) x.va whole) :
    s.performStash c x e whole = s.performRows c x e := by
  rw [performStash_of_notTaken h, if_neg (by simpa using hcome)]

theorem performStash_whole {r : StashRow} (hrow : (s.core c).rowAt x.va = some r) (huse : r.use = .taken ∨ r.use = .refused) :
    s.performStash c x e true = (s.storeWhole c r (plainBits x.fmt.page e.data)).finishStore c x := by
  rw [State.performStash, hrow]
  dsimp only
  exact if_pos (by obtain h | h := huse <;> simp [h])

theorem notTaken_of_stashAt {k : Core} {va : Word} {h : StashRow} (hrow : k.stashAt va = some h) : NotTaken k va whole := by
  intro r hr
  obtain ⟨hat, hready⟩ := stashAt_eq_some.1 hrow
  obtain rfl : h = r := Option.some.inj (hat.symm.trans hr)
  obtain h | h := use_of_ready hready <;> simp [h]

theorem notTaken_of_come {k : Core} {va : Word} (hcome : k.comingAt va = false) (hnot : whole = true → k.refusedAt va = false) :
    NotTaken k va whole := by
  intro r hr
  cases whole with
  | false => exact .inl rfl
  | true =>
    have hrefused := hnot rfl
    rw [Core.comingAt, hr, Option.any_some] at hcome
    rw [Core.refusedAt, hr, Option.any_some, beq_eq_false_iff_ne] at hrefused
    exact .inr ⟨fun ht => by simp [StashRow.pending, ht] at hcome, hrefused⟩

/-- A part of a row that the stash holds is written. -/
theorem performRows_one {pa : Nat} {h : StashRow} (hconv : x.fmt.conv = false) (hrows : x.rows = [(rowOf x.va, pa)])
    (hrow : (s.core c).stashAt x.va = some h) (hdrop : h.drop = false) (htag : (s.padRow c h.row).tag = heldCode x.fmt.page)
    (hflips : (s.padRow c h.row).flips = []) : s.performRows c x e =
      (s.onCore c fun k => { k with
        pad := k.pad.set h.row
          (merged (s.padRow c h.row) (plainBits x.fmt.page e.data &&& granMask x.gran x.va) (granMask x.gran x.va))
        stash := stashDirty k h.row (maskSectors (granMask x.gran x.va)) }).finishStore c x := by
  have hat : (s.core c).stashAt (rowOf x.va) = some h := (stashAt_rowOf _ _).trans hrow
  have hbits : s.blockBits c x.fmt.page x.rows = some (s.padRow c h.row).data.toNat := by
    simp [State.blockBits, hrows, hat, htag]
  have hzero : bitsFrom (rowOf x.va) (rowOf x.va) = 0 := by simp [bitsFrom]
  rw [State.performRows, hbits]
  simp only [hconv, hrows, Bool.not_false, if_true, State.storeRows, hzero, Nat.shiftRight_zero, BitVec.ofNat_toNat,
    BitVec.setWidth_eq, storeRow_eq hat hdrop hflips]
  refine if_neg ?_
  simp [State.endedBy]

/-- A store whose rows are not all at hand with their layout (R148 check 7). -/
theorem performRows_none (hnone : s.blockBits c x.fmt.page x.rows = none) :
    s.performRows c x e = s.lateFault c .st x.id x.before .layoutMismatch x.va := by
  rw [State.performRows, hnone]

end

/-! ## The oldest store (R158) -/

/-- A change of a core that leaves its stores, and then the end of the oldest of them. -/
theorem finishStore_onCore {s : State} {c : CoreId} {f : Core → Core} {x : Store} {rest : List Store}
    (hstores : (f (s.core c)).stores = x :: rest) : (s.onCore c f).finishStore c x = s.onCore c fun k =>
      { (f k).onQueue x.q DQueue.pop with stores := (x :: rest).filter fun y => y.id ≠ x.id } := by
  rw [← hstores, State.finishStore, onCore_onCore]
  simp only [bne_eq_decide_ne]
  exact onCore_congr rfl

theorem finishStore_eq {s : State} {c : CoreId} {x : Store} {rest : List Store} (hstores : (s.core c).stores = x :: rest) :
    s.finishStore c x = s.onCore c fun k =>
      { k.onQueue x.q DQueue.pop with stores := (x :: rest).filter fun y => y.id ≠ x.id } := by
  rw [← hstores]
  simp only [State.finishStore, bne_eq_decide_ne]
  exact onCore_congr rfl

theorem performStore_nil {s : State} {c : CoreId} (hstores : (s.core c).stores = []) : s.performStore c = s := by
  simp only [State.performStore, hstores]

section
variable {s : State} {c : CoreId} {x : Store} {rest : List Store} {e : QEntry} {es : List QEntry}
  (hstores : (s.core c).stores = x :: rest) (hentries : (s.core c).queues[x.q].entries = e :: es)
include hstores hentries

theorem performStore_pad (herrs : s.errs = []) {r : Fin 2048} (hop : x.op = .pad r) : s.performStore c = s.onCore c fun k =>
      { k.onQueue x.q DQueue.pop with
        pad := k.pad.set r ⟨e.tag.setWidth 6, e.mark, e.data, []⟩, stores := (x :: rest).filter fun y => y.id ≠ x.id } := by
  simp only [State.performStore, hstores, hentries, hop, writePad_of_clean herrs, State.setPad]
  exact finishStore_onCore hstores

theorem performStore_send {c' : CoreId} {r : Fin 2048} (hop : x.op = .send c' r) : s.performStore c = s.onCore c fun k =>
      { k.onQueue x.q DQueue.pop with
        sends := k.sends ++ [⟨c', r, e, e.mark⟩], stores := (x :: rest).filter fun y => y.id ≠ x.id } := by
  simp only [State.performStore, hstores, hentries, hop]
  exact finishStore_onCore hstores

theorem performStore_stash {whole : Bool} (hop : x.op = .stash whole false) :
    s.performStore c = s.performStash c x e whole := by
  simp only [State.performStore, hstores, hentries, hop]

/-- A store to a discarded page that took no row (R149). -/
theorem performStore_dropped {whole : Bool} (hop : x.op = .stash whole true)
    (hready : ∀ y ∈ x.rows, ((s.core c).rowAt y.1).all StashRow.ready = true) : s.performStore c = s.onCore c fun k =>
      { k.onQueue x.q DQueue.pop with stores := (x :: rest).filter fun y => y.id ≠ x.id } := by
  simp only [State.performStore, hstores, hentries, hop]
  rw [dropStore_of_ready hready]
  exact finishStore_eq hstores

/-- A row that an STRM took, or one whose fill was refused, is written whole. -/
theorem performStore_whole (herrs : s.errs = []) (hop : x.op = .stash true false) {h : StashRow}
    (hrow : (s.core c).rowAt x.va = some h) (huse : h.use = .taken ∨ h.use = .refused) (hdrop : h.drop = false) :
    s.performStore c = s.onCore c fun k => { k.onQueue x.q DQueue.pop with
      pad := k.pad.set h.row ⟨heldCode h.code, s.rowMark h.code h.pa, plainBits x.fmt.page e.data, []⟩
      stash := stashWhole k h.row, stores := (x :: rest).filter fun y => y.id ≠ x.id } := by
  rw [performStore_stash hstores hentries hop, performStash_whole hrow huse, storeWhole_eq herrs hdrop]
  exact finishStore_onCore hstores

theorem performStore_coming {whole : Bool} (hop : x.op = .stash whole false) (hcoming : ∃ y ∈ x.rows, (s.core c).comingAt y.1 = true)
    (hnot : NotTaken (s.core c) x.va whole) : s.performStore c = s := by
  rw [performStore_stash hstores hentries hop, performStash_of_coming hcoming hnot]

theorem performStore_one {whole : Bool} {pa : Nat} {h : StashRow} (hop : x.op = .stash whole false) (hconv : x.fmt.conv = false)
    (hrows : x.rows = [(rowOf x.va, pa)]) (hrow : (s.core c).stashAt x.va = some h) (hdrop : h.drop = false)
    (htag : (s.padRow c h.row).tag = heldCode x.fmt.page) (hflips : (s.padRow c h.row).flips = []) :
    s.performStore c = s.onCore c fun k => { k.onQueue x.q DQueue.pop with
      pad := k.pad.set h.row
        (merged (s.padRow c h.row) (plainBits x.fmt.page e.data &&& granMask x.gran x.va) (granMask x.gran x.va))
      stash := stashDirty k h.row (maskSectors (granMask x.gran x.va)), stores := (x :: rest).filter fun y => y.id ≠ x.id } := by
  have hcome : ∀ y ∈ x.rows, (s.core c).comingAt y.1 = false := by
    simp [hrows, comingAt_rowOf, comingAt_of_stashAt hrow]
  rw [performStore_stash hstores hentries hop, performStash_of_come hcome (notTaken_of_stashAt hrow),
    performRows_one hconv hrows hrow hdrop htag hflips]
  exact finishStore_onCore hstores

theorem performStore_fault {whole : Bool} (hop : x.op = .stash whole false) (hcome : ∀ y ∈ x.rows, (s.core c).comingAt y.1 = false)
    (hnot : NotTaken (s.core c) x.va whole) (hnone : s.blockBits c x.fmt.page x.rows = none) :
    s.performStore c = s.lateFault c .st x.id x.before .layoutMismatch x.va := by
  rw [performStore_stash hstores hentries hop, performStash_of_come hcome hnot, performRows_none hnone]

end

end Sys2Proof.Laws
end

section
/-! SUPPORT. Every arrival comes to the end that the statement names (R119, R158, R172, R174, R178-R180, R213). -/

namespace Sys2Proof.Laws

open Sys2Proof.Machine

/-! ## Loads (R158, R174) -/

/-- The entry of a load of a row as it stands. -/
theorem entryOf_of_plain {l : Load} (hconv : l.fmt.conv = false) (d : Row) : entryOf l d.toNat = ⟨l.fmt.code.setWidth 8, d, 0⟩ := by
  simp [entryOf, hconv]

section
variable {s v : State} {c : CoreId} {l : Load} {rest : List Load} (hfree : s.Unhindered (unitOfCore c))
include hfree

theorem loadDataArrival_nil (hloads : (s.core c).loads = []) : exec (.loadDataArrival c) s = .next s := by
  rw [exec_loadDataArrival hfree, State.loadArrives, hloads]

variable (hloads : (s.core c).loads = l :: rest)
include hloads

theorem loadDataArrival_pad (herrs : s.errs = []) {c' : CoreId} {r : Fin 2048} {q : Fin 16} (hsrc : l.src = .pad c' r)
    (hdest : l.dest = .queue q) (hflips : (s.padRow c' r).flips = []) : exec (.loadDataArrival c) s = .next (s.onCore c fun k =>
      { k.arrive q ⟨(s.padRow c' r).tag.setWidth 8, (s.padRow c' r).data, (s.padRow c' r).mark⟩ with
        loads := (l :: rest).filter fun x => x.id ≠ l.id }) := by
  rw [exec_loadDataArrival hfree, loadArrives_of_pad hloads hsrc (gather_pad herrs hsrc hflips), BitVec.ofNat_toNat,
    BitVec.setWidth_eq, deliverLoad_clean hloads hdest]

theorem loadDataArrival_stash (herrs : s.errs = []) {q : Fin 16} {pa : Nat} {h : StashRow} (hsrc : l.src = .stash [(rowOf l.va, pa)])
    (hdest : l.dest = .queue q) (hconv : l.fmt.conv = false) (hdiscard : l.discard = false)
    (hrow : (s.core c).stashAt l.va = some h) (htag : (s.padRow c h.row).tag = heldCode l.fmt.page)
    (hflips : (s.padRow c h.row).flips = []) : exec (.loadDataArrival c) s = .next (s.onCore c fun k =>
      { k.arrive q ⟨l.fmt.code.setWidth 8, (s.padRow c h.row).data, if l.fmt.page = 0x1A then (s.padRow c h.row).mark else 0⟩ with
        loads := (l :: rest).filter fun x => x.id ≠ l.id }) := by
  rw [exec_loadDataArrival hfree, loadArrives_of_rows hloads (.inl ⟨_, hsrc⟩) (by rw [hconv, Bool.false_and])
    (gather_stash herrs hsrc hconv hdiscard hrow htag hflips), deliverLoad_clean hloads hdest, loadMark_stash hsrc hconv hrow,
    entryOf_of_plain hconv]

theorem loadDataArrival_lines {q : Fin 16} {ps : List Part} {x : Nat} {cls : List (Word × Nat × Bool)} (hsrc : l.src = .lines ps)
    (hdest : l.dest = .queue q) (hplain : (l.fmt.conv && isBmv l.fmt.page) = false) (hg : s.gather c l = (v, .data x cls)) :
    exec (.loadDataArrival c) s = .next ((v.onCore c fun k =>
      { k.arrive q { entryOf l x with mark := v.loadMark c l } with
        loads := k.loads.filter fun x => x.id ≠ l.id }).noteSev c l.seq cls) := by
  rw [exec_loadDataArrival hfree, loadArrives_of_rows hloads (.inr ⟨_, hsrc⟩) hplain hg, deliverLoad_queue hdest]

theorem loadDataArrival_fault {cause : Cause} (hg : s.gather c l = (v, .fault cause)) (hq : l.seq ≠ .ex)
    (hin : l.before.inTrap = false) : Runs (.loadDataArrival c) s fun u => TakenBack (v.core c) (u.core c) l.seq l.id ∧
      (u.core c).seq l.seq = LateTrap ((v.core c).seq l.seq) l.before cause l.va ∧
      (∀ q, q ≠ l.seq → (u.core c).seq q = (v.core c).seq q) ∧ (∀ d, d ≠ c → u.core d = v.core d) ∧ SameBytes v u := by
  obtain ⟨hback, -, hseq, hothers, hcores, hbytes⟩ := faultedLate_lateFault (s := v) (c := c) hq hin l.id cause l.va
  refine ⟨_, exec_loadDataArrival hfree, ?_⟩
  rw [loadArrives_of_fault hloads hg]
  exact ⟨hback, hseq, hothers, hcores, hbytes⟩

theorem loadDataArrival_violation {k : VKind} {va : Word} (hg : s.gather c l = (v, .violation k va)) (hclean : v.RecordClean) :
    Runs (.loadDataArrival c) s fun u => TakenBack (v.core c) (u.core c) l.seq l.id ∧
      ((u.core c).seq l.seq).run = .frozen ⟨k, 0, BitVec.ofNat 8 l.seq.num.val, BitVec.ofNat 16 c.val, (v.core c).ctx, l.pc, va⟩ ∧
      ((u.core c).seq l.seq).pc = l.pc ∧ ((u.core c).seq l.seq).regs = l.before.regs ∧ u.vlhead = v.vlhead + 1 := by
  obtain ⟨hback, hseq, hhead⟩ := lateViolation_spec hclean c l k va
  refine ⟨_, exec_loadDataArrival hfree, ?_⟩
  rw [loadArrives_of_violation hloads hg]
  refine ⟨hback, ?_, ?_, ?_, hhead⟩ <;> rw [hseq] <;> rfl

end

/-! ## Stores (R158, R160, R172) -/

theorem padRow_onCore (s : State) (c : CoreId) (f : Core → Core) (r : Fin 2048) :
    (s.onCore c f).padRow c r = (f (s.core c)).pad[r] := by
  rw [State.padRow, State.core_onCore]

theorem padRow_set (pad : Vector PadRow 2048) (r : Fin 2048) (p : PadRow) : (pad.set r p)[r] = p := Vector.getElem_set_self _

theorem exec_storePerformed (c : CoreId) (s : State) : exec (.storePerformed c) s = .next (s.performStore c) := rfl

section
variable {s : State} {c : CoreId} {x : Store} {rest : List Store} {e : QEntry} {es : List QEntry}
  (hstores : (s.core c).stores = x :: rest) (hentries : (s.core c).queues[x.q].entries = e :: es)
include hstores hentries

theorem storePerformed_whole (herrs : s.errs = []) (hop : x.op = .stash true false) {h : StashRow}
    (hrow : (s.core c).rowAt x.va = some h) (huse : h.use = .taken ∨ h.use = .refused) (hdrop : h.drop = false) :
    Runs (.storePerformed c) s fun u => u = s.onCore c (fun k =>
        { k.onQueue x.q DQueue.pop with
          pad := k.pad.set h.row ⟨heldCode h.code, s.rowMark h.code h.pa, plainBits x.fmt.page e.data, []⟩
          stash := (u.core c).stash, stores := (x :: rest).filter fun y => y.id ≠ x.id }) ∧
      (u.core c).stash = stashWhole (s.core c) h.row := by
  refine ⟨_, exec_storePerformed c s, ?_⟩
  rw [performStore_whole hstores hentries herrs hop hrow huse hdrop]
  exact ⟨onCore_congr (by rw [State.core_onCore]), by rw [State.core_onCore]⟩

theorem storePerformed_one {whole : Bool} {pa : Nat} {h : StashRow} (hop : x.op = .stash whole false) (hconv : x.fmt.conv = false)
    (hrows : x.rows = [(rowOf x.va, pa)]) (hrow : (s.core c).stashAt x.va = some h) (hdrop : h.drop = false)
    (htag : (s.padRow c h.row).tag = heldCode x.fmt.page) (hflips : (s.padRow c h.row).flips = []) :
    Runs (.storePerformed c) s fun u => u = s.onCore c (fun k =>
        { k.onQueue x.q DQueue.pop with
          pad := (u.core c).pad, stash := (u.core c).stash, stores := (x :: rest).filter fun y => y.id ≠ x.id }) ∧
      (∀ r, r ≠ h.row → u.padRow c r = s.padRow c r) ∧ (u.padRow c h.row).tag = (s.padRow c h.row).tag ∧
      (∀ b, b < 2048 → (u.padRow c h.row).data.getLsbD b =
        if (granMask x.gran x.va).getLsbD b then (plainBits x.fmt.page e.data).getLsbD b
        else (s.padRow c h.row).data.getLsbD b) ∧
      (u.core c).stash = stashDirty (s.core c) h.row (maskSectors (granMask x.gran x.va)) := by
  refine ⟨_, exec_storePerformed c s, ?_⟩
  rw [performStore_one hstores hentries hop hconv hrows hrow hdrop htag hflips]
  refine ⟨onCore_congr (by rw [State.core_onCore]), fun r hr => ?_, ?_, fun b hb => ?_, by rw [State.core_onCore]⟩
  · rw [padRow_onCore]
    exact Vector.getElem_set_ne h.row.isLt r.isLt fun heq => hr (Fin.ext heq.symm)
  · rw [padRow_onCore, padRow_set]
    rfl
  · rw [padRow_onCore, padRow_set]
    exact getLsbD_merged _ _ _ hb

theorem storePerformed_fault {whole : Bool} (hop : x.op = .stash whole false) (hcome : ∀ y ∈ x.rows, (s.core c).comingAt y.1 = false)
    (hnot : NotTaken (s.core c) x.va whole) (hnone : s.blockBits c x.fmt.page x.rows = none) (hin : x.before.inTrap = false) :
    Runs (.storePerformed c) s fun u => TakenBack (s.core c) (u.core c) .st x.id ∧
      (u.core c).seq .st = LateTrap ((s.core c).seq .st) x.before .layoutMismatch x.va ∧
      (∀ y ∈ (u.core c).stores, y.id < x.id) ∧ SameBytes s u := by
  obtain ⟨hback, hleft, hseq, -, -, hbytes⟩ :=
    faultedLate_lateFault (s := s) (c := c) (q := .st) (by decide) hin x.id .layoutMismatch x.va
  refine ⟨_, exec_storePerformed c s, ?_⟩
  rw [performStore_fault hstores hentries hop hcome hnot hnone]
  refine ⟨hback, hseq, fun y hy => ?_, hbytes⟩
  rw [hleft] at hy
  simpa using (List.mem_filter.1 hy).2

end

/-! ## The statement -/

/-- Settles O41, clause by clause from what each arrival comes to. -/
theorem arrivals : Obligations.Arrivals := by
  unfold Obligations.Arrivals
  refine ⟨fun la h => hbmSlot_spec h, fun c s hfree hloads => loadDataArrival_nil hfree hloads,
    fun c c' r q l rest s herrs hfree hloads hsrc hdest hflips => loadDataArrival_pad hfree hloads herrs hsrc hdest hflips,
    fun c q l rest pa h s herrs hfree hloads hsrc hdest hconv hdiscard hrow htag hflips =>
      loadDataArrival_stash hfree hloads herrs hsrc hdest hconv hdiscard hrow htag hflips,
    fun c l rest s v hfree hloads hg => (exec_loadDataArrival hfree).trans (congrArg _ (loadArrives_of_pending hloads hg)),
    fun c l pa rows s hsrc hdiscard hrefused => gather_of_refused hsrc hdiscard hrefused,
    fun c q l rest ps x cls s v hfree hloads hsrc hdest hplain hg => loadDataArrival_lines hfree hloads hsrc hdest hplain hg,
    fun c l rest cause s v hfree hloads hg hq hin => loadDataArrival_fault hfree hloads hg hq hin,
    fun c l rest k va s v hfree hloads hg hclean => loadDataArrival_violation hfree hloads hg hclean,
    fun c s hstores => congrArg _ (performStore_nil hstores),
    fun c x rest e es s hstores hentries => ⟨fun r herrs hop => congrArg _ (performStore_pad hstores hentries herrs hop),
      fun c' r hop => congrArg _ (performStore_send hstores hentries hop),
      fun b hop hready => congrArg _ (performStore_dropped hstores hentries hop hready),
      fun b hop hcoming hnot => congrArg _ (performStore_coming hstores hentries hop hcoming hnot),
      fun h herrs hop hrow huse hdrop => storePerformed_whole hstores hentries herrs hop hrow huse hdrop,
      fun b pa h hop hconv hrows hrow hdrop htag hflips =>
        storePerformed_one hstores hentries hop hconv hrows hrow hdrop htag hflips,
      fun b hop hcome hat hnot hnone hin =>
        storePerformed_fault hstores hentries hop hcome (notTaken_of_come hat hnot) hnone hin⟩,
    fun c pre post p s hpushes hpre hpost =>
      ⟨fun hdue => ⟨fun q e hout => congrArg _ (exPush_data hpushes hpre hpost hdue hout),
        fun n b hout => congrArg _ (exPush_bit hpushes hpre hpost hdue hout)⟩,
      fun hearly => congrArg _ (exPush_of_early hpushes hpre hpost hearly)⟩,
    fun n r rest s hqueue => ⟨fun hhit hroom => congrArg _ (sliceService_hit hqueue hhit hroom),
      fun hhit hroom => congrArg _ (sliceService_miss hqueue hhit hroom), fun hfull => congrArg _ (sliceService_full hqueue hfull),
      hitsL2_of_missing⟩,
    fun n r rest s hmiss => congrArg _ (missFill_cons hmiss),
    fun s v r id hint hop => ⟨fun d cls => serve_read hop, serve_read_refused hop⟩,
    fun s v r row data filled o hop => serve_write hop,
    fun s n hqueue => congrArg _ (sliceService_empty hqueue)⟩

end Sys2Proof.Laws
end
